-- ==== Sys2Proof/Word.lean ====
section
/-! DEFINITION. The word types, banks of registers and keyed lists the model is built from. -/

namespace Sys2Proof

abbrev W8 := BitVec 8
abbrev W16 := BitVec 16
abbrev W32 := BitVec 32
abbrev W64 := BitVec 64

/-- A bank of `2 ^ w` like things, indexed by a `w`-bit number (a register field, a lane number). -/
abbrev Bank (w : Nat) (α : Type) := Vector α (2 ^ w)

namespace Bank

def rd {w : Nat} {α : Type} (v : Bank w α) (i : BitVec w) : α := v[i.toNat]'i.isLt

def wr {w : Nat} {α : Type} (v : Bank w α) (i : BitVec w) (x : α) : Bank w α := v.set i.toNat x i.isLt

def fill {w : Nat} {α : Type} (x : α) : Bank w α := Vector.replicate (2 ^ w) x

def gen {w : Nat} {α : Type} (f : BitVec w → α) : Bank w α := Vector.ofFn fun i => f (BitVec.ofNat w i.val)

end Bank

/-- One value for each of the eight lanes (00 R6: V[n][l]). -/
abbrev Lanes (α : Type) := Bank 3 α

/-- A lane number. -/
abbrev Lane := BitVec 3

/-- A set of lanes: bit l belongs to lane l (01 R12). -/
abbrev Mask := BitVec 8

/-- The lanes in ascending order. -/
def allLanes : List Lane := [0, 1, 2, 3, 4, 5, 6, 7]

def Mask.has (m : Mask) (l : Lane) : Bool := m.getLsbD l.toNat

def Mask.one (l : Lane) : Mask := 1#8 <<< l.toNat

/-- The mask of the lanes that satisfy `f`. -/
def Mask.of (f : Lane → Bool) : Mask :=
  allLanes.foldl (fun m l => if f l then m ||| Mask.one l else m) 0

/-- The lanes of a mask, ascending. -/
def Mask.lanes (m : Mask) : List Lane := allLanes.filter m.has

/-- The lowest lane of a mask, lane 0 for an empty one. -/
def Mask.low (m : Mask) : Lane := m.lanes.headD 0

/-- A list of values by number; a key stands at most once when built with `put`. -/
abbrev KMap (α : Type) := List (Nat × α)

namespace KMap

def get {α : Type} (m : KMap α) (k : Nat) : Option α :=
  match m with
  | [] => none
  | (j, x) :: rest => if j = k then some x else KMap.get rest k

def put {α : Type} (m : KMap α) (k : Nat) (x : α) : KMap α :=
  match m with
  | [] => [(k, x)]
  | (j, y) :: rest => if j = k then (k, x) :: rest else (j, y) :: KMap.put rest k x

def del {α : Type} (m : KMap α) (k : Nat) : KMap α := m.filter fun e => e.1 != k

end KMap

end Sys2Proof
end

