-- ==== Sys2Proof/Config.lean ====
section
/-! DEFINITION. What an implementation fixes, and the free values: constants with no body, of which nothing can be proved
but what holds for every value. Each is named in the assumption log (notes/assumptions). -/

namespace Sys2Proof.Config

/-- Which of several steps that may come next does come next (log entry 2). -/
opaque pick : Nat → Nat

/-- What the approximating functions of 05 R138 compute before the manual's bound is applied (log entry 4). -/
opaque rcp : W32 → W32
opaque rsq : W32 → W32
opaque exp2 : W32 → W32
opaque log2 : W32 → W32
opaque sinPi : W32 → W32
opaque cosPi : W32 → W32

/-- By how much an event raises a counter of caches, DRAM, stalls, walks or links, and where a line stands, by counter and moment (22 R425, R426,
log entry 5). -/
opaque counterGain : Nat → Nat → W64

/-- The key a queue takes when it is created or destroyed (16 R332, log entry 8). -/
opaque queueKey : Nat → W32

/-- Which free frame a request is offered first (14 R315, log entry 9). -/
opaque frame : Nat → Nat

/-- What the manual names and gives no bytes of: the part number and ROM version as IDENTIFY and a scan dump hold them, the certificate chain in
DER, the format and ROM version that begin an attestation report (20 R407, R410, 22 R445, log entry 10). -/
opaque partAndRom : List W8
opaque certificates : List W8
opaque reportHead : List W8

/-- The module's identity key, and the nonce of a signature (20 R410, log entry 10). -/
opaque identityKey : Nat
opaque signNonce : Nat → Nat

/-- The digest of the patch key in the fuses, and what the first 128 bytes of a patch header hold, whose layout the manual does not give: whether
magic and format are right, the version, the SVN, the flags, the body's length and digest, and the public key (20 R409, log entry 10). -/
opaque patchKeyDigest : List W8

structure PatchHead where
  known : Bool
  version : W32
  svn : W32
  flags : W32
  len : Nat
  digest : List W8
  key : List W8
  deriving DecidableEq, Repr

opaque patchHead : List W8 → Option PatchHead

/-- What the VF binding table of DOMAIN_FORM, whose layout the manual does not give, binds: VF here, module, VF there (16 R346, log
entry 10). -/
opaque bindings : (Nat → W8) → List (Nat × Nat × Nat)

/-- The check bits of a word in a scan dump, the lines that L1 and L2 hold, and what the scratchpad's granules of no grid do, which the
manual does not give (22 R445, log entry 10). -/
opaque checkBits : List W8 → List W8
opaque cacheLines : Nat → List Nat
opaque idleScratch : Nat → List W8

/-- Where the LPDDR range starts that the session of a dump names, and its bytes (22 R445, log entry 10). -/
opaque scanRange : Nat → Nat × Nat

/-- What an encoder codes as one tile row (18 R376, R383): whether it is the first of its frame, which a sequence and a frame header precede,
the base quantiser, bits a sample, width and lines, and the samples Y, Cb, Cr; none where every block skips. -/
structure TileRow where
  first : Bool
  qidx : Nat
  bits : Nat
  width : Nat
  lines : Nat
  planes : Option (List Nat × List Nat × List Nat)
  deriving DecidableEq, Repr

/-- The AV1 OBU bytes of a coded tile row (18 R383, log entry 11). -/
opaque obu : TileRow → Nat → List W8

/-- What IEEE 1588 leaves to the port (18 R362, log entry 12): its identity, whether an Announce is of a better master than another, the delay
mechanism, the rate and the step that an offset in 2^-16 ns yields at a moment, and the frame that carries a message. -/
opaque ptpSelf : List W8
opaque ptpBetter : List W8 → List W8 → Bool
opaque ptpPeer : Bool
opaque ptpAdjust : Int → Nat → W32
opaque ptpStep : Int → Nat → Option W64
opaque ptpFrame : List W8 → List W8

/-- A free value where the manual states a result's presence and not its bits, by moment (log entry 13). -/
opaque value32 : Nat → W32
opaque value64 : Nat → W64

/-- The die: 16 columns by 12 rows of cores (00 R1). -/
def cores : Nat := 192
def meshColumns : Nat := 16
def meshRows : Nat := 12

/-- Per core: group slots, register granules, accumulator slots, shared bytes (10 R245). -/
def groupSlots : Nat := 512
def granules : Nat := 2048
def accSlots : Nat := 256
def sharedBytes : Nat := 262144

/-- Scratchpad granules of 64 KiB in each of the 192 slices (12 R273). -/
def sliceGranules : Nat := 12

/-- Whether the other path, in a cycle of the core, still reads the old value of a register of a pair that a path of the group writes in it (05
R121). -/
opaque readsOld : (cycle : Nat) → (group : Nat) → (reg : Nat) → Bool

/-- Cycles after which a `waita`, `btry` or `cbtry` returns (06 R167, 07 R193). -/
def waitCycles : Nat := 4096

end Sys2Proof.Config
end

