-- ==== Sys2Proof/Operand.lean ====
section
/-! DEFINITION. The operands of the Flano instructions and of the Shepherd's filter words, as types: registers, permutations,
immediates, modifiers and codes. Encodings are Decode's, meanings are the machine's. -/

namespace Sys2Proof

/-! ### Registers (01 R7, 02 R48) -/

abbrev SReg := BitVec 6
abbrev VReg := BitVec 8
abbrev KReg := BitVec 4
abbrev XReg := BitVec 2
abbrev DReg := BitVec 3
abbrev TReg := BitVec 3
abbrev QReg := BitVec 2

/-- A team barrier b0 to b15 or a cluster barrier cb0 to cb3 (07 R190). -/
inductive Bar where
  | team (n : BitVec 4)
  | cluster (n : BitVec 2)
  deriving DecidableEq, Repr

/-! ### What every Flano instruction carries (02 R46, R50) -/

/-- Form, live-mask word, lookahead count and predicate of an instruction. -/
structure Hdr where
  long : Bool
  live : Option W64
  la : BitVec 4
  pk : KReg
  pn : Bool
  deriving DecidableEq, Repr

/-- The permutation of a lane source (02 R56). -/
inductive Perm where
  | id
  | rot (p : BitVec 3)
  | bc (p : BitVec 3)
  | bf (p : BitVec 3)
  | mir (p : Fin 3)
  deriving DecidableEq, Repr

/-- A lane source with its permutation. -/
structure VSrc where
  r : VReg
  p : Perm
  deriving DecidableEq, Repr

/-- A scalar register or an immediate, already extended to 32 bits (02 R54). -/
inductive SB where
  | reg (r : SReg)
  | imm (v : W32)
  deriving DecidableEq, Repr

/-- A lane source or an immediate. -/
inductive VB where
  | reg (a : VSrc)
  | imm (v : W32)
  deriving DecidableEq, Repr

/-! ### Codes (02 R51, R63-R65) -/

inductive Cond where
  | eq | ne | lt | le | gt | ge | ltu | leu | gtu | geu
  deriving DecidableEq, Repr

inductive FCond where
  | eq | ne | lt | le | gt | ge | uo | ord
  deriving DecidableEq, Repr

/-- A rounding mode (03 R81). -/
inductive Rm where
  | rne | rtz | rdn | rup
  deriving DecidableEq, Repr

/-- A rounding mode or stochastic rounding (02 R51, 03 R82). -/
inductive Rnd where
  | mode (m : Rm)
  | sr
  deriving DecidableEq, Repr

/-- Half select (05 R124). -/
inductive Half where
  | whole | lo | hi
  deriving DecidableEq, Repr

/-- Element width of the lane integer instructions (05 R122). -/
inductive Width where
  | w32 | h2 | b4
  deriving DecidableEq, Repr

/-- Type codes 0 to 11 (02 R63). -/
inductive Ty where
  | f32 | f16 | bf16 | e4m3 | e5m2 | e2m1 | int8 | uint8 | int16 | uint16 | int32 | uint32
  deriving DecidableEq, Repr

/-- Types of the scalar floating-point instructions (04 R108). -/
inductive SFty where
  | f32 | f16 | bf16
  deriving DecidableEq, Repr

/-- Destination types of `sfcvt` (03 R90). -/
inductive SCvtTy where
  | f32 | f16 | bf16 | int32 | uint32 | int64 | uint64
  deriving DecidableEq, Repr

/-- Types of the packed-half instructions (05 R141). -/
inductive HTy where
  | f16 | bf16
  deriving DecidableEq, Repr

inductive Space where
  | g | s | c | p | k | f
  deriving DecidableEq, Repr

inductive Size where
  | b | h | w | d | q
  deriving DecidableEq, Repr

inductive Ord where
  | rlx | acq | rel | ar
  deriving DecidableEq, Repr

inductive Scope where
  | path | group | team | cluster | module | domain | system
  deriving DecidableEq, Repr

/-- Operations of the atomics (06 R159). -/
inductive AtomOp where
  | add | and | or | xor | exch | min | max | minu | maxu | fadd | fmin | fmax
  deriving DecidableEq, Repr

/-- Operations of `vred` and `vscan` (05 R134). -/
inductive RedOp where
  | iadd | imin | imax | iand | ior | ixor | fadd | fmin | fmax | xadd
  deriving DecidableEq, Repr

/-! ### Scalar operand shapes (04) -/

/-- `op sD, sA, sB|imm`. -/
structure SBin where
  d : SReg
  a : SReg
  b : SB
  deriving DecidableEq, Repr

/-- `op[.sat] sD, sA, sB|imm`. -/
structure SSat where
  sat : Bool
  d : SReg
  a : SReg
  b : SB
  deriving DecidableEq, Repr

/-- `op sD, imm32`. -/
structure SImm where
  d : SReg
  imm : W32
  deriving DecidableEq, Repr

/-- `op sD, sA`. -/
structure SUn where
  d : SReg
  a : SReg
  deriving DecidableEq, Repr

/-- `op sD, sA, pos, width`; the width is `wm1 + 1`. -/
structure SBits where
  d : SReg
  a : SReg
  pos : BitVec 6
  wm1 : BitVec 6
  deriving DecidableEq, Repr

structure SCmp where
  cc : Cond
  d : SReg
  a : SReg
  b : SB
  deriving DecidableEq, Repr

/-- `smov sD, sA|imm`. -/
structure SMov where
  d : SReg
  a : SB
  deriving DecidableEq, Repr

structure SFp where
  t : SFty
  rm : Rm
  d : SReg
  a : SReg
  b : SReg
  deriving DecidableEq, Repr

structure SFma where
  t : SFty
  rm : Rm
  d : SReg
  a : SReg
  b : SReg
  c : SReg
  deriving DecidableEq, Repr

structure SFCmp where
  t : SFty
  cc : FCond
  d : SReg
  a : SReg
  b : SReg
  deriving DecidableEq, Repr

structure SFCvt where
  dst : SCvtTy
  src : SFty
  rm : Rm
  sat : Bool
  d : SReg
  a : SReg
  deriving DecidableEq, Repr

/-! ### Predicate and control shapes (04) -/

structure KBin where
  d : KReg
  a : KReg
  b : KReg
  deriving DecidableEq, Repr

structure KUn where
  d : KReg
  a : KReg
  deriving DecidableEq, Repr

/-- A predicate read into a scalar. -/
structure KRed where
  d : SReg
  a : KReg
  deriving DecidableEq, Repr

structure KSet where
  d : KReg
  a : SReg
  deriving DecidableEq, Repr

/-- Target and reconvergence offsets in 8-byte units (02 R55). -/
structure Br where
  toff : W32
  roff : BitVec 20
  deriving DecidableEq, Repr

structure Brx where
  a : VReg
  roff : BitVec 20
  deriving DecidableEq, Repr

structure SLoop where
  d : SReg
  toff : W32
  deriving DecidableEq, Repr

/-! ### Lane shapes (05) -/

/-- Width, signedness, saturation and half select with two sources. -/
structure VArith where
  w : Width
  u : Bool
  sat : Bool
  half : Half
  d : VReg
  a : VSrc
  b : VB
  deriving DecidableEq, Repr

/-- As `VArith`, with no saturation. -/
structure VUns where
  w : Width
  u : Bool
  half : Half
  d : VReg
  a : VSrc
  b : VB
  deriving DecidableEq, Repr

structure VMad where
  w : Width
  u : Bool
  sat : Bool
  half : Half
  d : VReg
  a : VSrc
  b : VSrc
  c : VSrc
  deriving DecidableEq, Repr

/-- 32-bit, two sources, no modifier. -/
structure VLogic where
  d : VReg
  a : VSrc
  b : VB
  deriving DecidableEq, Repr

/-- Width and half select, two sources. -/
structure VElem where
  w : Width
  half : Half
  d : VReg
  a : VSrc
  b : VB
  deriving DecidableEq, Repr

structure VAbs where
  w : Width
  sat : Bool
  half : Half
  d : VReg
  a : VSrc
  deriving DecidableEq, Repr

structure VCount where
  w : Width
  half : Half
  d : VReg
  a : VSrc
  deriving DecidableEq, Repr

/-- `vbfx[.u]`; the width is `wm1 + 1`. -/
structure VBfx where
  u : Bool
  d : VReg
  a : VSrc
  pos : BitVec 5
  wm1 : BitVec 5
  deriving DecidableEq, Repr

structure VBfi where
  d : VReg
  a : VSrc
  pos : BitVec 5
  wm1 : BitVec 5
  deriving DecidableEq, Repr

structure VCmp where
  cc : Cond
  d : KReg
  a : VSrc
  b : VB
  deriving DecidableEq, Repr

/-- `vaddw`, `vmulw`: D (and A of `vaddw`) name pairs. -/
structure VWide where
  u : Bool
  d : VReg
  a : VSrc
  b : VB
  deriving DecidableEq, Repr

structure VMov where
  d : VReg
  a : VB
  deriving DecidableEq, Repr

structure VLi where
  half : Half
  d : VReg
  imm : W32
  deriving DecidableEq, Repr

structure VBcast where
  d : VReg
  a : SReg
  deriving DecidableEq, Repr

structure VToS where
  u : Bool
  d : SReg
  a : VSrc
  n : Lane
  deriving DecidableEq, Repr

/-- `vperm.lane` takes its lane from data, so only `.byte` permutes A (05 R133). -/
inductive VPermA where
  | lane (r : VReg)
  | byte (a : VSrc)
  deriving DecidableEq, Repr

structure VPerm where
  d : VReg
  a : VPermA
  b : VSrc
  deriving DecidableEq, Repr

structure VRed where
  op : RedOp
  u : Bool
  d : VReg
  a : VSrc
  deriving DecidableEq, Repr

/-- FP32, two sources, rounding or `.sr`. -/
structure VFp where
  rnd : Rnd
  d : VReg
  a : VSrc
  b : VSrc
  deriving DecidableEq, Repr

structure VFma where
  rnd : Rnd
  d : VReg
  a : VSrc
  b : VSrc
  c : VSrc
  deriving DecidableEq, Repr

/-- Two sources, no modifier. -/
structure VBin where
  d : VReg
  a : VSrc
  b : VSrc
  deriving DecidableEq, Repr

structure VFCmp where
  cc : FCond
  d : KReg
  a : VSrc
  b : VSrc
  deriving DecidableEq, Repr

/-- One source, no modifier. -/
structure VUn where
  d : VReg
  a : VSrc
  deriving DecidableEq, Repr

structure VFRnd where
  rm : Rm
  d : VReg
  a : VSrc
  deriving DecidableEq, Repr

structure VHalf where
  t : HTy
  rnd : Rnd
  half : Half
  d : VReg
  a : VSrc
  b : VSrc
  deriving DecidableEq, Repr

structure VHFma where
  t : HTy
  rnd : Rnd
  half : Half
  d : VReg
  a : VSrc
  b : VSrc
  c : VSrc
  deriving DecidableEq, Repr

structure VDot2 where
  t : HTy
  rnd : Rnd
  d : VReg
  a : VSrc
  b : VSrc
  deriving DecidableEq, Repr

structure VDot4 where
  u : Bool
  sat : Bool
  d : VReg
  a : VSrc
  b : VSrc
  deriving DecidableEq, Repr

structure VCvt where
  dst : Ty
  src : Ty
  rnd : Rnd
  sat : Bool
  d : VReg
  a : VSrc
  ds : BitVec 3
  ss : BitVec 3
  deriving DecidableEq, Repr

/-! ### Memory shapes (06) -/

/-- The three address modes of R146. -/
inductive Addr where
  | vec (a : VReg)
  | scaled (a : SReg) (b : VReg)
  | lanes (a : SReg)
  deriving DecidableEq, Repr

structure VLd where
  z : Size
  sp : Space
  ord : Ord
  scope : Scope
  sx : Bool
  d : VReg
  addr : Addr
  off : W32
  deriving DecidableEq, Repr

structure VSt where
  z : Size
  sp : Space
  ord : Ord
  scope : Scope
  d : VReg
  addr : Addr
  off : W32
  deriving DecidableEq, Repr

structure SLd where
  z : Size
  sp : Space
  ord : Ord
  scope : Scope
  sx : Bool
  d : SReg
  a : SReg
  off : W32
  deriving DecidableEq, Repr

structure SSt where
  z : Size
  sp : Space
  ord : Ord
  scope : Scope
  d : SReg
  a : SReg
  off : W32
  deriving DecidableEq, Repr

structure VAtom where
  op : AtomOp
  z : Size
  sp : Space
  ord : Ord
  scope : Scope
  d : VReg
  a : VReg
  off : W32
  b : VReg
  deriving DecidableEq, Repr

structure SAtom where
  op : AtomOp
  z : Size
  sp : Space
  ord : Ord
  scope : Scope
  d : SReg
  a : SReg
  off : W32
  b : SReg
  deriving DecidableEq, Repr

structure VCas where
  z : Size
  sp : Space
  ord : Ord
  scope : Scope
  d : VReg
  a : VReg
  off : W32
  b : VReg
  c : VReg
  deriving DecidableEq, Repr

structure SCas where
  z : Size
  sp : Space
  ord : Ord
  scope : Scope
  d : SReg
  a : SReg
  off : W32
  b : SReg
  c : SReg
  deriving DecidableEq, Repr

structure VPrefetch where
  l2 : Bool
  z : Size
  addr : Addr
  off : W32
  deriving DecidableEq, Repr

/-- Sets of access kinds R W CR CW MR MW Q from bit 0 (06 R164). -/
structure Fence where
  scope : Scope
  pred : BitVec 7
  succ : BitVec 7
  deriving DecidableEq, Repr

structure WaitA where
  z : Size
  sp : Space
  ord : Ord
  scope : Scope
  d : SReg
  a : SReg
  off : W32
  b : SReg
  deriving DecidableEq, Repr

/-- Step of INDEX of `vrdx` and `vwrx` (06 R168). -/
inductive XStep where
  | none | inc | dec
  deriving DecidableEq, Repr

structure VIdx where
  step : XStep
  d : VReg
  x : XReg
  off : W8
  deriving DecidableEq, Repr

/-- The three forms of `xset` (06 R169). -/
inductive XSet where
  | reg (d : XReg) (a : VReg)
  | imm (d : XReg) (v : BitVec 24)
  | get (d : VReg) (a : XReg)
  deriving DecidableEq, Repr

/-- `spill` and `fill` of `nm1 + 1` registers; `adj` is `.push` or `.pop` (06 R171). -/
structure SpillFill where
  adj : Bool
  d : VReg
  nm1 : BitVec 4
  off : W32
  deriving DecidableEq, Repr

/-! ### Engine shapes (07) -/

/-- Operand types of `mma` (07 R175, R176). FP8 names the kinds of A and B apart; FP4 names its scale block and sblk / 2. -/
inductive MmaTy where
  | f16 | bf16 | int8
  | fp8 (a5 : Bool) (b : Option Bool)
  | fp4 (c : VReg) (hi : Bool)
  deriving DecidableEq, Repr

structure Mma where
  t : MmaTy
  d : TReg
  a : VReg
  b : VReg
  deriving DecidableEq, Repr

/-- Rows moved by `mmov` and `mload` (07 R174). -/
inductive Rows where
  | all | top | bot
  deriving DecidableEq, Repr

structure MMove where
  rows : Rows
  v : VReg
  t : TReg
  deriving DecidableEq, Repr

/-- The spaces of the engine instructions: global, shared, scratchpad (07 R174, R182). -/
inductive ESpace where
  | g | s | p
  deriving DecidableEq, Repr

structure MMem where
  sp : ESpace
  t : TReg
  a : SReg
  off : W32
  b : SReg
  bar : Option Bar
  deriving DecidableEq, Repr

structure DMem where
  sp : ESpace
  d : DReg
  a : SReg
  off : W32
  deriving DecidableEq, Repr

/-- Fields of a tensor descriptor (07 R182). -/
inductive DField where
  | base | dim0 | dim1 | dim2 | dim3 | stride1 | stride2 | stride3 | box0 | box1 | box2 | box3 | type | flags | fill | walk
  deriving DecidableEq, Repr

structure DSet where
  f : DField
  d : DReg
  b : SB
  deriving DecidableEq, Repr

/-- Directions of a tensor copy (07 R183). -/
inductive CDir where
  | g2s | s2g | g2p | p2g | p2s | s2p
  deriving DecidableEq, Repr

structure TCopy where
  dir : CDir
  d : DReg
  a : SReg
  b : SReg
  bar : Option Bar
  tag : W16
  deriving DecidableEq, Repr

/-- The count of `binit`: a register or a 16-bit immediate. -/
inductive BCount where
  | reg (a : SReg)
  | imm (n : W16)
  deriving DecidableEq, Repr

structure BInit where
  bar : Bar
  n : BCount
  deriving DecidableEq, Repr

structure BArr where
  d : SReg
  bar : BitVec 4
  n : W16
  deriving DecidableEq, Repr

structure CBArr where
  d : SReg
  bar : BitVec 2
  n : W16
  deriving DecidableEq, Repr

structure BTry where
  d : KReg
  bar : BitVec 4
  b : SReg
  deriving DecidableEq, Repr

structure CBTry where
  d : KReg
  bar : BitVec 2
  b : SReg
  deriving DecidableEq, Repr

/-- `rbox4 vD:5`, `rtri vD:4` and `cover vD`, with a block A and a pair B. -/
structure Trav where
  d : VReg
  a : VReg
  b : VReg
  deriving DecidableEq, Repr

structure Pairs where
  kp : KReg
  a : SReg
  b : SReg
  d : SReg
  q : QReg
  deriving DecidableEq, Repr

structure Tex where
  lin : Bool
  wrap : Bool
  d : VReg
  a : VReg
  b : DReg
  deriving DecidableEq, Repr

structure QEnq where
  kp : KReg
  q : QReg
  d : VReg
  deriving DecidableEq, Repr

structure QDeq where
  kp : KReg
  ke : KReg
  d : VReg
  q : QReg
  deriving DecidableEq, Repr

structure Rwq where
  kp : KReg
  q : QReg
  d : VReg
  b : SReg
  deriving DecidableEq, Repr

structure Launch where
  kp : KReg
  d : VReg
  a : VReg
  deriving DecidableEq, Repr

structure LWait where
  d : VReg
  a : VReg
  deriving DecidableEq, Repr

/-! ### System shapes (08) -/

/-- Control registers of a scalar operand (01 R17). -/
inductive CrName where
  | gid | teamid | clid | gridid | core | vfid | pathix | pmask | gctl | vwin | smask | fcause | fpc
  | srate | stripid | deadln
  | ctr (n : W8)
  deriving DecidableEq, Repr

/-- `crd`: a scalar register, or FADDR to a pair, or RNGS to a lane register. -/
inductive Crd where
  | scalar (n : CrName) (d : SReg)
  | faddr (d : VReg)
  | rngs (d : VReg)
  deriving DecidableEq, Repr

/-- Scalar control registers that some level may write (01 R17, R20). -/
inductive CwName where
  | gctl | smask | fcause | fpc
  deriving DecidableEq, Repr

inductive Cwr where
  | scalar (n : CwName) (a : SReg)
  | faddr (a : VReg)
  | rngs (a : VReg)
  deriving DecidableEq, Repr

/-- Page sizes (08 R231, 14 R306). -/
inductive PSize where
  | p4k | p64k | p2m | p1g
  deriving DecidableEq, Repr

structure PgMap where
  z : PSize
  d : SReg
  a : SReg
  b : SReg
  deriving DecidableEq, Repr

structure ShEv where
  a : SReg
  b : SReg
  deriving DecidableEq, Repr

/-- `clock[.frac] sD`. -/
structure Clock where
  frac : Bool
  d : SReg
  deriving DecidableEq, Repr

/-- `tstat sD, dA`. -/
structure TStat where
  d : SReg
  a : DReg
  deriving DecidableEq, Repr

end Sys2Proof
end

