-- ==== Sys2Proof/Message.lean ====
section
/-! DEFINITION. What device events, host accesses, firmware commands and messages of other modules carry. -/

namespace Sys2Proof

/-- A path of a group, by the group's handle and the path-table index (04 R98). -/
structure PathRef where
  g : Nat
  p : BitVec 3
  deriving DecidableEq, Repr

/-- What is asked of a module over Xasta links (16 R347): memory accesses, queue operations by handle, payloads. A memory address is a
domain address of the target VF, or of PA class 01, which is not translated (14 R302). `claim` reads under write permission for a later
write; `line` names bytes that an engine will write (12 R284); `payload` writes and `slot` reserves a queue slot (07 R213). -/
inductive RemoteOp where
  | read (addr : W64) (n : Nat)
  | fetch (addr : W64)
  | write (addr : W64) (d : List W8)
  | claim (addr : W64) (n : Nat)
  | line (addr : W64) (n : Nat)
  | atom (addr : W64) (op : AtomOp) (z : Size) (b : W64)
  | cas (addr : W64) (z : Size) (b c : W64)
  | enq (handle : W64) (rec : BitVec 256)
  | probe (handle : W64)
  | eos (handle : W64)
  | slot (handle : W64)
  | unslot (handle : W64)
  | enqKept (handle : W64) (rec : BitVec 256)
  deriving DecidableEq, Repr

/-- Whether an operation writes memory, now or later. -/
def RemoteOp.writes : RemoteOp → Bool
  | .read _ _ | .fetch _ => false
  | _ => true

/-- Whether an operation only names lines. -/
def RemoteOp.isLine : RemoteOp → Bool
  | .line _ _ => true
  | _ => false

/-- The part of an operation in one of its pages, whose bytes begin at an offset, at another address (12 R283). -/
def RemoteOp.part (o : RemoteOp) (off len : Nat) (a : W64) : Option RemoteOp :=
  match o with
  | .read _ _ | .fetch _ | .claim _ _ => some (.read a len)
  | .write _ d => some (.write a ((d.drop off).take len))
  | .atom _ op z b => some (.atom a op z b)
  | .cas _ z b c => some (.cas a z b c)
  | .line _ _ | .enq _ _ | .probe _ | .eos _ | .slot _ | .unslot _ | .enqKept _ _ => none

/-- What a request does: translate its accesses and hold them (past the lines that it names as the sender's; a `payload` to the first page that fails, 14 R322), until `go` performs what an earlier request holds, `finish` writes, by key, what its
claims named, `release` gives up some bytes of its lines, or `cancel` gives it all up; or all at once (14 R310, 16 R347). -/
inductive ReqMode where
  | ask (own : Bool) (past : List Nat)
  | payload
  | go (id : Nat)
  | finish (id : Nat) (parts : List (Nat × List W8))
  | release (id : Nat) (keys : List Nat)
  | cancel (id : Nat)
  | once
  deriving DecidableEq, Repr

/-- What one access came back with: passed and held, the target's cause, or the bytes read (14 R310, 16 R347). -/
inductive PieceAnswer where
  | pass
  | cause (c : W8)
  | data (d : List W8)
  deriving DecidableEq, Repr

/-- The answer of a module to a request: by the keys of its accesses, or of a queue operation (16 R335, 07 R213). -/
inductive Answer where
  | pieces (a : List (Nat × PieceAnswer))
  | queue (full : Bool)
  | badHandle
  deriving DecidableEq, Repr

/-- A request arriving at this module: the sender and its reference, the VF bound here, and the keyed accesses. -/
structure Request where
  src : Nat
  id : Nat
  vf : Nat
  g : W32
  mode : ReqMode
  ops : List (Nat × RemoteOp)
  deriving DecidableEq, Repr

/-- The source that steers the Bellwether (18 R361). -/
inductive Steer where
  | host | controller
  deriving DecidableEq, Repr

/-- A window of the device (20 R394). -/
inductive Window where
  | pf
  | vf (n : Nat)
  deriving DecidableEq, Repr

/-- A host write of 4 or 8 bytes to a window register (20 R394). -/
structure HostWrite where
  win : Window
  off : Nat
  wide : Bool
  v : W64
  deriving DecidableEq, Repr

/-- What every firmware command carries: its tag, its target, and whether its zero fields are zero (20 R405, R406). -/
structure FwHdr where
  tag : W16
  target : W16
  zeroOk : Bool
  deriving DecidableEq, Repr

/-- A firmware command as it is taken from the ring: its OPC, header, and operands in the order of the command table (20 R405, R407). -/
structure FwCmd where
  opc : W16
  hdr : FwHdr
  args : List Nat
  deriving DecidableEq, Repr

/-- The values of TIMERS, 0 to keep (20 R407). -/
structure Timers where
  spwin : W32
  prep : W32
  grace : W32
  killt : W32
  agep : W32
  fabto : W32
  start : W32
  slice : W32
  deriving DecidableEq, Repr

/-- The group a Crook command names, with the submission's tag (21 R419, 22 R443). -/
structure CrookTo where
  vf : Nat
  tag : W16
  grid : W32
  g : W32
  deriving DecidableEq, Repr

/-- Notice-ring registers of the Crook (22 R442). -/
inductive NoticeReg where
  | nread | nbase | nlog
  deriving DecidableEq, Repr

end Sys2Proof
end

