-- ==== Sys2Proof/Syntax.lean ====
section
/-! DEFINITION. The instructions: one constructor for each row of the opcode table, in the table's order. Flano instructions
carry a header (form, live-mask word, lookahead, predicate) and their operands; the Shepherd's filter words their fields;
device events, host accesses and messages what they act on. -/

namespace Sys2Proof

inductive Instr where
  /-- Scalar add of sA and a register or immediate, with optional saturation (R105). -/
  | sadd (h : Hdr) (o : SSat)
  /-- Writes the instruction's PC plus a signed byte distance to a scalar register (R105). -/
  | saddi (h : Hdr) (o : SImm)
  /-- Scalar subtract, with optional saturation (R105). -/
  | ssub (h : Hdr) (o : SSat)
  /-- Low 64 bits of a scalar product (R105). -/
  | smul (h : Hdr) (o : SBin)
  /-- High 64 bits of the signed 128-bit scalar product (R105). -/
  | smulh (h : Hdr) (o : SBin)
  /-- Scalar bitwise AND (R105). -/
  | sand (h : Hdr) (o : SBin)
  /-- Scalar bitwise OR (R105). -/
  | sor (h : Hdr) (o : SBin)
  /-- Scalar bitwise XOR (R105). -/
  | sxor (h : Hdr) (o : SBin)
  /-- Scalar left shift by a 6-bit count (R105). -/
  | sshl (h : Hdr) (o : SBin)
  /-- Scalar logical right shift (R105). -/
  | sshr (h : Hdr) (o : SBin)
  /-- Scalar arithmetic right shift (R105). -/
  | ssra (h : Hdr) (o : SBin)
  /-- Signed scalar minimum (R105). -/
  | smin (h : Hdr) (o : SBin)
  /-- Signed scalar maximum (R105). -/
  | smax (h : Hdr) (o : SBin)
  /-- Unsigned scalar minimum (R105). -/
  | sminu (h : Hdr) (o : SBin)
  /-- Unsigned scalar maximum (R105). -/
  | smaxu (h : Hdr) (o : SBin)
  /-- Counts the leading zeros of a scalar (R105). -/
  | sclz (h : Hdr) (o : SUn)
  /-- Counts the one bits of a scalar (R105). -/
  | spopc (h : Hdr) (o : SUn)
  /-- Extracts a zero-extended scalar bit field (R106). -/
  | sbfx (h : Hdr) (o : SBits)
  /-- Inserts a bit field into a scalar register (R106). -/
  | sbfi (h : Hdr) (o : SBits)
  /-- Selects sA or opB by the old value of sD (R107). -/
  | ssel (h : Hdr) (o : SBin)
  /-- Scalar compare by condition code, writing 1 or 0 (R105). -/
  | scmp (h : Hdr) (o : SCmp)
  /-- Loads a sign-extended 32-bit immediate into a scalar (R105). -/
  | sli (h : Hdr) (o : SImm)
  /-- Loads the upper 32 bits of a scalar, keeping the low half (R105). -/
  | slih (h : Hdr) (o : SImm)
  /-- Scalar move of a register or sign-extended immediate (R105). -/
  | smov (h : Hdr) (o : SMov)
  /-- Scalar floating-point add in FP32, FP16 or BF16 (R108). -/
  | sfadd (h : Hdr) (o : SFp)
  /-- Scalar floating-point multiply (R108). -/
  | sfmul (h : Hdr) (o : SFp)
  /-- Scalar fused multiply-add with one rounding (R108). -/
  | sfma (h : Hdr) (o : SFma)
  /-- Scalar floating-point compare writing 1 or 0 (R108). -/
  | sfcmp (h : Hdr) (o : SFCmp)
  /-- Scalar conversion between float types or to saturating integers (R90). -/
  | sfcvt (h : Hdr) (o : SFCvt)
  /-- Uniform conditional branch that faults or takes the lowest lane on disagreement (R112). -/
  | bru (h : Hdr) (o : W32)
  /-- Divergent conditional branch that may split the path at a reconvergence address (R113). -/
  | br (h : Hdr) (o : Br)
  /-- Divergent indirect branch grouping lanes by target, splitting up to eight ways (R114). -/
  | brx (h : Hdr) (o : Brx)
  /-- Unconditional PC-relative jump (R115). -/
  | jmp (h : Hdr) (o : W32)
  /-- Jump to the address in a scalar register (R115). -/
  | jmpr (h : Hdr) (o : SReg)
  /-- Jump through a lane pair whose targets must agree (R115). -/
  | jmpv (h : Hdr) (o : VReg)
  /-- Saves lr on the spill stack, sets lr and jumps PC-relative (R116). -/
  | call (h : Hdr) (o : W32)
  /-- Call through a scalar register (R116). -/
  | callr (h : Hdr) (o : SReg)
  /-- Jumps to lr and restores lr from the spill stack (R116). -/
  | ret (h : Hdr)
  /-- Merge point where a path whose RCV matches arrives at its join record (R117). -/
  | rcv (h : Hdr)
  /-- Decrements a scalar counter and branches while it is nonzero (R118). -/
  | sloop (h : Hdr) (o : SLoop)
  /-- Ends the lanes of EMASK and frees emptied paths and join records (R119). -/
  | exit (h : Hdr)
  /-- Predicate AND in EMASK lanes (R109). -/
  | kand (h : Hdr) (o : KBin)
  /-- Predicate OR (R109). -/
  | kor (h : Hdr) (o : KBin)
  /-- Predicate XOR (R109). -/
  | kxor (h : Hdr) (o : KBin)
  /-- Predicate NOT (R109). -/
  | knot (h : Hdr) (o : KUn)
  /-- Predicate move (R109). -/
  | kmov (h : Hdr) (o : KUn)
  /-- Writes 1 to a scalar if any EMASK lane of a predicate is set (R109). -/
  | kany (h : Hdr) (o : KRed)
  /-- Writes 1 to a scalar if every EMASK lane of a predicate is set (R109). -/
  | kall (h : Hdr) (o : KRed)
  /-- Counts the set EMASK lanes of a predicate (R109). -/
  | kcount (h : Hdr) (o : KRed)
  /-- Sets a predicate from the low bits of a scalar (R109). -/
  | kset (h : Hdr) (o : KSet)
  /-- Reads a predicate into a scalar over EMASK lanes (R109). -/
  | kget (h : Hdr) (o : KRed)
  /-- Scalar load from a memory space with ordering and scope (R158). -/
  | sld (h : Hdr) (o : SLd)
  /-- Scalar store to a memory space (R158). -/
  | sst (h : Hdr) (o : SSt)
  /-- Scalar atomic read-modify-write returning the old value (R160). -/
  | satom (h : Hdr) (o : SAtom)
  /-- Scalar compare-and-swap (R161). -/
  | scas (h : Hdr) (o : SCas)
  /-- Lane integer add by element width, with optional saturation (R125). -/
  | vadd (h : Hdr) (o : VArith)
  /-- Lane integer subtract (R125). -/
  | vsub (h : Hdr) (o : VArith)
  /-- Lane integer multiply, low bits (R125). -/
  | vmul (h : Hdr) (o : VArith)
  /-- Lane integer multiply, high bits (R125). -/
  | vmulh (h : Hdr) (o : VUns)
  /-- Lane integer multiply-add (R125). -/
  | vmad (h : Hdr) (o : VMad)
  /-- Adds a 32-bit operand into a 64-bit lane pair (R130). -/
  | vaddw (h : Hdr) (o : VWide)
  /-- Full 64-bit product of 32-bit lane operands (R130). -/
  | vmulw (h : Hdr) (o : VWide)
  /-- Lane bitwise AND (R125). -/
  | vand (h : Hdr) (o : VLogic)
  /-- Lane bitwise OR (R125). -/
  | vor (h : Hdr) (o : VLogic)
  /-- Lane bitwise XOR (R125). -/
  | vxor (h : Hdr) (o : VLogic)
  /-- Lane left shift by element (R125). -/
  | vshl (h : Hdr) (o : VElem)
  /-- Lane logical right shift (R125). -/
  | vshr (h : Hdr) (o : VElem)
  /-- Lane arithmetic right shift (R125). -/
  | vsra (h : Hdr) (o : VElem)
  /-- Lane integer minimum (R125). -/
  | vmin (h : Hdr) (o : VUns)
  /-- Lane integer maximum (R125). -/
  | vmax (h : Hdr) (o : VUns)
  /-- Lane integer absolute value (R126). -/
  | vabs (h : Hdr) (o : VAbs)
  /-- Lane integer negation (R126). -/
  | vneg (h : Hdr) (o : VAbs)
  /-- Lane leading-zero count (R125). -/
  | vclz (h : Hdr) (o : VCount)
  /-- Lane population count (R125). -/
  | vpopc (h : Hdr) (o : VCount)
  /-- Lane bit reversal (R125). -/
  | vbrev (h : Hdr) (o : VCount)
  /-- Lane bit-field extract (R127). -/
  | vbfx (h : Hdr) (o : VBfx)
  /-- Lane bit-field insert (R127). -/
  | vbfi (h : Hdr) (o : VBfi)
  /-- Lane select by the old value of vD (R128). -/
  | vsel (h : Hdr) (o : VElem)
  /-- Lane integer compare into a predicate (R129). -/
  | vcmp (h : Hdr) (o : VCmp)
  /-- Lane move or fixed shuffle (R131). -/
  | vmov (h : Hdr) (o : VMov)
  /-- Loads a 32-bit immediate, or a half, into a lane register (R131). -/
  | vli (h : Hdr) (o : VLi)
  /-- Writes each lane's number (R131). -/
  | vlane (h : Hdr) (o : VReg)
  /-- Broadcasts the low 32 bits of a scalar to the lanes (R131). -/
  | vbcast (h : Hdr) (o : VBcast)
  /-- Copies one lane to a scalar register (R132). -/
  | vtos (h : Hdr) (o : VToS)
  /-- Permutes lanes or bytes by register data (R133). -/
  | vperm (h : Hdr) (o : VPerm)
  /-- Reduces EMASK lanes and writes the result to each (R135). -/
  | vred (h : Hdr) (o : VRed)
  /-- Inclusive or exclusive prefix over EMASK lanes (R135). -/
  | vscan (h : Hdr) (o : VRed)
  /-- FP32 lane add (R136). -/
  | vfadd (h : Hdr) (o : VFp)
  /-- FP32 lane subtract (R136). -/
  | vfsub (h : Hdr) (o : VFp)
  /-- FP32 lane multiply (R136). -/
  | vfmul (h : Hdr) (o : VFp)
  /-- FP32 lane fused multiply-add (R136). -/
  | vfma (h : Hdr) (o : VFma)
  /-- FP32 lane minimum (R137). -/
  | vfmin (h : Hdr) (o : VBin)
  /-- FP32 lane maximum (R137). -/
  | vfmax (h : Hdr) (o : VBin)
  /-- FP32 lane compare into a predicate (R136). -/
  | vfcmp (h : Hdr) (o : VFCmp)
  /-- Approximate FP32 reciprocal (R138). -/
  | vfrcp (h : Hdr) (o : VUn)
  /-- Approximate FP32 reciprocal square root (R138). -/
  | vfrsq (h : Hdr) (o : VUn)
  /-- Correctly rounded FP32 square root (R138). -/
  | vfsqrt (h : Hdr) (o : VUn)
  /-- Approximate base-2 exponential (R138). -/
  | vfexp2 (h : Hdr) (o : VUn)
  /-- Approximate base-2 logarithm (R138). -/
  | vflog2 (h : Hdr) (o : VUn)
  /-- Approximate sin(pi x) (R138). -/
  | vfsin (h : Hdr) (o : VUn)
  /-- Approximate cos(pi x) (R138). -/
  | vfcos (h : Hdr) (o : VUn)
  /-- Rounds FP32 lanes to integral values (R139). -/
  | vfrnd (h : Hdr) (o : VFRnd)
  /-- Writes a one-hot FP32 class mask (R140). -/
  | vfclass (h : Hdr) (o : VUn)
  /-- Packed half-precision add (R141). -/
  | vhadd (h : Hdr) (o : VHalf)
  /-- Packed half-precision multiply (R141). -/
  | vhmul (h : Hdr) (o : VHalf)
  /-- Packed half-precision fused multiply-add (R141). -/
  | vhfma (h : Hdr) (o : VHFma)
  /-- Two-element half dot product accumulated in FP32 (R142). -/
  | vdot2 (h : Hdr) (o : VDot2)
  /-- Four-element 8-bit integer dot product accumulated in 32 bits (R143). -/
  | vdot4 (h : Hdr) (o : VDot4)
  /-- Converts lane elements between listed types at selected positions (R144). -/
  | vcvt (h : Hdr) (o : VCvt)
  /-- Lane load from a memory space (R158). -/
  | vld (h : Hdr) (o : VLd)
  /-- Lane store to a memory space (R158). -/
  | vst (h : Hdr) (o : VSt)
  /-- Lane atomic read-modify-write in ascending lane order (R160). -/
  | vatom (h : Hdr) (o : VAtom)
  /-- Lane compare-and-swap (R161). -/
  | vcas (h : Hdr) (o : VCas)
  /-- Hints a line fetch into L1 or L2 without effect on values (R163). -/
  | vprefetch (h : Hdr) (o : VPrefetch)
  /-- Orders accesses of the pred kinds before those of the succ kinds at a scope (R165). -/
  | fence (h : Hdr) (o : Fence)
  /-- Reads a word and suspends the path while it equals an expected value (R166). -/
  | waita (h : Hdr) (o : WaitA)
  /-- A write to or loss of the watched line, or a stop, ends a waita suspension and re-reads the word (R167). -/
  | waitaWake (r : PathRef)
  /-- 4,096 cycles after suspending, the waita re-reads its word and returns (R167). -/
  | waitaTimeout (r : PathRef)
  /-- Reads a lane register through an index register (R168). -/
  | vrdx (h : Hdr) (o : VIdx)
  /-- Writes a lane register through an index register (R168). -/
  | vwrx (h : Hdr) (o : VIdx)
  /-- Sets an index register from a lane register or immediate, or reads it back (R169). -/
  | xset (h : Hdr) (o : XSet)
  /-- Stores a register block to the lane spill area, optionally pushing (R171). -/
  | spill (h : Hdr) (o : SpillFill)
  /-- Loads a register block from the lane spill area, optionally popping (R171). -/
  | fill (h : Hdr) (o : SpillFill)
  /-- The result of an issued long-latency load or engine read lands in its destination registers (R121). -/
  | loadLand (g : Nat) (id : Nat)
  /-- Issues a fused matrix multiply-accumulate into a tile under a full mask (R177). -/
  | mma (h : Hdr) (o : Mma)
  /-- The matrix unit writes the tile once the exact sum is rounded (R177). -/
  | mmaComplete (g : Nat) (id : Nat)
  /-- Zeroes an accumulator tile (R178). -/
  | mzero (h : Hdr) (o : TReg)
  /-- Copies tile rows to a lane-register block (R178). -/
  | mmov (h : Hdr) (o : MMove)
  /-- Copies a lane-register block into tile rows (R178). -/
  | mload (h : Hdr) (o : MMove)
  /-- Issues a tile store to memory, taking ownership of .g lines (R179). -/
  | mst (h : Hdr) (o : MMem)
  /-- Issues a tile load from memory (R179). -/
  | mld (h : Hdr) (o : MMem)
  /-- A tile store's rows are performed and it arrives at its named barrier (R179). -/
  | mstComplete (g : Nat) (id : Nat)
  /-- All rows of a tile load have arrived; the tile is written and the barrier arrival made (R179). -/
  | mldComplete (g : Nat) (id : Nat)
  /-- Loads a 64-byte tensor descriptor (R182). -/
  | dld (h : Hdr) (o : DMem)
  /-- Stores a 64-byte tensor descriptor (R182). -/
  | dst (h : Hdr) (o : DMem)
  /-- Writes one field of a descriptor register (R182). -/
  | dset (h : Hdr) (o : DSet)
  /-- Checks a descriptor and starts a tensor copy in the register's copy slot (R185). -/
  | tcopy (h : Hdr) (o : TCopy)
  /-- The copy engine translates and writes one tile, faulting the slot or finishing and arriving at the barrier (R186). -/
  | tcopyTile (g : Nat) (d : DReg)
  /-- Reads a copy slot's state, tag, cursor and cause (R188). -/
  | tstat (h : Hdr) (o : TStat)
  /-- Restarts a faulted copy from its cursor (R188). -/
  | tresume (h : Hdr) (o : DReg)
  /-- Initialises a team or cluster barrier with an expected count (R191). -/
  | binit (h : Hdr) (o : BInit)
  /-- Arrives n times at a team barrier and returns the prior phase (R192). -/
  | barr (h : Hdr) (o : BArr)
  /-- Tests a team barrier's phase, suspending until it changes (R193). -/
  | btry (h : Hdr) (o : BTry)
  /-- A phase change or stop ends a btry or cbtry suspension, which writes its predicate (R193). -/
  | btryWake (r : PathRef)
  /-- 4,096 cycles after suspending, a btry or cbtry returns its predicate (R193). -/
  | btryTimeout (r : PathRef)
  /-- Invalidates a barrier once owed engine arrivals have come (R191). -/
  | binval (h : Hdr) (o : Bar)
  /-- Arrives at a cluster barrier (R192). -/
  | cbarr (h : Hdr) (o : CBArr)
  /-- Tests a cluster barrier's phase (R193). -/
  | cbtry (h : Hdr) (o : CBTry)
  /-- Tests a ray against a node's four child boxes and orders hits (R197). -/
  | rbox4 (h : Hdr) (o : Trav)
  /-- Watertight ray-triangle intersection (R199). -/
  | rtri (h : Hdr) (o : Trav)
  /-- Starts or resumes a dual-tree traversal that enqueues overlapping leaf pairs (R202). -/
  | pairs (h : Hdr) (o : Pairs)
  /-- The traversal completes or stops, writing the continuation record and resuming the path (R205). -/
  | pairsStop (r : PathRef)
  /-- Nearest or bilinear texture sample (R207). -/
  | tex (h : Hdr) (o : Tex)
  /-- Computes the four-sample coverage mask of a triangle (R208). -/
  | cover (h : Hdr) (o : Trav)
  /-- Releases Fold stores and commits a ring slot, returning a status (R209). -/
  | scommit (h : Hdr) (o : SUn)
  /-- Appends a 32-byte record to a queue or reports it full (R211). -/
  | qenq (h : Hdr) (o : QEnq)
  /-- Removes the head record or reports empty and end of stream (R211). -/
  | qdeq (h : Hdr) (o : QDeq)
  /-- Removes the tail record or reports empty (R211). -/
  | qsteal (h : Hdr) (o : QDeq)
  /-- Adds one end-of-stream post to a queue (R211). -/
  | qeos (h : Hdr) (o : QReg)
  /-- Sends a payload and record to a possibly remote queue (R213). -/
  | rwq (h : Hdr) (o : Rwq)
  /-- Reads launch records and starts child grids, returning identifiers (R214). -/
  | launch (h : Hdr) (o : Launch)
  /-- Suspends until named child grids end and returns their causes (R216). -/
  | lwait (h : Hdr) (o : LWait)
  /-- The last named grid ends and the waiting lwait writes its results (R216). -/
  | lwaitWake (r : PathRef)
  /-- Raises TRAP_INSTR or a trap cause to the handler (R222). -/
  | trap (h : Hdr) (o : W8)
  /-- Raises BREAKPOINT with a code (R222). -/
  | brk (h : Hdr) (o : BitVec 12)
  /-- Restores scalars and mask from the frame and re-executes the faulting instruction (R223). -/
  | fret (h : Hdr) (o : Bool)
  /-- Restores from the frame and resumes after the faulting instruction (R223). -/
  | sret (h : Hdr)
  /-- Reads a control register (R224). -/
  | crd (h : Hdr) (o : Crd)
  /-- Writes a control register (R225). -/
  | cwr (h : Hdr) (o : Cwr)
  /-- Requests more register granules and suspends until granted (R226). -/
  | vgrow (h : Hdr) (o : BitVec 4)
  /-- Freed granules are granted to the head of the core's request queue, resuming its path (R254). -/
  | vgrowGrant (core : Nat)
  /-- Shrinks the register window and frees granules (R227). -/
  | vshrink (h : Hdr) (o : BitVec 4)
  /-- Ranks the path youngest for issue (R228). -/
  | yield (h : Hdr)
  /-- Each core cycle the core chooses which ready paths issue and increments the issue-age counter of each ready path that does not issue (R260). -/
  | issueSelection (core : Nat)
  /-- Reads the Bellwether (R229). -/
  | clock (h : Hdr) (o : Clock)
  /-- Closes a tile tag for a stamp record (R230). -/
  | tstamp (h : Hdr) (o : SReg)
  /-- Maps a zero-filled page from the VF pool, or suspends when the pool is empty (R231). -/
  | pgmap (h : Hdr) (o : PgMap)
  /-- Drops cached translations of a page or all of the VF's (R232). -/
  | tlbinv (h : Hdr) (o : Option SReg)
  /-- Posts a software event to the Shepherd (R230). -/
  | shev (h : Hdr) (o : ShEv)
  /-- Holds the path, or every path of the group, and reports it to the Crook (R233). -/
  | halt (h : Hdr) (o : Bool)
  /-- The path at the head of the group's FIFO takes an empty live slot (R249). -/
  | slotFill (g : Nat)
  /-- On register deadlock the device saves the newest candidate team and regrants (R255). -/
  | deadlockBreak (core : Nat)
  /-- Saves a team's groups as kind 0 or 1 into its save area once its paths have stopped (R256). -/
  | teamSave (t : Nat)
  /-- The safe-point window ends and remaining paths stop at the next boundary for a kind-1 save (R256). -/
  | spwinExpiry (t : Nat)
  /-- The Paddock dispatcher places or restores a cluster when one can be placed (R344). -/
  | clusterDispatch (pd : Nat)
  /-- The last group of a team ends; its exit record is written (R248). -/
  | teamExit (t : Nat)
  /-- A page walk finishes with a translation or a fault for its waiting accesses (R305). -/
  | walkComplete (r : PathRef)
  /-- Re-copies marked lines, switches the stage-2 leaf and frees the source frame (R318). -/
  | migrationCommit (id : Nat)
  /-- Every AGEP the device updates frame AGE from A and clears A (R316). -/
  | ageSample (pd : Nat)
  /-- A request arriving over Xasta links is performed once at its target module (R347). -/
  | remoteRequest (m : Request)
  /-- A remote request unanswered after FABTO ends its context (R347). -/
  | fabricTimeout (id : Nat)
  /-- The device takes a work-queue launch record, accepting or refusing it (R339). -/
  | wqRecordTake (q : Nat)
  /-- A domain START(GEN) arrives and is kept or discarded; the last one starts the copy (R349). -/
  | startMsg (vf : Nat) (src : Nat) (gen : W32)
  /-- A domain ABORT(GEN) ends an unstarted copy with LAUNCH_REFUSED (R350). -/
  | abortMsg (vf : Nat) (src : Nat) (gen : W32)
  /-- A taken domain copy not started within the start timeout sends ABORT (R350). -/
  | startTimeout (grid : Nat)
  /-- At a strip's start the Drover opens ring slots and asks non-strip teams to stop (R368). -/
  | chainStart (pd : Nat) (st : Nat)
  /-- At each quarter of WIN the Drover predicts finish and raises the SRL (R373). -/
  | droverMilestone (pd : Nat) (st : Nat)
  /-- The Bellwether reaches D before the chain finishes; the miss is recorded (R375). -/
  | chainMiss (pd : Nat) (st : Nat)
  /-- A VF's time slice ends, starting the soft step of the ladder (R372). -/
  | sliceEnd (pd : Nat)
  /-- At GRACE after the slice end or reclaim, remaining teams are saved as kind 1 (R371). -/
  | forcedStep (vf : Nat)
  /-- At KILLT the VF's context ends if a team is still on a core (R371). -/
  | killStep (vf : Nat)
  /-- At Q a display head scans out a committed slot, or repeats on a miss (R382). -/
  | headScanout (pd : Nat) (st : Nat)
  /-- An idle encoder begins coding a committed, or missed, tile row (R383). -/
  | encodeStart (pd : Nat) (st : Nat)
  /-- The encoder writes the tile-row record and WRITE, freeing the slot (R384). -/
  | tileRowPost (pd : Nat) (st : Nat)
  /-- Writes a waiting host event record when the event ring has room (R397). -/
  | eventPost (pd : Nat)
  /-- A tagged tile closes and its stamp record is formed (R431). -/
  | tileClose (g : Nat) (tag : W16)
  /-- Every 2^SLOG cycles a core samples a path of the VF (R432). -/
  | pathSample (vf : Nat) (core : Nat)
  /-- A trace record is written in idle crossbar cycles and TRWRITE advances (R433). -/
  | traceRecordWrite (vf : Nat)
  /-- A trace record waiting over 10 microseconds is dropped and counted (R433). -/
  | traceRecordDrop (vf : Nat)
  /-- An event of an attached class is accepted against credit or refused (R439). -/
  | shEventOffer (vf : Nat)
  /-- The Shepherd runs an accepted event through its filter slot (R436). -/
  | shEvaluate (vf : Nat)
  /-- At each 1,000 ns window the VF's Shepherd credit is reset to EFF (R439). -/
  | shWindow (vf : Nat)
  /-- Loads an event word into a filter register (R436). -/
  | shLdf (d : BitVec 4) (f : BitVec 4)
  /-- Loads a 16-bit immediate (R436). -/
  | shLdi (d : BitVec 4) (k : W16)
  /-- Loads the upper half of a filter register (R436). -/
  | shLdih (d : BitVec 4) (k : W16)
  /-- Filter add (R436). -/
  | shAdd (d : BitVec 4) (a : BitVec 4) (b : BitVec 4)
  /-- Filter add immediate (R436). -/
  | shAddi (d : BitVec 4) (a : BitVec 4) (k : W16)
  /-- Filter subtract (R436). -/
  | shSub (d : BitVec 4) (a : BitVec 4) (b : BitVec 4)
  /-- Filter bitwise AND (R436). -/
  | shAnd (d : BitVec 4) (a : BitVec 4) (b : BitVec 4)
  /-- Filter bitwise OR (R436). -/
  | shOr (d : BitVec 4) (a : BitVec 4) (b : BitVec 4)
  /-- Filter left shift (R436). -/
  | shShl (d : BitVec 4) (a : BitVec 4) (n : BitVec 5)
  /-- Filter logical right shift (R436). -/
  | shShr (d : BitVec 4) (a : BitVec 4) (n : BitVec 5)
  /-- Filter unsigned minimum (R436). -/
  | shMin (d : BitVec 4) (a : BitVec 4) (b : BitVec 4)
  /-- Filter compare equal (R436). -/
  | shCeq (d : BitVec 4) (a : BitVec 4) (b : BitVec 4)
  /-- Filter unsigned less-than (R436). -/
  | shCltu (d : BitVec 4) (a : BitVec 4) (b : BitVec 4)
  /-- Filter forward branch if zero (R436). -/
  | shBz (a : BitVec 4) (o : W8)
  /-- Filter forward branch if nonzero (R436). -/
  | shBnz (a : BitVec 4) (o : W8)
  /-- Multiplicative hash of a filter register (R436). -/
  | shHash (d : BitVec 4) (a : BitVec 4) (m : BitVec 2)
  /-- Adds one to a histogram bucket at end (R436). -/
  | shHist (n : BitVec 4) (a : BitVec 4)
  /-- Adds to the four count-min sketch rows at end (R436). -/
  | shCms (a : BitVec 4) (b : BitVec 4)
  /-- Forms a trigger record for the trace buffer (R436). -/
  | shTrig (a : BitVec 4) (c : W16)
  /-- Ends the filter and discards its updates (R436). -/
  | shDrop
  /-- Ends the filter and applies its updates (R436). -/
  | shEnd
  /-- Checks a filter slot and attaches or refuses it for an event class (R437). -/
  | shattachWrite (vf : Nat) (v : W64)
  /-- Writes a filter slot word or length, refused while attached (R435). -/
  | shSlotWrite (w : HostWrite)
  /-- Holds every path of a group (R419). -/
  | crookHalt (c : CrookTo)
  /-- Resumes a named held path or all held paths (R419). -/
  | resume (c : CrookTo) (pix : W8)
  /-- Arms or disarms single step for a group (R417). -/
  | crookStep (c : CrookTo) (arm : W8)
  /-- Arms or disarms an instruction breakpoint (R416). -/
  | setbp (c : CrookTo) (i : W8) (addr : W64)
  /-- Arms or disarms a shared or scratchpad watchpoint (R418). -/
  | setwp (c : CrookTo) (i : W8) (sp : W8) (off : W64) (lenKind : W64)
  /-- Returns a register of a held path in VAL (R419). -/
  | regread (c : CrookTo) (pix : W8) (reg : W64)
  /-- After a held path's accesses are performed, the Crook posts its notice (R420). -/
  | noticePost (vf : Nat)
  /-- A write of NREAD, NBASE or NLOG retries waiting notices (R444). -/
  | noticeRingWrite (vf : Nat) (r : NoticeReg) (v : W64)
  /-- Reads BWNS and latches BWFRAC for the reader (R361). -/
  | bwnsRead (by_ : Steer)
  /-- Sets the Bellwether rate offset, clamped, from the selected source (R361). -/
  | adj (by_ : Steer) (v : W32)
  /-- Adds nanoseconds to BWNS, refused while a stream is admitted (R361). -/
  | bwStep (by_ : Steer) (v : W64)
  /-- The controller timestamps and processes an IEEE 1588 message to steer the Bellwether (R362). -/
  | ptpMessage (m : List W8)
  /-- The device answers a PCIe PTM request with Bellwether values (R362). -/
  | ptmRequest
  /-- A 32-bit low-half counter read loads CLATCH (R428). -/
  | counterLoRead (vf : Nat) (n : W8)
  /-- A 32-bit high-half read returns CLATCH.HI or the live high half (R428). -/
  | counterHiRead (vf : Nat) (n : W8)
  /-- Doorbell write making work-queue records available (R342). -/
  | wqtail (vf : Nat) (w : Nat) (v : W64)
  /-- Configures a work queue; EN := 1 clears ERR and writes waiting completions (R342). -/
  | wqcfg (vf : Nat) (w : Nat) (v : W64)
  /-- Sets the handler entry, ignored with WREJ while grids run (R395). -/
  | hentry (vf : Nat) (v : W64)
  /-- Sets the stage-1 root, ignored with WREJ while grids run (R395). -/
  | s1root (vf : Nat) (v : W64)
  /-- Host consumption count whose write lets waiting events be written (R397). -/
  | evread (pd : Nat) (v : W32)
  /-- Doorbell write offering firmware commands (R404). -/
  | fwtail (v : W16)
  /-- Write to a register with no row of its own, honouring its access types (R4). -/
  | regWrite (w : HostWrite)
  /-- Writes part, versions, capabilities and certificate chain (R407). -/
  | identify (c : FwHdr) (buf : W64)
  /-- Enables feature words once (R408). -/
  | negotiate (c : FwHdr) (f0 f1 f2 f3 : W64)
  /-- Verifies and installs a signed controller patch (R409). -/
  | patchLoad (c : FwHdr) (pa len : W64)
  /-- Writes a signed attestation report (R410). -/
  | attest (c : FwHdr) (nonce : BitVec 256) (buf : W64)
  /-- Creates, resizes or destroys a Paddock's port set (R401). -/
  | paddockSet (c : FwHdr) (pa : W64) (force : Bool)
  /-- Gives or takes back LPDDR regions of a Paddock (R407). -/
  | paddockRegions (c : FwHdr) (pa : W64) (host : Bool)
  /-- Lends idle cores to another Paddock (R403). -/
  | lend (c : FwHdr) (mask : BitVec 192) (dest : W64)
  /-- Returns lent cores to the lender via the soft and forced steps (R403). -/
  | reclaim (c : FwHdr) (mask : BitVec 192)
  /-- Sets a Paddock's stage-2 root (R407). -/
  | s2root (c : FwHdr) (pa : W64)
  /-- Invalidates stage-2 translations (R407). -/
  | s2inv (c : FwHdr) (ipa : W64) (all : Bool)
  /-- Restarts walks of a VF stalled on stage 2 (R312). -/
  | resumeWalks (c : FwHdr)
  /-- Sets a Paddock's timing values (R407). -/
  | timers (c : FwHdr) (t : Timers)
  /-- Binds a VF to a Paddock with a budget, lowering the clock first if needed (R411). -/
  | vfActivate (c : FwHdr) (pd : W64) (guar burst : W32)
  /-- Ends a VF's context and frees its resources (R407). -/
  | vfDeactivate (c : FwHdr)
  /-- Sets or removes a pool-backed range of a VF (R314). -/
  | vfPool (c : FwHdr) (i vbase len ipa : W64)
  /-- Appends host frames for eviction (R316). -/
  | vfBacking (c : FwHdr) (pa count : W64)
  /-- Sets GUAR and BURST of a VF (R315). -/
  | vfBudget (c : FwHdr) (guar burst : W32)
  /-- Sets the arithmetic clock for a sole active VF (R411). -/
  | vfBoost (c : FwHdr) (mhz : W64)
  /-- Ends a VF's context with a given cause (R407). -/
  | vfEnd (c : FwHdr) (cause : W64)
  /-- Creates a hardware queue and returns a handle (R332). -/
  | queueCreate (c : FwHdr) (cap prod : W32) (store : W64)
  /-- Frees a queue and changes its key (R407). -/
  | queueDestroy (c : FwHdr) (qnum : W64)
  /-- Changes a queue's producers or resets its posts (R334). -/
  | queueSet (c : FwHdr) (qnum prod : W32) (reset : Bool)
  /-- Binds or unbinds a work queue to a VF window index (R394). -/
  | wqBind (c : FwHdr) (q : W64) (unbind : Bool)
  /-- Migrates a page to a destination, completing at commit (R317). -/
  | migrate (c : FwHdr) (ipa dst : W64)
  /-- Sets a Fold ring entry (R380). -/
  | foldRing (c : FwHdr) (ring : W64) (entry : BitVec 256)
  /-- Admits a stream record after timing and resource checks (R366). -/
  | streamAdmit (c : FwHdr) (pa : W64)
  /-- Stops new chains and completes when the last ends (R407). -/
  | streamWithdraw (c : FwHdr) (st : W64)
  /-- Sets a display head's video timing (R382). -/
  | headTiming (c : FwHdr) (head pa : W64)
  /-- Creates a shared frame set and starts its fill (R413). -/
  | sharedCreate (c : FwHdr) (pa f : W64)
  /-- Adds a Paddock to a sealed set's readers (R413). -/
  | sharedMap (c : FwHdr) (set : W64)
  /-- Removes a Paddock from a set's readers (R413). -/
  | sharedUnmap (c : FwHdr) (set : W64)
  /-- Ends a set's fill and makes it read-only shared (R413). -/
  | sharedSeal (c : FwHdr) (set : W64)
  /-- Numbers the module and binds VFs into domain groups (R346). -/
  | domainForm (c : FwHdr) (num pa : W64)
  /-- A host CXL.mem access to the host-managed window, with back-invalidation (R393). -/
  | hostCxlMemAccess (off : Nat) (n : Nat) (d : Option (List W8))
  /-- A host write recalls CXL.cache ownership of a device-held line (R318). -/
  | hostSnoop (pa : Nat) (d : List W8)
  /-- Scrubbing reads a line, corrects or logs errors (R412). -/
  | patrolScrub (pa : Nat)
  /-- Runs ROM, trains memory, zeroes arrays and enumerates the link (R414). -/
  | powerOn
  /-- Ends every context and destroys Paddocks, queues, streams and sets (R414). -/
  | pfReset
  /-- Ends a VF's context and clears its window and bindings (R414). -/
  | vfReset (vf : Nat)
  /-- Stops every die clock on one edge and takes links down (R445). -/
  | freeze
  /-- The scan port reads the frozen state in a fixed order (R445). -/
  | scanDump
  /-- On each period of the 1 GHz timebase oscillator the 96-bit Bellwether value grows by 2^32 + ADJ units (R360). -/
  | bellwetherTick
  /-- The answer of a queue's module, or of a remote target, arrives at the issuing module and lets the waiting rwq, qenq or qeos write K[P] or fault (R335). -/
  | remoteResponse (id : Nat) (a : Answer)
  deriving DecidableEq, Repr

end Sys2Proof
end

