-- ==== Sys2Proof/Machine/Group.lean ====
section
/-! DEFINITION. What a group holds: its registers, its path table and join store, its copy slots and what its engines have
under way (01 R7, 04 R98, 07 R185, 10 R249). -/

namespace Sys2Proof.Machine

/-- Bytes by address: addresses strictly rising, no byte that equals what an unlisted address reads as. -/
abbrev Memory := List Host.Cell

/-- A register of any kind, for the scoreboard and the lookahead windows (02 R58). -/
inductive Reg where
  | s (n : SReg)
  | v (n : VReg)
  | k (n : KReg)
  | x (n : XReg)
  | t (n : TReg)
  | d (n : DReg)
  | q (n : QReg)
  deriving DecidableEq, Repr

/-- An open lookahead window: instructions left in it and the registers its instruction writes (02 R58). -/
structure Win where
  left : Nat
  regs : List Reg
  deriving DecidableEq, Repr

/-- What a suspended path waits for (10 R249), with what its instruction needs when it returns: the address after it, and the
core cycle at which it suspended. -/
inductive Wait where
  | waita (o : WaitA) (npc : W64) (since : Nat)
  | btry (bar : Bar) (kd : KReg) (phase : Bool) (npc : W64) (since : Nat)
  | vgrow (n : BitVec 4) (npc : W64)
  | pairs (npc : W64)
  | lwait (d : VReg) (mask : Mask) (ids : Lanes W32) (npc : W64)
  | pgmap
  deriving DecidableEq, Repr

/-- Where bytes lie: physical memory of this module or the host, a team's shared memory, a grid's scratchpad, the Fold, the memory of
another module at a domain address that it translates, or at a physical address that it does not; `bad` is a domain address of this module
at which its own tables fail (14 R302, R310). -/
inductive Loc where
  | pa (a : Nat)
  | team (t off : Nat)
  | scratch (d off : Nat)
  | fold (off : Nat)
  | dom (m va : Nat)
  | far (m pa : Nat)
  | bad (c : W8)
  deriving DecidableEq, Repr

/-- Where an access is performed, in pieces: all of them here, or some at other modules. -/
inductive Place where
  | here (l : List (Loc × Nat))
  | remote (l : List (Loc × Nat))
  deriving DecidableEq, Repr

/-- What a path that waits for other modules holds (14 R310, 16 R335, R347): the places of its access, how far it is (0 translating, 1
performing, and more in an `rwq`), bytes read on the way, the handle of a queue in which a slot is reserved for it, and the record of an `rwq`
as it issued. -/
structure RemoteWait where
  at_ : List (Lane × Place)
  stage : Nat
  data : List W8
  slot : Option W64
  record : BitVec 256
  deriving DecidableEq, Repr

/-- The state of a path in use. `walk` waits for the host with the failing IPA, `walkGo` has been told to resume, `remote` waits
for another module's answer (04 R98, 14 R312, 16 R335). -/
inductive PathSt where
  | ready
  | susp (w : Wait)
  | held
  | walk (ipa : W64) (cause : W8)
  | walkGo
  | remote (w : RemoteWait)
  deriving DecidableEq, Repr

/-- What the device holds of a path while it runs a handler: its MASK before entry, less the lanes that have exited since, and
the scalars as the frame received them (08 R218, R220, R223). -/
structure Entry where
  mask : Mask
  s : Bank 6 W64
  written : W64
  deriving DecidableEq, Repr

/-- A cause with what its frame reports (08 R219). -/
structure FaultInfo where
  cause : W8
  detail : W8
  sub : W8
  dindex : W8
  code : W32
  mask : Mask
  addr : Lanes W64
  origin : W8
  deriving DecidableEq, Repr

/-- What a path has yet to do at its fault frame, whose page it waits for: be delivered a cause, from its instruction to the next, or return from its
handler, with the live word of its `fret` or `sret` (08 R218, R223). -/
inductive AtFrame where
  | enter (f : FaultInfo) (pc npc : W64)
  | back (after nobp : Bool) (live : Option W64)
  deriving DecidableEq, Repr

/-- A path entry (04 R98). Bit n of `written` belongs to sn; bit 0 stays 0. `tried` lists the barriers it polls (10 R255); `again` is an
instruction that has issued and goes on when an answer or a word comes, with whether a `waita` reads its word again (06 R166); `code` holds
words of the instruction that other modules have sent, by address; `lost` is the lowest lane register that has been freed and added again since
that instruction issued (01 R9, 08 R227); `atFrame` is what it has yet to do at its fault frame. -/
structure Path where
  mask : Mask
  pc : W64
  rcv : Option W64
  depth : Nat
  join : Option (BitVec 4)
  s : Bank 6 W64
  written : W64
  st : PathSt
  sup : Bool
  fcause : W8
  fpc : W64
  entry : Option Entry
  win : List Win
  stepN : Nat
  skipBp : Bool
  age : Nat
  young : Bool
  stopped : Option W64
  tried : List Bar
  again : Option (Instr × Bool)
  code : List (Nat × W64)
  lost : Option Nat
  atFrame : Option AtFrame
  hold : Bool
  deriving DecidableEq, Repr

/-- A path that has arrived at a join record: its MASK at arrival, scalars and written set (04 R101). -/
structure Arrival where
  mask : Mask
  s : Bank 6 W64
  written : W64
  stepN : Nat
  deriving DecidableEq, Repr

/-- A join record (04 R98). `npc` is the address after the `rcv` at which paths arrive. -/
structure Join where
  prcv : Option W64
  pjoin : Option (BitVec 4)
  pdepth : Nat
  base : Bank 6 W64
  baseW : W64
  owed : Mask
  arrived : Mask
  arr : List Arrival
  npc : W64
  deriving DecidableEq, Repr

/-- Serial mode (04 R103): the path's own fields, its lanes, the next PC of each, the lanes still to run, the lanes that have
reached the reconvergence address, and the path's step count at the branch (21 R417). -/
structure Serial where
  p : BitVec 3
  rs : W64
  lanes : Mask
  next : Lanes W64
  todo : Mask
  rcv : Option W64
  join : Option (BitVec 4)
  depth : Nat
  base : Bank 6 W64
  baseW : W64
  sup : Bool
  fcause : W8
  fpc : W64
  arr : List Arrival
  npc : W64
  steps : Nat
  deriving DecidableEq, Repr

/-- State of a copy slot (07 R188). -/
inductive CopySt where
  | idle | running | done | faulted
  deriving DecidableEq, Repr

/-- A tensor element by its coordinates in the box (07 R184). -/
structure Elem where
  e0 : Nat
  e1 : Nat
  e2 : Nat
  e3 : Nat
  deriving DecidableEq, Repr

/-- An element of a tile with its tensor side: none out of bounds. -/
structure ElemAt where
  e : Elem
  place : Option Place
  deriving DecidableEq, Repr

/-- A tile that the engine has translated (07 R186): its elements, those still to move, and, until other modules have answered, whether they
perform already, and the first local failure with its place in the order. -/
structure TileRun where
  elems : List ElemAt
  left : List Nat
  waits : Bool
  go : Bool
  bad : Option (Nat × Nat × W8)
  deriving DecidableEq, Repr

/-- A copy slot (07 R185). `own` holds the lanes of the path that issued the copy, `owes` the arrivals its completion applies (08 R238),
`tile` the tile under way; `lines` the global bytes it owns, by tile, `claims` its requests for those at other modules, and `since` its
place among engine operations (12 R284). -/
structure Copy where
  st : CopySt
  desc : BitVec 512
  dir : CDir
  laddr : W64
  origin : Bank 2 W32
  bar : Option Bar
  tag : W16
  cursor : Nat
  tcause : W8
  faddr : W64
  own : Mask
  held : Bool
  owes : Nat
  tile : Option TileRun
  lines : List (Nat × Nat × Nat)
  claims : List (Nat × Nat)
  since : Nat
  deriving DecidableEq, Repr

/-- A lane-register result on its way: the lanes and values of each register (05 R121, 10 R253). -/
structure Land where
  id : Nat
  mask : Mask
  regs : List (VReg × Lanes W32)
  deriving DecidableEq, Repr

/-- An operation under way: `mma`, `mst` and `mld` (07 R177, R179), with the places of the sixteen rows, and lane accesses that other modules
perform, with the registers at `d` that their bytes go to (10 R253). -/
inductive EngKind where
  | mma (t : TReg) (tile : Bank 8 W32)
  | mst (rows : List Place) (tile : Bank 8 W32) (bar : Option Bar)
  | mld (rows : List Place) (t : TReg) (bar : Option Bar)
  | far (at_ : List (Lane × Place)) (regs : List VReg) (d : VReg) (z : Size) (sx : Bool)
  deriving DecidableEq, Repr

/-- `landed` lists the elements of an `mst` that are written, `go` says that other modules perform their rows. -/
structure EngOp where
  id : Nat
  own : Mask
  kind : EngKind
  landed : List Nat
  go : Bool
  deriving DecidableEq, Repr

/-- Why a traversal stops, while its record is being written (07 R205). -/
inductive PairsEnd where
  | complete
  | full
  | fault (f : FaultInfo)
  | taken
  deriving DecidableEq, Repr

/-- Where a `pairs` traversal stands between two passes of its loop (07 R202-R205): `rec_` is where its record lies, `since` its place among
engine operations, `recAsk` its requests where other modules hold it and `recKey` the key of its first piece in them; `words` what other modules have sent for the pass, by address, nothing yet
where it is asked; `stop` why it stops, while its record is not written. -/
structure PairsRun where
  o : Pairs
  a : W64
  b : W64
  recAddr : W64
  rec_ : Place
  recAsk : List (Nat × Nat)
  recKey : Nat
  since : Nat
  ta : List W8
  tb : List W8
  stack : List (W32 × W32 × W32 × W32)
  seq : W64
  resumed : Bool
  emitted : Bool
  held : Bool
  words : List (Nat × List W8)
  stop : Option PairsEnd
  deriving DecidableEq, Repr

/-- What a tile stamp is computed from (22 R431): issues and completions of tagged copies and of `mma`, `tstamp`s, and closes. -/
inductive StampEv where
  | copy (tag : W16) (dir : CDir)
  | copyDone (tag : W16) (dir : CDir)
  | mma (id : Nat)
  | mmaDone (id : Nat)
  | stamp (tag : W16)
  | close (tag : W16) (byStamp : Bool)
  deriving DecidableEq, Repr

/-- `old` holds halves of pairs that were written in this cycle of the core, with the lanes written, as the other path still reads them (05
R121). -/
structure Group where
  team : Nat
  gid : Nat
  lin : Nat
  slot : Nat
  uchk : Bool
  vwin : Nat
  acc : Nat
  smask : Mask
  rngs : Lanes W32
  faddr : Lanes W64
  v : Bank 8 (Lanes W32)
  k : Bank 4 Mask
  x : Bank 2 (Lanes W32)
  t : Bank 3 (Bank 8 W32)
  d : Bank 3 (BitVec 512)
  q : Bank 2 W64
  paths : Bank 3 (Option Path)
  joins : Bank 4 (Option Join)
  slotA : Option (BitVec 3)
  slotB : Option (BitVec 3)
  fifo : List (BitVec 3)
  ser : Option Serial
  copies : Bank 3 Copy
  lands : List Land
  ops : List EngOp
  pairs : Bank 3 (Option PairsRun)
  sbase : W64
  frameb : W64
  spill : Nat
  stepArm : Bool
  log : List (StampEv × Nat)
  closing : List W16
  startAt : Nat
  old : List (VReg × Mask × Lanes W32)
  deriving DecidableEq, Repr

/-! ### As they start (01 R7) -/

def Copy.idle : Copy :=
  { st := .idle, desc := 0, dir := .g2s, laddr := 0, origin := Bank.fill 0, bar := none, tag := 0, cursor := 0, tcause := 0,
    faddr := 0, own := 0, held := false, owes := 1, tile := none, lines := [], claims := [], since := 0 }

/-- The one path of a group that starts: all lanes, at the kernel's entry, with the launch's argument words and the spill
stack's top (01 R7). -/
def Path.start (pc : W64) (args : List W64) (spill : Nat) : Path :=
  { mask := 0xFF, pc := pc, rcv := none, depth := 0, join := none,
    s := Bank.gen fun n =>
      if n = 61 then BitVec.ofNat 64 spill
      else if 1 ≤ n.toNat ∧ n.toNat ≤ 8 then args.getD (n.toNat - 1) 0 else 0,
    written := 0, st := .ready, sup := false, fcause := 0, fpc := 0, entry := none, win := [], stepN := 0, skipBp := false,
    age := 0, young := false, stopped := none, tried := [], again := none, code := [], lost := none, atFrame := none,
    hold := false }

/-- A lane of RNGS at group start (01 R19). -/
def rngStart (seed : W32) (lin : Nat) (l : Lane) : W32 :=
  let x := seed + BitVec.ofNat 32 (8 * lin + l.toNat)
  if x = 0 then 1 else x

/-- A group at start (01 R7, 16 R338). -/
def Group.start (team gid lin slot vwin acc spill : Nat) (seed : W32) (entry sbase frameb : W64) (args : List W64)
    (q : Bank 2 W64) (at_ : Nat) : Group :=
  { team := team, gid := gid, lin := lin, slot := slot, uchk := true, vwin := vwin, acc := acc, smask := 0,
    rngs := Bank.gen (rngStart seed lin), faddr := Bank.fill 0, v := Bank.fill (Bank.fill 0),
    k := (Bank.fill 0).wr 0 0xFF, x := Bank.fill (Bank.fill 0), t := Bank.fill (Bank.fill 0), d := Bank.fill 0, q := q,
    paths := (Bank.fill none).wr 0 (some (Path.start entry args spill)), joins := Bank.fill none,
    slotA := some 0, slotB := none, fifo := [], ser := none, copies := Bank.fill Copy.idle, lands := [], ops := [],
    pairs := Bank.fill none, sbase := sbase, frameb := frameb, spill := spill, stepArm := false, log := [], closing := [], startAt := at_,
    old := [] }

end Sys2Proof.Machine
end

