-- ==== Sys2Proof/Machine/Device.lean ====
section
/-! DEFINITION. What the device holds beside its groups: teams, clusters, grids, virtual functions, queues, Paddocks, streams and
rings (10 R244-R248, 14 R314-R318, 16 R332-R350, 18 R363-R381, 20 R395-R399, 22 R424-R444). -/

namespace Sys2Proof.Machine

/-! ### Teams, clusters, grids -/

/-- A barrier (07 R190). -/
structure Barrier where
  valid : Bool
  expect : Nat
  count : Nat
  phase : Bool
  deriving DecidableEq, Repr

def Barrier.start : Barrier := { valid := false, expect := 0, count := 0, phase := false }

/-- A safe-point request (10 R256): the core cycle at which its window ends, whether it forces, and the Bellwether count at which the team had stopped,
once its context is being written. -/
structure StopReq where
  until_ : Nat
  forced : Bool
  at_ : Option W64 := none
  deriving DecidableEq, Repr

/-- What a restored context says of a team that only its next context shows (08 R235, R238): TEAMID, GRIDID, CLID, VFID, whether its grid is
cooperative, and the addresses of its kernel and launch records. -/
structure TeamIds where
  teamid : Nat
  gridid : W32
  clid : W64
  vfid : W16
  coop : Bool
  krec : W64
  rec_ : W64
  deriving DecidableEq, Repr

/-- A team (10 R244, R256). `core` is none while it is saved, `last` the core that it was placed on last; `placed` orders placements; `ids` are
those of its last restore. -/
structure Team where
  grid : Nat
  cluster : Nat
  teamid : Nat
  lin : Nat
  core : Option Nat
  last : Nat
  placed : Nat
  gcount : Nat
  size : Nat
  shared : Memory
  bars : Bank 4 Barrier
  strip : Bool
  stop : Option StopReq
  saved : Bool
  ids : Option TeamIds
  deriving DecidableEq, Repr

/-- A cluster (10 R246): its linear index, its teams and its barriers; whether it was saved from a reclaimed core, and, where the deadlock
breaker has put it at the head of its grid's order, when (10 R255, 20 R403). -/
structure Cluster where
  grid : Nat
  index : Nat
  teams : List Nat
  cbars : Bank 2 Barrier
  reclaim : Bool
  front : Nat
  deriving DecidableEq, Repr

/-- The kernel record of a grid (01 R42): entry offset, window, tiles, groups, cluster shape, shared and spill bytes, scratchpad, strip
cycles. -/
structure Kernel where
  entry : Nat
  regs : Nat
  acc : Nat
  groups : Nat
  cw : Nat
  ch : Nat
  shared : Nat
  spill : Nat
  scratch : Nat
  strip : Nat
  deriving DecidableEq, Repr

/-- A launch record (16 R337). -/
structure Launched where
  format : W16
  flags : W16
  seed : W32
  krec : W64
  code : W64
  gx : W32
  gy : W32
  gz : W32
  gen : W32
  exitb : W64
  frames : W64
  spills : W64
  args : List W64
  q : Bank 2 W64
  modmask : BitVec 256
  saves : W64
  zero : Bool
  deriving DecidableEq, Repr

/-- Where a grid came from: a work queue's record, a `launch`, or a stream's chain. -/
inductive Origin where
  | host (wq : Nat) (index : Nat)
  | child (prio : Nat)
  | chain (pd : Nat) (st : Nat) (strip : Nat)
  deriving DecidableEq, Repr

/-- A domain copy that waits for its STARTs, since when it was taken (16 R348, R350). -/
structure DomainWait where
  mask : BitVec 256
  got : BitVec 256
  since : Nat
  deriving DecidableEq, Repr

/-- A grid (10 R244, 16 R337-R341). `slices` are the scratchpad slices of which it holds granules, with how many (12 R273); `ends` holds the CAUSE of each team that has ended, `armed` the groups not yet started whose single step
is armed (21 R417). -/
structure Grid where
  vf : Nat
  gridid : W32
  paddock : Nat
  launch : Launched
  kernel : Kernel
  recAddr : W64
  q : Bank 2 W64
  origin : Origin
  prio : Nat
  order : Nat
  nextCluster : Nat
  ends : List (Nat × W8)
  scratch : Memory
  slices : List (Nat × Nat)
  domain : Option DomainWait
  started : Bool
  armed : List Nat
  kept : List Nat
  deriving DecidableEq, Repr

/-! ### Virtual functions -/

/-- A pool-backed range (14 R314). -/
structure Pool where
  vbase : Nat
  len : Nat
  ipa : Nat
  deriving DecidableEq, Repr

/-- An event for the Shepherd (22 R434): class, words, Bellwether count. -/
structure ShEvent where
  cls : BitVec 3
  e : Bank 4 W32
  ns : W64
  deriving DecidableEq, Repr

/-- A filter evaluation under way (22 R436). -/
structure Eval where
  ev : ShEvent
  slot : BitVec 3
  ix : Nat
  h : Bank 4 W32
  hist : List (BitVec 2 × BitVec 6)
  cms : List (BitVec 2 × BitVec 6 × W32)
  trig : List (W32 × W16)
  deriving DecidableEq, Repr

/-- The Shepherd of a VF (22 R435-R439). -/
structure Shepherd where
  en : Bool
  req : BitVec 11
  att : BitVec 48
  len : Bank 3 (BitVec 6)
  err : Bool
  slots : Bank 3 (Bank 5 W32)
  ht : Bank 2 (Bank 6 W32)
  sk : Bank 2 (Bank 6 W32)
  maxpath : Bank 3 Nat
  credit : Nat
  window : Nat
  offers : List ShEvent
  accepted : List ShEvent
  eval : Option Eval
  deriving DecidableEq, Repr

/-- A notice that waits for the ring (21 R420): its record, the path it holds, whether a RESUME has named the path since, and the number of
the Crook's command that held it, none for a `halt`. -/
structure Notice where
  body : BitVec 256
  ref : PathRef
  go : Bool
  order : Option Nat
  deriving DecidableEq, Repr

/-- The Crook of a VF (22 R442). -/
structure Crook where
  cmd : BitVec 256
  ovr : Bool
  busy : Bool
  tag : W16
  code : W8
  status : W8
  val : BitVec 256
  nbase : W64
  nlog : BitVec 4
  nwrite : W32
  nread : W32
  bp : Bank 3 W64
  wp : Bank 2 W64
  wplen : Bank 2 (BitVec 17)
  notices : List Notice
  deriving DecidableEq, Repr

/-- A trace record that waits for its write (22 R433), the Bellwether count of its forming, and the strip whose tile it stamps (17 R356). -/
structure TraceRec where
  body : BitVec 256
  ns : W64
  tile : Option (Nat × Nat × Nat)
  deriving DecidableEq, Repr

structure Vf where
  active : Bool
  paddock : BitVec 6
  endc : W8
  wrej : Bool
  ended : Bool
  boost : Bool
  hentry : W64
  s1root : W64
  held : Nat
  frames : List Nat
  guar : Nat
  burst : Nat
  pools : Bank 3 (Option Pool)
  backing : List Nat
  starved : Option Nat
  gridCounter : W32
  dgen : W32
  ctr : Bank 8 W64
  clatchHi : W32
  clatchValid : Bool
  clatchIdx : W8
  trbase : W64
  slog : W8
  sen : Bool
  tren : Bool
  trlog : BitVec 5
  trwrite : W32
  trread : W32
  trace : List TraceRec
  sh : Shepherd
  crook : Crook
  starts : List (Nat × W32)
  endedKids : List (W32 × W8)
  deriving DecidableEq, Repr

def Shepherd.reset : Shepherd :=
  { en := false, req := 0, att := 0, len := Bank.fill 0, err := false, slots := Bank.fill (Bank.fill 0), ht := Bank.fill (Bank.fill 0),
    sk := Bank.fill (Bank.fill 0), maxpath := Bank.fill 0, credit := 0, window := 0, offers := [], accepted := [], eval := none }

def Crook.reset : Crook :=
  { cmd := 0, ovr := false, busy := false, tag := 0, code := 0, status := 0, val := 0, nbase := 0, nlog := 0, nwrite := 0, nread := 0,
    bp := Bank.fill 0, wp := Bank.fill 0, wplen := Bank.fill 0, notices := [] }

/-- A VF at reset (20 R395, 16 R340, 22 R435, R442). -/
def Vf.reset : Vf :=
  { active := false, paddock := 63, endc := 0, wrej := false, ended := false, boost := false, hentry := 0, s1root := 0, held := 0, frames := [],
    guar := 0, burst := 0, pools := Bank.fill none, backing := [], starved := none, gridCounter := 1, dgen := 0, ctr := Bank.fill 0, clatchHi := 0,
    clatchValid := false, clatchIdx := 0, trbase := 0, slog := 0, sen := false, tren := false, trlog := 0, trwrite := 0, trread := 0,
    trace := [], sh := Shepherd.reset, crook := Crook.reset, starts := [], endedKids := [] }

/-! ### Queues -/

/-- A work-queue completion that has not been written (16 R343). -/
structure Completion where
  index : Nat
  gridid : W32
  cause : W8
  ns : W64
  deriving DecidableEq, Repr

/-- A host work queue (16 R342). `taken` counts records taken; `done` holds indexes completed beyond WQHEAD. -/
structure Wq where
  bind : Option (Nat × Nat)
  wqbase : W64
  cqbase : W64
  wqtail : W16
  wqhead : W16
  en : Bool
  err : Bool
  prio : BitVec 2
  logn : BitVec 4
  taken : W16
  waiting : List Completion
  done : List Nat
  deriving DecidableEq, Repr

def Wq.reset : Wq :=
  { bind := none, wqbase := 0, cqbase := 0, wqtail := 0, wqhead := 0, en := false, err := false, prio := 0, logn := 0, taken := 0,
    waiting := [], done := [] }

/-- A hardware queue (16 R332); `kept` slots are reserved for `rwq` payloads under way (07 R213). A destroyed one keeps its key. -/
structure HwQueue where
  live : Bool
  key : W32
  cap : Nat
  vf : Nat
  prod : Nat
  posts : Nat
  head : Nat
  count : Nat
  store : Nat
  kept : Nat
  deriving DecidableEq, Repr

/-! ### Paddocks, rings, streams -/

/-- Slot states of a Fold ring (17 R353, 18 R381). -/
inductive SlotSt where
  | free | open_ | committed | halo
  deriving DecidableEq, Repr

/-- A Fold ring (18 R380); `tail` is the number of lines of the strip whose slot is HALO. -/
structure Ring where
  base : Nat
  slotsz : Nat
  pitch : Nat
  lines : Nat
  lastl : Nat
  h : Nat
  cons : Nat
  unit : Nat
  fmt : Nat
  width : Nat
  stream : Nat
  slots : List SlotSt
  tail : Nat
  deriving DecidableEq, Repr

/-- A chain (18 R368-R377): its strip by number, the SRL it started at and stands at, its kernels' grids so far, the milestones taken and
those that raised the SRL, its tiles, and when it was first placed. -/
structure Chain where
  strip : Nat
  srlStart : Nat
  srl : Nat
  grids : List Nat
  milestone : Nat
  raised : BitVec 3
  doneTiles : Nat
  firstPlace : W64
  missed : Bool
  finished : Bool
  deriving DecidableEq, Repr

/-- What an encoder or a head has under way for a stream (18 R376, R382-R384): the strip it serves, whether
it codes a row (and whether as a repeat), and the slot it scanned last. -/
structure Consumer where
  strip : Nat
  busy : Option Bool
  lastSlot : Option Nat
  rec_ : Option (Nat × List W8)
  deriving DecidableEq, Repr

/-- An admitted stream (18 R363), with its worst case and its encoder's time for a row in ns (R365, R385). -/
structure Stream where
  kind : Nat
  unit : Nat
  nkern : Nat
  srl0 : Nat
  spf : Nat
  vf : Nat
  t0 : Nat
  fper : Nat
  sper : Nat
  lead : Nat
  win : Nat
  guard : Nat
  qidx : Nat
  wc : Nat
  enct : Nat
  cores : BitVec 192
  kerns : List W64
  tiles : List Nat
  rings : List Nat
  crec : W64
  bsr : W64
  clog : Nat
  blog : Nat
  copies : List Launched
  srl : Nat
  next : Nat
  chains : List Chain
  commits : List Nat
  cons : Consumer
  written : Nat
  withdrawn : Bool
  deriving DecidableEq, Repr

/-- The chain of a strip that has not settled. -/
def Stream.chainOf (t : Stream) (n : Nat) : Option Chain := t.chains.find? fun c => c.strip == n

def Chain.live (c : Chain) : Bool := !c.missed && !c.finished

/-- The running chain (18 R369). -/
def Stream.current (t : Stream) : Option Chain := t.chains.find? Chain.live

def Stream.setChain (t : Stream) (c : Chain) : Stream :=
  { t with chains := t.chains.map fun x => if x.strip == c.strip then c else x }

/-- A running ladder (18 R371): the VF, the Bellwether moment of the slice end, and the first placement after it. -/
structure Ladder where
  vf : Nat
  start : Nat
  mark : Nat
  forced : Bool
  deriving DecidableEq, Repr

structure Paddock where
  live : Bool
  pend : Bool
  evbase : W64
  evovf : Bool
  evlog : BitVec 5
  evwrite : W32
  evread : W32
  events : List (BitVec 256)
  s2root : W64
  timers : Timers
  store : List Nat
  ages : List (Nat × Nat)
  sampled : Nat
  slice : Option (Nat × Nat)
  ladders : List Ladder
  rings : Bank 6 (Option Ring)
  streams : Bank 6 (Option Stream)
  heads : Bank 2 (BitVec 512)
  rrWq : Bank 2 Nat
  deriving DecidableEq, Repr

/-- The timers a Paddock starts with (18 R366, R371, R372, 14 R316, 16 R347, R350). -/
def timersReset : Timers :=
  { spwin := 2048, prep := 1100, grace := 100000, killt := 1000000, agep := 1000000, fabto := 1000000, start := 10000000,
    slice := 10000000 }

def Paddock.reset : Paddock :=
  { live := false, pend := false, evbase := 0, evovf := false, evlog := 0, evwrite := 0, evread := 0, events := [], s2root := 0,
    timers := timersReset, store := [], ages := [], sampled := 0, slice := none, ladders := [], rings := Bank.fill none,
    streams := Bank.fill none, heads := Bank.fill 0, rrWq := Bank.fill 4096 }

/-! ### Connection matrix (20 R398, R399) -/

/-- A PORTOWN or MEMOWN entry of a port. -/
structure Port where
  owner : BitVec 6
  lender : BitVec 6
  pending : Bool
  deriving DecidableEq, Repr

def Port.none : Port := { owner := 63, lender := 63, pending := false }

/-- A MEMOWN entry of a region of 1 GiB. -/
structure Region where
  owner : BitVec 6
  host : Bool
  shared : Bool
  share : BitVec 48
  deriving DecidableEq, Repr

def Region.none : Region := { owner := 63, host := false, shared := false, share := 0 }

/-- A read-only shared frame set (20 R413). -/
structure SharedSet where
  regions : List Nat
  fill : Nat
  sealed_ : Bool
  deriving DecidableEq, Repr

/-- How far a migration is (14 R317): COPYING, or COMMITTING, which reads a source and writes a destination at another module by requests. -/
inductive MigPhase where
  | copying
  | committing
  | reading
  | writing
  deriving DecidableEq, Repr

/-- A migration (14 R317): the page, its VF and Paddock, where it goes, how many lines are copied, lines to copy again, and who asked. -/
structure Migration where
  vf : Nat
  paddock : Nat
  ipa : Nat
  size : Nat
  leaf : Nat
  src : Nat
  dst : Nat
  copied : Nat
  marked : List Nat
  phase : MigPhase
  driver : Option FwHdr
  deriving DecidableEq, Repr

/-- Which TLBs a unit goes through: those of a core's groups, those of its copy engine, or the walkers alone (14 R307). -/
inductive TlbAt where
  | core (c : Nat)
  | engine (c : Nat)
  | die
  deriving DecidableEq, Repr

/-- A cached translation (14 R307): `unit` is where it is cached, `at_` the Bellwether moment of its walk. -/
structure Cached where
  vf : Nat
  va : Nat
  size : Nat
  pa : Nat
  w : Bool
  x : Bool
  leaf1 : Nat
  leaf2 : Nat
  dirty : Bool
  unit : TlbAt
  at_ : Nat
  deriving DecidableEq, Repr

/-- A firmware command that has started and whose work goes on (20 R401, R403, R407): when it started, whether its forced step is done,
and whether its completion has been written. -/
structure Running where
  cmd : FwCmd
  since : Nat
  forced : Bool
  answered : Bool
  deriving DecidableEq, Repr

/-! ### What leaves the device -/

inductive Sent where
  | request (dest : Nat) (m : Request)
  | response (dest : Nat) (id : Nat) (a : Answer)
  | start (dest : Nat) (vf : Nat) (gen : W32)
  | abort (dest : Nat) (vf : Nat) (gen : W32)
  | host (v : W64)
  | hostBytes (d : List W8)
  | msix (vector : Nat)
  | ptp (m : List W8)
  | ptm (ns : W64)
  | scan (d : List W8)
  | video (pd : Nat) (head : Nat) (timing : BitVec 512) (bits : Nat) (px : List (Nat × Nat × Nat))
  deriving DecidableEq, Repr

/-- What the machine has been given to do next: a path's issue, an event, one pass of a `pairs` traversal, a step of a firmware
command, the scrubbing of a line, or a step inside a unit: an element of an engine operation or of a copy that lands, the walk of a miss
that waits, the counting of accesses, the end of a context, a record that waited, an access of the host that waited, a completion of firmware that
waited. -/
inductive Action where
  | issue (r : PathRef)
  | event (i : Instr)
  | pass (r : PathRef)
  | command (c : FwCmd)
  | scrub (line : Nat)
  | element (h id : Nat)
  | copyElement (h : Nat) (d : DReg)
  | missWalk (pd : Nat)
  | account
  | kill (vf : Nat) (c : W8)
  | write (i : Nat)
  | host (ps : List (Nat × Nat)) (d : Option (List W8))
  | place (a : Nat) (d : List W8)
  deriving DecidableEq, Repr

/-! ### Requests to other modules, and theirs (14 R308-R312, 16 R347) -/

/-- Who waits for another module: a path, an engine operation, a copy, the traversal of a path, a migration, an access of the device for a VF, a walk
for an entry, the setting of a bit in leaf entries, or a request that this module forwards. -/
inductive Asker where
  | path (r : PathRef)
  | op (h id : Nat)
  | copy (h : Nat) (d : DReg)
  | pairs (r : PathRef)
  | migr (id : Nat)
  | dev (vf va n : Nat) (d : Option (List W8))
  | entry (vf page pa : Nat)
  | mark (vf : Nat) (entries : List Nat) (bit : Nat)
  | fwd (src id : Nat)
  deriving DecidableEq, Repr

/-- A request under way: who waits, the VF, the module, the moment it was sent, whether accesses are held there and by which request, and the
answer. -/
structure Ask where
  who : Asker
  vf : Nat
  dest : Nat
  since : Nat
  holds : Bool
  of : Nat
  ans : Option Answer
  deriving DecidableEq, Repr

/-- What a request of another module holds here until it performs or is cancelled: its accesses by key with their places, and its order
among engine operations where it owns their lines; the sender's requests whose lines it passes; and the bytes of its lines that it has given
up (12 R284, R285, 14 R310). -/
structure Held where
  src : Nat
  id : Nat
  vf : Nat
  own : Option Nat
  past : List Nat
  ops : List (Nat × RemoteOp × List (Loc × Nat))
  freed : List (Loc × Nat)
  deriving DecidableEq, Repr

/-- A walk that waits for the host and holds its walker, and the units whose misses it serves (14 R308, R312). -/
structure Walk where
  vf : Nat
  page : Nat
  paddock : Nat
  ipa : Nat
  cause : W8
  since : Nat
  units : List TlbAt
  deriving DecidableEq, Repr

/-- A miss of a page that waits for a walker, or for what its walk reads at other modules, and the units that it serves (14 R308). -/
structure Miss where
  paddock : Nat
  vf : Nat
  page : Nat
  units : List TlbAt
  deriving DecidableEq, Repr

/-- What waits for a record that the device writes: the end of a team, a completion, or nothing. -/
inductive Then where
  | exit (grid lin : Nat) (cause : W8)
  | complete (q : Nat) (c : Completion)
  | plain
  deriving DecidableEq, Repr

/-- A record of the device whose page waits for the host (14 R312). -/
structure PendWrite where
  vf : Nat
  va : Nat
  d : List W8
  then_ : Then
  deriving DecidableEq, Repr

/-- What is still to be counted for a VF (22 R425): an access to a line of 128 bytes, which may go
through an L1, a table's line that a walk reads, a request of another space at a crossbar port, a walk, a message that left on Xasta links or arrived. -/
inductive Use where
  | line (vf line : Nat) (write l1 : Bool)
  | table (vf line : Nat)
  | xbar (vf : Nat)
  | walk (vf : Nat)
  | out (vf : Nat)
  | in_ (vf : Nat)
  deriving DecidableEq, Repr

/-! ### SRAM errors, patches, the PTP port (18 R362, 20 R409, R412) -/

/-- A word of SRAM: eight bytes of a team's shared memory, of a grid's scratchpad or of the Fold, or a register of a path's group. -/
inductive SramAt where
  | word (l : Loc)
  | reg (r : PathRef) (x : Reg)
  deriving DecidableEq, Repr

/-- An error in a word of SRAM that its code corrects, or only detects. -/
structure SramErr where
  at_ : SramAt
  hard : Bool
  deriving DecidableEq, Repr

/-- An installed patch: its SVN, its version, and the image. -/
structure Patch where
  svn : W32
  version : W32
  image : List W8
  deriving DecidableEq, Repr

/-- The PTP port of the management controller, a slave-only ordinary clock, times in 2^-16 ns (18 R362): the master that it follows and its
last Announce; a Sync that waits for its Follow_Up, with its arrival; the last difference to the master; its last request for a path delay,
with its departure; a peer's answer that waits for its follow-up; the path delay. -/
structure Ptp where
  parent : List W8
  announce : List W8
  sync : Option (Nat × Int)
  ms : Int
  seq : Nat
  req : Option (Nat × Int)
  peer : Option (Nat × Int)
  delay : Int
  deriving DecidableEq, Repr

def Ptp.reset : Ptp :=
  { parent := [], announce := [], sync := none, ms := 0, seq := 0, req := none, peer := none, delay := 0 }

end Sys2Proof.Machine
end

