-- ==== Sys2Proof/Machine/State.lean ====
section
/-! DEFINITION. The state of a module (INVENTORY.md lists every piece with its rule and reset value), the reasons a step can stop,
and the state after reset. -/

namespace Sys2Proof.Machine

/-- Why the machine stops. -/
inductive Fault where
  /-- An access to a physical address that does not exist (14 R302: class 11, or bits that must be zero). Raised by the host-ring
  accesses of the controller. Safe: the manual gives such an address no memory. -/
  | noSuchAddress
  deriving DecidableEq, Repr

/-- Why the machine refuses a step. -/
inductive Refusal where
  /-- The dispatcher has no meaning for the instruction yet. Safe: nothing can be proved of it. -/
  | notModelled (mnemonic : String)
  deriving DecidableEq, Repr

structure State where
  mem : Memory
  fold : Memory
  groups : KMap Group
  teams : KMap Team
  clusters : KMap Cluster
  grids : KMap Grid
  vfs : KMap Vf
  wqs : KMap Wq
  queues : KMap HwQueue
  paddocks : KMap Paddock
  ports : KMap Port
  memPorts : KMap Port
  regions : KMap Region
  sets : KMap SharedSet
  migrations : KMap Migration
  tlb : List Cached
  unit : TlbAt
  -- walks and accesses under way (14 R308, R310, 16 R347, 22 R425)
  walks : List Walk
  misses : List Miss
  asks : KMap Ask
  held : List Held
  inbox : List Action
  pend : List PendWrite
  uses : List Use
  l2 : List (Nat × Nat)
  -- Bellwether (18 R360, R361): BWNS above BWFRAC
  bell : BitVec 96
  adj : W32
  stepErr : Bool
  src : Bool
  latchHost : W32
  latchCtl : W32
  ptp : Ptp
  -- firmware queue (20 R404)
  fwqbase : W64
  fwcbase : W64
  fwtail : W16
  fwhead : W16
  fwen : Bool
  fwlogn : BitVec 4
  fwdone : Nat
  fwpend : List FwCmd
  fwrun : List Running
  -- features, patches (20 R408, R409)
  feat : Bank 2 W64
  negotiated : Bool
  patch : Option Patch
  fuseSvn : W32
  -- errors (20 R412)
  errLog : Bank 4 (BitVec 256)
  errCount : W32
  faulted : Bool
  ecc : List Nat
  soft : List Nat
  eccCorrected : W64
  sram : List SramErr
  -- the domain (16 R346)
  modnum : Option W8
  bindings : List (Nat × Nat × Nat)
  -- clock, cores, freeze (00 R2, 10 R254, R259, 22 R445)
  mhz : Nat
  cycles : KMap Nat
  vgrowQ : List (Nat × PathRef)
  frozen : Bool
  frozenAt : W64
  frzFuse : Bool
  msix : List Nat
  out : List Sent
  -- the model's own (log entry 2)
  evalVf : Option Nat
  cur : Option PathRef
  agenda : List Action
  free : Nat
  handle : Nat
  deriving DecidableEq, Repr

/-- The machine after power-on (20 R414): DRAM and SRAM zero, Paddocks absent, VFs inactive; the rest as INVENTORY.md gives. -/
def State.reset : State :=
  { mem := [], fold := [], groups := [], teams := [], clusters := [], grids := [], vfs := [], wqs := [], queues := [],
    paddocks := [], ports := [], memPorts := [], regions := [], sets := [], migrations := [], tlb := [], unit := .die,
    walks := [], misses := [], asks := [], held := [], inbox := [], pend := [], uses := [], l2 := [], bell := 0, adj := 0,
    stepErr := false, src := false, latchHost := 0, latchCtl := 0, ptp := Ptp.reset, fwqbase := 0, fwcbase := 0, fwtail := 0, fwhead := 0,
    fwen := false, fwlogn := 0, fwdone := 0, fwpend := [], fwrun := [], feat := Bank.fill 0, negotiated := false, patch := none,
    fuseSvn := 0, errLog := Bank.fill 0, errCount := 0, faulted := false, ecc := [], soft := [], eccCorrected := 0, sram := [], modnum := none, bindings := [],
    mhz := 2100, cycles := [], vgrowQ := [], frozen := false, frozenAt := 0, frzFuse := false, msix := [], out := [], evalVf := none, cur := none,
    agenda := [], free := 0, handle := 1 }

end Sys2Proof.Machine
end

