-- ==== Sys2Proof/Machine/Memory.lean ====
section
/-! DEFINITION. Bytes by address: one canonical list (addresses strictly rising, no zero byte), little-endian values (12 R271, R275,
20 R414). An unlisted address reads 0 (log entry 1). -/

namespace Sys2Proof.Machine

/-- One byte. -/
def Memory.get (m : Memory) (a : Nat) : W8 :=
  match m with
  | [] => 0
  | (k, b) :: rest => if k = a then b else if a < k then 0 else Memory.get rest a

/-- A byte before the cells of a list, unless it is zero. -/
def consByte (a : Nat) (b : W8) (m : Memory) : Memory := if b = 0 then m else (a, b) :: m

def Memory.set (m : Memory) (a : Nat) (b : W8) : Memory :=
  match m with
  | [] => consByte a b []
  | (k, c) :: rest =>
    if k < a then (k, c) :: Memory.set rest a b
    else if k = a then consByte a b rest
    else consByte a b ((k, c) :: rest)

/-- Every address of `m` is above `lo`, rising, and no byte is zero. -/
def Memory.above (lo : Nat) : Memory → Bool
  | [] => true
  | (k, b) :: rest => decide (lo ≤ k) && decide (b ≠ 0) && Memory.above (k + 1) rest

/-- The canonical form. -/
def Memory.wf (m : Memory) : Bool := m.above 0

/-- `n` bytes from an address up. -/
def Memory.read (m : Memory) (a : Nat) : Nat → List W8
  | 0 => []
  | n + 1 => m.get a :: Memory.read m (a + 1) n

def Memory.write (m : Memory) (a : Nat) : List W8 → Memory
  | [] => m
  | b :: rest => Memory.write (m.set a b) (a + 1) rest

/-- Little-endian value of bytes. -/
def leNat : List W8 → Nat
  | [] => 0
  | b :: rest => b.toNat + 256 * leNat rest

/-- `n` little-endian bytes of a value. -/
def natLe : Nat → Nat → List W8
  | 0, _ => []
  | n + 1, v => BitVec.ofNat 8 v :: natLe n (v / 256)

def Memory.le (m : Memory) (a n : Nat) : Nat := leNat (m.read a n)

/-- `n` zero bytes. -/
def zeros (n : Nat) : List W8 := List.replicate n 0

/-- Drops every byte of a range. -/
def Memory.clear (m : Memory) (a n : Nat) : Memory := m.filter fun c => c.1 < a || a + n ≤ c.1

/-- A field of a record held as bytes. -/
def field (d : List W8) (off n : Nat) : Nat := leNat ((d.drop off).take n)

/-- Bit `i` of a value. -/
def nbit (v i : Nat) : Bool := v / 2 ^ i % 2 == 1

/-- Bits `[hi:lo]` of a value. -/
def nbits (v hi lo : Nat) : Nat := v / 2 ^ lo % 2 ^ (hi + 1 - lo)

end Sys2Proof.Machine
end

