-- ==== Sys2Proof/Machine/Crypto.lean ====
section
/-! DEFINITION. The external standards that patches and attestation name (20 R409, R410): SHA-256 as FIPS 180-4 gives it, and ECDSA over the curve
P-256 as FIPS 186-4 does (log entry 10). -/

namespace Sys2Proof.Machine

/-- Big-endian value of bytes. -/
def beNat (d : List W8) : Nat := d.foldl (fun n b => 256 * n + b.toNat) 0

/-- `n` big-endian bytes of a value. -/
def natBe (n v : Nat) : List W8 := (natLe n v).reverse

/-! ### SHA-256 -/

/-- The largest `r` with `r ^ k` at most `v`, below `2 ^ n` above the digits already found. -/
def rootBelow (k v : Nat) : Nat → Nat → Nat
  | 0, r => r
  | n + 1, r => rootBelow k v n (if (r + 2 ^ n) ^ k ≤ v then r + 2 ^ n else r)

/-- The first 32 bits of the fraction of the `k`-th root of `p`, from which FIPS 180-4 takes its constants. -/
def rootBits (k p : Nat) : W32 := BitVec.ofNat 32 (rootBelow k (p * 2 ^ (32 * k)) 40 0)

/-- The first 64 primes. -/
def shaPrimes : List Nat := (List.range' 2 310).filter fun p => (List.range' 2 16).all fun d => p == d || p % d != 0

def shaConst : List W32 := shaPrimes.map (rootBits 3)

def shaStart : List W32 := (shaPrimes.take 8).map (rootBits 2)

/-- Padding to a multiple of 64 bytes. -/
def shaPad (d : List W8) : List W8 := d ++ 0x80 :: zeros ((119 - d.length % 64) % 64) ++ natBe 8 (8 * d.length)

/-- The exclusive or of a word rotated right by each amount. -/
def shaMix (x : W32) (l : List Nat) : W32 := l.foldl (fun v n => v ^^^ x.rotateRight n) 0

/-- The schedule after `n` more words; the newest word comes first. -/
def shaWords : Nat → List W32 → List W32
  | 0, w => w
  | n + 1, w =>
    let x := w.getD 14 0
    let y := w.getD 1 0
    shaWords n ((w.getD 15 0 + (shaMix x [7, 18] ^^^ (x >>> 3)) + w.getD 6 0 + (shaMix y [17, 19] ^^^ (y >>> 10))) :: w)

/-- One round over the eight working words: the last three of each half move down, and the sum over the second half enters both. -/
def shaRound (h : List W32) (k : W32) : List W32 :=
  match h.take 4, h.drop 4 with
  | [a, b, c, d], [e, f, g, z] =>
    let x := z + shaMix e [6, 11, 25] + (g ^^^ (e &&& (f ^^^ g))) + k
    [x + shaMix a [2, 13, 22] + ((a &&& b) ||| (c &&& (a ||| b))), a, b, c, d + x, e, f, g]
  | _, _ => h

def shaBlock (h : List W32) (b : List W8) : List W32 :=
  let w := (List.range 16).map fun i => BitVec.ofNat 32 (beNat ((b.drop (4 * i)).take 4))
  let ws := (shaWords 48 w.reverse).reverse
  List.zipWith (· + ·) h ((List.zipWith (· + ·) shaConst ws).foldl shaRound h)

/-- SHA-256 of some bytes: 32 bytes. -/
def sha256 (d : List W8) : List W8 :=
  let p := shaPad d
  ((List.range (p.length / 64)).foldl (fun h i => shaBlock h ((p.drop (64 * i)).take 64)) shaStart).flatMap fun w => natBe 4 w.toNat

/-! ### ECDSA over P-256 -/

def p256P : Nat := 0xffffffff00000001000000000000000000000000ffffffffffffffffffffffff
def p256N : Nat := 0xffffffff00000000ffffffffffffffffbce6faada7179e84f3b9cac2fc632551
def p256B : Nat := 0x5ac635d8aa3a93e7b3ebbd55769886bc651d06b0cc53b0f63bce3c3e27d2604b
def p256Gx : Nat := 0x6b17d1f2e12c4247f8bce6e563a440f277037d812deb33a0f4a13945d898c296
def p256Gy : Nat := 0x4fe342e2fe1a7f9b8ee7eb4a7c0f9e162bce33576b315ececbb6406837bf51f5

/-- `a ^ e` modulo `m`, over the low `n` bits of the exponent. -/
def powMod (m a e : Nat) : Nat → Nat
  | 0 => 1
  | n + 1 =>
    let x := powMod m a (e / 2) n
    if e % 2 = 1 then x * x * a % m else x * x % m

/-- The inverse modulo a prime. -/
def invMod (m a : Nat) : Nat := powMod m a (m - 2) 256

/-- A point of the curve; none is the point at infinity. -/
abbrev Point := Option (Nat × Nat)

def onCurve (q : Nat × Nat) : Bool :=
  decide (q.1 < p256P) && decide (q.2 < p256P) && q.2 * q.2 % p256P == (q.1 * q.1 * q.1 + (p256P - 3) * q.1 + p256B) % p256P

/-- The third point of a line through two, mirrored. -/
def pointVia (l x1 y1 x2 : Nat) : Point :=
  let x := (l * l + 2 * p256P - x1 - x2) % p256P
  some (x, (l * (x1 + p256P - x) + p256P - y1) % p256P)

def pointAdd (a b : Point) : Point :=
  match a, b with
  | none, q => q
  | q, none => q
  | some (x1, y1), some (x2, y2) =>
    if x1 = x2 then
      if (y1 + y2) % p256P = 0 then none
      else pointVia ((3 * x1 * x1 + p256P - 3) * invMod p256P (2 * y1) % p256P) x1 y1 x2
    else pointVia ((y2 + p256P - y1) * invMod p256P (x2 + p256P - x1) % p256P) x1 y1 x2

/-- `k` times a point, over the low `n` bits of `k`. -/
def pointMul (q : Point) (k : Nat) : Nat → Point
  | 0 => none
  | n + 1 =>
    let h := pointMul q (k / 2) n
    let d := pointAdd h h
    if k % 2 = 1 then pointAdd d q else d

/-- Whether (r, s) is a signature of a message under a public key. -/
def ecdsaOk (key : Nat × Nat) (m : List W8) (r s : Nat) : Bool :=
  let e := beNat (sha256 m)
  let w := invMod p256N s
  decide (0 < r) && decide (r < p256N) && decide (0 < s) && decide (s < p256N) && onCurve key &&
    match pointAdd (pointMul (some (p256Gx, p256Gy)) (e * w % p256N) 256) (pointMul (some key) (r * w % p256N) 256) with
    | some q => q.1 % p256N == r
    | none => false

/-- The signature of a message under a private key, with the nonce `k`: 64 bytes. -/
def ecdsaSign (key k : Nat) (m : List W8) : List W8 :=
  match pointMul (some (p256Gx, p256Gy)) k 256 with
  | some q =>
    let r := q.1 % p256N
    natBe 32 r ++ natBe 32 (invMod p256N k * (beNat (sha256 m) + r * key) % p256N)
  | none => zeros 64

end Sys2Proof.Machine
end

