-- ==== Sys2Proof/WellFormed.lean ====
section
/-! DEFINITION. Which Flano instructions are well formed: the conditions of 02 R46-R66 and of the entries that the types of
the operands do not already say. The numbers 3 to 9 in the names are the checks of R69. -/

namespace Sys2Proof

/-- Forms an opcode admits (02 R53). -/
inductive Form where
  | shortOnly | longOnly | either
  deriving DecidableEq, Repr

/-- The conditions of one instruction's operands: a reserved FN value (check 4), fields (check 6), operand shape (check 9),
and that the short form, if that is its form, can hold the operands (R52). -/
structure Chk where
  fn : Bool := true
  fld : Bool := true
  shp : Bool := true
  short : Bool := true
  deriving DecidableEq, Repr

/-- Holds in the sign-extended IMM12 (R54). -/
def fitS (v : W32) : Bool := v == (v.setWidth 12).signExtend 32

/-- Holds in the zero-extended IMM12. -/
def fitU (v : W32) : Bool := v == (v.setWidth 12).setWidth 32

def SB.fit : SB → Bool
  | .reg _ => true
  | .imm v => fitS v

def VSrc.plain (a : VSrc) : Bool := a.p == .id

def VB.fit : VB → Bool
  | .reg a => a.plain
  | .imm v => fitS v

/-- An even-odd pair (01 R10). -/
def evenV (r : VReg) : Bool := r.getLsbD 0 == false

/-- A block of `n` registers stays within v255 (01 R11). -/
def blockV (r : VReg) (n : Nat) : Bool := decide (r.toNat + n ≤ 256)

/-- A block whose first register is a multiple of `n`. -/
def alignedV (r : VReg) (n : Nat) : Bool := r.toNat % n == 0

def Rnd.plain (r : Rnd) : Bool := r == .mode .rne

/-- An immediate shift count fits bits [w-1:0] (R105, R123). -/
def SB.below (n : Nat) : SB → Bool
  | .reg _ => true
  | .imm v => decide (v.toNat < n)

def VB.below (n : Nat) : VB → Bool
  | .reg _ => true
  | .imm v => decide (v.toNat < n)

def Width.bits : Width → Nat
  | .w32 => 32
  | .h2 => 16
  | .b4 => 8

/-- Half select needs elements below 32 bits (05 R124). -/
def halfOk (w : Width) (h : Half) : Bool := h == .whole || w != .w32

def Ty.isFloat : Ty → Bool
  | .f32 | .f16 | .bf16 | .e4m3 | .e5m2 | .e2m1 => true
  | _ => false

def Ty.bits : Ty → Nat
  | .f32 | .int32 | .uint32 => 32
  | .f16 | .bf16 | .int16 | .uint16 => 16
  | .e4m3 | .e5m2 | .int8 | .uint8 => 8
  | .e2m1 => 4

/-- The pairs of 03 R89. -/
def cvtPair (dst src : Ty) : Bool :=
  dst != src &&
  match dst with
  | .f32 | .f16 | .bf16 => true
  | .e4m3 | .e5m2 => src == .f32 || src == .f16 || src == .bf16 || src == .e4m3 || src == .e5m2
  | .e2m1 => src == .f32 || src == .f16 || src == .bf16
  | _ => src == .f32 || src == .f16 || src == .bf16 || !src.isFloat

def SFty.asCvt : SFty → SCvtTy
  | .f32 => .f32
  | .f16 => .f16
  | .bf16 => .bf16

def SCvtTy.isFloat : SCvtTy → Bool
  | .f32 | .f16 | .bf16 => true
  | _ => false

/-- `.k` takes neither ordering nor scope (06 R153). -/
def kPlain (sp : Space) (o : Ord) : Bool := sp != .k || o == .rlx

def kScope (sp : Space) (c : Scope) : Bool := sp != .k || c == .path

def spaceGscp (sp : Space) : Bool := sp == .g || sp == .s || sp == .c || sp == .p

def sizeWd (z : Size) : Bool := z == .w || z == .d

/-- The register shape of a lane datum of size `z` (06 R157). -/
def dataV (z : Size) (d : VReg) : Bool :=
  match z with
  | .b | .h | .w => true
  | .d => evenV d
  | .q => alignedV d 4

/-- The address register of mode 00 is a pair in `.g` (06 R146). -/
def addrV (sp : Space) : Addr → Bool
  | .vec a => sp != .g || evenV a
  | _ => true

def Addr.isVec : Addr → Bool
  | .vec _ => true
  | _ => false

def AtomOp.isFloat : AtomOp → Bool
  | .fadd | .fmin | .fmax => true
  | _ => false

def Size.bytes : Size → Nat
  | .b => 1
  | .h => 2
  | .w => 4
  | .d => 8
  | .q => 16

def Rows.regs : Rows → Nat
  | .all => 32
  | _ => 16

/-! ### The conditions, by operand shape -/

def chkNil (_ : Hdr) : Chk := {}
def chkSSat (h : Hdr) (o : SSat) : Chk := { short := h.long || (!o.sat && o.b.fit) }
def chkSBin (h : Hdr) (o : SBin) : Chk := { short := h.long || o.b.fit }
def chkSShift (_ : Hdr) (o : SBin) : Chk := { fld := o.b.below 64 }
def chkSAddI (h : Hdr) (o : SImm) : Chk := { short := h.long || fitS o.imm }
def chkSImm (_ : Hdr) (_ : SImm) : Chk := {}
def chkSUn (_ : Hdr) (_ : SUn) : Chk := {}
def chkSBits (_ : Hdr) (_ : SBits) : Chk := {}
def chkSCmp (h : Hdr) (o : SCmp) : Chk := { short := h.long || o.b.fit }
def chkSMov (h : Hdr) (o : SMov) : Chk := { short := h.long || o.a.fit }
def chkSFp (h : Hdr) (o : SFp) : Chk := { short := h.long || o.rm == .rne }
def chkSFma (_ : Hdr) (_ : SFma) : Chk := {}
def chkSFCmp (_ : Hdr) (_ : SFCmp) : Chk := {}
def chkSFCvt (h : Hdr) (o : SFCvt) : Chk :=
  { fn := o.dst != o.src.asCvt, fld := !o.sat || o.dst.isFloat, short := h.long || (o.rm == .rne && !o.sat) }
def chkToff (_ : Hdr) (_ : W32) : Chk := {}
def chkBr (_ : Hdr) (_ : Br) : Chk := {}
def chkBrx (_ : Hdr) (o : Brx) : Chk := { shp := evenV o.a }
def chkSA (_ : Hdr) (_ : SReg) : Chk := {}
def chkVA (_ : Hdr) (a : VReg) : Chk := { shp := evenV a }
def chkSLoop (_ : Hdr) (_ : SLoop) : Chk := {}
def chkKBin (_ : Hdr) (_ : KBin) : Chk := {}
def chkKUn (_ : Hdr) (_ : KUn) : Chk := {}
def chkKRed (_ : Hdr) (_ : KRed) : Chk := {}
def chkKSet (_ : Hdr) (_ : KSet) : Chk := {}

def chkVArith (h : Hdr) (o : VArith) : Chk :=
  { fn := !o.u || o.sat, fld := halfOk o.w o.half,
    short := h.long || (!o.sat && o.half == .whole && o.a.plain && o.b.fit) }
def chkVUns (h : Hdr) (o : VUns) : Chk :=
  { fld := halfOk o.w o.half, short := h.long || (o.half == .whole && o.a.plain && o.b.fit) }
def chkVMad (_ : Hdr) (o : VMad) : Chk := { fn := !o.u || o.sat, fld := halfOk o.w o.half }
def chkVLogic (h : Hdr) (o : VLogic) : Chk := { short := h.long || (o.a.plain && o.b.fit) }
def chkVElem (h : Hdr) (o : VElem) : Chk :=
  { fld := halfOk o.w o.half, short := h.long || (o.half == .whole && o.a.plain && o.b.fit) }
def chkVShift (h : Hdr) (o : VElem) : Chk :=
  { fld := halfOk o.w o.half && o.b.below o.w.bits, short := h.long || (o.half == .whole && o.a.plain && o.b.fit) }
def chkVAbs (h : Hdr) (o : VAbs) : Chk :=
  { fld := halfOk o.w o.half, short := h.long || (!o.sat && o.half == .whole && o.a.plain) }
def chkVCount (h : Hdr) (o : VCount) : Chk :=
  { fld := halfOk o.w o.half, short := h.long || (o.half == .whole && o.a.plain) }
def chkVBfx (h : Hdr) (o : VBfx) : Chk := { short := h.long || o.a.plain }
def chkVBfi (h : Hdr) (o : VBfi) : Chk := { short := h.long || o.a.plain }
def chkVCmp (h : Hdr) (o : VCmp) : Chk := { short := h.long || (o.a.plain && o.b.fit) }
/-- `vaddw` reads a pair, `vmulw` a register (05 R130). -/
def chkVAddw (h : Hdr) (o : VWide) : Chk :=
  { shp := evenV o.d && evenV o.a.r, short := h.long || (o.a.plain && o.b.fit) }
def chkVMulw (h : Hdr) (o : VWide) : Chk := { shp := evenV o.d, short := h.long || (o.a.plain && o.b.fit) }
def chkVMov (h : Hdr) (o : VMov) : Chk := { short := h.long || o.a.fit }
def chkVLi (_ : Hdr) (o : VLi) : Chk := { fld := o.half == .whole || decide (o.imm.toNat < 65536) }
def chkVD (_ : Hdr) (_ : VReg) : Chk := {}
def chkVBcast (_ : Hdr) (_ : VBcast) : Chk := {}
def chkVToS (h : Hdr) (o : VToS) : Chk := { short := h.long || o.a.plain }
def chkVPerm (h : Hdr) (o : VPerm) : Chk :=
  { short := h.long || (o.b.plain && (match o.a with | .lane _ => true | .byte a => a.plain)) }
/-- `.xadd` is a scan (05 R134); U belongs to `.imin` and `.imax`. -/
def chkVRedOp (h : Hdr) (o : VRed) : Chk :=
  { fn := o.op != .xadd && (!o.u || o.op == .imin || o.op == .imax), short := h.long || o.a.plain }
def chkVScanOp (h : Hdr) (o : VRed) : Chk :=
  { fn := !o.u || o.op == .imin || o.op == .imax, short := h.long || o.a.plain }
def chkVFp (h : Hdr) (o : VFp) : Chk := { short := h.long || (o.rnd.plain && o.a.plain && o.b.plain) }
def chkVFma (_ : Hdr) (_ : VFma) : Chk := {}
def chkVBin (h : Hdr) (o : VBin) : Chk := { short := h.long || (o.a.plain && o.b.plain) }
def chkVFCmp (h : Hdr) (o : VFCmp) : Chk := { short := h.long || (o.a.plain && o.b.plain) }
def chkVUn (h : Hdr) (o : VUn) : Chk := { short := h.long || o.a.plain }
def chkVFRnd (h : Hdr) (o : VFRnd) : Chk := { short := h.long || (o.rm == .rne && o.a.plain) }
def chkVHalf (h : Hdr) (o : VHalf) : Chk :=
  { short := h.long || (o.rnd.plain && o.half == .whole && o.a.plain && o.b.plain) }
def chkVHFma (_ : Hdr) (_ : VHFma) : Chk := {}
def chkVDot2 (h : Hdr) (o : VDot2) : Chk := { short := h.long || (o.rnd.plain && o.a.plain && o.b.plain) }
def chkVDot4 (h : Hdr) (o : VDot4) : Chk := { short := h.long || (!o.sat && o.a.plain && o.b.plain) }
/-- 05 R144, R145. -/
def chkVCvt (h : Hdr) (o : VCvt) : Chk :=
  let m := max o.src.bits o.dst.bits
  { fn := cvtPair o.dst o.src,
    fld := decide (o.ss.toNat < m / o.src.bits) && decide (o.ds.toNat < m / o.dst.bits) &&
      (o.rnd != .sr || o.dst.isFloat) && (o.rnd.plain || o.dst.isFloat || o.src.isFloat) &&
      (!o.sat || o.dst.isFloat == o.src.isFloat),
    short := h.long || (o.rnd.plain && !o.sat && o.a.plain) }

def chkVLd (h : Hdr) (o : VLd) : Chk :=
  { fn := kPlain o.sp o.ord && (o.ord == .rlx || o.ord == .acq),
    fld := kScope o.sp o.scope && (!o.sx || o.z == .b || o.z == .h),
    shp := dataV o.z o.d && addrV o.sp o.addr,
    short := h.long || (o.scope == .path && !o.sx && o.addr.isVec && fitS o.off) }
def chkVSt (h : Hdr) (o : VSt) : Chk :=
  { fn := kPlain o.sp o.ord && (o.ord == .rlx || o.ord == .rel), fld := kScope o.sp o.scope,
    shp := dataV o.z o.d && addrV o.sp o.addr,
    short := h.long || (o.scope == .path && o.addr.isVec && fitS o.off) }
def chkSLd (h : Hdr) (o : SLd) : Chk :=
  { fn := spaceGscp o.sp && o.z != .q && (o.ord == .rlx || o.ord == .acq),
    fld := !o.sx || o.z == .b || o.z == .h || o.z == .w,
    short := h.long || (o.scope == .path && !o.sx && fitS o.off) }
def chkSSt (h : Hdr) (o : SSt) : Chk :=
  { fn := spaceGscp o.sp && o.z != .q && (o.ord == .rlx || o.ord == .rel),
    short := h.long || (o.scope == .path && fitS o.off) }
def chkVAtom (h : Hdr) (o : VAtom) : Chk :=
  { fn := spaceGscp o.sp && sizeWd o.z, fld := !o.op.isFloat || o.z == .w,
    shp := dataV o.z o.d && dataV o.z o.b && (o.sp != .g || evenV o.a),
    short := h.long || (o.op == .add && o.scope == .path && fitS o.off) }
def chkSAtom (h : Hdr) (o : SAtom) : Chk :=
  { fn := spaceGscp o.sp && sizeWd o.z, fld := !o.op.isFloat || o.z == .w,
    short := h.long || (o.op == .add && o.scope == .path && fitS o.off) }
def chkVCas (_ : Hdr) (o : VCas) : Chk :=
  { fn := spaceGscp o.sp && sizeWd o.z,
    shp := dataV o.z o.d && dataV o.z o.b && dataV o.z o.c && (o.sp != .g || evenV o.a) }
def chkSCas (_ : Hdr) (o : SCas) : Chk := { fn := spaceGscp o.sp && sizeWd o.z }
def chkVPrefetch (h : Hdr) (o : VPrefetch) : Chk :=
  { shp := addrV .g o.addr, short := h.long || (!o.l2 && o.addr.isVec && fitS o.off) }
def chkFence (_ : Hdr) (_ : Fence) : Chk := {}
def chkWaitA (h : Hdr) (o : WaitA) : Chk :=
  { fn := spaceGscp o.sp && sizeWd o.z && (o.ord == .rlx || o.ord == .acq),
    short := h.long || (o.scope == .path && fitS o.off) }
def chkVIdx (_ : Hdr) (_ : VIdx) : Chk := {}
def chkXSet (h : Hdr) (o : XSet) : Chk :=
  { short := h.long || (match o with | .imm _ v => decide (v.toNat < 4096) | _ => true) }
def chkSpillFill (h : Hdr) (o : SpillFill) : Chk :=
  { fld := (o.off &&& 3) == 0, shp := blockV o.d (o.nm1.toNat + 1), short := h.long || fitS o.off }

/-- The FP4 form is long only (07 R174, R172). -/
def chkMma (h : Hdr) (o : Mma) : Chk :=
  match o.t with
  | .fp4 c _ => { fn := h.long, shp := alignedV o.a 16 && alignedV o.b 16 && alignedV c 4 }
  | _ => { shp := alignedV o.a 16 && alignedV o.b 16 }
def chkTD (_ : Hdr) (_ : TReg) : Chk := {}
def chkMMov (_ : Hdr) (o : MMove) : Chk := { shp := blockV o.v o.rows.regs }
def chkMLoad (_ : Hdr) (o : MMove) : Chk := { shp := blockV o.v o.rows.regs }
def chkMMem (h : Hdr) (o : MMem) : Chk := { short := h.long || (o.bar.isNone && fitS o.off) }
def chkDMem (h : Hdr) (o : DMem) : Chk := { short := h.long || fitS o.off }
def chkDSet (h : Hdr) (o : DSet) : Chk := { short := h.long || o.b.fit }
def chkTCopy (h : Hdr) (o : TCopy) : Chk :=
  { shp := o.b.getLsbD 0 == false, short := h.long || (o.bar.isNone && decide (o.tag.toNat < 4096)) }
def chkTStat (_ : Hdr) (_ : TStat) : Chk := {}
def chkDD (_ : Hdr) (_ : DReg) : Chk := {}
def chkBInit (h : Hdr) (o : BInit) : Chk :=
  { short := h.long || (match o.n with | .reg _ => true | .imm n => decide (n.toNat < 4096)) }
def chkBArr (h : Hdr) (o : BArr) : Chk := { short := h.long || decide (o.n.toNat < 4096) }
def chkCBArr (h : Hdr) (o : CBArr) : Chk := { short := h.long || decide (o.n.toNat < 4096) }
def chkBTry (_ : Hdr) (_ : BTry) : Chk := {}
def chkCBTry (_ : Hdr) (_ : CBTry) : Chk := {}
def chkBInval (_ : Hdr) (_ : Bar) : Chk := {}
def chkRBox4 (_ : Hdr) (o : Trav) : Chk := { shp := blockV o.d 5 && blockV o.a 8 && evenV o.b }
def chkRTri (_ : Hdr) (o : Trav) : Chk := { shp := blockV o.d 4 && blockV o.a 8 && evenV o.b }
def chkCover (_ : Hdr) (o : Trav) : Chk := { shp := blockV o.a 6 && evenV o.b }
def chkPairs (_ : Hdr) (_ : Pairs) : Chk := {}
def chkTex (_ : Hdr) (o : Tex) : Chk := { shp := blockV o.d 4 && evenV o.a }
def chkSCommit (_ : Hdr) (_ : SUn) : Chk := {}
def chkQEnq (_ : Hdr) (_ : QEnq) : Chk := {}
def chkQDeq (_ : Hdr) (o : QDeq) : Chk := { shp := o.kp != o.ke }
def chkQA (_ : Hdr) (_ : QReg) : Chk := {}
def chkRwq (_ : Hdr) (_ : Rwq) : Chk := {}
def chkLaunch (_ : Hdr) (o : Launch) : Chk := { shp := evenV o.a }
def chkLWait (_ : Hdr) (_ : LWait) : Chk := {}
def chkTrapN (_ : Hdr) (_ : W8) : Chk := {}
def chkBrkN (_ : Hdr) (_ : BitVec 12) : Chk := {}
def chkFlag (_ : Hdr) (_ : Bool) : Chk := {}
def chkCrd (_ : Hdr) (o : Crd) : Chk := { shp := match o with | .faddr d => evenV d | _ => true }
def chkCwr (_ : Hdr) (o : Cwr) : Chk := { shp := match o with | .faddr a => evenV a | _ => true }
def chkGrowN (_ : Hdr) (n : BitVec 4) : Chk := { fld := n != 0 }
def chkClock (_ : Hdr) (_ : Clock) : Chk := {}
def chkPgMap (_ : Hdr) (_ : PgMap) : Chk := {}
def chkTlbInv (_ : Hdr) (_ : Option SReg) : Chk := {}
def chkShEv (_ : Hdr) (_ : ShEv) : Chk := {}

/-- What R69 asks of one Flano instruction: its form, whether LA may be nonzero (R57), whether PK and PN mean anything
(R49, R109, R172), and the conditions above. -/
structure Info where
  h : Hdr
  form : Form
  la : Bool
  pred : Bool
  chk : Chk
  deriving DecidableEq, Repr

def Crd.isLane : Crd → Bool
  | .scalar _ _ => false
  | _ => true

def Cwr.isLane : Cwr → Bool
  | .scalar _ _ => false
  | _ => true

/-- The conditions of each Flano instruction; the other rows of the table are no words of this kind. -/
def info : Instr → Option Info
  | .sadd h o => some ⟨h, .either, false, false, chkSSat h o⟩
  | .saddi h o => some ⟨h, .either, false, false, chkSAddI h o⟩
  | .ssub h o => some ⟨h, .either, false, false, chkSSat h o⟩
  | .smul h o => some ⟨h, .either, false, false, chkSBin h o⟩
  | .smulh h o => some ⟨h, .either, false, false, chkSBin h o⟩
  | .sand h o => some ⟨h, .either, false, false, chkSBin h o⟩
  | .sor h o => some ⟨h, .either, false, false, chkSBin h o⟩
  | .sxor h o => some ⟨h, .either, false, false, chkSBin h o⟩
  | .sshl h o => some ⟨h, .either, false, false, chkSShift h o⟩
  | .sshr h o => some ⟨h, .either, false, false, chkSShift h o⟩
  | .ssra h o => some ⟨h, .either, false, false, chkSShift h o⟩
  | .smin h o => some ⟨h, .either, false, false, chkSBin h o⟩
  | .smax h o => some ⟨h, .either, false, false, chkSBin h o⟩
  | .sminu h o => some ⟨h, .either, false, false, chkSBin h o⟩
  | .smaxu h o => some ⟨h, .either, false, false, chkSBin h o⟩
  | .sclz h o => some ⟨h, .either, false, false, chkSUn h o⟩
  | .spopc h o => some ⟨h, .either, false, false, chkSUn h o⟩
  | .sbfx h o => some ⟨h, .either, false, false, chkSBits h o⟩
  | .sbfi h o => some ⟨h, .either, false, false, chkSBits h o⟩
  | .ssel h o => some ⟨h, .either, false, false, chkSBin h o⟩
  | .scmp h o => some ⟨h, .either, false, false, chkSCmp h o⟩
  | .sli h o => some ⟨h, .longOnly, false, false, chkSImm h o⟩
  | .slih h o => some ⟨h, .longOnly, false, false, chkSImm h o⟩
  | .smov h o => some ⟨h, .either, false, false, chkSMov h o⟩
  | .sfadd h o => some ⟨h, .either, false, false, chkSFp h o⟩
  | .sfmul h o => some ⟨h, .either, false, false, chkSFp h o⟩
  | .sfma h o => some ⟨h, .longOnly, false, false, chkSFma h o⟩
  | .sfcmp h o => some ⟨h, .either, false, false, chkSFCmp h o⟩
  | .sfcvt h o => some ⟨h, .either, false, false, chkSFCvt h o⟩
  | .bru h o => some ⟨h, .longOnly, false, true, chkToff h o⟩
  | .br h o => some ⟨h, .longOnly, false, true, chkBr h o⟩
  | .brx h o => some ⟨h, .longOnly, false, true, chkBrx h o⟩
  | .jmp h o => some ⟨h, .longOnly, false, false, chkToff h o⟩
  | .jmpr h o => some ⟨h, .shortOnly, false, false, chkSA h o⟩
  | .jmpv h o => some ⟨h, .shortOnly, false, false, chkVA h o⟩
  | .call h o => some ⟨h, .longOnly, false, false, chkToff h o⟩
  | .callr h o => some ⟨h, .shortOnly, false, false, chkSA h o⟩
  | .ret h => some ⟨h, .shortOnly, false, false, chkNil h⟩
  | .rcv h => some ⟨h, .shortOnly, false, false, chkNil h⟩
  | .sloop h o => some ⟨h, .longOnly, false, false, chkSLoop h o⟩
  | .exit h => some ⟨h, .shortOnly, false, true, chkNil h⟩
  | .kand h o => some ⟨h, .shortOnly, false, true, chkKBin h o⟩
  | .kor h o => some ⟨h, .shortOnly, false, true, chkKBin h o⟩
  | .kxor h o => some ⟨h, .shortOnly, false, true, chkKBin h o⟩
  | .knot h o => some ⟨h, .shortOnly, false, true, chkKUn h o⟩
  | .kmov h o => some ⟨h, .shortOnly, false, true, chkKUn h o⟩
  | .kany h o => some ⟨h, .shortOnly, false, true, chkKRed h o⟩
  | .kall h o => some ⟨h, .shortOnly, false, true, chkKRed h o⟩
  | .kcount h o => some ⟨h, .shortOnly, false, true, chkKRed h o⟩
  | .kset h o => some ⟨h, .shortOnly, false, true, chkKSet h o⟩
  | .kget h o => some ⟨h, .shortOnly, false, true, chkKRed h o⟩
  | .sld h o => some ⟨h, .either, true, false, chkSLd h o⟩
  | .sst h o => some ⟨h, .either, false, false, chkSSt h o⟩
  | .satom h o => some ⟨h, .either, true, false, chkSAtom h o⟩
  | .scas h o => some ⟨h, .longOnly, true, false, chkSCas h o⟩
  | .vadd h o => some ⟨h, .either, false, true, chkVArith h o⟩
  | .vsub h o => some ⟨h, .either, false, true, chkVArith h o⟩
  | .vmul h o => some ⟨h, .either, false, true, chkVArith h o⟩
  | .vmulh h o => some ⟨h, .either, false, true, chkVUns h o⟩
  | .vmad h o => some ⟨h, .longOnly, false, true, chkVMad h o⟩
  | .vaddw h o => some ⟨h, .either, false, true, chkVAddw h o⟩
  | .vmulw h o => some ⟨h, .either, false, true, chkVMulw h o⟩
  | .vand h o => some ⟨h, .either, false, true, chkVLogic h o⟩
  | .vor h o => some ⟨h, .either, false, true, chkVLogic h o⟩
  | .vxor h o => some ⟨h, .either, false, true, chkVLogic h o⟩
  | .vshl h o => some ⟨h, .either, false, true, chkVShift h o⟩
  | .vshr h o => some ⟨h, .either, false, true, chkVShift h o⟩
  | .vsra h o => some ⟨h, .either, false, true, chkVShift h o⟩
  | .vmin h o => some ⟨h, .either, false, true, chkVUns h o⟩
  | .vmax h o => some ⟨h, .either, false, true, chkVUns h o⟩
  | .vabs h o => some ⟨h, .either, false, true, chkVAbs h o⟩
  | .vneg h o => some ⟨h, .either, false, true, chkVAbs h o⟩
  | .vclz h o => some ⟨h, .either, false, true, chkVCount h o⟩
  | .vpopc h o => some ⟨h, .either, false, true, chkVCount h o⟩
  | .vbrev h o => some ⟨h, .either, false, true, chkVCount h o⟩
  | .vbfx h o => some ⟨h, .either, false, true, chkVBfx h o⟩
  | .vbfi h o => some ⟨h, .either, false, true, chkVBfi h o⟩
  | .vsel h o => some ⟨h, .either, false, true, chkVElem h o⟩
  | .vcmp h o => some ⟨h, .either, false, true, chkVCmp h o⟩
  | .vmov h o => some ⟨h, .either, false, true, chkVMov h o⟩
  | .vli h o => some ⟨h, .longOnly, false, true, chkVLi h o⟩
  | .vlane h o => some ⟨h, .either, false, true, chkVD h o⟩
  | .vbcast h o => some ⟨h, .either, false, true, chkVBcast h o⟩
  | .vtos h o => some ⟨h, .either, false, false, chkVToS h o⟩
  | .vperm h o => some ⟨h, .either, false, true, chkVPerm h o⟩
  | .vred h o => some ⟨h, .either, true, true, chkVRedOp h o⟩
  | .vscan h o => some ⟨h, .either, true, true, chkVScanOp h o⟩
  | .vfadd h o => some ⟨h, .either, false, true, chkVFp h o⟩
  | .vfsub h o => some ⟨h, .either, false, true, chkVFp h o⟩
  | .vfmul h o => some ⟨h, .either, false, true, chkVFp h o⟩
  | .vfma h o => some ⟨h, .longOnly, false, true, chkVFma h o⟩
  | .vfmin h o => some ⟨h, .either, false, true, chkVBin h o⟩
  | .vfmax h o => some ⟨h, .either, false, true, chkVBin h o⟩
  | .vfcmp h o => some ⟨h, .either, false, true, chkVFCmp h o⟩
  | .vfrcp h o => some ⟨h, .either, true, true, chkVUn h o⟩
  | .vfrsq h o => some ⟨h, .either, true, true, chkVUn h o⟩
  | .vfsqrt h o => some ⟨h, .either, true, true, chkVUn h o⟩
  | .vfexp2 h o => some ⟨h, .either, true, true, chkVUn h o⟩
  | .vflog2 h o => some ⟨h, .either, true, true, chkVUn h o⟩
  | .vfsin h o => some ⟨h, .either, true, true, chkVUn h o⟩
  | .vfcos h o => some ⟨h, .either, true, true, chkVUn h o⟩
  | .vfrnd h o => some ⟨h, .either, false, true, chkVFRnd h o⟩
  | .vfclass h o => some ⟨h, .either, false, true, chkVUn h o⟩
  | .vhadd h o => some ⟨h, .either, false, true, chkVHalf h o⟩
  | .vhmul h o => some ⟨h, .either, false, true, chkVHalf h o⟩
  | .vhfma h o => some ⟨h, .longOnly, false, true, chkVHFma h o⟩
  | .vdot2 h o => some ⟨h, .either, false, true, chkVDot2 h o⟩
  | .vdot4 h o => some ⟨h, .either, false, true, chkVDot4 h o⟩
  | .vcvt h o => some ⟨h, .either, false, true, chkVCvt h o⟩
  | .vld h o => some ⟨h, .either, true, true, chkVLd h o⟩
  | .vst h o => some ⟨h, .either, false, true, chkVSt h o⟩
  | .vatom h o => some ⟨h, .either, true, true, chkVAtom h o⟩
  | .vcas h o => some ⟨h, .longOnly, true, true, chkVCas h o⟩
  | .vprefetch h o => some ⟨h, .either, false, true, chkVPrefetch h o⟩
  | .fence h o => some ⟨h, .longOnly, false, false, chkFence h o⟩
  | .waita h o => some ⟨h, .either, false, false, chkWaitA h o⟩
  | .waitaWake _ => none
  | .waitaTimeout _ => none
  | .vrdx h o => some ⟨h, .either, false, true, chkVIdx h o⟩
  | .vwrx h o => some ⟨h, .either, false, true, chkVIdx h o⟩
  | .xset h o => some ⟨h, .either, false, true, chkXSet h o⟩
  | .spill h o => some ⟨h, .either, false, true, chkSpillFill h o⟩
  | .fill h o => some ⟨h, .either, true, true, chkSpillFill h o⟩
  | .loadLand _ _ => none
  | .mma h o => some ⟨h, .either, false, false, chkMma h o⟩
  | .mmaComplete _ _ => none
  | .mzero h o => some ⟨h, .either, false, false, chkTD h o⟩
  | .mmov h o => some ⟨h, .either, true, true, chkMMov h o⟩
  | .mload h o => some ⟨h, .either, false, false, chkMLoad h o⟩
  | .mst h o => some ⟨h, .either, false, false, chkMMem h o⟩
  | .mld h o => some ⟨h, .either, false, false, chkMMem h o⟩
  | .mstComplete _ _ => none
  | .mldComplete _ _ => none
  | .dld h o => some ⟨h, .either, false, false, chkDMem h o⟩
  | .dst h o => some ⟨h, .either, false, false, chkDMem h o⟩
  | .dset h o => some ⟨h, .either, false, false, chkDSet h o⟩
  | .tcopy h o => some ⟨h, .either, false, false, chkTCopy h o⟩
  | .tcopyTile _ _ => none
  | .tstat h o => some ⟨h, .either, false, false, chkTStat h o⟩
  | .tresume h o => some ⟨h, .either, false, false, chkDD h o⟩
  | .binit h o => some ⟨h, .either, false, false, chkBInit h o⟩
  | .barr h o => some ⟨h, .either, false, false, chkBArr h o⟩
  | .btry h o => some ⟨h, .either, false, false, chkBTry h o⟩
  | .btryWake _ => none
  | .btryTimeout _ => none
  | .binval h o => some ⟨h, .either, false, false, chkBInval h o⟩
  | .cbarr h o => some ⟨h, .either, false, false, chkCBArr h o⟩
  | .cbtry h o => some ⟨h, .either, false, false, chkCBTry h o⟩
  | .rbox4 h o => some ⟨h, .either, true, true, chkRBox4 h o⟩
  | .rtri h o => some ⟨h, .either, true, true, chkRTri h o⟩
  | .pairs h o => some ⟨h, .either, false, false, chkPairs h o⟩
  | .pairsStop _ => none
  | .tex h o => some ⟨h, .either, true, true, chkTex h o⟩
  | .cover h o => some ⟨h, .either, true, true, chkCover h o⟩
  | .scommit h o => some ⟨h, .either, false, false, chkSCommit h o⟩
  | .qenq h o => some ⟨h, .either, false, false, chkQEnq h o⟩
  | .qdeq h o => some ⟨h, .either, false, true, chkQDeq h o⟩
  | .qsteal h o => some ⟨h, .either, false, true, chkQDeq h o⟩
  | .qeos h o => some ⟨h, .either, false, false, chkQA h o⟩
  | .rwq h o => some ⟨h, .either, false, false, chkRwq h o⟩
  | .launch h o => some ⟨h, .either, false, true, chkLaunch h o⟩
  | .lwait h o => some ⟨h, .either, false, true, chkLWait h o⟩
  | .lwaitWake _ => none
  | .trap h o => some ⟨h, .shortOnly, false, false, chkTrapN h o⟩
  | .brk h o => some ⟨h, .shortOnly, false, false, chkBrkN h o⟩
  | .fret h o => some ⟨h, .shortOnly, false, false, chkFlag h o⟩
  | .sret h => some ⟨h, .shortOnly, false, false, chkNil h⟩
  | .crd h o => some ⟨h, .shortOnly, false, o.isLane, chkCrd h o⟩
  | .cwr h o => some ⟨h, .shortOnly, false, o.isLane, chkCwr h o⟩
  | .vgrow h o => some ⟨h, .shortOnly, false, false, chkGrowN h o⟩
  | .vgrowGrant _ => none
  | .vshrink h o => some ⟨h, .shortOnly, false, false, chkGrowN h o⟩
  | .yield h => some ⟨h, .shortOnly, false, false, chkNil h⟩
  | .clock h o => some ⟨h, .shortOnly, false, false, chkClock h o⟩
  | .tstamp h o => some ⟨h, .shortOnly, false, false, chkSA h o⟩
  | .pgmap h o => some ⟨h, .either, false, false, chkPgMap h o⟩
  | .tlbinv h o => some ⟨h, .either, false, false, chkTlbInv h o⟩
  | .shev h o => some ⟨h, .shortOnly, false, false, chkShEv h o⟩
  | .halt h o => some ⟨h, .shortOnly, false, false, chkFlag h o⟩
  | .slotFill _ => none
  | .deadlockBreak _ => none
  | .teamSave _ => none
  | .spwinExpiry _ => none
  | .clusterDispatch _ => none
  | .teamExit _ => none
  | .walkComplete _ => none
  | .migrationCommit _ => none
  | .ageSample _ => none
  | .remoteRequest _ => none
  | .fabricTimeout _ => none
  | .wqRecordTake _ => none
  | .startMsg _ _ _ => none
  | .abortMsg _ _ _ => none
  | .startTimeout _ => none
  | .chainStart _ _ => none
  | .droverMilestone _ _ => none
  | .chainMiss _ _ => none
  | .sliceEnd _ => none
  | .forcedStep _ => none
  | .killStep _ => none
  | .headScanout _ _ => none
  | .encodeStart _ _ => none
  | .tileRowPost _ _ => none
  | .eventPost _ => none
  | .tileClose _ _ => none
  | .pathSample _ _ => none
  | .traceRecordWrite _ => none
  | .traceRecordDrop _ => none
  | .shEventOffer _ => none
  | .shEvaluate _ => none
  | .shWindow _ => none
  | .shLdf _ _ => none
  | .shLdi _ _ => none
  | .shLdih _ _ => none
  | .shAdd _ _ _ => none
  | .shAddi _ _ _ => none
  | .shSub _ _ _ => none
  | .shAnd _ _ _ => none
  | .shOr _ _ _ => none
  | .shShl _ _ _ => none
  | .shShr _ _ _ => none
  | .shMin _ _ _ => none
  | .shCeq _ _ _ => none
  | .shCltu _ _ _ => none
  | .shBz _ _ => none
  | .shBnz _ _ => none
  | .shHash _ _ _ => none
  | .shHist _ _ => none
  | .shCms _ _ => none
  | .shTrig _ _ => none
  | .shDrop => none
  | .shEnd => none
  | .shattachWrite _ _ => none
  | .shSlotWrite _ => none
  | .crookHalt _ => none
  | .resume _ _ => none
  | .crookStep _ _ => none
  | .setbp _ _ _ => none
  | .setwp _ _ _ _ _ => none
  | .regread _ _ _ => none
  | .noticePost _ => none
  | .noticeRingWrite _ _ _ => none
  | .bwnsRead _ => none
  | .adj _ _ => none
  | .bwStep _ _ => none
  | .ptpMessage _ => none
  | .ptmRequest => none
  | .counterLoRead _ _ => none
  | .counterHiRead _ _ => none
  | .wqtail _ _ _ => none
  | .wqcfg _ _ _ => none
  | .hentry _ _ => none
  | .s1root _ _ => none
  | .evread _ _ => none
  | .fwtail _ => none
  | .regWrite _ => none
  | .identify _ _ => none
  | .negotiate _ _ _ _ _ => none
  | .patchLoad _ _ _ => none
  | .attest _ _ _ => none
  | .paddockSet _ _ _ => none
  | .paddockRegions _ _ _ => none
  | .lend _ _ _ => none
  | .reclaim _ _ => none
  | .s2root _ _ => none
  | .s2inv _ _ _ => none
  | .resumeWalks _ => none
  | .timers _ _ => none
  | .vfActivate _ _ _ _ => none
  | .vfDeactivate _ => none
  | .vfPool _ _ _ _ _ => none
  | .vfBacking _ _ _ => none
  | .vfBudget _ _ _ => none
  | .vfBoost _ _ => none
  | .vfEnd _ _ => none
  | .queueCreate _ _ _ _ => none
  | .queueDestroy _ _ => none
  | .queueSet _ _ _ _ => none
  | .wqBind _ _ _ => none
  | .migrate _ _ _ => none
  | .foldRing _ _ _ => none
  | .streamAdmit _ _ => none
  | .streamWithdraw _ _ => none
  | .headTiming _ _ _ => none
  | .sharedCreate _ _ _ => none
  | .sharedMap _ _ => none
  | .sharedUnmap _ _ => none
  | .sharedSeal _ _ => none
  | .domainForm _ _ _ => none
  | .hostCxlMemAccess _ _ _ => none
  | .hostSnoop _ _ => none
  | .patrolScrub _ => none
  | .powerOn => none
  | .pfReset => none
  | .vfReset _ => none
  | .freeze => none
  | .scanDump => none
  | .bellwetherTick => none
  | .issueSelection _ => none
  | .remoteResponse _ _ => none

/-- The form the header states is one the opcode admits (check 3). -/
def Form.admits (f : Form) (long : Bool) : Bool :=
  match f with
  | .shortOnly => !long
  | .longOnly => long
  | .either => true

/-- Bits [63:60] of the live-mask word are zero (R61, check 8). -/
def liveOk : Option W64 → Bool
  | none => true
  | some m => m.extractLsb' 60 4 == 0

def Info.wf (f : Info) : Bool :=
  f.form.admits f.h.long && f.chk.fn && (f.la || f.h.la == 0) && f.chk.fld && (f.pred || (f.h.pk == 0 && !f.h.pn)) &&
    liveOk f.h.live && f.chk.shp && f.chk.short

/-- A filter word's own condition: branches skip 1 to 31 words, histograms are 0 to 3 (22 R436). Events, host accesses and
messages carry nothing ill-formed. -/
def Instr.wf (i : Instr) : Bool :=
  match info i with
  | some f => f.wf
  | none =>
    match i with
    | .shBz _ o | .shBnz _ o => decide (1 ≤ o.toNat) && decide (o.toNat ≤ 31)
    | .shHist n _ => decide (n.toNat ≤ 3)
    | _ => true

end Sys2Proof
end

