-- ==== Sys2Proof/Decode.lean ====
section
/-! DEFINITION. Decoding and encoding of Flano words (02 R46-R72) and of Shepherd filter words (22 R436).

A Flano instruction is unpacked into the fields of R46 and R50. By its opcode the fields are read as operands; the operands are
then laid out again as the entry lays them out, and where the result differs from the fields found, an unused field, a
reserved value or an unaccepted modifier was there. R69 numbers the checks and orders them. -/

namespace Sys2Proof

/-! ### Words and fields (02 R46, R50) -/

/-- The fields of one instruction; those of word 1 are zero in the short form. -/
structure Raw where
  h : Hdr
  op : W8
  d : W8 := 0
  a : W8 := 0
  b : W8 := 0
  fn : W8 := 0
  imm12 : BitVec 12 := 0
  mod : BitVec 6 := 0
  c : W8 := 0
  pcc : BitVec 6 := 0
  pb : BitVec 6 := 0
  pa : BitVec 6 := 0
  imm32 : W32 := 0
  deriving DecidableEq, Repr

/-- Word 0 (R46). -/
def Raw.word0 (r : Raw) : W64 :=
  r.imm12 ++ r.fn ++ r.b ++ r.a ++ r.d ++ BitVec.ofBool r.h.pn ++ r.h.pk ++ r.h.la ++ r.op ++
    BitVec.ofBool r.h.live.isSome ++ (0#1) ++ BitVec.ofBool r.h.long

/-- Word 1 (R50). -/
def Raw.word1 (r : Raw) : W64 := r.imm32 ++ r.mod ++ r.c ++ r.pcc ++ r.pb ++ r.pa

/-- The words of an instruction, the live-mask word last (R47). -/
def Raw.words (r : Raw) : List W64 :=
  r.word0 :: ((if r.h.long then [r.word1] else []) ++ r.h.live.toList)

/-- L is 00 or 01 (check 1). -/
def lengthOk (w0 : W64) : Bool := w0.getLsbD 1 == false

def isLong (w0 : W64) : Bool := w0.getLsbD 0

def hasLive (w0 : W64) : Bool := w0.getLsbD 2

/-- Words of an instruction (R47). -/
def wordCount (w0 : W64) : Nat := 1 + w0.toNat % 2 + w0.toNat / 4 % 2

/-- The fields of the words found: word 0, word 1 (zero in the short form) and the live-mask word. -/
def Raw.ofWords (w0 w1 : W64) (live : Option W64) : Raw :=
  { h := { long := isLong w0, live := live, la := w0.extractLsb' 11 4, pk := w0.extractLsb' 15 4, pn := w0.getLsbD 19 },
    op := w0.extractLsb' 3 8, d := w0.extractLsb' 20 8, a := w0.extractLsb' 28 8, b := w0.extractLsb' 36 8,
    fn := w0.extractLsb' 44 8, imm12 := w0.extractLsb' 52 12,
    mod := w1.extractLsb' 26 6, c := w1.extractLsb' 18 8, pcc := w1.extractLsb' 12 6, pb := w1.extractLsb' 6 6,
    pa := w1.extractLsb' 0 6, imm32 := w1.extractLsb' 32 32 }

/-! ### Codes (R51, R56, R63-R66). A reserved code reads as the first of its kind, whose own code differs from it. -/

def Perm.code : Perm → BitVec 6
  | .id => 0
  | .rot p => 1#3 ++ p
  | .bc p => 2#3 ++ p
  | .bf p => 3#3 ++ p
  | .mir p => 4#3 ++ BitVec.ofNat 3 p.val

def permOf (c : BitVec 6) : Perm :=
  match (c.extractLsb' 3 3).toNat with
  | 1 => .rot (c.setWidth 3)
  | 2 => .bc (c.setWidth 3)
  | 3 => .bf (c.setWidth 3)
  | 4 => if h : (c.setWidth 3).toNat < 3 then .mir ⟨(c.setWidth 3).toNat, h⟩ else .id
  | _ => .id

def Cond.code : Cond → BitVec 4
  | .eq => 0 | .ne => 1 | .lt => 2 | .le => 3 | .gt => 4 | .ge => 5 | .ltu => 6 | .leu => 7 | .gtu => 8 | .geu => 9

def condOf (c : BitVec 4) : Cond :=
  match c.toNat with
  | 1 => .ne | 2 => .lt | 3 => .le | 4 => .gt | 5 => .ge | 6 => .ltu | 7 => .leu | 8 => .gtu | 9 => .geu
  | _ => .eq

def FCond.code : FCond → BitVec 4
  | .eq => 0 | .ne => 1 | .lt => 2 | .le => 3 | .gt => 4 | .ge => 5 | .uo => 10 | .ord => 11

def fcondOf (c : BitVec 4) : FCond :=
  match c.toNat with
  | 1 => .ne | 2 => .lt | 3 => .le | 4 => .gt | 5 => .ge | 10 => .uo | 11 => .ord
  | _ => .eq

def Rm.code : Rm → BitVec 2
  | .rne => 0 | .rtz => 1 | .rdn => 2 | .rup => 3

def rmOf (c : BitVec 2) : Rm :=
  match c.toNat with
  | 1 => .rtz | 2 => .rdn | 3 => .rup
  | _ => .rne

def Half.code : Half → BitVec 2
  | .whole => 0 | .lo => 1 | .hi => 2

def halfOf (c : BitVec 2) : Half :=
  match c.toNat with
  | 1 => .lo | 2 => .hi
  | _ => .whole

def Width.code : Width → BitVec 2
  | .w32 => 0 | .h2 => 1 | .b4 => 2

def widthOf (c : BitVec 2) : Width :=
  match c.toNat with
  | 1 => .h2 | 2 => .b4
  | _ => .w32

def Ty.code : Ty → BitVec 4
  | .f32 => 0 | .f16 => 1 | .bf16 => 2 | .e4m3 => 3 | .e5m2 => 4 | .e2m1 => 5 | .int8 => 6 | .uint8 => 7 | .int16 => 8
  | .uint16 => 9 | .int32 => 10 | .uint32 => 11

def tyOf (c : BitVec 4) : Ty :=
  match c.toNat with
  | 1 => .f16 | 2 => .bf16 | 3 => .e4m3 | 4 => .e5m2 | 5 => .e2m1 | 6 => .int8 | 7 => .uint8 | 8 => .int16
  | 9 => .uint16 | 10 => .int32 | 11 => .uint32
  | _ => .f32

def SFty.code : SFty → BitVec 4
  | .f32 => 0 | .f16 => 1 | .bf16 => 2

def sftyOf (c : BitVec 4) : SFty :=
  match c.toNat with
  | 1 => .f16 | 2 => .bf16
  | _ => .f32

def SCvtTy.code : SCvtTy → BitVec 4
  | .f32 => 0 | .f16 => 1 | .bf16 => 2 | .int32 => 10 | .uint32 => 11 | .int64 => 12 | .uint64 => 13

def scvtTyOf (c : BitVec 4) : SCvtTy :=
  match c.toNat with
  | 1 => .f16 | 2 => .bf16 | 10 => .int32 | 11 => .uint32 | 12 => .int64 | 13 => .uint64
  | _ => .f32

def HTy.code : HTy → BitVec 4
  | .f16 => 1 | .bf16 => 2

def htyOf (c : BitVec 4) : HTy := if c == 2 then .bf16 else .f16

def Size.code : Size → BitVec 3
  | .b => 0 | .h => 1 | .w => 2 | .d => 3 | .q => 4

def sizeOf' (c : BitVec 3) : Size :=
  match c.toNat with
  | 1 => .h | 2 => .w | 3 => .d | 4 => .q
  | _ => .b

def Space.code : Space → BitVec 3
  | .g => 0 | .s => 1 | .c => 2 | .p => 3 | .k => 4 | .f => 5

def spaceOf (c : BitVec 3) : Space :=
  match c.toNat with
  | 1 => .s | 2 => .c | 3 => .p | 4 => .k | 5 => .f
  | _ => .g

def Ord.code : Ord → BitVec 2
  | .rlx => 0 | .acq => 1 | .rel => 2 | .ar => 3

def ordOf (c : BitVec 2) : Ord :=
  match c.toNat with
  | 1 => .acq | 2 => .rel | 3 => .ar
  | _ => .rlx

def Scope.code : Scope → BitVec 3
  | .path => 0 | .group => 1 | .team => 2 | .cluster => 3 | .module => 4 | .domain => 5 | .system => 6

def scopeOf (c : BitVec 3) : Scope :=
  match c.toNat with
  | 1 => .group | 2 => .team | 3 => .cluster | 4 => .module | 5 => .domain | 6 => .system
  | _ => .path

/-- Selector MOD[31:29] and kind IMM12[1:0] of an atomic (06 R159). -/
def AtomOp.code : AtomOp → BitVec 3 × BitVec 2
  | .add => (0, 0) | .and => (1, 0) | .or => (2, 0) | .xor => (3, 0) | .exch => (4, 0) | .min => (5, 0) | .max => (6, 0)
  | .minu => (5, 1) | .maxu => (6, 1) | .fadd => (0, 2) | .fmin => (5, 2) | .fmax => (6, 2)

def atomOf (sel : BitVec 3) (kind : BitVec 2) : AtomOp :=
  match sel.toNat, kind.toNat with
  | 1, 0 => .and | 2, 0 => .or | 3, 0 => .xor | 4, 0 => .exch | 5, 0 => .min | 6, 0 => .max
  | 5, 1 => .minu | 6, 1 => .maxu | 0, 2 => .fadd | 5, 2 => .fmin | 6, 2 => .fmax
  | _, _ => .add

def RedOp.code : RedOp → BitVec 4
  | .iadd => 0 | .imin => 1 | .imax => 2 | .iand => 3 | .ior => 4 | .ixor => 5 | .fadd => 6 | .fmin => 7 | .fmax => 8
  | .xadd => 9

def redOf (c : BitVec 4) : RedOp :=
  match c.toNat with
  | 1 => .imin | 2 => .imax | 3 => .iand | 4 => .ior | 5 => .ixor | 6 => .fadd | 7 => .fmin | 8 => .fmax | 9 => .xadd
  | _ => .iadd

def XStep.code : XStep → BitVec 2
  | .none => 0 | .inc => 1 | .dec => 2

def xstepOf (c : BitVec 2) : XStep :=
  match c.toNat with
  | 1 => .inc | 2 => .dec
  | _ => .none

def Rows.code : Rows → BitVec 4
  | .all => 0 | .top => 1 | .bot => 2

def rowsOf (c : BitVec 4) : Rows :=
  match c.toNat with
  | 1 => .top | 2 => .bot
  | _ => .all

def ESpace.code : ESpace → BitVec 3
  | .g => 0 | .s => 1 | .p => 3

def espaceOf (c : BitVec 3) : ESpace :=
  match c.toNat with
  | 1 => .s | 3 => .p
  | _ => .g

def DField.code : DField → BitVec 4
  | .base => 0 | .dim0 => 1 | .dim1 => 2 | .dim2 => 3 | .dim3 => 4 | .stride1 => 5 | .stride2 => 6 | .stride3 => 7
  | .box0 => 8 | .box1 => 9 | .box2 => 10 | .box3 => 11 | .type => 12 | .flags => 13 | .fill => 14 | .walk => 15

def dfieldOf (c : BitVec 4) : DField :=
  match c.toNat with
  | 1 => .dim0 | 2 => .dim1 | 3 => .dim2 | 4 => .dim3 | 5 => .stride1 | 6 => .stride2 | 7 => .stride3
  | 8 => .box0 | 9 => .box1 | 10 => .box2 | 11 => .box3 | 12 => .type | 13 => .flags | 14 => .fill | 15 => .walk
  | _ => .base

def CDir.code : CDir → BitVec 3
  | .g2s => 0 | .s2g => 1 | .g2p => 2 | .p2g => 3 | .p2s => 4 | .s2p => 5

def cdirOf (c : BitVec 3) : CDir :=
  match c.toNat with
  | 1 => .s2g | 2 => .g2p | 3 => .p2g | 4 => .p2s | 5 => .s2p
  | _ => .g2s

def PSize.code : PSize → BitVec 2
  | .p4k => 0 | .p64k => 1 | .p2m => 2 | .p1g => 3

def psizeOf (c : BitVec 2) : PSize :=
  match c.toNat with
  | 1 => .p64k | 2 => .p2m | 3 => .p1g
  | _ => .p4k

/-- FN of `mma`: type of A in [3:0], of B in [7:4] (07 R174, R175). -/
def MmaTy.code : MmaTy → W8
  | .f16 => 1 | .bf16 => 2 | .int8 => 6 | .fp4 _ _ => 5
  | .fp8 a5 b => (match b with | none => 0#4 | some b5 => if b5 then 4#4 else 3#4) ++ (if a5 then 4#4 else 3#4)

/-- Control-register numbers (01 R17). -/
def CrName.code : CrName → BitVec 12
  | .gid => 0 | .teamid => 1 | .clid => 2 | .gridid => 3 | .core => 4 | .vfid => 5 | .pathix => 6 | .pmask => 7
  | .gctl => 8 | .vwin => 9 | .smask => 10 | .fcause => 11 | .fpc => 12 | .srate => 15 | .stripid => 16 | .deadln => 17
  | .ctr n => 1#4 ++ n

def CwName.code : CwName → BitVec 12
  | .gctl => 8 | .smask => 10 | .fcause => 11 | .fpc => 12

/-! ### Field helpers -/

def regS (f : W8) : SReg := f.setWidth 6
def regK (f : W8) : KReg := f.setWidth 4
def regT (f : W8) : TReg := f.setWidth 3
def regX (f : W8) : XReg := f.setWidth 2
def fld {w : Nat} (r : BitVec w) : W8 := r.setWidth 8

/-- The immediate of the form, IMM12 sign-extended (R54). -/
def Raw.immS (r : Raw) : W32 := if r.h.long then r.imm32 else r.imm12.signExtend 32
/-- The immediate of the form, unsigned. -/
def Raw.immU (r : Raw) : W32 := if r.h.long then r.imm32 else r.imm12.setWidth 32
/-- Lays an immediate out in the field of the form. -/
def Raw.imm (r : Raw) (v : W32) : Raw := if r.h.long then { r with imm32 := v } else { r with imm12 := v.setWidth 12 }
def Raw.immSB (r : Raw) : SB → Raw
  | .reg s => { r with b := fld s }
  | .imm v => r.imm v
/-- Scope in MOD[28:26] and selector in MOD[31:29]. -/
def modMem (sel : BitVec 3) (scope : Scope) : BitVec 6 := sel ++ scope.code
def fnMem (ord : Ord) (sp : Space) (z : Size) : W8 := ord.code ++ sp.code ++ z.code
def Raw.ord (r : Raw) : Ord := ordOf (r.fn.extractLsb' 6 2)
def Raw.sp (r : Raw) : Space := spaceOf (r.fn.extractLsb' 3 3)
def Raw.z (r : Raw) : Size := sizeOf' (r.fn.extractLsb' 0 3)
def Raw.scope (r : Raw) : Scope := scopeOf (r.mod.extractLsb' 0 3)
def Raw.sel (r : Raw) : BitVec 3 := r.mod.extractLsb' 3 3
def Raw.fnLo (r : Raw) : BitVec 4 := r.fn.extractLsb' 0 4
def Raw.fnHi (r : Raw) : BitVec 4 := r.fn.extractLsb' 4 4
def Raw.srcA (r : Raw) : VSrc := ⟨r.a, permOf r.pa⟩
def Raw.srcB (r : Raw) : VSrc := ⟨r.b, permOf r.pb⟩
def Raw.srcC (r : Raw) : VSrc := ⟨r.c, permOf r.pcc⟩
def Raw.putA (r : Raw) (s : VSrc) : Raw := { r with a := s.r, pa := s.p.code }
def Raw.putB (r : Raw) (s : VSrc) : Raw := { r with b := s.r, pb := s.p.code }
def Raw.putC (r : Raw) (s : VSrc) : Raw := { r with c := s.r, pcc := s.p.code }
def Raw.putVB (r : Raw) : VB → Raw
  | .reg s => r.putB s
  | .imm v => r.imm v
def VB.isImm : VB → Bool
  | .reg _ => false
  | .imm _ => true
def SB.isImm : SB → Bool
  | .reg _ => false
  | .imm _ => true
/-- MOD of the arithmetic classes: SR, half select, SAT, rounding (R51). -/
def modAr (rnd : Rnd) (half : Half) (sat : Bool) : BitVec 6 :=
  match rnd with
  | .sr => (1#1) ++ half.code ++ BitVec.ofBool sat ++ (0#2)
  | .mode m => (0#1) ++ half.code ++ BitVec.ofBool sat ++ m.code
def Raw.rnd (r : Raw) : Rnd := if r.mod.getLsbD 5 then .sr else .mode (rmOf (r.mod.extractLsb' 0 2))
def Raw.rm (r : Raw) : Rm := rmOf (r.mod.extractLsb' 0 2)
def Raw.half (r : Raw) : Half := halfOf (r.mod.extractLsb' 3 2)
def Raw.sat (r : Raw) : Bool := r.mod.getLsbD 2
/-- FN of the lane integer class: U, I, width, sub-operation (R66). -/
def fnLane (u i : Bool) (w : Width) (sub : BitVec 4) : W8 := BitVec.ofBool u ++ BitVec.ofBool i ++ w.code ++ sub
def Raw.u (r : Raw) : Bool := r.fn.getLsbD 7
def Raw.width (r : Raw) : Width := widthOf (r.fn.extractLsb' 4 2)
def Raw.vb (r : Raw) : VB := if r.fn.getLsbD 6 then .imm r.immS else .reg r.srcB
def Raw.vbU (r : Raw) : VB := if r.fn.getLsbD 6 then .imm r.immU else .reg r.srcB
def Raw.sb (r : Raw) : SB := if r.fn.getLsbD 7 then .imm r.immS else .reg (regS r.b)
def Raw.sbU (r : Raw) : SB := if r.fn.getLsbD 7 then .imm r.immU else .reg (regS r.b)
def fnScalar (i : Bool) (sub : BitVec 4) : W8 := BitVec.ofBool i ++ (0#3) ++ sub
/-- A barrier in C, with MOD[31] naming it and MOD[30] a cluster barrier (07 R174, R183). -/
def Raw.putBar (r : Raw) : Option Bar → Raw
  | none => r
  | some (.team n) => { r with c := fld n, mod := 0b100000 }
  | some (.cluster n) => { r with c := fld n, mod := 0b110000 }
def Raw.bar (r : Raw) : Option Bar :=
  if r.mod.getLsbD 5 then some (if r.mod.getLsbD 4 then .cluster (regX r.c) else .team (regK r.c)) else none
def Raw.putAddr (r : Raw) (sx : Bool) (scope : Scope) : Addr → Raw
  | .vec a => { r with a := a, mod := modMem (0#2 ++ BitVec.ofBool sx) scope }
  | .scaled a b => { r with a := fld a, b := b, mod := modMem (1#2 ++ BitVec.ofBool sx) scope }
  | .lanes a => { r with a := fld a, mod := modMem (2#2 ++ BitVec.ofBool sx) scope }
def Raw.addr (r : Raw) : Addr :=
  match (r.mod.extractLsb' 4 2).toNat with
  | 1 => .scaled (regS r.a) r.b
  | 2 => .lanes (regS r.a)
  | _ => .vec r.a

/-! ### Operand layouts: for each shape, how the entry lays it out and how it is read -/

def putNil (r : Raw) : Raw := r

def putSSat (r : Raw) (o : SSat) : Raw :=
  { r with d := fld o.d, a := fld o.a, fn := fnScalar o.b.isImm 0, mod := modAr (.mode .rne) .whole o.sat }.immSB o.b
def getSSat (r : Raw) : SSat := ⟨r.sat, regS r.d, regS r.a, r.sb⟩

def putSBin (r : Raw) (o : SBin) : Raw := { r with d := fld o.d, a := fld o.a, fn := fnScalar o.b.isImm 0 }.immSB o.b
def getSBin (r : Raw) : SBin := ⟨regS r.d, regS r.a, r.sb⟩

def putSShift (r : Raw) (o : SBin) : Raw := { r with d := fld o.d, a := fld o.a, fn := fnScalar o.b.isImm 0 }.immSB o.b
def getSShift (r : Raw) : SBin := ⟨regS r.d, regS r.a, r.sbU⟩

def putSAddI (r : Raw) (o : SImm) : Raw := { r with d := fld o.d }.imm o.imm
def getSAddI (r : Raw) : SImm := ⟨regS r.d, r.immS⟩

def putSImm (r : Raw) (o : SImm) : Raw := { r with d := fld o.d }.imm o.imm
def getSImm (r : Raw) : SImm := ⟨regS r.d, r.immS⟩

def putSUn (r : Raw) (o : SUn) : Raw := { r with d := fld o.d, a := fld o.a }
def getSUn (r : Raw) : SUn := ⟨regS r.d, regS r.a⟩

def putSBits (r : Raw) (o : SBits) : Raw :=
  { r with d := fld o.d, a := fld o.a, fn := fnScalar true 0 }.imm ((o.wm1 ++ o.pos).setWidth 32)
def getSBits (r : Raw) : SBits := ⟨regS r.d, regS r.a, r.immU.extractLsb' 0 6, r.immU.extractLsb' 6 6⟩

def putSCmp (r : Raw) (o : SCmp) : Raw :=
  { r with d := fld o.d, a := fld o.a, fn := fnScalar o.b.isImm o.cc.code }.immSB o.b
def getSCmp (r : Raw) : SCmp := ⟨condOf r.fnLo, regS r.d, regS r.a, r.sb⟩

def putSMov (r : Raw) (o : SMov) : Raw :=
  match o.a with
  | .reg a => { r with d := fld o.d, a := fld a }
  | .imm v => { r with d := fld o.d, fn := fnScalar true 0 }.imm v
def getSMov (r : Raw) : SMov := ⟨regS r.d, if r.fn.getLsbD 7 then .imm r.immS else .reg (regS r.a)⟩

def putSFp (r : Raw) (o : SFp) : Raw :=
  { r with d := fld o.d, a := fld o.a, b := fld o.b, fn := o.t.code ++ (0#4), mod := o.rm.code.setWidth 6 }
def getSFp (r : Raw) : SFp := ⟨sftyOf r.fnHi, r.rm, regS r.d, regS r.a, regS r.b⟩

def putSFma (r : Raw) (o : SFma) : Raw :=
  { r with d := fld o.d, a := fld o.a, b := fld o.b, c := fld o.c, fn := o.t.code ++ (0#4), mod := o.rm.code.setWidth 6 }
def getSFma (r : Raw) : SFma := ⟨sftyOf r.fnHi, r.rm, regS r.d, regS r.a, regS r.b, regS r.c⟩

def putSFCmp (r : Raw) (o : SFCmp) : Raw :=
  { r with d := fld o.d, a := fld o.a, b := fld o.b, fn := o.t.code ++ o.cc.code }
def getSFCmp (r : Raw) : SFCmp := ⟨sftyOf r.fnHi, fcondOf r.fnLo, regS r.d, regS r.a, regS r.b⟩

def putSFCvt (r : Raw) (o : SFCvt) : Raw :=
  { r with d := fld o.d, a := fld o.a, fn := o.src.code ++ o.dst.code, mod := modAr (.mode o.rm) .whole o.sat }
def getSFCvt (r : Raw) : SFCvt := ⟨scvtTyOf r.fnLo, sftyOf r.fnHi, r.rm, r.sat, regS r.d, regS r.a⟩

def putToff (r : Raw) (t : W32) : Raw := { r with imm32 := t }
def getToff (r : Raw) : W32 := r.imm32

/-- ROFF occupies word 1 [31:12] (R55). -/
def putRoff (r : Raw) (o : BitVec 20) : Raw :=
  { r with mod := o.extractLsb' 14 6, c := o.extractLsb' 6 8, pcc := o.extractLsb' 0 6 }
def getRoff (r : Raw) : BitVec 20 := r.mod ++ r.c ++ r.pcc

def putBr (r : Raw) (o : Br) : Raw := putRoff { r with imm32 := o.toff } o.roff
def getBr (r : Raw) : Br := ⟨r.imm32, getRoff r⟩

def putBrx (r : Raw) (o : Brx) : Raw := putRoff { r with a := o.a } o.roff
def getBrx (r : Raw) : Brx := ⟨r.a, getRoff r⟩

def putSA (r : Raw) (a : SReg) : Raw := { r with a := fld a }
def getSA (r : Raw) : SReg := regS r.a

def putVA (r : Raw) (a : VReg) : Raw := { r with a := a }
def getVA (r : Raw) : VReg := r.a

def putSLoop (r : Raw) (o : SLoop) : Raw := { r with d := fld o.d, imm32 := o.toff }
def getSLoop (r : Raw) : SLoop := ⟨regS r.d, r.imm32⟩

def putKBin (r : Raw) (o : KBin) : Raw := { r with d := fld o.d, a := fld o.a, b := fld o.b }
def getKBin (r : Raw) : KBin := ⟨regK r.d, regK r.a, regK r.b⟩

def putKUn (r : Raw) (o : KUn) : Raw := { r with d := fld o.d, a := fld o.a }
def getKUn (r : Raw) : KUn := ⟨regK r.d, regK r.a⟩

def putKRed (r : Raw) (o : KRed) : Raw := { r with d := fld o.d, a := fld o.a }
def getKRed (r : Raw) : KRed := ⟨regS r.d, regK r.a⟩

def putKSet (r : Raw) (o : KSet) : Raw := { r with d := fld o.d, a := fld o.a }
def getKSet (r : Raw) : KSet := ⟨regK r.d, regS r.a⟩

def putVArith (r : Raw) (o : VArith) : Raw :=
  ({ r with d := o.d, fn := fnLane o.u o.b.isImm o.w 0, mod := modAr (.mode .rne) o.half o.sat }.putA o.a).putVB o.b
def getVArith (r : Raw) : VArith := ⟨r.width, r.u, r.sat, r.half, r.d, r.srcA, r.vb⟩

def putVUns (r : Raw) (o : VUns) : Raw :=
  ({ r with d := o.d, fn := fnLane o.u o.b.isImm o.w 0, mod := modAr (.mode .rne) o.half false }.putA o.a).putVB o.b
def getVUns (r : Raw) : VUns := ⟨r.width, r.u, r.half, r.d, r.srcA, r.vb⟩

def putVMad (r : Raw) (o : VMad) : Raw :=
  (({ r with d := o.d, fn := fnLane o.u false o.w 0, mod := modAr (.mode .rne) o.half o.sat }.putA o.a).putB o.b).putC o.c
def getVMad (r : Raw) : VMad := ⟨r.width, r.u, r.sat, r.half, r.d, r.srcA, r.srcB, r.srcC⟩

def putVLogic (r : Raw) (o : VLogic) : Raw :=
  ({ r with d := o.d, fn := fnLane false o.b.isImm .w32 0 }.putA o.a).putVB o.b
def getVLogic (r : Raw) : VLogic := ⟨r.d, r.srcA, r.vb⟩

def putVElem (r : Raw) (o : VElem) : Raw :=
  ({ r with d := o.d, fn := fnLane false o.b.isImm o.w 0, mod := modAr (.mode .rne) o.half false }.putA o.a).putVB o.b
def getVElem (r : Raw) : VElem := ⟨r.width, r.half, r.d, r.srcA, r.vb⟩

def putVShift (r : Raw) (o : VElem) : Raw :=
  ({ r with d := o.d, fn := fnLane false o.b.isImm o.w 0, mod := modAr (.mode .rne) o.half false }.putA o.a).putVB o.b
def getVShift (r : Raw) : VElem := ⟨r.width, r.half, r.d, r.srcA, r.vbU⟩

def putVAbs (r : Raw) (o : VAbs) : Raw :=
  { r with d := o.d, fn := fnLane false false o.w 0, mod := modAr (.mode .rne) o.half o.sat }.putA o.a
def getVAbs (r : Raw) : VAbs := ⟨r.width, r.sat, r.half, r.d, r.srcA⟩

def putVCount (r : Raw) (o : VCount) : Raw :=
  { r with d := o.d, fn := fnLane false false o.w 0, mod := modAr (.mode .rne) o.half false }.putA o.a
def getVCount (r : Raw) : VCount := ⟨r.width, r.half, r.d, r.srcA⟩

def putVBfx (r : Raw) (o : VBfx) : Raw :=
  ({ r with d := o.d, fn := fnLane o.u true .w32 0 }.putA o.a).imm ((o.wm1 ++ o.pos).setWidth 32)
def getVBfx (r : Raw) : VBfx := ⟨r.u, r.d, r.srcA, r.immU.extractLsb' 0 5, r.immU.extractLsb' 5 5⟩

def putVBfi (r : Raw) (o : VBfi) : Raw :=
  ({ r with d := o.d, fn := fnLane false true .w32 0 }.putA o.a).imm ((o.wm1 ++ o.pos).setWidth 32)
def getVBfi (r : Raw) : VBfi := ⟨r.d, r.srcA, r.immU.extractLsb' 0 5, r.immU.extractLsb' 5 5⟩

def putVCmp (r : Raw) (o : VCmp) : Raw :=
  ({ r with d := fld o.d, fn := fnLane false o.b.isImm .w32 o.cc.code }.putA o.a).putVB o.b
def getVCmp (r : Raw) : VCmp := ⟨condOf r.fnLo, regK r.d, r.srcA, r.vb⟩

def putVWide (r : Raw) (o : VWide) : Raw :=
  ({ r with d := o.d, fn := fnLane o.u o.b.isImm .w32 0 }.putA o.a).putVB o.b
def getVWide (r : Raw) : VWide := ⟨r.u, r.d, r.srcA, r.vb⟩

def putVMov (r : Raw) (o : VMov) : Raw :=
  match o.a with
  | .reg a => { r with d := o.d }.putA a
  | .imm v => { r with d := o.d, fn := fnLane false true .w32 0 }.imm v
def getVMov (r : Raw) : VMov := ⟨r.d, if r.fn.getLsbD 6 then .imm r.immS else .reg r.srcA⟩

def putVLi (r : Raw) (o : VLi) : Raw := { r with d := o.d, imm32 := o.imm, mod := modAr (.mode .rne) o.half false }
def getVLi (r : Raw) : VLi := ⟨r.half, r.d, r.imm32⟩

def putVD (r : Raw) (d : VReg) : Raw := { r with d := d }
def getVD (r : Raw) : VReg := r.d

def putVBcast (r : Raw) (o : VBcast) : Raw := { r with d := o.d, a := fld o.a }
def getVBcast (r : Raw) : VBcast := ⟨r.d, regS r.a⟩

def putVToS (r : Raw) (o : VToS) : Raw :=
  ({ r with d := fld o.d, fn := fnLane o.u true .w32 0 }.putA o.a).imm (o.n.setWidth 32)
def getVToS (r : Raw) : VToS := ⟨r.u, regS r.d, r.srcA, r.immU.setWidth 3⟩

def putVPerm (r : Raw) (o : VPerm) : Raw :=
  match o.a with
  | .lane a => { r with d := o.d, a := a, fn := 0 }.putB o.b
  | .byte a => ({ r with d := o.d, fn := 1 }.putA a).putB o.b
def getVPerm (r : Raw) : VPerm := ⟨r.d, if r.fn.getLsbD 0 then .byte r.srcA else .lane r.a, r.srcB⟩

def putVRed (r : Raw) (o : VRed) : Raw := { r with d := o.d, fn := fnLane o.u false .w32 o.op.code }.putA o.a
def getVRed (r : Raw) : VRed := ⟨redOf r.fnLo, r.u, r.d, r.srcA⟩

def putVFp (r : Raw) (o : VFp) : Raw := ({ r with d := o.d, mod := modAr o.rnd .whole false }.putA o.a).putB o.b
def getVFp (r : Raw) : VFp := ⟨r.rnd, r.d, r.srcA, r.srcB⟩

def putVFma (r : Raw) (o : VFma) : Raw :=
  (({ r with d := o.d, mod := modAr o.rnd .whole false }.putA o.a).putB o.b).putC o.c
def getVFma (r : Raw) : VFma := ⟨r.rnd, r.d, r.srcA, r.srcB, r.srcC⟩

def putVBin (r : Raw) (o : VBin) : Raw := ({ r with d := o.d }.putA o.a).putB o.b
def getVBin (r : Raw) : VBin := ⟨r.d, r.srcA, r.srcB⟩

def putVFCmp (r : Raw) (o : VFCmp) : Raw := ({ r with d := fld o.d, fn := (0#4) ++ o.cc.code }.putA o.a).putB o.b
def getVFCmp (r : Raw) : VFCmp := ⟨fcondOf r.fnLo, regK r.d, r.srcA, r.srcB⟩

def putVUn (r : Raw) (o : VUn) : Raw := { r with d := o.d }.putA o.a
def getVUn (r : Raw) : VUn := ⟨r.d, r.srcA⟩

def putVFRnd (r : Raw) (o : VFRnd) : Raw := { r with d := o.d, mod := o.rm.code.setWidth 6 }.putA o.a
def getVFRnd (r : Raw) : VFRnd := ⟨r.rm, r.d, r.srcA⟩

def putVHalf (r : Raw) (o : VHalf) : Raw :=
  ({ r with d := o.d, fn := (0#4) ++ o.t.code, mod := modAr o.rnd o.half false }.putA o.a).putB o.b
def getVHalf (r : Raw) : VHalf := ⟨htyOf r.fnLo, r.rnd, r.half, r.d, r.srcA, r.srcB⟩

def putVHFma (r : Raw) (o : VHFma) : Raw :=
  (({ r with d := o.d, fn := (0#4) ++ o.t.code, mod := modAr o.rnd o.half false }.putA o.a).putB o.b).putC o.c
def getVHFma (r : Raw) : VHFma := ⟨htyOf r.fnLo, r.rnd, r.half, r.d, r.srcA, r.srcB, r.srcC⟩

def putVDot2 (r : Raw) (o : VDot2) : Raw :=
  ({ r with d := o.d, fn := (0#4) ++ o.t.code, mod := modAr o.rnd .whole false }.putA o.a).putB o.b
def getVDot2 (r : Raw) : VDot2 := ⟨htyOf r.fnLo, r.rnd, r.d, r.srcA, r.srcB⟩

def putVDot4 (r : Raw) (o : VDot4) : Raw :=
  ({ r with d := o.d, fn := if o.u then 7 else 6, mod := modAr (.mode .rne) .whole o.sat }.putA o.a).putB o.b
def getVDot4 (r : Raw) : VDot4 := ⟨r.fn.getLsbD 0, r.sat, r.d, r.srcA, r.srcB⟩

def putVCvt (r : Raw) (o : VCvt) : Raw :=
  ({ r with d := o.d, fn := o.dst.code ++ o.src.code, mod := modAr o.rnd .whole o.sat }.putA o.a).imm
    ((o.ss ++ o.ds).setWidth 32)
def getVCvt (r : Raw) : VCvt :=
  ⟨tyOf r.fnHi, tyOf r.fnLo, r.rnd, r.sat, r.d, r.srcA, r.immU.extractLsb' 0 3, r.immU.extractLsb' 3 3⟩

def putVLd (r : Raw) (o : VLd) : Raw :=
  ({ r with d := o.d, fn := fnMem o.ord o.sp o.z }.putAddr o.sx o.scope o.addr).imm o.off
def getVLd (r : Raw) : VLd := ⟨r.z, r.sp, r.ord, r.scope, r.mod.getLsbD 3, r.d, r.addr, r.immS⟩

def putVSt (r : Raw) (o : VSt) : Raw :=
  ({ r with d := o.d, fn := fnMem o.ord o.sp o.z }.putAddr false o.scope o.addr).imm o.off
def getVSt (r : Raw) : VSt := ⟨r.z, r.sp, r.ord, r.scope, r.d, r.addr, r.immS⟩

def putSLd (r : Raw) (o : SLd) : Raw :=
  { r with d := fld o.d, a := fld o.a, fn := fnMem o.ord o.sp o.z,
           mod := modMem ((0#2) ++ BitVec.ofBool o.sx) o.scope }.imm o.off
def getSLd (r : Raw) : SLd := ⟨r.z, r.sp, r.ord, r.scope, r.mod.getLsbD 3, regS r.d, regS r.a, r.immS⟩

def putSSt (r : Raw) (o : SSt) : Raw :=
  { r with d := fld o.d, a := fld o.a, fn := fnMem o.ord o.sp o.z, mod := modMem 0 o.scope }.imm o.off
def getSSt (r : Raw) : SSt := ⟨r.z, r.sp, r.ord, r.scope, regS r.d, regS r.a, r.immS⟩

/-- The long form holds the kind in IMM12 beside the offset in IMM32; the short form is a signed add (06 R159). -/
def putAtom (r : Raw) (op : AtomOp) (scope : Scope) (off : W32) : Raw :=
  if r.h.long then { r with imm32 := off, imm12 := op.code.2.setWidth 12, mod := modMem op.code.1 scope }
  else { r with imm12 := off.setWidth 12 }
def Raw.atom (r : Raw) : AtomOp := if r.h.long then atomOf r.sel (r.imm12.setWidth 2) else .add

def putVAtom (r : Raw) (o : VAtom) : Raw :=
  putAtom { r with d := o.d, a := o.a, b := o.b, fn := fnMem o.ord o.sp o.z } o.op o.scope o.off
def getVAtom (r : Raw) : VAtom := ⟨r.atom, r.z, r.sp, r.ord, r.scope, r.d, r.a, r.immS, r.b⟩

def putSAtom (r : Raw) (o : SAtom) : Raw :=
  putAtom { r with d := fld o.d, a := fld o.a, b := fld o.b, fn := fnMem o.ord o.sp o.z } o.op o.scope o.off
def getSAtom (r : Raw) : SAtom := ⟨r.atom, r.z, r.sp, r.ord, r.scope, regS r.d, regS r.a, r.immS, regS r.b⟩

def putVCas (r : Raw) (o : VCas) : Raw :=
  { r with d := o.d, a := o.a, b := o.b, c := o.c, fn := fnMem o.ord o.sp o.z, mod := modMem 0 o.scope }.imm o.off
def getVCas (r : Raw) : VCas := ⟨r.z, r.sp, r.ord, r.scope, r.d, r.a, r.immS, r.b, r.c⟩

def putSCas (r : Raw) (o : SCas) : Raw :=
  { r with d := fld o.d, a := fld o.a, b := fld o.b, c := fld o.c, fn := fnMem o.ord o.sp o.z,
           mod := modMem 0 o.scope }.imm o.off
def getSCas (r : Raw) : SCas := ⟨r.z, r.sp, r.ord, r.scope, regS r.d, regS r.a, r.immS, regS r.b, regS r.c⟩

def putVPrefetch (r : Raw) (o : VPrefetch) : Raw :=
  ({ r with fn := fnMem .rlx .g o.z }.putAddr o.l2 .path o.addr).imm o.off
def getVPrefetch (r : Raw) : VPrefetch := ⟨r.mod.getLsbD 3, r.z, r.addr, r.immS⟩

def putFence (r : Raw) (o : Fence) : Raw :=
  { r with mod := modMem 0 o.scope, imm32 := ((0#17) ++ o.succ ++ (0#1) ++ o.pred) }
def getFence (r : Raw) : Fence := ⟨r.scope, r.imm32.extractLsb' 0 7, r.imm32.extractLsb' 8 7⟩

def putWaitA (r : Raw) (o : WaitA) : Raw :=
  { r with d := fld o.d, a := fld o.a, b := fld o.b, fn := fnMem o.ord o.sp o.z, mod := modMem 0 o.scope }.imm o.off
def getWaitA (r : Raw) : WaitA := ⟨r.z, r.sp, r.ord, r.scope, regS r.d, regS r.a, r.immS, regS r.b⟩

def putVIdx (r : Raw) (o : VIdx) : Raw :=
  { r with d := o.d, a := fld o.x, fn := o.step.code.setWidth 8 }.imm (o.off.setWidth 32)
def getVIdx (r : Raw) : VIdx := ⟨xstepOf (r.fn.extractLsb' 0 2), r.d, regX r.a, r.immU.setWidth 8⟩

def putXSet (r : Raw) : XSet → Raw
  | .reg d a => { r with d := fld d, a := a, fn := 0 }
  | .imm d v => { r with d := fld d, fn := 1 }.imm (v.setWidth 32)
  | .get d a => { r with d := d, a := fld a, fn := 2 }
def getXSet (r : Raw) : XSet :=
  match (r.fn.extractLsb' 0 2).toNat with
  | 1 => .imm (regX r.d) (r.immU.setWidth 24)
  | 2 => .get r.d (regX r.a)
  | _ => .reg (regX r.d) r.a

def putSpillFill (r : Raw) (o : SpillFill) : Raw :=
  { r with d := o.d, fn := (0#3) ++ BitVec.ofBool o.adj ++ o.nm1 }.imm o.off
def getSpillFill (r : Raw) : SpillFill := ⟨r.fn.getLsbD 4, r.d, r.fnLo, r.immS⟩

def putMma (r : Raw) (o : Mma) : Raw :=
  match o.t with
  | .fp4 c hi => { r with d := fld o.d, a := o.a, b := o.b, fn := 5, c := c, imm32 := if hi then 2 else 0 }
  | t => { r with d := fld o.d, a := o.a, b := o.b, fn := t.code }
def getMma (r : Raw) : Mma :=
  { d := regT r.d, a := r.a, b := r.b,
    t :=
      match r.fnLo.toNat with
      | 1 => .f16
      | 2 => .bf16
      | 3 => .fp8 false (if r.fnHi == 0 then none else some (r.fnHi == 4))
      | 4 => .fp8 true (if r.fnHi == 0 then none else some (r.fnHi == 4))
      | 5 => .fp4 r.c (r.imm32.getLsbD 1)
      | _ => .int8 }

def putTD (r : Raw) (t : TReg) : Raw := { r with d := fld t }
def getTD (r : Raw) : TReg := regT r.d

def putMMov (r : Raw) (o : MMove) : Raw := { r with d := o.v, a := fld o.t, fn := o.rows.code ++ (0#4) }
def getMMov (r : Raw) : MMove := ⟨rowsOf r.fnHi, r.d, regT r.a⟩

def putMLoad (r : Raw) (o : MMove) : Raw := { r with d := fld o.t, a := o.v, fn := o.rows.code ++ (0#4) }
def getMLoad (r : Raw) : MMove := ⟨rowsOf r.fnHi, r.a, regT r.d⟩

def putMMem (r : Raw) (o : MMem) : Raw :=
  ({ r with d := fld o.t, a := fld o.a, b := fld o.b, fn := (0#1) ++ o.sp.code ++ (0#4) }.putBar o.bar).imm o.off
def getMMem (r : Raw) : MMem := ⟨espaceOf (r.fn.extractLsb' 4 3), regT r.d, regS r.a, r.immS, regS r.b, r.bar⟩

def putDMem (r : Raw) (o : DMem) : Raw :=
  { r with d := fld o.d, a := fld o.a, fn := (0#2) ++ o.sp.code ++ (0#3) }.imm o.off
def getDMem (r : Raw) : DMem := ⟨espaceOf (r.fn.extractLsb' 3 3), regT r.d, regS r.a, r.immS⟩

def putDSet (r : Raw) (o : DSet) : Raw := { r with d := fld o.d, fn := fnScalar o.b.isImm o.f.code }.immSB o.b
def getDSet (r : Raw) : DSet := ⟨dfieldOf r.fnLo, regT r.d, r.sb⟩

def putTCopy (r : Raw) (o : TCopy) : Raw :=
  ({ r with d := fld o.d, a := fld o.a, b := fld o.b, fn := (0#5) ++ o.dir.code }.putBar o.bar).imm (o.tag.setWidth 32)
def getTCopy (r : Raw) : TCopy :=
  ⟨cdirOf (r.fn.extractLsb' 0 3), regT r.d, regS r.a, regS r.b, r.bar, r.immU.setWidth 16⟩

def putTStat (r : Raw) (o : TStat) : Raw := { r with d := fld o.d, a := fld o.a }
def getTStat (r : Raw) : TStat := ⟨regS r.d, regT r.a⟩

def putDD (r : Raw) (d : DReg) : Raw := { r with d := fld d }
def getDD (r : Raw) : DReg := regT r.d

def Bar.fld : Bar → W8
  | .team n => n.setWidth 8
  | .cluster n => n.setWidth 8
def Bar.isCluster : Bar → Bool
  | .team _ => false
  | .cluster _ => true
def Raw.barD (r : Raw) : Bar := if r.fn.getLsbD 0 then .cluster (regX r.d) else .team (regK r.d)

def putBInit (r : Raw) (o : BInit) : Raw :=
  match o.n with
  | .reg a => { r with d := o.bar.fld, a := fld a, fn := fnScalar false ((0#3) ++ BitVec.ofBool o.bar.isCluster) }
  | .imm n => { r with d := o.bar.fld, fn := fnScalar true ((0#3) ++ BitVec.ofBool o.bar.isCluster) }.imm (n.setWidth 32)
def getBInit (r : Raw) : BInit := ⟨r.barD, if r.fn.getLsbD 7 then .imm (r.immU.setWidth 16) else .reg (regS r.a)⟩

def putBArr (r : Raw) (o : BArr) : Raw := { r with d := fld o.d, a := fld o.bar }.imm (o.n.setWidth 32)
def getBArr (r : Raw) : BArr := ⟨regS r.d, regK r.a, r.immU.setWidth 16⟩

def putCBArr (r : Raw) (o : CBArr) : Raw := { r with d := fld o.d, a := fld o.bar }.imm (o.n.setWidth 32)
def getCBArr (r : Raw) : CBArr := ⟨regS r.d, regX r.a, r.immU.setWidth 16⟩

def putBTry (r : Raw) (o : BTry) : Raw := { r with d := fld o.d, a := fld o.bar, b := fld o.b }
def getBTry (r : Raw) : BTry := ⟨regK r.d, regK r.a, regS r.b⟩

def putCBTry (r : Raw) (o : CBTry) : Raw := { r with d := fld o.d, a := fld o.bar, b := fld o.b }
def getCBTry (r : Raw) : CBTry := ⟨regK r.d, regX r.a, regS r.b⟩

def putBInval (r : Raw) (b : Bar) : Raw := { r with d := b.fld, fn := (0#7) ++ BitVec.ofBool b.isCluster }
def getBInval (r : Raw) : Bar := r.barD

def putTrav (r : Raw) (o : Trav) : Raw := { r with d := o.d, a := o.a, b := o.b }
def getTrav (r : Raw) : Trav := ⟨r.d, r.a, r.b⟩

def putPairs (r : Raw) (o : Pairs) : Raw :=
  { r with d := fld o.d, a := fld o.a, b := fld o.b, fn := (0#2) ++ o.kp ++ o.q }
def getPairs (r : Raw) : Pairs := ⟨r.fn.extractLsb' 2 4, regS r.a, regS r.b, regS r.d, r.fn.extractLsb' 0 2⟩

def putTex (r : Raw) (o : Tex) : Raw :=
  { r with d := o.d, a := o.a, b := fld o.b, fn := (0#6) ++ BitVec.ofBool o.wrap ++ BitVec.ofBool o.lin }
def getTex (r : Raw) : Tex := ⟨r.fn.getLsbD 0, r.fn.getLsbD 1, r.d, r.a, regT r.b⟩

def putQEnq (r : Raw) (o : QEnq) : Raw := { r with d := o.d, a := fld o.q, fn := fld o.kp }
def getQEnq (r : Raw) : QEnq := ⟨r.fnLo, regX r.a, r.d⟩

def putQDeq (r : Raw) (o : QDeq) : Raw := { r with d := o.d, a := fld o.q, fn := o.ke ++ o.kp }
def getQDeq (r : Raw) : QDeq := ⟨r.fnLo, r.fnHi, r.d, regX r.a⟩

def putQA (r : Raw) (q : QReg) : Raw := { r with a := fld q }
def getQA (r : Raw) : QReg := regX r.a

def putRwq (r : Raw) (o : Rwq) : Raw := { r with d := o.d, a := fld o.q, b := fld o.b, fn := fld o.kp }
def getRwq (r : Raw) : Rwq := ⟨r.fnLo, regX r.a, r.d, regS r.b⟩

def putLaunch (r : Raw) (o : Launch) : Raw := { r with d := o.d, a := o.a, fn := fld o.kp }
def getLaunch (r : Raw) : Launch := ⟨r.fnLo, r.d, r.a⟩

def putLWait (r : Raw) (o : LWait) : Raw := { r with d := o.d, a := o.a }
def getLWait (r : Raw) : LWait := ⟨r.d, r.a⟩

def putTrapN (r : Raw) (n : W8) : Raw := { r with imm12 := n.setWidth 12 }
def getTrapN (r : Raw) : W8 := r.imm12.setWidth 8

def putBrkN (r : Raw) (n : BitVec 12) : Raw := { r with imm12 := n }
def getBrkN (r : Raw) : BitVec 12 := r.imm12

def putFlag (r : Raw) (f : Bool) : Raw := { r with fn := (0#7) ++ BitVec.ofBool f }
def getFlag (r : Raw) : Bool := r.fn.getLsbD 0

def putGrowN (r : Raw) (n : BitVec 4) : Raw := { r with imm12 := n.setWidth 12 }
def getGrowN (r : Raw) : BitVec 4 := r.imm12.setWidth 4

/-- The control register a number names for a scalar operand; a reserved number reads as GID, whose number differs. -/
def crNameOf (n : BitVec 12) : CrName :=
  if n.extractLsb' 8 4 == 1 then .ctr (n.setWidth 8) else
  match n.toNat with
  | 1 => .teamid | 2 => .clid | 3 => .gridid | 4 => .core | 5 => .vfid | 6 => .pathix | 7 => .pmask | 8 => .gctl
  | 9 => .vwin | 10 => .smask | 11 => .fcause | 12 => .fpc | 15 => .srate | 16 => .stripid | 17 => .deadln
  | _ => .gid

def putCrd (r : Raw) : Crd → Raw
  | .scalar n d => { r with d := fld d, imm12 := n.code }
  | .faddr d => { r with d := d, imm12 := 13 }
  | .rngs d => { r with d := d, imm12 := 14 }
def getCrd (r : Raw) : Crd :=
  if r.imm12 == 13 then .faddr r.d else if r.imm12 == 14 then .rngs r.d else .scalar (crNameOf r.imm12) (regS r.d)

def cwNameOf (n : BitVec 12) : CwName :=
  match n.toNat with
  | 10 => .smask | 11 => .fcause | 12 => .fpc
  | _ => .gctl

def putCwr (r : Raw) : Cwr → Raw
  | .scalar n a => { r with a := fld a, imm12 := n.code }
  | .faddr a => { r with a := a, imm12 := 13 }
  | .rngs a => { r with a := a, imm12 := 14 }
def getCwr (r : Raw) : Cwr :=
  if r.imm12 == 13 then .faddr r.a else if r.imm12 == 14 then .rngs r.a else .scalar (cwNameOf r.imm12) (regS r.a)

def putClock (r : Raw) (o : Clock) : Raw := { r with d := fld o.d, fn := (0#7) ++ BitVec.ofBool o.frac }
def getClock (r : Raw) : Clock := ⟨r.fn.getLsbD 0, regS r.d⟩

def putPgMap (r : Raw) (o : PgMap) : Raw :=
  { r with d := fld o.d, a := fld o.a, b := fld o.b, fn := (0#6) ++ o.z.code }
def getPgMap (r : Raw) : PgMap := ⟨psizeOf (r.fn.extractLsb' 0 2), regS r.d, regS r.a, regS r.b⟩

def putTlbInv (r : Raw) : Option SReg → Raw
  | none => { r with fn := 1 }
  | some a => { r with a := fld a }
def getTlbInv (r : Raw) : Option SReg := if r.fn.getLsbD 0 then none else some (regS r.a)

def putShEv (r : Raw) (o : ShEv) : Raw := { r with a := fld o.a, b := fld o.b }
def getShEv (r : Raw) : ShEv := ⟨regS r.a, regS r.b⟩

/-! ### Opcodes -/

/-- Reads the operands of the instruction an opcode names (R67); `none` for a reserved opcode. -/
def parse (r : Raw) : Option Instr :=
  match r.op.toNat with
  | 0x01 => some (.sadd r.h (getSSat r))
  | 0x02 => some (.saddi r.h (getSAddI r))
  | 0x03 => some (.ssub r.h (getSSat r))
  | 0x04 => some (.smul r.h (getSBin r))
  | 0x05 => some (.smulh r.h (getSBin r))
  | 0x06 => some (.sand r.h (getSBin r))
  | 0x07 => some (.sor r.h (getSBin r))
  | 0x08 => some (.sxor r.h (getSBin r))
  | 0x09 => some (.sshl r.h (getSShift r))
  | 0x0A => some (.sshr r.h (getSShift r))
  | 0x0B => some (.ssra r.h (getSShift r))
  | 0x0C => some (.smin r.h (getSBin r))
  | 0x0D => some (.smax r.h (getSBin r))
  | 0x0E => some (.sminu r.h (getSBin r))
  | 0x0F => some (.smaxu r.h (getSBin r))
  | 0x10 => some (.sclz r.h (getSUn r))
  | 0x11 => some (.spopc r.h (getSUn r))
  | 0x12 => some (.sbfx r.h (getSBits r))
  | 0x13 => some (.sbfi r.h (getSBits r))
  | 0x14 => some (.ssel r.h (getSBin r))
  | 0x15 => some (.scmp r.h (getSCmp r))
  | 0x16 => some (.sli r.h (getSImm r))
  | 0x17 => some (.slih r.h (getSImm r))
  | 0x18 => some (.smov r.h (getSMov r))
  | 0x19 => some (.sfadd r.h (getSFp r))
  | 0x1A => some (.sfmul r.h (getSFp r))
  | 0x1B => some (.sfma r.h (getSFma r))
  | 0x1C => some (.sfcmp r.h (getSFCmp r))
  | 0x1D => some (.sfcvt r.h (getSFCvt r))
  | 0x20 => some (.bru r.h (getToff r))
  | 0x21 => some (.br r.h (getBr r))
  | 0x22 => some (.brx r.h (getBrx r))
  | 0x23 => some (.jmp r.h (getToff r))
  | 0x24 => some (.jmpr r.h (getSA r))
  | 0x25 => some (.jmpv r.h (getVA r))
  | 0x26 => some (.call r.h (getToff r))
  | 0x27 => some (.callr r.h (getSA r))
  | 0x28 => some (.ret r.h)
  | 0x29 => some (.rcv r.h)
  | 0x2A => some (.sloop r.h (getSLoop r))
  | 0x2B => some (.exit r.h)
  | 0x2C =>
    match r.fnLo.toNat with
    | 1 => some (.kor r.h (getKBin r))
    | 2 => some (.kxor r.h (getKBin r))
    | 3 => some (.knot r.h (getKUn r))
    | 4 => some (.kmov r.h (getKUn r))
    | _ => some (.kand r.h (getKBin r))
  | 0x2D =>
    match r.fnLo.toNat with
    | 1 => some (.kall r.h (getKRed r))
    | 2 => some (.kcount r.h (getKRed r))
    | _ => some (.kany r.h (getKRed r))
  | 0x2E =>
    match r.fnLo.toNat with
    | 1 => some (.kget r.h (getKRed r))
    | _ => some (.kset r.h (getKSet r))
  | 0x30 => some (.sld r.h (getSLd r))
  | 0x31 => some (.sst r.h (getSSt r))
  | 0x32 => some (.satom r.h (getSAtom r))
  | 0x33 => some (.scas r.h (getSCas r))
  | 0x40 => some (.vadd r.h (getVArith r))
  | 0x41 => some (.vsub r.h (getVArith r))
  | 0x42 => some (.vmul r.h (getVArith r))
  | 0x43 => some (.vmulh r.h (getVUns r))
  | 0x44 => some (.vmad r.h (getVMad r))
  | 0x45 => some (.vaddw r.h (getVWide r))
  | 0x46 => some (.vmulw r.h (getVWide r))
  | 0x47 => some (.vand r.h (getVLogic r))
  | 0x48 => some (.vor r.h (getVLogic r))
  | 0x49 => some (.vxor r.h (getVLogic r))
  | 0x4A => some (.vshl r.h (getVShift r))
  | 0x4B => some (.vshr r.h (getVShift r))
  | 0x4C => some (.vsra r.h (getVShift r))
  | 0x4D => some (.vmin r.h (getVUns r))
  | 0x4E => some (.vmax r.h (getVUns r))
  | 0x4F => some (.vabs r.h (getVAbs r))
  | 0x50 => some (.vneg r.h (getVAbs r))
  | 0x51 => some (.vclz r.h (getVCount r))
  | 0x52 => some (.vpopc r.h (getVCount r))
  | 0x53 => some (.vbrev r.h (getVCount r))
  | 0x54 => some (.vbfx r.h (getVBfx r))
  | 0x55 => some (.vbfi r.h (getVBfi r))
  | 0x56 => some (.vsel r.h (getVElem r))
  | 0x57 => some (.vcmp r.h (getVCmp r))
  | 0x58 => some (.vmov r.h (getVMov r))
  | 0x59 => some (.vli r.h (getVLi r))
  | 0x5A => some (.vlane r.h (getVD r))
  | 0x5B => some (.vbcast r.h (getVBcast r))
  | 0x5C => some (.vtos r.h (getVToS r))
  | 0x5D => some (.vperm r.h (getVPerm r))
  | 0x5E => some (.vred r.h (getVRed r))
  | 0x5F => some (.vscan r.h (getVRed r))
  | 0x60 => some (.vfadd r.h (getVFp r))
  | 0x61 => some (.vfsub r.h (getVFp r))
  | 0x62 => some (.vfmul r.h (getVFp r))
  | 0x63 => some (.vfma r.h (getVFma r))
  | 0x64 => some (.vfmin r.h (getVBin r))
  | 0x65 => some (.vfmax r.h (getVBin r))
  | 0x66 => some (.vfcmp r.h (getVFCmp r))
  | 0x67 => some (.vfrcp r.h (getVUn r))
  | 0x68 => some (.vfrsq r.h (getVUn r))
  | 0x69 => some (.vfsqrt r.h (getVUn r))
  | 0x6A => some (.vfexp2 r.h (getVUn r))
  | 0x6B => some (.vflog2 r.h (getVUn r))
  | 0x6C => some (.vfsin r.h (getVUn r))
  | 0x6D => some (.vfcos r.h (getVUn r))
  | 0x6E => some (.vfrnd r.h (getVFRnd r))
  | 0x6F => some (.vfclass r.h (getVUn r))
  | 0x70 => some (.vhadd r.h (getVHalf r))
  | 0x71 => some (.vhmul r.h (getVHalf r))
  | 0x72 => some (.vhfma r.h (getVHFma r))
  | 0x73 => some (.vdot2 r.h (getVDot2 r))
  | 0x74 => some (.vdot4 r.h (getVDot4 r))
  | 0x75 => some (.vcvt r.h (getVCvt r))
  | 0x80 => some (.vld r.h (getVLd r))
  | 0x81 => some (.vst r.h (getVSt r))
  | 0x82 => some (.vatom r.h (getVAtom r))
  | 0x83 => some (.vcas r.h (getVCas r))
  | 0x84 => some (.vprefetch r.h (getVPrefetch r))
  | 0x85 => some (.fence r.h (getFence r))
  | 0x86 => some (.waita r.h (getWaitA r))
  | 0x87 => some (.vrdx r.h (getVIdx r))
  | 0x88 => some (.vwrx r.h (getVIdx r))
  | 0x89 => some (.xset r.h (getXSet r))
  | 0x8A => some (.spill r.h (getSpillFill r))
  | 0x8B => some (.fill r.h (getSpillFill r))
  | 0xA0 => some (.mma r.h (getMma r))
  | 0xA1 => some (.mzero r.h (getTD r))
  | 0xA2 => some (.mmov r.h (getMMov r))
  | 0xA3 => some (.mload r.h (getMLoad r))
  | 0xA4 => some (.mst r.h (getMMem r))
  | 0xA5 => some (.mld r.h (getMMem r))
  | 0xB0 => some (.dld r.h (getDMem r))
  | 0xB1 => some (.dst r.h (getDMem r))
  | 0xB2 => some (.dset r.h (getDSet r))
  | 0xB3 => some (.tcopy r.h (getTCopy r))
  | 0xB4 => some (.tstat r.h (getTStat r))
  | 0xB5 => some (.tresume r.h (getDD r))
  | 0xB6 => some (.binit r.h (getBInit r))
  | 0xB7 => some (.barr r.h (getBArr r))
  | 0xB8 => some (.btry r.h (getBTry r))
  | 0xB9 => some (.binval r.h (getBInval r))
  | 0xBA => some (.cbarr r.h (getCBArr r))
  | 0xBB => some (.cbtry r.h (getCBTry r))
  | 0xC0 => some (.rbox4 r.h (getTrav r))
  | 0xC1 => some (.rtri r.h (getTrav r))
  | 0xC2 => some (.pairs r.h (getPairs r))
  | 0xC3 => some (.tex r.h (getTex r))
  | 0xC4 => some (.cover r.h (getTrav r))
  | 0xC5 => some (.scommit r.h (getSUn r))
  | 0xC8 => some (.qenq r.h (getQEnq r))
  | 0xC9 => some (.qdeq r.h (getQDeq r))
  | 0xCA => some (.qsteal r.h (getQDeq r))
  | 0xCB => some (.qeos r.h (getQA r))
  | 0xCC => some (.rwq r.h (getRwq r))
  | 0xCD => some (.launch r.h (getLaunch r))
  | 0xCE => some (.lwait r.h (getLWait r))
  | 0xD0 => some (.trap r.h (getTrapN r))
  | 0xD1 => some (.brk r.h (getBrkN r))
  | 0xD2 => some (.fret r.h (getFlag r))
  | 0xD3 => some (.sret r.h)
  | 0xD4 => some (.crd r.h (getCrd r))
  | 0xD5 => some (.cwr r.h (getCwr r))
  | 0xD6 => some (.vgrow r.h (getGrowN r))
  | 0xD7 => some (.vshrink r.h (getGrowN r))
  | 0xD8 => some (.yield r.h)
  | 0xD9 => some (.clock r.h (getClock r))
  | 0xDA => some (.tstamp r.h (getSA r))
  | 0xDB => some (.pgmap r.h (getPgMap r))
  | 0xDC => some (.tlbinv r.h (getTlbInv r))
  | 0xDD => some (.shev r.h (getShEv r))
  | 0xDE => some (.halt r.h (getFlag r))
  | _ => none

/-- The fields an instruction's entry lays out. -/
def emit : Instr → Option Raw
  | .sadd h o => some (putSSat { h := h, op := 0x01 } o)
  | .saddi h o => some (putSAddI { h := h, op := 0x02 } o)
  | .ssub h o => some (putSSat { h := h, op := 0x03 } o)
  | .smul h o => some (putSBin { h := h, op := 0x04 } o)
  | .smulh h o => some (putSBin { h := h, op := 0x05 } o)
  | .sand h o => some (putSBin { h := h, op := 0x06 } o)
  | .sor h o => some (putSBin { h := h, op := 0x07 } o)
  | .sxor h o => some (putSBin { h := h, op := 0x08 } o)
  | .sshl h o => some (putSShift { h := h, op := 0x09 } o)
  | .sshr h o => some (putSShift { h := h, op := 0x0A } o)
  | .ssra h o => some (putSShift { h := h, op := 0x0B } o)
  | .smin h o => some (putSBin { h := h, op := 0x0C } o)
  | .smax h o => some (putSBin { h := h, op := 0x0D } o)
  | .sminu h o => some (putSBin { h := h, op := 0x0E } o)
  | .smaxu h o => some (putSBin { h := h, op := 0x0F } o)
  | .sclz h o => some (putSUn { h := h, op := 0x10 } o)
  | .spopc h o => some (putSUn { h := h, op := 0x11 } o)
  | .sbfx h o => some (putSBits { h := h, op := 0x12 } o)
  | .sbfi h o => some (putSBits { h := h, op := 0x13 } o)
  | .ssel h o => some (putSBin { h := h, op := 0x14 } o)
  | .scmp h o => some (putSCmp { h := h, op := 0x15 } o)
  | .sli h o => some (putSImm { h := h, op := 0x16 } o)
  | .slih h o => some (putSImm { h := h, op := 0x17 } o)
  | .smov h o => some (putSMov { h := h, op := 0x18 } o)
  | .sfadd h o => some (putSFp { h := h, op := 0x19 } o)
  | .sfmul h o => some (putSFp { h := h, op := 0x1A } o)
  | .sfma h o => some (putSFma { h := h, op := 0x1B } o)
  | .sfcmp h o => some (putSFCmp { h := h, op := 0x1C } o)
  | .sfcvt h o => some (putSFCvt { h := h, op := 0x1D } o)
  | .bru h o => some (putToff { h := h, op := 0x20 } o)
  | .br h o => some (putBr { h := h, op := 0x21 } o)
  | .brx h o => some (putBrx { h := h, op := 0x22 } o)
  | .jmp h o => some (putToff { h := h, op := 0x23 } o)
  | .jmpr h o => some (putSA { h := h, op := 0x24 } o)
  | .jmpv h o => some (putVA { h := h, op := 0x25 } o)
  | .call h o => some (putToff { h := h, op := 0x26 } o)
  | .callr h o => some (putSA { h := h, op := 0x27 } o)
  | .ret h => some { h := h, op := 0x28 }
  | .rcv h => some { h := h, op := 0x29 }
  | .sloop h o => some (putSLoop { h := h, op := 0x2A } o)
  | .exit h => some { h := h, op := 0x2B }
  | .kand h o => some (putKBin { h := h, op := 0x2C } o)
  | .kor h o => some (putKBin { h := h, op := 0x2C, fn := 1 } o)
  | .kxor h o => some (putKBin { h := h, op := 0x2C, fn := 2 } o)
  | .knot h o => some (putKUn { h := h, op := 0x2C, fn := 3 } o)
  | .kmov h o => some (putKUn { h := h, op := 0x2C, fn := 4 } o)
  | .kany h o => some (putKRed { h := h, op := 0x2D } o)
  | .kall h o => some (putKRed { h := h, op := 0x2D, fn := 1 } o)
  | .kcount h o => some (putKRed { h := h, op := 0x2D, fn := 2 } o)
  | .kset h o => some (putKSet { h := h, op := 0x2E } o)
  | .kget h o => some (putKRed { h := h, op := 0x2E, fn := 1 } o)
  | .sld h o => some (putSLd { h := h, op := 0x30 } o)
  | .sst h o => some (putSSt { h := h, op := 0x31 } o)
  | .satom h o => some (putSAtom { h := h, op := 0x32 } o)
  | .scas h o => some (putSCas { h := h, op := 0x33 } o)
  | .vadd h o => some (putVArith { h := h, op := 0x40 } o)
  | .vsub h o => some (putVArith { h := h, op := 0x41 } o)
  | .vmul h o => some (putVArith { h := h, op := 0x42 } o)
  | .vmulh h o => some (putVUns { h := h, op := 0x43 } o)
  | .vmad h o => some (putVMad { h := h, op := 0x44 } o)
  | .vaddw h o => some (putVWide { h := h, op := 0x45 } o)
  | .vmulw h o => some (putVWide { h := h, op := 0x46 } o)
  | .vand h o => some (putVLogic { h := h, op := 0x47 } o)
  | .vor h o => some (putVLogic { h := h, op := 0x48 } o)
  | .vxor h o => some (putVLogic { h := h, op := 0x49 } o)
  | .vshl h o => some (putVShift { h := h, op := 0x4A } o)
  | .vshr h o => some (putVShift { h := h, op := 0x4B } o)
  | .vsra h o => some (putVShift { h := h, op := 0x4C } o)
  | .vmin h o => some (putVUns { h := h, op := 0x4D } o)
  | .vmax h o => some (putVUns { h := h, op := 0x4E } o)
  | .vabs h o => some (putVAbs { h := h, op := 0x4F } o)
  | .vneg h o => some (putVAbs { h := h, op := 0x50 } o)
  | .vclz h o => some (putVCount { h := h, op := 0x51 } o)
  | .vpopc h o => some (putVCount { h := h, op := 0x52 } o)
  | .vbrev h o => some (putVCount { h := h, op := 0x53 } o)
  | .vbfx h o => some (putVBfx { h := h, op := 0x54 } o)
  | .vbfi h o => some (putVBfi { h := h, op := 0x55 } o)
  | .vsel h o => some (putVElem { h := h, op := 0x56 } o)
  | .vcmp h o => some (putVCmp { h := h, op := 0x57 } o)
  | .vmov h o => some (putVMov { h := h, op := 0x58 } o)
  | .vli h o => some (putVLi { h := h, op := 0x59 } o)
  | .vlane h o => some (putVD { h := h, op := 0x5A } o)
  | .vbcast h o => some (putVBcast { h := h, op := 0x5B } o)
  | .vtos h o => some (putVToS { h := h, op := 0x5C } o)
  | .vperm h o => some (putVPerm { h := h, op := 0x5D } o)
  | .vred h o => some (putVRed { h := h, op := 0x5E } o)
  | .vscan h o => some (putVRed { h := h, op := 0x5F } o)
  | .vfadd h o => some (putVFp { h := h, op := 0x60 } o)
  | .vfsub h o => some (putVFp { h := h, op := 0x61 } o)
  | .vfmul h o => some (putVFp { h := h, op := 0x62 } o)
  | .vfma h o => some (putVFma { h := h, op := 0x63 } o)
  | .vfmin h o => some (putVBin { h := h, op := 0x64 } o)
  | .vfmax h o => some (putVBin { h := h, op := 0x65 } o)
  | .vfcmp h o => some (putVFCmp { h := h, op := 0x66 } o)
  | .vfrcp h o => some (putVUn { h := h, op := 0x67 } o)
  | .vfrsq h o => some (putVUn { h := h, op := 0x68 } o)
  | .vfsqrt h o => some (putVUn { h := h, op := 0x69 } o)
  | .vfexp2 h o => some (putVUn { h := h, op := 0x6A } o)
  | .vflog2 h o => some (putVUn { h := h, op := 0x6B } o)
  | .vfsin h o => some (putVUn { h := h, op := 0x6C } o)
  | .vfcos h o => some (putVUn { h := h, op := 0x6D } o)
  | .vfrnd h o => some (putVFRnd { h := h, op := 0x6E } o)
  | .vfclass h o => some (putVUn { h := h, op := 0x6F } o)
  | .vhadd h o => some (putVHalf { h := h, op := 0x70 } o)
  | .vhmul h o => some (putVHalf { h := h, op := 0x71 } o)
  | .vhfma h o => some (putVHFma { h := h, op := 0x72 } o)
  | .vdot2 h o => some (putVDot2 { h := h, op := 0x73 } o)
  | .vdot4 h o => some (putVDot4 { h := h, op := 0x74 } o)
  | .vcvt h o => some (putVCvt { h := h, op := 0x75 } o)
  | .vld h o => some (putVLd { h := h, op := 0x80 } o)
  | .vst h o => some (putVSt { h := h, op := 0x81 } o)
  | .vatom h o => some (putVAtom { h := h, op := 0x82 } o)
  | .vcas h o => some (putVCas { h := h, op := 0x83 } o)
  | .vprefetch h o => some (putVPrefetch { h := h, op := 0x84 } o)
  | .fence h o => some (putFence { h := h, op := 0x85 } o)
  | .waita h o => some (putWaitA { h := h, op := 0x86 } o)
  | .waitaWake _ => none
  | .waitaTimeout _ => none
  | .vrdx h o => some (putVIdx { h := h, op := 0x87 } o)
  | .vwrx h o => some (putVIdx { h := h, op := 0x88 } o)
  | .xset h o => some (putXSet { h := h, op := 0x89 } o)
  | .spill h o => some (putSpillFill { h := h, op := 0x8A } o)
  | .fill h o => some (putSpillFill { h := h, op := 0x8B } o)
  | .loadLand _ _ => none
  | .mma h o => some (putMma { h := h, op := 0xA0 } o)
  | .mmaComplete _ _ => none
  | .mzero h o => some (putTD { h := h, op := 0xA1 } o)
  | .mmov h o => some (putMMov { h := h, op := 0xA2 } o)
  | .mload h o => some (putMLoad { h := h, op := 0xA3 } o)
  | .mst h o => some (putMMem { h := h, op := 0xA4 } o)
  | .mld h o => some (putMMem { h := h, op := 0xA5 } o)
  | .mstComplete _ _ => none
  | .mldComplete _ _ => none
  | .dld h o => some (putDMem { h := h, op := 0xB0 } o)
  | .dst h o => some (putDMem { h := h, op := 0xB1 } o)
  | .dset h o => some (putDSet { h := h, op := 0xB2 } o)
  | .tcopy h o => some (putTCopy { h := h, op := 0xB3 } o)
  | .tcopyTile _ _ => none
  | .tstat h o => some (putTStat { h := h, op := 0xB4 } o)
  | .tresume h o => some (putDD { h := h, op := 0xB5 } o)
  | .binit h o => some (putBInit { h := h, op := 0xB6 } o)
  | .barr h o => some (putBArr { h := h, op := 0xB7 } o)
  | .btry h o => some (putBTry { h := h, op := 0xB8 } o)
  | .btryWake _ => none
  | .btryTimeout _ => none
  | .binval h o => some (putBInval { h := h, op := 0xB9 } o)
  | .cbarr h o => some (putCBArr { h := h, op := 0xBA } o)
  | .cbtry h o => some (putCBTry { h := h, op := 0xBB } o)
  | .rbox4 h o => some (putTrav { h := h, op := 0xC0 } o)
  | .rtri h o => some (putTrav { h := h, op := 0xC1 } o)
  | .pairs h o => some (putPairs { h := h, op := 0xC2 } o)
  | .pairsStop _ => none
  | .tex h o => some (putTex { h := h, op := 0xC3 } o)
  | .cover h o => some (putTrav { h := h, op := 0xC4 } o)
  | .scommit h o => some (putSUn { h := h, op := 0xC5 } o)
  | .qenq h o => some (putQEnq { h := h, op := 0xC8 } o)
  | .qdeq h o => some (putQDeq { h := h, op := 0xC9 } o)
  | .qsteal h o => some (putQDeq { h := h, op := 0xCA } o)
  | .qeos h o => some (putQA { h := h, op := 0xCB } o)
  | .rwq h o => some (putRwq { h := h, op := 0xCC } o)
  | .launch h o => some (putLaunch { h := h, op := 0xCD } o)
  | .lwait h o => some (putLWait { h := h, op := 0xCE } o)
  | .lwaitWake _ => none
  | .trap h o => some (putTrapN { h := h, op := 0xD0 } o)
  | .brk h o => some (putBrkN { h := h, op := 0xD1 } o)
  | .fret h o => some (putFlag { h := h, op := 0xD2 } o)
  | .sret h => some { h := h, op := 0xD3 }
  | .crd h o => some (putCrd { h := h, op := 0xD4 } o)
  | .cwr h o => some (putCwr { h := h, op := 0xD5 } o)
  | .vgrow h o => some (putGrowN { h := h, op := 0xD6 } o)
  | .vgrowGrant _ => none
  | .vshrink h o => some (putGrowN { h := h, op := 0xD7 } o)
  | .yield h => some { h := h, op := 0xD8 }
  | .clock h o => some (putClock { h := h, op := 0xD9 } o)
  | .tstamp h o => some (putSA { h := h, op := 0xDA } o)
  | .pgmap h o => some (putPgMap { h := h, op := 0xDB } o)
  | .tlbinv h o => some (putTlbInv { h := h, op := 0xDC } o)
  | .shev h o => some (putShEv { h := h, op := 0xDD } o)
  | .halt h o => some (putFlag { h := h, op := 0xDE } o)
  | .slotFill _ => none
  | .deadlockBreak _ => none
  | .teamSave _ => none
  | .spwinExpiry _ => none
  | .clusterDispatch _ => none
  | .teamExit _ => none
  | .walkComplete _ => none
  | .migrationCommit _ => none
  | .ageSample _ => none
  | .remoteRequest _ => none
  | .fabricTimeout _ => none
  | .wqRecordTake _ => none
  | .startMsg _ _ _ => none
  | .abortMsg _ _ _ => none
  | .startTimeout _ => none
  | .chainStart _ _ => none
  | .droverMilestone _ _ => none
  | .chainMiss _ _ => none
  | .sliceEnd _ => none
  | .forcedStep _ => none
  | .killStep _ => none
  | .headScanout _ _ => none
  | .encodeStart _ _ => none
  | .tileRowPost _ _ => none
  | .eventPost _ => none
  | .tileClose _ _ => none
  | .pathSample _ _ => none
  | .traceRecordWrite _ => none
  | .traceRecordDrop _ => none
  | .shEventOffer _ => none
  | .shEvaluate _ => none
  | .shWindow _ => none
  | .shLdf _ _ => none
  | .shLdi _ _ => none
  | .shLdih _ _ => none
  | .shAdd _ _ _ => none
  | .shAddi _ _ _ => none
  | .shSub _ _ _ => none
  | .shAnd _ _ _ => none
  | .shOr _ _ _ => none
  | .shShl _ _ _ => none
  | .shShr _ _ _ => none
  | .shMin _ _ _ => none
  | .shCeq _ _ _ => none
  | .shCltu _ _ _ => none
  | .shBz _ _ => none
  | .shBnz _ _ => none
  | .shHash _ _ _ => none
  | .shHist _ _ => none
  | .shCms _ _ => none
  | .shTrig _ _ => none
  | .shDrop => none
  | .shEnd => none
  | .shattachWrite _ _ => none
  | .shSlotWrite _ => none
  | .crookHalt _ => none
  | .resume _ _ => none
  | .crookStep _ _ => none
  | .setbp _ _ _ => none
  | .setwp _ _ _ _ _ => none
  | .regread _ _ _ => none
  | .noticePost _ => none
  | .noticeRingWrite _ _ _ => none
  | .bwnsRead _ => none
  | .adj _ _ => none
  | .bwStep _ _ => none
  | .ptpMessage _ => none
  | .ptmRequest => none
  | .counterLoRead _ _ => none
  | .counterHiRead _ _ => none
  | .wqtail _ _ _ => none
  | .wqcfg _ _ _ => none
  | .hentry _ _ => none
  | .s1root _ _ => none
  | .evread _ _ => none
  | .fwtail _ => none
  | .regWrite _ => none
  | .identify _ _ => none
  | .negotiate _ _ _ _ _ => none
  | .patchLoad _ _ _ => none
  | .attest _ _ _ => none
  | .paddockSet _ _ _ => none
  | .paddockRegions _ _ _ => none
  | .lend _ _ _ => none
  | .reclaim _ _ => none
  | .s2root _ _ => none
  | .s2inv _ _ _ => none
  | .resumeWalks _ => none
  | .timers _ _ => none
  | .vfActivate _ _ _ _ => none
  | .vfDeactivate _ => none
  | .vfPool _ _ _ _ _ => none
  | .vfBacking _ _ _ => none
  | .vfBudget _ _ _ => none
  | .vfBoost _ _ => none
  | .vfEnd _ _ => none
  | .queueCreate _ _ _ _ => none
  | .queueDestroy _ _ => none
  | .queueSet _ _ _ _ => none
  | .wqBind _ _ _ => none
  | .migrate _ _ _ => none
  | .foldRing _ _ _ => none
  | .streamAdmit _ _ => none
  | .streamWithdraw _ _ => none
  | .headTiming _ _ _ => none
  | .sharedCreate _ _ _ => none
  | .sharedMap _ _ => none
  | .sharedUnmap _ _ => none
  | .sharedSeal _ _ => none
  | .domainForm _ _ _ => none
  | .hostCxlMemAccess _ _ _ => none
  | .hostSnoop _ _ => none
  | .patrolScrub _ => none
  | .powerOn => none
  | .pfReset => none
  | .vfReset _ => none
  | .freeze => none
  | .scanDump => none
  | .bellwetherTick => none
  | .issueSelection _ => none
  | .remoteResponse _ _ => none

/-! ### The checks of R69 -/

/-- Why an encoding is refused: the checks of R69. -/
inductive DecodeErr where
  | length | opcode | form | fn | lookahead | field | perm | live | shape
  deriving DecidableEq, Repr

/-- The number of a check, the encoding detail of the fault record. -/
def DecodeErr.detail : DecodeErr → W8
  | .length => 1 | .opcode => 2 | .form => 3 | .fn => 4 | .lookahead => 5 | .field => 6 | .perm => 7 | .live => 8
  | .shape => 9

/-- The system instructions (08 R221). -/
def isSystemOp (op : W8) : Bool := decide (0xD0 ≤ op.toNat) && decide (op.toNat ≤ 0xDE)

/-- The bits of FN that check 4 is about. The I bit of the scalar integer class belongs to check 6 (04 R105), and so do the bits that a
system instruction does not use: DEDUCED, 08 R221 gives a nonzero unused field detail 6, where R66 and R69 could be read as detail 4 (log entry
40). -/
def fnMask (op : W8) : W8 :=
  if decide (1 ≤ op.toNat) && decide (op.toNat ≤ 0x18) then 0x7F
  else if op = 0xD2 ∨ op = 0xD9 ∨ op = 0xDC ∨ op = 0xDE then 1
  else if op = 0xDB then 3
  else if isSystemOp op then 0
  else 0xFF

/-- Word 1 of a control-flow instruction follows R55 and has no permutation fields (04 R110), and a system instruction uses none (08 R221). -/
def noPerms (op : W8) : Bool := (decide (0x20 ≤ op.toNat) && decide (op.toNat ≤ 0x2B)) || isSystemOp op

/-- The FN bits that the opcode uses; of the others, which are a field, the check is number 6: a reading of R221 and R66 (log entry 40). -/
def fnSame (r e : Raw) : Bool := r.fn &&& fnMask r.op == e.fn &&& fnMask r.op

def permSame (r e : Raw) : Bool := r.pa == e.pa && r.pb == e.pb && r.pcc == e.pcc

def fldSame (r e : Raw) : Bool :=
  r.fn &&& ~~~(fnMask r.op) == e.fn &&& ~~~(fnMask r.op) && r.d == e.d && r.a == e.a && r.b == e.b && r.c == e.c &&
    r.imm12 == e.imm12 && r.mod == e.mod && r.imm32 == e.imm32 && (!noPerms r.op || permSame r e)

/-- Checks 3 to 9 on fields `r` read as `i`, laid out as `e`, under the conditions `f`. -/
def checkFields (r e : Raw) (f : Info) (i : Instr) : Except DecodeErr Instr :=
  if !f.form.admits r.h.long then .error .form
  else if !(fnSame r e && f.chk.fn) then .error .fn
  else if !(f.la || r.h.la == 0) then .error .lookahead
  else if !(fldSame r e && f.chk.fld && (f.pred || (r.h.pk == 0 && !r.h.pn))) then .error .field
  else if !(noPerms r.op || permSame r e) then .error .perm
  else if !liveOk r.h.live then .error .live
  else if !f.chk.shp then .error .shape
  else .ok i

/-- Checks 2 to 9. -/
def decodeRaw (r : Raw) : Except DecodeErr Instr :=
  match parse r with
  | none => .error .opcode
  | some i =>
    match emit i, info i with
    | some e, some f => checkFields r e f i
    | _, _ => .error .opcode

/-- Decodes word 0, word 1 (read only in the long form) and the live-mask word (read only with SP). -/
def decodeWords (w0 w1 live : W64) : Except DecodeErr Instr :=
  if !lengthOk w0 then .error .length
  else decodeRaw (Raw.ofWords w0 (if isLong w0 then w1 else 0) (if hasLive w0 then some live else none))

/-- The words of a Flano instruction. -/
def encode (i : Instr) : Option (List W64) := (emit i).map Raw.words

/-- Decodes an instruction from its words, the absent ones read as zero. -/
def decodeList (ws : List W64) : Except DecodeErr Instr :=
  let w0 := ws.headD 0
  let rest := ws.drop 1
  if isLong w0 then decodeWords w0 (rest.headD 0) ((rest.drop 1).headD 0) else decodeWords w0 0 (rest.headD 0)

/-! ### Filter words (22 R436) -/

/-- Decodes a filter word; `none` for an opcode R436 does not list or a nonzero field it marks 0. -/
def decodeFilter (w : W32) : Option Instr :=
  let d := w.extractLsb' 20 4
  let a := w.extractLsb' 16 4
  let k := w.extractLsb' 0 16
  let b := w.extractLsb' 0 4
  let regB := w.extractLsb' 4 12 == 0
  match (w.extractLsb' 24 8).toNat with
  | 0x01 => if a == 0 && regB then some (.shLdf d b) else none
  | 0x02 => if a == 0 then some (.shLdi d k) else none
  | 0x03 => if a == 0 then some (.shLdih d k) else none
  | 0x08 => if regB then some (.shAdd d a b) else none
  | 0x09 => some (.shAddi d a k)
  | 0x0A => if regB then some (.shSub d a b) else none
  | 0x0B => if regB then some (.shAnd d a b) else none
  | 0x0C => if regB then some (.shOr d a b) else none
  | 0x0D => if w.extractLsb' 5 11 == 0 then some (.shShl d a (w.extractLsb' 0 5)) else none
  | 0x0E => if w.extractLsb' 5 11 == 0 then some (.shShr d a (w.extractLsb' 0 5)) else none
  | 0x0F => if regB then some (.shMin d a b) else none
  | 0x10 => if regB then some (.shCeq d a b) else none
  | 0x11 => if regB then some (.shCltu d a b) else none
  | 0x18 => if d == 0 && w.extractLsb' 0 8 == 0 then some (.shBz a (w.extractLsb' 8 8)) else none
  | 0x19 => if d == 0 && w.extractLsb' 0 8 == 0 then some (.shBnz a (w.extractLsb' 8 8)) else none
  | 0x20 => if w.extractLsb' 2 14 == 0 then some (.shHash d a (w.extractLsb' 0 2)) else none
  | 0x28 => if k == 0 then some (.shHist d a) else none
  | 0x29 => if d == 0 && regB then some (.shCms a b) else none
  | 0x30 => if d == 0 then some (.shTrig a k) else none
  | 0x38 => if d == 0 && a == 0 && k == 0 then some (.shDrop) else none
  | 0x3F => if d == 0 && a == 0 && k == 0 then some (.shEnd) else none
  | _ => none

/-- Lays a filter instruction out as its word. -/
def encodeFilter : Instr → Option W32
  | .shLdf d f => some ((0x01#8) ++ d ++ (0#16) ++ f)
  | .shLdi d k => some ((0x02#8) ++ d ++ (0#4) ++ k)
  | .shLdih d k => some ((0x03#8) ++ d ++ (0#4) ++ k)
  | .shAdd d a b => some ((0x08#8) ++ d ++ a ++ (0#12) ++ b)
  | .shAddi d a k => some ((0x09#8) ++ d ++ a ++ k)
  | .shSub d a b => some ((0x0A#8) ++ d ++ a ++ (0#12) ++ b)
  | .shAnd d a b => some ((0x0B#8) ++ d ++ a ++ (0#12) ++ b)
  | .shOr d a b => some ((0x0C#8) ++ d ++ a ++ (0#12) ++ b)
  | .shShl d a n => some ((0x0D#8) ++ d ++ a ++ (0#11) ++ n)
  | .shShr d a n => some ((0x0E#8) ++ d ++ a ++ (0#11) ++ n)
  | .shMin d a b => some ((0x0F#8) ++ d ++ a ++ (0#12) ++ b)
  | .shCeq d a b => some ((0x10#8) ++ d ++ a ++ (0#12) ++ b)
  | .shCltu d a b => some ((0x11#8) ++ d ++ a ++ (0#12) ++ b)
  | .shBz a o => some ((0x18#8) ++ (0#4) ++ a ++ o ++ (0#8))
  | .shBnz a o => some ((0x19#8) ++ (0#4) ++ a ++ o ++ (0#8))
  | .shHash d a m => some ((0x20#8) ++ d ++ a ++ (0#14) ++ m)
  | .shHist n a => some ((0x28#8) ++ n ++ a ++ (0#16))
  | .shCms a b => some ((0x29#8) ++ (0#4) ++ a ++ (0#12) ++ b)
  | .shTrig a c => some ((0x30#8) ++ (0#4) ++ a ++ c)
  | .shDrop => some (0x38000000)
  | .shEnd => some (0x3F000000)
  | _ => none

/-- The instruction the decoder reads from the opcode table's numbering of bits: a filter word of 32 bits, or the words of a
Flano instruction, the first in bits 63..0. -/
def decodeTableWord (nbits w : Nat) : Option Instr :=
  if nbits ≤ 32 then decodeFilter (BitVec.ofNat 32 w)
  else
    match decodeList [BitVec.ofNat 64 w, BitVec.ofNat 64 (w / 2 ^ 64), BitVec.ofNat 64 (w / 2 ^ 128)] with
    | .ok i => some i
    | .error _ => none

end Sys2Proof
end

