-- ==== Sys2Proof/Machine/Num.lean ====
section
/-! DEFINITION. Number formats and exact arithmetic (03 R73-R97): every operation forms its exact result and rounds once. -/

namespace Sys2Proof.Machine

/-! ### Formats (R73) -/

inductive Fmt where
  | f32 | f16 | bf16 | e4m3 | e5m2 | e2m1
  deriving DecidableEq, Repr

/-- Mantissa bits. -/
def Fmt.mb : Fmt → Nat
  | .f32 => 23 | .f16 => 10 | .bf16 => 7 | .e4m3 => 3 | .e5m2 => 2 | .e2m1 => 1

/-- Exponent bits. -/
def Fmt.eb : Fmt → Nat
  | .f32 => 8 | .f16 => 5 | .bf16 => 8 | .e4m3 => 4 | .e5m2 => 5 | .e2m1 => 2

def Fmt.bias : Fmt → Nat
  | .f32 => 127 | .f16 => 15 | .bf16 => 127 | .e4m3 => 7 | .e5m2 => 15 | .e2m1 => 1

def Fmt.bits (f : Fmt) : Nat := 1 + f.eb + f.mb

/-- Magnitude bits of the largest finite value. -/
def Fmt.maxMag : Fmt → Nat
  | .f32 => 0x7F7FFFFF | .f16 => 0x7BFF | .bf16 => 0x7F7F | .e4m3 => 0x7E | .e5m2 => 0x7B | .e2m1 => 0x7

/-- Magnitude bits of infinity, in the formats that have one. -/
def Fmt.infMag : Fmt → Option Nat
  | .f32 => some 0x7F800000 | .f16 => some 0x7C00 | .bf16 => some 0x7F80 | .e5m2 => some 0x7C
  | .e4m3 => none | .e2m1 => none

/-- The canonical NaN (R77); FP4 has none and delivers 0 (R86). -/
def Fmt.nan : Fmt → Nat
  | .f32 => 0x7FC00000 | .f16 => 0x7E00 | .bf16 => 0x7FC0 | .e4m3 => 0x7F | .e5m2 => 0x7E | .e2m1 => 0

def Fmt.signed (f : Fmt) (neg : Bool) (mag : Nat) : Nat := if neg then 2 ^ (f.bits - 1) + mag else mag

/-! ### Values -/

/-- What an encoding stands for: NaN, an infinity, or a signed magnitude `m * 2^e`. -/
inductive FV where
  | nan
  | inf (neg : Bool)
  | fin (neg : Bool) (m : Nat) (e : Int)
  deriving DecidableEq, Repr

/-- The value of an encoding (R73). -/
def unpack (f : Fmt) (x : Nat) : FV :=
  let neg := x / 2 ^ (f.bits - 1) % 2 == 1
  let mag := x % 2 ^ (f.bits - 1)
  let e := mag / 2 ^ f.mb
  let m := mag % 2 ^ f.mb
  match f.infMag with
  | some i => if mag == i then .inf neg else if mag > i then .nan else value neg e m
  | none => if f == .e4m3 && mag == 0x7F then .nan else value neg e m
where
  value (neg : Bool) (e m : Nat) : FV :=
    if e == 0 then .fin neg m (1 - (f.bias : Int) - f.mb)
    else .fin neg (2 ^ f.mb + m) ((e : Int) - f.bias - f.mb)

/-- An exact dyadic number `m * 2^e`. -/
structure Dy where
  m : Int
  e : Int
  deriving DecidableEq, Repr

def Dy.zero : Dy := ⟨0, 0⟩

/-- The numerator at a smaller exponent. -/
def Dy.at (x : Dy) (e : Int) : Int := x.m * 2 ^ (x.e - e).toNat

def Dy.add (x y : Dy) : Dy :=
  let e := min x.e y.e
  ⟨x.at e + y.at e, e⟩

def Dy.neg (x : Dy) : Dy := ⟨-x.m, x.e⟩
def Dy.sub (x y : Dy) : Dy := x.add y.neg
def Dy.mul (x y : Dy) : Dy := ⟨x.m * y.m, x.e + y.e⟩
def Dy.lt (x y : Dy) : Bool := decide ((x.sub y).m < 0)
def Dy.le (x y : Dy) : Bool := decide ((x.sub y).m ≤ 0)
def Dy.eq (x y : Dy) : Bool := decide ((x.sub y).m = 0)
def Dy.scale (x : Dy) (k : Int) : Dy := ⟨x.m, x.e + k⟩
/-- Numerator and denominator. -/
def Dy.frac (x : Dy) : Int × Nat := if x.e ≥ 0 then (x.m * 2 ^ x.e.toNat, 1) else (x.m, 2 ^ (-x.e).toNat)
def Dy.floor (x : Dy) : Int := x.frac.1 / (x.frac.2 : Int)
def Dy.ofInt (n : Int) : Dy := ⟨n, 0⟩

/-- The exact number a finite value stands for; 0 for the others. -/
def FV.dy : FV → Dy
  | .fin neg m e => ⟨if neg then -(m : Int) else m, e⟩
  | _ => .zero

def FV.neg : FV → FV
  | .nan => .nan
  | .inf n => .inf !n
  | .fin n m e => .fin (!n) m e

def FV.isNeg : FV → Bool
  | .nan => false
  | .inf n => n
  | .fin n _ _ => n

def FV.isZero : FV → Bool
  | .fin _ 0 _ => true
  | _ => false

def FV.isNan : FV → Bool
  | .nan => true
  | _ => false

def FV.isInf : FV → Bool
  | .inf _ => true
  | _ => false

/-! ### Rounding (R81, R82) -/

/-- How one rounding goes: a mode, or `.sr` with its random value (R83). -/
inductive How where
  | mode (m : Rm)
  | sr (r : Nat)
  deriving DecidableEq, Repr

/-- Floor of log2 of `n / d`, both positive. -/
def log2Q (n d : Nat) : Int :=
  let l : Int := (n.log2 : Int) - d.log2
  let ge := if l ≥ 0 then d * 2 ^ l.toNat ≤ n else d ≤ n * 2 ^ (-l).toNat
  if ge then l else l - 1

/-- `n / d` in units of `2^q`: quotient, remainder and divisor. -/
def units (n d : Nat) (q : Int) : Nat × Nat × Nat :=
  let n' := if q ≥ 0 then n else n * 2 ^ (-q).toNat
  let d' := if q ≥ 0 then d * 2 ^ q.toNat else d
  (n' / d', n' % d', d')

/-- A quotient with remainder rounded to an integer; `neg` is the sign of the number rounded. -/
def roundUnits (m : Rm) (neg : Bool) (k r d : Nat) : Nat :=
  match m with
  | .rne => if 2 * r > d then k + 1 else if 2 * r = d then k + k % 2 else k
  | .rtz => k
  | .rdn => if neg && r != 0 then k + 1 else k
  | .rup => if !neg && r != 0 then k + 1 else k

/-- Exponent of the spacing of the format at the positive number `n / d`, the exponent range unbounded above (R81). -/
def spacing (f : Fmt) (n d : Nat) : Int := max (log2Q n d - f.mb) (1 - (f.bias : Int) - f.mb)

/-- Exponent of the spacing of the top binade (R82). -/
def topSpacing (f : Fmt) : Int := ((f.maxMag / 2 ^ f.mb : Nat) : Int) - f.bias - f.mb

/-- Magnitude bits of the rounded number, above `maxMag` where it overflows. -/
def roundMag (f : Fmt) (how : How) (neg : Bool) (n d : Nat) : Nat :=
  if n = 0 then 0 else
  let q := spacing f n d
  match how with
  | .mode m =>
    let (k, r, d') := units n d q
    ((q + f.mb + f.bias).toNat - 1) * 2 ^ f.mb + roundUnits m neg k r d'
  | .sr rnd =>
    let q := min q (topSpacing f)
    let (k, _, _) := units (n * 2 ^ 16) d q
    ((q + f.mb + f.bias).toNat - 1) * 2 ^ f.mb + (k + rnd) / 2 ^ 16

/-- Overflow delivers infinity, not the largest finite value (R81). -/
def toInf (how : How) (neg : Bool) : Bool :=
  match how with
  | .sr _ | .mode .rne => true
  | .mode .rtz => false
  | .mode .rdn => neg
  | .mode .rup => !neg

/-- Rounds the number with the given sign and magnitude `n / d` (R81, R82, R85, R86). -/
def roundQ (f : Fmt) (how : How) (satf neg : Bool) (n d : Nat) : Nat :=
  let mag := roundMag f how neg n d
  if mag ≤ f.maxMag then f.signed neg mag
  else if satf || f == .e2m1 || !toInf how neg then f.signed neg f.maxMag
  else match f.infMag with
    | some i => f.signed neg i
    | none => f.nan

/-- Rounds an exact number that is not zero. -/
def roundDy (f : Fmt) (how : How) (x : Dy) : Nat :=
  let (n, d) := x.frac
  roundQ f how false (decide (n < 0)) n.natAbs d

/-- An infinite result (R81, R85, R86). -/
def packInf (f : Fmt) (satf neg : Bool) : Nat :=
  match f.infMag with
  | some i => f.signed neg i
  | none => if f == .e2m1 || satf then f.signed neg f.maxMag else f.nan

/-- The sign of an exact zero sum (R80). -/
def zeroSign (how : How) (xs : List FV) : Bool :=
  if xs.all (fun x => x.isZero && x.isNeg) && !xs.isEmpty then true
  else if xs.all (fun x => x.isZero && !x.isNeg) then false
  else how == .mode .rdn

/-- The sum of exact addends, rounded once (R77, R80, R81, R92). -/
def sumRound (f : Fmt) (how : How) (xs : List FV) : Nat :=
  if xs.any FV.isNan || (xs.contains (.inf true) && xs.contains (.inf false)) then f.nan
  else if xs.contains (.inf true) then packInf f false true
  else if xs.contains (.inf false) then packInf f false false
  else
    let s := xs.foldl (fun a x => a.add x.dy) Dy.zero
    if s.m = 0 then f.signed (zeroSign how xs) 0 else roundDy f how s

/-- An exact product (R77, R80). -/
def FV.mul (x y : FV) : FV :=
  match x, y with
  | .nan, _ | _, .nan => .nan
  | .inf a, .inf b => .inf (a != b)
  | .inf a, .fin b m _ => if m = 0 then .nan else .inf (a != b)
  | .fin a m _, .inf b => if m = 0 then .nan else .inf (a != b)
  | .fin a m e, .fin b n k => .fin (a != b) (m * n) (e + k)

/-- Scales a finite value by a power of two. -/
def FV.scale (x : FV) (k : Int) : FV :=
  match x with
  | .fin n m e => .fin n m (e + k)
  | v => v

def fpAdd (f : Fmt) (how : How) (a b : Nat) : Nat := sumRound f how [unpack f a, unpack f b]
def fpSub (f : Fmt) (how : How) (a b : Nat) : Nat := sumRound f how [unpack f a, (unpack f b).neg]
def fpMul (f : Fmt) (how : How) (a b : Nat) : Nat := sumRound f how [(unpack f a).mul (unpack f b)]
def fpFma (f : Fmt) (how : How) (a b c : Nat) : Nat := sumRound f how [(unpack f a).mul (unpack f b), unpack f c]

/-! ### Comparison, minimum, maximum (02 R64, 05 R137) -/

/-- Ordered less-than; false with a NaN. -/
def FV.lt (x y : FV) : Bool :=
  match x, y with
  | .nan, _ | _, .nan => false
  | .inf a, .inf b => a && !b
  | .inf a, .fin _ _ _ => a
  | .fin _ _ _, .inf b => !b
  | .fin _ _ _, .fin _ _ _ => x.dy.lt y.dy

def FV.eq (x y : FV) : Bool :=
  match x, y with
  | .nan, _ | _, .nan => false
  | .inf a, .inf b => a == b
  | .fin _ _ _, .fin _ _ _ => x.dy.eq y.dy
  | _, _ => false

def FV.le (x y : FV) : Bool := x.lt y || x.eq y

/-- A floating-point condition (R64). -/
def FCond.holds (c : FCond) (x y : FV) : Bool :=
  let uo := x.isNan || y.isNan
  match c with
  | .eq => x.eq y
  | .ne => uo || !x.eq y
  | .lt => x.lt y
  | .le => x.le y
  | .gt => y.lt x
  | .ge => y.le x
  | .uo => uo
  | .ord => !uo

/-- The order in which -0 stands below +0. -/
def FV.below (x y : FV) : Bool := x.lt y || (x.isZero && y.isZero && x.isNeg && !y.isNeg)

/-- `vfmin` and `vfmax`: an operand's own bits, or the canonical NaN (R137). -/
def fpMin (f : Fmt) (a b : Nat) : Nat :=
  let x := unpack f a
  let y := unpack f b
  if x.isNan then (if y.isNan then f.nan else b) else if y.isNan then a else if y.below x then b else a

def fpMax (f : Fmt) (a b : Nat) : Nat :=
  let x := unpack f a
  let y := unpack f b
  if x.isNan then (if y.isNan then f.nan else b) else if y.isNan then a else if x.below y then b else a

/-! ### Conversions (R85-R88) -/

/-- Between floating-point formats (R85, R86). -/
def cvtFF (dst src : Fmt) (how : How) (satf : Bool) (a : Nat) : Nat :=
  match unpack src a with
  | .nan => dst.nan
  | .inf n => packInf dst satf n
  | .fin n m e =>
    if m = 0 then dst.signed n 0
    else
      let (num, d) := (⟨m, e⟩ : Dy).frac
      roundQ dst how satf n num.natAbs d

/-- An exact number rounded to an integer (R87). -/
def roundInt (m : Rm) (x : Dy) : Int :=
  let (n, d) := x.frac
  let k := roundUnits m (decide (n < 0)) (n.natAbs / d) (n.natAbs % d) d
  if n < 0 then -(k : Int) else k

/-- Range of a two's complement or unsigned integer of `w` bits (R76). -/
def intMin (w : Nat) (sg : Bool) : Int := if sg then -(2 ^ (w - 1) : Int) else 0
def intMax (w : Nat) (sg : Bool) : Int := if sg then 2 ^ (w - 1) - 1 else 2 ^ w - 1
def clampInt (w : Nat) (sg : Bool) (x : Int) : Int := max (intMin w sg) (min (intMax w sg) x)

/-- Float to integer, always saturating (R87). -/
def cvtFI (w : Nat) (sg : Bool) (src : Fmt) (m : Rm) (a : Nat) : Int :=
  match unpack src a with
  | .nan => 0
  | .inf n => if n then intMin w sg else intMax w sg
  | .fin _ _ _ => clampInt w sg (roundInt m (unpack src a).dy)

/-- Integer to float (R88). -/
def cvtIF (dst : Fmt) (how : How) (x : Int) : Nat := if x = 0 then 0 else roundDy dst how (.ofInt x)

/-- The integer an encoding of `w` bits stands for. -/
def intVal (w : Nat) (sg : Bool) (x : Nat) : Int :=
  if sg && 2 ^ (w - 1) ≤ x % 2 ^ w then ((x % 2 ^ w : Nat) : Int) - 2 ^ w else ((x % 2 ^ w : Nat) : Int)

/-- An integer's bits, wrapped to `w` bits (R76). -/
def intBits (w : Nat) (x : Int) : Nat := (x % 2 ^ w).toNat

/-! ### Stochastic rounding (R83) -/

/-- One step of a lane of RNGS. -/
def xorshift (x : W32) : W32 :=
  let x := x ^^^ (x <<< 13)
  let x := x ^^^ (x >>> 17)
  x ^^^ (x <<< 5)

/-- RND of a state. -/
def rndOf (x : W32) : Nat := (x.setWidth 16).toNat

/-! ### Integral rounding, classes, roots (05 R138-R140) -/

/-- `vfrnd` (R139). -/
def fpRnd (m : Rm) (a : W32) : W32 :=
  match unpack .f32 a.toNat with
  | .nan => BitVec.ofNat 32 Fmt.f32.nan
  | .inf _ => a
  | .fin n mag e =>
    if e ≥ 0 then a
    else
      let k := roundInt m (⟨if n then -(mag : Int) else mag, e⟩ : Dy)
      if k = 0 then BitVec.ofNat 32 (Fmt.f32.signed n 0) else BitVec.ofNat 32 (roundDy .f32 (.mode .rne) (.ofInt k))

/-- `vfclass` (R140). -/
def fpClass (a : W32) : W32 :=
  match unpack .f32 a.toNat with
  | .nan => 0x100
  | .inf n => if n then 0x001 else 0x080
  | .fin n m _ =>
    if m = 0 then (if n then 0x008 else 0x010)
    else if m < 2 ^ 23 then (if n then 0x004 else 0x020)
    else if n then 0x002 else 0x040

/-- Integer square root, one bit at a time from bit `k - 1`. -/
def isqrtFrom (n : Nat) : Nat → Nat → Nat
  | 0, r => r
  | k + 1, r => isqrtFrom n k (if (r + 2 ^ k) * (r + 2 ^ k) ≤ n then r + 2 ^ k else r)

def isqrt (n : Nat) : Nat := isqrtFrom n (n.log2 / 2 + 1) 0

/-- The square root of a positive dyadic number, with a last bit that says whether it is inexact. -/
def sqrtDy (m : Nat) (e : Int) : Dy :=
  let (m, e) := if e % 2 = 0 then (m, e) else (2 * m, e - 1)
  let n := m * 2 ^ 240
  let r := isqrt n
  ⟨2 * r + (if r * r = n then 0 else 1), e / 2 - 121⟩

def f32nan : W32 := 0x7FC00000
def f32inf (neg : Bool) : W32 := if neg then 0xFF800000 else 0x7F800000
def f32zero (neg : Bool) : W32 := if neg then 0x80000000 else 0
def f32of (x : Dy) : W32 := if x.m = 0 then 0 else BitVec.ofNat 32 (roundDy .f32 (.mode .rne) x)

/-- `vfsqrt`, correctly rounded (R138). -/
def fpSqrt (a : W32) : W32 :=
  match unpack .f32 a.toNat with
  | .nan => f32nan
  | .inf n => if n then f32nan else f32inf false
  | .fin n m e => if m = 0 then f32zero n else if n then f32nan else f32of (sqrtDy m e)

/-! ### The approximating functions (R138)

The manual fixes special cases bit for bit and bounds the error elsewhere. The model takes the unconstrained constant of Config
where it lies within the bound of the function, computed to more than 2^-60, and the rounded function where it does not
(log entry 4). The manual states no bound for a subnormal result: there the constant stands where it is subnormal too and not zero (03 R79). It is
no NaN, and infinite only where the exact result is too large (03 R77). -/

/-- An exponent: the power of two a magnitude is, if it is one. -/
def pow2Of (m : Nat) (e : Int) : Option Int := if m = 2 ^ m.log2 then some (m.log2 + e) else none

/-- Whether a positive number has a normal FP32 magnitude. -/
def normalMag (x : Dy) : Bool := (⟨1, -126⟩ : Dy).le x && x.le ⟨2 ^ 24 - 1, 104⟩

def Dy.abs (x : Dy) : Dy := ⟨x.m.natAbs, x.e⟩

/-- One unit in the last place of FP32 at a nonzero number. -/
def ulp32 (x : Dy) : Dy :=
  let (n, d) := x.abs.frac
  ⟨1, spacing .f32 n.natAbs d⟩

/-- `c` where it lies within `bound` of `v`, or both are subnormal; else `v` rounded. -/
def within (v bound : Dy) (c : W32) : W32 :=
  match unpack .f32 c.toNat with
  | .fin n m e =>
    let d := (FV.fin n m e).dy
    if normalMag v.abs || normalMag d.abs then (if (d.sub v).abs.le bound then c else f32of v)
    else if m = 0 then f32of v
    else c
  | .inf n => if (⟨2 ^ 24 - 1, 104⟩ : Dy).lt v.abs && n == decide (v.m < 0) then c else f32of v
  | .nan => f32of v

/-- The quotient to 100 bits below the leading one. -/
def quot (n d : Nat) : Dy := ⟨n * 2 ^ (100 + d.log2) / d, -(100 + d.log2 : Nat)⟩

def fpRcp (a : W32) : W32 :=
  match unpack .f32 a.toNat with
  | .nan => f32nan
  | .inf n => f32zero n
  | .fin n m e =>
    if m = 0 then f32inf n
    else
      let v := (quot 1 m).scale (-e)
      let v := if n then v.neg else v
      match pow2Of m e with
      | some k =>
        if -149 ≤ -k ∧ -k ≤ 127 then f32of (if n then ⟨-1, -k⟩ else ⟨1, -k⟩)
        else f32inf n
      | none =>
        if (⟨2 ^ 24 - 1, 104⟩ : Dy).lt v.abs then f32inf n
        else within v (ulp32 v) (Config.rcp a)

def fpRsq (a : W32) : W32 :=
  match unpack .f32 a.toNat with
  | .nan => f32nan
  | .inf n => if n then f32nan else 0
  | .fin n m e =>
    if m = 0 then f32inf n
    else if n then f32nan
    else
      match (pow2Of m e).bind fun k => if k % 2 = 0 then some (k / 2) else none with
      | some k => f32of ⟨1, -k⟩
      | none =>
        let r := sqrtDy m e
        let v := (quot 1 r.m.natAbs).scale (-r.e)
        within v (ulp32 v) (Config.rsq a)

/-- Fixed point with 128 fraction bits. -/
def fxOne : Nat := 2 ^ 128

/-- ln 2 and pi, truncated to 128 fraction bits. -/
def fxLn2 : Nat := 0xB17217F7D1CF79ABC9E3B39803F2F6AF
def fxPi : Nat := 0x3243F6A8885A308D313198A2E03707344

/-- Sum of `z^k / k!` over `k` from `k0`, the term at `k0` being `t`, with `n` terms. -/
def expTerms (z : Nat) : Nat → Nat → Nat → Nat
  | 0, _, _ => 0
  | n + 1, k, t => t + expTerms z n (k + 1) (t * z / fxOne / (k + 1))

/-- `2^r` for a fraction `r` of 128 bits. -/
def fxExp2 (r : Nat) : Nat := expTerms (r * fxLn2 / fxOne) 40 0 fxOne

def fpExp2 (a : W32) : W32 :=
  match unpack .f32 a.toNat with
  | .nan => f32nan
  | .inf n => if n then 0 else f32inf false
  | .fin n m e =>
    let x : Dy := ⟨if n then -(m : Int) else m, e⟩
    if m = 0 then 0x3F800000
    else if (⟨128, 0⟩ : Dy).le x then f32inf false
    else if x.le ⟨-150, 0⟩ then 0
    else
      let k := x.floor
      let r := x.sub (.ofInt k)
      if r.m = 0 then f32of ⟨1, k⟩
      else
        let v : Dy := ⟨fxExp2 (r.scale 128).floor.toNat, k - 128⟩
        within v ((ulp32 v).scale 1) (Config.exp2 a)

/-- Bits of log2 of `y` in [1, 2), by squaring. -/
def fxLog2 : Nat → Nat → Nat → Nat
  | 0, _, acc => acc
  | n + 1, y, acc =>
    let y := y * y / fxOne
    if y ≥ 2 * fxOne then fxLog2 n (y / 2) (2 * acc + 1) else fxLog2 n y (2 * acc)

def fpLog2 (a : W32) : W32 :=
  match unpack .f32 a.toNat with
  | .nan => f32nan
  | .inf n => if n then f32nan else f32inf false
  | .fin n m e =>
    if m = 0 then f32inf true
    else if n then f32nan
    else
      match pow2Of m e with
      | some k => f32of (.ofInt k)
      | none =>
        let l := m.log2
        let v : Dy := (Dy.ofInt (l + e)).add ⟨fxLog2 64 (m * 2 ^ (128 - l)) 0, -64⟩
        let near := decide (l + e = 0) || decide (l + e = -1)
        within v (if near then ⟨1, -22⟩ else (ulp32 v).scale 1) (Config.log2 a)

/-- Alternating sum of `z^k / k!` over `k = k0, k0 + 2, ...`, the term at `k0` being `t`. -/
def trigTerms (z : Nat) : Nat → Nat → Nat → Int
  | 0, _, _ => 0
  | n + 1, k, t => (t : Int) - trigTerms z n (k + 2) (t * z / fxOne * z / fxOne / ((k + 1) * (k + 2)))

/-- sin and cos of `pi * r` for a fraction `r` in [0, 1/2], 128 fraction bits. -/
def fxSin (r : Nat) : Int := let z := r * fxPi / fxOne; trigTerms z 24 1 z
def fxCos (r : Nat) : Int := let z := r * fxPi / fxOne; trigTerms z 24 0 fxOne

/-- sin(pi x) for x in [0, 2), by halves. Of a smaller x than 2^-40 `fpSin` takes pi x, which differs by less than 2^-78 of it. -/
def sinHalves (x : Dy) : Dy :=
  let h := (x.scale 1).floor
  let r := ((x.sub ⟨h, -1⟩).scale 128).floor.toNat
  let v := match h % 4 with
    | 0 => fxSin r
    | 1 => fxCos r
    | 2 => -fxSin r
    | _ => -fxCos r
  ⟨v, -128⟩

def fpSin (a : W32) : W32 :=
  match unpack .f32 a.toNat with
  | .nan | .inf _ => f32nan
  | .fin n m e =>
    let x : Dy := ⟨if n then -(m : Int) else m, e⟩
    let k := x.floor
    let r := x.sub (.ofInt k)
    if r.m = 0 then f32zero n
    else if r.eq ⟨1, -1⟩ then (if k % 2 = 0 then 0x3F800000 else 0xBF800000)
    else if x.abs.lt ⟨1, -40⟩ then within ⟨x.m * fxPi, x.e - 128⟩ ⟨1, -21⟩ (Config.sinPi a)
    else
      within (sinHalves (r.add (.ofInt (k % 2)))) ⟨1, -21⟩ (Config.sinPi a)

def fpCos (a : W32) : W32 :=
  match unpack .f32 a.toNat with
  | .nan | .inf _ => f32nan
  | .fin n m e =>
    let x : Dy := ⟨if n then -(m : Int) else m, e⟩
    let k := x.floor
    let r := x.sub (.ofInt k)
    if r.m = 0 then (if k % 2 = 0 then 0x3F800000 else 0xBF800000)
    else if r.eq ⟨1, -1⟩ then 0
    else
      let y := (r.add (.ofInt (k % 2))).add ⟨1, -1⟩
      within (sinHalves (if (⟨2, 0⟩ : Dy).le y then y.sub ⟨2, 0⟩ else y)) ⟨1, -21⟩ (Config.cosPi a)

end Sys2Proof.Machine
end

