-- ==== Sys2Proof/Machine/Translate.lean ====
section
/-! DEFINITION. Two-stage address translation, cached translations, and accesses through the tables of a VF (14 R301-R313, 20 R399,
R400). -/

namespace Sys2Proof.Machine

/-! ### Looking things up -/

def State.vf (s : State) (n : Nat) : Vf := (s.vfs.get n).getD Vf.reset
def State.setVf (s : State) (n : Nat) (f : Vf → Vf) : State := { s with vfs := s.vfs.put n (f (s.vf n)) }
def State.pad (s : State) (n : Nat) : Paddock := (s.paddocks.get n).getD Paddock.reset
def State.setPad (s : State) (n : Nat) (f : Paddock → Paddock) : State := { s with paddocks := s.paddocks.put n (f (s.pad n)) }
def State.port (s : State) (n : Nat) : Port := (s.ports.get n).getD Port.none
def State.memPort (s : State) (n : Nat) : Port := (s.memPorts.get n).getD Port.none
def State.region (s : State) (n : Nat) : Region := (s.regions.get n).getD Region.none

/-- Adds to counter `n` of a VF (22 R424). -/
def State.count (s : State) (vf n : Nat) (k : Nat) : State :=
  s.setVf vf fun v => { v with ctr := v.ctr.wr (BitVec.ofNat 8 n) (v.ctr.rd (BitVec.ofNat 8 n) + BitVec.ofNat 64 k) }

/-- The Bellwether count in ns (18 R360). -/
def State.ns (s : State) : W64 := (s.bell >>> 32).setWidth 64

/-! ### Physical addresses (14 R302) -/

def paClass (pa : Nat) : Nat := pa / 2 ^ 50 % 4

/-- This module's number in the domain, beyond every number where it has none (16 R346). -/
def State.me (s : State) : Nat := match s.modnum with | some m => m.toNat | none => 256

/-- A frame of class 01 that names this module is its own LPDDR. -/
def homePa (s : State) (pa : Nat) : Nat := if paClass pa = 1 ∧ nbits pa 49 42 = s.me then pa % 2 ^ 40 else pa

/-- The VF of another module, or of this one, that the domain binds to a VF (16 R346). -/
def State.bound (s : State) (vf m : Nat) : Option Nat :=
  match s.modnum with
  | none => none
  | some me => if me.toNat = m then some vf else (s.bindings.find? fun b => b.1 == vf && b.2.1 == m).map fun b => b.2.2

def isDomain (va : Nat) : Bool := nbit va 56
def domainModule (va : Nat) : Nat := nbits va 55 48

/-- The VF number of a request of the device itself, which no Paddock's ports check (log entry 7). -/
def noVf : Nat := 0xFFFF

/-- Where a physical address lies: here or at the host, or in another module's LPDDR. -/
def locOf (pa : Nat) : Loc := if paClass pa = 1 then .far (nbits pa 49 42) pa else .pa pa

/-- The physical address of `n` bytes of host memory, if they exist. -/
def hostPa (a n : Nat) : Option Nat := if a + n ≤ 2 ^ 50 then some (2 ^ 51 + a) else none

/-- The region of 1 GiB that a local physical address lies in (20 R399). -/
def regionOf (pa : Nat) : Nat := pa / 2 ^ 30

/-- A stage-2 frame that a Paddock's table may name: not of class 11, in a region of the Paddock or, read-only, in a shared one it
may read; host memory only with CACHE (14 R304, 20 R400, R408, R413). -/
def frameOk (s : State) (pd pa : Nat) (w : Bool) : Bool :=
  match paClass (homePa s pa) with
  | 0 =>
    decide (homePa s pa < 2 ^ 40) &&
      (let r := s.region (regionOf (homePa s pa))
       if r.shared then !w && r.share.getLsbD pd else decide (r.owner.toNat = pd))
  | 1 => decide (pa / 2 ^ 40 % 4 = 0)
  | 2 => (s.feat.rd 0).getLsbD 0
  | _ => false

/-! ### What leaves the device, and the error log (20 R397, R412) -/

def State.send (s : State) (m : Sent) : State := { s with out := s.out ++ [m] }

/-- A message for a VF leaves on Xasta links, or arrives: counted with its flits (22 R426). -/
def State.flitOut (s : State) (vf : Nat) : State := { s with uses := s.uses ++ [.out vf] }
def State.flitIn (s : State) (vf : Nat) : State := { s with uses := s.uses ++ [.in_ vf] }

/-! ### Requests to other modules (16 R347) -/

/-- The module that holds a piece, with the address that it takes there. -/
def Loc.away (l : Loc) : Option (Nat × W64) :=
  match l with
  | .dom m a | .far m a => some (m, BitVec.ofNat 64 a)
  | _ => none

/-- Sends one request, and notes who waits for its answer; `keep` where the module holds something after it has performed. -/
def ask (s : State) (who : Asker) (vf g dest : Nat) (mode : ReqMode) (ops : List (Nat × RemoteOp)) (keep : Bool := false) : State :=
  let id := s.handle
  let a : Ask :=
    { who := who, vf := vf, dest := dest, since := s.bell.toNat, holds := match mode with | .ask _ _ | .payload => true | _ => keep,
      of := match mode with | .go n => n | _ => id, ans := none }
  { s.flitOut vf with handle := id + 1, asks := s.asks.put id a }.send (.request dest
    { src := s.me, id := id, vf := (s.bound vf dest).getD 0xFFFF, g := BitVec.ofNat 32 g, mode := mode, ops := ops })

/-- A request that nothing waits for. -/
def tell (s : State) (vf dest : Nat) (mode : ReqMode) (ops : List (Nat × RemoteOp)) : State :=
  (s.flitOut vf).send (.request dest { src := s.me, id := 0, vf := (s.bound vf dest).getD 0xFFFF, g := 0, mode := mode, ops := ops })

def asksOf (s : State) (who : Asker) : List (Nat × Ask) := s.asks.filter fun e => e.2.who == who
def allAnswered (s : State) (who : Asker) : Bool := (asksOf s who).all fun e => e.2.ans.isSome
def answersOf (s : State) (who : Asker) : List Answer := (asksOf s who).filterMap fun e => e.2.ans
def dropAsks (s : State) (who : Asker) : State := { s with asks := s.asks.filter fun e => e.2.who != who }

/-- The answers by key. -/
def keyed (l : List Answer) : List (Nat × PieceAnswer) := l.flatMap fun a => match a with | .pieces l => l | _ => []

/-- Bytes that an answer brought for a key. -/
def pieceData (l : List (Nat × PieceAnswer)) (key n : Nat) : List W8 :=
  match l.find? fun x => x.1 == key with
  | some (_, .data d) => (d ++ zeros n).take n
  | _ => zeros n

/-- The first cause that answers bring. -/
def causeOf (l : List (Nat × PieceAnswer)) : Option W8 := l.findSome? fun a => match a.2 with | .cause c => some c | _ => none

/-- What the device does at other modules: it waits for their answers, or has them. -/
inductive Far where
  | wait (s : State)
  | got (l : List (Nat × PieceAnswer)) (s : State)

/-- Operations at other modules, by key, module and operation: asked for once, then awaited. The answers stay until who needs them drops them. -/
def farDo (s : State) (who : Asker) (vf : Nat) (ops : List (Nat × Nat × RemoteOp)) : Far :=
  if (asksOf s who).isEmpty then
    .wait (((ops.map (·.2.1)).eraseDups).foldl (fun s m => ask s who vf 0 m .once ((ops.filter fun o => o.2.1 == m).map fun o => (o.1, o.2.2))) s)
  else if allAnswered s who then .got (keyed (answersOf s who)) s
  else .wait s

def State.msixFire (s : State) (v : Nat) : State := { s with msix := s.msix ++ [v], out := s.out ++ [.msix v] }

/-- An error-log entry; its unit is free (log entry 20). -/
def logError (s : State) (pa : Nat) (kind : W8) (vf : W16) : State :=
  let e := natLe 8 pa ++ [kind, (Config.value32 s.free).setWidth 8] ++ natLe 2 vf.toNat ++ natLe 8 s.ns.toNat ++ zeros 12
  let i := BitVec.ofNat 4 s.errCount.toNat
  ({ s with errLog := s.errLog.wr i (BitVec.ofNat 256 (leNat e)), errCount := s.errCount + 1, free := s.free + 1 }).msixFire 1

/-- Marks of contexts that end by more than their cause: an uncorrectable stage-2 table, whose whole Paddock ends (R412). -/
def cTableError : W8 := 0x41

/-! ### Writing physical memory -/

/-- Whether a line holds an uncorrectable error (20 R412). -/
def State.eccAt (s : State) (pa : Nat) : Bool := s.ecc.contains (pa / 128)

/-- Whether a line of a range is in a list. -/
def lineIn (ls : List Nat) (pa n : Nat) : Bool := ls.any fun l => decide (l * 128 < pa + n) && decide (pa < l * 128 + 128)

/-- Lines that a write covers hold no error (20 R412). -/
def State.stored (s : State) (ps : List (Nat × Nat)) : State :=
  let keep (l : Nat) : Bool := !ps.any fun p => p.1 ≤ l * 128 && decide (l * 128 + 128 ≤ p.1 + p.2)
  { s with ecc := s.ecc.filter keep, soft := s.soft.filter keep }

/-- The 128-byte lines of a range. -/
def linesOf (a n : Nat) : List Nat := if n = 0 then [] else (List.range ((a + n - 1) / 128 + 1 - a / 128)).map (a / 128 + ·)

/-- Lines of a migrating page, by number, that have been copied and that a write reaches. -/
def Migration.hit (m : Migration) (ps : List (Nat × Nat)) : List Nat :=
  (ps.flatMap fun p => linesOf p.1 p.2).filterMap fun l =>
    if m.src / 128 ≤ l ∧ l < m.src / 128 + m.copied then some (l - m.src / 128) else none

/-- Marks the lines of migrating pages that a write reaches (14 R318). -/
def markMigrating (s : State) (ps : List (Nat × Nat)) : State :=
  { s with migrations := s.migrations.map fun e => (e.1, { e.2 with marked := e.2.marked ++ (e.2.hit ps).filter fun l => !e.2.marked.contains l }) }

/-- Writes pieces of the memory that this module reaches itself. -/
def writePieces (m : Memory) : List (Nat × Nat) → List W8 → Memory
  | [], _ => m
  | (pa, n) :: rest, d => writePieces (if paClass pa = 1 then m else m.write pa (d.take n)) rest (d.drop n)

/-- Pieces in other modules are written there by requests (14 R302). -/
def sendPieces (s : State) : List (Nat × Nat) → List W8 → State
  | [], _ => s
  | (pa, n) :: rest, d =>
    let s := if paClass pa = 1 then
        s.send (.request (nbits pa 49 42)
          { src := s.me, id := 0, vf := 0xFFFF, g := 0, mode := .once, ops := [(0, .write (BitVec.ofNat 64 pa) (d.take n))] })
      else s
    sendPieces s rest (d.drop n)

/-- Writes physical pieces. -/
def State.writePa (s : State) (ps : List (Nat × Nat)) (d : List W8) : State :=
  let s := markMigrating (s.stored ps) ps
  sendPieces { s with mem := writePieces s.mem ps d } ps d

/-- Bytes that this module does not know: another's, read by the device itself (log entry 7). -/
def unknownBytes (s : State) (n : Nat) : List W8 := (List.range n).map fun i => (Config.value32 (s.free + i)).setWidth 8

/-- Reads physical memory. -/
def State.readPa (s : State) (pa n : Nat) : List W8 := if paClass pa = 1 then unknownBytes s n else s.mem.read pa n

/-- Bytes of physical pieces. -/
def readPieces (s : State) : List (Nat × Nat) → List W8
  | [] => []
  | (pa, n) :: rest => s.readPa pa n ++ readPieces s rest

/-! ### Lines that engine operations own (12 R284-R286) -/

/-- The descriptor registers, with their copy slots, and the path-table indexes. -/
def allD : List DReg := [0, 1, 2, 3, 4, 5, 6, 7]
def allPaths : List (BitVec 3) := [0, 1, 2, 3, 4, 5, 6, 7]

/-- What an operation owns: its place among operations, the bytes it still writes, those it has written, and whether it is a traversal. -/
structure Claim where
  order : Nat
  left : List (Nat × Nat)
  done : List (Nat × Nat)
  walks : Bool := false

/-- The pieces of a place. -/
def Place.all (p : Place) : List (Loc × Nat) := match p with | .here l => l | .remote l => l

/-- The pieces of a place in the memory that this module reaches. -/
def Place.phys (p : Place) : List (Nat × Nat) :=
  p.all.filterMap fun x => match x.1 with | .pa a => some (a, x.2) | _ => none

/-- A copy whose tensor side is written to `.g`. -/
def toGlobal : CDir → Bool
  | .s2g | .p2g => true
  | _ => false

/-- Rows of `mst.g`, an element of four bytes at a time. -/
def EngOp.claim (o : EngOp) : Option Claim :=
  match o.kind with
  | .mst rows _ _ =>
    let es := (List.range 256).flatMap fun n => match rows[n / 16]? with
      | some p => p.phys.map fun x => (n, x.1 + 4 * (n % 16), 4)
      | none => []
    some { order := o.id, left := (es.filter fun e => !o.landed.contains e.1).map (·.2), done := (es.filter fun e => o.landed.contains e.1).map (·.2) }
  | _ => none

/-- The elements of a tile under way that have moved, or that have not. -/
def TileRun.pieces (t : TileRun) (moved : Bool) : List (Nat × Nat) :=
  (t.elems.zip (List.range t.elems.length)).flatMap fun e => match e.1.place with
    | some p => if t.left.contains e.2 != moved then p.phys else []
    | none => []

/-- A running copy to `.g`: its lines by tile, and the elements of the tile under way. -/
def Copy.claim (c : Copy) : Option Claim :=
  if c.st = .running ∧ toGlobal c.dir = true then
    match c.tile with
    | none => some { order := c.since, left := (c.lines.filter fun l => c.cursor ≤ l.1).map (·.2),
                     done := (c.lines.filter fun l => l.1 < c.cursor).map (·.2) }
    | some t => some { order := c.since, left := (c.lines.filter fun l => c.cursor < l.1).map (·.2) ++ t.pieces false,
                       done := (c.lines.filter fun l => l.1 < c.cursor).map (·.2) ++ t.pieces true }
  else none

def Group.claims (g : Group) : List Claim :=
  g.ops.filterMap EngOp.claim ++ allD.filterMap (fun d => (g.copies.rd d).claim) ++
    allPaths.filterMap fun i => (g.pairs.rd i).map fun p => { order := p.since, left := p.rec_.phys, done := [], walks := true }

/-- Places in the memory of this module among pieces. -/
def physOf (l : List (Loc × Nat)) : List (Nat × Nat) := (Place.here l).phys

/-- A group whose team is on a core; a save has released what the others own (R286). -/
def State.onCore (s : State) (g : Group) : Bool := match s.teams.get g.team with | some t => t.core.isSome | none => false

def State.claims (s : State) : List Claim :=
  (s.groups.filter fun e => s.onCore e.2).flatMap (fun e => e.2.claims) ++
    s.held.filterMap fun h => h.own.map fun n =>
      { order := n, left := (h.ops.filter fun o => o.2.1.writes).flatMap fun o => physOf o.2.2, done := physOf h.freed,
        walks := h.ops.any fun o => match o.2.1 with | .claim _ _ => true | _ => false }

/-- A byte that an operation still writes, or of a line in which it still writes and that it does not. -/
def Claim.blocks (c : Claim) (b : Nat) : Bool :=
  lineIn [b / 128] b 1 && (c.left.any fun p => lineIn [b / 128] p.1 p.2) && !c.done.any fun p => p.1 ≤ b && decide (b < p.1 + p.2)

/-- Whether an access waits for an operation that owns a line: any one, or, of an engine operation, an earlier one. An access to a traversal's own
record waits for no other traversal: two that share one run independently (07 R206). -/
def owned (s : State) (order : Option Nat) (ps : List (Nat × Nat)) (walks : Bool := false) : Bool :=
  s.claims.any fun c => !(walks && c.walks) && (match order with | some n => decide (c.order < n) | none => true) &&
    ps.any fun p => (List.range p.2).any fun i => c.blocks (p.1 + i)

/-! ### Host memory and what leaves the device -/

/-- Writes host memory; an address that does not exist is not written. -/
def State.hostWrite (s : State) (a : Nat) (d : List W8) : State :=
  match hostPa a d.length with
  | some e => s.writePa [(e, d.length)] d
  | none => s

def State.hostRead (s : State) (a n : Nat) : List W8 :=
  match hostPa a n with
  | some e => s.mem.read e n
  | none => zeros n

/-- Packs bytes into a 32-byte record. -/
def rec32 (d : List W8) : BitVec 256 := BitVec.ofNat 256 (leNat d)

/-- Whether a range of host memory waits for an engine operation that owns its lines. -/
def hostOwned (s : State) (a n : Nat) : Bool := match hostPa a n with | some e => owned s none [(e, n)] | none => false

/-- Writes the Paddock's waiting events while its ring has room, and no engine operation owns their place (12 R285, 20 R396, R397). -/
def writeEvents (s : State) (pd : Nat) : Nat → State
  | 0 => s
  | n + 1 =>
    let p := s.pad pd
    match p.events with
    | [] => s
    | e :: rest =>
      let at_ := p.evbase.toNat + 32 * (p.evwrite.toNat % 2 ^ p.evlog.toNat)
      if p.evlog.toNat < 4 || 16 < p.evlog.toNat || decide (2 ^ p.evlog.toNat ≤ (p.evwrite - p.evread).toNat) || hostOwned s at_ 32 then s
      else
        let s := s.hostWrite at_ (natLe 32 e.toNat)
        let s := s.setPad pd fun p => { p with events := rest, evwrite := p.evwrite + 1 }
        writeEvents (s.msixFire (2 + pd)) pd n

/-- Posts a translation event (14 R313, 20 R397). -/
def postEvent (s : State) (pd kind cause vf reason : Nat) (a : Nat) : State :=
  let d := natLe 1 kind ++ natLe 1 cause ++ natLe 2 vf ++ natLe 1 reason ++ zeros 3 ++ natLe 8 a ++ natLe 8 s.ns.toNat ++ zeros 8
  if 256 ≤ (s.pad pd).events.length then s.setPad pd fun p => { p with evovf := true }
  else
    let s := s.setPad pd fun p => { p with events := p.events ++ [rec32 d] }
    writeEvents s pd 257

/-! ### Page tables (14 R303-R305) -/

/-- A leaf that a walk found: the address of its entry (the head's, for a 64 KiB page), frame, size in bytes, permissions and MS. -/
structure PLeaf where
  entry : Nat
  base : Nat
  size : Nat
  w : Bool
  x : Bool
  ms : Nat
  deriving DecidableEq, Repr

/-- Why a walk stops: a cause of its own stage, a stage-2 failure met on the way with the IPA, an uncorrectable error with its address, an entry
that an engine owns, or one at another module that has not been read. -/
inductive WalkErr where
  | bad (c : W8)
  | host (ipa : Nat) (c : W8)
  | ecc (stage2 : Bool) (pa : Nat)
  | busy
  | away (pa : Nat)
  deriving DecidableEq, Repr

def causeNotPresent : W8 := 0x10
def causePermission : W8 := 0x11
def causeInvalid : W8 := 0x12
def causeNoncanonical : W8 := 0x13

/-- Bytes a leaf at a level maps. -/
def leafSize (level : Nat) (s64 : Bool) : Nat := if level = 0 && s64 then 2 ^ 16 else 2 ^ (12 + 9 * level)

/-- Whether an entry with V = 1 is malformed (R304); `e` is the group's head for a 64 KiB page. -/
def malformed (stage2 : Bool) (frame : Nat → Bool → Bool) (level : Nat) (e : Nat) : Bool :=
  let t := nbit e 1
  let s64 := nbit e 4
  nbit e 63 || nbit e 11 || nbits e 8 7 != 0
    || (!t && decide (3 ≤ level)) || (t && level == 0)
    || (t && nbits e 10 2 != 0)
    || (s64 && (t || level != 0))
    || (!t && decide (nbits e 51 12 * 2 ^ 12 % leafSize level s64 ≠ 0))
    || (if stage2 then nbits e 10 9 == 3 || !frame (nbits e 51 12 * 2 ^ 12) (!t && nbit e 2) else nbits e 10 9 != 0)

/-- A walk from a table of the level below `k`, reading entries with `rd`. T = 1 in an entry of a 64 KiB group that is not its head is malformed:
DESIGN CHOICE, R304 reads such entries only for V and S64 and calls T = 1 at L0 malformed (log entry 49). -/
def walk (stage2 : Bool) (frame : Nat → Bool → Bool) (rd : Nat → Except WalkErr Nat) (k table a : Nat) : Except WalkErr PLeaf :=
  match k with
  | 0 => .error (.bad causeInvalid)
  | level + 1 => do
    let ix := a / 2 ^ (12 + 9 * level) % 512
    let e ← rd (table + 8 * ix)
    if !nbit e 0 then .error (.bad causeNotPresent)
    else
      let grp := nbit e 4 && level == 0 && !nbit e 1
      let at_ := if grp then table + 8 * (ix - ix % 16) else table + 8 * ix
      let h ← if grp then rd at_ else pure e
      if (grp && !(nbit h 0 && nbit h 4)) || malformed stage2 frame level h then .error (.bad causeInvalid)
      else if nbit h 1 then walk stage2 frame rd level (nbits h 51 12 * 2 ^ 12) a
      else .ok { entry := at_, base := nbits h 51 12 * 2 ^ 12, size := leafSize level (nbit h 4), w := nbit h 2, x := nbit h 3,
                 ms := nbits h 10 9 }

/-- Reads a page-table entry at its home; one at another module is in its answer to the walk, by VF and page, that asked for it. -/
def readEntry (s : State) (stage2 : Bool) (pa : Nat) (at_ : Option (Nat × Nat) := none) : Except WalkErr Nat :=
  if paClass pa = 1 then
    match at_.map fun x => keyed (answersOf s (.entry x.1 x.2 pa)) with
    | some (a :: l) => .ok (leNat (pieceData (a :: l) 0 8))
    | _ => .error (.away pa)
  else if s.eccAt pa then .error (.ecc stage2 pa)
  else if owned s none [(pa, 8)] then .error .busy
  else .ok (leNat (s.readPa pa 8))

/-- The stage-2 walk of an IPA in a Paddock's table. -/
def stage2 (s : State) (pd ipa : Nat) (at_ : Option (Nat × Nat) := none) : Except WalkErr PLeaf :=
  walk true (frameOk s pd) (fun a => readEntry s true (homePa s a) at_) 5 (s.pad pd).s2root.toNat (ipa % 2 ^ 52)

/-- A stage-2 walk on the route of a stage-1 walk: its failures wait for the host (R305). -/
def stage2Pa (s : State) (pd ipa : Nat) (at_ : Option (Nat × Nat) := none) : Except WalkErr (PLeaf × Nat) :=
  match stage2 s pd ipa at_ with
  | .ok l => .ok (l, homePa s (l.base + ipa % l.size))
  | .error (.bad c) => .error (.host ipa c)
  | .error e => .error e

/-- The stage-1 walk of a virtual address in a VF's table. -/
def stage1 (s : State) (vf : Nat) (va : Nat) : Except WalkErr PLeaf :=
  let pd := (s.vf vf).paddock.toNat
  walk false (fun _ _ => true)
    (fun ipa => do
      let (_, pa) ← stage2Pa s pd ipa (some (vf, va / 4096))
      readEntry s false pa (some (vf, va / 4096)))
    5 (s.vf vf).s1root.toNat va

/-- What an access does; an atomic does both. -/
inductive Acc where
  | rd | wr | rmw | ex
  deriving DecidableEq, Repr

def Acc.writes (k : Acc) : Bool := k == .wr || k == .rmw

/-- A write, and the write of an atomic, need W; a fetch needs X (R305). -/
def Acc.permits (k : Acc) (w x : Bool) : Bool :=
  match k with
  | .rd => true
  | .wr | .rmw => w
  | .ex => x

/-- What translating one address came to. -/
inductive Xlat where
  | ok (pa : Nat)
  | cause (c : W8)
  | remote (m : Nat)
  | remoteCause (c : W8)
  | wait (ipa : Nat) (c : W8)
  | busy
  | dead (c : W8)
  deriving DecidableEq, Repr

/-- A full walk of a local address: permission at stage 1 before the last stage-2 step (R305). A page in COMMITTING waits (R317). -/
def fullWalk (s : State) (vf va : Nat) (k : Acc) : Except WalkErr Cached :=
  let pd := (s.vf vf).paddock.toNat
  match stage1 s vf va with
  | .error e => .error e
  | .ok l1 =>
    if !k.permits l1.w l1.x then .error (.bad causePermission)
    else
      match stage2Pa s pd (l1.base + va % l1.size) (some (vf, va / 4096)), stage2Pa s pd l1.entry (some (vf, va / 4096)) with
      | .error e, _ => .error e
      | _, .error e => .error e
      | .ok (l2, pa), .ok (_, e1) =>
        if !k.permits l2.w l2.x then .error (.bad causePermission)
        else if l2.ms = 2 then .error .busy
        else
          let size := min l1.size l2.size
          .ok { vf := vf, va := va - va % size, size := size, pa := pa - pa % size, w := l1.w && l2.w, x := l1.x && l2.x,
                leaf1 := e1, leaf2 := l2.entry, dirty := false, unit := s.unit, at_ := s.bell.toNat }

/-! ### What a walk reads -/

/-- The entries that a walk from a table of the level below `k` reads, to where it stops. -/
def readsOf (rd : Nat → Except WalkErr Nat) (k table a : Nat) : List Nat :=
  match k with
  | 0 => []
  | level + 1 =>
    let ix := a / 2 ^ (12 + 9 * level) % 512
    let at_ := table + 8 * ix
    match rd at_ with
    | .error _ => []
    | .ok e =>
      if !nbit e 0 then [at_]
      else if nbit e 1 then if level = 0 then [at_] else at_ :: readsOf rd level (nbits e 51 12 * 2 ^ 12) a
      else if nbit e 4 && level == 0 then [at_, table + 8 * (ix - ix % 16)]
      else [at_]

/-- The entries that translating an IPA reads at stage 2. -/
def reads2 (s : State) (pd ipa : Nat) : List Nat :=
  (readsOf (fun a => readEntry s true (homePa s a)) 5 (s.pad pd).s2root.toNat (ipa % 2 ^ 52)).map (homePa s)

/-- The entries that a walk of a page reads at both stages, in this module (R305). -/
def walkReads (s : State) (vf va : Nat) : List Nat :=
  let pd := (s.vf vf).paddock.toNat
  let rd (ipa : Nat) : Except WalkErr Nat := do
    let (_, pa) ← stage2Pa s pd ipa
    readEntry s false pa
  let ones := readsOf rd 5 (s.vf vf).s1root.toNat va
  let frame := match stage1 s vf va with | .ok l => reads2 s pd (l.base + va % l.size) | .error _ => []
  ((ones.flatMap fun ipa => reads2 s pd ipa ++ match stage2Pa s pd ipa with | .ok (_, pa) => [pa] | .error _ => []) ++ frame).filter fun a =>
    paClass a != 1

/-- Lines that are read and whose error the code corrects are written back, each counted for the VF (20 R412). -/
def correct (s : State) (vf : Nat) (lines : List Nat) : State :=
  lines.foldl (fun s l => if s.soft.contains l then
      logError ({ s with soft := s.soft.filter fun x => x != l }.count vf 21 1) (128 * l) 1 (BitVec.ofNat 16 vf)
    else s) s

/-! ### Cached translations and walks (R306-R309) -/

/-- An atomic OR of a bit into an entry at its home (R306). -/
def orEntry (s : State) (pa : Nat) (bit : Nat) : State :=
  markMigrating { s with mem := s.mem.set pa (s.mem.get pa ||| BitVec.ofNat 8 (2 ^ bit)) } [(pa, 1)]

/-- A bit of an entry is cleared at its home. -/
def clearEntry (s : State) (pa bit : Nat) : State :=
  markMigrating { s with mem := s.mem.set pa (s.mem.get pa &&& ~~~BitVec.ofNat 8 (2 ^ bit)) } [(pa, 1)]

/-- Sets a bit in leaf entries at their homes, and whether that is done: other modules are asked, and set theirs first (R306). -/
def setBits (s : State) (vf : Nat) (es : List Nat) (bit : Nat) : Bool × State :=
  let far := es.filter fun e => paClass e == 1
  let near (s : State) : State := (es.filter fun e => paClass e != 1).foldl (fun s e => orEntry s e bit) s
  if far.isEmpty then (true, near s)
  else match farDo s (.mark vf far bit) vf (far.map fun e => (0, nbits e 49 42, .atom (BitVec.ofNat 64 e) .or .d (1 <<< bit))) with
    | .wait s => (false, s)
    | .got _ s => (true, near (dropAsks s (.mark vf far bit)))

def Cached.covers (c : Cached) (vf va : Nat) : Bool := c.vf == vf && c.va ≤ va && decide (va < c.va + c.size)

/-- Whether an entry of a TLB yields a physical address for a virtual one. -/
def Cached.gives (c : Cached) (vf va pa : Nat) : Bool := c.covers vf va && c.pa + (va - c.va) == pa

/-- The translation itself, wherever it is cached. -/
def Cached.bare (c : Cached) : Cached := { c with dirty := false, unit := .die, at_ := 0 }

/-- Loads a fresh translation into the TLBs of a unit that missed (R306, R307). -/
def loadCached (c : Cached) (s : State) (u : TlbAt) : State :=
  if s.tlb.any fun d => d.unit == u && d.bare == c.bare then s else { s with tlb := { c with unit := u } :: s.tlb }

/-- The leaf entries in which a write sets D (R306): those of its translation, while no write has gone through it; where that has been dropped since,
those that a walk finds. -/
def cleanLeaves (s : State) (vf : Nat) (x : Nat × Nat) : List Nat :=
  let l := s.tlb.filter fun c => c.gives vf x.1 x.2
  match (l.filter fun c => c.unit == s.unit) ++ l with
  | c :: _ => if c.dirty then [] else [c.leaf1, c.leaf2]
  | [] => match fullWalk s vf x.1 .wr with
    | .ok c => if c.gives vf x.1 x.2 then [c.leaf1, c.leaf2] else []
    | .error _ => []

/-- The translations through which a write goes have been written through. -/
def dirtied (s : State) (vf : Nat) (l : List (Nat × Nat)) : State :=
  { s with tlb := s.tlb.map fun c => if c.unit == s.unit && l.any fun x => c.gives vf x.1 x.2 then { c with dirty := true } else c }

/-- The physical address through a cached entry; a request that its port does not allow ends the context (20 R400). -/
def through (s : State) (vf va : Nat) (k : Acc) (c : Cached) : Xlat × State :=
  let pa := c.pa + (va - c.va)
  if !k.permits c.w c.x then (.cause causePermission, s)
  else if !frameOk s (s.vf vf).paddock.toNat pa k.writes then
    (.dead 0x32, logError s pa ((Config.value32 s.free).setWidth 8) (BitVec.ofNat 16 vf))
  else (.ok pa, s)

/-- Walks that a Paddock may hold at once: ⌊2,048 × cores / 192⌋ (R308). -/
def walkLimit (s : State) (pd : Nat) : Nat :=
  2048 * ((List.range 192).filter fun i => (s.port i).owner.toNat == pd).length / 192

/-- Walks that read entries at other modules, by VF and page. -/
def farWalks (s : State) : List (Nat × Nat) :=
  (s.asks.filterMap fun a => match a.2.who with | .entry vf page _ => some (vf, page) | _ => none).eraseDups

/-- Walkers that a Paddock's walks under way leave. -/
def walkersFree (s : State) (pd : Nat) : Nat :=
  walkLimit s pd - (s.walks.filter fun w => w.paddock == pd).length - ((farWalks s).filter fun w => (s.vf w.1).paddock.toNat == pd).length

/-- Misses of a Paddock that wait for a walker, first come first. -/
def missesOf (s : State) (pd : Nat) : List Miss := s.misses.filter fun m => m.paddock == pd && !(farWalks s).contains (m.vf, m.page)

/-- Whether a miss is that of a page. -/
def Miss.isOf (m : Miss) (vf page : Nat) : Bool := m.vf == vf && m.page == page

/-- The units that the walk of a page serves. -/
def unitsOf (s : State) (vf page : Nat) : List TlbAt := (s.unit :: (s.misses.filter fun m => m.isOf vf page).flatMap (·.units)).eraseDups

/-- A miss takes its place among those of its Paddock, or joins that of its page. -/
def addMiss (s : State) (vf page : Nat) : State :=
  if s.misses.any fun m => m.isOf vf page then
    { s with misses := s.misses.map fun m => if m.isOf vf page && !m.units.contains s.unit then { m with units := m.units ++ [s.unit] } else m }
  else { s with misses := s.misses ++ [{ paddock := (s.vf vf).paddock.toNat, vf := vf, page := page, units := [s.unit] }] }

def dropMiss (s : State) (vf page : Nat) : State := { s with misses := s.misses.filter fun m => !m.isOf vf page }

/-- A walk waits for the host, to whom it is posted once (R312). -/
def hostWait (s : State) (units : List TlbAt) (vf va ipa : Nat) (c : W8) : State :=
  if s.walks.any fun w => w.vf == vf && w.page == va / 4096 then s
  else
    let pd := (s.vf vf).paddock.toNat
    let w : Walk := { vf := vf, page := va / 4096, paddock := pd, ipa := ipa, cause := c, since := s.bell.toNat, units := units }
    postEvent { s with walks := s.walks ++ [w] } pd 2 c.toNat vf 0 ipa

/-- A miss joins a walk that waits: it takes what the walk finds. -/
def joinWalk (s : State) (w : Walk) : State :=
  if w.units.contains s.unit then s
  else { s with walks := s.walks.map fun x => if x == w then { x with units := x.units ++ [s.unit] } else x }

/-- A walk is over: it waits no longer, and what it has read at other modules is needed no longer. -/
def endWalk (s : State) (vf va : Nat) : State :=
  { dropMiss s vf (va / 4096) with asks := s.asks.filter fun a => match a.2.who with | .entry v p _ => !(v == vf && p == va / 4096) | _ => true }

/-- A walk: counted where a miss starts it, with the entries that it reads; its result is loaded for every unit that it serves, with A set in both
leaves first, reported, or waits for the host; entries at other modules are asked for (R305-R308, R312). `again` says that one restarts. -/
def startWalk (s : State) (vf va : Nat) (k : Acc) (again : Bool := false) : Xlat × State :=
  let lines := (walkReads s vf va).map (· / 128)
  let units := unitsOf s vf (va / 4096)
  let walked (s : State) : State :=
    endWalk (correct { s.count vf 18 (if again then 0 else 1) with uses := s.uses ++ .walk vf :: lines.map (.table vf) } vf lines.eraseDups) vf va
  match fullWalk s vf va k with
  | .ok c => match setBits s vf [c.leaf1, c.leaf2] 5 with
    | (true, s) => through (units.foldl (loadCached c) (walked s)) vf va k c
    | (false, s) => (.busy, s)
  | .error (.bad c) => (.cause c, walked s)
  | .error .busy => (.busy, s)
  | .error (.away pa) =>
    (.busy, ask s (.entry vf (va / 4096) pa) vf 0 (nbits pa 49 42) .once [(0, .read (BitVec.ofNat 64 pa) 8)])
  | .error (.ecc st pa) => (.dead (if st then cTableError else 0x40), logError (walked s) pa 2 (BitVec.ofNat 16 vf))
  | .error (.host ipa c) => (.wait ipa c, hostWait (walked s) units vf va ipa c)

/-- A miss joins the walk of its page that waits, starts one, or waits for a walker in its turn (R308). -/
def miss (s : State) (vf va : Nat) (k : Acc) : Xlat × State :=
  let pd := (s.vf vf).paddock.toNat
  match s.walks.find? fun w => w.vf == vf && w.page == va / 4096 with
  | some w => (.wait w.ipa w.cause, joinWalk s w)
  | none =>
    let s := addMiss s vf (va / 4096)
    let mine := s.asks.filter fun a => match a.2.who with | .entry v p _ => v == vf && p == va / 4096 | _ => false
    let turn := if mine.isEmpty then ((missesOf s pd).take (walkersFree s pd)).any fun m => m.isOf vf (va / 4096)
      else mine.all fun a => a.2.ans.isSome
    if turn then startWalk s vf va k else (.busy, s)

/-- A walk that waited for the host restarts (R312): what it finds goes to every unit that it serves, or it waits again; a fault those that
joined meet when they go on. -/
def restartWalk (s : State) (w : Walk) : State :=
  let t := { s with walks := s.walks.erase w, unit := w.units.headD .die }
  let m : Miss := { paddock := w.paddock, vf := w.vf, page := w.page, units := w.units }
  match startWalk { t with misses := t.misses ++ [m] } w.vf (4096 * w.page) .rd true with
  | (.ok _, u) | (.wait _ _, u) | (.busy, u) => { u with unit := s.unit }
  | _ => { t with unit := s.unit }

/-- The translation of an address in the tables of a VF of this module, through the TLBs of the unit that asks (R301-R309). They may hold several
translations of a page between a change of a valid entry and `tlbinv`; which of them, or the new one, is used is free (log entry 6). A miss takes
what a walk of this moment has found for another unit (R308). -/
def look (s : State) (vf va : Nat) (k : Acc) : Xlat × State :=
  let old := s.tlb.filter fun c => c.unit == s.unit && c.covers vf va
  match old with
  | [] => match s.tlb.find? fun c => c.covers vf va && c.at_ == s.bell.toNat with
    | some c => through { s with tlb := { c with unit := s.unit, dirty := false } :: s.tlb } vf va k c
    | none => miss s vf va k
  | c :: _ =>
    let now := match fullWalk s vf va k with | .ok d => some d.bare | .error _ => none
    if old.all fun x => some x.bare == now then through s vf va k c
    else
      let i := Config.pick s.free % (old.length + 1)
      let s := { s with free := s.free + 1 }
      match old[i]? with
      | some x => through s vf va k x
      | none => miss s vf va k

/-- What a request that has translated meets in this module's memory: an uncorrectable line, which ends the context, lines that are
corrected; its line accesses are counted, at L1 where it goes through one (20 R412, 22 R425). -/
def meet (s : State) (vf : Nat) (k : Acc) (l1 : Bool) : List (Nat × Nat) → Option W8 × State
  | [] => (none, s)
  | (pa, n) :: rest =>
    if k != .wr && lineIn s.ecc pa n then (some 0x40, logError s pa 2 (BitVec.ofNat 16 vf))
    else
      let s := correct s vf (linesOf pa n)
      meet { s with uses := s.uses ++ (linesOf pa n).map fun l => .line vf l (k == .wr) l1 } vf k l1 rest

/-! ### Addresses of a VF -/

/-- NONCANONICAL (R301). -/
def noncanonical (s : State) (vf va : Nat) : Bool :=
  decide (2 ^ 57 ≤ va) || (isDomain va && (s.bound vf (domainModule va)).isNone)

/-- Translates a `.g` address of a VF (R301, R310). -/
def seek (s : State) (vf va : Nat) (k : Acc) : Xlat × State :=
  if noncanonical s vf va then (.cause causeNoncanonical, s)
  else if !isDomain va then look s vf va k
  else if domainModule va = s.me then
    match look s vf va k with
    | (.cause c, s) => (.remoteCause c, s)
    | r => r
  else (.remote (domainModule va), s)

/-- An access whose translations are at hand: its ports are checked once more, it waits for engine operations, sets D, and may end the context (R306,
12 R285, 20 R400, R412). `l1` says whether it goes through an L1, `walks` whether it is a traversal's to its own record. -/
def arriveAll (s : State) (vf : Nat) (k : Acc) (order : Option Nat) (vas : List Nat) (ps : List (Nat × Nat)) (l1 : Bool := false)
    (walks : Bool := false) : Option Xlat × State :=
  let mine := ps.filter fun p => paClass p.1 != 1
  let shut (p : Nat × Nat) : Bool := vf != noVf && !frameOk s (s.vf vf).paddock.toNat p.1 k.writes
  match mine.find? shut with
  | some p => (some (.dead 0x32), logError s p.1 ((Config.value32 s.free).setWidth 8) (BitVec.ofNat 16 vf))
  | none =>
    let l := vas.zip (ps.map (·.1))
    let es := if k.writes then (l.flatMap (cleanLeaves s vf)).eraseDups else []
    if owned s order mine walks || owned s none ((es.filter fun e => paClass e != 1).map fun e => (e, 8)) then (some .busy, s)
    else match setBits s vf es 6 with
      | (false, s) => (some .busy, s)
      | (true, s) => match meet s vf k l1 mine with
        | (some c, s) => (some (.dead c), s)
        | (none, s) => (none, if k.writes then dirtied s vf l else s)

/-- Translates an access of `n` bytes within a page, and meets its memory. -/
def translate (s : State) (vf va n : Nat) (k : Acc) : Xlat × State :=
  match seek s vf va k with
  | (.ok pa, s) => match arriveAll s vf k none [va] [(pa, n)] with
    | (some x, s) => (x, s)
    | (none, s) => (.ok pa, s)
  | r => r

/-! ### Accesses of the device through a VF's tables -/

/-- The pieces of a range, cut at 4 KiB. -/
def pieces (a n : Nat) : Nat → List (Nat × Nat)
  | 0 => []
  | fuel + 1 =>
    if n = 0 then []
    else
      let k := min n (4096 - a % 4096)
      (a, k) :: pieces (a + k) (n - k) fuel

/-- The pieces of a range of the address space. -/
def pagesOf (a n : Nat) : List (Nat × Nat) := pieces a n (n / 4096 + 2)

/-- Where each page of a range lies, here or at another module; the first failure with its address. -/
def seekAll (s : State) (vf : Nat) (k : Acc) : List (Nat × Nat) → Except (Nat × Xlat) (List (Loc × Nat)) × State
  | [] => (.ok [], s)
  | (a, n) :: rest =>
    let next (l : Loc) (s : State) : Except (Nat × Xlat) (List (Loc × Nat)) × State :=
      match seekAll s vf k rest with
      | (.ok ps, s) => (.ok ((l, n) :: ps), s)
      | e => e
    match seek s vf a k with
    | (.ok pa, s) => next (locOf pa) s
    | (.remote m, s) => next (.dom m a) s
    | (x, s) => (.error (a, x), s)

/-- The physical pieces of places, with the virtual addresses of the pages they lie in; those of other modules by their frames. -/
def physPages (l : List (Nat × Nat)) (ps : List (Loc × Nat)) : List (Nat × Nat × Nat) :=
  (l.zip ps).filterMap fun x => match x.2.1 with
    | .pa a | .far _ a => some (x.1.1, a, x.2.2)
    | _ => none

/-- What an access of the device for a VF came to: done, a page that fails, a wait for the host, a walker or an engine, or the end of the
context (14 R312, 20 R400, R412). -/
inductive Dev (α : Type) where
  | ok (a : α)
  | fail
  | wait
  | dead (c : W8)

def devOf {α : Type} : Xlat → Dev α
  | .wait _ _ | .busy => .wait
  | .dead c => .dead c
  | _ => .fail

/-- An access of the device to a range of a VF: what lies at other modules is asked for there, and awaited, before the rest is met here (R302, R310,
R312). `op` makes the operation of a page, by its number, from its address there. -/
def State.devAt (s : State) (who : Asker) (vf : Nat) (k : Acc) (l : List (Nat × Nat)) (op : Nat → W64 → RemoteOp) (order : Option Nat := none)
    (walks : Bool := false) : Except (Nat × Xlat) (List (Loc × Nat) × List (Nat × PieceAnswer)) × State :=
  match seekAll s vf k l with
  | (.error e, s) => (.error e, match e.2 with | .wait _ _ | .busy => s | _ => dropAsks s who)
  | (.ok ps, s) =>
    let at_ := physPages l ps
    let here (s : State) (ans : List (Nat × PieceAnswer)) : Except (Nat × Xlat) (List (Loc × Nat) × List (Nat × PieceAnswer)) × State :=
      match arriveAll s vf k order (at_.map (·.1)) (at_.map (·.2)) false walks with
      | (some x, s) => (.error ((l.headD (0, 0)).1, x), s)
      | (none, s) => (.ok (ps, ans), dropAsks s who)
    let far := (ps.zip (List.range ps.length)).filterMap fun p => p.1.1.away.map fun a => (p.2, a.1, op p.2 a.2)
    if far.isEmpty then here s []
    else match farDo s who vf far with
      | .wait s => (.error ((l.headD (0, 0)).1, .busy), s)
      | .got ans s => match ans.findSome? fun a => match a.2 with | .cause c => some (a.1, c) | _ => none with
        | some (i, c) => (.error ((l.getD i (0, 0)).1, .remoteCause c), dropAsks s who)
        | none => here s ans

/-- The bytes of places: read here, or from answers by the number of the place. -/
def readAll (s : State) (ans : List (Nat × PieceAnswer)) (ps : List (Loc × Nat)) : List W8 :=
  (ps.zip (List.range ps.length)).flatMap fun p => match p.1.1 with
    | .pa a => s.mem.read a p.1.2
    | _ => pieceData ans p.2 p.1.2

/-- Writes bytes at places, those of this module. -/
def writeAllAt (s : State) : List (Loc × Nat) → List W8 → State
  | [], _ => s
  | (.pa a, n) :: rest, d => writeAllAt (s.writePa [(a, n)] (d.take n)) rest (d.drop n)
  | (_, n) :: rest, d => writeAllAt s rest (d.drop n)

/-- The part of a range's bytes in its page of a number. -/
def pagePart (va : Nat) (l : List (Nat × Nat)) (d : List W8) (i : Nat) : List W8 :=
  match l[i]? with
  | some p => (d.drop (p.1 - va)).take p.2
  | none => []

/-- Reads `n` bytes at a virtual address of a VF. -/
def State.devRead (s : State) (vf va n : Nat) : Dev (List W8) × State :=
  let l := pagesOf va n
  match s.devAt (.dev vf va n none) vf .rd l fun i a => .read a (l.getD i (0, 0)).2 with
  | (.ok (ps, ans), s) => (.ok (readAll s ans ps), s)
  | (.error (_, x), s) => (devOf x, s)

/-- Writes bytes at a virtual address of a VF. -/
def State.devWrite (s : State) (vf va : Nat) (d : List W8) : Dev Unit × State :=
  let l := pagesOf va d.length
  match s.devAt (.dev vf va d.length (some d)) vf .wr l fun i a => .write a (pagePart va l d i) with
  | (.ok (ps, _), s) => (.ok (), writeAllAt s ps d)
  | (.error (_, x), s) => (devOf x, s)

/-- What a step of several accesses has read or written elsewhere stands where one of them waits: the step is tried again. -/
def keepAsks (s t : State) : State :=
  (s.asks.filter fun a => match a.2.who with | .dev _ _ _ _ => a.2.ans.isSome && (t.asks.get a.1).isNone | _ => false).foldl
    (fun t a => { t with asks := t.asks.put a.1 a.2 }) t

/-- The bytes of a device read that is done at once. -/
def State.vfRead (s : State) (vf va n : Nat) : Option (List W8) × State :=
  match s.devRead vf va n with
  | (.ok d, s) => (some d, s)
  | (_, s) => (none, s)

/-- The state after a device write that is done at once. -/
def State.vfWrite (s : State) (vf va : Nat) (d : List W8) : Option State :=
  match s.devWrite vf va d with
  | (.ok _, s) => some s
  | _ => none

/-- Drops cached translations (08 R232). -/
def State.dropTlb (s : State) (f : Cached → Bool) : State := { s with tlb := s.tlb.filter fun c => !f c }

end Sys2Proof.Machine
end

