-- ==== Sys2Proof/Machine/Paths.lean ====
section
/-! DEFINITION. The path table and join store of a group: live slots, splits, arrivals, merges, serial mode, lanes that end (04
R98-R104, 10 R249-R251). -/

namespace Sys2Proof.Machine

/-- The sixteen join records. -/
def allJoins : List (BitVec 4) := [0, 1, 2, 3, 4, 5, 6, 7, 8, 9, 10, 11, 12, 13, 14, 15]

def Group.setPath (g : Group) (i : BitVec 3) (p : Path) : Group := { g with paths := g.paths.wr i (some p) }
def Group.freePath (g : Group) (i : BitVec 3) : Group := { g with paths := g.paths.wr i none }

/-- Whether the path holds a live slot (R249). -/
def Group.live (g : Group) (i : BitVec 3) : Bool := g.slotA == some i || g.slotB == some i

/-- The path gives up its slot, if it holds one. -/
def Group.unslot (g : Group) (i : BitVec 3) : Group :=
  { g with slotA := if g.slotA == some i then none else g.slotA, slotB := if g.slotB == some i then none else g.slotB }

/-- Takes the slot that path `j` holds, for path `i`. -/
def Group.takeSlotOf (g : Group) (j i : BitVec 3) : Group :=
  { g with slotA := if g.slotA == some j then some i else g.slotA, slotB := if g.slotB == some j then some i else g.slotB }

/-- The path leaves the FIFO, if it waits there. -/
def Group.unqueue (g : Group) (i : BitVec 3) : Group := { g with fifo := g.fifo.filter (· != i) }

/-- The path enters the FIFO at its tail; its lookahead windows are dropped (R249, R253). -/
def Group.enqueue (g : Group) (i : BitVec 3) : Group :=
  match g.paths.rd i with
  | some p => { g.setPath i { p with win := [] } with fifo := (g.unqueue i).fifo ++ [i] }
  | none => g

/-- The path at the head of the FIFO takes an empty slot, outside serial mode (R249). -/
def Group.fill (g : Group) : Group :=
  match g.ser, g.fifo with
  | none, i :: rest =>
    if g.slotA.isNone then { g with slotA := some i, fifo := rest }
    else if g.slotB.isNone then { g with slotB := some i, fifo := rest }
    else g
  | _, _ => g

def Group.canFill (g : Group) : Bool := g.ser.isNone && !g.fifo.isEmpty && (g.slotA.isNone || g.slotB.isNone)

/-- Writes a scalar register and marks it written; s0 discards the write (01 R8, 04 R98). -/
def Path.setS (p : Path) (n : SReg) (v : W64) : Path :=
  if n = 0 then p else { p with s := p.s.wr n v, written := p.written ||| (1#64 <<< n.toNat) }

/-- Reads a scalar register (01 R8). -/
def Path.getS (p : Path) (n : SReg) : W64 := if n = 0 then 0 else p.s.rd n

/-! ### Merges (R101) -/

/-- The scalar sn of the merged path. -/
def mergeReg (base : Bank 6 W64) (arr : List Arrival) (n : SReg) : W64 :=
  let ws := arr.filter fun a => a.written.getLsbD n.toNat
  match ws with
  | [] => base.rd n
  | a :: rest => (rest.foldl (fun b c => if c.mask.low.toNat < b.mask.low.toNat then c else b) a).s.rd n

def mergeRegs (base : Bank 6 W64) (arr : List Arrival) : Bank 6 W64 := Bank.gen (mergeReg base arr)

def mergeWritten (baseW : W64) (arr : List Arrival) : W64 := arr.foldl (fun w a => w ||| a.written) baseW

/-- A merged path takes the largest step count (21 R417). -/
def mergeSteps (arr : List Arrival) : Nat := arr.foldl (fun n a => max n a.stepN) 0

/-- A path at user level that a merge makes. -/
def Path.merged (mask : Mask) (pc : W64) (rcv : Option W64) (depth : Nat) (join : Option (BitVec 4)) (s : Bank 6 W64)
    (written : W64) (stepN : Nat) : Path :=
  { mask := mask, pc := pc, rcv := rcv, depth := depth, join := join, s := s, written := written, st := .ready, sup := false,
    fcause := 0, fpc := 0, entry := none, win := [], stepN := stepN, skipBp := false, age := 0, young := false, stopped := none,
    tried := [], again := none, code := [], lost := none, atFrame := none, hold := false }

/-- Engine work of some lanes of a merged path stands before everything the path does (R101, 12 R284). -/
def Group.widenOwn (g : Group) (m : Mask) : Group :=
  let w (o : Mask) : Mask := if o &&& m = 0 then o else o ||| m
  { g with ops := g.ops.map fun o => { o with own := w o.own },
           copies := Bank.gen fun d => { g.copies.rd d with own := w (g.copies.rd d).own } }

/-- Record `j` merges into entry `i`, which takes the slot that `i` held, or else the FIFO's tail (R101, R250). -/
def Group.mergeInto (g : Group) (j : BitVec 4) (i : BitVec 3) : Group :=
  match g.joins.rd j with
  | none => g
  | some r =>
    let p := Path.merged r.arrived r.npc r.prcv r.pdepth r.pjoin (mergeRegs r.base r.arr) (mergeWritten r.baseW r.arr) (mergeSteps r.arr)
    let g' := { (g.widenOwn r.arrived).setPath i p with joins := g.joins.wr j none }
    if g.live i then g' else g'.enqueue i

/-- Records that nothing is owed to: freed where nothing arrived, merged into entry `i` otherwise (R102). -/
def Group.settle (g : Group) (i : BitVec 3) : List (BitVec 4) → Group
  | [] => g
  | j :: rest =>
    match g.joins.rd j with
    | some r =>
      if r.owed = 0 then
        if r.arrived = 0 then Group.settle { g with joins := g.joins.wr j none } i rest
        else Group.settle (g.mergeInto j i) i rest
      else Group.settle g i rest
    | none => Group.settle g i rest

/-! ### Serial mode (R103) -/

/-- The next lane run, or the merge after the last. The path keeps its entry and its slot. Nothing where no lane reached RS. During a run RCV is
clear, and JOIN and DEPTH are P's: DESIGN CHOICE, R103 gives them for the merged path alone (log entry 22). -/
def Group.serialNext (g : Group) (z : Serial) (p : Path) : Option Group :=
  if z.todo = 0 then
    if z.arr.isEmpty then none
    else
      let mask := z.arr.foldl (fun m a => m ||| a.mask) 0
      let m := Path.merged mask z.npc z.rcv z.depth z.join (mergeRegs z.base z.arr) (mergeWritten z.baseW z.arr)
        (mergeSteps z.arr)
      some { (g.widenOwn mask).setPath z.p { m with sup := z.sup, fcause := z.fcause, fpc := z.fpc, entry := p.entry } with ser := none }
  else
    let l := z.todo.low
    some { g.setPath z.p { p with mask := Mask.one l, pc := z.next.rd l, rcv := none, s := z.base, written := 0, st := .ready,
                                  sup := z.sup, fcause := z.fcause, fpc := z.fpc, entry := if z.sup then p.entry else none,
                                  win := [], stopped := none, tried := [], stepN := z.steps } with
           ser := some { z with todo := z.todo &&& ~~~(Mask.one l) } }

/-- The other live paths, which a split or serial mode parks: those in the slots, unless they run a handler (R99, R103). Two are there
only where a change of the sibling in the same cycle has parked path `i` itself (R104); they are parked in the order of the slots. -/
def Group.siblings (g : Group) (i : BitVec 3) : List (BitVec 3) :=
  ([g.slotA, g.slotB].filterMap id).filter fun k => k != i && match g.paths.rd k with
    | some q => !q.sup
    | none => false

/-- Enters serial mode at a branch of path `i` (R103). -/
def Group.enterSerial (g : Group) (i : BitVec 3) (p : Path) (next : Lanes W64) (rs : W64) : Group :=
  let z : Serial :=
    { p := i, rs := rs, lanes := p.mask, next := next, todo := p.mask, rcv := p.rcv, join := p.join, depth := p.depth, base := p.s,
      baseW := p.written, sup := p.sup, fcause := p.fcause, fpc := p.fpc, arr := [], npc := 0, steps := p.stepN }
  let park (g : Group) (k : BitVec 3) : Group :=
    match g.paths.rd k with
    | some q => { (g.unslot k).setPath k { q with win := [] } with fifo := k :: g.fifo }
    | none => g
  let g := ((g.siblings i).reverse.foldl park g).unqueue i
  let g := if g.live i then g else if g.slotA.isNone then { g with slotA := some i } else { g with slotB := some i }
  let g := { g with ser := some z }
  (g.serialNext z p).getD g

/-! ### Splits (R99, R100) -/

/-- The children of a split by equal targets: target and lanes, in ascending order of the lowest lane (R114). -/
def splitChildren (m : Mask) (next : Lanes W64) : List (W64 × Mask) :=
  m.lanes.foldl (fun cs l =>
    let t := next.rd l
    if cs.any fun c => c.1 == t then cs.map fun c => if c.1 == t then (c.1, c.2 ||| Mask.one l) else c
    else cs ++ [(t, Mask.one l)]) []

def Group.freeEntries (g : Group) : List (BitVec 3) := allPaths.filter fun i => (g.paths.rd i).isNone
/-- The join record that a split takes: of several free ones the one of lowest index, DESIGN CHOICE: R99 says only that it is free (log entry
45). -/
def Group.freeJoin (g : Group) : Option (BitVec 4) := allJoins.find? fun j => (g.joins.rd j).isNone

/-- A child of a split: P's scalars, an empty written set, its own lanes and target (R99). -/
def Path.child (p : Path) (j : BitVec 4) (rs : W64) (c : W64 × Mask) : Path :=
  { p with mask := c.2, pc := c.1, rcv := some rs, depth := p.depth + 1, join := some j, written := 0, win := [], age := 0,
           tried := [], stopped := none, skipBp := false, again := none, code := [], lost := none, atFrame := none }

/-- The children take the slots that remain, in order; the others wait (R99, R249). -/
def Group.seat (g : Group) : List (BitVec 3) → Group
  | [] => g
  | i :: rest =>
    if g.slotA.isNone then Group.seat { g with slotA := some i } rest
    else if g.slotB.isNone then Group.seat { g with slotB := some i } rest
    else Group.seat (g.enqueue i) rest

/-- Whether path `p` can split into `k` children (R100). -/
def Group.splits (g : Group) (p : Path) (k : Nat) : Bool :=
  g.freeJoin.isSome && decide (p.depth < 16) && decide (k ≤ g.freeEntries.length + 1) && !p.sup

/-- The entries of the children of path `i`: its own, and free ones in ascending index. -/
def Group.childEntries (g : Group) (i : BitVec 3) (k : Nat) : List (BitVec 3) := i :: g.freeEntries.take (k - 1)

/-- The split of path `i` with join record `j` (R99). In serial mode every child is parked (R104). -/
def Group.split (g : Group) (i : BitVec 3) (p : Path) (j : BitVec 4) (cs : List (W64 × Mask)) (rs : W64) : Group :=
  let r : Join := { prcv := p.rcv, pjoin := p.join, pdepth := p.depth, base := p.s, baseW := p.written, owed := p.mask,
                    arrived := 0, arr := [], npc := 0 }
  let ids := g.childEntries i cs.length
  let sibs := g.siblings i
  let g := { g with joins := g.joins.wr j (some r) }
  let g := (ids.zip cs).foldl (fun g c => g.setPath c.1 (p.child j rs c.2)) g
  if g.ser.isSome then ids.foldl Group.enqueue (g.unslot i)
  else
    let g := sibs.foldl (fun g k => (g.unslot k).enqueue k) g
    if g.live i then g.seat (ids.drop 1) else (g.unqueue i).seat ids

/-- Path `i` diverges into children `cs`, its lanes to `next`, reconverging at `rs`: a split, or serial mode (R99, R100, R103). -/
def Group.diverge (g : Group) (i : BitVec 3) (p : Path) (cs : List (W64 × Mask)) (next : Lanes W64) (rs : W64) : Group :=
  match g.freeJoin with
  | some j => if g.splits p cs.length then g.split i p j cs rs else g.enterSerial i p next rs
  | none => g.enterSerial i p next rs

/-! ### Arrivals and lanes that end -/

def Path.arrival (p : Path) : Arrival := { mask := p.mask, s := p.s, written := p.written, stepN := p.stepN }

/-- The path in entry `i` arrives at record `j` (R101). -/
def Group.arrive (g : Group) (i : BitVec 3) (p : Path) (j : BitVec 4) (npc : W64) : Group :=
  match g.joins.rd j with
  | none => g
  | some r =>
    let r' : Join := { r with owed := r.owed &&& ~~~p.mask, arrived := r.arrived ||| p.mask, arr := r.arr ++ [p.arrival], npc := npc }
    let g := { g.freePath i with joins := g.joins.wr j (some r') }
    if r'.owed = 0#8 then g.mergeInto j i else (g.unslot i).unqueue i

/-- Lanes leave OWED of every join record (R102). -/
def Group.unowe (g : Group) (m : Mask) : Group :=
  { g with joins := Bank.gen fun j => (g.joins.rd j).map fun r => { r with owed := r.owed &&& ~~~m } }

/-- What became of a path whose lanes ended: it goes on, it or its lane run is over, or its waiting lanes return as `fret` would (08
R220). -/
inductive Ended where
  | on (g : Group)
  | over (g : Group)
  | back (g : Group)
  deriving DecidableEq, Repr

/-- The entry of a path is over: freed, its slot given to a merge that this completes (R102, R250), the FIFO free of it. -/
def Group.overPath (g : Group) (i : BitVec 3) : Group :=
  let g := (g.freePath i).settle i allJoins
  if (g.paths.rd i).isSome then g else (g.unslot i).unqueue i

/-- Lanes of path `i` end, by `exit` or switched off (R102, R103, 12 R274). -/
def Group.endLanes (g : Group) (i : BitVec 3) (m : Mask) : Ended :=
  match g.paths.rd i with
  | none => .on g
  | some p =>
    let m := m &&& p.mask
    let g := (if p.entry.isSome then g.widenOwn (p.mask ||| (match p.entry with | some e => e.mask | none => 0)) else g).unowe m
    let p := { p with mask := p.mask &&& ~~~m, entry := p.entry.map fun e => { e with mask := e.mask &&& ~~~m } }
    if p.mask ≠ 0 then .on (g.setPath i p)
    else
      let waiting := match p.entry with | some e => e.mask != 0 | none => false
      match g.ser with
      | some z =>
        if z.p = i && (z.sup == p.sup) then
          match g.serialNext z p with
          | some g => .on g
          | none =>
            if waiting then .back { g.setPath i p with ser := none }
            else .over ({ g with ser := none }.overPath i)
        else if waiting then .back (g.setPath i p)
        else if z.p = i then
          match g.serialNext z p with
          | some g => .on g
          | none => .over ({ g with ser := none }.overPath i)
        else .over (g.overPath i)
      | none => if waiting then .back (g.setPath i p) else .over (g.overPath i)

/-! ### Lookups by reference -/

def State.group (s : State) (h : Nat) : Option Group := s.groups.get h
def State.setGroup (s : State) (h : Nat) (g : Group) : State := { s with groups := s.groups.put h g }
def State.team (s : State) (h : Nat) : Option Team := s.teams.get h
def State.setTeam (s : State) (h : Nat) (t : Team) : State := { s with teams := s.teams.put h t }
def State.grid (s : State) (h : Nat) : Option Grid := s.grids.get h
def State.setGrid (s : State) (h : Nat) (d : Grid) : State := { s with grids := s.grids.put h d }
def State.cluster (s : State) (h : Nat) : Option Cluster := s.clusters.get h
def State.setCluster (s : State) (h : Nat) (c : Cluster) : State := { s with clusters := s.clusters.put h c }

/-- The group and path that a reference names. -/
def State.path (s : State) (r : PathRef) : Option (Group × Path) :=
  match s.group r.g with
  | some g => match g.paths.rd r.p with
    | some p => some (g, p)
    | none => none
  | none => none

def State.setPath (s : State) (r : PathRef) (p : Path) : State :=
  match s.group r.g with
  | some g => s.setGroup r.g (g.setPath r.p p)
  | none => s

/-- The grid and VF of a group. -/
def State.gridOf (s : State) (g : Group) : Option Grid := (s.team g.team).bind fun t => s.grid t.grid
def State.vfOf (s : State) (g : Group) : Nat := match s.gridOf g with | some d => d.vf | none => 0

/-- The core a group is on. -/
def State.coreOf (s : State) (g : Group) : Option Nat := (s.team g.team).bind (·.core)

def State.cycle (s : State) (core : Nat) : Nat := (s.cycles.get core).getD 0

end Sys2Proof.Machine
end

