-- ==== Sys2Proof/Machine/Remote.lean ====
section
/-! DEFINITION. Bytes where an access lands, and the requests that go to other modules for those that lie there (14 R302, R310, 16
R347). -/

namespace Sys2Proof.Machine

/-! ### Bytes at a place -/

def State.readLoc (s : State) (l : Loc) (n : Nat) : List W8 :=
  match l with
  | .pa a => s.mem.read a n
  | .team t off => match s.team t with | some x => x.shared.read off n | none => zeros n
  | .scratch d off => match s.grid d with | some x => x.scratch.read off n | none => zeros n
  | .fold off => s.fold.read off n
  | .dom _ _ | .far _ _ | .bad _ => zeros n

/-- Whether a word of SRAM overlaps `n` bytes at a place, and whether they cover it. -/
def Loc.meets (w l : Loc) (n : Nat) : Bool :=
  match w, l with
  | .team t o, .team u p => t == u && decide (o < p + n) && decide (p < o + 8)
  | .scratch t o, .scratch u p => t == u && decide (o < p + n) && decide (p < o + 8)
  | .fold o, .fold p => decide (o < p + n) && decide (p < o + 8)
  | _, _ => false

def Loc.covered (w l : Loc) (n : Nat) : Bool :=
  match w, l with
  | .team _ o, .team _ p => w.meets l n && decide (p ≤ o) && decide (o + 8 ≤ p + n)
  | .scratch _ o, .scratch _ p => w.meets l n && decide (p ≤ o) && decide (o + 8 ≤ p + n)
  | .fold o, .fold p => w.meets l n && decide (p ≤ o) && decide (o + 8 ≤ p + n)
  | _, _ => false

/-- Words of SRAM that a write covers hold no error (20 R412). -/
def State.freshen (s : State) (l : Loc) (n : Nat) : State :=
  { s with sram := s.sram.filter fun e => match e.at_ with | .word w => !w.covered l n | .reg _ _ => true }

/-- What a VF's request meets in SRAM: an error that its code only detects, which ends the context; others are corrected (20 R412). -/
def sramMeet (s : State) (vf : Nat) (hit : SramAt → Bool) : Option W8 × State :=
  let es := s.sram.filter fun e => hit e.at_
  let log (kind : W8) (s : State) : State := logError { s with free := s.free + 1 } (Config.value64 s.free).toNat kind (BitVec.ofNat 16 vf)
  if es.any (·.hard) then (some 0x40, log 2 s)
  else (none, es.foldl (fun s e => log 1 ({ s with sram := s.sram.erase e }.count vf 21 1)) s)

/-- Places of a read in SRAM. -/
def sramLocs (s : State) (vf : Nat) (l : List (Loc × Nat)) : Option W8 × State :=
  sramMeet s vf fun a => match a with | .word w => l.any fun p => w.meets p.1 p.2 | .reg _ _ => false

def State.writeLoc (s : State) (l : Loc) (d : List W8) : State :=
  let s := s.freshen l d.length
  match l with
  | .pa a => s.writePa [(a, d.length)] d
  | .team t off => match s.team t with | some x => s.setTeam t { x with shared := x.shared.write off d } | none => s
  | .scratch k off => match s.grid k with | some x => s.setGrid k { x with scratch := x.scratch.write off d } | none => s
  | .fold off => { s with fold := s.fold.write off d }
  | .dom _ _ | .far _ _ | .bad _ => s

def State.readLocs (s : State) : List (Loc × Nat) → List W8
  | [] => []
  | (l, n) :: rest => s.readLoc l n ++ State.readLocs s rest

def State.writeLocs (s : State) : List (Loc × Nat) → List W8 → State
  | [], _ => s
  | (l, n) :: rest, d => State.writeLocs (s.writeLoc l (d.take n)) rest (d.drop n)

/-- A place by its pieces. -/
def Place.of (l : List (Loc × Nat)) : Place :=
  if l.any fun x => match x.1 with | .dom _ _ | .far _ _ | .bad _ => true | _ => false then .remote l else .here l

def Place.isRemote (p : Place) : Bool := match p with | .here _ => false | .remote _ => true

/-! ### Requests under way (16 R347) -/

/-- What one asker waits for is another's. -/
def handAsks (s : State) (a b : Asker) : State :=
  { s with asks := s.asks.map fun e => if e.2.who == a then (e.1, { e.2 with who := b }) else e }

/-- Gives up what other modules hold for some requests (14 R310). -/
def cancelThese (s : State) (l : List (Nat × Ask)) : State :=
  l.foldl (fun s e => if e.2.holds then tell s e.2.vf e.2.dest (.cancel e.2.of) [] else s) { s with asks := s.asks.filter fun e => !l.contains e }

def cancelAsks (s : State) (who : Asker) : State := cancelThese s (asksOf s who)

/-- What other modules hold for some requests is performed there. -/
def goAsks (s : State) (who : Asker) (g : Nat) (keep : Bool := false) : State :=
  (asksOf s who).foldl (fun s e => if e.2.holds then ask s who e.2.vf g e.2.dest (.go e.2.of) [] keep else s) (dropAsks s who)

/-- A piece of a list of places: its key, its place's number, its offset there, where it lies, and its length. -/
structure Piece where
  key : Nat
  ix : Nat
  off : Nat
  loc : Loc
  len : Nat

/-- The pieces of places, numbered in order. -/
def numbered (ps : List Place) : List Piece :=
  let rec go (key ix : Nat) : List Place → List Piece
    | [] => []
    | p :: rest =>
      let l := (p.all.foldl (fun (x : List Piece × Nat × Nat) e =>
        (x.1 ++ [{ key := x.2.1, ix := ix, off := x.2.2, loc := e.1, len := e.2 }], x.2.1 + 1, x.2.2 + e.2)) ([], key, 0)).1
      l ++ go (key + p.all.length) (ix + 1) rest
  go 0 0 ps

/-- Keyed locations of other modules, by module, with their addresses there. -/
def byModule (l : List (Nat × Loc)) : List (Nat × List (Nat × W64)) :=
  let l := l.filterMap fun p => p.2.away.map fun a => (a.1, p.1, a.2)
  ((l.map (·.1)).eraseDups).map fun m => (m, (l.filter fun x => x.1 == m).map (·.2))

/-- Asks the modules that hold keyed locations: `mk` makes the operation of a key from its address there. -/
def askEach (s : State) (who : Asker) (vf g : Nat) (mode : Nat → ReqMode) (l : List (Nat × Loc)) (mk : Nat → W64 → RemoteOp) : State :=
  (byModule l).foldl (fun s d => ask s who vf g d.1 (mode d.1) (d.2.map fun x => (x.1, mk x.1 x.2))) s

/-- Asks the modules that hold pieces of places: `mk` makes the operation of a piece from its address there. -/
def askPlaces (s : State) (who : Asker) (vf g : Nat) (own : Bool) (ps : List Place) (mk : Piece → W64 → RemoteOp) : State :=
  let xs := numbered ps
  askEach s who vf g (fun _ => .ask own []) (xs.map fun p => (p.key, p.loc)) fun k a => match xs[k]? with
    | some p => mk p a
    | none => .read a 0

/-- The bytes of each place: read here, or from the answers. -/
def readPlaces (s : State) (ps : List Place) (l : List (Nat × PieceAnswer)) : List (List W8) :=
  let xs := numbered ps
  (List.range ps.length).map fun i => (xs.filter fun x => x.ix == i).flatMap fun x => match x.loc.away with
    | some _ => pieceData l x.key x.len
    | none => s.readLoc x.loc x.len

end Sys2Proof.Machine
end

