-- ==== Sys2Proof/Machine/Ends.lean ====
section
/-! DEFINITION. How teams, grids and contexts end: exit records, completions, the slots of a chain (10 R248, 16 R341-R343, 18 R375,
R381, 22 R434). -/

namespace Sys2Proof.Machine

/-! ### Shepherd offers (22 R434) -/

/-- Words of an event; E[15] holds the low bits of the Bellwether count. -/
def shWords (s : State) (ws : List W32) : Bank 4 W32 :=
  Bank.gen fun i => if i = 15 then s.ns.setWidth 32 else ws.getD i.toNat 0

/-- An event of class `c` of a VF, offered when the Shepherd is enabled and the class attached. -/
def offer (s : State) (vf : Nat) (c : BitVec 3) (ws : List W32) : State :=
  let h := (s.vf vf).sh
  if h.en && h.att.getLsbD (8 * c.toNat + 7) then
    s.setVf vf fun v => { v with sh := { v.sh with offers := v.sh.offers ++ [{ cls := c, e := shWords s ws, ns := s.ns }] } }
  else s

/-! ### Completions (16 R342, R343) -/

def State.wq (s : State) (q : Nat) : Wq := (s.wqs.get q).getD Wq.reset
def State.setWq (s : State) (q : Nat) (f : Wq → Wq) : State := { s with wqs := s.wqs.put q (f (s.wq q)) }

/-- WQHEAD advances past every record whose completion has been written. -/
def advanceHead (w : Wq) : Nat → Wq
  | 0 => w
  | n + 1 => if w.done.contains w.wqhead.toNat then
      advanceHead { w with wqhead := w.wqhead + 1, done := w.done.erase w.wqhead.toNat } n
    else w

/-- What becomes of a record that the device writes for a VF once its write is done or fails. -/
def complWritten (s : State) (q : Nat) (c : Completion) : State := s.setWq q fun w => advanceHead { w with done := c.index :: w.done } 65536

/-- The bytes of a completion. -/
def complBytes (w : Wq) (c : Completion) : List W8 :=
  natLe 4 c.gridid.toNat ++ natLe 2 c.index ++ natLe 1 c.cause.toNat ++ natLe 1 (c.index / 2 ^ w.logn.toNat % 2) ++
    natLe 8 c.ns.toNat ++ zeros 16

/-- Puts a waiting completion in index order behind WQHEAD. -/
def insertCompletion (head : W16) (c : Completion) : List Completion → List Completion
  | [] => [c]
  | d :: rest => if (BitVec.ofNat 16 c.index - head).toNat < (BitVec.ofNat 16 d.index - head).toNat then c :: d :: rest
    else d :: insertCompletion head c rest

/-- A completion that is not written waits in index order, and the queue stops (R343). -/
def complFails (s : State) (q : Nat) (c : Completion) : State :=
  s.setWq q fun w => { w with err := true, waiting := insertCompletion w.wqhead c w.waiting }

/-- Ends a context when the device next acts: a write for it has met what ends it. -/
def killSoon (s : State) (vf : Nat) (c : W8) : State := { s with agenda := s.agenda ++ [.kill vf c] }

/-- Writes one completion, at once or, where its page waits for the host, later (14 R312). -/
def writeCompletion (s : State) (q : Nat) (c : Completion) : State :=
  let w := s.wq q
  match w.bind with
  | none => complWritten s q c
  | some (vf, _) =>
    let va := w.cqbase.toNat + 32 * (c.index % 2 ^ w.logn.toNat)
    match s.devWrite vf va (complBytes w c) with
    | (.ok _, s) => complWritten s q c
    | (.wait, s) => { s with pend := s.pend ++ [{ vf := vf, va := va, d := complBytes w c, then_ := .complete q c }] }
    | (.fail, s) => complFails s q c
    | (.dead x, s) => killSoon (complFails s q c) vf x

/-- Completes record `i` of a work queue. -/
def complete (s : State) (q i : Nat) (gridid : W32) (cause : W8) : State :=
  writeCompletion s q { index := i, gridid := gridid, cause := cause, ns := s.ns }

/-- Writes waiting completions in index order until one fails again (R343). -/
def drainCompletions (s : State) (q : Nat) : Nat → State
  | 0 => s
  | n + 1 => match (s.wq q).waiting with
    | [] => s
    | c :: rest =>
      let s := writeCompletion (s.setWq q fun w => { w with waiting := rest }) q c
      if (s.wq q).err then s else drainCompletions s q n

/-! ### Fold slots of a chain (18 R375, R381) -/

/-- Sets the state of a slot. -/
def Ring.setSlot (r : Ring) (i : Nat) (x : SlotSt) : Ring := { r with slots := r.slots.set i x }
def Ring.slot (r : Ring) (i : Nat) : SlotSt := r.slots.getD i .free

def Paddock.ring (p : Paddock) (n : Nat) : Option Ring := p.rings.rd (BitVec.ofNat 6 n)
def Paddock.setRing (p : Paddock) (n : Nat) (r : Ring) : Paddock := { p with rings := p.rings.wr (BitVec.ofNat 6 n) (some r) }
def Paddock.stream (p : Paddock) (n : Nat) : Option Stream := p.streams.rd (BitVec.ofNat 6 n)
def Paddock.setStream (p : Paddock) (n : Nat) (t : Stream) : Paddock :=
  { p with streams := p.streams.wr (BitVec.ofNat 6 n) (some t) }

/-- The ring numbers a stream writes. -/
def Stream.ringList (t : Stream) : List Nat := (t.rings.filter (· != 0xFFFF)).eraseDups

/-- STRIPID of a strip, and the slot of a ring that it has (17 R353, 18 R368). -/
def stripId (n : Nat) : Nat := n % 2 ^ 32
def Ring.slotOf (r : Ring) (n : Nat) : Nat := stripId n % r.slots.length

/-- OPEN slots of a strip become FREE. -/
def freeOpen (p : Paddock) (t : Stream) (strip : Nat) : Paddock :=
  t.ringList.foldl (fun p n => match p.ring n with
    | some r => let i := r.slotOf strip
      if r.slot i = .open_ then p.setRing n (r.setSlot i .free) else p
    | none => p) p

/-- After the last grid of a chain that missed or finished has ended, its OPEN slots become FREE and the chain is over. -/
def settleChain (s : State) (pd st n : Nat) : State :=
  match (s.pad pd).stream st with
  | none => s
  | some t => match t.chainOf n with
    | none => s
    | some c =>
      if !c.live && !(c.grids.any fun h => (s.grid h).isSome) then
        s.setPad pd fun p =>
          (freeOpen p t c.strip).setStream st { t with chains := t.chains.filter fun x => x.strip != n }
      else s

/-! ### Grids (16 R341) -/

/-- Teams of a grid. -/
def Grid.teamCount (d : Grid) : Nat := d.launch.gx.toNat * d.launch.gy.toNat * d.launch.gz.toNat * d.kernel.cw * d.kernel.ch

/-- CLID of a cluster index (01 R17, 10 R244). -/
def Grid.clid (d : Grid) (ix : Nat) : Nat :=
  let x := d.launch.gx.toNat
  let y := d.launch.gy.toNat
  ix % x + 2 ^ 16 * (ix / x % y) + 2 ^ 32 * (ix / x / y)

/-- Teams of a cluster. -/
def Grid.teamsPer (d : Grid) : Nat := d.kernel.cw * d.kernel.ch

/-- The first nonzero CAUSE in ascending team index, or 0. -/
def endCauseOf (ends : List (Nat × W8)) : W8 :=
  match ends.filter fun e => e.2 != 0 with
  | [] => 0
  | e :: rest => (rest.foldl (fun b c => if c.1 < b.1 then c else b) e).2

/-- The grid leaves the machine, and its end is reported. -/
def endGrid (s : State) (h : Nat) : State :=
  match s.grid h with
  | none => s
  | some d =>
    let c := endCauseOf d.ends
    let s := { s with grids := s.grids.del h }
    match d.origin with
    | .host q i => complete s q i d.gridid c
    | .child _ => s.setVf d.vf fun v => { v with endedKids := (d.gridid, c) :: v.endedKids }
    | .chain pd st n => settleChain s pd st n

/-- Ends the grid when every team has ended. -/
def tryEndGrid (s : State) (h : Nat) : State :=
  match s.grid h with
  | some d => if d.teamCount ≤ d.ends.length then endGrid s h else s
  | none => s

/-- The 128 bytes of a team exit record (10 R248). -/
def exitBytes (s : State) (d : Grid) (lin : Nat) (cause detail : W8) (smasks : List (Nat × Mask)) : List W8 :=
  natLe 1 cause.toNat ++ natLe 1 detail.toNat ++ natLe 1 d.kernel.groups ++ natLe 1 (lin % d.teamsPer) ++ natLe 4 d.gridid.toNat ++
    natLe 8 (d.clid (lin / d.teamsPer)) ++ natLe 8 s.ns.toNat ++ zeros 40 ++
    (List.range 64).map fun g => if g < d.kernel.groups then (KMap.get smasks g).getD 0 else 0

/-- A team of the grid has written its record, or has had it dropped: its cause enters the grid's (R341). -/
def teamWritten (s : State) (h lin : Nat) (cause : W8) : State :=
  match s.grid h with
  | none => s
  | some d => s.setGrid h { d with ends := (lin, cause) :: d.ends }

/-- A team of the grid ends: its record is written or dropped, or waits with its page (R248, R341, 14 R312). -/
def writeExit (s : State) (h lin : Nat) (cause detail : W8) (smasks : List (Nat × Mask)) : State :=
  match s.grid h with
  | none => s
  | some d =>
    let va := d.launch.exitb.toNat + 128 * lin
    let b := exitBytes s d lin cause detail smasks
    match s.devWrite d.vf va b with
    | (.wait, s) => { s with pend := s.pend ++ [{ vf := d.vf, va := va, d := b, then_ := .exit h lin cause }] }
    | (.dead x, s) => killSoon (teamWritten s h lin cause) d.vf x
    | (_, s) => teamWritten s h lin cause

/-- A record whose write waits while its context ends carries the context's cause; it is dropped where its page still waits (log entry 2). -/
def writeLast (s : State) (h lin : Nat) (cause : W8) (b : List W8) : State :=
  match s.grid h with
  | none => s
  | some d => teamWritten (s.devWrite d.vf (d.launch.exitb.toNat + 128 * lin) b).2 h lin cause

/-- The groups of a team, by handle. -/
def State.teamGroups (s : State) (t : Nat) : List (Nat × Group) := s.groups.filter fun e => e.2.team == t

/-- Removes a team and its groups, and its cluster when it was the last of it. -/
def dropTeam (s : State) (t : Nat) : State :=
  let gone := (s.teamGroups t).map (·.1)
  let s := { s with teams := s.teams.del t, groups := s.groups.filter (fun e => e.2.team != t),
                    vgrowQ := s.vgrowQ.filter fun e => !gone.contains e.2.g }
  { s with clusters := s.clusters.filter fun e => e.2.teams.any fun k => (s.teams.get k).isSome }

/-- SMASK bytes of a team's groups. -/
def teamSmasks (s : State) (t : Nat) : List (Nat × Mask) := (s.teamGroups t).map fun e => (e.2.gid, e.2.smask)

/-- The record of a team of a grid that waits for its page. -/
def waitingExit (s : State) (h lin : Nat) : Option PendWrite :=
  s.pend.find? fun p => match p.then_ with | .exit g l _ => g == h && l == lin | _ => false

/-- Every team of a grid that has not ended writes its record with a cause (R248). -/
def killTeams (s : State) (h : Nat) (cause detail : W8) : List Nat → State
  | [] => s
  | lin :: rest =>
    match s.grid h with
    | none => s
    | some d =>
      if d.ends.any fun e => e.1 == lin then killTeams s h cause detail rest
      else
        let t := s.teams.find? fun e => e.2.grid == h && e.2.lin == lin
        let b := match waitingExit s h lin with
          | some p => [cause, detail] ++ p.d.drop 2
          | none => exitBytes s d lin cause detail (match t with | some e => teamSmasks s e.1 | none => [])
        let s := writeLast s h lin cause b
        let s := match t with | some e => dropTeam s e.1 | none => s
        killTeams s h cause detail rest

/-- Ends one grid with a cause. -/
def killGrid (s : State) (cause detail : W8) (h : Nat) : State :=
  match s.grid h with
  | none => s
  | some d => endGrid (killTeams s h cause detail (List.range d.teamCount)) h

/-- What the units of a group hold at other modules is given up: lines of copies and of traversals, and slots of queues (07 R213, 12 R286). -/
def giveUp (s : State) (vf : Nat) (g : Group) : State :=
  let claims := allD.flatMap (fun d => (g.copies.rd d).claims) ++ allPaths.flatMap fun i => match g.pairs.rd i with
    | some p => p.recAsk
    | none => []
  let slots := allPaths.filterMap fun i => (g.paths.rd i).bind fun p => match p.st with
    | .remote w => w.slot.filter fun h => h.getLsbD 24 && nbits h.toNat 23 16 != s.me
    | _ => none
  let s := claims.foldl (fun s x => tell s vf x.1 (.cancel x.2) []) s
  slots.foldl (fun s h => tell s vf (nbits h.toNat 23 16) .once [(0, .unslot h)]) s

/-- The groups of a VF. -/
def State.vfGroups (s : State) (vf : Nat) : List (Nat × Group) :=
  s.groups.filter fun e => match s.gridOf e.2 with | some d => d.vf == vf | none => false

/-- Ends the context of a VF: every team of every grid of it ends with the cause (R234, R248, 20 R395). The detail is the nested
cause of R220. -/
def endVf (s : State) (vf : Nat) (cause detail : W8) : State :=
  let hs := (s.grids.filter fun e => e.2.vf == vf).map (·.1)
  let s := (s.vfGroups vf).foldl (fun s e => giveUp s vf e.2) s
  let s := hs.foldl (fun s h => killGrid s cause detail h) s
  let s := cancelThese s (s.asks.filter fun e => e.2.vf == vf)
  let s := { s with walks := s.walks.filter fun w => w.vf != vf, misses := s.misses.filter fun m => m.vf != vf,
                    pend := s.pend.filter fun p => match p.then_ with | .exit h _ _ => !hs.contains h | _ => true }
  let s := { s with queues := s.queues.map fun e : Nat × HwQueue => if e.2.vf == vf then (e.1, { e.2 with kept := 0 }) else e }
  s.setVf vf fun v => { v with endc := cause, ended := true }

/-- A record of the device that has waited for its page is tried again (14 R312). -/
def retryWrite (s : State) (p : PendWrite) : State :=
  let s' := { s with pend := s.pend.erase p }
  match s'.devWrite p.vf p.va p.d with
  | (.wait, t) => { t with pend := s.pend }
  | (.ok _, t) => match p.then_ with
    | .exit h lin c => tryEndGrid (teamWritten t h lin c) h
    | .complete q c => complWritten t q c
    | .plain => t
  | (x, t) =>
    let t := match p.then_ with
      | .exit h lin c => tryEndGrid (teamWritten t h lin c) h
      | .complete q c => complFails t q c
      | .plain => t
    match x with
    | .dead c => killSoon t p.vf c
    | _ => t

/-- A record of the device of which nothing depends on its write: written, dropped, or waiting with its page (18 R377). -/
def writeRec (s : State) (vf va : Nat) (d : List W8) : State :=
  match s.devWrite vf va d with
  | (.wait, s) => { s with pend := s.pend ++ [{ vf := vf, va := va, d := d, then_ := .plain }] }
  | (.dead c, s) => killSoon s vf c
  | (_, s) => s

/-- The VFs of a Paddock. -/
def vfsOf (s : State) (pd : Nat) : List Nat := (s.vfs.filter fun e => e.2.active && e.2.paddock.toNat == pd).map (·.1)

/-- Ends the context of a VF; an uncorrectable stage-2 table ends every context of its Paddock (20 R412). -/
def endContext (s : State) (vf : Nat) (cause detail : W8) : State :=
  if cause = cTableError then (vfsOf s (s.vf vf).paddock.toNat).foldl (fun s v => endVf s v 0x40 0) s
  else endVf s vf cause detail

/-! ### Completions of firmware commands (20 R405) -/

/-- Writes the completion of a command; where an engine operation owns its place, it waits for that (12 R285). -/
def fwComplete (s : State) (tag opc : W16) (status : W8) (value : W64) : State :=
  let n := s.fwdone
  let d := natLe 2 tag.toNat ++ natLe 2 opc.toNat ++ [status, BitVec.ofNat 8 (n / 2 ^ s.fwlogn.toNat % 2)] ++ zeros 2 ++ natLe 8 value.toNat
  let at_ := s.fwcbase.toNat + 16 * (n % 2 ^ s.fwlogn.toNat)
  if hostOwned s at_ 16 then { s with fwdone := n + 1, inbox := s.inbox ++ [.place at_ d] }
  else { s.hostWrite at_ d with fwdone := n + 1 }.msixFire 0

/-- A completion that waited for an engine operation is written. -/
def placeRecord (s : State) (a : Nat) (d : List W8) : State :=
  if hostOwned s a d.length then s else { s.hostWrite a d with inbox := s.inbox.erase (.place a d) }.msixFire 0

/-- MIGRATE of a header has ended: it has committed, with status 0, or not. -/
def migrateDone (s : State) (c : FwHdr) (status : W8 := 0) : State :=
  let mine (r : Running) : Bool := r.cmd.opc == 0x38 && r.cmd.hdr == c
  if s.fwrun.any mine then fwComplete { s with fwrun := s.fwrun.filter fun r => !mine r } c.tag 0x38 status 0 else s

end Sys2Proof.Machine
end

