-- ==== Sys2Proof/Machine/Ops.lean ====
section
/-! DEFINITION. The named operations every meaning goes through: register access, taking an exception and returning from one (08
R218-R223), lanes switched off (12 R274), the scoreboard and lookahead windows (02 R57-R59, 10 R253), and the issue of one
instruction (02 R70). -/

namespace Sys2Proof.Machine

/-! ### Registers of a group -/

def Group.getV (g : Group) (n : VReg) : Lanes W32 := g.v.rd n

/-- Writes the lanes of `m`; every other lane keeps its bits (05 R120). -/
def Group.setV (g : Group) (n : VReg) (m : Mask) (x : Lanes W32) : Group :=
  let old := g.v.rd n
  { g with v := g.v.wr n (Bank.gen fun l => if m.has l then x.rd l else old.rd l) }

/-- A register as an instruction reads it, at one moment however often it names it: the two halves of a pair are read independently (05
R121). -/
def Group.seen (g : Group) (n : VReg) : Lanes W32 :=
  match g.old.find? fun o => o.1 == n with
  | some (_, m, x) => Bank.gen fun l => if m.has l then x.rd l else (g.getV n).rd l
  | none => g.getV n

/-- Writes a pair in the lanes of `m`. Whether a read of the other path in the same cycle finds the old or the new value is free for each
register. -/
def Group.setPair (g : Group) (n : VReg) (m : Mask) (x : Lanes W64) (old : VReg → Bool) : Group :=
  let was := ([n, n + 1] : List VReg).filter old
  { (g.setV n m (Bank.gen fun l => (x.rd l).setWidth 32)).setV (n + 1) m (Bank.gen fun l => (x.rd l >>> 32).setWidth 32) with
    old := was.map (fun k => (k, m, g.v.rd k)) ++ g.old }

/-- k0 reads all ones (01 R12). -/
def Group.getK (g : Group) (n : KReg) : Mask := if n = 0 then 0xFF else g.k.rd n

/-- Writes the lanes of `m`; k0 discards the write. -/
def Group.setK (g : Group) (n : KReg) (m : Mask) (x : Mask) : Group :=
  if n = 0 then g else { g with k := g.k.wr n ((g.k.rd n &&& ~~~m) ||| (x &&& m)) }

/-- K[PK] XOR PN in the lanes of a mask (00 R6). -/
def Group.pred (g : Group) (h : Hdr) : Mask := if h.pn then ~~~(g.getK h.pk) else g.getK h.pk

/-- Results land: each written register whole in its lanes (05 R121). -/
def Group.applyLand (g : Group) (l : Land) : Group := l.regs.foldl (fun g r => g.setV r.1 l.mask r.2) g

/-- Every outstanding result of some lanes lands (02 R59). -/
def Group.flush (g : Group) (m : Mask) : Group :=
  let (now, later) := g.lands.partition fun l => l.mask &&& m != 0
  { now.foldl Group.applyLand g with lands := later }

/-! ### Faults -/

/-- A cause that names no address. -/
def FaultInfo.of (cause : W8) (mask : Mask) : FaultInfo :=
  { cause := cause, detail := 0, sub := 0, dindex := 0, code := 0, mask := mask, addr := Bank.fill 0, origin := 0 }

/-- A cause with one address in every lane of its mask. -/
def FaultInfo.at (cause : W8) (mask : Mask) (a : W64) : FaultInfo := { FaultInfo.of cause mask with addr := Bank.fill a }

/-- A cause with an address per lane. -/
def FaultInfo.lanes (cause : W8) (mask : Mask) (a : Lanes W64) : FaultInfo := { FaultInfo.of cause mask with addr := a }

def cIllegal : W8 := 0x01
def cPrivileged : W8 := 0x02
def cRegBounds : W8 := 0x03
def cRegIndex : W8 := 0x04
def cUniform : W8 := 0x05
def cLookahead : W8 := 0x06
def cMmaPartial : W8 := 0x07
def cMisaligned : W8 := 0x08
def cBreakpoint : W8 := 0x09
def cSingleStep : W8 := 0x0A
def cWatchpoint : W8 := 0x0B
def cTrap : W8 := 0x0C
def cDescriptor : W8 := 0x0D
def cBarrier : W8 := 0x0E
def cSpill : W8 := 0x14
def cCopyFault : W8 := 0x15
def cRemote : W8 := 0x16
def cQueueRights : W8 := 0x20
def cQueueHandle : W8 := 0x21
def cStarvation : W8 := 0x28
def cKilled : W8 := 0x32

def laneBytes (x : Lanes W64) (m : Mask) : List W8 :=
  allLanes.flatMap fun l => natLe 8 (if m.has l then (x.rd l).toNat else 0)

/-- The 640 bytes of a fault frame (R219). -/
def frameBytes (p : Path) (ix : BitVec 3) (f : FaultInfo) (pc npc : W64) : List W8 :=
  [f.cause, f.detail, f.sub, f.dindex] ++ natLe 4 f.code.toNat ++ natLe 8 pc.toNat ++ natLe 8 npc.toNat ++
    [f.mask, p.mask, ix.setWidth 8, f.origin] ++ zeros 4 ++ laneBytes f.addr f.mask ++ zeros 32 ++
    (List.range 64).flatMap fun n => natLe 8 (if n = 0 then 0 else (p.s.rd (BitVec.ofNat 6 n)).toNat)

/-- FRAME of a path (R218). -/
def frameOf (g : Group) (i : BitVec 3) : W64 := g.frameb + 1024 * i.setWidth 64

/-- The path at the handler's first instruction (R218 steps 2 to 4). -/
def Path.inHandler (p : Path) (f : FaultInfo) (frame pc hentry : W64) : Path :=
  { p with mask := f.mask, s := (p.s.wr 1 frame).wr 2 (f.cause.setWidth 64), sup := true, pc := hentry, fcause := f.cause, fpc := pc,
           entry := some { mask := p.mask, s := p.s, written := p.written }, win := [], stepN := 0, skipBp := false, st := .ready,
           stopped := none, again := none, code := [], lost := none, atFrame := none }

/-- The path waits for the host at a stage-2 failure; it keeps its slot and its lookahead windows (14 R312). -/
def waitWalk (s : State) (r : PathRef) (ipa : Nat) (c : W8) : State :=
  match s.path r with
  | none => s
  | some (_, p) => s.setPath r { p with st := .walk (BitVec.ofNat 64 ipa) c }

/-- The path waits at its frame, for the host, for another module, or for a walker or an engine, and goes on there (14 R310, R312). -/
def waitFrame (s : State) (r : PathRef) (a : AtFrame) (x : Xlat) : State :=
  match s.path r with
  | none => s
  | some (_, p) =>
    let st : PathSt := match x with
      | .wait ipa c => .walk (BitVec.ofNat 64 ipa) c
      | _ => if (asksOf s (.path r)).isEmpty then .ready else .remote { at_ := [], stage := 0, data := [], slot := none, record := 0 }
    s.setPath r { p with st := st, atFrame := some a }

/-- TAKING AN EXCEPTION (R218): a class-H cause is delivered to the path that raised it. At supervisor level, or with no handler, or
with a frame that cannot be written, the context ends instead (R218, R219, R220). -/
def deliver (s : State) (r : PathRef) (f : FaultInfo) (pc npc : W64) : State :=
  match s.path r with
  | none => s
  | some (g, p) =>
    let vf := s.vfOf g
    let hentry := (s.vf vf).hentry
    if p.sup then endContext s vf cKilled f.cause
    else if hentry = 0 then endContext s vf f.cause 0
    else
      let g := g.flush p.mask
      let frame := frameOf g r.p
      let d := frameBytes p r.p f pc npc
      match s.devAt (.path r) vf .wr [(frame.toNat, 640)] (fun _ a => .write a d) with
      | (.ok (ps, _), s) =>
        let s := writeAllAt s ps d
        let fa : Lanes W64 := Bank.gen fun l => if f.mask.has l then f.addr.rd l else g.faddr.rd l
        let s := s.setGroup r.g { g.setPath r.p (p.inHandler f frame pc hentry) with faddr := fa }
        let s := s.count vf 20 1
        offer s vf 1 [f.cause.setWidth 32 ||| f.detail.setWidth 32 <<< 8 ||| r.p.setWidth 32 <<< 16 ||| f.mask.setWidth 32 <<< 24,
          BitVec.ofNat 32 g.lin, (match s.gridOf g with | some d => d.gridid | none => 0), pc.setWidth 32, (pc >>> 32).setWidth 32]
      | (.error (_, .dead c), s) => endContext s vf c 0
      | (.error (_, .wait ipa c), s) => waitFrame s r (.enter f pc npc) (.wait ipa c)
      | (.error (_, .busy), s) => waitFrame s r (.enter f pc npc) .busy
      | (.error _, s) => endContext s vf cKilled 0

/-- Scalar slots of a frame, and the scalars it changes (R223). -/
def frameScalars (d : List W8) : Bank 6 W64 := Bank.gen fun n => BitVec.ofNat 64 (field d (128 + 8 * n.toNat) 8)

/-- Registers whose slot differs from the value written at entry. -/
def changedRegs (e : Bank 6 W64) (n : Bank 6 W64) : W64 :=
  (List.range 64).foldl (fun w i =>
    let k := BitVec.ofNat 6 i
    if i != 0 && n.rd k != e.rd k then w ||| (1#64 <<< i) else w) 0

/-- RETURNING FROM AN EXCEPTION (R223): scalars, FPC and RPC come from the frame; the MASK is the one before entry less the lanes
that have exited, and what the handler has issued is all of theirs (06 R165). The low bits of a PC are zero (02 R47, log entry 21). -/
def handlerReturn (s : State) (r : PathRef) (after nobp : Bool) (live : Option W64) : State :=
  match s.path r with
  | none => s
  | some (g, p) =>
    let vf := s.vfOf g
    match p.entry with
    | none => s
    | some e =>
      match s.devAt (.path r) vf .rd [((frameOf g r.p).toNat, 640)] (fun _ a => .read a 640) with
      | (.ok (ps, ans), s) =>
        let d := readAll s ans ps
        let ss := (frameScalars d).wr 0 0
        let pc := BitVec.ofNat 64 (field d (if after then 16 else 8) 8) &&& ~~~7#64
        if e.mask = 0 then s.setGroup r.g (g.overPath r.p)
        else
          s.setGroup r.g (((g.flush p.mask).widenOwn e.mask).setPath r.p
            { p with mask := e.mask, s := ss, written := e.written ||| changedRegs e.s ss, fcause := 0, sup := false, pc := pc, st := .ready,
                     entry := none, skipBp := nobp, stepN := 0, win := [], again := none, code := [], lost := none, atFrame := none })
      | (.error (_, .dead c), s) => endContext s vf c 0
      | (.error (_, .wait ipa c), s) => waitFrame s r (.back after nobp live) (.wait ipa c)
      | (.error (_, .busy), s) => waitFrame s r (.back after nobp live) .busy
      | (.error (_, .cause c), s) => endContext s vf cKilled c
      | (.error (_, .remoteCause c), s) => endContext s vf cKilled (if isDomain (frameOf g r.p).toNat then cRemote else c)
      | (.error _, s) => endContext s vf cKilled cRemote

/-- Lanes of a path end (04 R102); a handler whose lanes have all ended returns its waiting lanes at once (08 R220). -/
def endLanes (s : State) (r : PathRef) (m : Mask) : State :=
  match s.group r.g with
  | none => s
  | some g =>
    match g.endLanes r.p m with
    | .on g | .over g => s.setGroup r.g g
    | .back g => handlerReturn (s.setGroup r.g g) r false false none

/-- Lanes switched off (12 R274): recorded in SMASK, and ended. -/
def laneOff (s : State) (r : PathRef) (m : Mask) : State :=
  match s.group r.g with
  | none => s
  | some g => endLanes (s.setGroup r.g { g with smask := g.smask ||| m }) r m

/-! ### What an instruction reads and writes -/

/-- The registers an instruction names, and how it stands to windows, levels, memory and the deadlock breaker (02 R58, 08 R217, 10 R253,
R255): `mem` says that it comes after the accesses of its path at other modules. -/
structure Uses where
  rd : List Reg
  wr : List Reg
  closes : Bool
  priv : Bool
  work : Bool
  mem : Bool
  ix : Option (XReg × XStep × W8 × Bool)
  deriving DecidableEq, Repr

def Uses.none : Uses := { rd := [], wr := [], closes := false, priv := false, work := false, mem := false, ix := Option.none }

/-- `c` registers from `n`. -/
def block (n : VReg) (c : Nat) : List Reg := (List.range c).map fun i => .v (n + BitVec.ofNat 8 i)

/-- The lane register that lane `l` of an indexed access names, if it is in range (06 R168). -/
def indexed (g : Group) (x : Lanes W32) (step : XStep) (off : W8) (l : Lane) : Option VReg :=
  let w := (x.rd l).toNat
  let i := w % 256
  let i := if step = .dec then (i + 255) % 256 else i
  let base := w / 256 % 256
  let limit := w / 65536 % 256
  let e : Int := (i : Int) + off.toInt
  let n : Int := (base : Int) + e
  if e < 0 ∨ (limit : Int) ≤ e ∨ 255 < n ∨ (g.vwin : Int) ≤ n then none else some (BitVec.ofInt 8 n)

/-- The registers an instruction reads or writes, with those an indexed access reaches (06 R170). -/
def Uses.all (u : Uses) (g : Group) (em : Mask) : List Reg :=
  u.rd ++ u.wr ++ match u.ix with
    | some (x, st, off, _) => (em.lanes.filterMap fun l => indexed g (g.x.rd x) st off l).map .v
    | Option.none => []

/-- A register outside the window or a tile beyond the group's (01 R9, R14). -/
def outside (g : Group) : Reg → Bool
  | .v n => decide (g.vwin ≤ n.toNat)
  | .t n => decide (g.acc ≤ n.toNat)
  | _ => false

/-- s0 and k0 carry no dependence. -/
def hardwired : Reg → Bool
  | .s n => n == 0
  | .k n => n == 0
  | _ => false

/-- Registers on which a path waits: results of its lanes that have not landed, and tiles an engine has not written. -/
def Group.pendingRegs (g : Group) (m : Mask) : List Reg :=
  (g.lands.filter fun l => l.mask &&& m != 0).flatMap (fun l => l.regs.map fun r => .v r.1) ++
    g.ops.flatMap fun o => match o.kind with
      | .mma t _ => [.t t]
      | .mld _ t _ => [.t t]
      | .mst _ _ _ => []
      | .far _ rs _ _ _ => if o.own &&& m = 0 then [] else rs.map .v

/-- Whether lanes have accesses that other modules have yet to perform. An instruction that comes after them waits (log entry 3). -/
def Group.afar (g : Group) (m : Mask) : Bool :=
  g.ops.any fun o => o.own &&& m != 0 && match o.kind with | .far _ _ _ _ _ => true | _ => false

/-! ### The issue of one instruction -/

/-- What a meaning sees: its path, its group, EMASK, the addresses of its word 0 and of the next instruction, whether `fret.nobp`
exempts it from the checks of break- and watchpoints (R223), and whether it is a `waita` that reads its word again (06 R166). -/
structure Cx where
  r : PathRef
  g : Group
  p : Path
  em : Mask
  pc : W64
  npc : W64
  vf : Nat
  skip : Bool := false
  woken : Bool := false
  deriving DecidableEq, Repr

/-- What an instruction does with its path. `done` goes on at the next PC, `jump` elsewhere; `stall` has no effect and issues again, `again`
issues again after an effect of the device; `gone` has dealt with the path itself; `moved` has too, and the paths it lists stand after the
instruction: children, a merged path, the lanes that stay; `remote` has asked other modules and waits for their answers. -/
inductive Res where
  | done (s : State)
  | jump (s : State) (pc : W64)
  | fault (s : State) (f : FaultInfo)
  | stall
  | again (s : State)
  | susp (s : State) (w : Wait)
  | gone (s : State)
  | moved (s : State) (on : List (BitVec 3))
  | walk (s : State) (ipa : Nat) (c : W8)
  | remote (s : State) (w : RemoteWait)
  | stop (s : State) (cause : W8)

/-- Whether the path's next instruction is a `waita` that reads its word again. -/
def Path.wakes (p : Path) : Bool := match p.again with | some (_, w) => w | none => false

/-- Whether the instruction of a path issues for the first time: one that goes on has passed the checks of its issue (08 R227, 10 R253). -/
def Path.fresh (p : Path) : Bool := p.again.isNone

/-- Length in bytes (02 R47). -/
def hdrLen (h : Hdr) : W64 := 8 * (1 + (if h.long then 1 else 0) + (if h.live.isSome then 1 else 0))

/-- Windows after an instruction issues: one fewer in each, a new one for LA, none after an instruction that closes them (R58). -/
def nextWindows (w : List Win) (h : Hdr) (u : Uses) : List Win :=
  if u.closes then []
  else
    let old := (w.map fun x => { x with left := x.left - 1 }).filter fun x => 0 < x.left
    if h.la = 0 then old else { left := h.la.toNat, regs := u.wr.filter fun r => !hardwired r } :: old

/-- The path as it stands once its instruction issues (10 R259, 21 R417). -/
def Path.issued (p : Path) (g : Group) (h : Hdr) (u : Uses) : Path :=
  { p with age := 0, young := false, win := nextWindows p.win h u, skipBp := false,
           stepN := if g.stepArm && !p.sup then p.stepN + 1 else p.stepN,
           tried := if u.work then [] else p.tried, again := none, code := [], lost := if p.fresh then none else p.lost }

/-- The path whose suspended instruction completes (21 R417). -/
def Path.completes (p : Path) (g : Group) : Path := { p with stepN := if g.stepArm && !p.sup then p.stepN + 1 else p.stepN }

/-- The path whose instruction has issued and not completed. -/
def Path.uncounted (p : Path) (g : Group) : Path := { p with stepN := if g.stepArm && !p.sup then p.stepN - 1 else p.stepN }

/-- A path asked to stop at safe points stops after an instruction with SP = 1 that it completes within the window (10 R256). -/
def safePoint (s : State) (r : PathRef) (live : Option W64) : State :=
  match live, s.path r with
  | some w, some (g, p) =>
    match s.team g.team with
    | some t => match t.stop with
      | some q => if q.forced then s else s.setPath r { p with stopped := some w }
      | none => s
    | none => s
  | _, _ => s

/-! ### Holds (08 R233, 21 R420) -/

/-- A notice without its sequence number, which it takes when it is posted. -/
def noticeBody (s : State) (g : Group) (ix : BitVec 3) (p : Path) : BitVec 256 :=
  let gid := match s.gridOf g with | some d => d.gridid.toNat | none => 0
  rec32 (zeros 4 ++ natLe 4 gid ++ natLe 4 g.lin ++ [ix.setWidth 8, p.mask, (if p.sup then 1 else 0 : W8), (0 : W8)] ++
    natLe 8 p.pc.toNat ++ natLe 8 s.ns.toNat)

/-- The path is held where it stands: it gives up its slot and any place it waits in, and the Crook has a notice to post. `order` numbers
the Crook's command, where one holds it (R420). -/
def holdPath (s : State) (r : PathRef) (order : Option Nat := none) : State :=
  match s.path r with
  | none => s
  | some (g, p) =>
    if p.st = .held then
      s.setVf (s.vfOf g) fun v => { v with crook := { v.crook with notices := v.crook.notices.map fun n => if n.ref = r then { n with go := false } else n } }
    else
      let vf := s.vfOf g
      let n : Notice := { body := noticeBody s g r.p p, ref := r, go := false, order := order }
      let p := { p with st := .held, hold := false, win := [], again := none, code := [], lost := none, atFrame := none }
      let s := s.setGroup r.g (((g.unslot r.p).setPath r.p p).unqueue r.p)
      let s := { s with vgrowQ := s.vgrowQ.filter fun e => e.2 != r }
      s.setVf vf fun v => { v with crook := { v.crook with notices := v.crook.notices ++ [n] } }

/-- What a path has yet to do at its frame, once what it waited for is there. -/
def goAtFrame (s : State) (r : PathRef) : AtFrame → State
  | .enter f pc npc => deliver s r f pc npc
  | .back after nobp live =>
    let t := handlerReturn s r after nobp live
    match t.path r with
    | some (_, p) => if p.sup then t else safePoint t r live
    | none => t

/-- At an instruction boundary, a path asked to hold is held. -/
def settleHold (s : State) (r : PathRef) : State :=
  match s.path r with
  | some (_, p) => match p.st with
    | .remote _ => s
    | _ => if p.hold then holdPath s r else s
  | none => s

/-- The path goes on at an address: its instruction is complete. -/
def goOn (s : State) (c : Cx) (h : Hdr) (pc : W64) : State :=
  match s.path c.r with
  | some (_, p) => settleHold (safePoint (s.setPath c.r { p with pc := pc, st := .ready }) c.r h.live) c.r
  | none => s

/-- The path suspends and gives up its slot (10 R249). -/
def suspend (s : State) (c : Cx) (w : Wait) : State :=
  match s.path c.r with
  | some (g, p) =>
    let q : Path := { p.uncounted g with st := .susp w, win := [] }
    settleHold (s.setGroup c.r.g (((g.unslot c.r.p).unqueue c.r.p).setPath c.r.p q)) c.r
  | none => s

/-- The path as it stood before an issue that will be made again: the instruction has not completed. -/
def unissue (s0 s : State) (c : Cx) : State :=
  match s0.path c.r with
  | some (_, p) => (s.setPath c.r p).setVf c.vf fun v => { v with ctr := v.ctr.wr 1 ((s0.vf c.vf).ctr.rd 1) }
  | none => s

/-- Ends the issue by what the instruction did. What it asked of other modules and still holds there is given up. -/
def retire (s0 : State) (c : Cx) (h : Hdr) (x : Res) : State :=
  let rel (s : State) : State := match c.p.st with | .remote _ => cancelAsks s (.path c.r) | _ => s
  match x with
  | .done s => goOn (rel s) c h c.npc
  | .jump s pc => goOn (rel s) c h pc
  | .fault s f => settleHold (deliver (rel s) c.r f c.pc c.npc) c.r
  | .stall => s0
  | .again s => unissue s0 s c
  | .susp s w => suspend (rel (if w = .pgmap then unissue s0 s c else s)) c w
  | .gone s => rel s
  | .moved s on => on.foldl (fun s i => settleHold (safePoint s ⟨c.r.g, i⟩ h.live) ⟨c.r.g, i⟩) (rel s)
  | .walk s ipa cause => waitWalk (rel (unissue s0 s c)) c.r ipa cause
  | .remote s w =>
    let s := unissue s0 s c
    match s.path c.r with
    | some (_, p) => s.setPath c.r { p with st := .remote w }
    | none => s
  | .stop s cause => endContext (rel s) c.vf cause 0

/-- Whether a word of SRAM is one of some registers, as a path names them: a scalar is its own, any other its group's. -/
def SramAt.isReg (a : SramAt) (r : PathRef) (l : List Reg) : Bool :=
  match a with
  | .reg q x => l.contains x && q.g == r.g && match x with | .s _ => q.p == r.p | _ => true
  | .word _ => false

/-- Registers that an instruction writes whole and does not read hold no error: a lane register where it writes every lane (20 R412). -/
def renew (s : State) (r : PathRef) (u : Uses) (em : Mask) : State :=
  { s with sram := s.sram.filter fun e => !e.at_.isReg r (u.wr.filter fun x => !u.rd.contains x && (em == 0xFF || match x with
      | .v _ | .k _ | .x _ => false
      | _ => true)) }

/-- The first cause of 02 R70 that bars an instruction from issuing, from PRIVILEGED to LOOKAHEAD_BREACH; one that goes on has passed. -/
def barred (u : Uses) (g : Group) (p : Path) (em : Mask) : Option W8 :=
  if !p.fresh then none
  else if u.priv && !p.sup then some cPrivileged
  else if (u.rd ++ u.wr).any (outside g) then some cRegBounds
  else if p.win.any fun w => (u.all g em).any fun x => w.regs.contains x then some cLookahead
  else none

/-- Issues the instruction of the current path: the checks of 02 R70 from PRIVILEGED on, the scoreboard, then its effect. Nothing
where no path issues. -/
def run (u : Uses) (h : Hdr) (body : Cx → State → Res) (s : State) : State :=
  match s.cur with
  | none => s
  | some r =>
    match s.path r with
    | none => s
    | some (g, p) =>
      let vf := s.vfOf g
      let em := p.mask &&& g.pred h
      let npc := p.pc + hdrLen h
      let all := u.all g em
      match barred u g p em with
      | some cause => deliver s r (FaultInfo.of cause p.mask) p.pc npc
      | none =>
        if (all.any fun x => !hardwired x && (g.pendingRegs p.mask).contains x) || (u.mem && g.afar p.mask) then s
        else match sramMeet (renew s r u em) vf fun a => a.isReg r all with
          | (some c, s) => endContext s vf c 0
          | (none, s) =>
            let p' := p.issued g h u
            let g' := g.setPath r.p p'
            let s1 := (s.setGroup r.g g').count vf 1 1
            let c : Cx := { r := r, g := g', p := p', em := em, pc := p.pc, npc := npc, vf := vf, skip := p.skipBp, woken := p.wakes }
            retire s c h (body c s1)

/-- An effect on the registers of the group and path alone. -/
def regs (f : Cx → Group × Path) (c : Cx) (s : State) : Res :=
  let (g, p) := f c
  .done (s.setGroup c.r.g (g.setPath c.r.p p))

/-- A scalar result. -/
def scalar (d : SReg) (f : Cx → W64) : Cx → State → Res := regs fun c => (c.g, c.p.setS d (f c))

/-- A lane result in the lanes of EMASK. -/
def lanesTo (d : VReg) (f : Cx → Lanes W32) : Cx → State → Res := regs fun c => (c.g.setV d c.em (f c), c.p)

/-- A 64-bit lane result in the pair at `d`. -/
def pairLanes (d : VReg) (f : Cx → Lanes W64) (c : Cx) (s : State) : Res :=
  regs (fun c => (c.g.setPair d c.em (f c) fun k =>
    Config.readsOld (match s.coreOf c.g with | some x => s.cycle x | none => 0) c.r.g k.toNat, c.p)) c s

/-- The path waits where it stands: for other modules that it has asked, or for a walker or an engine. -/
def awaitHere (c : Cx) (s : State) : Res :=
  if (asksOf s (.path c.r)).isEmpty then .again s else .remote s { at_ := [], stage := 0, data := [], slot := none, record := 0 }

/-- Puts the group and path of a context back after a change of the group. -/
def Cx.put (c : Cx) (s : State) (g : Group) (p : Path) : State := s.setGroup c.r.g (g.setPath c.r.p p)

end Sys2Proof.Machine
end

