-- ==== Sys2Proof/Machine/Operands.lean ====
section
/-! DEFINITION. Reading operands (02 R54-R56, 05 R121) and, per operand shape, the registers an instruction reads and writes (02 R58,
01 R9-R11). -/

namespace Sys2Proof.Machine

/-- Lane s(l) of a permutation (02 R56). -/
def permLane (p : Perm) (l : Lane) : Lane :=
  match p with
  | .id => l
  | .rot k => l + k
  | .bc k => k
  | .bf k => l ^^^ k
  | .mir k => l ^^^ BitVec.ofNat 3 (2 ^ (k.val + 1) - 1)

/-- Lane l of a lane source. -/
def Group.src (g : Group) (a : VSrc) (l : Lane) : W32 := (g.seen a.r).rd (permLane a.p l)

/-- Lane l of the pair or block register `i` of a lane source. -/
def Group.srcN (g : Group) (a : VSrc) (i : W8) (l : Lane) : W32 := (g.seen (a.r + i)).rd (permLane a.p l)

/-- Lane l of a lane source or an immediate. -/
def Group.srcB (g : Group) (b : VB) (l : Lane) : W32 :=
  match b with
  | .reg a => g.src a l
  | .imm v => v

/-- A 64-bit lane of a pair (01 R10). -/
def Group.pair (g : Group) (n : VReg) (l : Lane) : W64 := ((g.seen (n + 1)).rd l) ++ ((g.seen n).rd l)

/-- A scalar source, or an immediate sign-extended to 64 bits (02 R54). -/
def Path.opB (p : Path) (b : SB) : W64 :=
  match b with
  | .reg r => p.getS r
  | .imm v => v.signExtend 64

/-- A shift count or other immediate that is not signed (02 R54). -/
def Path.opU (p : Path) (b : SB) : W64 :=
  match b with
  | .reg r => p.getS r
  | .imm v => v.setWidth 64

/-- The eight lanes of a pair as 64-bit values. -/
def Group.pairs64 (g : Group) (n : VReg) : Lanes W64 := Bank.gen (g.pair n)

/-! ### Uses per shape -/

def rdwr (rd wr : List Reg) : Uses := { Uses.none with rd := rd, wr := wr }

def sbRegs : SB → List Reg
  | .reg r => [.s r]
  | .imm _ => []
def vbRegs : VB → List Reg
  | .reg a => [.v a.r]
  | .imm _ => []

def uSBin (o : SBin) : Uses := rdwr (.s o.a :: sbRegs o.b) [.s o.d]
def uSSat (o : SSat) : Uses := rdwr (.s o.a :: sbRegs o.b) [.s o.d]
def uSImm (o : SImm) : Uses := rdwr [] [.s o.d]
def uSUn (o : SUn) : Uses := rdwr [.s o.a] [.s o.d]
def uSBits (o : SBits) : Uses := rdwr [.s o.a] [.s o.d]
def uSCmp (o : SCmp) : Uses := rdwr (.s o.a :: sbRegs o.b) [.s o.d]
def uSMov (o : SMov) : Uses := rdwr (sbRegs o.a) [.s o.d]
def uSFp (o : SFp) : Uses := rdwr [.s o.a, .s o.b] [.s o.d]
def uSFma (o : SFma) : Uses := rdwr [.s o.a, .s o.b, .s o.c] [.s o.d]
def uSFCmp (o : SFCmp) : Uses := rdwr [.s o.a, .s o.b] [.s o.d]
def uSFCvt (o : SFCvt) : Uses := rdwr [.s o.a] [.s o.d]
def uKBin (o : KBin) : Uses := rdwr [.k o.a, .k o.b] [.k o.d]
def uKUn (o : KUn) : Uses := rdwr [.k o.a] [.k o.d]
def uKRed (o : KRed) : Uses := rdwr [.k o.a] [.s o.d]
def uKSet (o : KSet) : Uses := rdwr [.s o.a] [.k o.d]

/-- Control transfers close a window (R58). -/
def uCtl : Uses := { Uses.none with closes := true }
def uBrx (o : Brx) : Uses := { uCtl with rd := block o.a 2 }
def uSReg (a : SReg) : Uses := { uCtl with rd := [.s a] }
def uCallR (a : SReg) : Uses := { uCtl with rd := [.s a, .s 61, .s 62], wr := [.s 61, .s 62], mem := true }
def uCall : Uses := { uCtl with rd := [.s 61, .s 62], wr := [.s 61, .s 62], mem := true }
def uJmpV (a : VReg) : Uses := { uCtl with rd := block a 2 }
def uSLoop (o : SLoop) : Uses := { uCtl with rd := [.s o.d], wr := [.s o.d] }

def uVArith (o : VArith) : Uses := rdwr (.v o.a.r :: vbRegs o.b) [.v o.d]
def uVUns (o : VUns) : Uses := rdwr (.v o.a.r :: vbRegs o.b) [.v o.d]
def uVMad (o : VMad) : Uses := rdwr [.v o.a.r, .v o.b.r, .v o.c.r] [.v o.d]
def uVLogic (o : VLogic) : Uses := rdwr (.v o.a.r :: vbRegs o.b) [.v o.d]
def uVElem (o : VElem) : Uses := rdwr (.v o.a.r :: vbRegs o.b) [.v o.d]
def uVAbs (o : VAbs) : Uses := rdwr [.v o.a.r] [.v o.d]
def uVCount (o : VCount) : Uses := rdwr [.v o.a.r] [.v o.d]
def uVBfx (o : VBfx) : Uses := rdwr [.v o.a.r] [.v o.d]
def uVBfi (o : VBfi) : Uses := rdwr [.v o.a.r] [.v o.d]
def uVCmp (o : VCmp) : Uses := rdwr (.v o.a.r :: vbRegs o.b) [.k o.d]
def uVAddW (o : VWide) : Uses := rdwr (block o.a.r 2 ++ vbRegs o.b) (block o.d 2)
def uVMulW (o : VWide) : Uses := rdwr (.v o.a.r :: vbRegs o.b) (block o.d 2)
def uVMov (o : VMov) : Uses := rdwr (vbRegs o.a) [.v o.d]
def uVLi (o : VLi) : Uses := rdwr [] [.v o.d]
def uVLane (d : VReg) : Uses := rdwr [] [.v d]
def uVBcast (o : VBcast) : Uses := rdwr [.s o.a] [.v o.d]
def uVToS (o : VToS) : Uses := rdwr [.v o.a.r] [.s o.d]
def uVPerm (o : VPerm) : Uses :=
  rdwr [.v (match o.a with | .lane r => r | .byte a => a.r), .v o.b.r] [.v o.d]
def uVRed (o : VRed) : Uses := rdwr [.v o.a.r] [.v o.d]
def uVFp (o : VFp) : Uses := rdwr [.v o.a.r, .v o.b.r] [.v o.d]
def uVFma (o : VFma) : Uses := rdwr [.v o.a.r, .v o.b.r, .v o.c.r] [.v o.d]
def uVBin (o : VBin) : Uses := rdwr [.v o.a.r, .v o.b.r] [.v o.d]
def uVFCmp (o : VFCmp) : Uses := rdwr [.v o.a.r, .v o.b.r] [.k o.d]
def uVUn (o : VUn) : Uses := rdwr [.v o.a.r] [.v o.d]
def uVFRnd (o : VFRnd) : Uses := rdwr [.v o.a.r] [.v o.d]
def uVHalf (o : VHalf) : Uses := rdwr [.v o.a.r, .v o.b.r] [.v o.d]
def uVHFma (o : VHFma) : Uses := rdwr [.v o.a.r, .v o.b.r, .v o.c.r] [.v o.d]
def uVDot2 (o : VDot2) : Uses := rdwr [.v o.a.r, .v o.b.r] [.v o.d]
def uVDot4 (o : VDot4) : Uses := rdwr [.v o.a.r, .v o.b.r] [.v o.d]
def uVCvt (o : VCvt) : Uses := rdwr [.v o.a.r] [.v o.d]

/-- Bytes of an access (02 R65), and the registers that hold a lane of it (06 R157). -/
def sizeBytes : Size → Nat
  | .b => 1 | .h => 2 | .w => 4 | .d => 8 | .q => 16
def sizeRegs : Size → Nat
  | .b | .h | .w => 1
  | .d => 2
  | .q => 4

def addrRegs (sp : Space) : Addr → List Reg
  | .vec a => block a (if sp = .g then 2 else 1)
  | .scaled a b => [.s a, .v b]
  | .lanes a => [.s a]

/-- Memory and engine work ends the polling of a barrier (10 R255): DESIGN CHOICE, the rule lists no instructions; those of queues, launches and
descriptors, `mzero` and `scommit` are counted, `call` and `ret` are not (log entry 51). -/
def uMem (rd wr : List Reg) : Uses := { rdwr rd wr with work := true, mem := true }

def uVLd (o : VLd) : Uses := uMem (addrRegs o.sp o.addr) (block o.d (sizeRegs o.z))
def uVSt (o : VSt) : Uses := uMem (addrRegs o.sp o.addr ++ block o.d (sizeRegs o.z)) []
def uSLd (o : SLd) : Uses := uMem [.s o.a] [.s o.d]
def uSSt (o : SSt) : Uses := uMem [.s o.a, .s o.d] []
def uVAtom (o : VAtom) : Uses :=
  uMem (block o.a (if o.sp = .g then 2 else 1) ++ block o.b (sizeRegs o.z)) (block o.d (sizeRegs o.z))
def uSAtom (o : SAtom) : Uses := uMem [.s o.a, .s o.b] [.s o.d]
def uVCas (o : VCas) : Uses :=
  uMem (block o.a (if o.sp = .g then 2 else 1) ++ block o.b (sizeRegs o.z) ++ block o.c (sizeRegs o.z)) (block o.d (sizeRegs o.z))
def uSCas (o : SCas) : Uses := uMem [.s o.a, .s o.b, .s o.c] [.s o.d]
def uVPrefetch (o : VPrefetch) : Uses := uMem (addrRegs .g o.addr) []
def uFence (_ : Fence) : Uses := uMem [] []
def uWaitA (o : WaitA) : Uses := { uMem [.s o.a, .s o.b] [.s o.d] with closes := true }
def uVRdx (o : VIdx) : Uses := { rdwr [.x o.x] [.v o.d] with ix := some (o.x, o.step, o.off, true) }
def uVWrx (o : VIdx) : Uses := { rdwr [.x o.x, .v o.d] [] with ix := some (o.x, o.step, o.off, false) }
def uXSet : XSet → Uses
  | .reg d a => rdwr [.v a] [.x d]
  | .imm d _ => rdwr [] [.x d]
  | .get d a => rdwr [.x a] [.v d]
def uSpill (o : SpillFill) : Uses := uMem (.s 61 :: block o.d (o.nm1.toNat + 1)) (if o.adj then [.s 61] else [])
def uFill (o : SpillFill) : Uses := uMem [.s 61] (block o.d (o.nm1.toNat + 1) ++ if o.adj then [.s 61] else [])

def uMma (o : Mma) : Uses :=
  uMem (.t o.d :: (block o.a 16 ++ block o.b 16 ++ match o.t with | .fp4 c _ => block c 4 | _ => [])) [.t o.d]
def uMZero (d : TReg) : Uses := uMem [] [.t d]
def rowRegs : Rows → Nat
  | .all => 32
  | .top | .bot => 16
def uMMov (o : MMove) : Uses := uMem [.t o.t] (block o.v (rowRegs o.rows))
def uMLoad (o : MMove) : Uses := uMem (block o.v (rowRegs o.rows)) [.t o.t]
def uMst (o : MMem) : Uses := uMem [.s o.a, .s o.b, .t o.t] []
def uMld (o : MMem) : Uses := uMem [.s o.a, .s o.b] [.t o.t]
def uDld (o : DMem) : Uses := uMem [.s o.a] [.d o.d]
def uDst (o : DMem) : Uses := uMem [.s o.a, .d o.d] []
def uDSet (o : DSet) : Uses := uMem (.d o.d :: sbRegs o.b) [.d o.d]
def uTCopy (o : TCopy) : Uses := uMem [.d o.d, .s o.a, .s o.b, .s (o.b + 1)] []
def uTStat (o : TStat) : Uses := uMem [.d o.a] [.s o.d]
def uDReg (d : DReg) : Uses := uMem [.d d] []
def uBInit (o : BInit) : Uses := { rdwr (match o.n with | .reg a => [.s a] | .imm _ => []) [] with mem := true }
def uBArr (o : BArr) : Uses := { rdwr [] [.s o.d] with mem := true }
def uCBArr (o : CBArr) : Uses := { rdwr [] [.s o.d] with mem := true }
def uBTry (o : BTry) : Uses := { rdwr [.s o.b] [.k o.d] with closes := true, mem := true }
def uCBTry (o : CBTry) : Uses := { rdwr [.s o.b] [.k o.d] with closes := true, mem := true }
def uRBox (o : Trav) : Uses := uMem (block o.a 8 ++ block o.b 2) (block o.d 5)
def uRTri (o : Trav) : Uses := uMem (block o.a 8 ++ block o.b 2) (block o.d 4)
def uPairs (o : Pairs) : Uses := uMem [.s o.a, .s o.b, .s o.d, .q o.q] [.k o.kp]
def uTex (o : Tex) : Uses := uMem (block o.a 2 ++ [.d o.b]) (block o.d 4)
def uCover (o : Trav) : Uses := uMem (block o.a 6 ++ block o.b 2) [.v o.d]
def uQEnq (o : QEnq) : Uses := uMem [.q o.q, .v o.d] [.k o.kp]
def uQDeq (o : QDeq) : Uses := uMem [.q o.q] [.v o.d, .k o.kp, .k o.ke]
def uQEos (q : QReg) : Uses := uMem [.q q] []
def uRwq (o : Rwq) : Uses := uMem [.q o.q, .v o.d, .s o.b] [.k o.kp]
def uLaunch (o : Launch) : Uses := uMem (block o.a 2) [.v o.d, .k o.kp]
def uLWait (o : LWait) : Uses := uMem [.v o.a] [.v o.d]
def uCrd : Crd → Uses
  | .scalar _ d => rdwr [] [.s d]
  | .faddr d => rdwr [] (block d 2)
  | .rngs d => rdwr [] [.v d]
/-- A register writable only at supervisor level makes the instruction privileged (01 R18). -/
def uCwr : Cwr → Uses
  | .scalar n a => { rdwr [.s a] [] with priv := n != .gctl, mem := true }
  | .faddr a => { rdwr (block a 2) [] with priv := true }
  | .rngs a => rdwr [.v a] []
def uPriv : Uses := { Uses.none with priv := true, mem := true }
def uGrow : Uses := { Uses.none with closes := true, work := true }
def uClock (o : Clock) : Uses := rdwr [] [.s o.d]
def uTStamp (a : SReg) : Uses := rdwr [.s a] []
def uPgMap (o : PgMap) : Uses := { uMem [.s o.a, .s o.b] [.s o.d] with priv := true }
def uTlbInv (a : Option SReg) : Uses := { uMem (match a with | some r => [.s r] | none => []) [] with priv := true }
def uShEv (o : ShEv) : Uses := rdwr [.s o.a, .s o.b] []

end Sys2Proof.Machine
end

