-- ==== Sys2Proof/Machine/Flags.lean ====
section
/-! DEFINITION. The conditions (02 R64) and the predicate and saturation arithmetic that instructions share (03 R76, 05 R123-R126). The
device has no flag register (03 R78): a condition is computed where it is used. -/

namespace Sys2Proof.Machine

/-- An integer condition (R64). -/
def condHolds {w : Nat} (c : Cond) (x y : BitVec w) : Bool :=
  match c with
  | .eq => x == y
  | .ne => x != y
  | .lt => x.slt y
  | .le => x.sle y
  | .gt => y.slt x
  | .ge => y.sle x
  | .ltu => x.ult y
  | .leu => x.ule y
  | .gtu => y.ult x
  | .geu => y.ule x

/-- 1 for true, 0 for false, in a scalar register. -/
def bit64 (b : Bool) : W64 := if b then 1 else 0
def bit32 (b : Bool) : W32 := if b then 1 else 0

/-- An exact integer wrapped to `w` bits, or clamped to the signed or unsigned range (03 R76, 05 R126). -/
def narrow (w : Nat) (sat unsigned : Bool) (x : Int) : BitVec w :=
  BitVec.ofInt w (if sat then clampInt w (!unsigned) x else x)

/-- The value of an element read signed or unsigned. -/
def eltVal {w : Nat} (unsigned : Bool) (x : BitVec w) : Int := if unsigned then (x.toNat : Int) else x.toInt

def zclz {w : Nat} (x : BitVec w) : Nat := if x = 0 then w else w - 1 - x.toNat.log2
def popc {w : Nat} (x : BitVec w) : Nat := (List.range w).foldl (fun n i => if x.getLsbD i then n + 1 else n) 0
def brev {w : Nat} (x : BitVec w) : BitVec w :=
  (List.range w).foldl (fun y i => if x.getLsbD i then y ||| (1#w <<< (w - 1 - i)) else y) 0#w

/-! ### Elements (05 R123, R124) -/

def widthBits : Width → Nat
  | .w32 => 32 | .h2 => 16 | .b4 => 8

/-- Whether element `e` of width `w` lies in the half selected. -/
def halfTakes (h : Half) (w e : Nat) : Bool :=
  match h with
  | .whole => true
  | .lo => decide (w * (e + 1) ≤ 16)
  | .hi => decide (16 ≤ w * e)

/-- Element `e` of width `w`. -/
def elt (w : Nat) (x : W32) (e : Nat) : BitVec w := (x >>> (w * e)).setWidth w

/-- `x` with element `e` replaced. -/
def setElt (w : Nat) (x : W32) (e : Nat) (v : BitVec w) : W32 :=
  (x &&& ~~~((BitVec.allOnes w).setWidth 32 <<< (w * e))) ||| (v.setWidth 32 <<< (w * e))

/-- Element by element over the elements a half select takes; the rest of `d` is kept. -/
def elements (w : Nat) (h : Half) (d : W32) (f : Nat → BitVec w) : W32 :=
  (List.range (32 / w)).foldl (fun x e => if halfTakes h w e then setElt w x e (f e) else x) d

end Sys2Proof.Machine
end

