-- ==== Sys2Proof/Machine/Tensor.lean ====
section
/-! DEFINITION. Tensor descriptors and the geometry of a copy: checks, box elements and tiles (07 R180, R181, R184). -/

namespace Sys2Proof.Machine

/-- `n` bytes of a descriptor from an offset (R180). -/
def dfield (d : BitVec 512) (off n : Nat) : Nat := d.toNat / 2 ^ (8 * off) % 2 ^ (8 * n)

def setDField (d : BitVec 512) (off n v : Nat) : BitVec 512 :=
  (d &&& ~~~(BitVec.ofNat 512 (2 ^ (8 * n) - 1) <<< (8 * off))) ||| (BitVec.ofNat 512 (v % 2 ^ (8 * n)) <<< (8 * off))

def dBase (d : BitVec 512) : Nat := dfield d 0 8
def dDim (d : BitVec 512) (i : Nat) : Nat := dfield d (8 + 4 * i) 4
def dStride (d : BitVec 512) (i : Nat) : Nat := if i = 0 then 0 else dfield d (24 + 8 * (i - 1)) 8
def dBox (d : BitVec 512) (i : Nat) : Nat := dfield d (48 + i) 1
def dType (d : BitVec 512) : Nat := dfield d 52 1
def dFlags (d : BitVec 512) : Nat := dfield d 53 1
def dFill (d : BitVec 512) : Nat := dfield d 54 2
def dWalk (d : BitVec 512) : Nat := dfield d 56 1
def dSwizzle (d : BitVec 512) : Bool := nbit (dFlags d) 0

/-- Element size of a type code, 0 for one that is not listed (02 R63, R180). -/
def dElem (t : Nat) : Nat :=
  match t with
  | 0 | 10 | 11 => 4
  | 1 | 2 | 8 | 9 => 2
  | 3 | 4 | 6 | 7 => 1
  | _ => 0

/-- The local size L (R184). -/
def dLocal (d : BitVec 512) : Nat := dElem (dType d) * dBox d 0 * dBox d 1 * dBox d 2 * dBox d 3

/-- The first failing check of R181, as the byte offset it reports. -/
def dCheck (d : BitVec 512) : Option Nat :=
  let z := dElem (dType d)
  let idx := [0, 1, 2, 3]
  if z = 0 then some 52
  else match idx.find? fun i => dBox d i == 0 with
    | some i => some (48 + i)
    | none => match idx.find? fun i => dDim d i == 0 with
      | some i => some (8 + 4 * i)
      | none =>
        if dBase d % z ≠ 0 then some 0
        else match [1, 2, 3].find? fun i => dStride d i % z != 0 with
          | some i => some (24 + 8 * (i - 1))
          | none =>
            if 2 ≤ nbits (dFlags d) 2 1 ∨ nbits (dFlags d) 7 3 ≠ 0 then some 53
            else if 2 ≤ dWalk d then some 56
            else match (List.range 7).find? fun i => dfield d (57 + i) 1 != 0 with
              | some i => some (57 + i)
              | none => if dSwizzle d && dLocal d % 1024 != 0 then some 53 else none

/-- The four signed origin coordinates (R183). -/
def coord (o : Bank 2 W32) (i : Nat) : Int := (o.rd (BitVec.ofNat 2 i)).toInt

/-- Tiles of a box (R184). -/
def tileCount (d : BitVec 512) : Nat := dBox d 2 * dBox d 3

/-- (e2, e3) of tile k. -/
def tilePlace (d : BitVec 512) (k : Nat) : Nat × Nat :=
  if dWalk d = 0 then (k % dBox d 2, k / dBox d 2) else (k / dBox d 3, k % dBox d 3)

/-- The elements of tile k, dimension 0 fastest. -/
def tileElems (d : BitVec 512) (k : Nat) : List Elem :=
  let (e2, e3) := tilePlace d k
  (List.range (dBox d 1)).flatMap fun e1 => (List.range (dBox d 0)).map fun e0 => { e0 := e0, e1 := e1, e2 := e2, e3 := e3 }

/-- Local byte offset of an element from S[A] (R184). -/
def localOff (d : BitVec 512) (e : Elem) : Nat :=
  let o := dElem (dType d) * (e.e0 + dBox d 0 * (e.e1 + dBox d 1 * (e.e2 + dBox d 2 * e.e3)))
  if dSwizzle d then o ^^^ ((o / 128 % 8) * 16) else o

/-- Whether an element is in bounds (R184). -/
def inBounds (d : BitVec 512) (o : Bank 2 W32) (e : Elem) : Bool :=
  let ok (i e : Nat) : Bool := decide (0 ≤ coord o i + e) && decide (coord o i + (e : Int) < dDim d i)
  ok 0 e.e0 && ok 1 e.e1 && ok 2 e.e2 && ok 3 e.e3

/-- Tensor-side address of an in-bounds element, modulo 2^64 (R184). -/
def tensorAddr (d : BitVec 512) (o : Bank 2 W32) (e : Elem) : Nat :=
  let z : Int := dElem (dType d)
  let at_ (i e : Nat) : Int := (dStride d i : Int) * (coord o i + e)
  (((dBase d : Int) + z * (coord o 0 + e.e0) + at_ 1 e.e1 + at_ 2 e.e2 + at_ 3 e.e3) % 2 ^ 64).toNat

/-- The in-bounds tensor addresses of tile k, in the order of R184. -/
def tileAddrs (c : Copy) (k : Nat) : List Nat :=
  ((tileElems c.desc k).filter (inBounds c.desc c.origin)).map (tensorAddr c.desc c.origin)

end Sys2Proof.Machine
end

