-- ==== Sys2Proof/Machine/Access.lean ====
section
/-! DEFINITION. Accesses to the six memory spaces: the checks of 06 R146-R151, watchpoints (21 R418), lanes out of range, remote lanes
(14 R310, 16 R347), and reading and writing where an access lands. -/

namespace Sys2Proof.Machine

/-! ### The local spaces (06 R147) -/

/-- Virtual address of byte `o` of lane `l` of a group's spill area (R148). -/
def spillVa (g : Group) (l : Lane) (o : Nat) : Nat := (g.sbase.toNat + 32 * (o / 4) + 4 * l.toNat + o % 4) % 2 ^ 64

/-- The scratchpad size of a grid. -/
def Grid.scratchSize (d : Grid) : Nat := d.kernel.scratch

/-- The Fold segment that window offset `o` of a Paddock lies in, as a Fold address (18 R379). -/
def foldAddr (s : State) (pd o : Nat) : Option Nat :=
  let segs := (List.range 64).filter fun i => (s.memPort (288 + i)).owner.toNat == pd
  (segs[o / 2 ^ 20]?).map fun g => g * 2 ^ 20 + o % 2 ^ 20

/-- Whether a chain's kernel reaches bytes `o` to `o + z - 1` of the window (17 R353, R354). -/
def foldReach (c : Chain) (r : Ring) (o z : Nat) (write : Bool) : Bool :=
  let n := r.slots.length
  if o < r.base ∨ r.base + n * r.slotsz < o + z then false
  else
    let i := (o - r.base) / r.slotsz
    let off := (o - r.base) % r.slotsz
    if r.slotsz < off + z then false
    else
      let mine := i == r.slotOf c.strip
      match r.slot i with
      | .free => false
      | .open_ => mine
      | .committed => mine && !write && r.cons == 0
      | .halo => !write && decide ((r.tail - r.h) * r.pitch ≤ off) && decide (off + z ≤ r.tail * r.pitch)

/-- Where a `.f` access lands, if it is in range. -/
def foldLoc (s : State) (g : Group) (o z : Nat) (write : Bool) : Option Loc :=
  match s.gridOf g with
  | none => none
  | some d =>
    match d.origin with
    | .chain pd st n =>
      match (s.pad pd).stream st with
      | none => none
      | some t => match t.chainOf n with
        | none => none
        | some c =>
          if t.ringList.any fun n => match (s.pad pd).ring n with
              | some r => foldReach c r o z write
              | none => false
          then (foldAddr s pd o).map .fold else none
    | _ => none

/-- Where an address of a local space lands, if it is in range (R147, R151). -/
def localLoc (s : State) (g : Group) (sp : Space) (a : W64) (z : Nat) (write : Bool) : Option Loc :=
  let v := a.toInt
  let o := a.toNat
  match s.team g.team with
  | none => none
  | some t =>
    match sp with
    | .s => if 0 ≤ v ∧ v + z ≤ t.size then some (.team g.team o) else none
    | .c =>
      if 2 ^ 22 ≤ o then none
      else
        match s.cluster t.cluster with
        | none => none
        | some c => match c.teams[o / 2 ^ 18]? with
          | none => none
          | some k => match s.team k with
            | some x => if o % 2 ^ 18 + z ≤ x.size then some (.team k (o % 2 ^ 18)) else none
            | none => none
    | .p =>
      match s.grid t.grid with
      | some d => if 0 ≤ v ∧ v + z ≤ d.scratchSize then some (.scratch t.grid o) else none
      | none => none
    | .f => if 0 ≤ v then foldLoc s g o z write else none
    | .g | .k => none

/-! ### Watchpoints (21 R418) -/

/-- Whether a watchpoint matches an access at a location. -/
def watched (s : State) (vf : Nat) (l : Loc) (z : Nat) (rd wr : Bool) : Bool :=
  let k := (s.vf vf).crook
  [0, 1, 2, 3].any fun i =>
    let w := (k.wp.rd i).toNat
    let len := (k.wplen.rd i).toNat
    let off := w % 2 ^ 32
    let kindHit := (nbit w 36 && wr) || (nbit w 37 && rd)
    let hit (o : Nat) : Bool := decide (o < off + len) && decide (off < o + z)
    len != 0 && kindHit &&
      match l with
      | .team _ o => nbits w 34 32 == 1 && hit o
      | .scratch _ o => nbits w 34 32 == 3 && hit o
      | _ => false

/-! ### Translating lanes (R150) -/

/-- A lane's `.g` access: the lane, its address as formed, and the pieces it touches. -/
structure LaneReq where
  lane : Lane
  addr : W64
  chunks : List (Nat × Nat)
  deriving DecidableEq, Repr

/-- What a lane's translation came to: where its pieces lie, or the first that fails. -/
inductive LaneX where
  | at (l : List (Loc × Nat))
  | bad (x : Xlat)
  deriving DecidableEq, Repr

/-- The pieces of one lane's access; those of one page go through one translation (R309), whose page and frame are `seen`. -/
def translateChunks (s : State) (vf : Nat) (k : Acc) (seen : Option (Nat × Nat)) : List (Nat × Nat) → LaneX × State
  | [] => (.at [], s)
  | (a, n) :: rest =>
    let next (seen : Option (Nat × Nat)) (l : Loc) (s : State) : LaneX × State :=
      match translateChunks s vf k seen rest with
      | (.at ps, s) => (.at ((l, n) :: ps), s)
      | e => e
    match seen.filter fun x => x.1 == a / 4096 with
    | some x => next seen (locOf (x.2 + a % 4096)) s
    | none => match seek s vf a k with
      | (.ok pa, s) => next (some (a / 4096, pa - a % 4096)) (locOf pa) s
      | (.remote m, s) => next none (.dom m a) s
      | (x, s) => (.bad x, s)

def translateReqs (s : State) (vf : Nat) (k : Acc) : List LaneReq → List (LaneReq × LaneX) × State
  | [] => ([], s)
  | q :: rest =>
    let (x, s) := translateChunks s vf k none q.chunks
    let (xs, s) := translateReqs s vf k rest
    ((q, x) :: xs, s)

def maskOf (ls : List Lane) : Mask := Mask.of fun l => ls.contains l

/-- Addresses of some lanes. -/
def lanesOf (qs : List (Lane × W64)) : Lanes W64 := Bank.gen fun l => match qs.find? fun q => q.1 == l with
  | some q => q.2
  | none => 0

/-- A fault over some lanes; a scalar access faults in every lane of its path with one address. -/
def faultOver (whole : Option Mask) (c sub : W8) (qs : List (Lane × W64)) : FaultInfo :=
  match whole with
  | some m => { FaultInfo.at c m (match qs with | q :: _ => q.2 | [] => 0) with sub := sub }
  | none => { FaultInfo.lanes c (maskOf (qs.map (·.1))) (lanesOf qs) with sub := sub }

/-- The causes a translation may show, in the order of R150. -/
def causeRank : List W8 := [0x13, 0x12, 0x10, 0x11]

/-- REMOTE_FAULT over the lanes whose target cause ranks first (14 R310). -/
def remoteFault (s : State) (whole : Option Mask) (l : List (Lane × W64 × W8)) : Option Res :=
  let sel (c : W8) : List (Lane × W64) := (l.filter fun q => q.2.2 == c).map fun q => (q.1, q.2.1)
  (causeRank.find? fun c => !(sel c).isEmpty).map fun c => .fault s (faultOver whole cRemote c (sel c))

/-- The lanes that show a cause of their own module's tables behind a domain address. -/
def ownRemote (xs : List (LaneReq × LaneX)) : List (Lane × W64 × W8) :=
  xs.filterMap fun q => match q.2 with | .bad (.remoteCause c) => some (q.1.lane, q.1.addr, c) | _ => none

/-- Whether some lane goes to another module, whose causes rank with this one's (14 R310). -/
def anyAway (xs : List (LaneReq × LaneX)) : Bool := xs.any fun q => match q.2 with | .at l => (Place.of l).isRemote | .bad _ => false

/-- The first cause that any lane shows, as a result; none where every lane passes here (14 R305, R310, R312). -/
def firstCause (s : State) (whole : Option Mask) (xs : List (LaneReq × LaneX)) : Option Res :=
  let sel (f : Xlat → Bool) : List (Lane × W64) :=
    (xs.filter fun q => match q.2 with | .bad x => f x | _ => false).map fun q => (q.1.lane, q.1.addr)
  let find {α : Type} (f : Xlat → Option α) : Option α := xs.findSome? fun q => match q.2 with | .bad x => f x | _ => none
  match find (fun x => match x with | .dead c => some c | _ => none) with
  | some c => some (.stop s c)
  | none =>
    match find (fun x => match x with | .wait i c => some (i, c) | _ => none) with
    | some (i, c) => some (.walk s i c)
    | none =>
      if (find (fun x => match x with | .busy => some () | _ => none)).isSome then some (.again s)
      else
        match causeRank.find? fun c => !(sel (fun x => x == .cause c)).isEmpty with
        | some c => some (.fault s (faultOver whole c 0 (sel fun x => x == .cause c)))
        | none => if anyAway xs then none else remoteFault s whole (ownRemote xs)

/-- Places of the lanes. -/
def placesOf (xs : List (LaneReq × LaneX)) : List (Lane × Place) :=
  xs.filterMap fun q => match q.2 with
    | .at ps => some (q.1.lane, Place.of ps)
    | .bad (.remoteCause c) => some (q.1.lane, .remote (q.1.chunks.map fun k => (.bad c, k.2)))
    | .bad _ => none

/-- What a path that waited for other modules comes back with: what it waits for, and the answers by key. -/
def Cx.waited (c : Cx) (s : State) : Option (RemoteWait × List Answer) :=
  match c.p.st with
  | .remote w => some (w, answersOf s (.path c.r))
  | _ => none

/-- Lanes whose places are at hand reach memory: they wait for engine operations, may end the context, and set D (R306, 12 R285, 20 R412). -/
def settleLanes (c : Cx) (s : State) (k : Acc) (qs : List LaneReq) (ps : List (Lane × Place)) (walks : Bool := false) : Except Res State :=
  let xs := (qs.zip ps).flatMap fun x => physPages x.1.chunks x.2.2.all
  match arriveAll s c.vf k none (xs.map (·.1)) (xs.map (·.2)) (k != .rmw) walks with
  | (some (.dead x), s) => .error (.stop s x)
  | (some _, s) => .error (.again s)
  | (none, s) => .ok s

/-- Before other modules perform what passed there, D is set in the leaves of frames that lie there (R306); whether that is done. -/
def settleFar (c : Cx) (s : State) (k : Acc) (qs : List LaneReq) (ps : List (Lane × Place)) (ans : List (Nat × PieceAnswer)) : Bool × State :=
  let l := ((qs.zip ps).flatMap fun x => physPages x.1.chunks x.2.2.all).filter fun x => paClass x.2.1 == 1
  let bad := (causeOf ans).isSome || ps.any fun p => p.2.all.any fun x => match x.1 with | .bad _ => true | _ => false
  let l := if k.writes && !bad then l.map fun x => (x.1, x.2.1) else []
  match setBits s c.vf ((l.flatMap (cleanLeaves s c.vf)).eraseDups) 6 with
  | (true, s) => (true, dirtied s c.vf l)
  | r => r

/-- Translates `.g` requests: NONCANONICAL in any lane first, then every lane before any performs (R150, 14 R310). -/
def globalPlaces (c : Cx) (s : State) (whole : Option Mask) (k : Acc) (qs : List LaneReq) : Except Res (State × List (Lane × Place)) :=
  match c.waited s with
  | some (w, as) =>
    if w.stage = 0 then match settleFar c s k qs w.at_ (keyed as) with
      | (true, s) => .ok (s, w.at_)
      | (false, s) => .error (.remote s w)
    else match settleLanes c s k qs w.at_ with
      | .error r => .error r
      | .ok s => .ok (s, w.at_)
  | none =>
    let bad := qs.filter fun q => q.chunks.any fun x => noncanonical s c.vf x.1
    if !bad.isEmpty then .error (.fault s (faultOver whole causeNoncanonical 0 (bad.map fun q => (q.lane, q.addr))))
    else
      let (xs, s) := translateReqs s c.vf k qs
      match firstCause s whole xs with
      | some r => .error r
      | none =>
        if anyAway xs then .ok (s, placesOf xs)
        else match settleLanes c s k qs (placesOf xs) with
          | .error r => .error r
          | .ok s => .ok (s, placesOf xs)

/-- What a checked access has: the state, where each lane's access lands, and the lanes out of range. -/
structure Landed where
  s : State
  at_ : List (Lane × Place)
  off : Mask

/-- The checks of an access of size `z` in a space, over lanes with their addresses as formed (R146-R151). `whole` is the path's MASK
for a scalar access. -/
def check (c : Cx) (s : State) (whole : Option Mask) (sp : Space) (z align : Nat) (k : Acc) (rd wr : Bool) (qs : List (Lane × W64)) :
    Except Res Landed :=
  let bad := qs.filter fun q => q.2.toNat % align != 0
  if !bad.isEmpty then .error (.fault s (faultOver whole cMisaligned 0 bad))
  else
    match sp with
    | .g =>
      match globalPlaces c s whole k (qs.map fun q => { lane := q.1, addr := q.2, chunks := [(q.2.toNat, z)] }) with
      | .error r => .error r
      | .ok (s, ps) => .ok { s := s, at_ := ps, off := 0 }
    | .k =>
      let size := match s.gridOf c.g with | some d => d.kernel.spill | none => 0
      let beyond := qs.filter fun q => decide (q.2.toInt < 0) || decide ((size : Int) < q.2.toInt + z)
      if !beyond.isEmpty then .error (.fault s (faultOver whole cSpill 0 beyond))
      else
        let chunk (l : Lane) (o : Nat) : List (Nat × Nat) :=
          if z ≤ 4 then [(spillVa c.g l o, z)] else (List.range (z / 4)).map fun i => (spillVa c.g l (o + 4 * i), 4)
        match globalPlaces c s whole k (qs.map fun q =>
            { lane := q.1, addr := BitVec.ofNat 64 (spillVa c.g q.1 q.2.toNat), chunks := chunk q.1 q.2.toNat }) with
        | .error r => .error r
        | .ok (s, ps) => .ok { s := s, at_ := ps, off := 0 }
    | _ =>
      let ls := qs.map fun q => (q, localLoc s c.g sp q.2 z wr)
      let inr := ls.filterMap fun q => q.2.map fun l => (q.1, l)
      let hit := inr.filter fun q => watched s c.vf q.2 z rd wr
      if !hit.isEmpty && !c.skip then .error (.fault s (faultOver whole cWatchpoint 0 (hit.map (·.1))))
      else match if k = .wr then (none, s) else sramLocs s c.vf (inr.map fun q => (q.2, z)) with
      | (some x, s) => .error (.stop s x)
      | (none, s) => .ok { s := if sp = .s then s else { s with uses := s.uses ++ inr.map fun _ => .xbar c.vf }, at_ := inr.map fun q => (q.1.1, .here [(q.2, z)]),
                           off := maskOf ((ls.filter fun q => q.2.isNone).map fun q => q.1.1) }

/-- Causes that the answers bring, by lane, with the addresses as formed: of each lane the first of its pieces that fails. -/
def laneCauses (ps : List (Lane × Place)) (addr : Nat → W64) (ans : List (Nat × PieceAnswer)) : List (Lane × W64 × W8) :=
  let xs := numbered (ps.map (·.2))
  (ps.zip (List.range ps.length)).filterMap fun p =>
    ((xs.filter fun x => x.ix == p.2).findSome? fun x => match x.loc with
      | .bad c => some c
      | _ => ans.findSome? fun a => match a with | (k, .cause c) => if k = x.key then some c else none | _ => none).map
    fun c => (p.1.1, addr p.2, c)

/-- A path that has asked other modules to translate. -/
def RemoteWait.first (ps : List (Lane × Place)) : RemoteWait := { at_ := ps, stage := 0, data := [], slot := none, record := 0 }

/-- What lane accesses leave when their bytes come: `n` registers from `d` of lanes of a size, none for a store. -/
structure FarRes where
  d : VReg := 0
  n : Nat := 0
  z : Size := .w
  sx : Bool := false

/-- A register of the window that the path's instruction issued in: one that has been freed and added again since is another (01 R9, 08
R227). -/
def Path.keeps (p : Path) (n : VReg) : Bool := match p.lost with | some k => decide (n.toNat < k) | none => true

/-- Whether a place lies here or elsewhere, not both. -/
def Place.whole (p : Place) : Bool := (p.all.all fun x => x.1.away.isSome) || p.all.all fun x => x.1.away.isNone

/-- Accesses that have passed every check go on by themselves where other modules perform them; what lies here is performed at once, and the
path issues on (10 R253). -/
def goFar (c : Cx) (s : State) (ps : List (Lane × Place)) (f : FarRes) (act : State → List (Nat × PieceAnswer) → Res) : Res :=
  let id := s.handle
  let far := maskOf ((ps.filter fun p => p.2.isRemote).map (·.1))
  match act { handAsks s (.path c.r) (.op c.r.g id) with handle := id + 1 } [] with
  | .done s => match s.group c.r.g with
    | some g =>
      let o : EngOp := { id := id, own := c.p.mask, landed := [], go := true,
                         kind := .far ps (((List.range f.n).map fun i => f.d + BitVec.ofNat 8 i).filter c.p.keeps) f.d f.z f.sx }
      let lands := (g.lands.map fun l => if id < l.id then { l with mask := l.mask &&& ~~~far } else l).filter fun l => l.mask != 0
      .done (s.setGroup c.r.g { g with lands := lands, ops := g.ops ++ [o] })
    | none => .done s
  | r => r

/-- Performs an access whose checks have passed. Pieces of other modules are first translated there, every lane before any performs; then
those modules perform theirs, and `act` makes the effect here with what they answered (14 R310, 16 R347). `addr` is the address that a fault
reports of each place; `own` where lines stay owned there; `late` what the access leaves, where its path need not wait for it. -/
def performAt (c : Cx) (s : State) (whole : Option Mask) (ps : List (Lane × Place)) (addr : Nat → W64) (mk : Piece → W64 → RemoteOp)
    (act : State → List (Nat × PieceAnswer) → Res) (own : Bool := false) (late : Option FarRes := none) : Res :=
  if !(ps.any fun p => p.2.isRemote) then act s []
  else
    match c.waited s with
    | none => .remote (askPlaces s (.path c.r) c.vf c.g.lin own (ps.map (·.2)) mk) (RemoteWait.first ps)
    | some (w, as) =>
      if w.stage = 0 then
        match remoteFault s whole (laneCauses ps addr (keyed as)) with
        | some r => r
        | none =>
          let s := goAsks s (.path c.r) c.g.lin own
          match late with
          | some f => if ps.all fun p => p.2.whole then goFar c s ps f act else .remote s { w with stage := 1 }
          | none => .remote s { w with stage := 1 }
      else act s (keyed as)

/-- `performAt` for lanes with one access each; `mk` makes the operation of a lane. -/
def perform (c : Cx) (l : Landed) (whole : Option Mask) (qs : List (Lane × W64)) (mk : Lane → Piece → W64 → RemoteOp)
    (act : State → List (Nat × PieceAnswer) → Res) (late : Option FarRes := none) : Res :=
  performAt c l.s whole l.at_ (fun i => ((qs[i]?).map (·.2)).getD 0) (fun p a => mk (((l.at_[p.ix]?).map (·.1)).getD 0) p a) act (late := late)

/-- The addresses that a REMOTE_FAULT reports: of a `.k` access the virtual address of its first byte (R148). -/
def faddrs (c : Cx) (sp : Space) (qs : List (Lane × W64)) : List (Lane × W64) :=
  if sp = .k then qs.map fun q => (q.1, BitVec.ofNat 64 (spillVa c.g q.1 q.2.toNat)) else qs

/-- Stores a lane's bytes; those of other modules have been performed there. -/
def laneWrite (s : State) (p : Place) (d : List W8) : State := s.writeLocs p.all d

/-- A read of a piece, and a write of its part of a lane's bytes. -/
def readOp (_ : Lane) (p : Piece) (a : W64) : RemoteOp := .read a p.len
def writeOp (f : Lane → List W8) (l : Lane) (p : Piece) (a : W64) : RemoteOp := .write a (((f l).drop p.off).take p.len)

/-- The bytes of each lane's place. -/
def dataOf (s : State) (ps : List (Lane × Place)) (ans : List (Nat × PieceAnswer)) : List (Lane × List W8) :=
  (ps.map (·.1)).zip (readPlaces s (ps.map (·.2)) ans)

/-- Finishes an access: lanes out of range are switched off (R151, 12 R274). -/
def finish (c : Cx) (s : State) (off : Mask) : Res :=
  if off = 0 then .done s
  else
    let s := match s.path c.r with
      | some (_, p) => s.setPath c.r { p with pc := c.npc, st := .ready }
      | none => s
    .moved (laneOff s c.r off) (if c.p.mask &&& ~~~off = 0 then [] else [c.r.p])

/-- Puts a lane-register result on its way (05 R121, 10 R253). -/
def land (c : Cx) (s : State) (m : Mask) (rs : List (VReg × Lanes W32)) : State :=
  let rs := rs.filter fun x => c.p.keeps x.1
  if m = 0 then s
  else
    match s.group c.r.g with
    | some g => { s.setGroup c.r.g { g with lands := g.lands ++ [{ id := s.handle, mask := m, regs := rs }] } with
                  handle := s.handle + 1 }
    | none => s

end Sys2Proof.Machine
end

