-- ==== Sys2Proof/Machine/Scalar.lean ====
section
/-! DEFINITION. Scalar integer, scalar floating-point and predicate instructions (04 R105-R109). -/

namespace Sys2Proof.Machine

abbrev Out := Host.Outcome State Fault Refusal

/-- A scalar result of two operands. -/
def sBin (h : Hdr) (o : SBin) (f : W64 → W64 → W64) (s : State) : Out :=
  .next (run (uSBin o) h (scalar o.d fun c => f (c.p.getS o.a) (c.p.opB o.b)) s)

/-- A scalar shift by opB[5:0]. -/
def sShift (h : Hdr) (o : SBin) (f : W64 → Nat → W64) (s : State) : Out :=
  .next (run (uSBin o) h (scalar o.d fun c => f (c.p.getS o.a) ((c.p.opU o.b).toNat % 64)) s)

/-- A sum or difference, wrapped or under `.sat` clamped to INT64. -/
def sSum (h : Hdr) (o : SSat) (f : Int → Int → Int) (s : State) : Out :=
  .next (run (uSSat o) h (scalar o.d fun c => narrow 64 o.sat false (f (c.p.getS o.a).toInt (c.p.opB o.b).toInt)) s)

def execSadd (h : Hdr) (o : SSat) (s : State) : Out := sSum h o (· + ·) s
def execSsub (h : Hdr) (o : SSat) (s : State) : Out := sSum h o (· - ·) s
def execSaddi (h : Hdr) (o : SImm) (s : State) : Out :=
  .next (run (uSImm o) h (scalar o.d fun c => c.pc + o.imm.signExtend 64) s)
def execSmul (h : Hdr) (o : SBin) (s : State) : Out := sBin h o (· * ·) s
def execSmulh (h : Hdr) (o : SBin) (s : State) : Out :=
  sBin h o (fun a b => ((a.signExtend 128 * b.signExtend 128) >>> 64).setWidth 64) s
def execSand (h : Hdr) (o : SBin) (s : State) : Out := sBin h o (· &&& ·) s
def execSor (h : Hdr) (o : SBin) (s : State) : Out := sBin h o (· ||| ·) s
def execSxor (h : Hdr) (o : SBin) (s : State) : Out := sBin h o (· ^^^ ·) s
def execSshl (h : Hdr) (o : SBin) (s : State) : Out := sShift h o (fun a n => a <<< n) s
def execSshr (h : Hdr) (o : SBin) (s : State) : Out := sShift h o (fun a n => a >>> n) s
def execSsra (h : Hdr) (o : SBin) (s : State) : Out := sShift h o (fun a n => a.sshiftRight n) s
def execSmin (h : Hdr) (o : SBin) (s : State) : Out := sBin h o (fun a b => if b.slt a then b else a) s
def execSmax (h : Hdr) (o : SBin) (s : State) : Out := sBin h o (fun a b => if a.slt b then b else a) s
def execSminu (h : Hdr) (o : SBin) (s : State) : Out := sBin h o (fun a b => if b.ult a then b else a) s
def execSmaxu (h : Hdr) (o : SBin) (s : State) : Out := sBin h o (fun a b => if a.ult b then b else a) s
def execSclz (h : Hdr) (o : SUn) (s : State) : Out :=
  .next (run (uSUn o) h (scalar o.d fun c => BitVec.ofNat 64 (zclz (c.p.getS o.a))) s)
def execSpopc (h : Hdr) (o : SUn) (s : State) : Out :=
  .next (run (uSUn o) h (scalar o.d fun c => BitVec.ofNat 64 (popc (c.p.getS o.a))) s)

/-- `w` ones from bit 0. -/
def ones64 (w : Nat) : W64 := ~~~((~~~0#64) <<< w)

/-- R106. -/
def execSbfx (h : Hdr) (o : SBits) (s : State) : Out :=
  .next (run (uSBits o) h (scalar o.d fun c => (c.p.getS o.a >>> o.pos.toNat) &&& ones64 (o.wm1.toNat + 1)) s)
def execSbfi (h : Hdr) (o : SBits) (s : State) : Out :=
  .next (run (uSBits o) h (scalar o.d fun c =>
    let m := ones64 (o.wm1.toNat + 1) <<< o.pos.toNat
    (c.p.getS o.d &&& ~~~m) ||| ((c.p.getS o.a <<< o.pos.toNat) &&& m)) s)

/-- R107. -/
def execSsel (h : Hdr) (o : SBin) (s : State) : Out :=
  .next (run (uSBin o) h (scalar o.d fun c => if c.p.getS o.d ≠ 0 then c.p.getS o.a else c.p.opB o.b) s)
def execScmp (h : Hdr) (o : SCmp) (s : State) : Out :=
  .next (run (uSCmp o) h (scalar o.d fun c => bit64 (condHolds o.cc (c.p.getS o.a) (c.p.opB o.b))) s)
def execSli (h : Hdr) (o : SImm) (s : State) : Out :=
  .next (run (uSImm o) h (scalar o.d fun _ => o.imm.signExtend 64) s)
def execSlih (h : Hdr) (o : SImm) (s : State) : Out :=
  .next (run (uSImm o) h (scalar o.d fun c => o.imm ++ (c.p.getS o.d).setWidth 32) s)
def execSmov (h : Hdr) (o : SMov) (s : State) : Out :=
  .next (run (uSMov o) h (scalar o.d fun c => c.p.opB o.a) s)

/-! ### Scalar floating point (R108) -/

def SFty.fmt : SFty → Fmt
  | .f32 => .f32 | .f16 => .f16 | .bf16 => .bf16

/-- The bits of a scalar register that its format reads (03 R90). -/
def fpBits (t : SFty) (x : W64) : Nat := x.toNat % 2 ^ (SFty.fmt t).bits

def execSfadd (h : Hdr) (o : SFp) (s : State) : Out :=
  .next (run (uSFp o) h (scalar o.d fun c =>
    BitVec.ofNat 64 (fpAdd (SFty.fmt o.t) (.mode o.rm) (fpBits o.t (c.p.getS o.a)) (fpBits o.t (c.p.getS o.b)))) s)
def execSfmul (h : Hdr) (o : SFp) (s : State) : Out :=
  .next (run (uSFp o) h (scalar o.d fun c =>
    BitVec.ofNat 64 (fpMul (SFty.fmt o.t) (.mode o.rm) (fpBits o.t (c.p.getS o.a)) (fpBits o.t (c.p.getS o.b)))) s)
def execSfma (h : Hdr) (o : SFma) (s : State) : Out :=
  .next (run (uSFma o) h (scalar o.d fun c =>
    BitVec.ofNat 64 (fpFma (SFty.fmt o.t) (.mode o.rm) (fpBits o.t (c.p.getS o.a)) (fpBits o.t (c.p.getS o.b))
      (fpBits o.t (c.p.getS o.c)))) s)
def execSfcmp (h : Hdr) (o : SFCmp) (s : State) : Out :=
  .next (run (uSFCmp o) h (scalar o.d fun c =>
    bit64 (FCond.holds o.cc (unpack (SFty.fmt o.t) (fpBits o.t (c.p.getS o.a))) (unpack (SFty.fmt o.t) (fpBits o.t (c.p.getS o.b))))) s)

/-- `sfcvt` (03 R90): INT32 results are sign-extended, UINT32 results zero-extended. -/
def sfcvt (o : SFCvt) (x : W64) : W64 :=
  let src := SFty.fmt o.src
  let a := fpBits o.src x
  let toF (f : Fmt) : W64 := BitVec.ofNat 64 (cvtFF f src (.mode o.rm) o.sat a)
  match o.dst with
  | .f32 => toF .f32
  | .f16 => toF .f16
  | .bf16 => toF .bf16
  | .int32 => BitVec.ofInt 64 (cvtFI 32 true src o.rm a)
  | .uint32 => BitVec.ofInt 64 (cvtFI 32 false src o.rm a)
  | .int64 => BitVec.ofInt 64 (cvtFI 64 true src o.rm a)
  | .uint64 => BitVec.ofInt 64 (cvtFI 64 false src o.rm a)

def execSfcvt (h : Hdr) (o : SFCvt) (s : State) : Out :=
  .next (run (uSFCvt o) h (scalar o.d fun c => sfcvt o (c.p.getS o.a)) s)

/-! ### Predicates (R109) -/

/-- A predicate result in the lanes of EMASK. -/
def kTo (d : KReg) (f : Cx → Mask) : Cx → State → Res := regs fun c => (c.g.setK d c.em (f c), c.p)

def execKand (h : Hdr) (o : KBin) (s : State) : Out := .next (run (uKBin o) h (kTo o.d fun c => c.g.getK o.a &&& c.g.getK o.b) s)
def execKor (h : Hdr) (o : KBin) (s : State) : Out := .next (run (uKBin o) h (kTo o.d fun c => c.g.getK o.a ||| c.g.getK o.b) s)
def execKxor (h : Hdr) (o : KBin) (s : State) : Out := .next (run (uKBin o) h (kTo o.d fun c => c.g.getK o.a ^^^ c.g.getK o.b) s)
def execKnot (h : Hdr) (o : KUn) (s : State) : Out := .next (run (uKUn o) h (kTo o.d fun c => ~~~(c.g.getK o.a)) s)
def execKmov (h : Hdr) (o : KUn) (s : State) : Out := .next (run (uKUn o) h (kTo o.d fun c => c.g.getK o.a) s)
def execKany (h : Hdr) (o : KRed) (s : State) : Out :=
  .next (run (uKRed o) h (scalar o.d fun c => bit64 (c.g.getK o.a &&& c.em != 0)) s)
def execKall (h : Hdr) (o : KRed) (s : State) : Out :=
  .next (run (uKRed o) h (scalar o.d fun c => bit64 (c.g.getK o.a &&& c.em == c.em)) s)
def execKcount (h : Hdr) (o : KRed) (s : State) : Out :=
  .next (run (uKRed o) h (scalar o.d fun c => BitVec.ofNat 64 (c.g.getK o.a &&& c.em).lanes.length) s)
def execKset (h : Hdr) (o : KSet) (s : State) : Out :=
  .next (run (uKSet o) h (kTo o.d fun c => (c.p.getS o.a).setWidth 8) s)
def execKget (h : Hdr) (o : KRed) (s : State) : Out :=
  .next (run (uKRed o) h (scalar o.d fun c => (c.g.getK o.a &&& c.em).setWidth 64) s)

end Sys2Proof.Machine
end

