-- ==== Sys2Proof/Machine/Control.lean ====
section
/-! DEFINITION. Control flow (04 R110-R119). -/

namespace Sys2Proof.Machine

/-- PC + 8 x TOFF (02 R55). -/
def brTarget (pc : W64) (toff : W32) : W64 := pc + 8 * toff.signExtend 64

/-- PC + 8 x ROFF. -/
def brRecon (pc : W64) (roff : BitVec 20) : W64 := pc + 8 * roff.signExtend 64

def misaligned8 (a : W64) : Bool := a &&& 7 != 0

/-- Lanes of MASK whose condition c(l) holds (R111). -/
def taken (h : Hdr) (c : Cx) : Mask := c.p.mask &&& c.g.pred h

/-- R112. -/
def bruBody (h : Hdr) (toff : W32) (c : Cx) (s : State) : Res :=
  let t := taken h c
  let go (b : Bool) : Res := if b then .jump s (brTarget c.pc toff) else .done s
  if t = c.p.mask then go true
  else if t = 0 then go false
  else if c.g.uchk then .fault s (FaultInfo.of cUniform c.p.mask)
  else go (t.has c.p.mask.low)

def execBru (h : Hdr) (toff : W32) (s : State) : Out := .next (run uCtl h (bruBody h toff) s)

/-- A group in serial mode takes no second one: a path that would enter it waits for its end (log entry 22). -/
def serialBusy (c : Cx) (k : Nat) : Bool := match c.g.ser with | some z => z.p != c.r.p && !c.g.splits c.p k | none => false

/-- The path diverges into children (R99, R100), which all stand after the branch (10 R256); lane runs of serial mode do not. -/
def divergeTo (c : Cx) (s : State) (cs : List (W64 × Mask)) (next : Lanes W64) (rs : W64) : Res :=
  if serialBusy c cs.length then .stall
  else .moved (s.setGroup c.r.g (c.g.diverge c.r.p c.p cs next rs))
    (if c.g.splits c.p cs.length then c.g.childEntries c.r.p cs.length else [])

/-- R113: the T child and the F child, whatever their addresses, in the order of their lowest lanes. -/
def brBody (h : Hdr) (o : Br) (c : Cx) (s : State) : Res :=
  let t := taken h c
  let f := c.p.mask &&& ~~~t
  let tgt := brTarget c.pc o.toff
  if f = 0 then .jump s tgt
  else if t = 0 then .done s
  else divergeTo c s (if t.has c.p.mask.low then [(tgt, t), (c.npc, f)] else [(c.npc, f), (tgt, t)])
    (Bank.gen fun l => if t.has l then tgt else c.npc) (brRecon c.pc o.roff)

def execBr (h : Hdr) (o : Br) (s : State) : Out := .next (run uCtl h (brBody h o) s)

/-- R114. -/
def brxBody (o : Brx) (c : Cx) (s : State) : Res :=
  let t := c.g.pairs64 o.a
  let bad := Mask.of fun l => c.em.has l && misaligned8 (t.rd l)
  if bad ≠ 0 then .fault s (FaultInfo.lanes cMisaligned bad t)
  else
    let next : Lanes W64 := Bank.gen fun l => if c.em.has l then t.rd l else c.npc
    let tgt := next.rd c.p.mask.low
    if c.p.mask.lanes.all fun l => next.rd l == tgt then .jump s tgt
    else divergeTo c s (splitChildren c.p.mask next) next (brRecon c.pc o.roff)

def execBrx (h : Hdr) (o : Brx) (s : State) : Out := .next (run (uBrx o) h (brxBody o) s)

def execJmp (h : Hdr) (toff : W32) (s : State) : Out := .next (run uCtl h (fun c s => .jump s (brTarget c.pc toff)) s)

/-- A jump to a register's address, which must be a multiple of 8 (R110). -/
def jumpTo (c : Cx) (s : State) (t : W64) : Res :=
  if misaligned8 t then .fault s (FaultInfo.at cMisaligned c.p.mask t) else .jump s t

def execJmpr (h : Hdr) (a : SReg) (s : State) : Out := .next (run (uSReg a) h (fun c s => jumpTo c s (c.p.getS a)) s)

/-- R115: uniformity before alignment; the alignment check is of the target taken. -/
def jmpvBody (a : VReg) (c : Cx) (s : State) : Res :=
  let t := c.g.pairs64 a
  let x := t.rd c.p.mask.low
  if (c.p.mask.lanes.any fun l => t.rd l != x) && c.g.uchk then .fault s (FaultInfo.of cUniform c.p.mask)
  else jumpTo c s x

def execJmpv (h : Hdr) (a : VReg) (s : State) : Out := .next (run (uJmpV a) h (jmpvBody a) s)

/-! ### Calls (R116) -/

/-- The spill size of a group's kernel. -/
def spillSize (c : Cx) (s : State) : Nat := match s.gridOf c.g with | some d => d.kernel.spill | none => 0

/-- Spill bytes `o` to `o + 4n - 1` of a lane, slot by slot. -/
def spillChunks (g : Group) (l : Lane) (o n : Nat) : List (Nat × Nat) :=
  (List.range n).map fun i => (spillVa g l (o + 4 * i), 4)

/-- A request for spill slots of a lane; FADDR is its first byte's address (R148). -/
def spillReq (g : Group) (o n : Nat) (l : Lane) : LaneReq :=
  { lane := l, addr := BitVec.ofNat 64 (spillVa g l o), chunks := spillChunks g l o n }

/-- FADDR of the lanes of a list in the spill area from byte `o` (R148). -/
def spillFaddr (c : Cx) (o : Nat) (ls : List Lane) (i : Nat) : W64 := BitVec.ofNat 64 (spillVa c.g (ls.getD i 0) o)

/-- Writes bytes at the places of several lanes. -/
def writeAll (s : State) (ps : List (Lane × Place)) (f : Lane → List W8) : State :=
  ps.foldl (fun s p => laneWrite s p.2 (f p.1)) s

def callBody (target : Cx → W64) (c : Cx) (s : State) : Res :=
  let t := target c
  let sp := c.p.getS 61
  if misaligned8 t then .fault s (FaultInfo.at cMisaligned c.p.mask t)
  else if sp &&& 3 ≠ 0 then .fault s (FaultInfo.at cMisaligned c.p.mask sp)
  else if sp.toNat < 8 ∨ spillSize c s < sp.toNat then .fault s (FaultInfo.at cSpill c.p.mask sp)
  else
    match globalPlaces c s none .wr (c.p.mask.lanes.map (spillReq c.g (sp.toNat - 8) 2)) with
    | .error r => r
    | .ok (s, ps) =>
      let d := natLe 8 (c.p.getS 62).toNat
      performAt c s none ps (spillFaddr c (sp.toNat - 8) c.p.mask.lanes) (fun p a => writeOp (fun _ => d) 0 p a) fun s _ =>
        .jump ((writeAll s ps fun _ => d).setPath c.r ((c.p.setS 61 (sp - 8)).setS 62 c.npc)) t

def execCall (h : Hdr) (toff : W32) (s : State) : Out := .next (run uCall h (callBody fun c => brTarget c.pc toff) s)
def execCallr (h : Hdr) (a : SReg) (s : State) : Out := .next (run (uCallR a) h (callBody fun c => c.p.getS a) s)

/-- R116. The spill read of the lowest lane faults in every lane of MASK: DESIGN CHOICE, the rule names no lanes (log entry 41). -/
def retBody (c : Cx) (s : State) : Res :=
  let t := c.p.getS 62
  let sp := c.p.getS 61
  if misaligned8 t then .fault s (FaultInfo.at cMisaligned c.p.mask t)
  else if sp &&& 3 ≠ 0 then .fault s (FaultInfo.at cMisaligned c.p.mask sp)
  else if spillSize c s < sp.toNat + 8 then .fault s (FaultInfo.at cSpill c.p.mask sp)
  else
    match globalPlaces c s (some c.p.mask) .rd [spillReq c.g sp.toNat 2 c.p.mask.low] with
    | .error r => r
    | .ok (s, ps) =>
      performAt c s (some c.p.mask) ps (spillFaddr c sp.toNat [c.p.mask.low]) (readOp 0) fun s ans =>
        let d := (readPlaces s (ps.map (·.2)) ans).headD (zeros 8)
        .jump (s.setPath c.r ((c.p.setS 62 (BitVec.ofNat 64 (leNat d))).setS 61 (sp + 8))) t

def execRet (h : Hdr) (s : State) : Out := .next (run uCall h retBody s)

/-! ### rcv, sloop, exit -/

/-- A path at user level whose RCV is this address arrives (R101, R117). -/
def arriveAt (c : Cx) (s : State) : Res :=
  if c.p.sup then .done s
  else
    match c.p.join with
    | some j =>
      if c.p.rcv = some c.pc then
        let g := c.g.arrive c.r.p c.p j c.npc
        .moved (s.setGroup c.r.g g) (if (g.paths.rd c.r.p).isSome then [c.r.p] else [])
      else .done s
    | none => .done s

/-- R117, R103. A path that is not the lane run of a serial mode arrives as outside it: DESIGN CHOICE, the rules say nothing of one that has
returned from a handler and kept its slot while the group is in serial mode (log entry 22). -/
def rcvBody (c : Cx) (s : State) : Res :=
  match c.g.ser with
  | some z =>
    if z.p = c.r.p && z.sup == c.p.sup then
      if z.rs = c.pc then
        let z := { z with arr := z.arr ++ [c.p.arrival], npc := c.npc }
        match c.g.serialNext z c.p with
        | some g => .moved (s.setGroup c.r.g g) (if z.todo = 0 then [c.r.p] else [])
        | none => .done s
      else .done s
    else arriveAt c s
  | none => arriveAt c s

def execRcv (h : Hdr) (s : State) : Out := .next (run uCtl h rcvBody s)

/-- R118. -/
def sloopBody (o : SLoop) (c : Cx) (s : State) : Res :=
  let v := c.p.getS o.d - 1
  let s := s.setPath c.r (c.p.setS o.d v)
  if v ≠ 0 then .jump s (brTarget c.pc o.toff) else .done s

def execSloop (h : Hdr) (o : SLoop) (s : State) : Out := .next (run (uSLoop o) h (sloopBody o) s)

/-- Lanes of a path end at its instruction; those that stay go on at the fall-through. -/
def leaveLanes (c : Cx) (s : State) (m : Mask) : Res :=
  .moved (endLanes s c.r m) (if c.p.mask &&& ~~~m = 0 then [] else [c.r.p])

/-- R119. -/
def exitBody (c : Cx) (s : State) : Res :=
  if c.em = 0 then .done s else leaveLanes c (s.setPath c.r { c.p with pc := c.npc }) c.em

def execExit (h : Hdr) (s : State) : Out := .next (run uCtl h exitBody s)

end Sys2Proof.Machine
end

