-- ==== Sys2Proof/Machine/Mem.lean ====
section
/-! DEFINITION. Loads, stores, atomics, prefetch, fence, wait, indexed registers, spill and fill (06 R157-R171). The model performs each
access at its home when its instruction steps, so an ordering or a scope adds nothing (log entry 3). -/

namespace Sys2Proof.Machine

/-! ### Addresses (R146) -/

/-- The address of lane `l`. -/
def addrOf (c : Cx) (sp : Space) (z : Nat) (a : Addr) (off : W32) (l : Lane) : W64 :=
  let o := off.signExtend 64
  match a with
  | .vec r => (if sp = .g then c.g.pair r l else ((c.g.seen r).rd l).setWidth 64) + o
  | .scaled s b => c.p.getS s + ((c.g.seen b).rd l).signExtend 64 * BitVec.ofNat 64 z + o
  | .lanes s => c.p.getS s + o + (if sp = .k then 0 else BitVec.ofNat 64 (l.toNat * z))

/-- The lanes of EMASK with their addresses. -/
def addrs (c : Cx) (sp : Space) (z : Nat) (a : Addr) (off : W32) : List (Lane × W64) :=
  c.em.lanes.map fun l => (l, addrOf c sp z a off l)

/-! ### Plain loads and stores (R157, R158) -/

/-- Register `i` of a loaded lane. -/
def loadedReg (z : Size) (sx : Bool) (d : List W8) (i : Nat) : W32 :=
  match z with
  | .b => let x := BitVec.ofNat 8 (leNat d); if sx then x.signExtend 32 else x.setWidth 32
  | .h => let x := BitVec.ofNat 16 (leNat d); if sx then x.signExtend 32 else x.setWidth 32
  | .w | .d | .q => BitVec.ofNat 32 (field d (4 * i) 4)

/-- Lane values of an access by lane number. -/
def laneData (s : State) (at_ : List (Lane × Place)) (ans : List (Nat × PieceAnswer)) : Lanes (List W8) :=
  let l := dataOf s at_ ans
  Bank.gen fun k => match l.find? fun p => p.1 == k with
    | some p => p.2
    | none => []

def vldBody (o : VLd) (c : Cx) (s : State) : Res :=
  let z := sizeBytes o.z
  let qs := addrs c o.sp z o.addr o.off
  match check c s none o.sp z z .rd true false qs with
  | .error r => r
  | .ok l => perform c l none (faddrs c o.sp qs) readOp (fun s ans =>
      let d := laneData s l.at_ ans
      let rs := (List.range (sizeRegs o.z)).map fun i =>
        (o.d + BitVec.ofNat 8 i, (Bank.gen fun k => loadedReg o.z o.sx (d.rd k) i : Lanes W32))
      finish c (land c s (maskOf (l.at_.map (·.1))) rs) l.off)
    (late := some { d := o.d, n := sizeRegs o.z, z := o.z, sx := o.sx })

def execVld (h : Hdr) (o : VLd) (s : State) : Out := .next (run (uVLd o) h (vldBody o) s)

/-- The bytes a lane stores from a register, pair or block. -/
def storeBytes (c : Cx) (z : Size) (d : VReg) (l : Lane) : List W8 :=
  ((List.range (sizeRegs z)).flatMap fun i => natLe 4 ((c.g.seen (d + BitVec.ofNat 8 i)).rd l).toNat).take (sizeBytes z)

def vstBody (o : VSt) (c : Cx) (s : State) : Res :=
  let z := sizeBytes o.z
  let qs := addrs c o.sp z o.addr o.off
  match check c s none o.sp z z .wr false true qs with
  | .error r => r
  | .ok l => perform c l none (faddrs c o.sp qs) (writeOp (storeBytes c o.z o.d)) (fun s _ =>
      finish c (writeAll s l.at_ (storeBytes c o.z o.d)) l.off) (late := some {})

def execVst (h : Hdr) (o : VSt) (s : State) : Out := .next (run (uVSt o) h (vstBody o) s)

/-- The one access of a scalar instruction, numbered as lane 0. -/
def scalarReq (c : Cx) (a : SReg) (off : W32) : List (Lane × W64) := [(0, c.p.getS a + off.signExtend 64)]

/-- Finishes a scalar access: out of range switches off the whole path (R151). -/
def finishScalar (c : Cx) (s : State) (l : Landed) (f : State → State) : Res :=
  if l.off = 0 then .done (f s) else finish c s c.p.mask

/-- A loaded scalar (R158). -/
def loadedScalar (z : Size) (sx : Bool) (d : List W8) : W64 :=
  let n := 8 * sizeBytes z
  let x := BitVec.ofNat n (leNat d)
  if sx then x.signExtend 64 else x.setWidth 64

def firstData (s : State) (l : Landed) (ans : List (Nat × PieceAnswer)) (z : Nat) : List W8 :=
  (readPlaces s (l.at_.map (·.2)) ans).headD (zeros z)

/-- A scalar result of the executing path, in the state after an access. -/
def putS (c : Cx) (d : SReg) (v : W64) (s : State) : State :=
  match s.path c.r with
  | some (_, p) => s.setPath c.r (p.setS d v)
  | none => s

def sldBody (o : SLd) (c : Cx) (s : State) : Res :=
  let z := sizeBytes o.z
  let qs := scalarReq c o.a o.off
  match check c s (some c.p.mask) o.sp z z .rd true false qs with
  | .error r => r
  | .ok l => perform c l (some c.p.mask) qs readOp fun s ans =>
      finishScalar c s l (putS c o.d (loadedScalar o.z o.sx (firstData s l ans z)))

def execSld (h : Hdr) (o : SLd) (s : State) : Out := .next (run (uSLd o) h (sldBody o) s)

def sstBody (o : SSt) (c : Cx) (s : State) : Res :=
  let z := sizeBytes o.z
  let d := (natLe 8 (c.p.getS o.d).toNat).take z
  let qs := scalarReq c o.a o.off
  match check c s (some c.p.mask) o.sp z z .wr false true qs with
  | .error r => r
  | .ok l => perform c l (some c.p.mask) qs (writeOp fun _ => d)
      (fun s _ => finishScalar c s l fun s => writeAll s l.at_ fun _ => d) (late := some {})

def execSst (h : Hdr) (o : SSt) (s : State) : Out := .next (run (uSSt o) h (sstBody o) s)

/-! ### Atomics (R159-R161) -/

/-- op(m, b) on `w` bits (R159). -/
def atomOp (op : AtomOp) (w : Nat) (m b : Nat) : Nat :=
  let x := BitVec.ofNat w m
  let y := BitVec.ofNat w b
  match op with
  | .add => (x + y).toNat
  | .and => (x &&& y).toNat
  | .or => (x ||| y).toNat
  | .xor => (x ^^^ y).toNat
  | .exch => y.toNat
  | .min => (if y.slt x then y else x).toNat
  | .max => (if x.slt y then y else x).toNat
  | .minu => (if y.ult x then y else x).toNat
  | .maxu => (if x.ult y then y else x).toNat
  | .fadd => fpAdd .f32 (.mode .rne) m b
  | .fmin => fpMin .f32 m b
  | .fmax => fpMax .f32 m b

/-- One lane's indivisible read and write at its place, which is one piece; another module's was performed there. -/
def atomAt (s : State) (p : Place) (ans : List (Nat × PieceAnswer)) (key z : Nat) (f : Nat → Nat) : Nat × State :=
  match p with
  | .here l =>
    let m := leNat (s.readLocs l)
    (m, s.writeLocs l (natLe z (f m)))
  | .remote _ => (leNat (pieceData ans key z), s)

/-- The lanes in ascending order, each reading what the lower ones left (R156). -/
def atomLanes (s : State) (ans : List (Nat × PieceAnswer)) (z : Nat) (f : Lane → Nat → Nat) (key : Nat) :
    List (Lane × Place) → List (Lane × Nat) × State
  | [] => ([], s)
  | (l, p) :: rest =>
    let (m, s) := atomAt s p ans key z (f l)
    let (ms, s) := atomLanes s ans z f (key + 1) rest
    ((l, m) :: ms, s)

/-- What an atomic's destination receives: the old values, in a register or a pair. -/
def atomResult (d : VReg) (z : Size) (ms : List (Lane × Nat)) : List (VReg × Lanes W32) :=
  (List.range (sizeRegs z)).map fun i =>
    (d + BitVec.ofNat 8 i, Bank.gen fun l => match ms.find? fun m => m.1 == l with
      | some m => BitVec.ofNat 32 (m.2 / 2 ^ (32 * i))
      | none => 0)

/-- A lane operand of one register or a pair. -/
def laneOperand (c : Cx) (z : Size) (b : VReg) (l : Lane) : Nat :=
  if z = .d then (c.g.pair b l).toNat else ((c.g.seen b).rd l).toNat

def atomBody (c : Cx) (s : State) (z : Size) (sp : Space) (d a : VReg) (off : W32) (op : Lane → W64 → RemoteOp) (f : Lane → Nat → Nat) :
    Res :=
  let n := sizeBytes z
  let qs := addrs c sp n (.vec a) off
  match check c s none sp n n .rmw true true qs with
  | .error r => r
  | .ok l => perform c l none qs (fun l _ a => op l a) (fun s ans =>
      let (ms, s) := atomLanes s ans n f 0 l.at_
      finish c (land c s (maskOf (l.at_.map (·.1))) (atomResult d z ms)) l.off) (late := some { d := d, n := sizeRegs z, z := z })

def execVatom (h : Hdr) (o : VAtom) (s : State) : Out :=
  .next (run (uVAtom o) h (fun c s => atomBody c s o.z o.sp o.d o.a o.off
    (fun l a => .atom a o.op o.z (BitVec.ofNat 64 (laneOperand c o.z o.b l)))
    (fun l m => atomOp o.op (8 * sizeBytes o.z) m (laneOperand c o.z o.b l))) s)

def execVcas (h : Hdr) (o : VCas) (s : State) : Out :=
  .next (run (uVCas o) h (fun c s => atomBody c s o.z o.sp o.d o.a o.off
    (fun l a => .cas a o.z (BitVec.ofNat 64 (laneOperand c o.z o.b l)) (BitVec.ofNat 64 (laneOperand c o.z o.c l)))
    (fun l m => if m = laneOperand c o.z o.b l then laneOperand c o.z o.c l else m)) s)

def satomBody (c : Cx) (s : State) (z : Size) (sp : Space) (d a : SReg) (off : W32) (op : Lane → W64 → RemoteOp) (f : Nat → Nat) : Res :=
  let n := sizeBytes z
  let qs := scalarReq c a off
  match check c s (some c.p.mask) sp n n .rmw true true qs with
  | .error r => r
  | .ok l => perform c l (some c.p.mask) qs (fun l _ a => op l a) fun s ans =>
      let (ms, s) := atomLanes s ans n (fun _ => f) 0 l.at_
      finishScalar c s l (putS c d (BitVec.ofNat 64 (match ms with | m :: _ => m.2 | [] => 0)))

def scalarOperand (c : Cx) (z : Size) (b : SReg) : Nat := (c.p.getS b).toNat % 2 ^ (8 * sizeBytes z)

def execSatom (h : Hdr) (o : SAtom) (s : State) : Out :=
  .next (run (uSAtom o) h (fun c s => satomBody c s o.z o.sp o.d o.a o.off
    (fun _ a => .atom a o.op o.z (BitVec.ofNat 64 (scalarOperand c o.z o.b)))
    (fun m => atomOp o.op (8 * sizeBytes o.z) m (scalarOperand c o.z o.b))) s)

def execScas (h : Hdr) (o : SCas) (s : State) : Out :=
  .next (run (uSCas o) h (fun c s => satomBody c s o.z o.sp o.d o.a o.off
    (fun _ a => .cas a o.z (BitVec.ofNat 64 (scalarOperand c o.z o.b)) (BitVec.ofNat 64 (scalarOperand c o.z o.c)))
    (fun m => if m = scalarOperand c o.z o.b then scalarOperand c o.z o.c else m)) s)

/-! ### Prefetch, fence, waita (R163-R167) -/

/-- A prefetch changes no register and no value that can be read (R163). -/
def execVprefetch (h : Hdr) (o : VPrefetch) (s : State) : Out := .next (run (uVPrefetch o) h (fun _ s => .done s) s)

/-- Whether an engine operation of the path's own lanes has accesses left of a kind in `set` (R164, R165). -/
def enginePending (c : Cx) (set : BitVec 7) : Bool :=
  let mine (m : Mask) : Bool := m &&& c.p.mask != 0
  ((set.getLsbD 2 || set.getLsbD 3) && allD.any fun d => (c.g.copies.rd d).st == .running && mine (c.g.copies.rd d).own) ||
    c.g.ops.any fun o => mine o.own && match o.kind with
      | .mma _ _ => false
      | .mld _ _ _ => set.getLsbD 4
      | .mst _ _ _ => set.getLsbD 5
      | .far _ _ _ _ _ => false

/-- A fence holds the path until the engine accesses it names are performed; every other access already is (log entry 3). -/
def execFence (h : Hdr) (o : Fence) (s : State) : Out :=
  .next (run (uFence o) h (fun c s => if enginePending c o.pred then .stall else .done s) s)

/-- The cycle count of the core of a group. -/
def cycleOf (s : State) (g : Group) : Nat := match s.coreOf g with | some k => s.cycle k | none => 0

def waitaBody (o : WaitA) (c : Cx) (s : State) : Res :=
  let z := sizeBytes o.z
  let qs := scalarReq c o.a o.off
  match check c s (some c.p.mask) o.sp z z .rd true false qs with
  | .error r => r
  | .ok l => perform c l (some c.p.mask) qs readOp fun s ans =>
      let v := leNat (firstData s l ans z)
      if l.off ≠ 0 then finish c s c.p.mask
      else if c.woken ∨ v ≠ scalarOperand c o.z o.b then .done (putS c o.d (BitVec.ofNat 64 v) s)
      else .susp s (.waita o c.npc (cycleOf s c.g))

def execWaita (h : Hdr) (o : WaitA) (s : State) : Out := .next (run (uWaitA o) h (waitaBody o) s)

/-! ### Indexed registers (R168, R169) -/

/-- INDEX after an indexed access. -/
def stepIndex (st : XStep) (x : W32) : W32 :=
  let i := x.toNat % 256
  let j := match st with
    | .none => i
    | .inc => (i + 1) % 256
    | .dec => (i + 255) % 256
  (x &&& 0xFFFFFF00) ||| BitVec.ofNat 32 j

def idxBody (o : VIdx) (f : Cx → (Lane → VReg) → Group) (c : Cx) (s : State) : Res :=
  let x := c.g.x.rd o.x
  let bad := Mask.of fun l => c.em.has l && (indexed c.g x o.step o.off l).isNone
  if bad ≠ 0 then .fault s (FaultInfo.of cRegIndex bad)
  else
    let g := f c fun l => (indexed c.g x o.step o.off l).getD 0
    let x' : Lanes W32 := Bank.gen fun l => if c.em.has l then stepIndex o.step (x.rd l) else x.rd l
    .done (c.put s { g with x := g.x.wr o.x x' } c.p)

def execVrdx (h : Hdr) (o : VIdx) (s : State) : Out :=
  .next (run (uVRdx o) h (idxBody o fun c n => c.g.setV o.d c.em (Bank.gen fun l => (c.g.seen (n l)).rd l)) s)
def execVwrx (h : Hdr) (o : VIdx) (s : State) : Out :=
  .next (run (uVWrx o) h (idxBody o fun c n =>
    c.em.lanes.foldl (fun g l => g.setV (n l) (Mask.one l) (c.g.seen o.d)) c.g) s)

def Group.setX (g : Group) (n : XReg) (m : Mask) (v : Lanes W32) : Group :=
  { g with x := g.x.wr n (Bank.gen fun l => if m.has l then v.rd l &&& 0xFFFFFF else (g.x.rd n).rd l) }

def execXset (h : Hdr) (o : XSet) (s : State) : Out :=
  .next (run (uXSet o) h (regs fun c => (match o with
    | .reg d a => c.g.setX d c.em (c.g.seen a)
    | .imm d v => c.g.setX d c.em (Bank.fill (v.setWidth 32))
    | .get d a => c.g.setV d c.em (Bank.gen fun l => (c.g.x.rd a).rd l &&& 0xFFFFFF), c.p)) s)

/-! ### spill and fill (R171) -/

/-- The two checks on ksp, and the area's offset. They hold whatever EMASK is; the fault lanes are those of EMASK, of MASK where it is
empty, and FADDR of an overflow is the offset o. ksp counts unsigned and the sum does not wrap: DESIGN CHOICE, R171 gives no width or sign
(log entry 15). -/
def spillAt (o : SpillFill) (push : Bool) (c : Cx) (s : State) : Except Res Nat :=
  let n := o.nm1.toNat + 1
  let sp := c.p.getS 61
  let at_ : Int := sp.toNat - (if push && o.adj then 4 * n else 0 : Nat) + o.off.toInt
  let m := if c.em = 0 then c.p.mask else c.em
  if sp &&& 3 ≠ 0 then .error (.fault s (FaultInfo.at cMisaligned m sp))
  else if at_ < 0 ∨ (spillSize c s : Int) < at_ + 4 * n then .error (.fault s (FaultInfo.at cSpill m (BitVec.ofInt 64 at_)))
  else .ok at_.toNat

/-- The checks of R171, then translation for the lanes of EMASK, and the access. -/
def spillChecked (o : SpillFill) (push : Bool) (c : Cx) (s : State) (mk : Piece → Lane → W64 → RemoteOp)
    (f : State → List (Lane × Place) → List (Nat × PieceAnswer) → Res) (late : FarRes) : Res :=
  match spillAt o push c s with
  | .error r => r
  | .ok at_ =>
    match globalPlaces c s none (if push then .wr else .rd) (c.em.lanes.map (spillReq c.g at_ (o.nm1.toNat + 1))) with
    | .error r => r
    | .ok (s, ps) =>
      performAt c s none ps (spillFaddr c at_ c.em.lanes) (fun p a => mk p (((ps[p.ix]?).map (·.1)).getD 0) a) (fun s ans => f s ps ans) (late := some late)

/-- The bytes of the registers of a block in a lane. -/
def blockBytes (g : Group) (d : VReg) (n : Nat) (l : Lane) : List W8 :=
  (List.range n).flatMap fun i => natLe 4 ((g.seen (d + BitVec.ofNat 8 i)).rd l).toNat

def execSpill (h : Hdr) (o : SpillFill) (s : State) : Out :=
  .next (run (uSpill o) h (fun c s =>
    let n := o.nm1.toNat + 1
    spillChecked o true c s (fun p l a => writeOp (blockBytes c.g o.d n) l p a) (fun s ps _ =>
      let s := writeAll s ps (blockBytes c.g o.d n)
      .done (if o.adj then putS c 61 (c.p.getS 61 - BitVec.ofNat 64 (4 * n)) s else s)) {}) s)

def execFill (h : Hdr) (o : SpillFill) (s : State) : Out :=
  .next (run (uFill o) h (fun c s => spillChecked o false c s (fun p l a => readOp l p a) (fun s ps ans =>
    let n := o.nm1.toNat + 1
    let d := laneData s ps ans
    let s := land c s c.em ((List.range n).map fun i =>
      (o.d + BitVec.ofNat 8 i, Bank.gen fun l => BitVec.ofNat 32 (field (d.rd l) (4 * i) 4)))
    .done (if o.adj then putS c 61 (c.p.getS 61 + BitVec.ofNat 64 (4 * n)) s else s)) { d := o.d, n := o.nm1.toNat + 1 }) s)

end Sys2Proof.Machine
end

