-- ==== Sys2Proof/Machine/Barrier.lean ====
section
/-! DEFINITION. Team and cluster barriers (07 R190-R194), and the fault of a copy that names one (R187). -/

namespace Sys2Proof.Machine

/-- The barrier a group names (R16). -/
def State.bar (s : State) (g : Group) (b : Bar) : Option Barrier :=
  match s.team g.team with
  | none => none
  | some t => match b with
    | .team n => some (t.bars.rd n)
    | .cluster n => (s.cluster t.cluster).map fun c => c.cbars.rd n

def State.setBar (s : State) (g : Group) (b : Bar) (x : Barrier) : State :=
  match s.team g.team with
  | none => s
  | some t => match b with
    | .team n => s.setTeam g.team { t with bars := t.bars.wr n x }
    | .cluster n => match s.cluster t.cluster with
      | some c => s.setCluster t.cluster { c with cbars := c.cbars.wr n x }
      | none => s

def State.barValid (s : State) (g : Group) (b : Bar) : Bool := match s.bar g b with | some x => x.valid | none => false

/-- `n` arrivals as one update (R192): every EXPECT of them flips PHASE, and the surplus carries over. -/
def Barrier.arrive (b : Barrier) (n : Nat) : Barrier :=
  { b with count := (b.count + n) % b.expect, phase := b.phase != ((b.count + n) / b.expect % 2 == 1) }

/-- An engine operation's arrivals, if it names a barrier (R179, R186). -/
def engineArrive (s : State) (g : Group) (b : Option Bar) (n : Nat := 1) : State :=
  match b with
  | none => s
  | some b => match s.bar g b with
    | some x => s.setBar g b (x.arrive n)
    | none => s

/-- COPY_FAULT of a faulted slot (R187): the descriptor, the cursor and the translation cause. -/
def copyFault (g : Group) (m : Mask) (d : DReg) : FaultInfo :=
  let c := g.copies.rd d
  { FaultInfo.at cCopyFault m c.faddr with sub := c.tcause, dindex := d.setWidth 8, code := BitVec.ofNat 32 c.cursor }

/-- A faulted slot of the group that names a barrier. -/
def faultedOn (g : Group) (b : Bar) : Option DReg :=
  allD.find? fun d => (g.copies.rd d).st == .faulted && (g.copies.rd d).bar == some b

/-- A barrier instruction first meets the group's faulted copy on that barrier (R187), then an invalid barrier. -/
def onBarrier (c : Cx) (s : State) (b : Bar) (f : Barrier → Res) : Res :=
  match faultedOn c.g b with
  | some d => .fault s (copyFault c.g c.p.mask d)
  | none => match s.bar c.g b with
    | some x => if x.valid then f x else .fault s (FaultInfo.of cBarrier c.p.mask)
    | none => .fault s (FaultInfo.of cBarrier c.p.mask)

/-- R191. -/
def binitBody (o : BInit) (c : Cx) (s : State) : Res :=
  let n := match o.n with
    | .reg a => (c.p.getS a).toNat
    | .imm v => v.toNat
  if s.barValid c.g o.bar ∨ n = 0 ∨ 65535 < n then .fault s (FaultInfo.of cBarrier c.p.mask)
  else .done (s.setBar c.g o.bar { valid := true, expect := n, count := 0, phase := false })

def execBinit (h : Hdr) (o : BInit) (s : State) : Out := .next (run (uBInit o) h (binitBody o) s)

def copyNames (c : Copy) (b : Bar) : Bool := (c.st == .running || c.st == .faulted) && c.bar == some b

/-- Whether an engine operation of a group that shares the barrier has still to arrive at it. -/
def owedArrival (s : State) (g : Group) (b : Bar) : Bool :=
  s.groups.any fun (_, k) =>
    (match b with
     | .team _ => k.team == g.team
     | .cluster _ => (s.team k.team).map (·.cluster) == (s.team g.team).map (·.cluster)) &&
    ((allD.any fun d => copyNames (k.copies.rd d) b) ||
     k.ops.any fun o => match o.kind with
       | .mma _ _ => false
       | .mst _ _ x => x == some b
       | .mld _ _ x => x == some b
       | .far _ _ _ _ _ => false)

/-- R191: waits for every operation that names the barrier. -/
def binvalBody (b : Bar) (c : Cx) (s : State) : Res :=
  match faultedOn c.g b with
  | some d => .fault s (copyFault c.g c.p.mask d)
  | none =>
    if owedArrival s c.g b then .stall
    else match s.bar c.g b with
      | some x => .done (if x.valid then s.setBar c.g b { x with valid := false } else s)
      | none => .done s

def execBinval (h : Hdr) (b : Bar) (s : State) : Out := .next (run Uses.none h (binvalBody b) s)

/-- R192. -/
def arriveBody (b : Bar) (d : SReg) (n : Nat) (c : Cx) (s : State) : Res :=
  onBarrier c s b fun x => .done (putS c d (bit64 x.phase) (s.setBar c.g b (x.arrive n)))

/-- n of 0 means 1. -/
def arrivals (n : W16) : Nat := if n = 0 then 1 else n.toNat

def execBarr (h : Hdr) (o : BArr) (s : State) : Out := .next (run (uBArr o) h (arriveBody (.team o.bar) o.d (arrivals o.n)) s)
def execCbarr (h : Hdr) (o : CBArr) (s : State) : Out :=
  .next (run (uCBArr o) h (arriveBody (.cluster o.bar) o.d (arrivals o.n)) s)

/-- Writes a predicate result in every lane of MASK (R172). -/
def putK (c : Cx) (d : KReg) (b : Bool) (s : State) : State :=
  match s.group c.r.g with
  | some g => s.setGroup c.r.g (g.setK d c.p.mask (if b then 0xFF else 0))
  | none => s

/-- The path's next `btry` on a barrier issues: it is between two no longer (10 R255). -/
def Path.unpolls (p : Path) (b : Bar) : Path := { p with tried := p.tried.filter (· != b) }

/-- R193. A `btry` that waits marks its path as polling the barrier when it returns 0 (10 R255). -/
def tryBody (b : Bar) (d : KReg) (sb : SReg) (c : Cx) (s : State) : Res :=
  onBarrier c s b fun x =>
    let want := (c.p.getS sb).getLsbD 0
    let s := match s.path c.r with | some (_, p) => s.setPath c.r (p.unpolls b) | none => s
    if x.phase != want then .done (putK c d true s) else .susp s (.btry b d want c.npc (cycleOf s c.g))

def execBtry (h : Hdr) (o : BTry) (s : State) : Out := .next (run (uBTry o) h (tryBody (.team o.bar) o.d o.b) s)
def execCbtry (h : Hdr) (o : CBTry) (s : State) : Out := .next (run (uCBTry o) h (tryBody (.cluster o.bar) o.d o.b) s)

end Sys2Proof.Machine
end

