-- ==== Sys2Proof/Machine/Lane.lean ====
section
/-! DEFINITION. Lane integer, move, permutation and reduction instructions (05 R120-R135). -/

namespace Sys2Proof.Machine

/-- Element `e` of lane l of a lane source; of an immediate, its low bits, the same for every element (R123). -/
def Group.srcElt (g : Group) (w : Nat) (b : VB) (l : Lane) (e : Nat) : BitVec w :=
  match b with
  | .reg a => elt w (g.src a l) e
  | .imm v => v.setWidth w

/-- A lane result computed per active lane (R120). -/
def perLane (d : VReg) (f : Cx → Lane → W32) : Cx → State → Res := lanesTo d fun c => Bank.gen (f c)

/-- Elements `f e` over the elements a half select takes; the rest of D is kept (R123, R124). -/
def perElt (w : Width) (half : Half) (d : VReg) (f : Cx → Lane → Nat → BitVec (widthBits w)) : Cx → State → Res :=
  perLane d fun c l => elements (widthBits w) half ((c.g.getV d).rd l) (f c l)

/-- An element result narrowed from an exact integer (R126). -/
def vArith (h : Hdr) (o : VArith) (f : Int → Int → Int) (s : State) : Out :=
  .next (run (uVArith o) h (perElt o.w o.half o.d fun c l e =>
    narrow _ o.sat o.u (f (eltVal o.u (elt (widthBits o.w) (c.g.src o.a l) e)) (eltVal o.u (c.g.srcElt (widthBits o.w) o.b l e)))) s)

def execVadd (h : Hdr) (o : VArith) (s : State) : Out := vArith h o (· + ·) s
def execVsub (h : Hdr) (o : VArith) (s : State) : Out := vArith h o (· - ·) s
def execVmul (h : Hdr) (o : VArith) (s : State) : Out := vArith h o (· * ·) s

/-- Two operands, signed or unsigned, no saturation. -/
def vUns (h : Hdr) (o : VUns) (f : Nat → Int → Int → Int) (s : State) : Out :=
  .next (run (uVUns o) h (perElt o.w o.half o.d fun c l e =>
    BitVec.ofInt _ (f (widthBits o.w) (eltVal o.u (elt (widthBits o.w) (c.g.src o.a l) e))
      (eltVal o.u (c.g.srcElt (widthBits o.w) o.b l e)))) s)

def execVmulh (h : Hdr) (o : VUns) (s : State) : Out := vUns h o (fun w x y => x * y / 2 ^ w) s
def execVmin (h : Hdr) (o : VUns) (s : State) : Out := vUns h o (fun _ x y => min x y) s
def execVmax (h : Hdr) (o : VUns) (s : State) : Out := vUns h o (fun _ x y => max x y) s

def execVmad (h : Hdr) (o : VMad) (s : State) : Out :=
  .next (run (uVMad o) h (perElt o.w o.half o.d fun c l e =>
    narrow _ o.sat o.u (eltVal o.u (elt (widthBits o.w) (c.g.src o.a l) e) * eltVal o.u (elt (widthBits o.w) (c.g.src o.b l) e) +
      eltVal o.u (elt (widthBits o.w) (c.g.src o.c l) e))) s)

def vLogic (h : Hdr) (o : VLogic) (f : W32 → W32 → W32) (s : State) : Out :=
  .next (run (uVLogic o) h (perLane o.d fun c l => f (c.g.src o.a l) (c.g.srcB o.b l)) s)

def execVand (h : Hdr) (o : VLogic) (s : State) : Out := vLogic h o (· &&& ·) s
def execVor (h : Hdr) (o : VLogic) (s : State) : Out := vLogic h o (· ||| ·) s
def execVxor (h : Hdr) (o : VLogic) (s : State) : Out := vLogic h o (· ^^^ ·) s

/-- A shift by y mod w (R125). -/
def vShift (h : Hdr) (o : VElem) (f : (w : Nat) → BitVec w → Nat → BitVec w) (s : State) : Out :=
  .next (run (uVElem o) h (perElt o.w o.half o.d fun c l e =>
    f _ (elt (widthBits o.w) (c.g.src o.a l) e) ((c.g.srcElt (widthBits o.w) o.b l e).toNat % widthBits o.w)) s)

def execVshl (h : Hdr) (o : VElem) (s : State) : Out := vShift h o (fun _ x n => x <<< n) s
def execVshr (h : Hdr) (o : VElem) (s : State) : Out := vShift h o (fun _ x n => x >>> n) s
def execVsra (h : Hdr) (o : VElem) (s : State) : Out := vShift h o (fun _ x n => x.sshiftRight n) s

/-- `vabs`, `vneg`: the range is always signed (R126). -/
def vAbsNeg (h : Hdr) (o : VAbs) (f : Int → Int) (s : State) : Out :=
  .next (run (uVAbs o) h (perElt o.w o.half o.d fun c l e =>
    narrow _ o.sat false (f (elt (widthBits o.w) (c.g.src o.a l) e).toInt)) s)

def execVabs (h : Hdr) (o : VAbs) (s : State) : Out := vAbsNeg h o (fun x => x.natAbs) s
def execVneg (h : Hdr) (o : VAbs) (s : State) : Out := vAbsNeg h o (fun x => -x) s

def vCount (h : Hdr) (o : VCount) (f : (w : Nat) → BitVec w → BitVec w) (s : State) : Out :=
  .next (run (uVCount o) h (perElt o.w o.half o.d fun c l e => f _ (elt (widthBits o.w) (c.g.src o.a l) e)) s)

def execVclz (h : Hdr) (o : VCount) (s : State) : Out := vCount h o (fun w x => BitVec.ofNat w (zclz x)) s
def execVpopc (h : Hdr) (o : VCount) (s : State) : Out := vCount h o (fun w x => BitVec.ofNat w (popc x)) s
def execVbrev (h : Hdr) (o : VCount) (s : State) : Out := vCount h o (fun _ x => brev x) s

/-- `w` ones from bit 0. -/
def ones32 (w : Nat) : W32 := ~~~((~~~0#32) <<< w)

/-- R127. -/
def execVbfx (h : Hdr) (o : VBfx) (s : State) : Out :=
  .next (run (uVBfx o) h (perLane o.d fun c l =>
    let w := o.wm1.toNat + 1
    let x := (c.g.src o.a l >>> o.pos.toNat) &&& ones32 w
    if !o.u && x.getLsbD (w - 1) then x ||| ~~~(ones32 w) else x) s)

def execVbfi (h : Hdr) (o : VBfi) (s : State) : Out :=
  .next (run (uVBfi o) h (perLane o.d fun c l =>
    let m := ones32 (o.wm1.toNat + 1) <<< o.pos.toNat
    ((c.g.getV o.d).rd l &&& ~~~m) ||| ((c.g.src o.a l <<< o.pos.toNat) &&& m)) s)

/-- R128. -/
def execVsel (h : Hdr) (o : VElem) (s : State) : Out :=
  .next (run (uVElem o) h (perElt o.w o.half o.d fun c l e =>
    let w := widthBits o.w
    if elt w ((c.g.getV o.d).rd l) e ≠ 0 then elt w (c.g.src o.a l) e else c.g.srcElt w o.b l e) s)

/-- R129. -/
def execVcmp (h : Hdr) (o : VCmp) (s : State) : Out :=
  .next (run (uVCmp o) h (kTo o.d fun c => Mask.of fun l => condHolds o.cc (c.g.src o.a l) (c.g.srcB o.b l)) s)

/-! ### Widening (R130) -/

/-- A 64-bit result in a pair. -/
def pairTo (d : VReg) (f : Cx → Lane → W64) : Cx → State → Res := pairLanes d fun c => Bank.gen (f c)

/-- A 32-bit operand extended to 64 bits. -/
def wide (u : Bool) (x : W32) : W64 := if u then x.setWidth 64 else x.signExtend 64

def execVaddw (h : Hdr) (o : VWide) (s : State) : Out :=
  .next (run (uVAddW o) h (pairTo o.d fun c l => (c.g.srcN o.a 1 l ++ c.g.srcN o.a 0 l) + wide o.u (c.g.srcB o.b l)) s)
def execVmulw (h : Hdr) (o : VWide) (s : State) : Out :=
  .next (run (uVMulW o) h (pairTo o.d fun c l => wide o.u (c.g.src o.a l) * wide o.u (c.g.srcB o.b l)) s)

/-! ### Moves (R131, R132) -/

def execVmov (h : Hdr) (o : VMov) (s : State) : Out := .next (run (uVMov o) h (perLane o.d fun c l => c.g.srcB o.a l) s)
def execVli (h : Hdr) (o : VLi) (s : State) : Out :=
  .next (run (uVLi o) h (perLane o.d fun c l => match o.half with
    | .whole => o.imm
    | .lo => setElt 16 ((c.g.getV o.d).rd l) 0 (o.imm.setWidth 16)
    | .hi => setElt 16 ((c.g.getV o.d).rd l) 1 (o.imm.setWidth 16)) s)
def execVlane (h : Hdr) (d : VReg) (s : State) : Out := .next (run (uVLane d) h (perLane d fun _ l => l.setWidth 32) s)
def execVbcast (h : Hdr) (o : VBcast) (s : State) : Out :=
  .next (run (uVBcast o) h (perLane o.d fun c _ => (c.p.getS o.a).setWidth 32) s)
def execVtos (h : Hdr) (o : VToS) (s : State) : Out :=
  .next (run (uVToS o) h (scalar o.d fun c => wide o.u (c.g.src o.a o.n)) s)

/-! ### Permutation by register (R133) -/

/-- Byte `i` of the result: byte j of `x`, or 0 for j of 4 or more. -/
def permBytes (x b : W32) : W32 :=
  (List.range 4).foldl (fun y i =>
    let j := (elt 8 b i).toNat % 8
    setElt 8 y i (if j < 4 then elt 8 x j else 0)) 0

def execVperm (h : Hdr) (o : VPerm) (s : State) : Out :=
  .next (run (uVPerm o) h (perLane o.d fun c l =>
    let b := c.g.src o.b l
    match o.a with
    | .lane r => (c.g.seen r).rd (b.setWidth 3)
    | .byte a => permBytes (c.g.src a l) b) s)

/-! ### Reductions and scans (R134, R135, 03 R96, R97) -/

/-- One node: an absent input passes the other (03 R96). -/
def node (f : W32 → W32 → W32) (a b : Option W32) : Option W32 :=
  match a, b with
  | some x, some y => some (f x y)
  | some x, none | none, some x => some x
  | none, none => none

/-- What a reduction combines two inputs to. -/
def combine (op : RedOp) (u : Bool) (x y : W32) : W32 :=
  match op with
  | .iadd | .xadd => x + y
  | .imin => if u then (if y.ult x then y else x) else if y.slt x then y else x
  | .imax => if u then (if x.ult y then y else x) else if x.slt y then y else x
  | .iand => x &&& y
  | .ior => x ||| y
  | .ixor => x ^^^ y
  | .fadd => BitVec.ofNat 32 (fpAdd .f32 (.mode .rne) x.toNat y.toNat)
  | .fmin => BitVec.ofNat 32 (fpMin .f32 x.toNat y.toNat)
  | .fmax => BitVec.ofNat 32 (fpMax .f32 x.toNat y.toNat)

/-- The prefix over lanes 0 to l in the tree of R96 and R97. -/
def prefixTree (f : W32 → W32 → W32) (v : Lane → Option W32) (l : Nat) : Option W32 :=
  let n := node f
  let n01 := n (v 0) (v 1)
  let n23 := n (v 2) (v 3)
  let n45 := n (v 4) (v 5)
  let n03 := n n01 n23
  match l with
  | 0 => v 0
  | 1 => n01
  | 2 => n n01 (v 2)
  | 3 => n03
  | 4 => n n03 (v 4)
  | 5 => n n03 n45
  | 6 => n (n n03 n45) (v 6)
  | _ => n n03 (n n45 (n (v 6) (v 7)))

/-- The inputs: lanes of EMASK, permuted. -/
def inputs (o : VRed) (c : Cx) (l : Lane) : Option W32 := if c.em.has l then some (c.g.src o.a l) else none

/-- R134. The result is there when the instruction has issued: DESIGN CHOICE, the manual has it long-latency (02 R57, log entry 18). -/
def execVred (h : Hdr) (o : VRed) (s : State) : Out :=
  .next (run (uVRed o) h (perLane o.d fun c _ => (prefixTree (combine o.op o.u) (inputs o c) 7).getD 0) s)

def execVscan (h : Hdr) (o : VRed) (s : State) : Out :=
  .next (run (uVRed o) h (perLane o.d fun c l =>
    match o.op with
    | .xadd => if l = 0 then 0 else (prefixTree (combine o.op o.u) (inputs o c) (l.toNat - 1)).getD 0
    | _ => (prefixTree (combine o.op o.u) (inputs o c) l.toNat).getD 0) s)

end Sys2Proof.Machine
end

