-- ==== Sys2Proof/Machine/Float.lean ====
section
/-! DEFINITION. FP32, packed-half, dot-product and conversion instructions of the lanes (05 R136-R145, 03 R81-R92). -/

namespace Sys2Proof.Machine

/-- Results per active lane that each take RNGS as the lanes left it: under `.sr` the lane's state advances (03 R83). -/
def perLaneRng (d : VReg) (f : Cx → Lane → W32 → W32 × W32) : Cx → State → Res := regs fun c =>
  let r : Lanes (W32 × W32) := Bank.gen fun l => f c l (c.g.rngs.rd l)
  ({ c.g.setV d c.em (Bank.gen fun l => (r.rd l).1) with
     rngs := Bank.gen fun l => if c.em.has l then (r.rd l).2 else c.g.rngs.rd l }, c.p)

/-- One rounding: the state after it, and how it rounds (03 R81-R83). -/
def howOf (r : Rnd) (x : W32) : How × W32 :=
  match r with
  | .mode m => (.mode m, x)
  | .sr => (.sr (rndOf (xorshift x)), xorshift x)

/-- An FP32 result of one rounding. -/
def fp1 (r : Rnd) (f : How → Nat) (x : W32) : W32 × W32 := let (k, x') := howOf r x; (BitVec.ofNat 32 (f k), x')

def vFp (h : Hdr) (o : VFp) (f : How → Nat → Nat → Nat) (s : State) : Out :=
  .next (run (uVFp o) h (perLaneRng o.d fun c l x => fp1 o.rnd (fun k => f k (c.g.src o.a l).toNat (c.g.src o.b l).toNat) x) s)

def execVfadd (h : Hdr) (o : VFp) (s : State) : Out := vFp h o (fpAdd .f32) s
def execVfsub (h : Hdr) (o : VFp) (s : State) : Out := vFp h o (fpSub .f32) s
def execVfmul (h : Hdr) (o : VFp) (s : State) : Out := vFp h o (fpMul .f32) s
def execVfma (h : Hdr) (o : VFma) (s : State) : Out :=
  .next (run (uVFma o) h (perLaneRng o.d fun c l x =>
    fp1 o.rnd (fun k => fpFma .f32 k (c.g.src o.a l).toNat (c.g.src o.b l).toNat (c.g.src o.c l).toNat) x) s)

/-- R137. -/
def execVfmin (h : Hdr) (o : VBin) (s : State) : Out :=
  .next (run (uVBin o) h (perLane o.d fun c l => BitVec.ofNat 32 (fpMin .f32 (c.g.src o.a l).toNat (c.g.src o.b l).toNat)) s)
def execVfmax (h : Hdr) (o : VBin) (s : State) : Out :=
  .next (run (uVBin o) h (perLane o.d fun c l => BitVec.ofNat 32 (fpMax .f32 (c.g.src o.a l).toNat (c.g.src o.b l).toNat)) s)
def execVfcmp (h : Hdr) (o : VFCmp) (s : State) : Out :=
  .next (run (uVFCmp o) h (kTo o.d fun c => Mask.of fun l =>
    FCond.holds o.cc (unpack .f32 (c.g.src o.a l).toNat) (unpack .f32 (c.g.src o.b l).toNat)) s)

def vUn (h : Hdr) (o : VUn) (f : W32 → W32) (s : State) : Out :=
  .next (run (uVUn o) h (perLane o.d fun c l => f (c.g.src o.a l)) s)

/-! R138 -/

def execVfrcp (h : Hdr) (o : VUn) (s : State) : Out := vUn h o fpRcp s
def execVfrsq (h : Hdr) (o : VUn) (s : State) : Out := vUn h o fpRsq s
def execVfsqrt (h : Hdr) (o : VUn) (s : State) : Out := vUn h o fpSqrt s
def execVfexp2 (h : Hdr) (o : VUn) (s : State) : Out := vUn h o fpExp2 s
def execVflog2 (h : Hdr) (o : VUn) (s : State) : Out := vUn h o fpLog2 s
def execVfsin (h : Hdr) (o : VUn) (s : State) : Out := vUn h o fpSin s
def execVfcos (h : Hdr) (o : VUn) (s : State) : Out := vUn h o fpCos s
def execVfrnd (h : Hdr) (o : VFRnd) (s : State) : Out :=
  .next (run (uVFRnd o) h (perLane o.d fun c l => fpRnd o.rm (c.g.src o.a l)) s)
def execVfclass (h : Hdr) (o : VUn) (s : State) : Out := vUn h o fpClass s

/-! ### Packed halves and dot products (R141-R143) -/

def HTy.fmt : HTy → Fmt
  | .f16 => .f16 | .bf16 => .bf16

/-- The halves a half select takes, element 0 first, each with its own rounding (R141). -/
def halves (half : Half) (r : Rnd) (d : W32) (f : How → Nat → Nat) (x : W32) : W32 × W32 :=
  [0, 1].foldl (fun (a : W32 × W32) e =>
    if halfTakes half 16 e then
      let (k, x') := howOf r a.2
      (setElt 16 a.1 e (BitVec.ofNat 16 (f k e)), x')
    else a) (d, x)

def eltN (w : Nat) (x : W32) (e : Nat) : Nat := (elt w x e).toNat

def vHalf (h : Hdr) (o : VHalf) (f : How → Nat → Nat → Nat) (s : State) : Out :=
  .next (run (uVHalf o) h (perLaneRng o.d fun c l x =>
    halves o.half o.rnd ((c.g.getV o.d).rd l) (fun k e => f k (eltN 16 (c.g.src o.a l) e) (eltN 16 (c.g.src o.b l) e)) x) s)

def execVhadd (h : Hdr) (o : VHalf) (s : State) : Out := vHalf h o (fpAdd (HTy.fmt o.t)) s
def execVhmul (h : Hdr) (o : VHalf) (s : State) : Out := vHalf h o (fpMul (HTy.fmt o.t)) s
def execVhfma (h : Hdr) (o : VHFma) (s : State) : Out :=
  .next (run (uVHFma o) h (perLaneRng o.d fun c l x =>
    halves o.half o.rnd ((c.g.getV o.d).rd l)
      (fun k e => fpFma (HTy.fmt o.t) k (eltN 16 (c.g.src o.a l) e) (eltN 16 (c.g.src o.b l) e) (eltN 16 (c.g.src o.c l) e)) x) s)

def execVdot2 (h : Hdr) (o : VDot2) (s : State) : Out :=
  .next (run (uVDot2 o) h (perLaneRng o.d fun c l x =>
    let f := HTy.fmt o.t
    let a := c.g.src o.a l
    let b := c.g.src o.b l
    let prod (e : Nat) : FV := (unpack f (eltN 16 a e)).mul (unpack f (eltN 16 b e))
    fp1 o.rnd (fun k => sumRound .f32 k [unpack .f32 ((c.g.getV o.d).rd l).toNat, prod 0, prod 1]) x) s)

def execVdot4 (h : Hdr) (o : VDot4) (s : State) : Out :=
  .next (run (uVDot4 o) h (perLane o.d fun c l =>
    let a := c.g.src o.a l
    let b := c.g.src o.b l
    let p (e : Nat) : Int := eltVal o.u (elt 8 a e) * eltVal o.u (elt 8 b e)
    narrow 32 o.sat o.u (eltVal o.u ((c.g.getV o.d).rd l) + p 0 + p 1 + p 2 + p 3)) s)

/-! ### vcvt (R144, R145) -/

/-- A type code as a float format, or an integer width and signedness (02 R63). -/
def tyKind : Ty → Fmt ⊕ (Nat × Bool)
  | .f32 => .inl .f32 | .f16 => .inl .f16 | .bf16 => .inl .bf16 | .e4m3 => .inl .e4m3 | .e5m2 => .inl .e5m2 | .e2m1 => .inl .e2m1
  | .int8 => .inr (8, true) | .uint8 => .inr (8, false) | .int16 => .inr (16, true) | .uint16 => .inr (16, false)
  | .int32 => .inr (32, true) | .uint32 => .inr (32, false)

def tyBits (t : Ty) : Nat := match tyKind t with | .inl f => f.bits | .inr (w, _) => w

/-- One element converted. -/
def cvtOne (o : VCvt) (k : How) (x : Nat) : Nat :=
  let rm := match k with | .mode m => m | .sr _ => Rm.rne
  match tyKind o.dst, tyKind o.src with
  | .inl d, .inl f => cvtFF d f k o.sat x
  | .inr (w, sg), .inl f => intBits w (cvtFI w sg f rm x)
  | .inl d, .inr (w, sg) => cvtIF d k (intVal w sg x)
  | .inr (w, sg), .inr (v, sg') => intBits w (if o.sat then clampInt w sg (intVal v sg' x) else intVal v sg' x)

def vcvtLane (o : VCvt) (d a x : W32) : W32 × W32 :=
  let ws := tyBits o.src
  let wd := tyBits o.dst
  let n := 32 / max ws wd
  (List.range n).foldl (fun (r : W32 × W32) i =>
    let (k, x') := howOf o.rnd r.2
    (setElt wd r.1 (o.ds.toNat * n + i) (BitVec.ofNat wd (cvtOne o k (eltN ws a (o.ss.toNat * n + i)))), x')) (d, x)

def execVcvt (h : Hdr) (o : VCvt) (s : State) : Out :=
  .next (run (uVCvt o) h (perLaneRng o.d fun c l x => vcvtLane o ((c.g.getV o.d).rd l) (c.g.src o.a l) x) s)

end Sys2Proof.Machine
end

