-- ==== Sys2Proof/Machine/Matrix.lean ====
section
/-! DEFINITION. The matrix unit (07 R174-R179, 03 R91-R95) and the completions of its operations. -/

namespace Sys2Proof.Machine

/-- Element (i, j) of a tile. -/
def tileIx (i j : Nat) : BitVec 8 := BitVec.ofNat 8 (16 * i + j)

/-- Element k of width `w` of the 32-byte row in a register (R175). -/
def rowElt (g : Group) (r : VReg) (w k : Nat) : Nat :=
  let n := 32 / w
  eltN w ((g.seen r).rd (BitVec.ofNat 3 (k / n))) (k % n)

/-- Products of one output element, with the formats of A and B, over k from `k0`. -/
def products (g : Group) (a b : VReg) (fa fb : Fmt) (k0 n : Nat) (i j : Nat) : List FV :=
  (List.range n).map fun k =>
    (unpack fa (rowElt g (a + BitVec.ofNat 8 i) fa.bits (k0 + k))).mul (unpack fb (rowElt g (b + BitVec.ofNat 8 j) fb.bits (k0 + k)))

/-- A scale byte of an FP4 `mma` (R176). -/
def scaleByte (g : Group) (r : VReg) (i kb : Nat) : Nat := eltN 8 ((g.seen r).rd (BitVec.ofNat 3 (i / 2))) (2 * (i % 2) + kb)

/-- The addends of an FP4 block: NaN for a scale of 0xFF (03 R94). -/
def fp4Block (g : Group) (a b c : VReg) (hi : Bool) (kb i j : Nat) : List FV :=
  let o : VReg := if hi then 1 else 0
  let sa := scaleByte g (c + o) i kb
  let sb := scaleByte g (c + 2 + o) j kb
  if sa = 255 ∨ sb = 255 then [.nan]
  else (products g a b .e2m1 .e2m1 (32 * kb) 32 i j).map fun x => x.scale ((sa : Int) + sb - 254)

def fp8 (e5 : Bool) : Fmt := if e5 then .e5m2 else .e4m3

/-- One output element (03 R91-R94). -/
def mmaElt (g : Group) (o : Mma) (i j : Nat) : W32 :=
  let acc := (g.t.rd o.d).rd (tileIx i j)
  let fsum (xs : List FV) : W32 := BitVec.ofNat 32 (sumRound .f32 (.mode .rne) (unpack .f32 acc.toNat :: xs))
  match o.t with
  | .f16 => fsum (products g o.a o.b .f16 .f16 0 16 i j)
  | .bf16 => fsum (products g o.a o.b .bf16 .bf16 0 16 i j)
  | .fp8 a5 b => fsum (products g o.a o.b (fp8 a5) (fp8 (b.getD a5)) 0 32 i j)
  | .fp4 c hi => fsum (fp4Block g o.a o.b c hi 0 i j ++ fp4Block g o.a o.b c hi 1 i j)
  | .int8 => BitVec.ofInt 32 ((List.range 32).foldl (fun (s : Int) k =>
      s + intVal 8 true (rowElt g (o.a + BitVec.ofNat 8 i) 8 k) * intVal 8 true (rowElt g (o.b + BitVec.ofNat 8 j) 8 k)) acc.toInt)

/-- Starts an engine operation; what its path has asked of other modules is the operation's now. -/
def startOp (c : Cx) (s : State) (k : EngKind) : State :=
  match s.group c.r.g with
  | some g =>
    let o : EngOp := { id := s.handle, own := c.p.mask, kind := k, landed := [], go := false }
    { handAsks (s.setGroup c.r.g { g with ops := g.ops ++ [o] }) (.path c.r) (.op c.r.g s.handle) with handle := s.handle + 1 }
  | none => s

def addLog (s : State) (h : Nat) (e : StampEv) : State :=
  match s.group h with
  | some g => s.setGroup h { g with log := g.log ++ [(e, s.bell.toNat)] }
  | none => s

/-- R177: operands and tile are read at issue, and the tile is written when the sum completes. -/
def mmaBody (o : Mma) (c : Cx) (s : State) : Res :=
  if c.p.mask ≠ 0xFF then .fault s (FaultInfo.of cMmaPartial c.p.mask)
  else
    let tile : Bank 8 W32 := Bank.gen fun n => mmaElt c.g o (n.toNat / 16) (n.toNat % 16)
    let s := addLog s c.r.g (.mma s.handle)
    .done ((startOp c s (.mma o.d tile)).count c.vf 2 1)

def execMma (h : Hdr) (o : Mma) (s : State) : Out := .next (run (uMma o) h (mmaBody o) s)
def execMzero (h : Hdr) (d : TReg) (s : State) : Out :=
  .next (run (uMZero d) h (regs fun c => ({ c.g with t := c.g.t.wr d (Bank.fill 0) }, c.p)) s)

/-- The first row of a rows code. -/
def firstRow : Rows → Nat
  | .all | .top => 0
  | .bot => 8

/-- R178: register 2i + h of the block holds row i, columns 8h to 8h + 7. -/
def execMmov (h : Hdr) (o : MMove) (s : State) : Out :=
  .next (run (uMMov o) h (fun c s =>
    .done (land c s c.em ((List.range (rowRegs o.rows)).map fun r =>
      (o.v + BitVec.ofNat 8 r, Bank.gen fun l =>
        (c.g.t.rd o.t).rd (tileIx (firstRow o.rows + r / 2) (8 * (r % 2) + l.toNat)))))) s)

def execMload (h : Hdr) (o : MMove) (s : State) : Out :=
  .next (run (uMLoad o) h (regs fun c =>
    let old := c.g.t.rd o.t
    let new : Bank 8 W32 := Bank.gen fun n =>
      let i := n.toNat / 16
      let j := n.toNat % 16
      if firstRow o.rows ≤ i ∧ i < firstRow o.rows + rowRegs o.rows / 2 then
        (c.g.seen (o.v + BitVec.ofNat 8 (2 * (i - firstRow o.rows) + j / 8))).rd (BitVec.ofNat 3 (j % 8))
      else old.rd n
    ({ c.g with t := c.g.t.wr o.t new }, c.p)) s)

/-! ### mst and mld (R179) -/

def eSpace : ESpace → Space
  | .g => .g | .s => .s | .p => .p

/-- Addresses of the sixteen rows. -/
def rowAddrs (o : MMem) (c : Cx) : List W64 :=
  (List.range 16).map fun i => c.p.getS o.a + o.off.signExtend 64 + BitVec.ofNat 64 i * c.p.getS o.b

/-- Row i of a tile, in bytes. -/
def rowBytes (tile : Bank 8 W32) (i : Nat) : List W8 := (List.range 16).flatMap fun j => natLe 4 (tile.rd (tileIx i j)).toNat

/-- The `.g` rows: translated here and at other modules, which hold them until the operation performs (R284, 14 R310). An `mst` owns them
from its issue. -/
def globalRows (o : MMem) (k : Acc) (c : Cx) (s : State) : Except Res (State × List Place) :=
  let as := rowAddrs o c
  let qs : List LaneReq := as.map fun a => { lane := 0, addr := a, chunks := [(a.toNat, 64)] }
  let mk (p : Piece) (a : W64) : RemoteOp :=
    if k = .wr then .write a (((rowBytes (c.g.t.rd o.t) p.ix).drop p.off).take p.len) else .read a p.len
  match globalPlaces c s (some c.p.mask) k qs with
  | .error r => .error r
  | .ok (s, ps) =>
    if !(ps.any fun p => p.2.isRemote) then .ok (s, ps.map (·.2))
    else match c.waited s with
      | none => .error (.remote (askPlaces s (.path c.r) c.vf c.g.lin (k == .wr) (ps.map (·.2)) mk) (RemoteWait.first ps))
      | some (_, as') =>
        match remoteFault s (some c.p.mask) (laneCauses ps (fun i => as.getD i 0) (keyed as')) with
        | some r => .error r
        | none => match settleLanes c s k qs ps with
          | .error r => .error r
          | .ok s => .ok (s, ps.map (·.2))

/-- The checks at issue: alignment, translation of every row, the barrier, then the range. -/
def rowPlaces (o : MMem) (k : Acc) (c : Cx) (s : State) : Except Res (State × List Place) :=
  let as := rowAddrs o c
  match as.find? fun a => a.toNat % 64 != 0 with
  | some a => .error (.fault s (FaultInfo.at cMisaligned c.p.mask a))
  | none =>
    let barBad (s : State) : Bool := match o.bar with | some b => !s.barValid c.g b | none => false
    match o.sp with
    | .g =>
      match globalRows o k c s with
      | .error r => .error r
      | .ok (s, ps) => if barBad s then .error (.fault s (FaultInfo.of cBarrier c.p.mask)) else .ok (s, ps)
    | _ =>
      if barBad s then .error (.fault s (FaultInfo.of cBarrier c.p.mask))
      else
        let ls := as.map fun a => localLoc s c.g (eSpace o.sp) a 64 (k == .wr)
        if ls.any (·.isNone) then .error (finish c s c.p.mask)
        else .ok (s, ls.filterMap fun l => l.map fun l => .here [(l, 64)])

def execMst (h : Hdr) (o : MMem) (s : State) : Out :=
  .next (run (uMst o) h (fun c s => match rowPlaces o .wr c s with
    | .error r => r
    | .ok (s, ps) => .done (startOp c s (.mst ps (c.g.t.rd o.t) o.bar))) s)

def execMld (h : Hdr) (o : MMem) (s : State) : Out :=
  .next (run (uMld o) h (fun c s => match rowPlaces o .rd c s with
    | .error r => r
    | .ok (s, ps) => .done (startOp c s (.mld ps o.t o.bar))) s)

/-! ### Completions -/

/-- An engine operation of a group. -/
def opOf (s : State) (h id : Nat) : Option (Group × EngOp) := (s.group h).bind fun g => (g.ops.find? fun o => o.id == id).map fun o => (g, o)

/-- Changes an engine operation of a group. -/
def setOp (s : State) (h : Nat) (o : EngOp) : State :=
  match s.group h with
  | some g => s.setGroup h { g with ops := g.ops.map fun x => if x.id == o.id then o else x }
  | none => s

/-- Removes an engine operation of a group, and the requests that it waited for. -/
def dropOp (s : State) (h id : Nat) : State :=
  match s.group h with
  | some g => dropAsks (s.setGroup h { g with ops := g.ops.filter fun o => o.id != id }) (.op h id)
  | none => s

/-- An operation with rows at other modules has them performed there first: `k` follows when they have answered (16 R347). -/
def afterGo (s : State) (h : Nat) (g : Group) (o : EngOp) (k : State → State) : State :=
  if (asksOf s (.op h o.id)).isEmpty then k s
  else if !o.go then goAsks (setOp s h { o with go := true }) (.op h o.id) g.lin
  else if allAnswered s (.op h o.id) then k s
  else s

def execMmaComplete (h id : Nat) (s : State) : Out :=
  match opOf s h id with
  | some (g, { kind := .mma t tile, .. }) =>
    .next (addLog (s.setGroup h { g with t := g.t.wr t tile, ops := g.ops.filter fun o => o.id != id }) h (.mmaDone id))
  | _ => .next s

/-- The byte `k` beyond a location. -/
def Loc.plus (l : Loc) (k : Nat) : Loc :=
  match l with
  | .pa a => .pa (a + k)
  | .team t o => .team t (o + k)
  | .scratch d o => .scratch d (o + k)
  | .fold o => .fold (o + k)
  | .dom m a => .dom m (a + k)
  | .far m a => .far m (a + k)
  | .bad c => .bad c

/-- Element `n` of the tile is written: every element is written single-copy atomic, at a moment of its own (12 R287). -/
def landElem (rows : List Place) (tile : Bank 8 W32) (s : State) (n : Nat) : State :=
  match rows[n / 16]? with
  | some (.here ((l, _) :: _)) => s.writeLoc (l.plus (4 * (n % 16))) (natLe 4 (tile.rd (tileIx (n / 16) (n % 16))).toNat)
  | _ => s

/-- The elements of an `mst` that are not yet written. -/
def EngOp.toLand (o : EngOp) : List Nat := (List.range 256).filter fun n => !o.landed.contains n

/-- What other modules have performed for lane accesses is done: a load's registers are on their way (10 R253). -/
def landFar (s : State) (h : Nat) (o : EngOp) (at_ : List (Lane × Place)) (rs : List VReg) (d : VReg) (z : Size) (sx : Bool) : State :=
  let far := at_.filter fun p => p.2.isRemote
  let data := laneData s at_ (keyed (answersOf s (.op h o.id)))
  let s := dropOp s h o.id
  let regs := rs.map fun r => (r, (Bank.gen fun l => loadedReg z sx (data.rd l) (r - d).toNat : Lanes W32))
  match s.group h with
  | some g => if regs.isEmpty then s else s.setGroup h { g with lands := g.lands ++ [{ id := o.id, mask := maskOf (far.map (·.1)), regs := regs }] }
  | none => s

/-- One element of an `mst`, in no fixed order, or lane accesses that other modules have performed. -/
def elementLands (h id : Nat) (s : State) : State :=
  match opOf s h id with
  | some (_, o) => match o.kind with
    | .mst rows tile _ => match o.toLand[Config.pick s.free % o.toLand.length]? with
      | some n => landElem rows tile (setOp { s with free := s.free + 1 } h { o with landed := n :: o.landed }) n
      | none => s
    | .far at_ rs d z sx => if allAnswered s (.op h id) then landFar s h o at_ rs d z sx else s
    | _ => s
  | none => s

def execMstComplete (h id : Nat) (s : State) : Out :=
  match opOf s h id with
  | some (g, o) => match o.kind with
    | .mst rows tile bar => .next (afterGo s h g o fun s => engineArrive (dropOp (o.toLand.foldl (landElem rows tile) s) h id) g bar)
    | _ => .next s
  | none => .next s

/-- The tile of sixteen rows of 64 bytes. -/
def tileOf (ds : List (List W8)) : Bank 8 W32 :=
  Bank.gen fun n => BitVec.ofNat 32 (field (ds.getD (n.toNat / 16) []) (4 * (n.toNat % 16)) 4)

/-- Reads wait for lines that engine operations own (12 R285). -/
def rowsOwned (s : State) (rows : List Place) : Bool := owned s none (rows.flatMap Place.phys)

def execMldComplete (h id : Nat) (s : State) : Out :=
  match opOf s h id with
  | some (g, o) => match o.kind with
    | .mld rows t bar => .next (afterGo s h g o fun s =>
        if rowsOwned s rows then s
        else match sramLocs s (s.vfOf g) (rows.flatMap Place.all) with
          | (some c, s) => endContext s (s.vfOf g) c 0
          | (none, s) =>
            let tile := tileOf (readPlaces s rows (keyed (answersOf s (.op h id))))
            let s := dropOp s h id
            match s.group h with
            | some k => engineArrive (s.setGroup h { k with t := k.t.wr t tile }) g bar
            | none => s)
    | _ => .next s
  | none => .next s

end Sys2Proof.Machine
end

