-- ==== Sys2Proof/Machine/Copy.lean ====
section
/-! DEFINITION. Descriptor registers, tensor copies and their tiles (07 R182-R189), and tile stamps (08 R230, 22 R431). -/

namespace Sys2Proof.Machine

/-! ### dld, dst, dset (R182) -/

def execDld (h : Hdr) (o : DMem) (s : State) : Out :=
  .next (run (uDld o) h (fun c s =>
    let qs := scalarReq c o.a o.off
    match check c s (some c.p.mask) (eSpace o.sp) 64 64 .rd true false qs with
    | .error r => r
    | .ok l => perform c l (some c.p.mask) qs readOp fun s ans =>
        let d := BitVec.ofNat 512 (leNat (firstData s l ans 64))
        finishScalar c s l fun s => match s.group c.r.g with
          | some g => s.setGroup c.r.g { g with d := g.d.wr o.d d }
          | none => s) s)

def execDst (h : Hdr) (o : DMem) (s : State) : Out :=
  .next (run (uDst o) h (fun c s =>
    let d := natLe 64 (c.g.d.rd o.d).toNat
    let qs := scalarReq c o.a o.off
    match check c s (some c.p.mask) (eSpace o.sp) 64 64 .wr false true qs with
    | .error r => r
    | .ok l => perform c l (some c.p.mask) qs (writeOp fun _ => d) fun s _ => finishScalar c s l fun s => writeAll s l.at_ fun _ => d) s)

/-- Offset and size of a descriptor field (R180). -/
def dFieldAt : DField → Nat × Nat
  | .base => (0, 8) | .dim0 => (8, 4) | .dim1 => (12, 4) | .dim2 => (16, 4) | .dim3 => (20, 4) | .stride1 => (24, 8)
  | .stride2 => (32, 8) | .stride3 => (40, 8) | .box0 => (48, 1) | .box1 => (49, 1) | .box2 => (50, 1) | .box3 => (51, 1)
  | .type => (52, 1) | .flags => (53, 1) | .fill => (54, 2) | .walk => (56, 1)

def execDset (h : Hdr) (o : DSet) (s : State) : Out :=
  .next (run (uDSet o) h (regs fun c =>
    let (off, n) := dFieldAt o.f
    ({ c.g with d := c.g.d.wr o.d (setDField (c.g.d.rd o.d) off n (c.p.opB o.b).toNat) }, c.p)) s)

/-! ### tcopy (R183-R187) -/

def localSpace : CDir → Space
  | .g2s | .s2g | .p2s | .s2p => .s
  | .g2p | .p2g => .p

def tensorIsG : CDir → Bool
  | .p2s | .s2p => false
  | _ => true

/-- Whether a signed offset and length lie in an allocation. -/
def rangeIn (a : W64) (n size : Nat) : Bool := decide (0 ≤ a.toInt) && decide (a.toInt + n ≤ size)

def allocSize (s : State) (g : Group) (sp : Space) : Nat :=
  match sp with
  | .s => match s.team g.team with | some t => t.size | none => 0
  | _ => match s.gridOf g with | some d => d.scratchSize | none => 0

/-- Every in-bounds element of the box lies in the scratchpad (R185). -/
def tensorInScratch (s : State) (g : Group) (d : BitVec 512) (o : Bank 2 W32) : Bool :=
  let z := dElem (dType d)
  let size := allocSize s g .p
  (List.range (tileCount d)).all fun k => ((tileElems d k).filter (inBounds d o)).all fun e =>
    decide (tensorAddr d o e + z ≤ size)

/-- Where the byte of a VF at an address lies now, as far as its tables say. -/
def whereIs (s : State) (vf : Nat) (k : Acc) (a : Nat) : Option Loc :=
  if noncanonical s vf a then none
  else if isDomain a && domainModule a != s.me then some (.dom (domainModule a) a)
  else match fullWalk s vf a k with
    | .ok c => some (locOf (c.pa + (a - c.va)))
    | .error _ => none

/-- The elements that a copy to `.g` writes from its cursor on: the tile, the number in the box, and where it lies. -/
def boxLocs (s : State) (vf : Nat) (c : Copy) : List (Nat × Nat × Loc) :=
  if !(tensorIsG c.dir && toGlobal c.dir) then []
  else
    ((List.range (tileCount c.desc)).filter fun k => c.cursor ≤ k).flatMap fun k =>
      let es := tileElems c.desc k
      (es.zip (List.range es.length)).filterMap fun e =>
        if inBounds c.desc c.origin e.1 then (whereIs s vf .wr (tensorAddr c.desc c.origin e.1)).map fun l => (k, k * es.length + e.2, l) else none

/-- The first element that a copy to `.g` writes, from its cursor on, whose page cannot be found now for a reason that passes: its lines are owned
before the path goes on (12 R284). -/
def boxWait (s : State) (vf : Nat) (c : Copy) : Option (Nat × WalkErr) :=
  if !(tensorIsG c.dir && toGlobal c.dir) then none
  else
    ((List.range (tileCount c.desc)).filter fun k => c.cursor ≤ k).findSome? fun k => (tileElems c.desc k).findSome? fun e =>
      let a := tensorAddr c.desc c.origin e
      if !inBounds c.desc c.origin e || noncanonical s vf a || (isDomain a && domainModule a != s.me) then none
      else match fullWalk s vf a .wr with
        | .error (.bad _) | .error (.ecc _ _) | .ok _ => none
        | .error x => some (a, x)

/-- A copy with the lines that it owns here. -/
def Copy.withLines (c : Copy) (s : State) (l : List (Nat × Nat × Loc)) (claims : List (Nat × Nat)) : Copy :=
  let z := dElem (dType c.desc)
  { c with lines := l.filterMap fun x => (match x.2.2 with | .pa a => some (x.1, a, z) | _ => none), claims := claims, since := s.handle }

/-- Asks other modules for the lines of a copy there. -/
def askLines (s : State) (who : Asker) (vf g : Nat) (c : Copy) (l : List (Nat × Nat × Loc)) : State :=
  askEach s who vf g (fun _ => .ask true []) (l.map (·.2)) fun _ a => .line a (dElem (dType c.desc))

/-- A running copy that a restore puts back takes its lines again, here and at other modules, behind what has taken them meanwhile (12 R286). -/
def retakeLines (s : State) (h : Nat) (d : DReg) : State :=
  match s.group h with
  | none => s
  | some g =>
    let x := g.copies.rd d
    if x.st ≠ .running then s
    else
      let l := boxLocs s (s.vfOf g) x
      let s := if l.any fun e => e.2.2.away.isSome then askLines s (.copy h d) (s.vfOf g) g.lin x (l.filter fun e => e.2.2.away.isSome) else s
      let x := x.withLines s l ((asksOf s (.copy h d)).map fun a => (a.2.dest, a.1))
      { s.setGroup h { g with copies := g.copies.wr d x } with handle := s.handle + 1 }

/-- Takes the lines of a copy in slot `d`, here and at other modules, before its path goes on (R185, 12 R284), and starts it. -/
def takeLines (c : Cx) (s : State) (d : DReg) (x : Copy) (k : State → Res) : Res :=
  let l := boxLocs s c.vf x
  match boxWait s c.vf x with
  | some (a, .host ipa y) => .walk (hostWait s [s.unit] c.vf a ipa y) ipa y
  | some (a, _) => .again (seek s c.vf a .wr).2
  | none =>
  if owned s none (physOf (l.map fun e => (e.2.2, dElem (dType x.desc)))) then .stall
  else
    let start (s : State) (claims : List (Nat × Nat)) : Res :=
      match s.group c.r.g with
      | some g => k { s.setGroup c.r.g { g with copies := g.copies.wr d (x.withLines s l claims) } with handle := s.handle + 1 }
      | none => .gone s
    if !(l.any fun e => e.2.2.away.isSome) then start s []
    else match c.waited s with
      | none => .remote (askLines s (.path c.r) c.vf c.g.lin x l) (RemoteWait.first [])
      | some _ => start (dropAsks s (.path c.r)) ((asksOf s (.path c.r)).map fun a => (a.2.dest, a.1))

def tcopyBody (o : TCopy) (c : Cx) (s : State) : Res :=
  let slot := c.g.copies.rd o.d
  let d := c.g.d.rd o.d
  let a := c.p.getS o.a
  let b0 := c.p.getS o.b
  let b1 := c.p.getS (o.b + 1)
  let origin : Bank 2 W32 := (((Bank.fill (b0.setWidth 32)).wr 1 ((b0 >>> 32).setWidth 32)).wr 2 (b1.setWidth 32)).wr 3
    ((b1 >>> 32).setWidth 32)
  match slot.st with
  | .running => .stall
  | .faulted => .fault s (copyFault c.g c.p.mask o.d)
  | .idle | .done =>
    match dCheck d with
    | some off => .fault s { FaultInfo.of cDescriptor c.p.mask with detail := BitVec.ofNat 8 off, dindex := o.d.setWidth 8 }
    | none =>
      if match o.bar with | some b => !s.barValid c.g b | none => false then .fault s (FaultInfo.of cBarrier c.p.mask)
      else if a.toNat % 16 ≠ 0 then .fault s (FaultInfo.at cMisaligned c.p.mask a)
      else if !rangeIn a (dLocal d) (allocSize s c.g (localSpace o.dir)) then finish c s c.p.mask
      else if !tensorIsG o.dir && !tensorInScratch s c.g d origin then finish c s c.p.mask
      else
        let x : Copy := { Copy.idle with st := .running, desc := d, dir := o.dir, laddr := a, origin := origin, bar := o.bar, tag := o.tag,
                                         own := c.p.mask }
        takeLines c s o.d x fun s => .done (addLog s c.r.g (.copy o.tag o.dir))

def execTcopy (h : Hdr) (o : TCopy) (s : State) : Out := .next (run (uTCopy o) h (tcopyBody o) s)

/-! ### tstat, tresume (R188) -/

def copyStCode : CopySt → Nat
  | .idle => 0 | .running => 1 | .done => 2 | .faulted => 3

def tstatWord (c : Copy) : W64 :=
  BitVec.ofNat 64 (c.cursor * 2 ^ 32 + c.tag.toNat * 2 ^ 16 + (if c.st = .faulted then c.tcause.toNat else 0) * 2 ^ 8 + copyStCode c.st)

def execTstat (h : Hdr) (o : TStat) (s : State) : Out := .next (run (uTStat o) h (scalar o.d fun c => tstatWord (c.g.copies.rd o.a)) s)

def execTresume (h : Hdr) (d : DReg) (s : State) : Out :=
  .next (run (uDReg d) h (fun c s =>
    let x := c.g.copies.rd d
    if x.st = .faulted then takeLines c s d { x with st := .running, tcause := 0, faddr := 0 } .done else .done s) s)

/-! ### A tile (R184, R186) -/

/-- What preparing a tile came to. -/
inductive TileX where
  | ok (l : List ElemAt)
  | bad (l : List ElemAt) (a : Nat) (x : Xlat)
  deriving DecidableEq, Repr

/-- Translates the in-bounds elements of a tile in order, to the first failure. -/
def tilePlaces (s : State) (vf grid : Nat) (c : Copy) : List Elem → TileX × State
  | [] => (.ok [], s)
  | e :: rest =>
    let z := dElem (dType c.desc)
    let next (p : Option Place) (s : State) : TileX × State :=
      match tilePlaces s vf grid c rest with
      | (.ok l, s) => (.ok ({ e := e, place := p } :: l), s)
      | (.bad l a x, s) => (.bad ({ e := e, place := p } :: l) a x, s)
    if !inBounds c.desc c.origin e then next none s
    else
      let a := tensorAddr c.desc c.origin e
      if !tensorIsG c.dir then next (some (.here [(.scratch grid a, z)])) s
      else
        match seek s vf a (if toGlobal c.dir then .wr else .rd) with
        | (.ok pa, s) => next (some (Place.of [(locOf pa, z)])) s
        | (.remote m, s) => next (some (.remote [(.dom m a, z)])) s
        | (x, s) => (.bad [] a x, s)

/-- The fill value of an element (R180). -/
def fillBytes (d : BitVec 512) : List W8 :=
  natLe (dElem (dType d)) (if nbits (dFlags d) 2 1 = 1 then dFill d else 0)

def localPlace (s : State) (g : Group) (c : Copy) (e : Elem) : Place :=
  let z := dElem (dType c.desc)
  let o := c.laddr.toNat + localOff c.desc e
  match localSpace c.dir with
  | .s => .here [(.team g.team o, z)]
  | _ => match s.team g.team with
    | some t => .here [(.scratch t.grid o, z)]
    | none => .here []

def toLocal : CDir → Bool
  | .g2s | .g2p | .p2s => true
  | _ => false

/-- Moves one element; `i` is its number in the tile. What another module holds it has written, or has sent. -/
def moveElem (g : Group) (c : Copy) (ans : List (Nat × PieceAnswer)) (l : List ElemAt) (s : State) (i : Nat) : State :=
  match l[i]? with
  | none => s
  | some x =>
    let z := dElem (dType c.desc)
    let p := localPlace s g c x.e
    if toLocal c.dir then
      match x.place with
      | some (.here q) => laneWrite s p (s.readLocs q)
      | some (.remote _) => laneWrite s p (pieceData ans i z)
      | none => laneWrite s p (fillBytes c.desc)
    else
      match x.place with
      | some q => laneWrite s q (s.readLocs p.all)
      | none => s

/-- Gives up lines of a copy at other modules. -/
def tellClaims (s : State) (vf : Nat) (c : Copy) (mode : Nat → ReqMode) : State :=
  c.claims.foldl (fun s x => tell s vf x.1 (mode x.2) []) s

/-- The copy after its tile: done after the last, when its barrier receives its arrival. -/
def afterTile (s : State) (h : Nat) (d : DReg) (c : Copy) : State :=
  match s.group h with
  | none => s
  | some g =>
    let k := c.cursor + 1
    if k < tileCount c.desc then
      let n := (tileElems c.desc c.cursor).length
      let s := tellClaims s (s.vfOf g) c fun id => .release id ((List.range n).map (c.cursor * n + ·))
      s.setGroup h { g with copies := g.copies.wr d { c with cursor := k, tile := none } }
    else
      let s := tellClaims s (s.vfOf g) c .cancel
      let s := s.setGroup h { g with copies := g.copies.wr d { c with cursor := k, st := .done, tile := none, lines := [], claims := [] } }
      let s := addLog s h (.copyDone c.tag c.dir)
      let s := engineArrive s g c.bar c.owes
      if toGlobal c.dir && !g.closing.contains c.tag then { s with agenda := s.agenda ++ [.event (.tileClose h c.tag)] } else s

def setCopy (s : State) (h : Nat) (d : DReg) (c : Copy) : State :=
  match s.group h with
  | some g => s.setGroup h { g with copies := g.copies.wr d c }
  | none => s

/-- The copy faults at its tile: what it owns is released unchanged (R186, 12 R286). -/
def copyFails (s : State) (h : Nat) (d : DReg) (vf : Nat) (c : Copy) (a : Nat) (cause : W8) : State :=
  let s := cancelAsks (tellClaims s vf c .cancel) (.copy h d)
  setCopy s h d { c with st := .faulted, tcause := cause, faddr := BitVec.ofNat 64 a, tile := none, lines := [], claims := [] }

/-- Numbers of the elements of a tile at other modules, with where they lie. -/
def awayElems (l : List ElemAt) : List (Nat × Loc) :=
  (l.zip (List.range l.length)).filterMap fun x => match x.1.place with
    | some (.remote ((q, _) :: _)) => some (x.2, q)
    | _ => none

/-- The physical places of a tile's elements here, with their addresses. -/
def tilePhys (c : Copy) (l : List ElemAt) : List (Nat × Nat × Nat) :=
  l.filterMap fun x => x.place.bind fun p => (physPages [(tensorAddr c.desc c.origin x.e, 0)] p.all).head?

/-- Begins a tile: every page is translated, here and at other modules, before the tile moves (R186, 14 R310, R312). -/
def beginTile (s : State) (h : Nat) (d : DReg) (g : Group) (c : Copy) (vf : Nat) : State :=
  let grid := match s.team g.team with | some t => t.grid | none => 0
  let z := dElem (dType c.desc)
  let asked (s : State) (l : List ElemAt) (bad : Option (Nat × Nat × W8)) : State :=
    let mk (i : Nat) (a : W64) : RemoteOp := match l[i]? with
      | some x => if toGlobal c.dir then .write a (s.readLocs (localPlace s g c x.e).all) else .read a z
      | none => .read a 0
    let mode (m : Nat) : ReqMode := .ask false ((c.claims.filter fun x => x.1 == m).map (·.2))
    let t : TileRun := { elems := l, left := List.range l.length, waits := !(awayElems l).isEmpty, go := false, bad := bad }
    let here := if toGlobal c.dir then (tilePhys c l).map fun x => (c.cursor, x.2.1, x.2.2) else []
    setCopy (askEach s (.copy h d) vf g.lin mode (awayElems l) mk) h d
      { c with tile := some t, lines := (c.lines.filter fun x => x.1 != c.cursor) ++ here.filter fun x => paClass x.2.1 != 1 }
  match tilePlaces s vf grid c (tileElems c.desc c.cursor) with
  | (.ok l, s) =>
    let at_ := tilePhys c l
    match arriveAll s vf (if toGlobal c.dir then .wr else .rd) (if toGlobal c.dir then some c.since else none) (at_.map (·.1)) (at_.map (·.2)) with
    | (some (.dead x), s) => endContext s vf x 0
    | (some _, s) => s
    | (none, s) =>
      let local_ := l.flatMap fun x => if x.place.isNone then [] else if toLocal c.dir then (match x.place with | some p => p.all | none => []) else (localPlace s g c x.e).all
      match sramLocs s vf local_ with
      | (some x, s) => endContext s vf x 0
      | (none, s) => asked s l none
  | (.bad l a x, s) =>
    match x with
    | .cause y | .remoteCause y => if (awayElems l).isEmpty then copyFails s h d vf c a y else asked s l (some (l.length, a, y))
    | .wait _ _ => setCopy s h d { c with held := true }
    | .dead y => endContext s vf y 0
    | .busy | .ok _ | .remote _ => s

/-- The first element of a tile that fails at its module, with its address and cause (14 R310). -/
def tileCause (c : Copy) (t : TileRun) (ans : List (Nat × PieceAnswer)) : Option (Nat × W8) :=
  let far := (List.range t.elems.length).findSome? fun i => ans.findSome? fun a => match a with
    | (k, .cause x) => if k = i then (t.elems[i]?).map fun e => (tensorAddr c.desc c.origin e.e, x) else none
    | _ => none
  match far with
  | some x => some x
  | none => t.bad.map (·.2)

/-- Moves elements of a tile that may move. -/
def moveSome (s : State) (h : Nat) (d : DReg) (g : Group) (c : Copy) (t : TileRun) (l : List Nat) : State :=
  let s := l.foldl (moveElem g c (keyed (answersOf s (.copy h d))) t.elems) s
  let left := t.left.filter fun i => !l.contains i
  let s := setCopy s h d { c with tile := some { t with left := left } }
  if left.isEmpty then afterTile (dropAsks s (.copy h d)) h d { c with tile := none } else s

/-- Whether a copy's engine works: it is not held, and its team is on a core. -/
def copyRuns (s : State) (g : Group) (c : Copy) : Bool := c.st == .running && !c.held && (s.coreOf g).isSome

/-- The copy's tile goes on: it begins, is performed at other modules once they have translated it, or moves the elements that `pick` names. -/
def tileGoesOn (s : State) (h : Nat) (d : DReg) (pick : List Nat → List Nat) : State :=
  match s.group h with
  | none => s
  | some g =>
    let c := g.copies.rd d
    let vf := s.vfOf g
    if !copyRuns s g c then s
    else match c.tile with
      | none =>
        if !allAnswered s (.copy h d) then s else
        let s := beginTile (dropAsks s (.copy h d)) h d g c vf
        match (s.group h).map fun g => (g, g.copies.rd d) with
        | some (g, c) => match c.tile with
          | some t => if t.waits then s else moveSome s h d g c t (pick t.left)
          | none => s
        | none => s
      | some t =>
        if !t.waits then moveSome s h d g c t (pick t.left)
        else if !allAnswered s (.copy h d) then s
        else if t.go then moveSome s h d g c t (pick t.left)
        else match tileCause c t (keyed (answersOf s (.copy h d))) with
          | some (a, x) => copyFails s h d vf c a x
          | none => goAsks (setCopy s h d { c with tile := some { t with go := true } }) (.copy h d) g.lin

/-- TCOPY_TILE: the engine takes the tile at the cursor, and writes what is left of it (R186). -/
def execTcopyTile (h : Nat) (d : DReg) (s : State) : Out := .next (tileGoesOn s h d id)

/-- One element of a tile is written, in no fixed order: a reader that is not ordered after the copy may see a tile partly written (R186, 12
R287). -/
def copyElementLands (h : Nat) (d : DReg) (s : State) : State :=
  let t := tileGoesOn s h d fun l => (l[Config.pick s.free % l.length]?).toList
  if t = s then s else { t with free := t.free + 1 }

/-! ### Tile stamps (22 R431) -/

/-- ns from moment `a` to `b`, in units of 2^-32 ns: the floor of the difference, at most 0xFFFF_FFFF. -/
def span (a b : Nat) : Nat := min ((b - a) / 2 ^ 32) 0xFFFFFFFF

def isCopyIn : CDir → Bool
  | .g2s | .g2p | .p2s => true
  | _ => false

/-- The moment a tile opens: the last close before its first tagged copy since the previous close of the tag, or before the `tstamp` that closes
it; or the group's start. -/
def openOf (g : Group) (tag : W16) : Nat :=
  let rec go (l : List (StampEv × Nat)) (lastClose : Nat) (opened : Option Nat) (stamps : List Nat) : Nat :=
    match l with
    | [] => opened.getD (stamps.headD lastClose)
    | (.close t b, n) :: rest => go rest n (if t == tag then none else opened) (if t == tag && b then stamps.drop 1 else stamps)
    | (.copy t _, _) :: rest => go rest lastClose (if t == tag && opened.isNone then some lastClose else opened) stamps
    | (.stamp t, _) :: rest => go rest lastClose opened (if t == tag then stamps ++ [lastClose] else stamps)
    | _ :: rest => go rest lastClose opened stamps
  go g.log g.startAt none []

/-- The events of the tag's tile: those after the last close of the tag. -/
def tileLog (g : Group) (tag : W16) : List (StampEv × Nat) :=
  g.log.foldl (fun l e => match e.1 with | .close t _ => if t == tag then [] else l ++ [e] | _ => l ++ [e]) []

/-- The last completed copy toward the local side, with what follows it. -/
def lastIn (tag : W16) : List (StampEv × Nat) → Option (Nat × List (StampEv × Nat))
  | [] => none
  | (e, n) :: rest =>
    match lastIn tag rest with
    | some r => some r
    | none => match e with
      | .copyDone t d => if t == tag && isCopyIn d then some (n, rest) else none
      | _ => none

/-- The latest completion among the `mma` issued before the first tagged copy-out, or the close; where one of them is not complete at the close,
the record's field is free (log entry 36). -/
def lastMma (s : State) (g : Group) (tag : W16) : Option Nat :=
  let before := (tileLog g tag).takeWhile fun e => match e.1 with | .copy t d => !(t == tag && toGlobal d) | _ => true
  let cut := (g.log.length - (tileLog g tag).length) + before.length
  let ids := (g.log.take cut).filterMap fun e => match e.1 with | .mma i => some i | _ => none
  let done := g.log.filterMap fun e => match e.1 with | .mmaDone i => if ids.contains i then some e.2 else none | _ => none
  if done.length < ids.length then some (s.bell.toNat + (Config.value32 s.free).toNat * 2 ^ 32) else done.getLast?

/-- The 32 bytes of a tile stamp. -/
def stampBytes (s : State) (g : Group) (tag : W16) (byStamp : Bool) : List W8 :=
  let now := s.bell.toNat
  let op := openOf g tag
  let l := tileLog g tag
  let inn := lastIn tag l
  let mma := inn.bind fun r => (r.2.find? fun e => match e.1 with | .mma _ => true | _ => false).map (·.2)
  let opw := match inn, mma with | some r, some m => span r.1 m | _, _ => 0
  let mm := match mma, lastMma s g tag with | some m, some d => span m d | _, _ => 0
  let out := (l.find? fun e => match e.1 with | .copy t d => t == tag && toGlobal d | _ => false).map (·.2)
  let outDone := (l.filter fun e => match e.1 with | .copyDone t d => t == tag && toGlobal d | _ => false).getLast?.map (·.2)
  let gid := match s.gridOf g with | some d => d.gridid.toNat | none => 0
  natLe 2 tag.toNat ++ ([1, if byStamp then 1 else 2] : List W8) ++ natLe 4 g.lin ++ natLe 4 gid ++ natLe 4 (span op now) ++
    natLe 4 (match inn with | some r => span op r.1 | none => 0) ++ natLe 4 opw ++ natLe 4 mm ++
    natLe 4 (match out, outDone with | some a, some b => span a b | _, _ => 0)

/-- A trace record is formed and waits for its write (22 R433). -/
def formTrace (s : State) (vf : Nat) (d : List W8) (tile : Option (Nat × Nat × Nat) := none) : State :=
  s.setVf vf fun v => { v with trace := v.trace ++ [{ body := rec32 d, ns := s.ns, tile := tile }] }

/-- A chain's tile is done when its stamp record is written (17 R356). -/
def tileDone (s : State) (x : Nat × Nat × Nat) : State :=
  s.setPad x.1 fun p => match p.stream x.2.1 with
    | some t => match t.chainOf x.2.2 with
      | some c => p.setStream x.2.1 (t.setChain { c with doneTiles := c.doneTiles + 1 })
      | none => p
    | none => p

/-- The strip whose chain runs a group. -/
def stripOf (s : State) (g : Group) : Option (Nat × Nat × Nat) :=
  match (s.gridOf g).map (fun d : Grid => d.origin) with
  | some (Origin.chain pd st n) => some (pd, st, n)
  | _ => none

/-- The tile of a tag closes: its stamp is formed (R431). -/
def closeTile (h : Nat) (tag : W16) (byStamp : Bool) (s : State) : State :=
  match s.group h with
  | none => s
  | some g =>
    let d := stampBytes s g tag byStamp
    let vf := s.vfOf g
    let s := addLog (s.setGroup h { g with closing := g.closing.erase tag }) h (.close tag byStamp)
    let s := formTrace { s with free := s.free + 1 } vf d (if byStamp then stripOf s g else none)
    offer s vf 0 ((List.range 8).map fun i => BitVec.ofNat 32 (field d (4 * i) 4))

/-- Copies of a tag that have not completed. -/
def tagBusy (g : Group) (tag : W16) : Bool :=
  allD.any fun d => let c := g.copies.rd d; c.tag == tag && (c.st == .running || c.st == .faulted)

/-- TILE_CLOSE: a tile closes at a `tstamp` once its copies have completed, or at the completion of a copy-out (R431). -/
def execTileClose (h : Nat) (tag : W16) (s : State) : Out :=
  match s.group h with
  | none => .next s
  | some g => .next (if g.closing.contains tag && tagBusy g tag then s else closeTile h tag (g.closing.contains tag) s)

/-- `tstamp` (08 R230): the tile closes, now or once its copies have completed; the path does not wait. -/
def execTstamp (h : Hdr) (a : SReg) (s : State) : Out :=
  .next (run (uTStamp a) h (fun c s =>
    let tag : W16 := (c.p.getS a).setWidth 16
    let s := addLog (s.setGroup c.r.g { c.g with closing := c.g.closing ++ [tag] }) c.r.g (.stamp tag)
    .done (if tagBusy c.g tag then s else closeTile c.r.g tag true s)) s)

end Sys2Proof.Machine
end

