-- ==== Sys2Proof/Machine/Geom.lean ====
section
/-! DEFINITION. Exact arithmetic with infinities, and the boxes, triangles, texture and coverage of 07 R196-R199, R207, R208. -/

namespace Sys2Proof.Machine

/-! ### Exact numbers -/

/-- An exact fraction that is not zero, with a positive denominator; a zero with its sign; an infinity; or no number (03 R77, R80). -/
inductive Ext where
  | nan
  | inf (neg : Bool)
  | zero (neg : Bool)
  | fin (n : Int) (d : Nat)
  deriving DecidableEq, Repr

def FV.ext (x : FV) : Ext :=
  match x with
  | .nan => .nan
  | .inf n => .inf n
  | .fin n m e =>
    if m = 0 then .zero n
    else .fin (Dy.frac ⟨if n then -(m : Int) else m, e⟩).1 (Dy.frac ⟨if n then -(m : Int) else m, e⟩).2

/-- The number an FP32 encoding stands for. -/
def ext32 (x : W32) : Ext := FV.ext (unpack .f32 x.toNat)

/-- A whole number. -/
def Ext.int (n : Int) : Ext := if n = 0 then .zero false else .fin n 1

def Ext.neg : Ext → Ext
  | .nan => .nan
  | .inf n => .inf !n
  | .zero n => .zero !n
  | .fin n d => .fin (-n) d

/-- A sum that cancels is +0. -/
def finSum (n : Int) (d : Nat) : Ext := if n = 0 then .zero false else .fin n d

def Ext.add (x y : Ext) : Ext :=
  match x, y with
  | .nan, _ | _, .nan => .nan
  | .inf a, .inf b => if a = b then .inf a else .nan
  | .inf a, _ | _, .inf a => .inf a
  | .zero a, .zero b => .zero (a && b)
  | .zero _, v | v, .zero _ => v
  | .fin n d, .fin m e => if d = e then finSum (n + m) d else finSum (n * e + m * d) (d * e)

def Ext.sub (x y : Ext) : Ext := x.add y.neg

/-- The sign bit of a number. -/
def Ext.isNeg : Ext → Bool
  | .nan => false
  | .inf n | .zero n => n
  | .fin n _ => decide (n < 0)

def Ext.mul (x y : Ext) : Ext :=
  match x, y with
  | .nan, _ | _, .nan => .nan
  | .inf _, .zero _ | .zero _, .inf _ => .nan
  | .fin n d, .fin m e => .fin (n * m) (d * e)
  | .zero _, _ | _, .zero _ => .zero (x.isNeg != y.isNeg)
  | .inf _, _ | _, .inf _ => .inf (x.isNeg != y.isNeg)

/-- A quotient; by zero it is an infinity or no number, as IEEE 754 has it. -/
def Ext.div (x y : Ext) : Ext :=
  match x, y with
  | .nan, _ | _, .nan => .nan
  | .inf _, .inf _ | .zero _, .zero _ => .nan
  | .fin n d, .fin m e => .fin (if m < 0 then -(n * e) else n * e) (d * m.natAbs)
  | .zero _, _ | _, .inf _ => .zero (x.isNeg != y.isNeg)
  | .inf _, _ | _, .zero _ => .inf (x.isNeg != y.isNeg)

/-- The sign of a number: none for NaN. -/
def Ext.sign : Ext → Option Int
  | .nan => none
  | .inf n => some (if n then -1 else 1)
  | .zero _ => some 0
  | .fin n _ => some n.sign

def Ext.pos (x : Ext) : Bool := x.sign == some 1
def Ext.negative (x : Ext) : Bool := x.sign == some (-1)
def Ext.isZero (x : Ext) : Bool := x.sign == some 0
def Ext.isNan (x : Ext) : Bool := x.sign == none

def Ext.le (x y : Ext) : Bool :=
  match x, y with
  | .nan, _ | _, .nan => false
  | .inf true, _ => true
  | .inf false, .inf false => true
  | .inf false, _ => false
  | _, .inf b => !b
  | .zero _, .zero _ => true
  | .zero _, .fin m _ => decide (0 ≤ m)
  | .fin n _, .zero _ => decide (n ≤ 0)
  | .fin n d, .fin m e => decide (n * e ≤ m * d)

def Ext.min (x y : Ext) : Ext := if x.le y then x else y
def Ext.max (x y : Ext) : Ext := if x.le y then y else x

/-- FP32, rounded once. -/
def Ext.round (m : Rm) : Ext → W32
  | .nan => f32nan
  | .inf n => f32inf n
  | .zero n => f32zero n
  | .fin n d => BitVec.ofNat 32 (roundQ .f32 (.mode m) false (decide (n < 0)) n.natAbs d)

/-! ### Ray and box (R197) -/

/-- FP32 words of a block of bytes. -/
def word32 (d : List W8) (off : Nat) : W32 := BitVec.ofNat 32 (field d off 4)

/-- A ray: origin, direction, and the two limits. -/
structure Ray where
  o : List W32
  d : List W32
  tmin : W32
  tmax : W32

def Ray.words (r : Ray) : List W32 := r.o ++ r.d ++ [r.tmin, r.tmax]

/-- One axis of the slab test: `tn` and `tf` after it. -/
def slab (o d lo hi tn tf : Ext) : Ext × Ext :=
  if d.isZero then (if !(lo.le o && o.le hi) then (.inf false, .inf true) else (tn, tf))
  else
    let a := (lo.sub o).div d
    let b := (hi.sub o).div d
    if a.isNan || b.isNan then (.inf false, .inf true)
    else (tn.max (ext32 ((a.min b).round .rdn)), tf.min (ext32 ((a.max b).round .rup)))

def axes : List Nat := [0, 1, 2]

/-- Whether a ray meets the box of a child, and the key it is ordered by. -/
def boxHit (r : Ray) (lo hi : List W32) : Option Ext :=
  let at_ (l : List W32) (x : Nat) : Ext := ext32 (l.getD x 0)
  if (r.words ++ lo ++ hi).any (fun w => (ext32 w).isNan) then none
  else if axes.any fun x => !(at_ lo x).le (at_ hi x) then none
  else
    let (tn, tf) := axes.foldl (fun t x => slab (at_ r.o x) (at_ r.d x) (at_ lo x) (at_ hi x) t.1 t.2) (ext32 r.tmin, ext32 r.tmax)
    if tn.le tf then some tn else none

/-- Inserts a hit child behind those with a key at or below its own. -/
def insertHit (k : Ext) (ref : W32) : List (Ext × W32) → List (Ext × W32)
  | [] => [(k, ref)]
  | (j, x) :: rest => if j.le k then (j, x) :: insertHit k ref rest else (k, ref) :: (j, x) :: rest

def noChild : W32 := 0xFFFFFFFF

/-- The references of the hit children of a node, in order. -/
def boxHits (r : Ray) (node : List W8) : List W32 :=
  let hits := [0, 1, 2, 3].foldl (fun hs c =>
    let ref := word32 node (96 + 4 * c)
    let lo := axes.map fun x => word32 node (24 * c + 4 * x)
    let hi := axes.map fun x => word32 node (24 * c + 12 + 4 * x)
    if ref = noChild then hs
    else match boxHit r lo hi with
      | some k => insertHit k ref hs
      | none => hs) ([] : List (Ext × W32))
  hits.map (·.2)

/-! ### Edges (R198) -/

/-- Whether an edge of direction (x, y) owns the points on it. -/
def ownsEdge (x y : Ext) : Bool := y.negative || (y.isZero && x.pos)

/-- Whether a point with value `e` lies inside an edge from P to Q, reversed or not. -/
def insideEdge (e : Ext) (p q : Ext × Ext) (rev : Bool) : Bool :=
  let dx := q.1.sub p.1
  let dy := q.2.sub p.2
  e.pos || (e.isZero && (if rev then ownsEdge dx.neg dy.neg else ownsEdge dx dy))

/-! ### Ray and triangle (R199) -/

def fsub32 (a b : W32) : W32 := BitVec.ofNat 32 (fpSub .f32 (.mode .rne) a.toNat b.toNat)

/-- `a - s * b`, rounded once. -/
def fnms32 (a s b : W32) : W32 :=
  BitVec.ofNat 32 (sumRound .f32 (.mode .rne) [unpack .f32 a.toNat, ((unpack .f32 s.toNat).mul (unpack .f32 b.toNat)).neg])

def fmul32 (a b : W32) : W32 := BitVec.ofNat 32 (fpMul .f32 (.mode .rne) a.toNat b.toNat)

/-- The axis of the largest magnitude, the lowest on ties. -/
def mainAxis (d : List W32) : Nat :=
  let m (x : Nat) : Nat := (d.getD x 0).toNat % 2 ^ 31
  if m 1 ≤ m 0 ∧ m 2 ≤ m 0 then 0 else if m 2 ≤ m 1 then 1 else 2

/-- The four result words of `rtri` for one lane: t, u, v, primitive id. -/
def triHit (r : Ray) (leaf : List W8) : List W32 :=
  let miss : List W32 := [f32inf false, 0, 0, 0xFFFFFFFF]
  let vtx := (List.range 9).map fun i => word32 leaf (4 * i)
  let kz := mainAxis r.d
  let dz := r.d.getD kz 0
  let k1 := (kz + 1) % 3
  let k2 := (kz + 2) % 3
  let swap := (ext32 dz).negative
  let kx := if swap then k2 else k1
  let ky := if swap then k1 else k2
  let quo (a : Ext) : W32 := (a.div (ext32 dz)).round .rne
  let sx := quo (ext32 (r.d.getD kx 0))
  let sy := quo (ext32 (r.d.getD ky 0))
  let sz := quo (.int 1)
  let proj (v : Nat) : Ext × Ext × Ext :=
    let p (x : Nat) : W32 := fsub32 (vtx.getD (3 * v + x) 0) (r.o.getD x 0)
    (ext32 (fnms32 (p kx) sx (p kz)), ext32 (fnms32 (p ky) sy (p kz)), ext32 (fmul32 sz (p kz)))
  let (ax, ay, az) := proj 0
  let (bx, by_, bz) := proj 1
  let (cx, cy, cz) := proj 2
  let u0 := (bx.mul cy).sub (by_.mul cx)
  let v0 := (cx.mul ay).sub (cy.mul ax)
  let w0 := (ax.mul by_).sub (ay.mul bx)
  let dt0 := (u0.add v0).add w0
  let rev := dt0.negative
  let sg (x : Ext) : Ext := if rev then x.neg else x
  let u := sg u0
  let v := sg v0
  let w := sg w0
  let dt := sg dt0
  let a := (ax, ay)
  let b := (bx, by_)
  let c := (cx, cy)
  let t := (((u.mul az).add (v.mul bz)).add (w.mul cz)).div dt |>.round .rne
  if (r.words ++ vtx).any (fun x => (ext32 x).isNan) then miss
  else if dt.pos && insideEdge u b c rev && insideEdge v c a rev && insideEdge w a b rev &&
      (ext32 r.tmin).le (ext32 t) && (ext32 t).le (ext32 r.tmax) then
    [t, (v.div dt).round .rne, (w.div dt).round .rne, word32 leaf 36]
  else miss

/-! ### Coverage (R208) -/

/-- The sample mask of one lane. -/
def coverage (v : List W32) (px py : W32) : W32 :=
  let p (i : Nat) : Ext × Ext := (ext32 (v.getD (2 * i) 0), ext32 (v.getD (2 * i + 1) 0))
  let edge (a b q : Ext × Ext) : Ext := ((b.1.sub a.1).mul (q.2.sub a.2)).sub ((b.2.sub a.2).mul (q.1.sub a.1))
  let area := edge (p 0) (p 1) (p 2)
  let rev := area.negative
  let sg (x : Ext) : Ext := if rev then x.neg else x
  let inside (q : Ext × Ext) : Bool :=
    [(0, 1), (1, 2), (2, 0)].all fun ij => insideEdge (sg (edge (p ij.1) (p ij.2) q)) (p ij.1) (p ij.2) rev
  let sample (i : Nat) : Ext × Ext :=
    (.fin (4 * px.toNat + 1 + 2 * (i % 2)) 4, .fin (4 * py.toNat + 1 + 2 * (i / 2)) 4)
  if v.any (fun x => (ext32 x).isNan) || !(area.pos || area.negative) then 0
  else (List.range 4).foldl (fun m i => if inside (sample i) then m ||| (1#32 <<< i) else m) 0

/-! ### Texture (R207) -/

/-- Element `c` of a texel as FP32's number: FP32, FP16, or UINT8 as n / 255 rounded. -/
def texelVal (type : Nat) (d : List W8) : FV :=
  match type with
  | 0 => unpack .f32 (leNat d)
  | 1 => unpack .f16 (leNat d)
  | _ => unpack .f32 ((Ext.fin (leNat d) 255).round .rne).toNat

/-- A texel index: clamped or wrapped. -/
def texIndex (wrap : Bool) (n : Nat) (x : Int) : Nat :=
  if wrap then (x % n).toNat else (max 0 (min ((n : Int) - 1) x)).toNat

/-- What one coordinate gives: the lower index and the fraction in 256ths; none for NaN, or for an infinity under `.wrap`. An infinity
under `.clamp` is the index at that end (R207). A finite coordinate whose product or difference rounds to an infinity is taken as one: DESIGN
CHOICE, R207 speaks of infinite coordinates alone (log entry 52). -/
def texCoord (lin wrap : Bool) (n : Nat) (u : W32) : Option (Int × Nat) :=
  let half : Ext := if lin then .fin (-1) 2 else .zero true
  match ext32 ((((ext32 u).mul (Ext.int n)).add half).round .rne) with
  | .nan => none
  | .inf neg => if wrap then none else some (if neg then -1 else n, 0)
  | .zero _ => some (0, 0)
  | .fin m d => some (m / d, if lin then ((m - m / d * d) * 256 / d).toNat else 0)

/-- A weight over 65,536. -/
def weight (w : Nat) : FV := .fin false w (-16)

/-- The weights of the texels in the order (x0, y0), (x1, y0), (x0, y1), (x1, y1). -/
def texWeights (fx fy : Nat) : List Nat := [(256 - fx) * (256 - fy), fx * (256 - fy), (256 - fx) * fy, fx * fy]

end Sys2Proof.Machine
end

