-- ==== Sys2Proof/Machine/Traverse.lean ====
section
/-! DEFINITION. `rbox4`, `rtri`, `tex` and `cover` (07 R196-R199, R207, R208), and reads of several places by one lane. -/

namespace Sys2Proof.Machine

/-! ### Reads -/

/-- The pieces of a range, cut at 128-byte lines. -/
def cutLines (a n : Nat) : Nat → List (Nat × Nat)
  | 0 => []
  | fuel + 1 => if n = 0 then [] else
      let k := min n (128 - a % 128)
      (a, k) :: cutLines (a + k) (n - k) fuel

def lineChunks (a n : Nat) : List (Nat × Nat) := cutLines a n (n / 128 + 2)

/-- Reads of `z` bytes at `.g` addresses aligned to `align`, any number per lane, with the checks of R150; what was read goes to `k`. -/
def readMany (c : Cx) (s : State) (z align : Nat) (qs : List (Lane × W64)) (k : State → List (List W8) → Res) : Res :=
  let bad := qs.filter fun q => q.2.toNat % align != 0
  if !bad.isEmpty then .fault s (faultOver none cMisaligned 0 bad)
  else
    match globalPlaces c s none .rd (qs.map fun q => { lane := q.1, addr := q.2, chunks := lineChunks q.2.toNat z }) with
    | .error r => r
    | .ok (s, ps) =>
      performAt c s none ps (fun i => ((qs[i]?).map (·.2)).getD 0) (readOp 0) fun s ans => k s (readPlaces s (ps.map (·.2)) ans)

/-- Values by lane, one for each lane of a list in order. -/
def byLane {α : Type} (ls : List Lane) (xs : List α) (z : α) : Lanes α :=
  Bank.gen fun l => match (ls.zip xs).find? fun p => p.1 == l with
    | some p => p.2
    | none => z

/-- Lands the registers of a block from a list of words per lane. -/
def landBlock (c : Cx) (s : State) (d : VReg) (n : Nat) (f : Lane → List W32) : State :=
  land c s c.em ((List.range n).map fun i => (d + BitVec.ofNat 8 i, Bank.gen fun l => (f l).getD i 0))

/-! ### rbox4 and rtri -/

/-- The ray block of a lane (R196). -/
def rayOf (g : Group) (a : VReg) (l : Lane) : Ray :=
  let w (i : Nat) : W32 := (g.seen (a + BitVec.ofNat 8 i)).rd l
  { o := [w 0, w 1, w 2], d := [w 3, w 4, w 5], tmin := w 6, tmax := w 7 }

/-- One read per EMASK lane at its pair, and result words per lane. -/
def travBody (o : Trav) (z align n : Nat) (f : Ray → List W8 → List W32) (c : Cx) (s : State) : Res :=
  let ls := c.em.lanes
  readMany c s z align (ls.map fun l => (l, c.g.pair o.b l)) fun s ds =>
    let by_ := byLane ls ds []
    .done (landBlock c s o.d n fun l => f (rayOf c.g o.a l) (by_.rd l))

/-- The five result words of `rbox4`. -/
def boxWords (r : Ray) (node : List W8) : List W32 :=
  let hs := boxHits r node
  (List.range 4).map (fun i => hs.getD i noChild) ++ [BitVec.ofNat 32 hs.length]

def execRbox4 (h : Hdr) (o : Trav) (s : State) : Out := .next (run (uRBox o) h (travBody o 128 128 5 boxWords) s)
def execRtri (h : Hdr) (o : Trav) (s : State) : Out := .next (run (uRTri o) h (travBody o 48 16 4 triHit) s)

/-! ### cover -/

def execCover (h : Hdr) (o : Trav) (s : State) : Out :=
  .next (run (uCover o) h (fun c s => .done (land c s c.em [(o.d, Bank.gen fun l =>
    coverage ((List.range 6).map fun i => (c.g.seen (o.a + BitVec.ofNat 8 i)).rd l) ((c.g.seen o.b).rd l) ((c.g.seen (o.b + 1)).rd l))])) s)

/-! ### tex -/

/-- The first field that makes a descriptor no texture (R207). -/
def texCheck (d : BitVec 512) : Option Nat :=
  if dType d ≠ 0 ∧ dType d ≠ 1 ∧ dType d ≠ 7 then some 52 else if dDim d 0 % 4 ≠ 0 then some 8 else none

/-- The texels of a lane in order, with their weights; none where the result is NaN in every channel. -/
def texels (o : Tex) (d : BitVec 512) (u v : W32) : Option (List ((Nat × Nat) × Nat)) :=
  let w := dDim d 0 / 4
  let h := dDim d 1
  match texCoord o.lin o.wrap w u, texCoord o.lin o.wrap h v with
  | some (x, fx), some (y, fy) =>
    let at_ (i j : Int) : Nat × Nat := (texIndex o.wrap w (x + i), texIndex o.wrap h (y + j))
    if o.lin then some ([at_ 0 0, at_ 1 0, at_ 0 1, at_ 1 1].zip (texWeights fx fy)) else some [(at_ 0 0, 65536)]
  | _, _ => none

/-- Address of element `c` of texel (x, y). -/
def texAddr (d : BitVec 512) (t : Nat × Nat) (c : Nat) : W64 :=
  BitVec.ofNat 64 (dBase d + dElem (dType d) * (4 * t.1 + c) + t.2 * dStride d 1)

/-- The reads of a lane: every channel of every texel. -/
def texReads (d : BitVec 512) (ts : List ((Nat × Nat) × Nat)) : List W64 :=
  ts.flatMap fun t => (List.range 4).map fun c => texAddr d t.1 c

/-- Channel `c` from the lane's elements. -/
def texSum (type : Nat) (ts : List ((Nat × Nat) × Nat)) (es : List (List W8)) (c : Nat) : W32 :=
  BitVec.ofNat 32 (sumRound .f32 (.mode .rne) ((ts.zip (List.range ts.length)).map fun t =>
    (texelVal type (es.getD (4 * t.2 + c) [])).mul (weight t.1.2)))

/-- R207. Of a texture with no texel the manual states no result: free values (log entry 13). DESCRIPTOR_INVALID names every lane of MASK, and is
raised with no lane in EMASK too: DESIGN CHOICE, the rule names no lanes (log entry 41). -/
def texBody (o : Tex) (c : Cx) (s : State) : Res :=
  let d := c.g.d.rd o.b
  match texCheck d with
  | some off => .fault s { FaultInfo.of cDescriptor c.p.mask with detail := BitVec.ofNat 8 off }
  | none =>
    if dDim d 0 = 0 ∨ dDim d 1 = 0 then
      .done { landBlock c s o.d 4 (fun l => (List.range 4).map fun i => Config.value32 (s.free + 4 * l.toNat + i)) with free := s.free + 32 }
    else
      let z := dElem (dType d)
      let lanes := c.em.lanes.map fun l => (l, texels o d ((c.g.seen o.a).rd l) ((c.g.seen (o.a + 1)).rd l))
      let qs := lanes.flatMap fun q => match q.2 with
        | some ts => (texReads d ts).map fun a => (q.1, a)
        | none => []
      readMany c s z z qs fun s ds =>
        .done (landBlock c s o.d 4 fun l => match lanes.find? fun q => q.1 == l with
          | some (_, some ts) =>
            let es := ((qs.zip ds).filter fun p => p.1.1 == l).map (·.2)
            (List.range 4).map (texSum (dType d) ts es)
          | _ => List.replicate 4 f32nan)

def execTex (h : Hdr) (o : Tex) (s : State) : Out := .next (run (uTex o) h (texBody o) s)

end Sys2Proof.Machine
end

