-- ==== Sys2Proof/Machine/Place.lean ====
section
/-! DEFINITION. Launch records and kernel records, what refuses a launch, and the placement of clusters (01 R42, 10 R245-R247, 12 R273, 16
R337-R340, R344, R348). -/

namespace Sys2Proof.Machine

/-! ### Records (R337, R42) -/

def parseLaunch (d : List W8) : Launched :=
  let f (o n : Nat) : Nat := field d o n
  let w64 (o : Nat) : W64 := BitVec.ofNat 64 (f o 8)
  { format := BitVec.ofNat 16 (f 0 2), flags := BitVec.ofNat 16 (f 2 2), seed := BitVec.ofNat 32 (f 4 4), krec := w64 8, code := w64 16,
    gx := BitVec.ofNat 32 (f 24 4), gy := BitVec.ofNat 32 (f 28 4), gz := BitVec.ofNat 32 (f 32 4), gen := BitVec.ofNat 32 (f 36 4),
    exitb := w64 40, frames := w64 48, spills := w64 56, args := (List.range 8).map fun i => w64 (64 + 8 * i),
    q := Bank.gen fun i => w64 (128 + 8 * i.toNat), modmask := BitVec.ofNat 256 (f 160 32), saves := w64 192,
    zero := f 200 56 == 0 }

def Launched.coop (l : Launched) : Bool := l.flags.getLsbD 0
def Launched.isDomain (l : Launched) : Bool := l.flags.getLsbD 1

/-- A grid shape's side. -/
def sideOk (x : W32) : Bool := decide (1 ≤ x.toNat) && decide (x.toNat ≤ 65535)

/-- The fields of R337. -/
def Launched.ok (l : Launched) : Bool :=
  l.format == 1 && decide (l.flags.toNat < 4) && l.code.toNat % 128 == 0 && sideOk l.gx && sideOk l.gy && sideOk l.gz &&
    l.exitb.toNat % 128 == 0 && l.frames.toNat % 4096 == 0 && l.spills.toNat % 128 == 0 && l.saves.toNat % 4096 == 0 && l.saves != 0 &&
    l.zero && (l.isDomain || (l.gen == 0 && l.modmask == 0))

def clusterShapeOk (w h : Nat) : Bool :=
  (decide (1 ≤ w) && decide (w ≤ 3) && decide (1 ≤ h) && decide (h ≤ 4)) || (w == 2 && h == 6) || (w == 1 && h == 12)

/-- A kernel record that keeps R42 and the limits of R30. -/
def parseKernel (d : List W8) : Option Kernel :=
  let f (o n : Nat) : Nat := field d o n
  let k : Kernel := { entry := f 4 4, regs := f 12 2, acc := f 14 1, groups := f 15 1, cw := f 16 1, ch := f 17 1, shared := f 20 4,
                      scratch := f 24 4, spill := f 28 4, strip := f 32 4 }
  let flags := f 18 2
  if k.entry % 8 = 0 ∧ 16 ≤ k.regs ∧ k.regs ≤ 256 ∧ k.regs % 16 = 0 ∧ k.acc ≤ 8 ∧ 1 ≤ k.groups ∧ k.groups ≤ 64 ∧
      clusterShapeOk k.cw k.ch = true ∧ k.shared ≤ 262144 ∧ k.shared % 1024 = 0 ∧ k.scratch ≤ 2 ^ 24 ∧ k.scratch % 65536 = 0 ∧
      k.spill ≤ 16384 ∧ k.spill % 16 = 0 ∧ flags < 4 ∧ (nbit flags 0 = decide (k.strip ≠ 0)) ∧ f 36 28 = 0
  then some k else none

/-! ### What a core has and a team needs (R245) -/

structure Need where
  slots : Nat
  gran : Nat
  acc : Nat
  shared : Nat
  deriving DecidableEq, Repr

def Need.add (a b : Need) : Need := ⟨a.slots + b.slots, a.gran + b.gran, a.acc + b.acc, a.shared + b.shared⟩
def Need.fits (a : Need) : Bool :=
  decide (a.slots ≤ Config.groupSlots) && decide (a.gran ≤ Config.granules) && decide (a.acc ≤ Config.accSlots) &&
    decide (a.shared ≤ Config.sharedBytes)

def Kernel.need (k : Kernel) : Need := ⟨k.groups, k.groups * (k.regs / 16), k.groups * k.acc, k.shared⟩

/-- A group's last lane has ended and its operations have completed (04 R119, 10 R248). -/
def Group.ended (g : Group) : Bool :=
  (allPaths.all fun i => (g.paths.rd i).isNone) && g.lands.isEmpty && g.ops.isEmpty &&
    allD.all fun d => (g.copies.rd d).st != .running

/-- What a team holds: an ended group has given back its window and tiles. -/
def teamNeed (s : State) (h : Nat) (t : Team) : Need :=
  (s.teamGroups h).foldl (fun n e =>
    if e.2.ended then n else { n with gran := n.gran + e.2.vwin / 16, acc := n.acc + e.2.acc }) ⟨t.gcount, 0, 0, t.size⟩

/-- The teams on a core. -/
def coreTeams (s : State) (core : Nat) : List (Nat × Team) := s.teams.filter fun e => e.2.core == some core

def coreUsed (s : State) (core : Nat) : Need :=
  (coreTeams s core).foldl (fun n e => n.add (teamNeed s e.1 e.2)) ⟨0, 0, 0, 0⟩

/-- The cores of a Paddock. -/
def ownsCore (s : State) (pd core : Nat) : Bool := (s.port core).owner.toNat == pd

def allStreams : List (BitVec 6) := (List.range 64).map fun i => BitVec.ofNat 6 i

/-- The streams of a Paddock. -/
def Paddock.streamList (p : Paddock) : List (Nat × Stream) :=
  allStreams.filterMap fun i => (p.streams.rd i).map fun t => (i.toNat, t)

/-- Cores that a chain keeps from other work: one that runs, or that has finished and whose strip-class teams have not all left (17 R358, 18
R369). -/
def stripCore (s : State) (pd core : Nat) : Bool :=
  (s.pad pd).streamList.any fun t => t.2.cores.getLsbD core && t.2.chains.any fun c => !c.missed &&
    (!c.finished || c.grids.any fun h => (s.grid h).isSome)

/-- Whether RECLAIM takes a core back (20 R403): no new team is placed on it. -/
def reclaiming (s : State) (core : Nat) : Bool :=
  s.fwrun.any fun r => r.cmd.opc == 0x13 && nbit (r.cmd.args.headD 0) core && (s.port core).lender.toNat == r.cmd.hdr.target.toNat

/-- Whether a cooperative grid holds a core that its Paddock gives up, until the grid ends (20 R401). -/
def coopHolds (s : State) (gh core : Nat) : Bool := match s.grid gh with | some d => d.kept.contains core | none => false

/-- Whether a core may take a team of a grid now; a pending one only restores the cooperative grid that holds it (20 R401). -/
def coreTakes (s : State) (gh : Nat) (d : Grid) (restore : Bool) (core : Nat) (n : Need) : Bool :=
  let p := s.port core
  p.owner.toNat == d.paddock && (!p.pending || (restore && coopHolds s gh core)) && !reclaiming s core &&
    (match d.origin with
     | .chain pd st n => match (s.pad pd).stream st with
       | some t => match t.chainOf n with
         | some c => if c.missed then !stripCore s d.paddock core else t.cores.getLsbD core
         | none => false
       | none => false
     | _ => !stripCore s d.paddock core) &&
    ((coreUsed s core).add n).fits

/-! ### Rectangles (R246) -/

/-- The cores of the rectangle with its origin at a mesh index, by TEAMID. -/
def rectCores (w h o : Nat) : Option (List Nat) :=
  if o % 16 + w ≤ 16 ∧ o / 16 + h ≤ 12 then
    some ((List.range (w * h)).map fun t => (o / 16 + t / w) * 16 + o % 16 + t % w)
  else none

/-- The first rectangle whose cores all pass. -/
def findRect (w h : Nat) (ok : Nat → Nat → Bool) : Option (List Nat) :=
  (List.range Config.cores).findSome? fun o => match rectCores w h o with
    | some cs => if ((List.range (w * h)).zip cs).all fun p => ok p.1 p.2 then some cs else none
    | none => none

/-- Whether `n` clusters fit at once on the cores that pass while these are empty but for `used`. -/
def fitAll (ok : Nat → Bool) (k : Kernel) : Nat → List (Nat × Need) → Bool
  | 0, _ => true
  | n + 1, used =>
    let has (c : Nat) : Need := (KMap.get used c).getD ⟨0, 0, 0, 0⟩
    match findRect k.cw k.ch fun _ c => ok c && ((has c).add k.need).fits with
    | some cs => fitAll ok k n (cs.foldl (fun u c => KMap.put u c ((has c).add k.need)) used)
    | none => false

/-! ### Refusals (R339, R247, R273, R348) -/

/-- Granules of a scratchpad slice that grids hold. -/
def sliceUsed (s : State) (i : Nat) : Nat := (s.grids.map fun e => (KMap.get e.2.slices i).getD 0).sum

/-- The scratchpad slices that a Paddock may draw from, with what each has free. -/
def freeSlices (s : State) (pd : Nat) : List (Nat × Nat) :=
  ((List.range 192).filter fun i => (s.memPort (96 + i)).owner.toNat == pd && !(s.memPort (96 + i)).pending).map fun i =>
    (i, Config.sliceGranules - sliceUsed s i)

/-- Scratchpad granules that a Paddock's slices have free. -/
def freeGranules (s : State) (pd : Nat) : Nat := ((freeSlices s pd).map (·.2)).sum

/-- Takes granules from slices in turn. -/
def takeGranules : Nat → List (Nat × Nat) → List (Nat × Nat)
  | 0, _ => []
  | _, [] => []
  | n, (i, k) :: rest => if min n k = 0 then takeGranules n rest else (i, min n k) :: takeGranules (n - min n k) rest

/-- The slices that a launch draws its granules from: any of its Paddock's (R273; which is free, log entry 9). -/
def drawGranules (s : State) (pd n : Nat) : List (Nat × Nat) :=
  let l := freeSlices s pd
  let i := Config.pick s.free % (l.length + 1)
  takeGranules n (l.drop i ++ l.take i)

def clustersOf (l : Launched) : Nat := l.gx.toNat * l.gy.toNat * l.gz.toNat

/-- What refuses a domain copy beside R339. -/
def domainOk (s : State) (vf : Nat) (l : Launched) : Bool :=
  l.gen == (s.vf vf).dgen + 1 && !l.coop &&
    (match s.modnum with | some m => l.modmask.getLsbD m.toNat | none => false) &&
    ((List.range 256).all fun m => !l.modmask.getLsbD m || (s.bound vf m).isSome)

/-- The kernel record of a launch that is not refused; the launch waits where the record's page does (14 R312). GEN is tested when the record is
read, and DGEN moves when the copy is placed: DESIGN CHOICE, R348 does not say at which of the two the test is made (log entry 27). -/
def admitLaunch (s : State) (vf pd : Nat) (l : Launched) (device : Bool) : Dev Kernel × State :=
  if !l.ok || (device && (l.isDomain || l.q != Bank.fill 0)) || (l.isDomain && !domainOk s vf l) then (.fail, s)
  else
    match s.devRead vf l.krec.toNat 64 with
    | (.fail, s) => (.fail, s)
    | (.wait, s) => (.wait, s)
    | (.dead c, s) => (.dead c, s)
    | (.ok d, s) =>
      match parseKernel d with
      | none => (.fail, s)
      | some k =>
        let whole := l.coop || l.isDomain
        if (findRect k.cw k.ch fun _ c => ownsCore s pd c).isNone || !k.need.fits ||
            (whole && (decide (98304 < clustersOf l) || !fitAll (ownsCore s pd) k (clustersOf l) [])) ||
            decide (freeGranules s pd < k.scratch / 65536) ||
            decide (65536 ≤ (s.grids.filter fun e => e.2.vf == vf).length) then (.fail, s)
        else (.ok k, s)

/-- The counter after an identifier is taken (R340). -/
def nextGridId (c : W32) : W32 := if c + 1 = 0xFFFFFFFF then 1 else c + 1

/-- An accepted launch makes a grid that waits to be placed. Its identifier, and its handle. -/
def makeGrid (s : State) (vf pd : Nat) (l : Launched) (k : Kernel) (recAddr : W64) (q : Bank 2 W64) (origin : Origin) (prio : Nat) :
    W32 × Nat × State :=
  let id := (s.vf vf).gridCounter
  let h := s.handle
  let d : Grid :=
    { vf := vf, gridid := id, paddock := pd, launch := l, kernel := k, recAddr := recAddr, q := q, origin := origin, prio := prio,
      order := h, nextCluster := 0, ends := [], scratch := [], slices := drawGranules s pd (k.scratch / 65536),
      domain := if l.isDomain then some { mask := l.modmask, got := 0, since := s.bell.toNat } else none, started := !l.isDomain, armed := [], kept := [] }
  (id, h, ({ s with grids := s.grids.put h d, handle := h + 1, free := s.free + 1 }).setVf vf fun v => { v with gridCounter := nextGridId id })

/-! ### Placing a cluster (R246, R338) -/

/-- Core-local group slots in use. -/
def usedSlots (s : State) (core : Nat) : List Nat :=
  (coreTeams s core).flatMap fun e => (s.teamGroups e.1).map fun g => g.2.slot

/-- The lowest free slots of a core, which groups take in GID order: DESIGN CHOICE, the manual does not say which they take (log entry 42). -/
def freeSlots (s : State) (core n : Nat) : List Nat :=
  ((List.range Config.groupSlots).filter fun i => !(usedSlots s core).contains i).take n

/-- s8 of a domain copy's groups: the module's rank, and the number of modules (R349). -/
def domainArg (s : State) (l : Launched) : W64 :=
  let ms := (List.range 256).filter fun m => l.modmask.getLsbD m
  let me := match s.modnum with | some m => m.toNat | none => 0
  BitVec.ofNat 64 ((ms.filter fun m => m < me).length + 65536 * ms.length)

/-- The argument words of a grid's groups. -/
def argsOf (s : State) (d : Grid) : List W64 :=
  if d.launch.isDomain then d.launch.args.take 7 ++ [domainArg s d.launch] else d.launch.args

/-- A group of a team that starts. -/
def startGroup (s : State) (d : Grid) (t lin slot gid : Nat) : Group :=
  let g := lin * d.kernel.groups + gid
  { Group.start t gid g slot d.kernel.regs d.kernel.acc d.kernel.spill d.launch.seed (d.launch.code + BitVec.ofNat 64 d.kernel.entry)
    (d.launch.spills + BitVec.ofNat 64 (8 * d.kernel.spill * g)) (d.launch.frames + BitVec.ofNat 64 (8192 * g)) (argsOf s d) d.q s.bell.toNat
    with stepArm := d.armed.contains g }

def addGroups (d : Grid) (t lin : Nat) : List (Nat × Nat) → State → State
  | [], s => s
  | (gid, slot) :: rest, s =>
    addGroups d t lin rest { s.setGroup s.handle (startGroup s d t lin slot gid) with handle := s.handle + 1 }

def isStrip (s : State) (d : Grid) : Bool :=
  match d.origin with
  | .chain pd st n => match (s.pad pd).stream st with
    | some t => match t.chainOf n with | some c => !c.missed | none => false
    | none => false
  | _ => false

/-- Team `k` of a cluster starts on a core, its shared bytes zero (12 R272). -/
def addTeam (gh : Nat) (d : Grid) (ch ix k core : Nat) (s : State) : State :=
  let t := s.handle
  let lin := ix * d.teamsPer + k
  let slots := freeSlots s core d.kernel.groups
  let x : Team :=
    { grid := gh, cluster := ch, teamid := k, lin := lin, core := some core, last := core, placed := t, gcount := d.kernel.groups, size := d.kernel.shared,
      shared := [], bars := Bank.fill Barrier.start, strip := isStrip s d, stop := none, saved := false, ids := none }
  let s := { s with teams := s.teams.put t x, handle := t + 1 }
  addGroups d t lin ((List.range d.kernel.groups).zip slots) s

def addTeams (gh : Nat) (d : Grid) (ch ix : Nat) : List (Nat × Nat) → State → State
  | [], s => s
  | (k, core) :: rest, s => addTeams gh d ch ix rest (addTeam gh d ch ix k core s)

/-- The cluster's teams by TEAMID. -/
def clusterTeams (s : State) (ch : Nat) : List Nat := (s.teams.filter fun e => e.2.cluster == ch).map (·.1)

/-- The next cluster of a grid starts on the cores of a rectangle. -/
def startCluster (s : State) (gh : Nat) (d : Grid) (cores : List Nat) : State :=
  let ch := s.handle
  let s := { s with handle := ch + 1 }
  let s := addTeams gh d ch d.nextCluster ((List.range d.teamsPer).zip cores) s
  let c : Cluster := { grid := gh, index := d.nextCluster, teams := clusterTeams s ch, cbars := Bank.fill Barrier.start, reclaim := false, front := 0 }
  (s.setCluster ch c).setGrid gh { d with nextCluster := d.nextCluster + 1 }

/-- Places the next cluster of a grid if a rectangle takes it. -/
def placeNext (s : State) (gh : Nat) : Option State :=
  match s.grid gh with
  | none => none
  | some d =>
    if clustersOf d.launch ≤ d.nextCluster then none
    else (findRect d.kernel.cw d.kernel.ch fun _ c => coreTakes s gh d false c d.kernel.need).map (startCluster s gh d)

/-- Places `n` clusters, or none. -/
def placeMany (gh : Nat) : Nat → State → Option State
  | 0, s => some s
  | n + 1, s => match placeNext s gh with
    | some s => placeMany gh n s
    | none => none

/-- A domain copy is taken: DGEN, its STARTs, and those that had come (R348, R349). -/
def takeDomain (s : State) (gh : Nat) : State :=
  match s.grid gh with
  | none => s
  | some d =>
    match d.domain with
    | none => s
    | some w =>
      let me := match s.modnum with | some m => m.toNat | none => 0
      let ms := (List.range 256).filter fun m => w.mask.getLsbD m
      let early := ((s.vf d.vf).starts.filter fun x => x.2 == d.launch.gen).map (·.1)
      let got := (me :: early).foldl (fun g m => g ||| (1#256 <<< m)) w.got
      let s := s.setVf d.vf fun v => { v with dgen := d.launch.gen, starts := [] }
      let s := s.setGrid gh { d with domain := some { w with got := got, since := s.bell.toNat }, started := got &&& w.mask == w.mask }
      (ms.filter (· != me)).foldl (fun s m => match s.bound d.vf m with
        | some v => (s.flitOut d.vf).send (.start m v d.launch.gen)
        | none => s) s

/-- Places what the dispatcher has chosen of a grid: its next cluster, or the whole of a cooperative grid or domain copy (R247, R348). -/
def placeGrid (s : State) (gh : Nat) : Option State :=
  match s.grid gh with
  | none => none
  | some d =>
    if d.launch.coop || d.launch.isDomain then
      if d.nextCluster = 0 then (placeMany gh (clustersOf d.launch) s).map fun s => takeDomain s gh else none
    else placeNext s gh

end Sys2Proof.Machine
end

