-- ==== Sys2Proof/Machine/Queue.lean ====
section
/-! DEFINITION. Hardware queues, their handles, and the queue instructions (07 R210-R213, 16 R332-R335, 14 R322). -/

namespace Sys2Proof.Machine

/-! ### Handles (R333) -/

def rightE (h : W64) : Bool := h.getLsbD 26
def rightD (h : W64) : Bool := h.getLsbD 27
def rightS (h : W64) : Bool := h.getLsbD 28
def handleDom (h : W64) : Bool := h.getLsbD 24
def handleMod (h : W64) : Nat := nbits h.toNat 23 16
def handleQ (h : W64) : Nat := nbits h.toNat 15 0
def handleKey (h : W64) : W32 := (h >>> 32).setWidth 32

/-- What a handle names. -/
inductive HandleAt where
  | bad
  | here (n : Nat)
  | far (m : Nat)
  deriving DecidableEq, Repr

/-- A queue of this module that the key fits and that belongs to a VF. -/
def localQueue (s : State) (vf : Nat) (h : W64) : HandleAt :=
  match s.queues.get (handleQ h) with
  | some q => if q.live && q.key == handleKey h && q.vf == vf then .here (handleQ h) else .bad
  | none => .bad

/-- What a handle of a VF names. Whether another module holds the queue is its answer. -/
def handleAt (s : State) (vf : Nat) (h : W64) : HandleAt :=
  if h = 0 ∨ h &&& 0xE200C000 ≠ 0 then .bad
  else if !handleDom h then (if handleMod h = 0 then localQueue s vf h else .bad)
  else match s.bound vf (handleMod h) with
    | none => .bad
    | some _ => if s.modnum = some (BitVec.ofNat 8 (handleMod h)) then localQueue s vf h else .far (handleMod h)

/-! ### The ring (R332, R334) -/

def HwQueue.full (q : HwQueue) : Bool := decide (q.cap ≤ q.count + q.kept)

/-- Physical address of record `i` from the head. -/
def HwQueue.at (q : HwQueue) (i : Nat) : Nat := q.store + 32 * ((q.head + i) % q.cap)

def State.setQueue (s : State) (n : Nat) (q : HwQueue) : State := { s with queues := s.queues.put n q }

/-- Appends a record at the tail, without a test of fullness. -/
def pushQueue (s : State) (n : Nat) (q : HwQueue) (rec_ : BitVec 256) : State :=
  (s.writePa [(q.at q.count, 32)] (natLe 32 rec_.toNat)).setQueue n { q with count := q.count + 1 }

/-- Appends a record, or refuses. -/
def enqueue (s : State) (n : Nat) (rec_ : BitVec 256) : Option State :=
  match s.queues.get n with
  | some q => if q.full then none else some (pushQueue s n q rec_)
  | none => none

/-- Removes the record at the head, or under `tail` the one at the tail. -/
def removeRec (s : State) (n : Nat) (q : HwQueue) (tail : Bool) : List W8 × State :=
  let i := if tail then q.count - 1 else 0
  (s.mem.read (q.at i) 32, s.setQueue n { q with count := q.count - 1, head := if tail then q.head else (q.head + 1) % q.cap })

/-- One end-of-stream post, saturating. -/
def HwQueue.post (q : HwQueue) : HwQueue := { q with posts := min 65535 (q.posts + 1) }

def HwQueue.eos (q : HwQueue) : Bool := decide (q.prod ≤ q.posts)

/-! ### Checks (R210, R335) -/

/-- Both faults name every lane of MASK, on predicated instructions too: DESIGN CHOICE, the rule names no lanes (log entry 41). -/
def badHandle (c : Cx) (s : State) : Res := .fault s (FaultInfo.of cQueueHandle c.p.mask)
def badRights (c : Cx) (s : State) : Res := .fault s (FaultInfo.of cQueueRights c.p.mask)

/-- One queue operation goes to the queue's module, and the path waits for its answer (R335). -/
def askQueue (c : Cx) (s : State) (m : Nat) (op : RemoteOp) : Res :=
  .remote (ask s (.path c.r) c.vf c.g.lin m .once [(0, op)]) (RemoteWait.first [])

/-- The answer that a path which has asked one module comes back with. -/
def Cx.asked (c : Cx) (s : State) : Option Answer := (c.waited s).bind fun w => w.2.head?

/-- The handle checks of an instruction that needs a right; `domOk` where a handle with DOM = 1 is admitted. Validity comes first, and
at another module that module says whether the queue exists. -/
def withQueue (c : Cx) (s : State) (h : W64) (right domOk : Bool) (k : HandleAt → Res) : Res :=
  let refused := !right || (handleDom h && !domOk)
  match handleAt s c.vf h with
  | .bad => badHandle c s
  | .here n => if refused then badRights c s else k (.here n)
  | .far m =>
    if !refused then k (.far m)
    else match c.asked s with
      | none => askQueue c s m (.probe h)
      | some .badHandle => badHandle c s
      | some _ => badRights c s

/-- The record in a lane register: word l is lane l (R211). -/
def recordOf (g : Group) (n : VReg) : BitVec 256 := rec32 (allLanes.flatMap fun l => natLe 4 ((g.seen n).rd l).toNat)

/-- A predicate result in the lanes of a mask. -/
def putKm (c : Cx) (d : KReg) (m : Mask) (b : Bool) (s : State) : State :=
  match s.group c.r.g with
  | some g => s.setGroup c.r.g (g.setK d m (if b then 0xFF else 0))
  | none => s

/-- An event of class 2: the case, the queue, and the group (22 R434). -/
def queueEvent (s : State) (n : Nat) (kind g : Nat) : State :=
  match s.queues.get n with
  | some q => offer s q.vf 2 [BitVec.ofNat 32 kind, BitVec.ofNat 32 n, BitVec.ofNat 32 g]
  | none => s

/-! ### qenq, qdeq, qsteal, qeos -/

def qenqBody (o : QEnq) (c : Cx) (s : State) : Res :=
  let h := c.g.q.rd o.q
  let rec_ := recordOf c.g o.d
  withQueue c s h (rightE h) true fun
    | .here n => match enqueue s n rec_ with
      | some s => .done (putK c o.kp false s)
      | none => .done (putK c o.kp true (queueEvent s n 1 c.g.lin))
    | .far m => match c.asked s with
      | none => askQueue c s m (.enq h rec_)
      | some .badHandle => badHandle c s
      | some (.queue full) => .done (putK c o.kp full s)
      | some (.pieces _) => .stall
    | .bad => badHandle c s

def execQenq (h : Hdr) (o : QEnq) (s : State) : Out := .next (run (uQEnq o) h (qenqBody o) s)

/-- `qdeq` at the head, `qsteal` at the tail. -/
def removeBody (o : QDeq) (tail : Bool) (c : Cx) (s : State) : Res :=
  let h := c.g.q.rd o.q
  withQueue c s h (if tail then rightS h else rightD h) false fun
    | .here n => match s.queues.get n with
      | none => badHandle c s
      | some q =>
        if c.em = 0 then .done s
        else if q.count = 0 then
          .done (putKm c o.ke c.em q.eos (putKm c o.kp c.em true (queueEvent s n (if q.eos then 3 else 2) c.g.lin)))
        else
          let (d, s) := removeRec s n q tail
          let v : Lanes W32 := Bank.gen fun l => BitVec.ofNat 32 (field d (4 * l.toNat) 4)
          .done (putKm c o.kp c.em false (land c s c.em [(o.d, v)]))
    | _ => badRights c s

def execQdeq (h : Hdr) (o : QDeq) (s : State) : Out := .next (run (uQDeq o) h (removeBody o false) s)
def execQsteal (h : Hdr) (o : QDeq) (s : State) : Out := .next (run (uQDeq o) h (removeBody o true) s)

def qeosBody (q : QReg) (c : Cx) (s : State) : Res :=
  let h := c.g.q.rd q
  withQueue c s h (rightE h) true fun
    | .here n => match s.queues.get n with
      | some q => .done (s.setQueue n q.post)
      | none => badHandle c s
    | .far m => match c.asked s with
      | none => askQueue c s m (.eos h)
      | some .badHandle => badHandle c s
      | some _ => .done s
    | .bad => badHandle c s

def execQeos (h : Hdr) (q : QReg) (s : State) : Out := .next (run (uQEos q) h (qeosBody q) s)

/-! ### rwq (R213, R322) -/

/-- REMOTE_FAULT of an `rwq`: the lowest payload address in the first page that fails, in every lane of MASK (R322). -/
def rwqFault (c : Cx) (s : State) (a : W64) (sub : W8) : Res := .fault s { FaultInfo.at cRemote c.p.mask a with sub := sub }

/-- Reserves a slot of a queue here, or gives one back. -/
def HwQueue.keep (q : HwQueue) : HwQueue := { q with kept := q.kept + 1 }
def HwQueue.unkeep (q : HwQueue) : HwQueue := { q with kept := q.kept - 1 }

/-- Gives back the slot that an `rwq` holds, wherever its queue is. -/
def releaseSlot (s : State) (vf : Nat) (h : W64) : State :=
  match handleAt s vf h with
  | .here n => match s.queues.get n with
    | some q => s.setQueue n q.unkeep
    | none => s
  | .far m => tell s vf m .once [(0, .unslot h)]
  | .bad => s

/-- The pieces of a payload, by page, with where each begins. -/
def payloadPieces (dst : W64) (n : Nat) : List (Nat × Nat) := pagesOf dst.toNat n

/-- The part of a payload that begins at an address. -/
def payloadPart (dst : W64) (d : List W8) (p : Nat × Nat) : List W8 := (d.drop (p.1 - dst.toNat)).take p.2

/-- The module that a destination names: this one, for a local address (R322). -/
def payloadModule (s : State) (vf : Nat) (dst : W64) : Option Nat :=
  if isDomain dst.toNat && !noncanonical s vf dst.toNat && domainModule dst.toNat != s.me then some (domainModule dst.toNat) else none

/-- An `rwq` between two of its steps: it holds a slot, the payload, and the record as it issued. -/
def rwqWait (h : W64) (d : List W8) (rec_ : BitVec 256) (stage : Nat) : RemoteWait :=
  { at_ := [], stage := stage, data := d, slot := some h, record := rec_ }

/-- The payload is written: its record takes the slot, here or at the queue's module. -/
def rwqRecord (o : Rwq) (h : W64) (c : Cx) (s : State) (d : List W8) (rec_ : BitVec 256) : Res :=
  match handleAt s c.vf h with
  | .here n => match s.queues.get n with
    | some q => .done (putK c o.kp false (pushQueue s n q.unkeep rec_))
    | none => badHandle c s
  | .far m => .remote (ask (dropAsks s (.path c.r)) (.path c.r) c.vf c.g.lin m .once [(0, .enqKept h rec_)]) (rwqWait h d rec_ 6)
  | .bad => badHandle c s

/-- The slot is reserved: every destination page is translated, then the payload is written whole, with its record where the queue is at the same
module (R213, R322). A destination that is not canonical is a page that fails, with SUBCAUSE 0x13: DESIGN CHOICE, R301 has NONCANONICAL raised and
R213 REMOTE_FAULT for a page of the destination (log entry 47). -/
def rwqSend (o : Rwq) (h : W64) (c : Cx) (s : State) (dst : W64) (d : List W8) (rec_ : BitVec 256) : Res :=
  let ps := payloadPieces dst d.length
  let op (i : Nat) (a : W64) : RemoteOp := .write a (payloadPart dst d (ps.getD i (0, 0)))
  match payloadModule s c.vf dst with
  | some m =>
    let both : List (Nat × RemoteOp) := if handleAt s c.vf h = .far m then [(ps.length, .enqKept h rec_)] else []
    .remote (ask (dropAsks s (.path c.r)) (.path c.r) c.vf c.g.lin m .payload
      (((List.range ps.length).map fun i => (i, op i (BitVec.ofNat 64 ((ps.getD i (0, 0)).1)))) ++ both)) (rwqWait h d rec_ 4)
  | none => match s.devAt (.path c.r) c.vf .wr ps op with
    | (.ok (qs, _), s) => rwqRecord o h c (writeAllAt s qs d) d rec_
    | (.error (a, .cause x), s) | (.error (a, .remoteCause x), s) => rwqFault c (releaseSlot s c.vf h) (BitVec.ofNat 64 a) x
    | (.error (_, .dead x), s) => .stop (releaseSlot s c.vf h) x
    | (.error (_, .wait ipa x), s) => .walk (releaseSlot (dropAsks s (.path c.r)) c.vf h) ipa x
    | (.error (_, _), s) => .remote s (rwqWait h d rec_ 3)

/-- What an `rwq` that has its payload does next, with the answers of its stage: the slot asked for (2), held (3), the pages asked for (4),
the payload going (5), the record going (6). A queue that has been destroyed since leaves the handle invalid (R333). -/
def rwqGoOn (o : Rwq) (h : W64) (c : Cx) (s : State) (dst : W64) (w : RemoteWait) (as : List Answer) : Res :=
  match w.stage with
  | 2 => match as with
    | .queue true :: _ => .done (putK c o.kp true s)
    | .queue false :: _ => rwqSend o h c (dropAsks s (.path c.r)) dst w.data w.record
    | .badHandle :: _ => badHandle c s
    | _ => .stall
  | 3 => rwqSend o h c s dst w.data w.record
  | 4 =>
    let ps := payloadPieces dst w.data.length
    let bad := (List.range ps.length).findSome? fun i => (keyed as).findSome? fun a => match a with
      | (k, .cause x) => if k = i then some ((ps.getD i (0, 0)).1, x) else none
      | _ => none
    match bad with
    | some (a, x) => rwqFault c (releaseSlot s c.vf h) (BitVec.ofNat 64 a) x
    | none => .remote (goAsks s (.path c.r) c.g.lin) { w with stage := 5 }
  | 5 =>
    if as.contains .badHandle then badHandle c s
    else if handleAt s c.vf h = (match payloadModule s c.vf dst with | some m => .far m | none => .bad) then .done (putK c o.kp false s)
    else rwqRecord o h c s w.data w.record
  | _ => if as.contains .badHandle then badHandle c s else .done (putK c o.kp false s)

/-- The payload is read: a slot is reserved, before any destination page is translated (R322). -/
def rwqReserve (o : Rwq) (h : W64) (c : Cx) (s : State) (dst : W64) (d : List W8) (rec_ : BitVec 256) : Res :=
  let s := dropAsks s (.path c.r)
  match handleAt s c.vf h with
  | .here n => match s.queues.get n with
    | some q => if q.full then .done (putK c o.kp true (queueEvent s n 1 c.g.lin)) else rwqSend o h c (s.setQueue n q.keep) dst d rec_
    | none => badHandle c s
  | .far m => .remote (ask s (.path c.r) c.vf c.g.lin m .once [(0, .slot h)]) { rwqWait h d rec_ 2 with slot := none }
  | .bad => badHandle c s

/-- The checks of the record, and the read of the payload. DETAIL of a record whose layout is bad is the offset of word 2, whichever of its bits is
wrong: DESIGN CHOICE, the rule names no byte (log entry 48). Where both addresses are misaligned FADDR holds S[B]: DESIGN CHOICE, the rule gives no
order (log entry 33). -/
def rwqPayload (o : Rwq) (h : W64) (c : Cx) (s : State) (rec_ : BitVec 256) : Res :=
  let d := natLe 32 rec_.toNat
  let dst := BitVec.ofNat 64 (field d 0 8)
  let size := field d 8 4
  let src := c.p.getS o.b
  if size < 4 ∨ 4096 < size ∨ size % 4 ≠ 0 then .fault s { FaultInfo.of cDescriptor c.p.mask with detail := 8 }
  else if src &&& 3 ≠ 0 then .fault s (FaultInfo.at cMisaligned c.p.mask src)
  else if dst &&& 3 ≠ 0 then .fault s (FaultInfo.at cMisaligned c.p.mask dst)
  else
    match globalPlaces c s (some c.p.mask) .rd [{ lane := 0, addr := src, chunks := pagesOf src.toNat size }] with
    | .error r => r
    | .ok (s, ps) => performAt c s (some c.p.mask) ps (fun _ => src) (readOp 0) fun s ans =>
        rwqReserve o h c s dst ((readPlaces s (ps.map (·.2)) ans).headD []) rec_

/-- R213. The handle comes first: its module says whether the queue exists before anything else is checked (R210). -/
def rwqBody (o : Rwq) (c : Cx) (s : State) : Res :=
  let h := c.g.q.rd o.q
  let rec_ := match c.waited s with | some (w, _) => w.record | none => recordOf c.g o.d
  let keep : Res → Res
    | .remote s w => .remote s { w with record := rec_ }
    | r => r
  match c.waited s with
  | some (w, as) =>
    if w.stage = 7 then
      if as.contains .badHandle then badHandle c s
      else keep (rwqPayload o h { c with p := { c.p with st := .ready } } (dropAsks s (.path c.r)) rec_)
    else if 2 ≤ w.stage then rwqGoOn o h c s (BitVec.ofNat 64 (field (natLe 32 rec_.toNat) 0 8)) w as
    else if rightE h then keep (rwqPayload o h c s rec_)
    else withQueue c s h (rightE h) true fun _ => badRights c s
  | none =>
    keep (withQueue c s h (rightE h) true fun
      | .far m => .remote (ask s (.path c.r) c.vf c.g.lin m .once [(0, .probe h)]) { RemoteWait.first [] with stage := 7 }
      | _ => rwqPayload o h c s rec_)

def execRwq (h : Hdr) (o : Rwq) (s : State) : Out := .next (run (uRwq o) h (rwqBody o) s)

end Sys2Proof.Machine
end

