-- ==== Sys2Proof/Machine/Pairs.lean ====
section
/-! DEFINITION. Dual-tree traversal (07 R200-R206): the checks at issue, one pass of the loop, and how it stops. -/

namespace Sys2Proof.Machine

/-- A tree descriptor (R195). -/
structure Tree where
  node : Nat
  leaf : Nat
  nodes : Nat
  leaves : Nat
  boxes : Bool
  tag : Nat
  root : W32

def parseTree (d : List W8) : Tree :=
  { node := field d 0 8, leaf := field d 8 8, nodes := field d 16 4, leaves := field d 20 4, boxes := field d 24 1 == 2, tag := field d 26 2,
    root := word32 d 28 }

/-- The first field that breaks R195. -/
def treeCheck (d : List W8) : Option Nat :=
  if field d 0 8 % 128 ≠ 0 then some 0
  else if field d 8 8 % 16 ≠ 0 then some 8
  else if field d 24 1 ≠ 1 ∧ field d 24 1 ≠ 2 then some 24
  else if field d 25 1 ≠ 0 then some 25
  else (List.range 32).findSome? fun i => if field d (32 + i) 1 ≠ 0 then some (32 + i) else none

def noSource : W32 := 0xFFFFFFFF

/-- A stack entry: aRef, aSrc, bRef, bSrc. -/
abbrev PairEntry := W32 × W32 × W32 × W32

/-- Entry `i` of a record. -/
def entryOf (d : List W8) (i : Nat) : PairEntry :=
  (word32 d (64 + 16 * i), word32 d (68 + 16 * i), word32 d (72 + 16 * i), word32 d (76 + 16 * i))

def entryBytes (e : PairEntry) : List W8 := natLe 4 e.1.toNat ++ natLe 4 e.2.1.toNat ++ natLe 4 e.2.2.1.toNat ++ natLe 4 e.2.2.2.toNat

/-- What the record's header says (R204): the failing byte, complete, or where the traversal stands. -/
inductive Header where
  | bad (off : Nat)
  | complete
  | go (stack : List PairEntry) (seq : W64) (resumed : Bool)
  deriving DecidableEq, Repr

/-- The stack is kept with its top first. -/
def readHeader (d : List W8) (a b : W64) (ra rb : W32) : Header :=
  let st := field d 0 4
  if st = 0 then .go [(ra, noSource, rb, noSource)] 0 false
  else if st ≠ 1 ∧ st ≠ 2 then .bad 0
  else if st = 1 ∧ 252 < field d 4 4 then .bad 4
  else if field d 8 8 ≠ a.toNat then .bad 8
  else if field d 16 8 ≠ b.toNat then .bad 16
  else if st = 2 then .complete
  else .go ((List.range (field d 4 4)).map (entryOf d)).reverse (BitVec.ofNat 64 (field d 24 8)) true

/-- The record's bytes: header, and the stack from the bottom. -/
def recordBytes (p : PairsRun) (status : Nat) (stack : List PairEntry) : List W8 :=
  natLe 4 status ++ natLe 4 stack.length ++ natLe 8 p.a.toNat ++ natLe 8 p.b.toNat ++ natLe 8 p.seq.toNat ++ zeros 32 ++
    stack.reverse.flatMap entryBytes

/-! ### Issue (R201) -/

/-- A descriptor or record that `pairs` names. -/
def pairsReq (x : W64) (n : Nat) : LaneReq := { lane := 0, addr := x, chunks := pagesOf x.toNat n }

/-- Memory that `pairs` reads at issue: the descriptors, and the record, which it will write. -/
def settlePairs (c : Cx) (s : State) (qs : List LaneReq) (ps : List (Lane × Place)) : Except Res State :=
  match settleLanes c s .rd (qs.take 2) (ps.take 2) with
  | .error r => .error r
  | .ok s => settleLanes c s .wr (qs.drop 2) (ps.drop 2) true

/-- Translates both descriptors and the record, in the order of R150. -/
def pairsPlaces (c : Cx) (s : State) (qs : List LaneReq) : Except Res (State × List (Lane × Place)) :=
  match c.waited s with
  | some (w, as) =>
    if w.stage = 0 then match settleFar c s .wr (qs.drop 2) (w.at_.drop 2) (keyed as) with
      | (true, s) => .ok (s, w.at_)
      | (false, s) => .error (.remote s w)
    else match settlePairs c s qs w.at_ with
      | .error r => .error r
      | .ok s => .ok (s, w.at_)
  | none =>
    let bad := qs.filter fun q => q.chunks.any fun x => noncanonical s c.vf x.1
    if !bad.isEmpty then .error (.fault s (faultOver (some c.p.mask) causeNoncanonical 0 (bad.map fun q => (q.lane, q.addr))))
    else
      let (xs, s) := translateReqs s c.vf .rd (qs.take 2)
      let (ys, s) := translateReqs s c.vf .wr (qs.drop 2)
      match firstCause s (some c.p.mask) (xs ++ ys) with
      | some r => .error r
      | none =>
        if anyAway (xs ++ ys) then .ok (s, placesOf (xs ++ ys))
        else match settlePairs c s qs (placesOf (xs ++ ys)) with
          | .error r => .error r
          | .ok s => .ok (s, placesOf (xs ++ ys))

/-- The traversal starts: its record's lines are owned from now on (R204, 12 R284). -/
def startPairs (o : Pairs) (c : Cx) (s : State) (rec_ : Place) (key : Nat) (da db : List W8) (stack : List PairEntry) (seq : W64) (resumed : Bool) : Res :=
  let mine := (asksOf s (.path c.r)).filter fun a => rec_.all.any fun l => (l.1.away.map (·.1)) == some a.2.dest
  let p : PairsRun :=
    { o := o, a := c.p.getS o.a, b := c.p.getS o.b, recAddr := c.p.getS o.d, rec_ := rec_, recAsk := mine.map fun a => (a.2.dest, a.2.of), recKey := key,
      since := s.handle, ta := da, tb := db, stack := stack, seq := seq, resumed := resumed, emitted := false, held := false, words := [],
      stop := none }
  let s := { s with handle := s.handle + 1, asks := s.asks.filter fun a => !mine.contains a }
  match s.group c.r.g with
  | some g => .susp (s.setGroup c.r.g { g with pairs := g.pairs.wr c.r.p (some p) }) (.pairs c.npc)
  | none => .stall

/-- The checks of the descriptors and of the record's header, and what follows. -/
def pairsHeads (o : Pairs) (c : Cx) (s : State) (rec_ : Place) (key : Nat) (da db dr : List W8) : Res :=
  let a := c.p.getS o.a
  let b := c.p.getS o.b
  let bad (off : Nat) : Res := .fault s { FaultInfo.of cDescriptor c.p.mask with detail := BitVec.ofNat 8 off }
  match treeCheck da, treeCheck db with
  | some off, _ => bad off
  | _, some off => bad off
  | none, none =>
    match readHeader dr a b (parseTree da).root (parseTree db).root with
    | .bad off => bad off
    | .complete => .done (putK c o.kp false s)
    | .go stack seq resumed => startPairs o c s rec_ key da db stack seq resumed

def pairsBody (o : Pairs) (c : Cx) (s : State) : Res :=
  let h := c.g.q.rd o.q
  let as := [c.p.getS o.a, c.p.getS o.b, c.p.getS o.d]
  withQueue c s h (rightE h) false fun _ =>
    match as.find? fun x => x &&& 63 != 0 with
    | some x => .fault s (FaultInfo.at cMisaligned c.p.mask x)
    | none =>
      match pairsPlaces c s [pairsReq (c.p.getS o.a) 64, pairsReq (c.p.getS o.b) 64, pairsReq (c.p.getS o.d) 4096] with
      | .error r => r
      | .ok (s, ps) =>
        performAt c s (some c.p.mask) ps (fun i => as.getD i 0) (fun p a => if p.ix = 2 then .claim a p.len else .read a p.len)
          (fun s ans =>
            let ds := readPlaces s (ps.map (·.2)) ans
            pairsHeads o c s (((ps[2]?).map (·.2)).getD (.here [])) (((ps.take 2).map fun p => p.2.all.length).sum) (ds.getD 0 []) (ds.getD 1 []) (ds.getD 2 []))
          true

def execPairs (h : Hdr) (o : Pairs) (s : State) : Out := .next (run (uPairs o) h (pairsBody o) s)

/-! ### One pass (R202) -/

/-- A box, or all of space. -/
inductive Box where
  | all
  | of (lo hi : List W32)

/-- All of space reaches from minus to plus infinity. -/
def Box.lo : Box → List W32
  | .all => [0xFF800000, 0xFF800000, 0xFF800000]
  | .of lo _ => lo

def Box.hi : Box → List W32
  | .all => [0x7F800000, 0x7F800000, 0x7F800000]
  | .of _ hi => hi

def overlaps (x y : Box) : Bool :=
  axes.all fun i => (ext32 (x.lo.getD i 0)).le (ext32 (y.hi.getD i 0)) && (ext32 (y.lo.getD i 0)).le (ext32 (x.hi.getD i 0))

/-- The box of a slot of a node's bytes. -/
def slotBox (d : List W8) (c : Nat) : Box :=
  .of (axes.map fun x => word32 d (24 * c + 4 * x)) (axes.map fun x => word32 d (24 * c + 12 + 4 * x))

/-- Componentwise minimum and maximum; NaN where any is (R202: such a bound does not overlap). -/
def bound3 (mx : Bool) (a b c : W32) : W32 :=
  let pick (x y : W32) : W32 :=
    if (ext32 x).isNan || (ext32 y).isNan then f32nan
    else if (ext32 x).le (ext32 y) == mx then y else x
  pick (pick a b) c

def leafBox (t : Tree) (d : List W8) : Box :=
  if t.boxes then .of (axes.map fun x => word32 d (4 * x)) (axes.map fun x => word32 d (12 + 4 * x))
  else
    let v (i x : Nat) : W32 := word32 d (12 * i + 4 * x)
    .of (axes.map fun x => bound3 false (v 0 x) (v 1 x) (v 2 x)) (axes.map fun x => bound3 true (v 0 x) (v 1 x) (v 2 x))

/-- What a pass came to. -/
inductive Pass where
  | push (es : List PairEntry)
  | emit (a b : Nat)
  | nothing
  | fail (addr : Nat) (x : Xlat)
  | range (ref : W32)
  | away (addr n : Nat)

/-- What the unit reads trees with: its VF, its place among engine operations, and the bytes that other modules have sent for the pass. -/
structure Reader where
  vf : Nat
  since : Nat
  words : List (Nat × List W8)

/-- Reads bytes of a tree, to the first failure with the address of what was read; it waits for lines that engines own (12 R285). -/
def readTree (s : State) (v : Reader) (a n : Nat) : Except Pass (List W8) × State :=
  match v.words.find? fun w => w.1 == a with
  | some w => (.ok w.2, s)
  | none =>
    match seekAll s v.vf .rd (pagesOf a n) with
    | (.error (_, x), s) => (.error (.fail a x), s)
    | (.ok ps, s) =>
      if ps.any fun p => p.1.away.isSome then (.error (.away a n), s)
      else
        let at_ := physPages (pagesOf a n) ps
        match arriveAll s v.vf .rd (some v.since) (at_.map (·.1)) (at_.map (·.2)) with
        | (some x, s) => (.error (.fail a x), s)
        | (none, s) => (.ok (readAll s [] ps), s)

def isLeafRef (r : W32) : Bool := r.getLsbD 31
def refIndex (r : W32) : Nat := r.toNat % 2 ^ 31

def readNode (s : State) (v : Reader) (t : Tree) (r : W32) : Except Pass (List W8) × State :=
  if t.nodes ≤ refIndex r then (.error (.range r), s) else readTree s v (t.node + 128 * refIndex r) 128

def readLeaf (s : State) (v : Reader) (t : Tree) (r : W32) : Except Pass Box × State :=
  if t.leaves ≤ refIndex r then (.error (.range r), s)
  else
    let (x, s) := readTree s v (t.leaf + (if t.boxes then 32 else 48) * refIndex r) (if t.boxes then 24 else 36)
    (match x with | .ok d => .ok (leafBox t d) | .error e => .error e, s)

/-- The box that a source names. -/
def sourceBox (s : State) (v : Reader) (t : Tree) (src : W32) : Except Pass Box × State :=
  if src = noSource then (.ok .all, s)
  else
    let (x, s) := readTree s v (t.node + 128 * (src.toNat / 4)) 128
    (match x with | .ok d => .ok (slotBox d (src.toNat % 4)) | .error e => .error e, s)

/-- The children of a node whose boxes overlap another box, with their sources, slot 3 first. -/
def openNode (d : List W8) (r : W32) (other : Box) : List (W32 × W32) :=
  [3, 2, 1, 0].filterMap fun c =>
    let ref := word32 d (96 + 4 * c)
    if ref ≠ noChild ∧ overlaps (slotBox d c) other then some (ref, (r <<< 2) ||| BitVec.ofNat 32 c) else none

def passOf (s : State) (v : Reader) (ta tb : Tree) (self : Bool) (e : PairEntry) : Pass × State :=
  let (ar, asrc, br, bsrc) := e
  if isLeafRef ar && isLeafRef br then
    match readLeaf s v ta ar with
    | (.error x, s) => (x, s)
    | (.ok ba, s) => match readLeaf s v tb br with
      | (.error x, s) => (x, s)
      | (.ok bb, s) =>
        (if overlaps ba bb && (!self || decide (refIndex ar < refIndex br)) then .emit (refIndex ar) (refIndex br) else .nothing, s)
  else if !isLeafRef ar then
    match readNode s v ta ar with
    | (.error x, s) => (x, s)
    | (.ok d, s) => match sourceBox s v tb bsrc with
      | (.error x, s) => (x, s)
      | (.ok box, s) => (.push ((openNode d ar box).map fun k => (k.1, k.2, br, bsrc)), s)
  else
    match readNode s v tb br with
    | (.error x, s) => (x, s)
    | (.ok d, s) => match sourceBox s v ta asrc with
      | (.error x, s) => (x, s)
      | (.ok box, s) => (.push ((openNode d br box).map fun k => (ar, asrc, k.1, k.2)), s)

/-! ### Stops (R205) -/

def setPairs (s : State) (r : PathRef) (p : Option PairsRun) : State :=
  match s.group r.g with
  | some g => s.setGroup r.g { g with pairs := g.pairs.wr r.p p }
  | none => s

/-- A path takes its place for a slot: the FIFO's tail, or, for a lane run of serial mode, the slot the runs hold (10 R249, R251, log
entry 22). -/
def Group.rejoin (g : Group) (i : BitVec 3) : Group :=
  if g.live i then g
  else
    let run := match g.ser with | some z => z.p == i | none => false
    if run && g.slotA.isNone then { g with slotA := some i }
    else if run && g.slotB.isNone then { g with slotB := some i }
    else g.enqueue i

/-- A suspended path returns: it is ready, and takes its place for a slot (10 R249). -/
def wakePath (s : State) (r : PathRef) (f : Group → Path → Group × Path) : State :=
  match s.path r with
  | some (g, p) =>
    let (g, p) := f g p
    let g := g.setPath r.p { p with st := .ready }
    s.setGroup r.g (g.rejoin r.p)
  | none => s

/-- The traversal is over: K[P], and the path goes on after `pairs`. -/
def endPairs (s : State) (r : PathRef) (k : KReg) (v : Bool) : State :=
  wakePath (setPairs s r none) r fun g p =>
    (g.setK k p.mask (if v then 0xFF else 0), { p.completes g with pc := match p.st with | .susp (.pairs npc) => npc | _ => p.pc })

/-- A cause met while the path was suspended is raised at its instruction; the path takes a place for a slot. -/
def faultSuspended (s : State) (r : PathRef) (f : FaultInfo) : State :=
  match s.path r with
  | none => s
  | some (_, p) =>
    let npc := match p.st with | .susp (.pairs npc) => npc | .susp (.vgrow _ npc) => npc | _ => p.pc
    let s := deliver s r f p.pc npc
    match s.path r with
    | some (g, q) => match q.st with
      | .susp _ => wakePath s r fun g p => (g, p)
      | _ => s.setGroup r.g (g.rejoin r.p)
    | none => s

/-- What writing a record came to: written, waiting, or the end of the context. -/
inductive Written where
  | ok (s : State)
  | wait (s : State)
  | dead (s : State) (c : W8)

/-- The pieces of a record with their parts of its first bytes, by key. -/
def recordParts (p : PairsRun) (d : List W8) : List (Nat × Loc × List W8) :=
  (numbered [p.rec_]).map fun x => (p.recKey + x.key, x.loc, (d.drop x.off).take x.len)

/-- Writes the record's first bytes where it lay when `pairs` issued: here, and at the modules that hold its lines, which answer (R204, 16 R347). -/
def writeRecord (s : State) (r : PathRef) (vf : Nat) (g : Nat) (p : PairsRun) (d : List W8) : Written :=
  let parts := recordParts p d
  let send (s : State) (a : Nat × Nat) : State :=
    ask s (.pairs r) vf g a.1 (.finish a.2 (parts.filterMap fun x => if (x.2.1.away.map (·.1)) = some a.1 then some (x.1, x.2.2) else none)) []
  if !p.recAsk.isEmpty && (asksOf s (.pairs r)).isEmpty then .wait (p.recAsk.foldl send s)
  else if !allAnswered s (.pairs r) then .wait s
  else
    let near := parts.filterMap fun x => match x.2.1 with | .pa a => some (a, x.2.2) | _ => none
    match arriveAll s vf .wr (some p.since) [] (near.map fun x => (x.1, x.2.length)) false true with
    | (some (.dead c), s) => .dead s c
    | (some _, s) => .wait s
    | (none, s) => .ok (dropAsks (near.foldl (fun s x => s.writePa [(x.1, x.2.length)] x.2) s) (.pairs r))

/-- STATUS and stack of the record of a stop: STATUS 1 has the stack as before the pass. -/
def stopBytes (p : PairsRun) (e : PairsEnd) : List W8 :=
  match e with
  | .complete => recordBytes p 2 []
  | _ => recordBytes p 1 p.stack

/-- What follows a stop once the record is written. -/
def afterStop (s : State) (r : PathRef) (k : KReg) (e : PairsEnd) : State :=
  match e with
  | .complete => endPairs s r k false
  | .full => endPairs s r k true
  | .fault f => faultSuspended (setPairs s r none) r f
  | .taken => setPairs s r none

/-- The traversal stops: nothing follows before its record is written (15 R325). -/
def stopsAt (s : State) (r : PathRef) (vf : Nat) (p : PairsRun) (e : PairsEnd) : State :=
  match s.path r with
  | none => s
  | some (g, _) =>
    let p := { p with words := [], stop := some e }
    match writeRecord s r vf g.lin p (stopBytes p e) with
    | .ok s => afterStop s r p.o.kp e
    | .wait s => setPairs s r (some p)
    | .dead s c => endContext s vf c 0

/-- The 32-byte record of a pair (R203). -/
def pairRecord (ta tb : Tree) (p : PairsRun) (a b : Nat) : BitVec 256 :=
  rec32 (natLe 4 a ++ natLe 4 b ++ natLe 2 ta.tag ++ natLe 2 tb.tag ++
    natLe 4 ((if p.a = p.b then 1 else 0) + if p.resumed && !p.emitted then 2 else 0) ++ natLe 8 p.seq.toNat ++ zeros 8)

/-- What other modules have sent for the pass. -/
def fillWords (p : PairsRun) (l : List (Nat × PieceAnswer)) : PairsRun :=
  { p with words := p.words.map fun w => if w.2.isEmpty then (w.1, l.flatMap fun a => match a.2 with | .data d => d | _ => []) else w }

/-- The pieces of a read of a tree, by key. -/
def treePieces (s : State) (vf a n : Nat) : List (Nat × Loc) :=
  let ps := pagesOf a n
  (List.range ps.length).filterMap fun i => (ps[i]?).bind fun p => (whereIs s vf .rd p.1).map fun l => (i, l)

/-- Asks for bytes of a tree at another module. -/
def askTree (s : State) (r : PathRef) (vf g : Nat) (p : PairsRun) (a n : Nat) : State :=
  let s := setPairs s r (some { p with words := p.words ++ [(a, [])] })
  askEach s (.pairs r) vf g (fun _ => .once) (treePieces s vf a n) fun i x => .read x ((pagesOf a n).getD i (0, 0)).2

/-- What a pass that has all it reads leads to. -/
def passEnds (r : PathRef) (s : State) (g : Group) (path : Path) (p : PairsRun) (ta tb : Tree) (rest : List PairEntry) (x : Pass) : State :=
  let vf := s.vfOf g
  let goOn (p : PairsRun) : State := setPairs s r (some { p with words := [] })
  let stop (f : FaultInfo) : State := stopsAt s r vf p (.fault f)
  match x with
  | .nothing => goOn { p with stack := rest }
  | .push es =>
    let stack := es.reverse ++ rest
    if 252 < stack.length then stop { FaultInfo.of cDescriptor path.mask with detail := 0xFF, code := 252 } else goOn { p with stack := stack }
  | .emit a b =>
    (match handleAt s vf (g.q.rd p.o.q) with
     | .here n => match enqueue s n (pairRecord ta tb p a b) with
       | some s => setPairs s r (some { p with stack := rest, seq := p.seq + 1, emitted := true, words := [] })
       | none => stopsAt (queueEvent s n 1 g.lin) r vf p .full
     | _ => stop (FaultInfo.of cQueueHandle path.mask))
  | .range ref => stop { FaultInfo.of cDescriptor path.mask with detail := 0xFE, code := ref }
  | .away a n => askTree s r vf g.lin p a n
  | .fail a (.cause c) => stop (FaultInfo.at c path.mask (BitVec.ofNat 64 a))
  | .fail a (.remoteCause c) => stop { FaultInfo.at cRemote path.mask (BitVec.ofNat 64 a) with sub := c }
  | .fail _ (.wait _ _) => setPairs s r (some { p with held := true })
  | .fail _ (.dead c) => endContext s vf c 0
  | .fail _ _ => s

/-- One pass of the loop for the path of `r`; a stop whose record is not yet written is tried again. -/
def passStep (r : PathRef) (s : State) : State :=
  match s.path r with
  | none => s
  | some (g, path) =>
    match g.pairs.rd r.p with
    | none => s
    | some p =>
      let vf := s.vfOf g
      match p.stop, p.stack with
      | some e, _ => stopsAt s r vf p e
      | none, [] => stopsAt s r vf p .complete
      | none, e :: rest =>
        if !allAnswered s (.pairs r) then s
        else
          let l := keyed (answersOf s (.pairs r))
          let p := fillWords p l
          let s := setPairs (dropAsks s (.pairs r)) r (some p)
          let ta := parseTree p.ta
          let tb := parseTree p.tb
          match l.findSome? fun a => match a with | (_, .cause c) => some c | _ => none with
          | some c => passEnds r s g path p ta tb rest (.fail (((p.words.getLast?).map (·.1)).getD 0) (.remoteCause c))
          | none =>
            let (x, s) := passOf s { vf := vf, since := p.since, words := p.words } ta tb (p.a == p.b) e
            passEnds r s g path p ta tb rest x

/-- PAIRS_STOP: a pre-emption, halt or stop takes the traversal between two passes; the path is before its `pairs` (R205). -/
def stopPairs (s : State) (r : PathRef) : State :=
  match s.path r with
  | some (g, _) => match g.pairs.rd r.p with
    | some p => if p.stop.isSome then passStep r s else stopsAt (cancelAsks s (.pairs r)) r (s.vfOf g) p .taken
    | none => s
  | none => s

/-- A path that a `halt` has asked to hold is held once its traversal has stopped (08 R233). -/
def holdStopped (r : PathRef) (s : State) : State :=
  match s.path r with
  | some (g, p) => if p.hold && (g.pairs.rd r.p).isNone then holdPath s r else s
  | none => s

def execPairsStop (r : PathRef) (s : State) : Out := .next (holdStopped r (stopPairs s r))

end Sys2Proof.Machine
end

