-- ==== Sys2Proof/Machine/Launch.lean ====
section
/-! DEFINITION. `launch` and `lwait` (07 R214-R216, 16 R339-R341). -/

namespace Sys2Proof.Machine

def cRefused : W8 := 0x22

/-- The priority a child grid takes (16 R344). -/
def prioOf (s : State) (g : Group) : Nat := match s.gridOf g with | some d => d.prio | none => 0

/-- The lanes in ascending order, each accepted or refused: its identifier. -/
def launchLanes (c : Cx) : List (Lane × W64 × List W8) → State → List (Lane × Option W32) × State
  | [], s => ([], s)
  | (l, a, d) :: rest, s =>
    let pd := match s.gridOf c.g with | some x => x.paddock | none => 0
    let rec_ := parseLaunch d
    match admitLaunch s c.vf pd rec_ true with
    | (.ok k, s) =>
      let (id, _, s) := makeGrid s c.vf pd rec_ k a c.g.q (.child (prioOf s c.g)) (prioOf s c.g)
      let (xs, s) := launchLanes c rest s
      ((l, some id) :: xs, s)
    | (_, s) =>
      let (xs, s) := launchLanes c rest s
      ((l, none) :: xs, s)

/-- Whether every kernel record that the lanes name can be read now, before any lane launches. -/
def recordsReady (c : Cx) : List (List W8) → State → Dev Unit × State
  | [], s => (.ok (), s)
  | d :: rest, s =>
    match admitLaunch s c.vf (match s.gridOf c.g with | some x => x.paddock | none => 0) (parseLaunch d) true with
    | (.wait, s) => (.wait, s)
    | (.dead x, s) => (.dead x, s)
    | (_, s) => recordsReady c rest s

def launchBody (o : Launch) (c : Cx) (s : State) : Res :=
  let qs := c.em.lanes.map fun l => (l, c.g.pair o.a l)
  readMany c s 256 64 qs fun s ds => match recordsReady c ds s with
  | (.wait, s) => .again s
  | (.dead x, s) => .stop s x
  | (_, t) =>
    let (xs, s) := launchLanes c ((qs.zip ds).map fun p => (p.1.1, p.1.2, p.2)) { t with uses := s.uses }
    let id (l : Lane) : Option W32 := (xs.find? fun x => x.1 == l).bind (·.2)
    let v : Lanes W32 := Bank.gen fun l => (id l).getD 0xFFFFFFFF
    let refused := Mask.of fun l => (id l).isNone
    match s.group c.r.g with
    | some g => .done (land c (s.setGroup c.r.g (g.setK o.kp c.em refused)) c.em [(o.d, v)])
    | none => .done s

def execLaunch (h : Hdr) (o : Launch) (s : State) : Out := .next (run (uLaunch o) h (launchBody o) s)

/-! ### lwait -/

/-- Whether a grid is a child. -/
def Grid.isChild (d : Grid) : Bool := match d.origin with | .child _ => true | _ => false

/-- How a grid named by a lane ended; none while it runs. -/
def childEnd (s : State) (vf : Nat) (id : W32) : Option W8 :=
  if id = 0xFFFFFFFF then some cRefused
  else if s.grids.any fun e => e.2.vf == vf && e.2.gridid == id && e.2.isChild then none
  else match (s.vf vf).endedKids.find? fun k => k.1 == id with
    | some k => some k.2
    | none => some cRefused

/-- The result of every lane of a mask; none while one still runs. -/
def childEnds (s : State) (vf : Nat) (m : Mask) (ids : Lanes W32) : Option (Lanes W32) :=
  if m.lanes.all fun l => (childEnd s vf (ids.rd l)).isSome then
    some (Bank.gen fun l => ((childEnd s vf (ids.rd l)).getD 0).setWidth 32)
  else none

/-- The grids that a suspended `lwait` waits for: a lane that names no child of the VF at issue has its 0x22 from then on (R216). -/
def fixedIds (s : State) (vf : Nat) (ids : Lanes W32) : Lanes W32 :=
  Bank.gen fun l => if childEnd s vf (ids.rd l) = some cRefused then 0xFFFFFFFF else ids.rd l

def lwaitBody (o : LWait) (c : Cx) (s : State) : Res :=
  let ids := c.g.seen o.a
  match childEnds s c.vf c.em ids with
  | some v => .done (land c s c.em [(o.d, v)])
  | none => .susp s (.lwait o.d c.em (fixedIds s c.vf ids) c.npc)

def execLwait (h : Hdr) (o : LWait) (s : State) : Out := .next (run (uLWait o) h (lwaitBody o) s)

/-- LWAIT_WAKE: the last of the grids has ended. -/
def execLwaitWake (r : PathRef) (s : State) : Out :=
  match s.path r with
  | some (g, p) =>
    match p.st with
    | .susp (.lwait d m ids npc) =>
      match childEnds s (s.vfOf g) m ids with
      | some v => .next (wakePath s r fun g p =>
          (if p.keeps d then g.setV d m v else g, { p.completes g with pc := npc }))
      | none => .next s
    | _ => .next s
  | none => .next s

end Sys2Proof.Machine
end

