-- ==== Sys2Proof/Machine/Frames.lean ====
section
/-! DEFINITION. Frames: the budget, what `pgmap` maps, eviction, ages and migration (08 R231, 14 R314-R318). -/

namespace Sys2Proof.Machine

def allVfs (s : State) : List Nat := s.vfs.map (·.1)

/-- A range of physical memory becomes zero. -/
def zeroFrame (s : State) (a n : Nat) : State :=
  if paClass a = 1 then sendPieces s [(a, n)] (zeros n)
  else let s := markMigrating (s.stored [(a, n)]) [(a, n)]; { s with mem := s.mem.clear a n }

/-- Reads and writes a page-table entry. -/
def readEntryAt (s : State) (pa : Nat) : Nat := leNat (s.readPa pa 8)
def writeEntry (s : State) (pa e : Nat) : State := s.writePa [(pa, 8)] (natLe 8 e)

/-- Whether ranges overlap. -/
def meets (a n b m : Nat) : Bool := decide (a < b + m) && decide (b < a + n)

/-! ### Taking frames (R315) -/

/-- Frames taken for one request: what the store has left, how many, and whether it fell short. -/
structure Alloc where
  store : List Nat
  taken : Nat
  short : Bool
  deriving DecidableEq, Repr

/-- Bases of the aligned runs of `n` frames that a store holds. -/
def runs (store : List Nat) (n : Nat) : List Nat :=
  if n = 1 then store
  else store.filter fun b => b % (4096 * n) == 0 && (List.range n).all fun i => store.contains (b + 4096 * i)

/-- Takes a run; which of several is free (log entry 9). -/
def Alloc.take (a : Alloc) (seed n : Nat) : Nat × Alloc :=
  match runs a.store n with
  | [] => (0, { a with taken := a.taken + n, short := true })
  | b :: rest =>
    let f := if rest.isEmpty then b else (b :: rest).getD (Config.frame (seed + a.taken) % (rest.length + 1)) b
    (f, { a with store := a.store.filter fun x => x < f || f + 4096 * n ≤ x, taken := a.taken + n })

/-! ### Placing leaves (R314) -/

def entV : Nat := 1
def entT : Nat := 2

/-- The entries of a leaf: one, or the sixteen of a 64 KiB page, each holding the leaf. -/
def writeLeaf (s : State) (at_ e : Nat) (six : Bool) : State :=
  if six then (List.range 16).foldl (fun s i => writeEntry s (at_ + 8 * i) e) s else writeEntry s at_ e

/-- Places a stage-2 leaf at a level, creating the tables it needs. -/
def placeS2 (target ipa leaf : Nat) (six : Bool) (seed : Nat) : Nat → Nat → State × Alloc → State × Alloc
  | 0, _, x => x
  | level + 1, table, (s, a) =>
    let at_ := table + 8 * (ipa / 2 ^ (12 + 9 * level) % 512)
    if level = target then (writeLeaf s at_ leaf six, a)
    else
      let e := readEntryAt s at_
      if nbit e 0 then placeS2 target ipa leaf six seed level (nbits e 51 12 * 4096) (s, a)
      else
        let (f, a) := a.take seed 1
        placeS2 target ipa leaf six seed level f (writeEntry (zeroFrame s f 4096) at_ (f + entT + entV), a)

def inPools (s : State) (pd ipa : Nat) : Bool :=
  s.vfs.any fun e => e.2.paddock.toNat == pd && (List.range 8).any fun i => match e.2.pools.rd (BitVec.ofNat 3 i) with
    | some p => p.ipa ≤ ipa && decide (ipa < p.ipa + p.len)
    | none => false

/-- An IPA for a new stage-1 table: the manual names none, and the model takes a free one that stage 2 does not map (log entry 9). -/
def freeIpa (s : State) (pd seed : Nat) : Nat :=
  let base := (Config.value64 seed).toNat % 2 ^ 40 * 4096
  let ok (a : Nat) : Bool := !inPools s pd a && match stage2 s pd a with | .error (.bad c) => c == causeNotPresent | _ => false
  (((List.range 65536).map fun i => (base + 4096 * i) % 2 ^ 52).find? ok).getD base

/-- Places a stage-1 leaf, creating the tables it needs; the caller has walked the same route. -/
def placeS1 (vf target va leaf : Nat) (six : Bool) (seed : Nat) : Nat → Nat → State × Alloc → State × Alloc
  | 0, _, x => x
  | level + 1, table, (s, a) =>
    let pd := (s.vf vf).paddock.toNat
    match stage2 s pd table with
    | .error _ => (s, a)
    | .ok l =>
      let at_ := homePa s (l.base + table % l.size) + 8 * (va / 2 ^ (12 + 9 * level) % 512)
      if level = target then (writeLeaf s at_ leaf six, a)
      else
        let e := readEntryAt s at_
        if nbit e 0 then placeS1 vf target va leaf six seed level (nbits e 51 12 * 4096) (s, a)
        else
          let (f, a) := a.take seed 1
          let s := zeroFrame s f 4096
          let ipa := freeIpa s pd (seed + a.taken)
          let (s, a) := placeS2 0 ipa (f + 0xC + entV) false seed 5 (s.pad pd).s2root.toNat (s, a)
          placeS1 vf target va leaf six seed level ipa (writeEntry s at_ (ipa + entT + entV), a)

/-! ### The page of a `pgmap` -/

def pageBytes : PSize → Nat
  | .p4k => 4096 | .p64k => 65536 | .p2m => 2 ^ 21 | .p1g => 2 ^ 30
def pageLevel : PSize → Nat
  | .p4k | .p64k => 0 | .p2m => 1 | .p1g => 2

/-- Whether the page's range is occupied in stage 1 (R231). -/
def occupied (s : State) (vf target va : Nat) (six : Bool) : Nat → Nat → Except WalkErr Bool
  | 0, _ => .ok false
  | level + 1, table => do
    let at_ := some (vf, va / 4096)
    let (_, pa) ← stage2Pa s (s.vf vf).paddock.toNat table at_
    let ix := va / 2 ^ (12 + 9 * level) % 512
    let e ← readEntry s false (pa + 8 * ix) at_
    if level = target then
      if six then (List.range 16).foldlM (fun b i => do
        let e ← readEntry s false (pa + 8 * (ix - ix % 16 + i)) at_
        .ok (b || nbit e 0)) false
      else .ok (nbit e 0)
    else
      if !nbit e 0 then .ok false
      else if nbit e 1 then occupied s vf target va six level (nbits e 51 12 * 4096)
      else .ok true

/-- Maps or zeroes the 4 KiB pieces of a range one by one, where stage 2 maps part of it. -/
def fillPieces (pd seed : Nat) : List Nat → State × Alloc → State × Alloc
  | [], x => x
  | ipa :: rest, (s, a) =>
    match stage2 s pd ipa with
    | .ok l => fillPieces pd seed rest (zeroFrame s (homePa s (l.base + ipa % l.size)) 4096, a)
    | .error _ =>
      let (f, a) := a.take seed 1
      fillPieces pd seed rest (placeS2 0 ipa (f + 0xC + entV) false seed 5 (s.pad pd).s2root.toNat (zeroFrame s f 4096, a))

/-- Whether a table stands at stage 2 where a leaf of a level would go. -/
def tableAt (s : State) (target ipa : Nat) : Nat → Nat → Bool
  | 0, _ => false
  | level + 1, table =>
    let e := readEntryAt s (table + 8 * (ipa / 2 ^ (12 + 9 * level) % 512))
    if !nbit e 0 then false
    else if level = target then nbit e 1
    else tableAt s target ipa level (nbits e 51 12 * 4096)

/-- The frames behind an IPA range: zero-filled, taken where stage 2 maps nothing there. -/
def backPage (s : State) (pd ipa : Nat) (z : PSize) (seed : Nat) (a : Alloc) : State × Alloc :=
  let n := pageBytes z
  let root := (s.pad pd).s2root.toNat
  let byPieces : State × Alloc := fillPieces pd seed ((List.range (n / 4096)).map fun i => ipa + 4096 * i) (s, a)
  match stage2 s pd ipa with
  | .ok l => if n ≤ l.size then (zeroFrame s (homePa s (l.base + ipa % l.size)) n, a) else byPieces
  | .error _ =>
    if tableAt s (pageLevel z) ipa 5 root then byPieces
    else
      let (f, a) := a.take seed (n / 4096)
      placeS2 (pageLevel z) ipa (f + 0xC + entV + if z = .p64k then 16 else 0) (z == .p64k) seed 5 root (zeroFrame s f n, a)

/-! ### Leaves, and the frames that a VF holds (R315, R316) -/

/-- Indices of the entries of a table that may be other than zero: those of which a byte is listed. -/
def usedEntries (m : Memory) (table : Nat) : List Nat :=
  ((m.filter fun c => decide (table ≤ c.1) && decide (c.1 < table + 4096)).map fun c => (c.1 - table) / 8).eraseDups

/-- The same of a table wherever it lies; nothing is known of one at another module. -/
def tableEntries (s : State) (pa : Nat) : List Nat := if paClass pa = 1 then List.range 512 else usedEntries s.mem pa

/-- Every stage-2 leaf below a table, with its IPA; of a 64 KiB page, the head. -/
def leavesOf (m : Memory) : Nat → Nat → Nat → List (Nat × PLeaf)
  | 0, _, _ => []
  | level + 1, table, base =>
    (usedEntries m table).flatMap fun ix =>
      let at_ := table + 8 * ix
      let e := m.le at_ 8
      let ipa := base + ix * 2 ^ (12 + 9 * level)
      if !nbit e 0 then []
      else if nbit e 1 then leavesOf m level (nbits e 51 12 * 4096) ipa
      else if level = 0 ∧ nbit e 4 ∧ ix % 16 ≠ 0 then []
      else [(ipa, { entry := at_, base := nbits e 51 12 * 4096, size := leafSize level (nbit e 4 && level == 0), w := nbit e 2, x := nbit e 3,
                    ms := nbits e 10 9 })]

/-- The leaves of a Paddock that name its own LPDDR. -/
def localLeaves (s : State) (pd : Nat) : List (Nat × PLeaf) :=
  (leavesOf s.mem 5 (s.pad pd).s2root.toNat 0).filter fun l => paClass l.2.base == 0

/-- The tables of a VF's stage 1, by IPA, and its leaves, by IPA and size. -/
def stage1Tree (s : State) (pd : Nat) : Nat → Nat → List Nat × List (Nat × Nat)
  | 0, _ => ([], [])
  | level + 1, table =>
    match stage2 s pd table with
    | .error _ => ([table], [])
    | .ok l =>
      let pa := homePa s (l.base + table % l.size)
      (tableEntries s pa).foldl (fun (x : List Nat × List (Nat × Nat)) ix =>
        let e := readEntryAt s (pa + 8 * ix)
        if !nbit e 0 then x
        else if nbit e 1 then
          let y := stage1Tree s pd level (nbits e 51 12 * 4096)
          (x.1 ++ y.1, x.2 ++ y.2)
        else if level = 0 ∧ nbit e 4 ∧ ix % 16 ≠ 0 then x
        else (x.1, x.2 ++ [(nbits e 51 12 * 4096, leafSize level (nbit e 4 && level == 0))])) ([table], [])

def vfTree (s : State) (vf : Nat) : List Nat × List (Nat × Nat) := stage1Tree s (s.vf vf).paddock.toNat 5 (s.vf vf).s1root.toNat

/-- Whether a frame lies in a read-only shared set, during the fill or after it (20 R413). -/
def setMember (s : State) (pa : Nat) : Bool := s.sets.any fun e => e.2.regions.contains (regionOf pa)

/-- Device-local frames that the driver has mapped to a VF itself: those behind its stage-1 leaves that the device has not taken for it, and
that are in no shared set (08 R236, 20 R413). -/
def driverFrames (s : State) (vf : Nat) : Nat :=
  let v := s.vf vf
  let ls := (vfTree s vf).2
  ((localLeaves s v.paddock.toNat).map fun l =>
    if (s.region (regionOf l.2.base)).shared || setMember s l.2.base then 0
    else
      let ls := ls.filter fun x => meets x.1 x.2 l.1 l.2.size
      if ls.isEmpty then 0
      else ((List.range (l.2.size / 4096)).filter fun i =>
        !v.frames.contains (l.2.base + 4096 * i) && ls.any fun x => meets x.1 x.2 (l.1 + 4096 * i) 4096).length).sum

/-- HELD: the frames that the device has taken for a VF, and those that the driver has mapped to it (R315, 08 R236, log entry 9). -/
def heldNow (s : State) (vf : Nat) : Nat := (s.vf vf).held + driverFrames s vf

/-- The frames that stage 2 maps in an IPA range. -/
def stage2Frames (s : State) (pd ipa n : Nat) : List Nat :=
  (List.range (n / 4096)).filterMap fun i => match stage2 s pd (ipa + 4096 * i) with
    | .ok l => some (homePa s (l.base + (ipa + 4096 * i) % l.size))
    | .error _ => none

/-- What a `pgmap` comes to. -/
inductive PgOut where
  | status (n : Nat)
  | walk (ipa : Nat) (c : W8)
  | busy
  | away (pa : Nat)
  | dead (stage2 : Bool) (pa : Nat)
  | empty (reason : Nat)
  | evict
  | mapped (s : State)

/-- The pool-backed range that holds an address. -/
def poolOf (v : Vf) (va : Nat) : Option Pool :=
  (List.range 8).findSome? fun i => match v.pools.rd (BitVec.ofNat 3 i) with
    | some p => if p.vbase ≤ va ∧ va < p.vbase + p.len then some p else none
    | none => none

def PgOut.ofErr : WalkErr → PgOut
  | .bad c => .walk 0 c
  | .host ipa c => .walk ipa c
  | .ecc st pa => .dead st pa
  | .busy => .busy
  | .away pa => .away pa

/-- R231, R314, R315. -/
def pgmapTry (s : State) (vf : Nat) (z : PSize) (va perm : Nat) : PgOut :=
  let v := s.vf vf
  let pd := v.paddock.toNat
  let n := pageBytes z
  match poolOf v va with
  | none => .status 2
  | some p =>
    let ipa := p.ipa + (va - p.vbase)
    if noncanonical s vf va || va % n != 0 || ipa % n != 0 then .status 2
    else if 4 ≤ perm then .status 3
    else match occupied s vf (pageLevel z) va (z == .p64k) 5 v.s1root.toNat with
      | .error e => .ofErr e
      | .ok true => .status 1
      | .ok false =>
        let held := owned s none ((stage2Frames s pd ipa n).map fun a => (a, 4096))
        match stage2 s pd ipa (some (vf, va / 4096)) with
        | .error (.bad c) => if c != causeNotPresent then .walk ipa c else if held then .busy else go s v pd n ipa
        | .error e => .ofErr e
        | .ok l => if l.ms = 2 || held then .busy else go s v pd n ipa
where
  go (s : State) (v : Vf) (pd n ipa : Nat) : PgOut :=
    match v.starved with
    | some r => .empty r
    | none =>
      let six := z == .p64k
      let a0 : Alloc := { store := (s.pad pd).store, taken := 0, short := false }
      let (s', a) := backPage s pd ipa z s.free a0
      let leaf := ipa + entV + (if nbit perm 0 then 4 else 0) + (if nbit perm 1 then 8 else 0) + if six then 16 else 0
      let (s', a) := placeS1 vf (pageLevel z) va leaf six s.free 5 v.s1root.toNat (s', a)
      if v.burst < heldNow s vf + a.taken then .empty 1
      else if !a.short then
        let s' := s'.setPad pd fun p => { p with store := a.store }
        let took := a0.store.filter fun f => !a.store.contains f
        let s' := s'.dropTlb fun c => c.vf == vf && meets c.va c.size va n
        .mapped { s'.setVf vf fun v => { v with held := v.held + a.taken, frames := v.frames ++ took } with free := s.free + a.taken + n / 4096 }
      else if heldNow s vf + a.taken ≤ v.guar then .evict
      else .empty 3

/-! ### Ages and victims (R316) -/

def ageOf (p : Paddock) (frame : Nat) : Nat := (KMap.get p.ages frame).getD 0

/-- The first aligned run of host frames of a page's size in a VF's backing list; a page for which it has none is no candidate: DESIGN CHOICE, R316
names neither (log entry 50). -/
def backingRun (v : Vf) (n : Nat) : Option Nat := (runs v.backing n).head?

/-- Whether an IPA lies in a VF's pool-backed ranges. -/
def inPool (v : Vf) (ipa : Nat) : Bool := (List.range 8).any fun i => match v.pools.rd (BitVec.ofNat 3 i) with
  | some p => p.ipa ≤ ipa && decide (ipa < p.ipa + p.len)
  | none => false

/-- The VF that a leaf belongs to: the one in whose pool-backed ranges its IPA lies, or the first whose stage 1 maps it (log entry 9). -/
def leafVf (s : State) (pd ipa size : Nat) (trees : List (Nat × List Nat × List (Nat × Nat))) : Option Nat :=
  match s.vfs.find? fun e => e.2.paddock.toNat == pd && e.2.active && inPool e.2 ipa with
  | some e => some e.1
  | none => (trees.find? fun t => t.2.2.any fun x => meets x.1 x.2 ipa size).map (·.1)

/-- The tables of stage 2, by address. -/
def stage2Tables (m : Memory) : Nat → Nat → List Nat
  | 0, _ => []
  | level + 1, table =>
    table :: (usedEntries m table).flatMap fun ix =>
      let e := m.le (table + 8 * ix) 8
      if nbit e 0 && nbit e 1 then stage2Tables m level (nbits e 51 12 * 4096) else []

/-- Whether a page of stage 2 holds a table of either stage (R316). -/
def holdsTable (s : State) (pd : Nat) (trees : List (Nat × List Nat × List (Nat × Nat))) (l : Nat × PLeaf) : Bool :=
  (trees.any fun t => t.2.1.any fun x => meets x 4096 l.1 l.2.size) ||
    (stage2Tables s.mem 5 (s.pad pd).s2root.toNat).any fun x => meets x 4096 l.2.base l.2.size

/-- A candidate: VF, IPA, leaf and host frame. -/
structure Victim where
  vf : Nat
  ipa : Nat
  leaf : PLeaf
  dst : Nat
  age : Nat
  excess : Nat
  deriving DecidableEq, Repr

def victims (s : State) (pd : Nat) : List Victim :=
  let trees := (vfsOf s pd).map fun v => (v, vfTree s v)
  let held := (vfsOf s pd).map fun v => (v, heldNow s v)
  (localLeaves s pd).filterMap fun l =>
    match leafVf s pd l.1 l.2.size trees with
    | none => none
    | some vf =>
      let v := s.vf vf
      let n := l.2.size / 4096
      let excess := (KMap.get held vf).getD 0 - v.guar
      if (l.2.size = 4096 ∨ l.2.size = 65536) ∧ l.2.ms = 0 ∧ !(s.region (regionOf l.2.base)).shared ∧ !setMember s l.2.base ∧
          !holdsTable s pd trees l ∧ !owned s none [(l.2.entry, 8)] ∧ n ≤ excess then
        (backingRun v n).map fun dst => { vf := vf, ipa := l.1, leaf := l.2, dst := dst, age := ageOf (s.pad pd) l.2.base, excess := excess }
      else none

/-- Whether a victim ranks before another. -/
def Victim.before (a b : Victim) : Bool :=
  if a.age ≠ b.age then decide (b.age < a.age)
  else if a.excess ≠ b.excess then decide (b.excess < a.excess)
  else if a.vf ≠ b.vf then decide (a.vf < b.vf)
  else decide (a.ipa < b.ipa)

def bestVictim : List Victim → Option Victim
  | [] => none
  | v :: rest => some (rest.foldl (fun a b => if b.before a then b else a) v)

/-- AGE_SAMPLE. -/
def sampleLeaf (pd : Nat) (s : State) (l : Nat × PLeaf) : State :=
  let e := s.mem.le l.2.entry 8
  let old := ageOf (s.pad pd) l.2.base
  let age := if nbit e 5 then 0 else min (old + 1) 255
  let s := (clearEntry s l.2.entry 5).setPad pd fun p => { p with ages := KMap.put p.ages l.2.base age }
  s.dropTlb fun c => l.2.base ≤ c.pa && decide (c.pa < l.2.base + l.2.size)

/-- A sampling whose entries an engine operation owns waits for it (12 R285). -/
def execAgeSample (pd : Nat) (s : State) : Out :=
  let ls := localLeaves s pd
  if owned s none (ls.map fun l => (l.2.entry, 8)) then .next s
  else
    let s := ls.foldl (sampleLeaf pd) s
    .next (s.setPad pd fun p => { p with sampled := s.bell.toNat })

/-! ### Migration (R317, R318) -/

/-- Copies lines between frames. -/
def copyLines (src dst : Nat) (s : State) : List Nat → State
  | [] => s
  | l :: rest => copyLines src dst { s with mem := s.mem.write (dst + 128 * l) (s.mem.read (src + 128 * l) 128) } rest

/-- Sets MS of a leaf. -/
def setMs (s : State) (entry ms : Nat) : State :=
  s.writePa [(entry + 1, 1)] [(s.mem.get (entry + 1) &&& 0xF9) ||| BitVec.ofNat 8 (2 * ms)]

/-- Whether either side of a migration is the memory of another module. -/
def Migration.away (m : Migration) : Bool := paClass m.src == 1 || paClass m.dst == 1

/-- A page enters COPYING: its lines are copied, and what writes reach them is marked (R318). A page that another module holds, or will, is
copied by requests when it commits. -/
def startMigration (s : State) (vf pd ipa : Nat) (l : PLeaf) (dst : Nat) (driver : Option FwHdr) : State :=
  let m : Migration := { vf := vf, paddock := pd, ipa := ipa, size := l.size, leaf := l.entry, src := homePa s l.base, dst := homePa s dst,
                         copied := 0, marked := [], phase := .copying, driver := driver }
  let s := setMs s l.entry 1
  let s := if m.away then s else copyLines m.src m.dst s (List.range (l.size / 128))
  let m := if m.away then m else { m with copied := l.size / 128 }
  { s with migrations := s.migrations.put s.handle m, handle := s.handle + 1 }

/-- Starts the eviction of the best victim, if there is one. -/
def evict (s : State) (pd : Nat) : Option State :=
  (bestVictim (victims s pd)).map fun v =>
    let n := v.leaf.size / 4096
    let s := s.setVf v.vf fun f => { f with backing := f.backing.filter fun x => x < v.dst || v.dst + 4096 * n ≤ x }
    startMigration s v.vf pd v.ipa v.leaf v.dst none

def evicting (s : State) (pd : Nat) : Bool := s.migrations.any fun e => e.2.paddock == pd && e.2.driver.isNone

/-- The frames of a page. -/
def framesOf (a size : Nat) : List Nat := (List.range (size / 4096)).map fun i => a + 4096 * i

/-- A frame goes to the Paddock's store, or to the VF's backing list (R318); another module's frame is neither's. -/
def freeFrames (s : State) (m : Migration) : State :=
  match paClass m.src with
  | 0 => s.setPad m.paddock fun p => { p with store := p.store ++ framesOf m.src m.size, ages := KMap.del p.ages m.src }
  | 2 => s.setVf m.vf fun v => { v with backing := v.backing ++ framesOf m.src m.size }
  | _ => s

/-- The leaf takes the destination, and MS 00; of a 64 KiB page the head is the leaf (R304, R317). -/
def moveLeaf (s : State) (m : Migration) : State :=
  let e := readEntryAt s m.leaf
  writeEntry s m.leaf (e - nbits e 51 12 * 4096 - nbits e 10 9 * 512 + m.dst)

/-- HELD follows the frames that the device has taken (R315, R316). -/
def heldAfter (m : Migration) (v : Vf) : Vf :=
  let n := m.size / 4096
  let old := framesOf m.src m.size
  let v := { v with held := v.held - (v.frames.filter fun f => old.contains f).length, frames := v.frames.filter fun f => !old.contains f }
  if paClass m.dst = 0 then { v with held := v.held + n, frames := v.frames ++ framesOf m.dst m.size } else v

def cPoolEmpty : W8 := 0x17

/-! ### Accesses that hold a translation -/

/-- The physical number of a location, here, at the host or at another module. -/
def Loc.phys (l : Loc) : Option Nat :=
  match l with
  | .pa a | .far _ a => some a
  | _ => none

/-- Pieces that accesses under way in a group hold: rows, tiles, and what paths wait to perform. -/
def Group.holds (g : Group) : List (Loc × Nat) :=
  (g.ops.flatMap fun o => match o.kind with
    | .mst rows _ _ | .mld rows _ _ => rows.flatMap Place.all
    | .far at_ _ _ _ _ => at_.flatMap fun x => x.2.all
    | .mma _ _ => []) ++
    (allD.flatMap fun d => match (g.copies.rd d).tile with
      | some t => t.elems.flatMap fun e => match e.place with | some p => p.all | none => []
      | none => []) ++
    allPaths.flatMap fun i => (match g.paths.rd i with
      | some p => match p.st with
        | .remote w => w.at_.flatMap fun x => x.2.all
        | _ => []
      | none => []) ++ match g.pairs.rd i with | some p => p.rec_.all | none => []

/-- Pieces that requests of other modules hold here. -/
def Held.holds (h : Held) : List (Loc × Nat) :=
  (h.ops.filter fun o => !o.2.1.isLine).flatMap fun o => o.2.2

/-- Whether an access under way for some VFs holds a piece that a test names. -/
def holding (s : State) (vfs : Nat → Bool) (f : Loc → Bool) : Bool :=
  (s.groups.any fun e => vfs (s.vfOf e.2) && e.2.holds.any fun p => f p.1) || s.held.any fun h => vfs h.vf && h.holds.any fun p => f p.1

/-- Whether a location is physical memory, of this module, the host or another, through the tables here. -/
def Loc.isPhys (l : Loc) : Bool := l.phys.isSome

/-- A location in a page that has moved. -/
def Loc.moved (l : Loc) (m : Migration) : Loc :=
  match l with
  | .pa a => if m.src ≤ a ∧ a < m.src + m.size then .pa (m.dst + (a - m.src)) else .pa a
  | l => l

def Place.moved (p : Place) (m : Migration) : Place :=
  match p with
  | .here l => .here (l.map fun x => (x.1.moved m, x.2))
  | .remote l => .remote (l.map fun x => (x.1.moved m, x.2))

def EngOp.moved (m : Migration) (o : EngOp) : EngOp :=
  { o with kind := match o.kind with
      | .mst rows t b => .mst (rows.map fun p => p.moved m) t b
      | .mld rows t b => .mld (rows.map fun p => p.moved m) t b
      | .far at_ rs d z sx => .far (at_.map fun x => (x.1, x.2.moved m)) rs d z sx
      | k => k }

def Copy.moved (m : Migration) (c : Copy) : Copy :=
  { c with tile := c.tile.map fun t => { t with elems := t.elems.map fun e => { e with place := e.place.map fun p => p.moved m } },
           lines := c.lines.map fun l => (l.1, (match (Loc.pa l.2.1).moved m with | .pa a => a | _ => l.2.1), l.2.2) }

def Path.moved (m : Migration) (p : Path) : Path :=
  { p with st := match p.st with
      | .remote w => .remote { w with at_ := w.at_.map fun x => (x.1, x.2.moved m) }
      | x => x }

def Group.moved (m : Migration) (g : Group) : Group :=
  { g with ops := g.ops.map (EngOp.moved m), copies := Bank.gen fun d => (g.copies.rd d).moved m,
           paths := Bank.gen fun i => (g.paths.rd i).map (Path.moved m),
           pairs := Bank.gen fun i => (g.pairs.rd i).map fun p => { p with rec_ := p.rec_.moved m } }

def Held.moved (m : Migration) (h : Held) : Held :=
  { h with ops := h.ops.map fun o => (o.1, o.2.1, o.2.2.map fun x => (x.1.moved m, x.2)), freed := h.freed.map fun x => (x.1.moved m, x.2) }

/-- Accesses under way go to the destination: the page is the same bytes throughout (12 R283). -/
def relocate (s : State) (m : Migration) : State :=
  { s with groups := s.groups.map fun e : Nat × Group => (e.1, e.2.moved m), held := s.held.map (Held.moved m) }

/-! ### The commit -/

/-- The page is where it goes: its leaf, its frame, HELD, and, for the driver's, event kind 3 (R318). -/
def finishMigration (s : State) (id : Nat) (m : Migration) : State :=
  let s := moveLeaf s m
  let s := s.dropTlb fun c => m.src ≤ c.pa && decide (c.pa < m.src + m.size)
  let s := relocate s m
  let s := freeFrames s m
  let s := s.setVf m.vf (heldAfter m)
  let s := dropAsks { s with migrations := s.migrations.del id } (.migr id)
  match m.driver with
  | some c => migrateDone (postEvent s m.paddock 3 0 m.vf 0 m.ipa) c
  | none => s

def setPhase (s : State) (id : Nat) (p : MigPhase) : State :=
  match s.migrations.get id with
  | some m => { s with migrations := s.migrations.put id { m with phase := p } }
  | none => s

/-- Parts of the page go to a destination at another module, with their offsets; what writes reach them from then on is marked. -/
def sendParts (s : State) (id : Nat) (m : Migration) (l : List (Nat × List W8)) : State :=
  ask { s with migrations := s.migrations.put id { m with phase := .writing, copied := m.size / 128, marked := [] } } (.migr id) 0xFFFF 0
    (nbits m.dst 49 42) .once ((l.zip (List.range l.length)).map fun x => (x.2, .write (BitVec.ofNat 64 (m.dst + x.1.1)) x.1.2))

/-- The page's bytes go there. -/
def sendPage (s : State) (id : Nat) (m : Migration) (d : List W8) : State := sendParts s id m [(0, d)]

/-- Whether engine operations own lines of a page: their copies, their traversals' records, or those of other modules here (12 R284). A page that
moves to or from another module stays where it is until they have given them up. -/
def pageOwned (s : State) (m : Migration) : Bool :=
  let here (l : Loc) (n : Nat) : Bool := match l.phys with | some a => meets a n m.src m.size | none => false
  (s.groups.any fun e =>
    (allD.any fun d => let c := e.2.copies.rd d
      (c.lines.any fun x => meets x.2.1 x.2.2 m.src m.size) || (paClass m.src == 1 && c.claims.any fun x => x.1 == nbits m.src 49 42)) ||
    (allPaths.any fun i => match e.2.pairs.rd i with | some p => p.rec_.all.any fun x => here x.1 x.2 | none => false)) ||
    s.held.any fun h => h.own.isSome && h.ops.any fun o => o.2.2.any fun x => here x.1 x.2

/-- A commit goes on: COMMITTING begins, and new accesses wait; then what was written since is copied again, by requests where another module
is concerned, and the page moves (R317, R318). Accesses under way at another module are performed first. -/
def commitMigration (s : State) (id : Nat) (m : Migration) : State :=
  let page (l : Loc) : Bool := match l.phys with | some a => m.src ≤ a && decide (a < m.src + m.size) | none => false
  let leafOwned := owned s none [(m.leaf, 8)]
  match m.phase with
  | .copying => if (m.away && pageOwned s m) || leafOwned then s else setPhase ((setMs s m.leaf 2).dropTlb fun c => m.src ≤ c.pa && decide (c.pa < m.src + m.size)) id .committing
  | .committing =>
    if leafOwned then s
    else if !m.away then finishMigration (copyLines m.src m.dst s m.marked) id m
    else if holding s (fun _ => true) page then s
    else if paClass m.src = 1 then
      setPhase (ask s (.migr id) 0xFFFF 0 (nbits m.src 49 42) .once [(0, .read (BitVec.ofNat 64 m.src) m.size)]) id .reading
    else sendPage s id m (s.mem.read m.src m.size)
  | .reading =>
    if !allAnswered s (.migr id) then s
    else
      let d := pieceData (keyed (answersOf s (.migr id))) 0 m.size
      let s := dropAsks s (.migr id)
      if paClass m.dst = 1 then sendPage s id m d else finishMigration (s.writePa [(m.dst, m.size)] d) id m
  | .writing =>
    if !allAnswered s (.migr id) then s
    else if m.marked.isEmpty then finishMigration s id m
    else sendParts (dropAsks s (.migr id)) id m (m.marked.map fun l => (128 * l, s.mem.read (m.src + 128 * l) 128))

/-! ### pgmap (R231) -/

def pgmapBody (o : PgMap) (c : Cx) (s : State) : Res :=
  let va := c.p.getS o.a
  match pgmapTry s c.vf o.z va.toNat (c.p.getS o.b).toNat with
  | .status n => .done (putS c o.d (BitVec.ofNat 64 n) (endWalk s c.vf va.toNat))
  | .mapped s => .done (putS c o.d 0 (endWalk s c.vf va.toNat))
  | .walk ipa cause => .walk (hostWait (endWalk s c.vf va.toNat) [] c.vf va.toNat ipa cause) ipa cause
  | .busy => .stall
  | .away pa =>
    if (asksOf s (.entry c.vf (va.toNat / 4096) pa)).isEmpty then
      .again (ask s (.entry c.vf (va.toNat / 4096) pa) c.vf c.g.lin (nbits pa 49 42) .once [(0, .read (BitVec.ofNat 64 pa) 8)])
    else .stall
  | .dead st pa => .stop (logError (endWalk s c.vf va.toNat) pa 2 (BitVec.ofNat 16 c.vf)) (if st then cTableError else 0x40)
  | .evict =>
    let pd := (s.vf c.vf).paddock.toNat
    if evicting s pd then .stall
    else match evict s pd with
      | some s => .again (endWalk s c.vf va.toNat)
      | none => empty va.toNat c s 2
  | .empty r => empty va.toNat c s r
where
  empty (va : Nat) (c : Cx) (s : State) (r : Nat) : Res :=
    let s := (endWalk s c.vf va).setVf c.vf fun v => { v with starved := some r }
    .susp (postEvent s (s.vf c.vf).paddock.toNat 1 cPoolEmpty.toNat c.vf r va) .pgmap

def execPgmap (h : Hdr) (o : PgMap) (s : State) : Out := .next (run (uPgMap o) h (pgmapBody o) s)

/-- Every path of a VF that waits in `pgmap` executes it again (R231). -/
def wakePgmaps (s : State) (vf : Nat) : State :=
  let s := s.setVf vf fun v => { v with starved := none }
  s.groups.foldl (fun s e =>
    if s.vfOf e.2 == vf then
      allPaths.foldl (fun s i => match e.2.paths.rd i with
        | some p => if p.st == .susp .pgmap then wakePath s ⟨e.1, i⟩ fun g p => (g, p) else s
        | none => s) s
    else s) s

end Sys2Proof.Machine
end

