-- ==== Sys2Proof/Machine/System.lean ====
section
/-! DEFINITION. System instructions (08 R217-R233): traps, returns, control registers, the register window, the clock, translation
drops, Shepherd events and holds. -/

namespace Sys2Proof.Machine

/-! ### trap, brk, fret, sret (R222, R223) -/

def trapBody (n : W8) (c : Cx) (s : State) : Res :=
  .fault s (if 0x80 ≤ n.toNat then { FaultInfo.of n c.p.mask with origin := 1 }
            else { FaultInfo.of cTrap c.p.mask with detail := n, origin := 1 })

def execTrap (h : Hdr) (n : W8) (s : State) : Out := .next (run Uses.none h (trapBody n) s)

def execBrk (h : Hdr) (n : BitVec 12) (s : State) : Out :=
  .next (run Uses.none h (fun c s => .fault s { FaultInfo.of cBreakpoint c.p.mask with code := n.setWidth 32, origin := 2 }) s)

/-- A lane run at supervisor level that returns ends the context (04 R103). A path that has returned may stop at this safe point (10 R256). -/
def returnBody (after nobp : Bool) (live : Option W64) (c : Cx) (s : State) : Res :=
  let serialRun := match c.g.ser with | some z => z.p == c.r.p && z.sup | none => false
  if serialRun then .stop s cKilled
  else
    let t := handlerReturn s c.r after nobp live
    match t.path c.r with
    | some (_, p) => if p.sup then .gone (settleHold t c.r) else .moved t [c.r.p]
    | none => .gone t

def execFret (h : Hdr) (nobp : Bool) (s : State) : Out := .next (run { uPriv with closes := true } h (returnBody false nobp h.live) s)
def execSret (h : Hdr) (s : State) : Out := .next (run { uPriv with closes := true } h (returnBody true false h.live) s)

/-! ### crd, cwr (R17, R20, R224, R225) -/

/-- The chain a grid runs in, with its stream. A grid that a chain's kernel launches is no part of the strip: DESIGN CHOICE, the manual says only
that SRATE, STRIPID and DEADLN read their outside values outside strips (R17, log entry 33). -/
def chainOf (s : State) (g : Group) : Option (Stream × Chain) :=
  match (s.gridOf g).map fun d : Grid => d.origin with
  | some (.chain pd st n) => match (s.pad pd).stream st with
    | some t => (t.chainOf n).map fun c => (t, c)
    | none => none
  | _ => none

/-- Moments of strip `n` of a stream, in 2^-32 ns (18 R364). -/
def Stream.q (t : Stream) (n : Nat) : Nat := t.t0 + n / t.spf * t.fper + n % t.spf * t.sper
def Stream.deadline (t : Stream) (n : Nat) : Nat := t.q n - t.lead * 2 ^ 32
def Stream.start (t : Stream) (n : Nat) : Nat := t.deadline n - t.win * 2 ^ 32

def gctlOf (g : Group) (p : Path) : W64 :=
  BitVec.ofNat 64 ((if g.uchk then 1 else 0) + (if g.ser.isSome then 2 else 0) + 4 * p.depth)

/-- Reads a counter whole; the reserved ones read 0 (22 R424, R426). Those of caches, DRAM, stalls, walks and links rise by free amounts at the
events that they count (log entry 5). -/
def readCounter (s : State) (vf : Nat) (n : W8) : W64 × State := (if 33 ≤ n.toNat then 0 else (s.vf vf).ctr.rd n, s)

def crdValue (n : CrName) (c : Cx) (s : State) : W64 × State :=
  let core := match s.coreOf c.g with | some k => k | none => 0
  let chain := chainOf s c.g
  let ids := (s.team c.g.team).bind (·.ids)
  match n with
  | .gid => (BitVec.ofNat 64 c.g.gid, s)
  | .teamid => (BitVec.ofNat 64 (match ids with
      | some i => i.teamid
      | none => match s.team c.g.team with | some t => t.teamid | none => 0), s)
  | .clid => (match ids with
      | some i => i.clid
      | none => BitVec.ofNat 64 (match s.team c.g.team, s.gridOf c.g with
        | some t, some d => d.clid (t.lin / d.teamsPer)
        | _, _ => 0), s)
  | .gridid => ((match ids with
      | some i => i.gridid
      | none => match s.gridOf c.g with | some d => d.gridid | none => 0).setWidth 64, s)
  | .core => (BitVec.ofNat 64 (core % 16 + 16 * (core / 16) + 256 * core), s)
  | .vfid => (match ids with | some i => i.vfid.setWidth 64 | none => BitVec.ofNat 64 c.vf, s)
  | .pathix => (c.r.p.setWidth 64, s)
  | .pmask => (c.p.mask.setWidth 64, s)
  | .gctl => (gctlOf c.g c.p, s)
  | .vwin => (BitVec.ofNat 64 c.g.vwin, s)
  | .smask => (c.g.smask.setWidth 64, s)
  | .fcause => (c.p.fcause.setWidth 64, s)
  | .fpc => (c.p.fpc, s)
  | .srate => (BitVec.ofNat 64 (match chain with | some (_, x) => x.srl | none => 0), s)
  | .stripid => (BitVec.ofNat 64 (match chain with | some (_, x) => x.strip % 2 ^ 32 | none => 0xFFFFFFFF), s)
  | .deadln => (BitVec.ofNat 64 (match chain with | some (t, x) => t.deadline x.strip / 2 ^ 32 | none => 0), s)
  | .ctr i => readCounter s c.vf i

def crdBody (o : Crd) (c : Cx) (s : State) : Res :=
  match o with
  | .scalar n d => let (v, s) := crdValue n c s; .done (putS c d v s)
  | .faddr d => pairLanes d (fun c => c.g.faddr) c s
  | .rngs d => regs (fun c => (c.g.setV d c.em c.g.rngs, c.p)) c s

def execCrd (h : Hdr) (o : Crd) (s : State) : Out := .next (run (uCrd o) h (crdBody o) s)

/-- FPC also goes to the frame (R223). -/
def cwrFpc (v : W64) (c : Cx) (s : State) : Res :=
  let v := v &&& ~~~7#64
  let a := frameOf c.g c.r.p + 8
  let s' := s.setPath c.r { c.p with fpc := v }
  let d := natLe 8 v.toNat
  match s'.devAt (.path c.r) c.vf .wr [(a.toNat, 8)] (fun _ x => .write x d) with
  | (.ok (ps, _), s) => .done (writeAllAt s ps d)
  | (.error (_, .wait ipa cause), s) => .walk s ipa cause
  | (.error (_, .dead cause), s) => .stop s cause
  | (.error (_, .cause cause), s) => .fault s (FaultInfo.at cause c.p.mask a)
  | (.error (_, .remoteCause cause), s) => .fault s { FaultInfo.at cRemote c.p.mask a with sub := cause }
  | (.error _, s) => awaitHere c s

def cwrBody (o : Cwr) (c : Cx) (s : State) : Res :=
  match o with
  | .scalar .gctl a => regs (fun c => ({ c.g with uchk := (c.p.getS a).getLsbD 0 }, c.p)) c s
  | .scalar .smask a => regs (fun c => ({ c.g with smask := (c.p.getS a).setWidth 8 }, c.p)) c s
  | .scalar .fcause a => regs (fun c => (c.g, { c.p with fcause := (c.p.getS a).setWidth 8 })) c s
  | .scalar .fpc a => cwrFpc (c.p.getS a) c s
  | .faddr a => regs (fun c => ({ c.g with faddr := Bank.gen fun l => if c.em.has l then c.g.pair a l else c.g.faddr.rd l }, c.p)) c s
  | .rngs a => regs (fun c =>
      let v (l : Lane) : W32 := let x := (c.g.seen a).rd l; if x = 0 then 1 else x
      ({ c.g with rngs := Bank.gen fun l => if c.em.has l then v l else c.g.rngs.rd l }, c.p)) c s

def execCwr (h : Hdr) (o : Cwr) (s : State) : Out := .next (run (uCwr o) h (cwrBody o) s)

/-! ### vgrow, vshrink, yield (R226-R228, 10 R254) -/

def cStarve : W8 := 0x28

/-- Granules of a core that no other resident group needs at 16 registers. -/
def mostGranules (s : State) (core g : Nat) : Nat :=
  Config.granules - ((coreTeams s core).map fun t => ((s.teamGroups t.1).filter fun e => e.1 != g && !e.2.ended).length).sum

def vgrowBody (n : BitVec 4) (c : Cx) (s : State) : Res :=
  let w := c.g.vwin + 16 * n.toNat
  match s.coreOf c.g with
  | none => .stall
  | some core =>
    if 256 < w ∨ mostGranules s core c.r.g < w / 16 then .fault s (FaultInfo.of cStarve c.p.mask)
    else .susp { s with vgrowQ := s.vgrowQ ++ [(core, c.r)] } (.vgrow n c.npc)

def execVgrow (h : Hdr) (n : BitVec 4) (s : State) : Out := .next (run uGrow h (vgrowBody n) s)

/-- The request at the head of a core's queue, with its granules and the address after it. -/
def headRequest (s : State) (core : Nat) : Option (PathRef × BitVec 4 × W64) :=
  (s.vgrowQ.find? fun e => e.1 == core).bind fun e => match s.path e.2 with
    | some (_, p) => match p.st with
      | .susp (.vgrow n npc) => some (e.2, n, npc)
      | _ => none
    | none => none

def canGrant (s : State) (core n : Nat) : Bool := decide ((coreUsed s core).gran + n ≤ Config.granules)

/-- A path whose instruction has issued and may still write registers: those that are added now are not the ones it names (08 R227). -/
def Path.loses (p : Path) (n : Nat) : Path :=
  if !p.fresh || (match p.st with | .susp (.lwait ..) => true | _ => false) then
    { p with lost := some (match p.lost with | some k => min k n | none => n) }
  else p

/-- Registers of a widened window read 0 (01 R9); a result still on its way to a register that an earlier window held does not land. -/
def Group.widen (g : Group) (n : Nat) : Group :=
  { g with vwin := g.vwin + 16 * n,
           paths := Bank.gen fun i => (g.paths.rd i).map fun p => p.loses g.vwin,
           ops := g.ops.map fun o => match o.kind with
             | .far at_ rs d z sx => { o with kind := .far at_ (rs.filter fun x => decide (x.toNat < g.vwin)) d z sx }
             | _ => o,
           lands := g.lands.map fun l => { l with regs := l.regs.filter fun x => decide (x.1.toNat < g.vwin) },
           v := Bank.gen fun i => if g.vwin ≤ i.toNat ∧ i.toNat < g.vwin + 16 * n then Bank.fill 0 else g.v.rd i }

/-- VGROW_GRANT: the head of the queue, when it fits. -/
def execVgrowGrant (core : Nat) (s : State) : Out :=
  match headRequest s core with
  | some (r, n, npc) =>
    if canGrant s core n.toNat then
      let s := { s with vgrowQ := s.vgrowQ.filter fun e => e.2 != r }
      .next (wakePath s r fun g p => (g.widen n.toNat, { p.completes g with pc := npc }))
    else .next s
  | none => .next s

def vshrinkBody (n : BitVec 4) (c : Cx) (s : State) : Res :=
  if c.g.vwin < 16 * n.toNat + 16 then .fault s (FaultInfo.of cRegBounds c.p.mask)
  else .done (c.put s { c.g with vwin := c.g.vwin - 16 * n.toNat } c.p)

def execVshrink (h : Hdr) (n : BitVec 4) (s : State) : Out := .next (run Uses.none h (vshrinkBody n) s)

def execYield (h : Hdr) (s : State) : Out := .next (run uCtl h (regs fun c => (c.g, { c.p with age := 0, young := true })) s)

/-! ### clock, shev, tlbinv (R229, R230, R232) -/

/-- Under `.frac`, the low 32 bits of the count above the fraction. -/
def execClock (h : Hdr) (o : Clock) (s : State) : Out :=
  .next (run (uClock o) h (fun c s => .done (putS c o.d (if o.frac then s.bell.setWidth 64 else s.ns) s)) s)

def execShev (h : Hdr) (o : ShEv) (s : State) : Out :=
  .next (run (uShEv o) h (fun c s =>
    let v := c.p.getS o.b
    .done (offer s c.vf 5 [(c.p.getS o.a).setWidth 32, v.setWidth 32, (v >>> 32).setWidth 32, BitVec.ofNat 32 c.g.lin,
      match s.gridOf c.g with | some d => d.gridid | none => 0])) s)

/-- `tlbinv` drops translations, and waits for the path's own engine accesses, as a fence of every kind would, and for every access of the
VF that has translated and is not performed (14 R309). -/
def execTlbinv (h : Hdr) (a : Option SReg) (s : State) : Out :=
  .next (run (uTlbInv a) h (fun c s =>
    let s := match a with
      | some r => s.dropTlb fun x => x.covers c.vf (c.p.getS r).toNat
      | none => s.dropTlb fun x => x.vf == c.vf
    if enginePending c 0x7F || holding s (· == c.vf) Loc.isPhys then .again s else .done s) s)

/-! ### halt (R233) -/

/-- Holds one path of a group: at once, or, while an answer is on its way or the record of a traversal is being written, at its boundary. A
traversal stops between two passes. -/
def requestHold (s : State) (r : PathRef) (order : Option Nat := none) : State :=
  match s.path r with
  | none => s
  | some (_, p) =>
    match p.st with
    | .remote _ => s.setPath r { p with hold := true }
    | _ =>
      let s := stopPairs s r
      match s.path r with
      | some (g, p) => if (g.pairs.rd r.p).isSome then s.setPath r { p with hold := true } else holdPath s r order
      | none => s

def holdGroup (s : State) (h : Nat) (order : Option Nat := none) : State := allPaths.foldl (fun s i => requestHold s ⟨h, i⟩ order) s

def haltBody (group : Bool) (c : Cx) (s : State) : Res :=
  let s := s.setPath c.r { c.p with pc := c.npc, st := .ready }
  .gone (if group then holdGroup s c.r.g else holdPath s c.r)

def execHalt (h : Hdr) (group : Bool) (s : State) : Out := .next (run uPriv h (haltBody group) s)

end Sys2Proof.Machine
end

