-- ==== Sys2Proof/Machine/Strip.lean ====
section
/-! DEFINITION. The Drover, strip commits, display heads and encoders (07 R209, 17 R353-R357, 18 R364-R385). -/

namespace Sys2Proof.Machine

def cMiss : W8 := 0x34

/-- The last ring a stream writes. -/
def Stream.lastRing (t : Stream) : Option Nat := (t.rings.filter (· != 0xFFFF)).getLast?

/-! ### The chain's end (R374, R375, R377) -/

/-- The 64 bytes of a chain record. -/
def chainRecord (t : Stream) (c : Chain) (cause : W8) (detail : Nat) (finish : W64) : List W8 :=
  natLe 4 (stripId c.strip) ++ [cause, BitVec.ofNat 8 detail, BitVec.ofNat 8 c.srlStart, BitVec.ofNat 8 c.srl] ++
    natLe 8 (t.start c.strip / 2 ^ 32) ++ natLe 8 (t.deadline c.strip / 2 ^ 32) ++ natLe 8 finish.toNat ++ natLe 8 c.firstPlace.toNat ++
    natLe 4 c.doneTiles ++ natLe 1 c.raised.toNat ++ zeros 19

/-- The record is written, or dropped where its address fails. -/
def writeChainRecord (s : State) (t : Stream) (c : Chain) (cause : W8) (detail : Nat) (finish : W64) : State :=
  writeRec s t.vf (t.crec.toNat + 64 * (stripId c.strip % 2 ^ t.clog)) (chainRecord t c cause detail finish)

def setStreamOf (s : State) (pd st : Nat) (f : Stream → Stream) : State :=
  s.setPad pd fun p => match p.stream st with
    | some t => p.setStream st (f t)
    | none => p

/-- The teams of a chain's grids are no longer strip class. -/
def clearStrip (s : State) (gs : List Nat) : State :=
  { s with teams := s.teams.map fun e => if gs.contains e.2.grid then (e.1, { e.2 with strip := false }) else e }

/-- A kernel grid that has not been placed is cancelled (R375). -/
def cancelGrids (s : State) (gs : List Nat) : State :=
  { s with grids := s.grids.filter fun e => !(gs.contains e.1 && e.2.nextCluster == 0) }

/-- The chain misses (R374, R375). -/
def missChain (s : State) (pd st : Nat) (t : Stream) (c : Chain) (detail : Nat) : State :=
  let s := writeChainRecord s t c cMiss detail 0
  let s := clearStrip (cancelGrids s c.grids) c.grids
  let s := setStreamOf s pd st fun t => { t.setChain { c with missed := true } with srl := min 4 (c.srl + 1) }
  settleChain (s.count t.vf 26 1) pd st c.strip

/-- Lines of a strip's slot. -/
def Ring.linesOf (r : Ring) (spf n : Nat) : Nat := if n % spf = spf - 1 then r.lastl else r.lines

/-- The slots of chain-consumed rings when the chain finishes (R381). -/
def haloSlots (t : Stream) (c : Chain) (p : Paddock) (n : Nat) : Paddock :=
  match p.ring n with
  | none => p
  | some r =>
    let i := r.slotOf c.strip
    if r.cons = 0 ∧ r.slot i = .committed then
      if r.h = 0 then p.setRing n (r.setSlot i .free)
      else
        let r := { r with slots := r.slots.map fun x => if x = SlotSt.halo then SlotSt.free else x, tail := r.linesOf t.spf c.strip }
        p.setRing n (r.setSlot i .halo)
    else p

/-- The chain finishes (R355, R374). -/
def finishChain (s : State) (pd st : Nat) (t : Stream) (c : Chain) : State :=
  let s := s.setPad pd fun p => t.ringList.foldl (haloSlots t c) p
  let s := writeChainRecord s t c 0 0 s.ns
  let unused := decide (t.win * 2 ^ 32 ≤ 4 * (t.deadline c.strip - s.bell.toNat))
  let next := if c.srl = 0 then 0 else if unused then c.srl - 1 else c.srl
  let s := setStreamOf s pd st fun t => { t.setChain { c with finished := true } with srl := next }
  settleChain s pd st c.strip

/-! ### scommit (07 R209) -/

/-- The slot is COMMITTED; a consumer of the stream's last ring has the strip. -/
def commitSlot (s : State) (pd st ring slot n : Nat) : State :=
  s.setPad pd fun p => match p.ring ring, p.stream st with
    | some r, some t =>
      (p.setRing ring (r.setSlot slot .committed)).setStream st (if t.lastRing = some ring then { t with commits := n :: t.commits } else t)
    | _, _ => p

/-- What `scommit` of S[A] does, and its status. -/
def commitStatus (c : Cx) (s : State) (a : W64) : Nat × State :=
  let ring := nbits a.toNat 15 0
  let slot := nbits a.toNat 31 16
  match (s.team c.g.team).bind fun t => (s.grid t.grid).map fun d : Grid => (t.grid, d.origin) with
  | some (gh, Origin.chain pd st n) =>
    match (s.pad pd).stream st, (s.pad pd).ring ring with
    | some t, some r =>
      match t.chainOf n with
      | none => (1, s)
      | some x =>
        if a.toNat / 2 ^ 32 ≠ 0 ∨ !t.ringList.contains ring ∨ r.slots.length ≤ slot ∨ r.slotOf n ≠ slot ∨ r.slot slot ≠ .open_ ∨
            x.finished then (1, s)
        else if x.missed then (2, s)
        else if t.deadline n ≤ s.bell.toNat then (2, missChain s pd st t x 1)
        else
          let s := commitSlot s pd st ring slot n
          let last := x.grids.length == t.nkern && x.grids.getLast? == some gh && t.lastRing == some ring
          (0, if last then finishChain s pd st t x else s)
    | _, _ => (1, s)
  | _ => (1, s)

def uSCommit (o : SUn) : Uses := uMem [.s o.a] [.s o.d]

def execScommit (h : Hdr) (o : SUn) (s : State) : Out :=
  .next (run (uSCommit o) h (fun c s =>
    let (v, s) := commitStatus c s (c.p.getS o.a)
    .done (putS c o.d (BitVec.ofNat 64 v) s)) s)

/-! ### Starts and milestones (R364, R368, R369, R373) -/

/-- Whether a team leaves the mesh with team `t`: one of its cluster, or of its grid where that is cooperative (R246, R345). -/
def together (s : State) (t : Nat) (x : Team) (e : Nat × Team) : Bool :=
  e.1 == t || e.2.cluster == x.cluster ||
    (e.2.grid == x.grid && match s.grid x.grid with | some d => d.launch.coop | none => false)

/-- Asks a team to stop at safe points, with those that leave the mesh with it: within SPWIN cycles of its core (R256). -/
def askStop (s : State) (pd t : Nat) : State :=
  match s.team t with
  | none => s
  | some x =>
    { s with teams := s.teams.map fun e =>
        match e.2.core with
        | some core =>
          if e.2.stop.isNone && together s t x e then
            (e.1, { e.2 with stop := some { until_ := s.cycle core + (s.pad pd).timers.spwin.toNat, forced := false } })
          else e
        | none => e }

/-- Teams that are not strip class on some cores. -/
def plainTeams (s : State) (on : Nat → Bool) : List (Nat × Nat) :=
  s.teams.filterMap fun e => match e.2.core with
    | some k => if on k && !e.2.strip then some (e.1, k) else none
    | none => none

/-- CHAIN_START: at S of the stream's next strip. -/
def startChain (s : State) (pd st : Nat) (t : Stream) : State :=
  let n := t.next
  let p := s.pad pd
  let rings := t.ringList.filterMap fun i => (p.ring i).map fun r => (i, r)
  let c : Chain := { strip := n, srlStart := t.srl, srl := t.srl, grids := [], milestone := 0, raised := 0, doneTiles := 0, firstPlace := 0,
                     missed := false, finished := false }
  let s := setStreamOf s pd st fun t => { t with next := n + 1 }
  if rings.all fun r => r.2.slot (r.2.slotOf n) == .free then
    let s := s.setPad pd fun p => rings.foldl (fun p r => p.setRing r.1 (r.2.setSlot (r.2.slotOf n) .open_)) p
    let s := setStreamOf s pd st fun t => { t with chains := t.chains ++ [c] }
    (plainTeams s fun k => t.cores.getLsbD k).foldl (fun s x => askStop s pd x.1) s
  else
    let s := writeChainRecord s t c cMiss 2 0
    (setStreamOf s pd st fun t => { t with srl := min 4 (t.srl + 1) }).count t.vf 26 1

def execChainStart (pd st : Nat) (s : State) : Out :=
  match (s.pad pd).stream st with
  | some t => .next (if !t.withdrawn && decide (t.start t.next ≤ s.bell.toNat) && t.current.isNone then startChain s pd st t else s)
  | none => .next s

/-- Total tiles of the chain's kernels. -/
def Stream.total (t : Stream) : Nat := (t.tiles.take t.nkern).sum

/-- Prediction minus S, in 2^-32 ns, as a fraction over done_tiles (17 R357). -/
def predicted (t : Stream) (k done : Nat) : Option Nat := if done = 0 then none else some (k * t.win * 2 ^ 32 * t.total / (4 * done))

/-- Whether the prediction exceeds D - GUARD, exactly. -/
def late (t : Stream) (k done : Nat) : Bool := decide (4 * done * (t.win - t.guard) < k * t.win * t.total)

/-- DROVER_MILESTONE k: the SRL, the record's bit, and the Shepherd's event (R373, 22 R434). -/
def execDroverMilestone (pd st : Nat) (s : State) : Out :=
  match (s.pad pd).stream st with
  | none => .next s
  | some t => match t.current with
    | none => .next s
    | some c =>
      let k := c.milestone + 1
      if 3 < k ∨ 4 * (s.bell.toNat - t.start c.strip) < k * t.win * 2 ^ 32 then .next s
      else
        let up := if c.doneTiles = 0 then 2 else if late t k c.doneTiles then 1 else 0
        let srl := min 4 (c.srl + up)
        let c' := { c with milestone := k, srl := srl, raised := if c.srl < srl then c.raised ||| (1#3 <<< (k - 1)) else c.raised }
        let s := setStreamOf s pd st fun t => t.setChain c'
        let pred := match predicted t k c.doneTiles with | some x => min (x / 2 ^ 32) 0xFFFFFFFF | none => 0xFFFFFFFF
        .next (offer s t.vf 3 [BitVec.ofNat 32 (stripId c.strip), BitVec.ofNat 32 (k + 256 * c.srl + 65536 * srl),
          BitVec.ofNat 32 c.doneTiles, BitVec.ofNat 32 pred])

/-- CHAIN_MISS: the Bellwether reaches D before the chain finishes. -/
def execChainMiss (pd st : Nat) (s : State) : Out :=
  match (s.pad pd).stream st with
  | none => .next s
  | some t => match t.current with
    | none => .next s
    | some c => .next (if t.deadline c.strip ≤ s.bell.toNat then missChain s pd st t c 1 else s)

/-- Teams on some cores that have been asked to stop and have not left. -/
def stopping (s : State) (on : Nat → Bool) : Bool :=
  (plainTeams s on).any fun x => match s.team x.1 with | some t => t.stop.isSome | none => false

/-- The kernel a running chain places next: none while one of its grids has not ended, or a stop on its cores is not complete (R370). -/
def nextKernel (s : State) (t : Stream) : Option (Chain × Launched) :=
  match t.current with
  | none => none
  | some c =>
    if (c.grids.any fun h => (s.grid h).isSome) || decide (t.nkern ≤ c.grids.length) ||
        (c.grids.isEmpty && stopping s fun k => t.cores.getLsbD k) then none
    else (t.copies[c.grids.length]?).map fun l => (c, l)

/-- A device access that has to wait has taken a step towards its page; nothing where it has not (14 R308, R312). -/
def begun (s t : State) : Option State := if s.walks = t.walks ∧ s.misses = t.misses ∧ s.asks = t.asks then none else some t

/-- The Drover launches the next kernel, or the chain misses (R370). -/
def launchKernel (s : State) (pd st : Nat) (t : Stream) (c : Chain) (l : Launched) : Option State :=
  match admitLaunch s t.vf pd l false with
  | (.fail, s) => some (missChain s pd st t c 3)
  | (.wait, s') => begun s s'
  | (.dead x, s) => some (endContext s t.vf x 0)
  | (.ok k, s) =>
    let (_, h, s) := makeGrid s t.vf pd l k (t.kerns.getD c.grids.length 0) l.q (.chain pd st c.strip) 0
    some (setStreamOf s pd st fun t => t.setChain { c with grids := c.grids ++ [h] })

/-! ### Consumers (R376, R381-R384) -/

/-- Fold bytes at a window offset of a Paddock. -/
def windowRead (s : State) (pd o n : Nat) : List W8 :=
  (List.range n).map fun i => match foldAddr s pd (o + i) with
    | some a => s.fold.get a
    | none => 0

/-- Bits a component: 8 for RGBA8, 10 for RGB10A2 (R380, R382). -/
def Ring.bits (r : Ring) : Nat := if r.fmt = 0 then 8 else 10

/-- Red, green and blue of a pixel word (R380). -/
def Ring.rgb (r : Ring) (w : Nat) : Nat × Nat × Nat :=
  if r.fmt = 0 then (nbits w 7 0, nbits w 15 8, nbits w 23 16) else (nbits w 9 0, nbits w 19 10, nbits w 29 20)

/-- A pixel of a slot. -/
def slotPixel (s : State) (pd : Nat) (r : Ring) (slot y x : Nat) : Nat × Nat × Nat :=
  r.rgb (leNat (windowRead s pd (r.base + slot * r.slotsz + y * r.pitch + 4 * x) 4))

/-- The pixels of a slot, line by line. -/
def slotPixels (s : State) (pd : Nat) (r : Ring) (slot lines : Nat) : List (Nat × Nat × Nat) :=
  (List.range lines).flatMap fun y => (List.range r.width).map fun x => slotPixel s pd r slot y x

/-- What reading a slot meets in the Fold, for the VF of its stream (20 R412). -/
def slotMeets (s : State) (vf pd : Nat) (r : Ring) (slot lines : Nat) : Option W8 × State :=
  sramMeet s vf fun a => match a with
    | .word w => (List.range lines).any fun y => (List.range (4 * r.width)).any fun i =>
        match foldAddr s pd (r.base + slot * r.slotsz + y * r.pitch + i) with
        | some o => w.meets (.fold o) 1
        | none => false
    | .reg _ _ => false

def setCons (s : State) (pd st : Nat) (c : Consumer) : State := setStreamOf s pd st fun t => { t with cons := c }

/-- The strip has committed the slot that its consumer takes. -/
def Stream.committed (t : Stream) (r : Ring) (n : Nat) : Bool := r.slot (r.slotOf n) = .committed && t.commits.contains n

/-- A head begins to scan out a slot: COMMITTED ones of its ring that it has passed become FREE, those of earlier streams among them (R381). -/
def Ring.scanned (r : Ring) (t : Stream) (slot : Nat) : Ring :=
  let ahead := t.commits.map r.slotOf
  { r with slots := (r.slots.zip (List.range r.slots.length)).map fun x =>
      if x.1 = SlotSt.committed ∧ x.2 ≠ slot ∧ !ahead.contains x.2 then SlotSt.free else x.1 }

/-- HEAD_SCANOUT at Q, with the timing that the head has: a committed slot, or, for a strip that is not committed, the one scanned last, or zero
lines (R376, R382). -/
def execHeadScanout (pd st : Nat) (s : State) : Out :=
  match (s.pad pd).stream st with
  | none => .next s
  | some t =>
    match t.lastRing.bind fun i => ((s.pad pd).ring i).map fun r => (i, r) with
    | none => .next s
    | some (i, r) =>
      let n := t.cons.strip
      let slot := r.slotOf n
      let lines := r.linesOf t.spf n
      let video (px : List (Nat × Nat × Nat)) : Sent := .video pd t.unit ((s.pad pd).heads.rd (BitVec.ofNat 2 t.unit)) r.bits px
      if t.kind ≠ 1 ∨ s.bell.toNat < t.q n then .next s
      else
        let shown := if t.committed r n then some slot else t.cons.lastSlot
        match shown.elim (none, s) fun o => slotMeets s t.vf pd r o lines with
        | (some c, s) => .next (endContext s t.vf c 0)
        | (none, s) =>
          let px := match shown with
            | some o => slotPixels s pd r o lines
            | none => List.replicate (lines * r.width) (0, 0, 0)
          let s := s.send (video px)
          if t.committed r n then
            let s := s.setPad pd fun p => p.setRing i (r.scanned t slot)
            .next (setStreamOf s pd st fun t =>
              { t with commits := t.commits.filter (n < ·), cons := { t.cons with strip := n + 1, lastSlot := some slot } })
          else .next (setCons s pd st { t.cons with strip := n + 1 })

/-! ### The encoder's picture (R383; BT.709 limited range, log entry 35) -/

/-- Rounds a ratio to nearest, ties upward. -/
def roundUp (n d : Int) : Nat := ((2 * n + d) / (2 * d)).toNat

/-- Luma of a pixel of `b` bits: 16 + 219 Y' in units of an 8-bit step. -/
def lumaOf (b : Nat) (p : Nat × Nat × Nat) : Nat :=
  let m : Int := 10000 * (2 ^ b - 1)
  roundUp (2 ^ (b - 8) * (16 * m + 219 * (2126 * p.1 + 7152 * p.2.1 + 722 * p.2.2))) m

/-- Cb and Cr of the mean of some pixels, `k` of them with the sums `p`. -/
def chromaOf (b k : Nat) (p : Nat × Nat × Nat) : Nat × Nat :=
  let y : Int := 2126 * p.1 + 7152 * p.2.1 + 722 * p.2.2
  let c (x : Nat) (kb : Int) : Nat :=
    let m : Int := kb * (k * (2 ^ b - 1))
    roundUp (2 ^ (b - 8) * (128 * m + 224 * (10000 * x - y))) m
  (c p.2.2 18556, c p.1 15748)

/-- The samples of a slot, 4:2:0; a block at the right edge has the pixels that there are. -/
def planesOf (s : State) (pd : Nat) (r : Ring) (slot lines : Nat) : List Nat × List Nat × List Nat :=
  let px (y x : Nat) := slotPixel s pd r slot y x
  let block (y x : Nat) : Nat × Nat :=
    let l := ([(0, 0), (0, 1), (1, 0), (1, 1)] : List (Nat × Nat)).filterMap fun o =>
      if 2 * x + o.2 < r.width ∧ 2 * y + o.1 < lines then some (px (2 * y + o.1) (2 * x + o.2)) else none
    chromaOf r.bits l.length (l.foldl (fun a p => (a.1 + p.1, a.2.1 + p.2.1, a.2.2 + p.2.2)) (0, 0, 0))
  let blocks := (List.range ((lines + 1) / 2)).flatMap fun y => (List.range ((r.width + 1) / 2)).map (block y)
  ((List.range lines).flatMap fun y => (List.range r.width).map fun x => lumaOf r.bits (px y x), blocks.map (·.1), blocks.map (·.2))

/-- A uniform black row. -/
def blackPlanes (r : Ring) (lines : Nat) : List Nat × List Nat × List Nat :=
  let c := List.replicate ((lines + 1) / 2 * ((r.width + 1) / 2)) (128 * 2 ^ (r.bits - 8))
  (List.replicate (lines * r.width) (16 * 2 ^ (r.bits - 8)), c, c)

/-- What the encoder codes for strip `n`: its slot, a copy of the row before in time, or, in frame 0, black (R376, R383). -/
def codedRow (s : State) (pd : Nat) (t : Stream) (r : Ring) (n : Nat) (again : Bool) : Config.TileRow :=
  let lines := r.linesOf t.spf n
  { first := n % t.spf == 0, qidx := t.qidx, bits := r.bits, width := r.width, lines := lines,
    planes := if !again then some (planesOf s pd r (r.slotOf n) lines)
      else if n < t.spf then some (blackPlanes r lines) else none }

/-- Whether the encoder of a stream may begin its next row: committed, or missed and its slot's start has come. -/
def rowReady (s : State) (pd : Nat) (t : Stream) : Option Bool :=
  match t.lastRing.bind fun i => (s.pad pd).ring i with
  | none => none
  | some r =>
    let n := t.cons.strip
    if t.kind ≠ 2 ∨ t.cons.busy.isSome then none
    else if t.committed r n then some false
    else if n < t.next ∧ !(t.current.any fun c => c.strip == n) ∧ t.q n ≤ s.bell.toNat then some true
    else none

/-- Whether an encoder is idle, and no ready row of it has an earlier deadline. -/
def encoderFree (s : State) (pd : Nat) (t : Stream) : Bool :=
  (s.pad pd).streamList.all fun x =>
    x.2.kind != 2 || x.2.unit != t.unit || (x.2.cons.busy.isNone &&
      ((rowReady s pd x.2).isNone || decide (t.deadline t.cons.strip ≤ x.2.deadline x.2.cons.strip)))

/-- ENCODE_START. -/
def execEncodeStart (pd st : Nat) (s : State) : Out :=
  match (s.pad pd).stream st with
  | none => .next s
  | some t => match rowReady s pd t with
    | some again => .next (if encoderFree s pd t then setCons s pd st { t.cons with busy := some again } else s)
    | none => .next s

/-- Where a record of a size goes in a bitstream ring, and whether it has room: it never passes READ. -/
def bitPlace (blog written read size : Nat) : Nat × Bool :=
  let at_ := if 2 ^ blog < written + size then 64 else written
  let wrap := decide (at_ < written)
  let room :=
    if read ≤ written then !wrap || decide (at_ + size < read)
    else !wrap && decide (at_ + size < read)
  (at_, room)

/-- The row has been posted, or dropped: a slot that was coded becomes FREE (R384). -/
def rowPosted (s : State) (pd st : Nat) (again : Bool) (n : Nat) : State :=
  s.setPad pd fun p => match p.stream st with
    | none => p
    | some t =>
      let p := p.setStream st { t with commits := t.commits.filter (n < ·), cons := { t.cons with strip := n + 1, busy := none, rec_ := none } }
      match again, t.lastRing.bind fun i => (p.ring i).map fun r => (i, r) with
      | false, some (i, r) => p.setRing i (r.setSlot (r.slotOf n) .free)
      | _, _ => p

/-- The record of a row (R384). -/
def rowRecord (t : Stream) (again dropped : Bool) (ns : W64) (d : List W8) : List W8 :=
  let n := t.cons.strip
  natLe 4 (stripId n) ++ natLe 4 d.length ++ natLe 8 ns.toNat ++
    natLe 1 ((if again then 1 else 0) + (if dropped then 2 else 0) + (if n % t.spf = 0 then 4 else 0)) ++ zeros 15 ++
    d ++ zeros ((32 - d.length % 32) % 32)

/-- The record that a row leaves and where: whole, without its bytes where the ring has no room for them, or none. -/
def rowPlace (t : Stream) (again : Bool) (ns : W64) (d : List W8) (read : Nat) : Option (Nat × List W8) :=
  let whole := rowRecord t again false ns d
  let short := rowRecord t again true ns []
  let (at1, room1) := bitPlace t.blog t.written read whole.length
  let (at2, room2) := bitPlace t.blog t.written read short.length
  if room1 then some (at1, whole) else if room2 then some (at2, short) else none

/-- The bytes that the encoder codes for a row: free (log entry 11). -/
def obuBytes (s : State) (pd : Nat) (t : Stream) (again : Bool) : List W8 :=
  match t.lastRing.bind fun i => (s.pad pd).ring i with
  | some r => Config.obu (codedRow s pd t r t.cons.strip again) s.free
  | none => []

/-- The record of a row, then WRITE. One that waits for its page stays as it is (14 R312, log entry 43). -/
def putRow (s : State) (pd st : Nat) (t : Stream) (again : Bool) (x : Nat × List W8) : State :=
  match s.devWrite t.vf (t.bsr.toNat + x.1) x.2 with
  | (.wait, s) => setCons s pd st { t.cons with rec_ := some x }
  | (.dead c, s) => endContext s t.vf c 0
  | (_, s) =>
    let s := writeRec s t.vf t.bsr.toNat (natLe 8 (x.1 + x.2.length))
    rowPosted (setStreamOf s pd st fun t => { t with written := x.1 + x.2.length }) pd st again t.cons.strip

/-- What the encoder meets in the slot that it codes. -/
def rowMeets (s : State) (pd : Nat) (t : Stream) (again : Bool) : Option W8 × State :=
  match t.lastRing.bind fun i => (s.pad pd).ring i with
  | some r => if again then (none, s) else slotMeets s t.vf pd r (r.slotOf t.cons.strip) (r.linesOf t.spf t.cons.strip)
  | none => (none, s)

/-- TILE_ROW_POST. It waits where READ's page or the record's waits for the host (14 R312). -/
def postRow (s : State) (pd st : Nat) (t : Stream) (again : Bool) : State :=
  match t.cons.rec_ with
  | some x => putRow s pd st t again x
  | none => match s.devRead t.vf (t.bsr.toNat + 8) 8 with
    | (.wait, s) => s
    | (.dead c, s) => endContext s t.vf c 0
    | (x, s) => match rowMeets s pd t again with
      | (some c, s) => endContext s t.vf c 0
      | (none, s) =>
        let read := max 64 (match x with | .ok d => leNat d | _ => 0)
        let place := rowPlace t again s.ns (obuBytes s pd t again) read
        let s := { s with free := s.free + 1 }
        match place with
        | none => rowPosted s pd st again t.cons.strip
        | some x => putRow s pd st t again x

def execTileRowPost (pd st : Nat) (s : State) : Out :=
  match (s.pad pd).stream st with
  | none => .next s
  | some t => match t.cons.busy with
    | some again => .next (postRow s pd st t again)
    | none => .next s

end Sys2Proof.Machine
end

