-- ==== Sys2Proof/Machine/Save.lean ====
section
/-! DEFINITION. Pre-emption: stopping and saving teams, the context layouts, restoring, and the deadlock breaker (02 R61, R62, 08 R235-R238,
10 R246, R254-R258, 18 R371). What the layouts have no place for stays in the device (log entry 13). -/

namespace Sys2Proof.Machine

/-! ### The group context (R237) -/

/-- The live-mask word of a group saved with everything. -/
def fullLive : W64 := 0x0FFFFFFFFFFFFFFF

/-- Paths that hold the slots. -/
def Group.slots (g : Group) : List (BitVec 3) := [g.slotA, g.slotB].filterMap id

/-- The words of the paths that have stopped at a safe point, those that a sibling's split has parked since among them (R256). -/
def Group.stoppedWords (g : Group) : List W64 := allPaths.filterMap fun i => (g.paths.rd i).bind (·.stopped)

/-- The word in force and the kind: 0 when every path in a slot has stopped at a safe point, and there is one (R256). -/
def saveKind (g : Group) : W8 × W64 :=
  let ws := g.slots.map fun i => (g.paths.rd i).bind (·.stopped)
  if !ws.isEmpty && ws.all (·.isSome) then (0, g.stoppedWords.foldl (· ||| ·) 0) else (1, fullLive)

def slotByte (s : Option (BitVec 3)) : W8 := match s with | some i => i.setWidth 8 | none => 0xFF

/-- Lanes of serial mode that have run: all but those still to run and the one that runs. -/
def serialDone (g : Group) : Mask :=
  match g.ser with
  | none => 0
  | some z =>
    let cur := match g.paths.rd z.p with
      | some p => if p.sup == z.sup then p.mask else match p.entry with | some e => e.mask | none => p.mask
      | none => 0
    z.lanes &&& ~~~(z.todo ||| cur)

/-- State byte of a path: 1 live, 2 parked, 3 suspended, 4 held. -/
def pathState (g : Group) (i : BitVec 3) (p : Path) : W8 :=
  match p.st with
  | .held => 4
  | .susp _ => 3
  | _ => if g.live i then 1 else 2

def pathBytes (g : Group) (i : BitVec 3) : List W8 :=
  match g.paths.rd i with
  | none => zeros 64
  | some p =>
    [p.mask, BitVec.ofNat 8 p.depth, (match p.join with | some j => j.setWidth 8 | none => 0xFF), pathState g i p,
      (if p.sup then 1 else 0), p.fcause, 0, 0] ++ natLe 8 p.pc.toNat ++
      natLe 8 (match p.rcv with | some r => r.toNat | none => 2 ^ 64 - 1) ++ natLe 8 (p.written.toNat / 2) ++ natLe 8 p.fpc.toNat ++ zeros 24

/-- The 64 scalars of a bank; s0 is 0. -/
def scalarBytes (s : Bank 6 W64) : List W8 :=
  (List.range 64).flatMap fun n => natLe 8 (if n = 0 then 0 else (s.rd (BitVec.ofNat 6 n)).toNat)

def overlayBytes (g : Group) (i : BitVec 3) : List W8 :=
  match g.paths.rd i with
  | some p => scalarBytes p.s
  | none => zeros 512

def joinBytes (g : Group) (j : BitVec 4) : List W8 :=
  match g.joins.rd j with
  | none => zeros 544
  | some r =>
    [r.owed, r.arrived, BitVec.ofNat 8 r.pdepth, (match r.pjoin with | some k => k.setWidth 8 | none => 0xFF), 1, 0, 0, 0] ++
      natLe 8 (match r.prcv with | some a => a.toNat | none => 2 ^ 64 - 1) ++ natLe 8 (r.baseW.toNat / 2) ++ zeros 8 ++ scalarBytes r.base

def barByte (b : Option Bar) : W8 :=
  match b with
  | none => 0
  | some (.team n) => 0x80 ||| n.setWidth 8
  | some (.cluster n) => 0xA0 ||| n.setWidth 8

def copyBytes (c : Copy) : List W8 :=
  [BitVec.ofNat 8 (copyStCode c.st), c.dir.code.setWidth 8, barByte c.bar, c.tcause] ++ natLe 2 c.tag.toNat ++ zeros 2 ++
    natLe 8 c.laddr.toNat ++ (allLanes.take 4).flatMap (fun i => natLe 4 (c.origin.rd (i.setWidth 2)).toNat) ++ natLe 4 c.cursor ++ zeros 4 ++
    natLe 8 c.faddr.toNat ++ zeros 16 ++ natLe 64 c.desc.toNat

/-- Arrivals that a group's copies still owe to a barrier. -/
def owedBytes (g : Group) (b : Bar) : List W8 := natLe 2 (((allD.filter fun d => copyNames (g.copies.rd d) b).map fun d => (g.copies.rd d).owes).sum)

def lanes32 (x : Lanes W32) : List W8 := allLanes.flatMap fun l => natLe 4 (x.rd l).toNat
def lanes64 (x : Lanes W64) : List W8 := allLanes.flatMap fun l => natLe 8 (x.rd l).toNat

/-- A piece of a context: where it goes, and its bytes. -/
abbrev Part := Nat × List W8

/-- Bytes 0 to 0x34FF, and those from 0x3500 that are written in every kind. -/
def fixedPieces (g : Group) (kind : W8) (live : W64) : List Part :=
  let gctl := (if g.uchk then 1 else 0) + (if g.ser.isSome then 2 else 0)
  [(0, natLe 8 gctl ++ natLe 2 g.vwin ++ [g.smask, kind, BitVec.ofNat 8 g.acc, serialDone g, slotByte g.slotA, slotByte g.slotB] ++
      natLe 8 g.sbase.toNat ++ natLe 8 g.frameb.toNat ++ natLe 8 live.toNat ++ zeros 8 ++ lanes32 g.rngs ++ lanes64 g.faddr ++
      (match g.ser with | some z => lanes64 z.next | none => zeros 64) ++ zeros 48),
   (0x100, allPaths.flatMap (pathBytes g)),
   (0x300, allPaths.flatMap (overlayBytes g)),
   (0x1300, allJoins.flatMap (joinBytes g)),
   (0x3500, [0xFF]),
   (0x3510, zeros 16 ++ ([0, 1, 2, 3] : List XReg).flatMap fun i => lanes32 (g.x.rd i)),
   (0x35C0, allJoins.flatMap (fun b => owedBytes g (.team b)) ++ ([0, 1, 2, 3] : List (BitVec 2)).flatMap (fun b => owedBytes g (.cluster b)) ++
      zeros 24),
   (0x3600, allD.flatMap fun d => natLe 64 (g.d.rd d).toNat),
   (0x3800, allD.flatMap fun d => copyBytes (g.copies.rd d)),
   (0x7C00, zeros 1024)]

/-- Whether block `i` of eight lane registers is marked live and lies in the window. -/
def blockLive (g : Group) (live : W64) (i : Nat) : Bool := live.getLsbD i && decide (8 * i < g.vwin)
def predLive (live : W64) (i : Nat) : Bool := live.getLsbD (32 + i)
def tileLive (g : Group) (live : W64) (i : Nat) : Bool := live.getLsbD (48 + i) && decide (i < g.acc)
def handleLive (live : W64) (i : Nat) : Bool := live.getLsbD (56 + i)

/-- The blocks, predicates, tiles and handles that are marked live (R238). -/
def livePieces (g : Group) (live : W64) : List Part :=
  ((List.range 15).filterMap fun i =>
    if predLive live (i + 1) then some (0x3501 + i, [g.k.rd (BitVec.ofNat 4 (i + 1))]) else none) ++
  ((List.range 4).filterMap fun i =>
    if handleLive live i then some (0x35A0 + 8 * i, natLe 8 (g.q.rd (BitVec.ofNat 2 i)).toNat) else none) ++
  ((List.range 32).filterMap fun i =>
    if blockLive g live i then some (0x3C00 + 256 * i, (List.range 8).flatMap fun n => lanes32 (g.v.rd (BitVec.ofNat 8 (8 * i + n)))) else none) ++
  ((List.range 8).filterMap fun i =>
    if tileLive g live i then
      some (0x5C00 + 1024 * i, (List.range 256).flatMap fun n => natLe 4 ((g.t.rd (BitVec.ofNat 3 i)).rd (BitVec.ofNat 8 n)).toNat)
    else none)

def groupPieces (g : Group) : List Part :=
  let (kind, live) := saveKind g
  fixedPieces g kind live ++ livePieces g live

/-- The ranges that the layouts of R237 keep zero. -/
def groupZeros : List (Nat × Nat) :=
  [(0x28, 8), (0xD0, 48), (0x3510, 16), (0x35E8, 24), (0x7C00, 1024)] ++
    (List.range 8).flatMap (fun p => [(0x106 + 64 * p, 2), (0x128 + 64 * p, 24)]) ++
    (List.range 16).flatMap (fun j => [(0x1305 + 544 * j, 3), (0x1318 + 544 * j, 8)]) ++
    (List.range 8).flatMap (fun c => [(0x3806 + 128 * c, 2), (0x3824 + 128 * c, 4), (0x3830 + 128 * c, 16)])

/-! ### The team context (R235, R236) -/

def barBytes (b : Barrier) : List W8 :=
  [(if b.valid then 1 else 0), (if b.phase then 1 else 0)] ++ natLe 2 b.expect ++ natLe 2 b.count ++ zeros 2

def clusterBars (s : State) (t : Team) : Bank 2 Barrier :=
  match s.cluster t.cluster with | some c => c.cbars | none => Bank.fill Barrier.start

/-- Bytes a team's context takes, and where it starts. -/
def contextSize (k : Kernel) : Nat := 1024 + k.shared + 32768 * k.groups
def contextAt (d : Grid) (t : Team) : Nat := d.launch.saves.toNat + (contextSize d.kernel + 4095) / 4096 * 4096 * t.lin

/-- What a team's context says of it: as its last restore found it, or as the device gave it. -/
def idsOf (d : Grid) (t : Team) : TeamIds :=
  t.ids.getD { teamid := t.teamid, gridid := d.gridid, clid := BitVec.ofNat 64 (d.clid (t.lin / d.teamsPer)), vfid := BitVec.ofNat 16 d.vf,
               coop := d.launch.coop, krec := d.launch.krec, rec_ := d.recAddr }

def teamHead (s : State) (d : Grid) (t : Team) (cause : W8) (ns : W64) : List W8 :=
  let ids := idsOf d t
  let flags := (if t.strip then 1 else 0) + (if ids.coop then 2 else 0) +
    (match s.cluster t.cluster with | some c => if c.reclaim then 4 else 0 | none => 0)
  natLe 2 1 ++ natLe 1 t.gcount ++ natLe 1 ids.teamid ++ natLe 4 ids.gridid.toNat ++ natLe 8 ids.clid.toNat ++ natLe 2 ids.vfid.toNat ++
    natLe 2 flags ++ natLe 4 t.size ++ natLe 8 ids.krec.toNat ++ natLe 8 ids.rec_.toNat ++ [cause] ++ zeros 7 ++
    natLe 8 ns.toNat ++ zeros 200 ++ allJoins.flatMap (fun b => barBytes (t.bars.rd b)) ++
    ([0, 1, 2, 3] : List (BitVec 2)).flatMap (fun b => barBytes ((clusterBars s t).rd b)) ++ zeros 608 ++ t.shared.read 0 t.size

def headZeros : List (Nat × Nat) :=
  [(0x29, 7), (0x38, 200), (0x1A0, 608)] ++ (List.range 20).map fun b => (0x106 + 8 * b, 2)

/-- 0x30 when every group was saved as kind 0 (18 R369). -/
def saveCause (s : State) (t : Nat) : W8 := if (s.teamGroups t).all fun g => (saveKind g.2).1 == 0 then 0x30 else 0x31

/-- Writes pieces in order, to the first that is not written. -/
def writeAt (vf base : Nat) : List Part → State → Dev Unit × State
  | [], s => (.ok (), s)
  | (o, d) :: rest, s => match s.devWrite vf (base + o) d with
    | (.ok _, s) => writeAt vf base rest s
    | x => x

def writeGroups (vf base : Nat) (t : Team) : List (Nat × Group) → State → Dev Unit × State
  | [], s => (.ok (), s)
  | (_, g) :: rest, s => match writeAt vf (base + 1024 + t.size + 32768 * g.gid) (groupPieces g) s with
    | (.ok _, s) => writeGroups vf base t rest s
    | x => x

/-- Whether a save of a group reads a register: what its kind leaves out it does not read (R238). -/
def savesReg (g : Group) : Reg → Bool
  | .v n => blockLive g (saveKind g).2 (n.toNat / 8)
  | .k i => predLive (saveKind g).2 i.toNat
  | .t i => tileLive g (saveKind g).2 i.toNat
  | .q i => handleLive (saveKind g).2 i.toNat
  | .s _ | .x _ | .d _ => true

/-- What the save of a team meets in SRAM (20 R412). -/
def contextMeets (s : State) (vf th : Nat) : Option W8 × State :=
  sramMeet s vf fun a => match a with
    | .word (.team t _) => t == th
    | .word _ => false
    | .reg q x => (s.teamGroups th).any fun g => g.1 == q.g && savesReg g.2 x

/-- Writes one team's context. -/
def writeContext (s : State) (th : Nat) (t : Team) (d : Grid) : Dev Unit × State :=
  let base := contextAt d t
  match contextMeets s d.vf th with
  | (some c, s) => (.dead c, s)
  | (none, s) => match writeAt d.vf base [(0, teamHead s d t (saveCause s th) ((t.stop.bind (·.at_)).getD s.ns))] s with
  | (.ok _, s) => writeGroups d.vf base t (s.teamGroups th) s
  | x => x

/-! ### What a save leaves (R256, R258) -/

/-- Every outstanding result of a group lands. -/
def settleGroup (s : State) (h : Nat) : State :=
  match s.group h with
  | some g => s.setGroup h (g.flush 0xFF)
  | none => s

/-- A saved path stands before its next instruction: a suspended one before its suspending instruction, at the FIFO's tail, or in the slot
of serial mode's runs where it is one (R258, log entry 22). -/
def Group.asSaved (g : Group) (i : BitVec 3) : Group :=
  match g.paths.rd i with
  | none => g
  | some p =>
    let q := { p with st := if p.st = .held then PathSt.held else PathSt.ready, win := [], age := 0, young := false, stopped := none,
                      tried := [], again := none, code := [], lost := none, atFrame := none }
    let g := g.setPath i q
    match p.st with
    | .susp _ => g.rejoin i
    | _ => g

/-- Teams that leave the mesh together with one. -/
def saveSet (s : State) (th : Nat) : List (Nat × Team) :=
  match s.team th with
  | none => []
  | some t => s.teams.filter fun e => e.2.core.isSome && together s th t e

def settleTeam (s : State) (e : Nat × Team) : State := (s.teamGroups e.1).foldl (fun s g => settleGroup s g.1) s

/-- What a kind-0 save does not write is gone (R62). -/
def Group.trim (g : Group) (live : W64) : Group :=
  { g with
    v := Bank.gen fun n => if blockLive g live (n.toNat / 8) then g.v.rd n else Bank.fill 0,
    k := Bank.gen fun i => if i = 0 then 0xFF else if predLive live i.toNat then g.k.rd i else 0,
    t := Bank.gen fun i => if tileLive g live i.toNat then g.t.rd i else Bank.fill 0,
    q := Bank.gen fun i => if handleLive live i.toNat then g.q.rd i else 0 }

/-- A group whose context is written; its copies hold no line while it is saved (12 R286). -/
def Group.afterSave (g : Group) : Group :=
  let g := allPaths.foldl Group.asSaved (g.trim (saveKind g).2)
  { g with copies := Bank.gen fun d => { g.copies.rd d with claims := [], held := false } }

/-- Copies that run. -/
def Group.running (g : Group) : List DReg := allD.filter fun d => (g.copies.rd d).st == .running

/-- A team whose context is written leaves its core. -/
def leaveCore (s : State) (th : Nat) : State :=
  match s.team th with
  | none => s
  | some t =>
    let hs := (s.teamGroups th).map (·.1)
    let vf := match s.grid t.grid with | some d => d.vf | none => 0
    let s := (s.teamGroups th).foldl (fun s e => allPaths.foldl (fun s i => cancelAsks s (.path ⟨e.1, i⟩))
      (e.2.running.foldl (fun s d => tellClaims s vf (e.2.copies.rd d) .cancel) s)) s
    let s := { s with groups := s.groups.map (fun e : Nat × Group => if e.2.team == th then (e.1, e.2.afterSave) else e),
                      vgrowQ := s.vgrowQ.filter fun q => !hs.contains q.2.g }
    (s.setTeam th { t with core := none, stop := none, saved := true }).count vf 25 1

def writeContexts : List (Nat × Team) → State → Dev Unit × State
  | [], s => (.ok (), s)
  | (h, t) :: rest, s => match s.grid t.grid with
    | some d => match writeContext s h t d with
      | (.ok _, s) => writeContexts rest s
      | x => x
    | none => writeContexts rest s

/-- Whether a path waits for other modules in what cannot be taken back: not one whose accesses they have yet to translate, which a pre-emption
takes before its instruction (14 R312). -/
def committed (s : State) (r : PathRef) (p : Path) : Bool :=
  match p.st with
  | .remote w => !(w.stage == 0 && (asksOf s (.path r)).all fun a => a.2.holds)
  | _ => false

/-- A group that has stopped: its engine work is done, its copies stand at tile boundaries, no traversal runs, no answer is on its way to what has
performed elsewhere, and each path in a slot has stopped where its request asks it to (R256, 08 R238). -/
def groupStopped (s : State) (q : StopReq) (h : Nat) (g : Group) : Bool :=
  g.ops.isEmpty && (g.running.all fun d => (g.copies.rd d).tile.isNone) && (allPaths.all fun i => (g.pairs.rd i).isNone) &&
    (allPaths.all fun i => match g.paths.rd i with | some p => !committed s ⟨h, i⟩ p | none => true) &&
    g.slots.all fun i => match g.paths.rd i with
      | some p => q.forced || p.stopped.isSome
      | none => true

/-- Whether every team that leaves with one has stopped. -/
def readyToSave (s : State) (th : Nat) : Bool :=
  match s.team th with
  | none => false
  | some t => t.core.isSome && (saveSet s th).all fun e => match e.2.stop with
    | some q => (s.teamGroups e.1).all fun g => groupStopped s q g.1 g.2
    | none => false

/-- The Bellwether count of a save is that of its beginning. -/
def stampSave (s : State) (e : Nat × Team) : State :=
  match e.2.stop with
  | some q => s.setTeam e.1 { e.2 with stop := some { q with at_ := some (q.at_.getD s.ns) } }
  | none => s

/-- TEAM_SAVE: the team, and those that leave with it, are saved once their contexts are performed. A save whose page waits for the host, or is
another module's, goes on when that has answered (14 R312). -/
def execTeamSave (th : Nat) (s : State) : Out :=
  if readyToSave s th then
    let set := saveSet s th
    let vf := match (s.team th).bind fun t => s.grid t.grid with | some d => d.vf | none => 0
    let s := set.foldl stampSave (set.foldl settleTeam s)
    match writeContexts (saveSet s th) s with
    | (.ok _, s) => .next ((set.map (·.1)).foldl leaveCore s)
    | (.wait, t) => .next (keepAsks s t)
    | (.dead c, s) => .next (endContext s vf c 0)
    | (.fail, s) => .next (endContext s vf cKilled 0)
  else .next s

/-- SPWIN_EXPIRY: what has not stopped stops at its next instruction boundary. -/
def execSpwinExpiry (th : Nat) (s : State) : Out :=
  match s.team th with
  | some t => match t.stop, t.core with
    | some q, some core =>
      .next (if !q.forced && decide (q.until_ ≤ s.cycle core) then s.setTeam th { t with stop := some { q with forced := true } } else s)
    | _, _ => .next s
  | none => .next s

/-- Stops a team, and those that leave with it, at an instruction boundary, every group saved as kind 1. -/
def forceStop (s : State) (th : Nat) : State :=
  (saveSet s th).foldl (fun s e =>
    let s := s.setTeam e.1 { e.2 with stop := some { until_ := 0, forced := true } }
    (s.teamGroups e.1).foldl (fun s g =>
      s.setGroup g.1 (allPaths.foldl (fun k i => match k.paths.rd i with
        | some p => k.setPath i { p with stopped := none }
        | none => k) g.2)) s) s

/-! ### Restoring (R62, R238, R247, R258) -/

def allZero (d : List W8) (rs : List (Nat × Nat)) : Bool := rs.all fun r => field d r.1 r.2 == 0

def optIx {n : Nat} (b : Nat) : Option (BitVec n) := if b = 0xFF then none else some (BitVec.ofNat n b)

def readScalars (d : List W8) (o : Nat) : Bank 6 W64 := Bank.gen fun n => if n = 0 then 0 else BitVec.ofNat 64 (field d (o + 8 * n.toNat) 8)

def readPath (d : List W8) (i : BitVec 3) (old : Option Path) : Option Path :=
  let o := 0x100 + 64 * i.toNat
  let st := field d (o + 3) 1
  if st = 0 then none
  else
    let p := old.getD (Path.start 0 [] 0)
    let rcv := BitVec.ofNat 64 (field d (o + 16) 8)
    some { p with mask := BitVec.ofNat 8 (field d o 1), depth := field d (o + 1) 1, join := optIx (field d (o + 2) 1),
                  sup := nbit (field d (o + 4) 1) 0, fcause := BitVec.ofNat 8 (field d (o + 5) 1), pc := BitVec.ofNat 64 (field d (o + 8) 8) &&& ~~~7#64,
                  rcv := if rcv = BitVec.allOnes 64 then none else some rcv, written := BitVec.ofNat 64 (2 * field d (o + 24) 8),
                  fpc := BitVec.ofNat 64 (field d (o + 32) 8), s := readScalars d (0x300 + 512 * i.toNat),
                  st := if st = 4 then .held else .ready }

def readJoin (d : List W8) (j : BitVec 4) (old : Option Join) : Option Join :=
  let o := 0x1300 + 544 * j.toNat
  if field d (o + 4) 1 = 0 then none
  else
    let r := old.getD { prcv := none, pjoin := none, pdepth := 0, base := Bank.fill 0, baseW := 0, owed := 0, arrived := 0, arr := [], npc := 0 }
    let rcv := BitVec.ofNat 64 (field d (o + 8) 8)
    some { r with owed := BitVec.ofNat 8 (field d o 1), arrived := BitVec.ofNat 8 (field d (o + 1) 1), pdepth := field d (o + 2) 1,
                  pjoin := optIx (field d (o + 3) 1), prcv := if rcv = BitVec.allOnes 64 then none else some rcv,
                  baseW := BitVec.ofNat 64 (2 * field d (o + 16) 8), base := readScalars d (o + 32) }

def readBar (b : Nat) : Option Bar :=
  if !nbit b 7 then none else if nbit b 5 then some (.cluster (BitVec.ofNat 2 b)) else some (.team (BitVec.ofNat 4 b))

def readCopySt (n : Nat) : CopySt :=
  match n % 4 with
  | 0 => .idle | 1 => .running | 2 => .done | _ => .faulted

def readCopy (d : List W8) (i : DReg) (old : Copy) : Copy :=
  let o := 0x3800 + 128 * i.toNat
  { old with st := readCopySt (field d o 1), dir := cdirOf (BitVec.ofNat 3 (field d (o + 1) 1)), bar := readBar (field d (o + 2) 1),
             tcause := BitVec.ofNat 8 (field d (o + 3) 1), tag := BitVec.ofNat 16 (field d (o + 4) 2), laddr := BitVec.ofNat 64 (field d (o + 8) 8),
             origin := Bank.gen fun k => BitVec.ofNat 32 (field d (o + 16 + 4 * k.toNat) 4), cursor := field d (o + 32) 4,
             faddr := BitVec.ofNat 64 (field d (o + 40) 8), desc := BitVec.ofNat 512 (field d (o + 64) 64), held := false }

/-- Arrivals that the context says the copies owe: a barrier's go to the copies that name it, one each and the rest to the last, as each completes
(R238; which copy applies how many is the model's choice, log entry 13). -/
def readOwes (d : List W8) (cs : Bank 3 Copy) : Bank 3 Copy :=
  let fields : List (Bar × Nat) := (allJoins.map fun b => (Bar.team b, 0x35C0 + 2 * b.toNat)) ++
    ([0, 1, 2, 3] : List (BitVec 2)).map fun b => (Bar.cluster b, 0x35E0 + 2 * b.toNat)
  fields.foldl (fun cs x =>
    let n := field d x.2 2
    let mine := allD.filter fun i => copyNames (cs.rd i) x.1
    (mine.zip (List.range mine.length)).foldl (fun cs i =>
      let k := if i.2 + 1 = mine.length then n - i.2 else if i.2 < n then 1 else 0
      cs.wr i.1 { cs.rd i.1 with owes := k }) cs) cs

/-- Serial mode that a context sets and the group was not in: a run of the path in slot A, whose lanes are all that is left (log entry 13). -/
def newSerial (d : List W8) (paths : Bank 3 (Option Path)) : Option Serial :=
  let i : BitVec 3 := (optIx (field d 14 1)).getD 0
  (paths.rd i).map fun p =>
    { p := i, rs := p.rcv.getD (BitVec.allOnes 64), lanes := p.mask ||| BitVec.ofNat 8 (field d 13 1), next := Bank.fill 0, todo := 0,
      rcv := p.rcv, join := p.join, depth := p.depth, base := p.s, baseW := p.written, sup := p.sup, fcause := p.fcause, fpc := p.fpc, arr := [],
      npc := 0, steps := p.stepN }

/-- Serial mode as the context gives it: whether it lasts, the next PCs, and the lanes that have run (R238, 04 R103). -/
def readSerial (d : List W8) (paths : Bank 3 (Option Path)) (was : Option Serial) : Option Serial :=
  if !nbit (field d 0 1) 1 then none
  else (was.orElse fun _ => newSerial d paths).bind fun z =>
    let done := BitVec.ofNat 8 (field d 13 1)
    let cur : Mask := match paths.rd z.p with
      | some p => if p.sup == z.sup then p.mask else match p.entry with | some e => e.mask | none => p.mask
      | none => 0
    some { z with next := Bank.gen fun l => BitVec.ofNat 64 (field d (0x90 + 8 * l.toNat) 8) &&& ~~~7#64,
                  todo := z.lanes &&& ~~~done &&& ~~~cur, arr := z.arr.filter fun a => a.mask &&& ~~~done = 0 }

/-- A lane run of serial mode that was saved without a slot takes the one that the runs hold: nothing fills a slot from the FIFO there (R258, log
entry 22). -/
def Group.seatRun (g : Group) : Group :=
  match g.ser with
  | some z => if g.fifo.contains z.p then (g.unqueue z.p).rejoin z.p else g
  | none => g

/-- A group as its context gives it; what is not live reads as R62 says. -/
def readGroup (g : Group) (d : List W8) : Group :=
  let live := BitVec.ofNat 64 (field d 0x20 8)
  let g0 := { g with uchk := nbit (field d 0 1) 0, vwin := field d 8 2, smask := BitVec.ofNat 8 (field d 10 1), acc := field d 12 1,
                     sbase := BitVec.ofNat 64 (field d 16 8), frameb := BitVec.ofNat 64 (field d 24 8),
                     rngs := Bank.gen fun l => BitVec.ofNat 32 (field d (0x30 + 4 * l.toNat) 4),
                     faddr := Bank.gen fun l => BitVec.ofNat 64 (field d (0x50 + 8 * l.toNat) 8) }
  let paths : Bank 3 (Option Path) := Bank.gen fun i => readPath d i (g.paths.rd i)
  let stOf (i : BitVec 3) : Nat := field d (0x103 + 64 * i.toNat) 1
  let live0 : List (BitVec 3) := [optIx (field d 14 1), optIx (field d 15 1)].filterMap id
  let waits (i : BitVec 3) : Bool := (stOf i == 2 || stOf i == 3) && !live0.contains i
  Group.seatRun { g0 with
    paths := paths,
    joins := Bank.gen fun j => readJoin d j (g.joins.rd j),
    slotA := optIx (field d 14 1), slotB := optIx (field d 15 1),
    fifo := g.fifo.filter waits ++ allPaths.filter fun i => waits i && !g.fifo.contains i,
    ser := readSerial d paths g.ser,
    k := Bank.gen fun i => if i = 0 then 0xFF else if predLive live i.toNat then BitVec.ofNat 8 (field d (0x3500 + i.toNat) 1) else 0,
    x := Bank.gen fun i => Bank.gen fun l => BitVec.ofNat 32 (field d (0x3520 + 32 * i.toNat + 4 * l.toNat) 4),
    q := Bank.gen fun i => if handleLive live i.toNat then BitVec.ofNat 64 (field d (0x35A0 + 8 * i.toNat) 8) else 0,
    d := Bank.gen fun i => BitVec.ofNat 512 (field d (0x3600 + 64 * i.toNat) 64),
    copies := readOwes d (Bank.gen fun i => readCopy d i (g.copies.rd i)),
    v := Bank.gen fun n => Bank.gen fun l =>
      if blockLive g0 live (n.toNat / 8) then BitVec.ofNat 32 (field d (0x3C00 + 32 * n.toNat + 4 * l.toNat) 4) else 0,
    t := Bank.gen fun i => Bank.gen fun n =>
      if tileLive g0 live i.toNat then BitVec.ofNat 32 (field d (0x5C00 + 1024 * i.toNat + 4 * n.toNat) 4) else 0 }

def readBarrier (d : List W8) (o : Nat) : Barrier :=
  { valid := field d o 1 != 0, phase := nbit (field d (o + 1) 1) 0, expect := field d (o + 2) 2, count := field d (o + 4) 2 }

/-- Reads ranges of a VF's memory in order, to the first that cannot be read. -/
def readRanges (vf : Nat) : List (Nat × Nat) → State → Dev (List (List W8)) × State
  | [], s => (.ok [], s)
  | (a, n) :: rest, s => match s.devRead vf a n with
    | (.ok d, s) => match readRanges vf rest s with
      | (.ok ds, s) => (.ok (d :: ds), s)
      | x => x
    | (.wait, s) => (.wait, s)
    | (.dead c, s) => (.dead c, s)
    | (.fail, s) => (.fail, s)

/-- G and SH of a context's head, which say where the rest of it lies. -/
def headGroups (b : List W8) : Nat := field b 2 1
def headShared (b : List W8) : Nat := field b 0x14 4

/-- The ranges of a team's context behind its head: its shared memory, then each of its groups. -/
def contextRanges (d : Grid) (t : Team) (b : List W8) : List (Nat × Nat) :=
  let base := contextAt d t
  (base + 1024, headShared b) :: (List.range (headGroups b)).map fun g => (base + 1024 + headShared b + 32768 * g, 32768)

/-- Whether software has left the format field and the zero bytes of a context as they were. -/
def contextOk (b : List W8) (gs : List (List W8)) : Bool := field b 0 2 == 1 && allZero b headZeros && gs.all fun d => allZero d groupZeros

/-- A team as the head of its context and its shared memory give it (R238). Flag [2] and the save cause report the save alone. -/
def readHead (t : Team) (b sh : List W8) : Team :=
  { t with strip := nbit (field b 0x12 2) 0, bars := Bank.gen fun i => readBarrier b (0x100 + 8 * i.toNat), gcount := headGroups b,
           size := headShared b, shared := Memory.write [] 0 sh,
           ids := some { teamid := field b 3 1, gridid := BitVec.ofNat 32 (field b 4 4), clid := BitVec.ofNat 64 (field b 8 8),
                         vfid := BitVec.ofNat 16 (field b 0x10 2), coop := nbit (field b 0x12 2) 1, krec := BitVec.ofNat 64 (field b 0x18 8),
                         rec_ := BitVec.ofNat 64 (field b 0x20 8) } }

/-- A group of a team: the one that was saved, or, where G has grown, a new one. -/
def groupFor (s : State) (th : Nat) (t : Team) (d : Grid) (gid : Nat) : State × Nat × Group :=
  match (s.teamGroups th).find? fun g => g.2.gid == gid with
  | some g => (s, g.1, g.2)
  | none =>
    let g := Group.start th gid (t.lin * d.kernel.groups + gid) 0 16 0 d.kernel.spill d.launch.seed d.launch.code 0 0 [] d.q s.bell.toNat
    ({ s with handle := s.handle + 1 }, s.handle, g)

/-- A team and its groups take what its context holds; groups beyond G are gone; its cluster's barriers come from TEAMID 0. -/
def readTeam (d : Grid) (s : State) (e : Nat × Team) (b : List W8) (ds : List (List W8)) : State :=
  let t := e.2
  let s := s.setTeam e.1 (readHead t b (ds.headD []))
  let s := match s.cluster t.cluster with
    | some c => if t.teamid = 0 then s.setCluster t.cluster { c with cbars := Bank.gen fun i => readBarrier b (0x180 + 8 * i.toNat) } else s
    | none => s
  let s := { s with groups := s.groups.filter fun g => !(g.2.team == e.1 && decide (headGroups b ≤ g.2.gid)) }
  ((List.range (headGroups b)).zip (ds.drop 1)).foldl (fun s x =>
    let (s, h, g) := groupFor s e.1 t d x.1
    s.setGroup h (readGroup g x.2)) s

/-- What reading the contexts of some teams came to: a state with what they hold, or one in which software has changed what must stand. -/
def readTeams (d : Grid) : List (Nat × Team) → State → Dev State × State
  | [], s => (.ok s, s)
  | e :: rest, s => match s.devRead d.vf (contextAt d e.2) 1024 with
    | (.wait, s) => (.wait, s)
    | (.dead c, s) => (.dead c, s)
    | (.fail, s) => (.fail, s)
    | (.ok b, s) => match readRanges d.vf (contextRanges d e.2 b) s with
      | (.wait, s) => (.wait, s)
      | (.dead c, s) => (.dead c, s)
      | (.fail, s) => (.fail, s)
      | (.ok ds, s) =>
        if !contextOk b (ds.drop 1) then (.fail, s)
        else match readTeams d rest s with
          | (.ok t, s) => (.ok (readTeam d t e b ds), s)
          | x => x

/-- A saved team goes to a core, in new group slots. -/
def seatTeam (core : Nat) (s : State) (th : Nat) : State :=
  match s.team th with
  | none => s
  | some t =>
    let slots := freeSlots s core t.gcount
    let s := (s.teamGroups th).foldl (fun s g => s.setGroup g.1 { g.2 with slot := slots.getD g.2.gid 0 }) s
    { s.setTeam th { t with core := some core, last := core, saved := false, placed := s.handle } with handle := s.handle + 1 }

/-- The teams of a cluster by TEAMID. -/
def clusterByTeam (s : State) (ch : Nat) : List (Nat × Team) :=
  let ts := s.teams.filter fun e => e.2.cluster == ch
  (List.range (ts.foldl (fun n e => max n (e.2.teamid + 1)) 0)).filterMap fun k => ts.find? fun e => e.2.teamid == k

def isSaved (s : State) (ch : Nat) : Bool := (clusterByTeam s ch).any fun e => e.2.saved

/-- Places a saved cluster whose contexts have been read, on the first rectangle that takes it. -/
def seatCluster (s : State) (gh : Nat) (d : Grid) (ch : Nat) : Option State :=
  let ts := clusterByTeam s ch
  let need (k : Nat) : Need := match ts.find? fun e => e.2.teamid == k with
    | some e => teamNeed s e.1 e.2
    | none => ⟨0, 0, 0, 0⟩
  (findRect d.kernel.cw d.kernel.ch fun k c => coreTakes s gh d true c (need k)).map fun cs =>
    let s := ts.foldl (fun s e => seatTeam (cs.getD e.2.teamid 0) s e.1) s
    let s := ts.foldl (fun s e => (s.teamGroups e.1).foldl (fun s g => allD.foldl (fun s d => retakeLines s g.1 d) s) s) s
    match s.cluster ch with
    | some c => s.setCluster ch { c with reclaim := false, front := 0 }
    | none => s

def seatClusters (gh : Nat) (d : Grid) : List Nat → State → Option State
  | [], s => some s
  | c :: rest, s => match seatCluster s gh d c with
    | some s => seatClusters gh d rest s
    | none => none

/-- Puts a number in an ascending list. -/
def insertNat (l : List Nat) (n : Nat) : List Nat := l.takeWhile (· ≤ n) ++ n :: l.dropWhile (· ≤ n)

/-- Saved clusters of a grid: those of reclaimed cores first (20 R403), then those that the deadlock breaker has put at the head, the latest
first (R255), then in ascending index. -/
def savedClusters (s : State) (gh : Nat) : List Nat :=
  let cs := s.clusters.filter fun e => e.2.grid == gh && isSaved s e.1
  let ix (c : Nat × Cluster) : Nat := c.2.index
  let ordered (l : List (Nat × Cluster)) : List Nat :=
    ((l.map ix).foldl insertNat []).filterMap fun i => (l.find? fun c => ix c == i).map (·.1)
  let heads (l : List (Nat × Cluster)) : List Nat :=
    (((l.map fun c => c.2.front).foldl insertNat []).reverse).filterMap fun i => (l.find? fun c => c.2.front == i).map (·.1)
  let rest := cs.filter fun c => !c.2.reclaim
  ordered (cs.filter fun c => c.2.reclaim) ++ heads (rest.filter fun c => c.2.front != 0) ++ ordered (rest.filter fun c => c.2.front == 0)

/-- What a restore came to. -/
inductive Restored where
  | placed (s : State)
  | noRoom
  | waits (s : State)
  | killed (s : State)

/-- Restores the first saved cluster of a grid, or all of them where it is cooperative (16 R345). Contexts are read once there is room. -/
def restoreGrid (s : State) (gh : Nat) : Restored :=
  match s.grid gh with
  | none => .noRoom
  | some d =>
    let cs := if d.launch.coop then savedClusters s gh else (savedClusters s gh).take 1
    if cs.isEmpty ∨ (seatClusters gh d cs s).isNone then .noRoom
    else match readTeams d (cs.flatMap (clusterByTeam s)) s with
      | (.fail, s) => .killed (endContext s d.vf cKilled 0)
      | (.dead c, s) => .killed (endContext s d.vf c 0)
      | (.wait, t) => .waits (keepAsks s t)
      | (.ok t, _) => match seatClusters gh d cs t with
        | some s => .placed s
        | none => .noRoom

/-! ### The deadlock breaker (R255) -/

/-- A path that waits as R255 lists. -/
def waitsHere (p : Path) : Bool :=
  match p.st with
  | .susp (.vgrow _ _) => true
  | .susp (.btry _ _ _ _ _) => true
  | .ready => !p.tried.isEmpty
  | _ => false

def deadlocked (s : State) (core : Nat) : Bool :=
  (match headRequest s core with
   | some (_, n, _) => !canGrant s core n.toNat
   | none => false) &&
  (coreTeams s core).all fun t => t.2.stop.isNone && (s.teamGroups t.1).all fun g => allPaths.all fun i => match g.2.paths.rd i with
    | some p => waitsHere p
    | none => true

/-- Resident teams outside cooperative grids, for which another team's request waits; strip-class teams only where no other is. -/
def breakCandidates (s : State) (core : Nat) : List (Nat × Team) :=
  let asks := (s.vgrowQ.filter fun q => q.1 == core).filterMap fun q => (s.group q.2.g).map (·.team)
  let cs := (coreTeams s core).filter fun t =>
    !(match s.grid t.2.grid with | some d => d.launch.coop | none => false) && asks.any (· != t.1)
  let plain := cs.filter fun t => !t.2.strip
  if plain.isEmpty then cs else plain

/-- DEADLOCK_BREAK: the newest candidate is stopped to be saved, or the head request starves. -/
def execDeadlockBreak (core : Nat) (s : State) : Out :=
  if deadlocked s core then
    match breakCandidates s core with
    | [] => match headRequest s core with
      | some (r, _, _) => match s.path r with
        | some (_, p) =>
          let s := { s with vgrowQ := s.vgrowQ.filter fun q => q.2 != r }
          .next (faultSuspended s r (FaultInfo.of cStarve p.mask))
        | none => .next s
      | none => .next s
    | t :: rest =>
      let best := rest.foldl (fun b e => if b.2.placed < e.2.placed then e else b) t
      let s := match s.cluster best.2.cluster with
        | some c => { s.setCluster best.2.cluster { c with front := s.handle } with handle := s.handle + 1 }
        | none => s
      .next (forceStop s best.1)
  else .next s

end Sys2Proof.Machine
end

