-- ==== Sys2Proof/Machine/Wake.lean ====
section
/-! DEFINITION. What ends a wait: barriers and watched words (06 R166, R167, 07 R193), landing results (05 R121), slots (10 R249), walks
and migrations (14 R305, R312, R318), and the end of a team (10 R248). -/

namespace Sys2Proof.Machine

/-! ### waita, btry (R166, R167, R193) -/

/-- What a meaning would see of a suspended path that returns. -/
def wakeCx (s : State) (r : PathRef) (g : Group) (p : Path) (npc : W64) : Cx :=
  { r := r, g := g, p := { p with st := .ready }, em := p.mask, pc := p.pc, npc := npc, vf := s.vfOf g, woken := true }

/-- The word is read again as the suspension ends; where that waits for another module, a walk or an engine, or raises a cause, the path does
it when it next issues (R166). -/
def wakeWaita (r : PathRef) (s : State) : State :=
  match s.path r with
  | none => s
  | some (g, p) =>
    match p.st with
    | .susp (.waita o npc _) =>
      let c := wakeCx s r g p npc
      let z := sizeBytes o.z
      let again : State := wakePath s r fun g p => (g, { p with again := p.again.map fun i => (i.1, true) })
      match check c s (some p.mask) o.sp z z .rd true false (scalarReq c o.a o.off) with
      | .ok l =>
        if l.off = 0 ∧ (l.at_.all fun q => match q.2 with | .here _ => true | .remote _ => false) then
          let v := leNat (firstData l.s l [] z)
          wakePath l.s r fun g p => (g, { (p.setS o.d (BitVec.ofNat 64 v)).completes g with pc := npc, again := none })
        else again
      | .error _ => again
    | _ => s

def execWaitaWake (r : PathRef) (s : State) : Out := .next (wakeWaita r s)

/-- Core cycles since a path suspended. -/
def waited (s : State) (g : Group) (since : Nat) : Bool := decide (since + Config.waitCycles ≤ cycleOf s g)

/-- The moment a `waita`, `btry` or `cbtry` suspended. -/
def sinceOf (p : Path) : Option Nat :=
  match p.st with
  | .susp (.waita _ _ n) => some n
  | .susp (.btry _ _ _ _ n) => some n
  | _ => none

def timedOut (s : State) (r : PathRef) : Bool :=
  match s.path r with
  | some (g, p) => match sinceOf p with
    | some n => waited s g n
    | none => false
  | none => false

def execWaitaTimeout (r : PathRef) (s : State) : Out := .next (if timedOut s r then wakeWaita r s else s)

/-- A `btry` returns: K[D] says whether the phase has changed; a path that reads 0 polls the barrier (10 R255). -/
def wakeBtry (r : PathRef) (timeout : Bool) (s : State) : State :=
  match s.path r with
  | none => s
  | some (g, p) =>
    match p.st with
    | .susp (.btry b d want npc _) =>
      let phase := match s.bar g b with | some x => x.phase | none => want
      let yes := phase != want
      if yes || timeout then
        wakePath s r fun g p =>
          (g.setK d p.mask (if yes then 0xFF else 0), { p.completes g with pc := npc, tried := if yes then p.tried else b :: p.tried })
      else s
    | _ => s

def execBtryWake (r : PathRef) (s : State) : Out := .next (wakeBtry r false s)
def execBtryTimeout (r : PathRef) (s : State) : Out := .next (if timedOut s r then wakeBtry r true s else s)

/-! ### Results, slots -/

/-- A register of a result lands, whole in its lanes; the result is outstanding until every one has. -/
def Group.landReg (g : Group) (l : Land) (x : VReg × Lanes W32) : Group :=
  let left := l.regs.erase x
  { g.setV x.1 l.mask x.2 with
    lands := if left.isEmpty then g.lands.filter fun y => y.id != l.id else g.lands.map fun y => if y.id == l.id then { l with regs := left } else y }

/-- LOAD_LAND: one of its registers, in no fixed order. -/
def execLoadLand (h id : Nat) (s : State) : Out :=
  match s.group h with
  | none => .next s
  | some g => match g.lands.find? fun l => l.id == id with
    | some l => match l.regs[Config.pick s.free % l.regs.length]? with
      | some x => .next { s.setGroup h (g.landReg l x) with free := s.free + 1 }
      | none => .next (s.setGroup h { g with lands := g.lands.filter fun x => x.id != id })
    | none => .next s

/-- A group whose team is on a core and has not been asked to stop. -/
def goesOn (s : State) (g : Group) : Bool :=
  match s.team g.team with
  | some t => t.core.isSome && t.stop.isNone
  | none => false

/-- SLOT_FILL. -/
def execSlotFill (h : Nat) (s : State) : Out :=
  match s.group h with
  | some g => .next (if goesOn s g && g.canFill then s.setGroup h g.fill else s)
  | none => .next s

/-! ### Walks and migrations -/

/-- WALK_COMPLETE: the instruction that waited for the walk executes again. -/
def execWalkComplete (r : PathRef) (s : State) : Out :=
  match s.path r with
  | some (_, p) => .next (if p.st = .walkGo then settleHold (s.setPath r { p with st := .ready }) r else s)
  | none => .next s

def execMigrationCommit (id : Nat) (s : State) : Out :=
  match s.migrations.get id with
  | some m => .next (commitMigration s id m)
  | none => .next s

/-! ### The end of a team (R248) -/

/-- Tiles of a group that still close: those that a faulted copy does not keep open. -/
def closesLeft (g : Group) : Bool :=
  g.closing.any fun tag => !(allD.any fun d => (g.copies.rd d).st == .faulted && (g.copies.rd d).tag == tag)

def teamEnded (s : State) (th : Nat) : Bool :=
  (s.team th).isSome && (s.teamGroups th).all fun g => g.2.ended && !closesLeft g.2

/-- CAUSE of a team that ends by itself. -/
def exitCause (s : State) (th : Nat) : W8 :=
  let gs := s.teamGroups th
  if gs.any fun g => allD.any fun d => (g.2.copies.rd d).st == .faulted then cCopyFault
  else if gs.any fun g => g.2.smask != 0 then 0x19
  else 0

/-- TEAM_EXIT: the record, and the grid's end after its last team. -/
def execTeamExit (th : Nat) (s : State) : Out :=
  match s.team th with
  | none => .next s
  | some t =>
    if teamEnded s th then
      let s := writeExit s t.grid t.lin (exitCause s th) 0 (teamSmasks s th)
      .next (tryEndGrid (dropTeam s th) t.grid)
    else .next s

end Sys2Proof.Machine
end

