-- ==== Sys2Proof/Machine/Fabric.lean ====
section
/-! DEFINITION. Xasta messages: requests performed here, answers that come back, START and ABORT (14 R310, 16 R346-R350, 06 R150). -/

namespace Sys2Proof.Machine

/-! ### What a request translates (R302, R310, R347) -/

/-- Address, bytes and kind of a memory operation; none for a queue operation. -/
def opRange : RemoteOp → Option (W64 × Nat × Acc)
  | .read a n => some (a, n, .rd)
  | .fetch a => some (a, 8, .ex)
  | .write a d => some (a, d.length, .wr)
  | .claim a n | .line a n => some (a, n, .wr)
  | .atom a _ z _ => some (a, sizeBytes z, .rmw)
  | .cas a z _ _ => some (a, sizeBytes z, .rmw)
  | .enq _ _ | .probe _ | .eos _ | .slot _ | .unslot _ | .enqKept _ _ => none

/-- A page of a request in this module: a domain address through the tables of the VF, or memory that the sender's tables name, checked with the
Paddock of the VF (R302, R310, 20 R400). -/
def seekHere (s : State) (vf a : Nat) (k : Acc) : Xlat × State :=
  if isDomain a then look s vf a k
  else
    let pa := homePa s a
    if vf = noVf ∨ frameOk s (s.vf vf).paddock.toNat a k.writes = true then (.ok pa, s)
    else (.dead cKilled, logError s pa ((Config.value32 s.free).setWidth 8) (BitVec.ofNat 16 vf))

/-- Pages of a range, to the first that fails. -/
def reqPages (s : State) (vf : Nat) (k : Acc) : List (Nat × Nat) → Except Xlat (List (Loc × Nat)) × State
  | [] => (.ok [], s)
  | (a, n) :: rest =>
    match seekHere s vf a k with
    | (.ok pa, s) => match reqPages s vf k rest with
      | (.ok ps, s) => (.ok ((locOf pa, n) :: ps), s)
      | e => e
    | (x, s) => (.error x, s)

/-- What translating one operation came to. -/
abbrev OpX := Nat × RemoteOp × Except Xlat (List (Loc × Nat))

/-- Translates operations: all of them, or, of a payload, to the first page that fails (R322). -/
def translateOps (s : State) (vf : Nat) (all : Bool) : List (Nat × RemoteOp) → List OpX × State
  | [] => ([], s)
  | (l, o) :: rest =>
    match opRange o with
    | none =>
      let (xs, s) := translateOps s vf all rest
      ((l, o, .ok []) :: xs, s)
    | some (a, n, k) =>
      match reqPages s vf k (pagesOf a.toNat n) with
      | (.ok ps, s) =>
        let (xs, s) := translateOps s vf all rest
        ((l, o, .ok ps) :: xs, s)
      | (.error e, s) =>
        let (xs, s) := if all then translateOps s vf all rest else ([], s)
        ((l, o, .error e) :: xs, s)

/-- What arriving at this module came to: an answer, a wait, or what ends the sender's context (R400, R412; log entry 7). -/
inductive Served where
  | answer (a : Answer) (s : State)
  | wait (s : State)
  | dead (c : W8) (s : State)

/-- Memory operations whose pages have been translated, every one before any performs (R310): `f` goes on with what passed and the causes. Lines
that an engine will write are named, not accessed: those that do not translate are not owned (12 R284). -/
def allPass (s : State) (vf : Nat) (ops : List (Nat × RemoteOp))
    (f : State → List (Nat × RemoteOp × List (Loc × Nat)) → List (Nat × PieceAnswer) → Served) (all : Bool := true) : Served :=
  let (xs, s) := translateOps s vf all ops
  let ys := xs.filter fun x => !x.2.1.isLine
  match ys.findSome? fun x => match x.2.2 with | .error (.dead c) => some c | _ => none with
  | some c => .dead c s
  | none =>
    if xs.any fun x => match x.2.2 with | .error (.wait _ _) | .error .busy => true | _ => false then .wait s
    else f s (xs.filterMap fun x => match x.2.2 with | .ok ps => some (x.1, x.2.1, ps) | .error _ => none)
      (ys.filterMap fun x => match x.2.2 with | .error (.cause c) | .error (.remoteCause c) => some (x.1, .cause c) | _ => none)

/-! ### What it performs -/

/-- An operation that has passed, by key, with the places of its pages. -/
abbrev Passed := Nat × RemoteOp × List (Loc × Nat)

/-- What goes on to other modules: pages of operations whose frames lie there (12 R283, R293), by number among all pages. -/
def onward (ops : List Passed) : List (Nat × Nat × RemoteOp) :=
  let xs := numbered (ops.map fun o => .here o.2.2)
  xs.filterMap fun x => match x.loc.away, ops[x.ix]? with
    | some (m, a), some o => (o.2.1.part x.off x.len a).map fun p => (x.key, m, p)
    | _, _ => none

/-- The bytes that one operation brings back, and its effect; `old` holds what its pages held. -/
def performOp (s : State) (vf : Nat) (o : RemoteOp) (ps : List (Loc × Nat)) (old : List W8) : List W8 × State :=
  match o with
  | .read _ _ | .fetch _ | .claim _ _ => (old, s)
  | .write _ d => ([], s.writeLocs ps d)
  | .atom _ op z b => (old, s.writeLocs ps (natLe (sizeBytes z) (atomOp op (8 * sizeBytes z) (leNat old) b.toNat)))
  | .cas _ z b c => (old, s.writeLocs ps (natLe (sizeBytes z) (if leNat old = b.toNat then c.toNat else leNat old)))
  | .enqKept h r => ([], match localQueue s vf h with
    | .here n => (match s.queues.get n with | some q => pushQueue s n q.unkeep r | none => s)
    | _ => s)
  | .line _ _ | .enq _ _ | .probe _ | .eos _ | .slot _ | .unslot _ => ([], s)

/-- An operation reaches memory: it waits for engine operations, may meet an uncorrectable line, and sets D (R306, 12 R285, 20 R412). -/
def opArrives (s : State) (vf : Nat) (order : Option Nat) (walks : Bool) (x : Passed) : Option Xlat × State :=
  match opRange x.2.1 with
  | some (a, _, k) =>
    let at_ := physPages (pagesOf a.toNat (x.2.2.map (·.2)).sum) x.2.2
    arriveAll s vf k order (if isDomain a.toNat then at_.map (·.1) else []) (at_.map (·.2)) false
      (walks || match x.2.1 with | .claim _ _ => true | _ => false)
  | none => (none, s)

/-- Every operation reaches memory before any has its effect. -/
def opsArrive (s : State) (vf : Nat) (order : Option Nat) (walks : Bool) : List Passed → Option Xlat × State
  | [] => (none, s)
  | x :: rest =>
    if x.2.1.isLine then opsArrive s vf order walks rest
    else match opArrives s vf order walks x with
      | (none, s) => opsArrive s vf order walks rest
      | e => e

/-- Performs every operation in order; `ans` is what other modules have answered, by page from number `k`. -/
def performOps (s : State) (vf : Nat) (ans : List (Nat × PieceAnswer)) (k : Nat) : List Passed → List (Nat × PieceAnswer) × State
  | [] => ([], s)
  | (l, o, ps) :: rest =>
    let old := (ps.zip (List.range ps.length)).flatMap fun p => match p.1.1.away with
      | some _ => pieceData ans (k + p.2) p.1.2
      | none => s.readLoc p.1.1 p.1.2
    let (d, s) := performOp s vf o ps old
    let (ds, s) := performOps s vf ans (k + ps.length) rest
    ((l, .data d) :: ds, s)

/-- Performs operations that have passed, or waits for engine operations: all of them, or, of an engine's request, the earlier ones. What lies at a
third module is performed there first. -/
def performAll (s : State) (who : Asker) (vf : Nat) (order : Option Nat) (ops : List Passed) (walks : Bool := false) : Served :=
  let done (s : State) (ans : List (Nat × PieceAnswer)) : Served :=
    match opsArrive s vf order walks ops with
    | (some (.dead c), s) => .dead c (dropAsks s who)
    | (some _, s) => .wait s
    | (none, s) =>
      let (ds, s) := performOps s vf ans 0 ops
      .answer (.pieces (ds.filter fun d => !(ops.any fun o => o.1 == d.1 && o.2.1.isLine))) (dropAsks s who)
  if (onward ops).isEmpty then done s []
  else match farDo s who vf (onward ops) with
    | .wait s => .wait s
    | .got ans s => match causeOf ans with
      | some c => .dead c (dropAsks s who)
      | none => done s ans

/-! ### The phases of a request (R310) -/

def Held.is (h : Held) (src id : Nat) : Bool := h.src == src && h.id == id

def State.heldOf (s : State) (src id : Nat) : Option Held := s.held.find? fun h => h.is src id

def State.dropHeld (s : State) (src id : Nat) : State := { s with held := s.held.filter fun h => !h.is src id }

/-- What passes waits here; where lines are owned, from now on (12 R284). -/
def serveAsk (s : State) (m : Request) (own : Bool) (past : List Nat) (all : Bool := true) : Served :=
  allPass s m.vf m.ops (all := all) fun s ok bad =>
    let h : Held := { src := m.src, id := m.id, vf := m.vf, own := if own then some s.handle else none, past := past, ops := ok, freed := [] }
    let s := if ok.isEmpty then s else { s with held := s.held ++ [h], handle := s.handle + 1 }
    .answer (.pieces ((m.ops.filter fun o => !(bad.any fun b => b.1 == o.1)).map (fun o => (o.1, .pass)) ++ bad)) s

/-- The lines that a request does not wait for: its own, and those of the sender's requests that it passes. -/
def behind (s : State) (h : Held) : State := { s with held := s.held.filter fun x => !(x.src == h.src && (x.id == h.id || h.past.contains x.id)) }

/-- A record that takes a kept slot of a queue that is there no longer. -/
def Held.lostQueue (h : Held) (s : State) : Bool :=
  h.ops.any fun o => match o.2.1 with
    | .enqKept q _ => (match localQueue s h.vf q with | .here _ => false | _ => true)
    | _ => false

/-- What is held performs; lines and claims stay until the sender is done with them. -/
def serveGo (s : State) (m : Request) (id : Nat) : Served :=
  match s.heldOf m.src id with
  | none => .answer (.pieces []) s
  | some h =>
    let stays := h.ops.filter fun o => match o.2.1 with | .line _ _ | .claim _ _ => true | _ => false
    if h.lostQueue s then .answer .badHandle (s.dropHeld m.src id)
    else match performAll (behind s h) (.fwd m.src m.id) h.vf h.own h.ops with
    | .answer a t =>
      let held := if stays.isEmpty then (s.dropHeld m.src id).held else s.held.map fun x => if x.is m.src id then { x with ops := stays } else x
      .answer a { t with held := held }
    | .wait t => .wait { t with held := s.held }
    | .dead c t => .dead c { t with held := s.held }

/-- A traversal's record is written where its claims lie (07 R204). -/
def serveFinish (s : State) (m : Request) (id : Nat) (parts : List (Nat × List W8)) : Served :=
  match s.heldOf m.src id with
  | none => .answer (.pieces []) s
  | some h =>
    let ops : List Passed := h.ops.filterMap fun o => match o.2.1 with
      | .claim a _ => (parts.find? fun p => p.1 == o.1).map fun p => (o.1, .write a p.2, o.2.2)
      | _ => none
    match performAll (behind s h) (.fwd m.src m.id) h.vf h.own ops true with
    | .answer a t => .answer a ({ t with held := s.held }.dropHeld m.src id)
    | .wait t => .wait { t with held := s.held }
    | .dead c t => .dead c { t with held := s.held }

/-- Bytes of a request's lines that their operation has given up. -/
def serveRelease (s : State) (m : Request) (id : Nat) (keys : List Nat) : State :=
  { s with held := s.held.map fun h => if h.is m.src id then
      { h with freed := h.freed ++ (h.ops.filter fun o => keys.contains o.1).flatMap fun o => o.2.2 } else h }

/-- A queue operation on a queue of this module (R335, 07 R213). -/
def serveQueue (s : State) (m : Request) (h : W64) (f : Nat → HwQueue → Answer × State) : Served :=
  match localQueue s m.vf h with
  | .here n => match s.queues.get n with
    | some q => let (a, s) := f n q; .answer a s
    | none => .answer .badHandle s
  | _ => .answer .badHandle s

/-- What a request at this module comes to (R310, R347). -/
def serve (s : State) (m : Request) : Served :=
  match m.ops with
  | [(_, .enq h r)] => serveQueue s m h fun n _ => match enqueue s n r with
    | some s => (.queue false, s)
    | none => (.queue true, queueEvent s n 1 m.g.toNat)
  | [(_, .probe h)] => serveQueue s m h fun _ _ => (.queue false, s)
  | [(_, .eos h)] => serveQueue s m h fun n q => (.queue false, s.setQueue n q.post)
  | [(_, .slot h)] => serveQueue s m h fun n q => if q.full then (.queue true, queueEvent s n 1 m.g.toNat) else (.queue false, s.setQueue n q.keep)
  | [(_, .unslot h)] => serveQueue s m h fun n q => (.queue false, s.setQueue n q.unkeep)
  | [(_, .enqKept h r)] => serveQueue s m h fun n q => (.queue false, pushQueue s n q.unkeep r)
  | ops => match m.mode with
    | .ask own past => serveAsk s m own past
    | .go id => serveGo s m id
    | .payload => serveAsk s m false [] false
    | .finish id parts => serveFinish s m id parts
    | .release id keys => .answer (.pieces []) (serveRelease s m id keys)
    | .cancel id => .answer (.pieces []) { s.dropHeld m.src id with
        inbox := s.inbox.filter fun a => match a with | .event (.remoteRequest r) => !(r.src == m.src && r.id == id) | _ => true }
    | .once => allPass s m.vf ops fun s ok bad => if bad.isEmpty then performAll s (.fwd m.src m.id) m.vf none ok else .answer (.pieces bad) s

/-- The answer goes back, where the sender waits for one. -/
def respond (s : State) (m : Request) (a : Answer) : State := if m.id = 0 then s else (s.flitOut m.vf).send (.response m.src m.id a)

/-- Waits at this module, in the order of arrival: it is tried again. -/
def intoInbox (s : State) (a : Action) : State := if s.inbox.contains a then s else { s with inbox := s.inbox ++ [a] }
def outOfInbox (s : State) (a : Action) : State := { s with inbox := s.inbox.filter (· != a) }

/-- REMOTE_REQUEST: performed once; it may wait for the host, a walker or an engine operation. What ends a context ends the sender's, which
the answer tells (log entry 7); an uncorrectable table of this module ends those of its Paddock too (20 R412). -/
def execRemoteRequest (m : Request) (s : State) : Out :=
  let a : Action := .event (.remoteRequest m)
  match serve s m with
  | .answer x s => .next (respond (outOfInbox (s.flitIn m.vf) a) m x)
  | .wait s => .next (intoInbox s a)
  | .dead c s =>
    let s := if c = cTableError then endContext s m.vf c 0 else s
    .next (respond (outOfInbox (s.flitIn m.vf) a) m (.pieces [(0, .cause (if c = cTableError then 0x40 else c))]))

/-! ### Answers -/

/-- A cause in an answer that ends the context whose request it is. -/
def fatalCause (a : Answer) : Option W8 :=
  (keyed [a]).findSome? fun x => match x.2 with | .cause c => if c = cKilled ∨ c = 0x40 then some c else none | _ => none

/-- REMOTE_RESPONSE: the answer to a request under way; who waits for it goes on when every module has answered. What ends a context ends that of a
request that is forwarded at its sender. -/
def execRemoteResponse (id : Nat) (a : Answer) (s : State) : Out :=
  match s.asks.get id with
  | none => .next s
  | some k =>
    let fatal := match k.who with | .fwd _ _ => none | _ => fatalCause a
    match k.ans, fatal with
    | some _, _ => .next s
    | none, some c => .next (endContext { s.flitIn k.vf with asks := s.asks.del id } k.vf c 0)
    | none, none => .next { s.flitIn k.vf with asks := s.asks.put id { k with ans := some a } }

def cFabric : W8 := 0x18

/-- The VF that a request under way is for; a migration's is its page's. -/
def askVf (s : State) (k : Ask) : Nat :=
  match k.who with
  | .migr id => match s.migrations.get id with | some m => m.vf | none => k.vf
  | _ => k.vf

/-- Whether a request has been unanswered for FABTO: that of the Paddock of its VF, DESIGN CHOICE, since R347 sets FABTO per module and 20 R407
with a command that names a Paddock (log entry 46). The sender of a request that is forwarded times it. -/
def fabricLate (s : State) (id : Nat) : Bool :=
  match s.asks.get id with
  | some k => k.ans.isNone && (match k.who with | .fwd _ _ => false | _ => true) &&
      decide (k.since + (s.pad (s.vf (askVf s k)).paddock.toNat).timers.fabto.toNat * 2 ^ 32 ≤ s.bell.toNat)
  | none => false

/-- A migration whose copy another module does not answer stays where it is, unless its destination is being written (log entry 9). -/
def abandonMigration (s : State) (k : Ask) : State :=
  match k.who with
  | .migr id => match s.migrations.get id with
    | some m =>
      if m.phase = .writing then s
      else
        let s := { setMs s m.leaf 0 with migrations := s.migrations.del id }
        match m.driver with
        | some c => migrateDone s c 4
        | none => s
    | none => s
  | _ => s

/-- FABRIC_TIMEOUT. -/
def execFabricTimeout (id : Nat) (s : State) : Out :=
  match s.asks.get id with
  | none => .next s
  | some k =>
    .next (if fabricLate s id then endContext { abandonMigration s k with asks := s.asks.del id } (askVf s k) cFabric 0 else s)

/-! ### Domain launches (R348-R350) -/

/-- A copy of a generation that has been taken and has not started. -/
def waitingCopy (s : State) (vf : Nat) (gen : W32) : Option (Nat × Grid) :=
  s.grids.find? fun e => e.2.vf == vf && e.2.domain.isSome && !e.2.started && e.2.launch.gen == gen

/-- START_MSG. -/
def execStartMsg (vf src : Nat) (gen : W32) (s : State) : Out :=
  let s := s.flitIn vf
  let v := s.vf vf
  match waitingCopy s vf gen with
  | some (h, d) =>
    match d.domain with
    | some w =>
      if v.dgen = gen then
        let got := w.got ||| (1#256 <<< src)
        .next (s.setGrid h { d with domain := some { w with got := got }, started := got &&& w.mask == w.mask })
      else if gen = v.dgen + 1 then .next (s.setVf vf fun v => { v with starts := v.starts ++ [(src, gen)] })
      else .next (s.count vf 22 1)
    | none => .next s
  | none =>
    if gen = v.dgen + 1 then .next (s.setVf vf fun v => { v with starts := v.starts ++ [(src, gen)] })
    else .next (s.count vf 22 1)

/-- The generation moves to an aborted one; STARTs of the next are kept (R349, R350). -/
def skipGen (gen : W32) (v : Vf) : Vf := { v with dgen := gen, starts := v.starts.filter fun x => x.2 == gen + 1 }

/-- An unstarted copy ends with LAUNCH_REFUSED: no group of it has issued, and no team record is written. Where no copy waits, its record is not yet
taken: an ABORT of the next generation then moves DGEN, and any other does nothing, DESIGN CHOICE: the rule speaks of copies alone (log entry
27). -/
def abortCopy (s : State) (vf : Nat) (gen : W32) : State :=
  match waitingCopy s vf gen with
  | some (h, d) =>
    let s := ((s.teams.filter fun e => e.2.grid == h).map (·.1)).foldl dropTeam s
    let s := { s with grids := s.grids.del h }
    let s := s.setVf vf (skipGen gen)
    match d.origin with
    | .host q i => complete s q i 0xFFFFFFFF cRefused
    | _ => s
  | none => if gen = (s.vf vf).dgen + 1 then s.setVf vf (skipGen gen) else s

/-- ABORT_MSG: a started copy is not touched. -/
def execAbortMsg (vf _src : Nat) (gen : W32) (s : State) : Out := .next (abortCopy (s.flitIn vf) vf gen)

/-- ABORT goes to every module of the mask that the domain binds. -/
def sendAborts (s : State) (vf : Nat) (mask : BitVec 256) (gen : W32) : State :=
  let me := match s.modnum with | some m => m.toNat | none => 256
  ((List.range 256).filter fun m => mask.getLsbD m && m != me).foldl (fun s m => match s.bound vf m with
    | some v => (s.flitOut vf).send (.abort m v gen)
    | none => s) s

/-- Whether a taken copy has waited for its STARTs beyond the start timeout. -/
def startLate (s : State) (d : Grid) : Bool :=
  match d.domain with
  | some w => !d.started && decide (0 < d.nextCluster) && decide (w.since + (s.pad d.paddock).timers.start.toNat * 2 ^ 32 ≤ s.bell.toNat)
  | none => false

/-- START_TIMEOUT. -/
def execStartTimeout (h : Nat) (s : State) : Out :=
  match s.grid h with
  | some d => .next (if startLate s d then abortCopy (sendAborts s d.vf d.launch.modmask d.launch.gen) d.vf d.launch.gen else s)
  | none => .next s

end Sys2Proof.Machine
end

