-- ==== Sys2Proof/Machine/Sched.lean ====
section
/-! DEFINITION. The dispatcher of a Paddock: records taken, clusters placed and restored, time slices and the ladder (16 R342-R345, 10 R246,
R247, 18 R369-R372, 20 R403). -/

namespace Sys2Proof.Machine

/-! ### Taking records (R342, R344) -/

/-- Whether a work queue has a record to take. -/
def wqReady (s : State) (w : Wq) : Bool :=
  w.en && !w.err && w.taken != w.wqtail && match w.bind with | some (vf, _) => (s.vf vf).active | none => false

/-- The queues of a Paddock and priority that have one. -/
def wqsReady (s : State) (pd : Nat) (prio : BitVec 2) : List Nat :=
  (s.wqs.filter fun e => wqReady s e.2 && e.2.prio == prio && match e.2.bind with
    | some (vf, _) => (s.vf vf).paddock.toNat == pd
    | none => false).map (·.1)

def listMin (l : List Nat) : Option Nat := match l with | [] => none | x :: rest => some (rest.foldl min x)

/-- The first of some numbers after `n`, or the lowest of all: a round-robin turn. -/
def nextTurn (l : List Nat) (n : Nat) : Option Nat := match listMin (l.filter (n < ·)) with | some x => some x | none => listMin l

/-- Whether it is a queue's turn. -/
def isTurn (s : State) (q : Nat) : Bool :=
  let w := s.wq q
  match w.bind with
  | none => false
  | some (vf, _) =>
    let pd := (s.vf vf).paddock.toNat
    wqReady s w && nextTurn (wqsReady s pd w.prio) ((s.pad pd).rrWq.rd w.prio) == some q

/-- A record is refused, and the modules of a domain copy's MODMASK are told, this one where it is among them (R339, R343, R350). -/
def refuseRecord (s : State) (q i vf : Nat) (l : Launched) : State :=
  let s := complete s q i 0xFFFFFFFF cRefused
  if l.isDomain then
    let s := sendAborts s vf l.modmask l.gen
    if match s.modnum with | some m => l.modmask.getLsbD m.toNat | none => false then abortCopy s vf l.gen else s
  else s

/-- Takes the next record of a queue; it waits where the page of the record or of its kernel record waits for the host (14 R312). -/
def takeRecord (s : State) (q vf : Nat) : State :=
  let w := s.wq q
  let pd := (s.vf vf).paddock.toNat
  let i := w.taken.toNat
  let a := w.wqbase.toNat + 256 * (i % 2 ^ w.logn.toNat)
  let s0 := s
  let s := s.setPad pd fun p => { p with rrWq := p.rrWq.wr w.prio q }
  match s.devRead vf a 256 with
  | (.fail, s) => s.setWq q fun w => { w with err := true }
  | (.wait, s) => s
  | (.dead c, s) => endContext s vf c 0
  | (.ok d, s) =>
    let l := parseLaunch d
    let taken (s : State) : State := s.setWq q fun w => { w with taken := w.taken + 1 }
    match admitLaunch s vf pd l false with
    | (.fail, s) => refuseRecord (taken s) q i vf l
    | (.wait, t) => keepAsks s0 t
    | (.dead c, s) => endContext s vf c 0
    | (.ok k, s) => (makeGrid (taken s) vf pd l k (BitVec.ofNat 64 a) l.q (.host q i) w.prio.toNat).2.2

/-- WQ_RECORD_TAKE. -/
def execWqRecordTake (q : Nat) (s : State) : Out :=
  match (s.wq q).bind with
  | some (vf, _) => .next (if isTurn s q then takeRecord s q vf else s)
  | none => .next s

/-! ### Slices (R372) -/

def slicingOff (p : Paddock) : Bool := p.timers.slice == 0xFFFFFFFF

/-- A grid with clusters that have not started. -/
def hasNew (d : Grid) : Bool := decide (d.nextCluster < clustersOf d.launch)

/-- VFs of a Paddock with a team on a core or saved, or a grid to place. -/
def contenders (s : State) (pd : Nat) : List Nat :=
  (s.vfs.map (·.1)).filter fun vf =>
    (s.grids.any fun e => e.2.vf == vf && e.2.paddock == pd && hasNew e.2) ||
      s.teams.any fun t => match s.grid t.2.grid with | some d => d.vf == vf && d.paddock == pd | none => false

/-- A slice whose holder no longer contends passes on. -/
def fixSlice (s : State) (pd : Nat) : State :=
  let p := s.pad pd
  if slicingOff p then s.setPad pd fun p => { p with slice := none }
  else
    let cs := contenders s pd
    let after (n : Nat) : Option (Nat × Nat) := (nextTurn cs n).map fun v => (v, s.bell.toNat)
    match p.slice with
    | some (v, _) => if cs.contains v then s else s.setPad pd fun p => { p with slice := after v }
    | none => s.setPad pd fun p => { p with slice := (listMin cs).map fun v => (v, s.bell.toNat) }

/-- While one VF contends its slice never ends: from when it would have, it ends at the moment that a second one contends (log entry 37). -/
def extendSlice (s : State) (pd : Nat) : State :=
  let p := s.pad pd
  match p.slice with
  | some (v, start) =>
    let len := p.timers.slice.toNat * 2 ^ 32
    if slicingOff p || decide (s.bell.toNat < start + len) || decide (2 ≤ (contenders s pd).length) then s
    else s.setPad pd fun p => { p with slice := some (v, s.bell.toNat - len) }
  | none => s

/-- Whether a VF's teams may be placed now. -/
def mayPlace (s : State) (pd vf : Nat) : Bool :=
  match (s.pad pd).slice with
  | some (v, _) => v == vf
  | none => true

/-- Whether the slice of a Paddock has ended. -/
def sliceOver (s : State) (pd : Nat) : Bool :=
  match (s.pad pd).slice with
  | some (v, start) =>
    let cs := contenders s pd
    !slicingOff (s.pad pd) && cs.contains v && decide (2 ≤ cs.length) &&
      decide (start + (s.pad pd).timers.slice.toNat * 2 ^ 32 ≤ s.bell.toNat)
  | none => false

/-- SLICE_END: the holder's ladder starts, and the next contending VF's slice. A slice whose holder no longer contends passes on without a
ladder (log entry 37). -/
def execSliceEnd (pd : Nat) (s : State) : Out :=
  match (s.pad pd).slice with
  | some (v, start) =>
    let stop := start + (s.pad pd).timers.slice.toNat * 2 ^ 32
    .next (if sliceOver s pd then
      s.setPad pd fun p => { p with slice := (nextTurn (contenders s pd) v).map fun n => (n, stop),
                                    ladders := p.ladders ++ [{ vf := v, start := stop, mark := s.handle, forced := false }] }
    else fixSlice s pd)
  | none => .next (fixSlice s pd)

/-- Teams of a VF on cores that a ladder still concerns. -/
def ladderTeams (s : State) (l : Ladder) : List (Nat × Team) :=
  s.teams.filter fun e => e.2.core.isSome && !e.2.strip && decide (e.2.placed < l.mark) && match s.grid e.2.grid with
    | some d => d.vf == l.vf
    | none => false

/-- The ladder of a VF whose step is due: forced at GRACE, kill at KILLT. -/
def dueLadder (s : State) (vf : Nat) (kill : Bool) : Option Ladder :=
  let p := s.pad (s.vf vf).paddock.toNat
  p.ladders.find? fun l => l.vf == vf && (kill || !l.forced) &&
    decide (l.start + (if kill then p.timers.killt else p.timers.grace).toNat * 2 ^ 32 ≤ s.bell.toNat)

/-- FORCED_STEP: remaining teams stop at an instruction boundary. -/
def execForcedStep (vf : Nat) (s : State) : Out :=
  match dueLadder s vf false with
  | none => .next s
  | some l =>
    let s := (ladderTeams s l).foldl (fun s e => forceStop s e.1) s
    .next (s.setPad (s.vf vf).paddock.toNat fun p =>
      { p with ladders := p.ladders.map fun x => if x = l then { x with forced := true } else x })

/-- KILL_STEP: the context ends if a team is still on a core. -/
def execKillStep (vf : Nat) (s : State) : Out :=
  match dueLadder s vf true with
  | none => .next s
  | some l =>
    let left := !(ladderTeams s l).isEmpty
    let s := s.setPad (s.vf vf).paddock.toNat fun p => { p with ladders := p.ladders.filter (· != l) }
    .next (if left then endContext s vf cKilled 0 else s)

/-! ### Choosing (R344) -/

/-- The first of a list for which something can be done. -/
def firstOf {α : Type} (f : α → Option State) : List α → Option State
  | [] => none
  | x :: rest => match f x with
    | some s => some s
    | none => firstOf f rest

/-- Sorts by a rank, keeping the order of equals. -/
def byRank {α : Type} (lt : α → α → Bool) (l : List α) : List α :=
  l.foldl (fun acc x => acc.takeWhile (fun y => !lt x y) ++ x :: acc.dropWhile fun y => !lt x y) []

/-- The chains of a Paddock with strip-class work, earliest deadline first, then the lower stream: those that run, and those that have finished
while clusters of theirs are left. -/
def runningChains (s : State) (pd : Nat) : List (Nat × Stream × Chain) :=
  byRank (fun a b => decide (a.2.1.deadline a.2.2.strip < b.2.1.deadline b.2.2.strip))
    ((s.pad pd).streamList.flatMap fun t => (t.2.chains.filter fun c => !c.missed).map fun c => (t.1, t.2, c))

/-- The first placement of a chain is stamped (R377). -/
def stampPlaced (s : State) (pd st n : Nat) : State :=
  setStreamOf s pd st fun t => match t.chainOf n with
    | some c => if c.firstPlace = 0 then t.setChain { c with firstPlace := s.ns } else t
    | none => t

/-- What restoring did, in a state. -/
def restored (s : State) (x : Restored) : Option State :=
  match x with
  | .placed s => some s
  | .killed s => some s
  | .waits t => begun s t
  | .noRoom => none

/-- A grid whose saved clusters come first. -/
def hasSaved (s : State) (gh : Nat) : Bool := !(savedClusters s gh).isEmpty

/-- Strip-class work of one chain. -/
def chainWork (s : State) (pd : Nat) (x : Nat × Stream × Chain) : Option State :=
  let (st, t, c) := x
  match if c.live then nextKernel s t else none with
  | some (c, l) => launchKernel s pd st t c l
  | none => firstOf (fun h => match s.grid h with
      | some d =>
        if hasSaved s h then restored s (restoreGrid s h)
        else if hasNew d then (placeGrid s h).map fun s => stampPlaced s pd st c.strip
        else none
      | none => none) c.grids

/-- Grids of a Paddock outside running chains, higher priority first, then the one taken first. -/
def gridOrder (s : State) (pd : Nat) : List (Nat × Grid) :=
  byRank (fun a b => decide (b.2.prio < a.2.prio) || (a.2.prio == b.2.prio && decide (a.2.order < b.2.order)))
    (s.grids.filter fun e => e.2.paddock == pd && !isStrip s e.2 && mayPlace s pd e.2.vf)

/-- The work queue that a host grid belongs to. -/
def queueOf (d : Grid) : Option Nat := match d.origin with | .host q _ => some q | _ => none

/-- An earlier grid of the same work queue has clusters to start. -/
def heldBack (s : State) (d : Grid) : Bool :=
  match queueOf d with
  | none => false
  | some q => s.grids.any fun e => queueOf e.2 == some q && decide (e.2.order < d.order) && hasNew e.2

/-- A cluster saved from a reclaimed core. -/
def reclaimed (s : State) (gh : Nat) : Bool := (savedClusters s gh).any fun c => match s.cluster c with | some x => x.reclaim | none => false

/-- Teams that may be taken for a reclaimed cluster, newest first (R403). -/
def givesWay (s : State) (pd : Nat) : List (Nat × Team) :=
  byRank (fun a b => decide (b.2.placed < a.2.placed))
    (s.teams.filter fun e => !e.2.strip && (match e.2.core with | some c => ownsCore s pd c | none => false) &&
      match s.grid e.2.grid with | some d => !d.launch.coop && d.paddock == pd | none => false)

/-- The state with a team off its core, and those that leave with it. -/
def without (s : State) (th : Nat) : State := (saveSet s th).foldl (fun s x => s.setTeam x.1 { x.2 with core := none }) s

/-- What a reclaimed cluster that does not fit comes to. -/
inductive Room where
  | stop (s : State)
  | stopping
  | never

/-- Whether what a restore of a grid would place fits. -/
def hasRoom (s : State) (gh : Nat) : Bool :=
  match s.grid gh with
  | some d => (seatClusters gh d (if d.launch.coop then savedClusters s gh else (savedClusters s gh).take 1) s).isSome
  | none => false

/-- The state once some teams have left. -/
def withoutAll (s : State) (ts : List (Nat × Team)) : State := ts.foldl (fun s e => without s e.1) s

/-- Of some teams, oldest first, those that must leave: each one goes on where the others make room. -/
def needed (s : State) (gh : Nat) (must : List (Nat × Team)) : List (Nat × Team) → List (Nat × Team)
  | [] => must
  | e :: rest => if hasRoom (withoutAll s (must ++ rest)) gh then needed s gh must rest else needed s gh (e :: must) rest

/-- Makes room for a reclaimed cluster: the forced step, at once, for the newest team whose leaving lets it fit beside those that are leaving already.
Where no one team's does, for the newest of those that must (R403; log entry 37). While they leave, the room is the cluster's. -/
def makeRoom (s : State) (pd gh : Nat) : Room :=
  let leaves (e : Nat × Team) : Bool := match e.2.stop with | some q => q.forced | none => false
  let later := withoutAll s ((givesWay s pd).filter leaves)
  if hasRoom later gh then .stopping
  else
    let ts := (givesWay s pd).filter fun e => !leaves e
    match ts.find? fun e => hasRoom (without later e.1) gh with
    | some e => .stop (forceStop s e.1)
    | none => if hasRoom (withoutAll later ts) gh then
        match needed later gh [] ts.reverse with
        | e :: _ => .stop (forceStop s e.1)
        | [] => .never
      else .never

/-- What the reclaimed clusters of some grids come to: nothing, or a step; the rest of the dispatcher waits while room is made for one. -/
def dispatchReclaimed (s : State) (pd : Nat) : List (Nat × Grid) → Option (Option State)
  | [] => none
  | e :: rest =>
    if !reclaimed s e.1 then dispatchReclaimed s pd rest
    else match restored s (restoreGrid s e.1) with
      | some s => some (some s)
      | none => match makeRoom s pd e.1 with
        | .stop s => some (some s)
        | .stopping => some none
        | .never => dispatchReclaimed s pd rest

/-- What the dispatcher of a Paddock does next. -/
def dispatch (s : State) (pd : Nat) : Option State :=
  let s := fixSlice s pd
  match firstOf (chainWork s pd) (runningChains s pd) with
  | some s => some s
  | none =>
    let gs := gridOrder s pd
    match dispatchReclaimed s pd gs with
    | some x => x
    | none => match firstOf (fun e => if hasSaved s e.1 then restored s (restoreGrid s e.1) else none) gs with
      | some s => some s
      | none => firstOf (fun e => if hasSaved s e.1 || !hasNew e.2 || heldBack s e.2 then none else placeGrid s e.1) gs

/-- CLUSTER_DISPATCH. -/
def execClusterDispatch (pd : Nat) (s : State) : Out := .next ((dispatch s pd).getD s)

end Sys2Proof.Machine
end

