-- ==== Sys2Proof/Machine/Shepherd.lean ====
section
/-! DEFINITION. The trace buffer and the Shepherd (22 R430-R440): records, offers, filter instructions, attachment. -/

namespace Sys2Proof.Machine

/-! ### Trace records (R430, R432, R433) -/

/-- The record at the head is dropped and counted. -/
def dropTrace (s : State) (vf : Nat) : State := (s.setVf vf fun v => { v with trace := v.trace.drop 1 }).count vf 32 1

/-- Whether the record at the head has waited more than 10 us. -/
def traceLate (s : State) (vf : Nat) : Bool :=
  match (s.vf vf).trace with
  | r :: _ => decide (r.ns.toNat + 10000 < s.ns.toNat)
  | [] => false

/-- Whether the record at the head has nowhere to go: EN = 0, LOG outside 7 to 20, the ring full, or too long a wait. -/
def traceDrops (s : State) (vf : Nat) : Bool :=
  let v := s.vf vf
  let n := v.trlog.toNat
  !v.tren || decide (n < 7) || decide (20 < n) || (v.trwrite - v.trread).toNat == 2 ^ n || traceLate s vf

/-- TRACE_RECORD_WRITE: the oldest record is written or dropped; it waits while its page waits for the host (14 R312). -/
def execTraceRecordWrite (vf : Nat) (s : State) : Out :=
  let v := s.vf vf
  match v.trace with
  | [] => .next s
  | r :: _ =>
    if traceDrops s vf then .next (dropTrace s vf)
    else match s.devWrite vf (v.trbase.toNat + 32 * (v.trwrite.toNat % 2 ^ v.trlog.toNat)) (natLe 32 r.body.toNat) with
      | (.ok _, s) =>
        let s := s.setVf vf fun v => { v with trace := v.trace.drop 1, trwrite := v.trwrite + 1 }
        .next (match r.tile with | some x => tileDone s x | none => s)
      | (.wait, s) => .next s
      | (.dead c, s) => .next (endContext (dropTrace s vf) vf c 0)
      | (.fail, s) => .next (dropTrace s vf)

/-- TRACE_RECORD_DROP. -/
def execTraceRecordDrop (vf : Nat) (s : State) : Out := .next (if traceLate s vf then dropTrace s vf else s)

/-! ### Filter slots (R435, R437) -/

def Shepherd.attached (h : Shepherd) (c : Nat) : Bool := h.att.getLsbD (8 * c + 7)
def Shepherd.slotOf (h : Shepherd) (c : Nat) : BitVec 3 := h.att.extractLsb' (8 * c) 3

/-- Whether an attached class names a slot. -/
def Shepherd.names (h : Shepherd) (slot : BitVec 3) : Bool := (List.range 6).any fun c => h.attached c && h.slotOf c == slot

/-- The instruction in word `i` of a slot. -/
def Shepherd.word (h : Shepherd) (slot : BitVec 3) (i : Nat) : Option Instr := decodeFilter ((h.slots.rd slot).rd (BitVec.ofNat 5 i))

/-- Where an instruction at `i` may go on: nowhere after a terminal word. -/
def nextWords (x : Instr) (i : Nat) : List Nat :=
  match x with
  | .shBz _ o => [i + 1, i + o.toNat]
  | .shBnz _ o => [i + 1, i + o.toNat]
  | .shEnd => []
  | .shDrop => []
  | _ => [i + 1]

def isTerminal (x : Instr) : Bool := match x with | .shEnd => true | .shDrop => true | _ => false

/-- The checks of R437 on a slot. -/
def slotOk (h : Shepherd) (slot : BitVec 3) : Bool :=
  let len := (h.len.rd slot).toNat
  decide (1 ≤ len) && decide (len ≤ 32) &&
    ((List.range len).all fun i => match h.word slot i with
      | some x => x.wf && (nextWords x i).all (fun j => decide (j < len)) && (i + 1 != len || isTerminal x)
      | none => false)

/-- The largest count of instructions on any path from word `i`, within `n` steps. -/
def longest (h : Shepherd) (slot : BitVec 3) : Nat → Nat → Nat
  | 0, _ => 0
  | n + 1, i => match h.word slot i with
    | some x => 1 + ((nextWords x i).map (longest h slot n)).foldl max 0
    | none => 0

/-- Whether the Shepherd is negotiated (20 R408): without it, its registers are unmapped space. -/
def shepherdOn (s : State) : Bool := (s.feat.rd 0).getLsbD 6

/-- SHATTACH_WRITE: the whole write takes effect, or none of it. -/
def execShattachWrite (vf : Nat) (v : W64) (s : State) : Out :=
  let att : BitVec 48 := v.setWidth 48 &&& 0x878787878787
  .next (if !shepherdOn s then s else s.setVf vf fun f =>
    let h := { f.sh with att := att }
    let cs := (List.range 6).filter h.attached
    if cs.all fun c => slotOk h (h.slotOf c) then
      { f with sh := { h with maxpath := Bank.gen fun i => if h.names i then longest h i 32 0 else h.maxpath.rd i } }
    else { f with sh := { f.sh with err := true } })

/-- A 64-bit register after a write of its low or high half, or of all of it (20 R394). -/
def merge64 (old : W64) (w : HostWrite) : W64 :=
  if w.wide then w.v
  else if w.off % 8 = 4 then w.v.setWidth 32 ++ old.setWidth 32
  else ((old >>> 32).setWidth 32 : W32) ++ w.v.setWidth 32

/-- A write of 32-bit words at an offset from a base of such words: the index and word of each. -/
def wordsOf (w : HostWrite) (base : Nat) : List (Nat × W32) :=
  ((w.off - base) / 4, w.v.setWidth 32) :: if w.wide then [((w.off - base) / 4 + 1, (w.v >>> 32).setWidth 32)] else []

def lenWord (h : Shepherd) : W64 := (List.range 8).foldl (fun x s => x ||| ((h.len.rd (BitVec.ofNat 3 s)).setWidth 64 <<< (8 * s))) 0

/-- The slots whose LEN a write of SHLEN, or of a half of it, writes. -/
def lenSlots (w : HostWrite) : List (BitVec 3) := if w.wide then [0, 1, 2, 3, 4, 5, 6, 7] else if w.off % 8 = 4 then [4, 5, 6, 7] else [0, 1, 2, 3]

/-- SH_SLOT_WRITE: a word or a length, refused where an attached class names the slot; a write of several lengths is one write, refused
whole (log entry 38). -/
def writeSlot (h : Shepherd) (w : HostWrite) : Shepherd :=
  if w.off / 8 = 0x3018 / 8 then
    let v := merge64 (lenWord h) w
    if (lenSlots w).any h.names then { h with err := true }
    else { h with len := Bank.gen fun s => v.extractLsb' (8 * s.toNat) 6 }
  else if 0x3100 ≤ w.off ∧ w.off < 0x3500 ∧ w.off % 4 = 0 then
    (wordsOf w 0x3100).foldl (fun h x =>
      let slot := BitVec.ofNat 3 (x.1 / 32)
      if 256 ≤ x.1 then h
      else if h.names slot then { h with err := true }
      else { h with slots := h.slots.wr slot ((h.slots.rd slot).wr (BitVec.ofNat 5 x.1) x.2) }) h
  else h

def vfOfWrite (w : HostWrite) : Option Nat := match w.win with | .vf n => some n | .pf => none

def execShSlotWrite (w : HostWrite) (s : State) : Out :=
  match vfOfWrite w with
  | some vf => .next (if shepherdOn s then s.setVf vf fun f => { f with sh := writeSlot f.sh w } else s)
  | none => .next s

/-! ### Offers (R439) -/

/-- EFF. -/
def shEff (s : State) (vf : Nat) : Nat :=
  let active := max 1 (s.vfs.filter fun e => e.2.active).length
  min (min (s.vf vf).sh.req.toNat (16384 / active)) 1024

/-- One filter instruction on the registers: the registers, and the next index; none after a terminal word. -/
def filterStep (e : Bank 4 W32) (x : Instr) (h : Bank 4 W32) (i : Nat) : Bank 4 W32 × Option Nat :=
  let m : Bank 2 W32 := Bank.gen fun k => if k = 0 then 0x9E3779B1 else if k = 1 then 0x85EBCA77 else if k = 2 then 0xC2B2AE3D else 0x27D4EB2F
  let next : Option Nat := some (i + 1)
  match x with
  | .shLdf d f => (h.wr d (e.rd f), next)
  | .shLdi d k => (h.wr d (k.setWidth 32), next)
  | .shLdih d k => (h.wr d (k ++ (h.rd d).setWidth 16), next)
  | .shAdd d a b => (h.wr d (h.rd a + h.rd b), next)
  | .shAddi d a k => (h.wr d (h.rd a + k.setWidth 32), next)
  | .shSub d a b => (h.wr d (h.rd a - h.rd b), next)
  | .shAnd d a b => (h.wr d (h.rd a &&& h.rd b), next)
  | .shOr d a b => (h.wr d (h.rd a ||| h.rd b), next)
  | .shShl d a n => (h.wr d (h.rd a <<< n.toNat), next)
  | .shShr d a n => (h.wr d (h.rd a >>> n.toNat), next)
  | .shMin d a b => (h.wr d (if (h.rd b).ult (h.rd a) then h.rd b else h.rd a), next)
  | .shCeq d a b => (h.wr d (if h.rd a = h.rd b then 1 else 0), next)
  | .shCltu d a b => (h.wr d (if (h.rd a).ult (h.rd b) then 1 else 0), next)
  | .shBz a o => (h, some (if h.rd a = 0 then i + o.toNat else i + 1))
  | .shBnz a o => (h, some (if h.rd a = 0 then i + 1 else i + o.toNat))
  | .shHash d a k => (h.wr d ((h.rd a ^^^ (h.rd a >>> 16)) * m.rd k), next)
  | .shEnd => (h, none)
  | .shDrop => (h, none)
  | _ => (h, next)

/-- Instructions that an event executes from word `i`. -/
def filterCount (sh : Shepherd) (slot : BitVec 3) (e : Bank 4 W32) : Nat → Bank 4 W32 → Nat → Nat
  | 0, _, _ => 0
  | n + 1, h, i => match sh.word slot i with
    | none => 0
    | some x => match filterStep e x h i with
      | (h, some j) => 1 + filterCount sh slot e n h j
      | (_, none) => 1

/-- The oldest offer is accepted or refused, with the credit of its window. -/
def takeOffer (s : State) (vf : Nat) : State :=
  let h := (s.vf vf).sh
  match h.offers with
  | [] => s
  | e :: rest =>
    let slot := h.slotOf e.cls.toNat
    if h.maxpath.rd slot ≤ h.credit ∧ h.accepted.length < 64 then
      let used := filterCount h slot e.e 32 (Bank.fill 0) 0
      (s.setVf vf fun v => { v with sh := { h with offers := rest, credit := h.credit - used, accepted := h.accepted ++ [e] } }).count vf 27 1
    else (s.setVf vf fun v => { v with sh := { h with offers := rest } }).count vf 28 1

/-- SH_EVENT_OFFER. -/
def execShEventOffer (vf : Nat) (s : State) : Out := .next (takeOffer s vf)

/-- A window starts: what was offered in the last one is taken, and the credit is EFF. -/
def openWindow (s : State) (vf : Nat) : State :=
  if (s.vf vf).sh.window = s.ns.toNat / 1000 then s
  else
    let s := (s.vf vf).sh.offers.foldl (fun s _ => takeOffer s vf) s
    s.setVf vf fun v => { v with sh := { v.sh with credit := shEff s vf, window := s.ns.toNat / 1000 } }

/-- SH_WINDOW. -/
def execShWindow (vf : Nat) (s : State) : Out := .next (openWindow s vf)

/-- The Bellwether shows another moment: windows start with it (R439), but for a die that is frozen (R445). -/
def State.setBell (s : State) (b : BitVec 96) : State :=
  if s.frozen then { s with bell := b } else s.vfs.foldl (fun s e => openWindow s e.1) { s with bell := b }

/-! ### Evaluation (R436) -/

/-- SH_EVALUATE: the oldest accepted event starts through its slot. -/
def execShEvaluate (vf : Nat) (s : State) : Out :=
  let h := (s.vf vf).sh
  match h.accepted, h.eval with
  | e :: rest, none =>
    let x : Eval := { ev := e, slot := h.slotOf e.cls.toNat, ix := 0, h := Bank.fill 0, hist := [], cms := [], trig := [] }
    .next { s.setVf vf fun v => { v with sh := { v.sh with accepted := rest, eval := some x } } with evalVf := some vf }
  | _, _ => .next s

/-- The evaluation under way. -/
def State.eval (s : State) : Option (Nat × Eval) := s.evalVf.bind fun vf => (s.vf vf).sh.eval.map fun e => (vf, e)

def State.setEval (s : State) (vf : Nat) (e : Option Eval) : State :=
  let s := s.setVf vf fun v => { v with sh := { v.sh with eval := e } }
  if e.isNone then { s with evalVf := none } else s

/-- Executes one filter instruction; its effect on tables and triggers waits for `end`. -/
def filterExec (x : Instr) (f : Eval → Eval) (s : State) : State :=
  match s.eval with
  | none => s
  | some (vf, e) =>
    let s := s.count vf 30 1
    match filterStep e.ev.e x e.h e.ix with
    | (h, some j) => s.setEval vf (some { f e with h := h, ix := j })
    | (_, none) => s.setEval vf none

/-- Adds to a table word, saturating. -/
def satAdd (a b : W32) : W32 := BitVec.ofNat 32 (min (a.toNat + b.toNat) 0xFFFFFFFF)

def addAt (t : Bank 2 (Bank 6 W32)) (r : BitVec 2) (c : BitVec 6) (n : W32) : Bank 2 (Bank 6 W32) :=
  t.wr r ((t.rd r).wr c (satAdd ((t.rd r).rd c) n))

/-- A trigger record (R438). -/
def trigBytes (ev : ShEvent) (t : W32 × W16) : List W8 :=
  natLe 2 t.2.toNat ++ [3, ev.cls.setWidth 8] ++ natLe 4 t.1.toNat ++
    (([0, 1, 2, 3] : List (BitVec 4)).flatMap fun i => natLe 4 (ev.e.rd i).toNat) ++ natLe 8 ev.ns.toNat

/-- `end` applies the updates and triggers of the event. -/
def applyEval (s : State) (vf : Nat) (e : Eval) : State :=
  let s := s.setVf vf fun v => { v with sh := { v.sh with
    ht := e.hist.foldl (fun t x => addAt t x.1 x.2 1) v.sh.ht,
    sk := e.cms.foldl (fun t x => addAt t x.1 x.2.1 x.2.2) v.sh.sk } }
  e.trig.foldl (fun s t => (formTrace s vf (trigBytes e.ev t)).count vf 31 1) s

def plainFilter (x : Instr) (s : State) : Out := .next (filterExec x id s)

def execShLdf (d f : BitVec 4) (s : State) : Out := plainFilter (.shLdf d f) s
def execShLdi (d : BitVec 4) (k : W16) (s : State) : Out := plainFilter (.shLdi d k) s
def execShLdih (d : BitVec 4) (k : W16) (s : State) : Out := plainFilter (.shLdih d k) s
def execShAdd (d a b : BitVec 4) (s : State) : Out := plainFilter (.shAdd d a b) s
def execShAddi (d a : BitVec 4) (k : W16) (s : State) : Out := plainFilter (.shAddi d a k) s
def execShSub (d a b : BitVec 4) (s : State) : Out := plainFilter (.shSub d a b) s
def execShAnd (d a b : BitVec 4) (s : State) : Out := plainFilter (.shAnd d a b) s
def execShOr (d a b : BitVec 4) (s : State) : Out := plainFilter (.shOr d a b) s
def execShShl (d a : BitVec 4) (n : BitVec 5) (s : State) : Out := plainFilter (.shShl d a n) s
def execShShr (d a : BitVec 4) (n : BitVec 5) (s : State) : Out := plainFilter (.shShr d a n) s
def execShMin (d a b : BitVec 4) (s : State) : Out := plainFilter (.shMin d a b) s
def execShCeq (d a b : BitVec 4) (s : State) : Out := plainFilter (.shCeq d a b) s
def execShCltu (d a b : BitVec 4) (s : State) : Out := plainFilter (.shCltu d a b) s
def execShBz (a : BitVec 4) (o : W8) (s : State) : Out := plainFilter (.shBz a o) s
def execShBnz (a : BitVec 4) (o : W8) (s : State) : Out := plainFilter (.shBnz a o) s
def execShHash (d a : BitVec 4) (m : BitVec 2) (s : State) : Out := plainFilter (.shHash d a m) s

def execShHist (n a : BitVec 4) (s : State) : Out :=
  .next (filterExec (.shHist n a) (fun e =>
    { e with hist := e.hist ++ [(n.setWidth 2, BitVec.ofNat 6 (min (e.h.rd a).toNat 63))] }) s)

/-- hash_r of a value, above bit 26. -/
def sketchCol (x : W32) (r : BitVec 2) : BitVec 6 :=
  ((filterStep (Bank.fill 0) (.shHash 0 0 r) (Bank.fill x) 0).1.rd 0).extractLsb' 26 6

def execShCms (a b : BitVec 4) (s : State) : Out :=
  .next (filterExec (.shCms a b) (fun e =>
    { e with cms := e.cms ++ ([0, 1, 2, 3] : List (BitVec 2)).map fun r => (r, sketchCol (e.h.rd a) r, e.h.rd b) }) s)

def execShTrig (a : BitVec 4) (c : W16) (s : State) : Out :=
  .next (filterExec (.shTrig a c) (fun e => { e with trig := e.trig ++ [(e.h.rd a, c)] }) s)

def execShDrop (s : State) : Out :=
  match s.eval with
  | some (vf, _) => .next ((filterExec .shDrop id s).count vf 29 1)
  | none => .next s

def execShEnd (s : State) : Out :=
  match s.eval with
  | some (vf, e) => .next (applyEval (filterExec .shEnd id s) vf e)
  | none => .next s

end Sys2Proof.Machine
end

