-- ==== Sys2Proof/Machine/Crook.lean ====
section
/-! DEFINITION. The Crook: debug commands, held paths, notices (21 R416-R420, 22 R442-R444). -/

namespace Sys2Proof.Machine

/-! ### Completions of commands -/

/-- A command has completed. -/
def crookDone (s : State) (vf : Nat) (tag : W16) (code status : W8) : State :=
  s.setVf vf fun v => { v with crook := { v.crook with busy := false, tag := tag, code := code, status := status } }

/-- The group that a command names: its grid, and the group itself once it has started. -/
inductive Named where
  | none
  | grid (gh : Nat) (d : Grid)
  | group (h : Nat) (g : Group)

def namedGroup (s : State) (c : CrookTo) : Named :=
  match s.grids.find? fun e => e.2.vf == c.vf && e.2.gridid == c.grid with
  | Option.none => .none
  | some (gh, d) =>
    if d.teamCount * d.kernel.groups ≤ c.g.toNat then .none
    else match s.groups.find? fun e => e.2.lin == c.g.toNat && (match s.team e.2.team with | some t => t.grid == gh | Option.none => false) with
      | some (h, g) => .group h g
      | Option.none => .grid gh d

/-- The entries of a saved group are changed in its context too (R419). -/
def resave (s : State) (h : Nat) : State :=
  match s.group h with
  | none => s
  | some g => match s.team g.team with
    | none => s
    | some t => match s.grid t.grid with
      | none => s
      | some d =>
        if !t.saved then s
        else
          let base := contextAt d t + 1024 + t.size + 32768 * g.gid
          let states := allPaths.filterMap fun i => (g.paths.rd i).map fun p => (0x103 + 64 * i.toNat, ([pathState g i p] : List W8))
          ((0x0E, [slotByte g.slotA, slotByte g.slotB]) :: states).foldl (fun s x => writeRec s d.vf (base + x.1) x.2) s

/-- CROOK_HALT. -/
def execCrookHalt (c : CrookTo) (s : State) : Out :=
  match namedGroup s c with
  | .none => .next (crookDone s c.vf c.tag 0x01 1)
  | .grid _ _ => .next (crookDone s c.vf c.tag 0x01 0)
  | .group h _ => .next (crookDone (resave (holdGroup { s with handle := s.handle + 1 } h (some s.handle)) h) c.vf c.tag 0x01 0)

/-- A held path whose notice has been posted resumes; one whose notice waits resumes when it is (R444). -/
def resumePath (s : State) (r : PathRef) : State :=
  match s.path r with
  | none => s
  | some (g, p) =>
    if p.st ≠ .held then s
    else
      let vf := s.vfOf g
      if (s.vf vf).crook.notices.any fun n => n.ref == r then
        s.setVf vf fun v => { v with crook := { v.crook with
          notices := v.crook.notices.map fun n => if n.ref = r then { n with go := true } else n } }
      else wakePath s r fun g p => (g, p)

def isHeld (g : Group) (i : BitVec 3) : Bool := match g.paths.rd i with | some p => p.st == .held | none => false

/-- RESUME. -/
def execResume (c : CrookTo) (pix : W8) (s : State) : Out :=
  let status (n : W8) (s : State) : Out := .next (crookDone s c.vf c.tag 0x02 n)
  match namedGroup s c with
  | .none => status 1 s
  | .grid _ _ => status (if pix = 0xFF then 0 else if 8 ≤ pix.toNat then 2 else 1) s
  | .group h g =>
    if pix = 0xFF then status 0 (resave ((allPaths.filter (isHeld g)).foldl (fun s i => resumePath s ⟨h, i⟩) s) h)
    else if 8 ≤ pix.toNat then status 2 s
    else if isHeld g (pix.setWidth 3) then status 0 (resave (resumePath s ⟨h, pix.setWidth 3⟩) h)
    else status 1 s

/-- The step counts of a group start at 0 when it is armed that was not: those of its paths, of the lane runs of serial mode and of what has
arrived (21 R417). -/
def Group.arm (g : Group) (on : Bool) : Group :=
  let zero (l : List Arrival) : List Arrival := l.map fun a => { a with stepN := 0 }
  if on && !g.stepArm then
    { g with stepArm := true, paths := Bank.gen fun i => (g.paths.rd i).map fun p => { p with stepN := 0 },
             joins := Bank.gen fun j => (g.joins.rd j).map fun r => { r with arr := zero r.arr },
             ser := g.ser.map fun z => { z with steps := 0, arr := zero z.arr } }
  else { g with stepArm := on }

/-- CROOK_STEP. -/
def execCrookStep (c : CrookTo) (arm : W8) (s : State) : Out :=
  let status (n : W8) (s : State) : Out := .next (crookDone s c.vf c.tag 0x03 n)
  if 1 < arm.toNat then status 2 s
  else match namedGroup s c with
    | .none => status 1 s
    | .grid gh d => status 0 (s.setGrid gh { d with armed := d.armed.filter (· != c.g.toNat) ++ if arm = 1 then [c.g.toNat] else [] })
    | .group h g => status 0 (s.setGroup h (g.arm (arm == 1)))

/-- SETBP. -/
def execSetbp (c : CrookTo) (i : W8) (addr : W64) (s : State) : Out :=
  if 8 ≤ i.toNat ∨ addr &&& 7 ≠ 0 then .next (crookDone s c.vf c.tag 0x04 2)
  else
    let v : W64 := if addr = 0 then 0 else addr ||| 1
    .next (crookDone (s.setVf c.vf fun f => { f with crook := { f.crook with bp := f.crook.bp.wr (i.setWidth 3) v } }) c.vf c.tag 0x04 0)

/-- SETWP. Length 0 disarms whatever the space and the kind say (log entry 44). -/
def execSetwp (c : CrookTo) (i sp : W8) (off lenKind : W64) (s : State) : Out :=
  let len := lenKind.toNat % 2 ^ 17
  let kind := lenKind.toNat / 2 ^ 32 % 4
  let set (w : W64) (n : Nat) : State := s.setVf c.vf fun f =>
    { f with crook := { f.crook with wp := f.crook.wp.wr (i.setWidth 2) w, wplen := f.crook.wplen.wr (i.setWidth 2) (BitVec.ofNat 17 n) } }
  let done (s : State) (n : W8) : Out := .next (crookDone s c.vf c.tag 0x05 n)
  if 4 ≤ i.toNat ∨ lenKind &&& 0xFFFFFFFCFFFE0000 ≠ 0 ∨ off.toNat % 4 ≠ 0 then done s 2
  else if len = 0 then done (set 0 0) 0
  else if (sp ≠ 1 ∧ sp ≠ 3) ∨ kind = 0 ∨ len % 4 ≠ 0 ∨ 65536 < len ∨ 2 ^ 32 ≤ off.toNat then done s 2
  else done (set (BitVec.ofNat 64 (off.toNat + sp.toNat * 2 ^ 32 + kind * 2 ^ 36)) len) 0

/-- The 32 bytes of VAL for a register of a held path; none where the number is out of range. -/
def readReg (g : Group) (p : Path) (reg : Nat) : Option (BitVec 256) :=
  if reg < 0x40 then some ((p.getS (BitVec.ofNat 6 reg)).setWidth 256)
  else if 0x100 ≤ reg ∧ reg < 0x200 ∧ reg - 0x100 < g.vwin then some (rec32 (lanes32 (g.getV (BitVec.ofNat 8 reg))))
  else if 0x200 ≤ reg ∧ reg < 0x210 then some ((g.getK (BitVec.ofNat 4 reg)).setWidth 256)
  else if 0x300 ≤ reg ∧ reg < 0x304 then some (rec32 (lanes32 (g.x.rd (BitVec.ofNat 2 reg))))
  else none

/-- REGREAD. -/
def execRegread (c : CrookTo) (pix : W8) (reg : W64) (s : State) : Out :=
  let done (s : State) (n : W8) : Out := .next (crookDone s c.vf c.tag 0x06 n)
  match namedGroup s c with
  | .none => done s 1
  | .grid _ _ => done s (if 8 ≤ pix.toNat then 2 else 1)
  | .group _ g =>
    if 8 ≤ pix.toNat then done s 2
    else match g.paths.rd (pix.setWidth 3) with
      | none => done s 1
      | some p =>
        if p.st ≠ .held then done s 1
        else match readReg (g.flush p.mask) p reg.toNat with
          | some v => done (s.setVf c.vf fun f => { f with crook := { f.crook with val := v } }) 0
          | none => done s 2

/-- The command that the bytes of CMD hold (R443); none where a field is out of range. -/
def parseCrook (vf : Nat) (tag : W16) (cmd : BitVec 256) : Option Instr :=
  let d := natLe 32 cmd.toNat
  let f (o n : Nat) : Nat := field d o n
  let c : CrookTo := { vf := vf, tag := tag, grid := BitVec.ofNat 32 (f 4 4), g := BitVec.ofNat 32 (f 8 4) }
  let ix := BitVec.ofNat 8 (f 1 1)
  let pix := BitVec.ofNat 8 (f 2 1)
  let b3 := BitVec.ofNat 8 (f 3 1)
  let w16 := BitVec.ofNat 64 (f 16 8)
  let w24 := BitVec.ofNat 64 (f 24 8)
  if f 12 4 ≠ 0 then none
  else match f 0 1 with
    | 1 => if b3 = 0 ∧ w24 = 0 then some (.crookHalt c) else none
    | 2 => if b3 = 0 ∧ w24 = 0 then some (.resume c pix) else none
    | 3 => if w24 = 0 then some (.crookStep c b3) else none
    | 4 => if b3 = 0 ∧ w24 = 0 then some (.setbp c ix w16) else none
    | 5 => some (.setwp c ix b3 w16 w24)
    | 6 => if b3 = 0 ∧ w24 = 0 then some (.regread c pix w16) else none
    | _ => none

/-- A write of SUB: the command runs next, or is answered at once where it is out of range (R442). -/
def submitCrook (s : State) (vf : Nat) (tag : W16) : State :=
  let k := (s.vf vf).crook
  if k.busy then s.setVf vf fun v => { v with crook := { v.crook with ovr := true } }
  else match parseCrook vf tag k.cmd with
    | some i => { s.setVf vf fun v => { v with crook := { v.crook with busy := true, tag := tag, code := k.cmd.setWidth 8 } } with
                  agenda := s.agenda ++ [.event i] }
    | none => crookDone s vf tag (k.cmd.setWidth 8) 2

/-! ### Notices (R420, R444) -/

/-- Whether every access of a held path has been performed. -/
def performedAll (s : State) (r : PathRef) : Bool :=
  match s.path r with
  | none => true
  | some (g, p) =>
    (g.ops.all fun o => o.own &&& p.mask == 0) &&
      allD.all fun d => !((g.copies.rd d).st == .running && (g.copies.rd d).own &&& p.mask != 0 && (s.coreOf g).isSome)

/-- Whether a notice comes before another whatever their order of posting: the holds of an earlier command of the Crook (R419). Every other
two holds may be posted in either order (log entry 34). -/
def Notice.before (a b : Notice) : Bool :=
  match a.order, b.order with
  | some i, some j => decide (i < j)
  | _, _ => false

/-- The notices that may be posted next: what their paths issued is performed, and none is owed before them (R420). -/
def postable (s : State) (ns : List Notice) : List Notice := ns.filter fun n => performedAll s n.ref && !(ns.any fun m => m.before n)

/-- Posts one of the notices that may come next, where the ring takes it. -/
def postNotice (s : State) (vf : Nat) : State :=
  let k := (s.vf vf).crook
  let ns := postable s k.notices
  match ns[Config.pick s.free % ns.length]? with
  | none => s
  | some n =>
    if k.nlog = 0 ∨ 2 ^ k.nlog.toNat ≤ (k.nwrite - k.nread).toNat then s
    else
      let body := natLe 32 (n.body.toNat + k.nwrite.toNat)
      match s.devWrite vf (k.nbase.toNat + 32 * (k.nwrite.toNat % 2 ^ k.nlog.toNat)) body with
      | (.fail, s) => s
      | (.wait, s) => s
      | (.dead c, s) => endContext s vf c 0
      | (.ok _, s) =>
        let s := { s.setVf vf fun v => { v with crook := { v.crook with notices := k.notices.erase n, nwrite := v.crook.nwrite + 1 } } with
                   free := s.free + 1 }
        if n.go then
          match s.path n.ref with
          | some (_, p) => if p.st = .held then resave (wakePath s n.ref fun g p => (g, p)) n.ref.g else s
          | none => s
        else s

/-- NOTICE_POST. -/
def execNoticePost (vf : Nat) (s : State) : Out := .next (postNotice s vf)

/-- NOTICE_RING_WRITE: the write, and a retry of every waiting notice. -/
def execNoticeRingWrite (vf : Nat) (r : NoticeReg) (x : W64) (s : State) : Out :=
  let s := s.setVf vf fun v =>
    let k := v.crook
    { v with crook := match r with
      | .nread => { k with nread := x.setWidth 32 }
      | .nbase => { k with nbase := x &&& ~~~0xFFF#64 }
      | .nlog => if 4 ≤ x.toNat ∧ x.toNat ≤ 7 then { k with nlog := x.setWidth 4 } else k }
  .next ((List.range (s.vf vf).crook.notices.length).foldl (fun s _ => postNotice s vf) s)

end Sys2Proof.Machine
end

