-- ==== Sys2Proof/Machine/Traffic.lean ====
section
/-! DEFINITION. What caches, memory, walkers and links count for a VF (20 R399, 22 R425-R427, R434). The manual gives neither the caches' replacement
nor any timing: where a line stands in L1, which line of L2 gives way, and how long a request waits are free (log entry 5). -/

namespace Sys2Proof.Machine

/-! ### Slices (20 R399) -/

/-- The LPDDR slices over which a region's lines are spread, ascending: its owner's, or all of them. -/
def slicesOf (s : State) (region : Nat) : List Nat :=
  let r := s.region region
  (List.range 96).filter fun i => r.shared || (s.memPort i).owner == r.owner

/-- The slice of a line of local memory: one line per slice in turn. -/
def sliceOf (s : State) (line : Nat) : Option Nat :=
  let l := slicesOf s (regionOf (128 * line))
  l[line % 2 ^ 23 % l.length]?

/-- Lines that a slice of 512 KiB holds (00 R1). -/
def sliceLines : Nat := 4096

/-! ### Counting (R425-R427) -/

/-- A free amount for a counter, at this moment. -/
def gain (s : State) (n : Nat) : Nat := (Config.counterGain n s.free).toNat

/-- A wait in a queue, `n` its counter: the cycles, and those of them behind other VFs. -/
def stall (s : State) (vf n : Nat) : State :=
  let k := gain s n
  (s.count vf n k).count vf (n + 1) (min k (gain s (n + 1)))

/-- An eviction of a line of `w` by a fill of `vf` (R425, R434). -/
def evictLine (s : State) (vf slice : Nat) (e : Nat × Nat) : State :=
  let s := { s with l2 := s.l2.erase e }
  let s := if paClass (128 * e.1) = 0 then s.count e.2 11 (gain s 11 % 129) else s
  if e.2 = vf then s.count vf 9 1
  else
    let s := (s.count vf 7 1).count e.2 8 1
    let s := offer s e.2 4 [1, BitVec.ofNat 32 slice, BitVec.ofNat 32 vf]
    offer s vf 4 [2, BitVec.ofNat 32 slice, BitVec.ofNat 32 e.2]

/-- A line enters L2. A slice that is full gives one up; one that is not may. -/
def fillLine (s : State) (vf line : Nat) : State :=
  let slice := sliceOf s line
  let held := s.l2.filter fun e => sliceOf s e.1 == slice
  let s' := match held[gain s 7 % held.length]? with
    | some e => if sliceLines ≤ held.length ∨ gain s 8 % 2 = 1 then evictLine s vf (slice.getD 0) e else s
    | none => s
  { s' with l2 := (line, vf) :: s'.l2 }

/-- A line access of a VF at L2, behind a crossbar port, else at its LPDDR channel (R426). A store takes its line without fetching it (12 R275). -/
def countL2 (s : State) (vf line : Nat) (write : Bool) : State :=
  let s := stall (stall s vf 16) vf 12
  if s.l2.any fun e => e.1 == line then s.count vf 5 1
  else
    let s := s.count vf 6 1
    let s := if write || paClass (128 * line) ≠ 0 then s else stall (s.count vf 10 128) vf 14
    fillLine s vf line

/-- A line access of a VF: at an L1 where it goes through one, whose dirty words go to L2 when they are written back, else at L2. -/
def countLine (s : State) (vf line : Nat) (write l1 : Bool) : State :=
  if !l1 then countL2 s vf line write
  else if gain s 3 % 2 = 1 then
    let s := s.count vf 3 1
    if write && gain s 4 % 2 == 1 then countL2 s vf line true else s
  else countL2 (s.count vf 4 1) vf line write

/-- Counts one use. -/
def countUse (s : State) (u : Use) : State :=
  let s := match u with
    | .line vf l w l1 => if vf < 1024 then countLine s vf l w l1 else s
    | .table vf l => if vf < 1024 then countL2 s vf l false else s
    | .xbar vf => stall s vf 16
    | .walk vf => s.count vf 19 (gain s 19)
    | .out vf => if vf < 1024 then s.count vf 23 (1 + gain s 23) else s
    | .in_ vf => if vf < 1024 then s.count vf 24 (1 + gain s 24) else s
  { s with free := s.free + 1 }

/-- What has happened since the last accounting is added, well within 2,000 cycles (R424). -/
def account (s : State) : State := s.uses.foldl countUse { s with uses := [] }

end Sys2Proof.Machine
end

