-- ==== Sys2Proof/Machine/Bell.lean ====
section
/-! DEFINITION. The Bellwether and what steers it (18 R360-R362). -/

namespace Sys2Proof.Machine

/-- Whether a source is the one SRC selects. -/
def steers (s : State) (w : Steer) : Bool := s.src == (w == .controller)

def clampAdj (v : W32) : W32 := BitVec.ofInt 32 (max (-(2 ^ 22)) (min (2 ^ 22) v.toInt))

/-- Whether any stream of the module is admitted. -/
def anyStream (s : State) : Bool := s.paddocks.any fun p => !p.2.streamList.isEmpty

/-- The Bellwether moves. A slice that goes on alone is carried forward (R372). -/
def moveBell (s : State) (b : BitVec 96) : State := s.paddocks.foldl (fun s p => extendSlice s p.1) (s.setBell b)

/-- A step in ns, refused while a stream is admitted. -/
def stepBell (s : State) (v : W64) : State :=
  if anyStream s then { s with stepErr := true }
  else
    let b := s.bell + (v.setWidth 96 <<< 32)
    if s.frozen then s.setBell b else moveBell s b

/-- BWNS_READ. -/
def execBwnsRead (w : Steer) (s : State) : Out :=
  match w with
  | .host => .next ({ s with latchHost := s.bell.setWidth 32 }.send (.host s.ns))
  | .controller => .next { s with latchCtl := s.bell.setWidth 32 }

/-- ADJ. -/
def execAdj (w : Steer) (v : W32) (s : State) : Out := .next (if steers s w then { s with adj := clampAdj v } else s)

/-- STEP. -/
def execBwStep (w : Steer) (v : W64) (s : State) : Out := .next (if steers s w then stepBell s v else s)

/-- PTM_REQUEST. -/
def execPtmRequest (s : State) : Out := .next (s.send (.ptm s.ns))

/-- BELLWETHER_TICK. -/
def execBellwetherTick (s : State) : Out :=
  let b := s.bell + 2 ^ 32 + s.adj.signExtend 96
  .next (if s.frozen then s.setBell b else moveBell s b)

/-! ### The PTP port (R362), as IEEE 1588-2019 lays its messages out (log entry 12) -/

/-- The message that a frame of the port carries: over UDP on IPv4 or IPv6, or in an IEEE 802.3 frame (Annexes C, D and E). -/
def ptpPayload (f : List W8) : Option (List W8) :=
  let be (o n : Nat) : Nat := beNat ((f.drop o).take n)
  let udp (o : Nat) : Option (List W8) := if be (o + 2) 2 = 319 ∨ be (o + 2) 2 = 320 then some (f.drop (o + 8)) else none
  match be 12 2 with
  | 0x88F7 => some (f.drop 14)
  | 0x0800 => if be 23 1 = 17 then udp (14 + be 14 1 % 16 * 4) else none
  | 0x86DD => if be 20 1 = 17 then udp 54 else none
  | _ => none

/-- Fields of a message: its kind, its sender, its sequence number, its correction and its time, both in 2^-16 ns, and the port it answers. -/
structure PtpMsg where
  kind : Nat
  twoStep : Bool
  src : List W8
  seq : Nat
  corr : Int
  time : Int
  dest : List W8
  raw : List W8

def parsePtp (f : List W8) : Option PtpMsg :=
  (ptpPayload f).bind fun p =>
    let be (o n : Nat) : Nat := beNat ((p.drop o).take n)
    if be 1 1 % 16 ≠ 2 ∨ p.length < 44 then none
    else some { kind := be 0 1 % 16, twoStep := be 6 1 / 2 % 2 == 1, src := (p.drop 20).take 10, seq := be 30 2,
                corr := (BitVec.ofNat 64 (be 8 8)).toInt, time := (be 34 6 * 1000000000 + be 40 4 : Nat) * 65536, dest := (p.drop 44).take 10, raw := p }

/-- Ten bytes of a time in 2^-16 ns: seconds and nanoseconds. -/
def ptpTime (t : Nat) : List W8 := natBe 6 (t / 65536 / 1000000000) ++ natBe 4 (t / 65536 % 1000000000)

/-- A message of the port: kind, sequence number, time, and the port it answers. -/
def ptpBytes (kind seq : Nat) (twoStep : Bool) (t : List W8) (dest : List W8) : List W8 :=
  [BitVec.ofNat 8 kind, 2] ++ natBe 2 (44 + dest.length) ++ zeros 2 ++ [(if twoStep then 2 else 0 : W8), 0] ++ zeros 12 ++ (Config.ptpSelf ++ zeros 10).take 10 ++
    natBe 2 seq ++ zeros 2 ++ t ++ dest

def sendPtp (s : State) (m : List W8) : State := s.send (.ptp (Config.ptpFrame m))

/-- The Bellwether in 2^-16 ns, the stamp of an event message. -/
def State.stamp (s : State) : Int := (s.bell.toNat / 65536 : Nat)

/-- The clock is steered by an offset: its rate, and a step where there is one. -/
def steerBy (s : State) (offset : Int) : State :=
  let s' := { s with adj := clampAdj (Config.ptpAdjust offset s.free), free := s.free + 1 }
  match Config.ptpStep offset s.free with
  | some v => stepBell s' v
  | none => s'

/-- The port asks for its path delay: of its master, or of its peer. -/
def askDelay (s : State) : State :=
  let n := (s.ptp.seq + 1) % 65536
  let s := { s with ptp := { s.ptp with seq := n, req := some (n, s.stamp) } }
  sendPtp s (if Config.ptpPeer then ptpBytes 2 n false (zeros 10) (zeros 10) else ptpBytes 1 n false (zeros 10) [])

/-- A message of the master or of a peer: two-step only; a slave sends no Sync and answers no Delay_Req. -/
def ptpReceive (s : State) (m : PtpMsg) : State :=
  let p := s.ptp
  let set (x : Ptp) : State := { s with ptp := x }
  let mine := m.dest == (Config.ptpSelf ++ zeros 10).take 10 && p.req.any fun r => r.1 == m.seq
  match m.kind with
  | 0xB => if p.parent = m.src ∨ p.parent = [] ∨ Config.ptpBetter m.raw p.announce = true then set { p with parent := m.src, announce := m.raw } else s
  | 0x0 => if p.parent = m.src ∧ m.twoStep = true then set { p with sync := some (m.seq, s.stamp - m.corr) } else s
  | 0x8 => match p.sync with
    | some (n, t2) =>
      if p.parent = m.src ∧ n = m.seq then
        let ms := t2 - m.time - m.corr
        askDelay (steerBy (set { p with sync := none, ms := ms }) (ms - p.delay))
      else s
    | none => s
  | 0x9 => match p.req with
    | some (_, t3) => if mine && p.parent == m.src && !Config.ptpPeer then set { p with req := none, delay := (p.ms + m.time - m.corr - t3) / 2 } else s
    | none => s
  | 0x3 => match p.req with
    | some (_, t1) => if mine && m.twoStep then set { p with peer := some (m.seq, s.stamp - t1 + m.time - m.corr) } else s
    | none => s
  | 0xA => match p.peer with
    | some (n, x) => if mine && n == m.seq then set { p with req := none, peer := none, delay := (x - m.time - m.corr) / 2 } else s
    | none => s
  | 0x2 =>
    let now := ptpTime (s.bell.toNat / 65536)
    sendPtp (sendPtp s (ptpBytes 3 m.seq true now m.src)) (ptpBytes 0xA m.seq false now m.src)
  | _ => s

/-- PTP_MESSAGE: a frame arrives at the management port; the controller's port runs the protocol while SRC = 1. -/
def execPtpMessage (f : List W8) (s : State) : Out :=
  .next (if s.src then match parsePtp f with
    | some m => ptpReceive s m
    | none => s
  else s)

end Sys2Proof.Machine
end

