-- ==== Sys2Proof/Machine/Host.lean ====
section
/-! DEFINITION. What the host does at registers and links (16 R342, 20 R393-R397, R404, R412, 22 R428-R445): counters, doorbells, register
writes, host memory accesses; and scrubbing. The firmware ring's doorbell is in Firmware.lean. -/

namespace Sys2Proof.Machine

/-! ### Counter halves (22 R428) -/

def execCounterLoRead (vf : Nat) (n : W8) (s : State) : Out :=
  let (v, s) := readCounter s vf n
  let s := s.setVf vf fun f => { f with clatchHi := (v >>> 32).setWidth 32, clatchValid := true, clatchIdx := n }
  .next (s.send (.host ((v.setWidth 32 : W32).setWidth 64)))

def execCounterHiRead (vf : Nat) (n : W8) (s : State) : Out :=
  let f := s.vf vf
  if f.clatchValid ∧ f.clatchIdx = n then .next (s.send (.host (f.clatchHi.setWidth 64)))
  else
    let (v, s) := readCounter s vf n
    .next (s.send (.host (v >>> 32)))

/-! ### Work queues (16 R342) -/

/-- The queue that window `w` of a VF shows. -/
def wqAt (s : State) (vf w : Nat) : Option Nat := (s.wqs.find? fun e => e.2.bind == some (vf, w)).map (·.1)

/-- A doorbell beyond the ring stops the queue. -/
def checkTail (w : Wq) : Wq := if w.en && decide (2 ^ w.logn.toNat < (w.wqtail - w.wqhead).toNat) then { w with err := true } else w

/-- WQTAIL. -/
def execWqtail (vf w : Nat) (v : W64) (s : State) : Out :=
  match wqAt s vf w with
  | some q => .next (s.setWq q fun x => checkTail { x with wqtail := v.setWidth 16 })
  | none => .next s

/-- WQCFG. -/
def execWqcfg (vf w : Nat) (v : W64) (s : State) : Out :=
  match wqAt s vf w with
  | none => .next s
  | some q =>
    let en := v.getLsbD 7
    let logn : BitVec 4 := v.setWidth 4
    let s := s.setWq q fun x =>
      let x := if x.en then x else { x with prio := v.extractLsb' 4 2, logn := if logn.toNat ≤ 12 then logn else x.logn }
      { x with en := en, err := x.err && !en }
    .next (if en then (drainCompletions s q (s.wq q).waiting.length).setWq q checkTail else s)

/-! ### VF control (20 R395) -/

/-- A VF with a grid that has not ended. -/
def hasGrids (s : State) (vf : Nat) : Bool := s.grids.any fun e => e.2.vf == vf

def controlWrite (s : State) (vf : Nat) (f : Vf → Vf) : State :=
  s.setVf vf fun v => if hasGrids s vf then { v with wrej := true } else f v

def execHentry (vf : Nat) (v : W64) (s : State) : Out := .next (controlWrite s vf fun f => { f with hentry := v &&& ~~~7#64 })
def execS1root (vf : Nat) (v : W64) (s : State) : Out := .next (controlWrite s vf fun f => { f with s1root := v &&& 0x000FFFFFFFFFF000 })

/-! ### Event rings (20 R397) -/

def execEvread (pd : Nat) (v : W32) (s : State) : Out := .next (writeEvents (s.setPad pd fun p => { p with evread := v }) pd 257)

/-- EVENT_POST: the oldest waiting event. -/
def execEventPost (pd : Nat) (s : State) : Out := .next (writeEvents s pd 1)

/-! ### Register writes (R394) -/

/-- The bits that a write carries, in place: for registers where writing 1 clears. -/
def oneBits (w : HostWrite) : W64 :=
  if w.wide then w.v else if w.off % 8 = 4 then (w.v.setWidth 32 : W32).setWidth 64 <<< 32 else (w.v.setWidth 32 : W32).setWidth 64

/-- Paddock registers without a row of their own. -/
def padWrite (w : HostWrite) (p : Paddock) : Paddock :=
  match w.off % 64 / 8 with
  | 0 => { p with evbase := merge64 p.evbase w }
  | 1 =>
    { p with evovf := p.evovf && !(oneBits w).getLsbD 8, evlog := (merge64 (p.evlog.setWidth 64) w).setWidth 5 }
  | _ => p

/-- PF registers without a row of their own, but for the firmware ring's. -/
def pfWrite (w : HostWrite) (s : State) : State :=
  if w.off / 8 = 0x2020 / 8 then
    { s with src := (merge64 (if s.src then 1 else 0) w).getLsbD 0, stepErr := s.stepErr && !(oneBits w).getLsbD 1 }
  else if 0x4000 ≤ w.off ∧ w.off < 0x4C00 then s.setPad (w.off / 64 - 0x100) (padWrite w)
  else s

/-- WQBASE and CQBASE are ignored while the queue is enabled. -/
def wqWrite (w : HostWrite) (x : Wq) : Wq :=
  if x.en then x
  else match w.off % 64 / 8 with
    | 0 => { x with wqbase := merge64 x.wqbase w &&& ~~~0xFF#64 }
    | 1 => { x with cqbase := merge64 x.cqbase w &&& ~~~0x1F#64 }
    | _ => x

/-- Shepherd registers without a row of their own (22 R435). -/
def shWrite (w : HostWrite) (h : Shepherd) : Shepherd :=
  if w.off / 8 = 0x3000 / 8 then { h with en := (merge64 (if h.en then 1 else 0) w).getLsbD 0 }
  else if w.off / 8 = 0x3008 / 8 then
    { h with req := BitVec.ofNat 11 (min 1024 ((merge64 (h.req.setWidth 64) w).toNat % 2 ^ 32)) }
  else if w.off / 8 = 0x3020 / 8 then { h with err := h.err && !(oneBits w).getLsbD 0 }
  else if 0x3800 ≤ w.off ∧ w.off < 0x3C00 then
    { h with ht := (wordsOf w 0x3800).foldl (fun t x => t.wr (BitVec.ofNat 2 (x.1 / 64)) ((t.rd (BitVec.ofNat 2 (x.1 / 64))).wr (BitVec.ofNat 6 x.1) x.2)) h.ht }
  else if 0x3C00 ≤ w.off ∧ w.off < 0x4000 then
    { h with sk := (wordsOf w 0x3C00).foldl (fun t x => t.wr (BitVec.ofNat 2 (x.1 / 64)) ((t.rd (BitVec.ofNat 2 (x.1 / 64))).wr (BitVec.ofNat 6 x.1) x.2)) h.sk }
  else h

/-- Counter, trace, Crook and control registers without a row of their own. -/
def vfWriteReg (w : HostWrite) (f : Vf) : Vf :=
  match w.off / 8 with
  | 0 => { f with wrej := f.wrej && !(oneBits w).getLsbD 3, ended := f.ended && !(oneBits w).getLsbD 2 }
  | 0x500 =>
    let v := merge64 (f.clatchHi ++ (if f.clatchValid then 0x100#32 ||| f.clatchIdx.setWidth 32 else f.clatchIdx.setWidth 32)) w
    { f with clatchHi := (v >>> 32).setWidth 32, clatchValid := v.getLsbD 8, clatchIdx := v.setWidth 8 }
  | 0x520 => { f with trbase := merge64 f.trbase w &&& ~~~0xFFF#64 }
  | 0x521 =>
    let old : W64 := (f.slog.setWidth 64 <<< 16) ||| (if f.sen then 0x200 else 0) ||| (if f.tren then 0x100 else 0) ||| f.trlog.setWidth 64
    let v := merge64 old w
    { f with slog := v.extractLsb' 16 8, sen := v.getLsbD 9, tren := v.getLsbD 8, trlog := v.setWidth 5 }
  | 0x523 => { f with trread := (merge64 (f.trread.setWidth 64) w).setWidth 32 }
  | 0x805 => { f with crook := { f.crook with ovr := f.crook.ovr && !(oneBits w).getLsbD 33 } }
  | n =>
    if 0x800 ≤ n ∧ n < 0x804 then
      let sh := 64 * (n - 0x800)
      let v := merge64 ((f.crook.cmd >>> sh).setWidth 64) w
      let keep : BitVec 256 := ~~~((BitVec.allOnes 64).setWidth 256 <<< sh)
      { f with crook := { f.crook with cmd := (f.crook.cmd &&& keep) ||| (v.setWidth 256 <<< sh) } }
    else if 0x600 ≤ n ∧ n < 0x800 then { f with sh := shWrite w f.sh }
    else f

/-- A write in a VF's window. -/
def vfWindowWrite (vf : Nat) (w : HostWrite) (s : State) : State :=
  if 0x1000 ≤ w.off ∧ w.off < 0x2000 then
    match wqAt s vf (w.off / 64 - 0x40) with
    | some q => s.setWq q (wqWrite w)
    | none => s
  else if w.off = 0x4020 then submitCrook s vf (w.v.setWidth 16)
  else if 0x3000 ≤ w.off ∧ w.off < 0x4000 ∧ !shepherdOn s then s
  else s.setVf vf (vfWriteReg w)

/-! ### Host memory (R393, R399, 14 R318) -/

/-- The regions of the host-managed window, ascending. -/
def hostRegions (s : State) : List Nat := ((s.regions.filter fun e => e.2.host).map (·.1)).foldl insertNat []

/-- The local address of a byte of the window; none beyond it, or while the decoder is disabled. -/
def hdmPa (s : State) (o : Nat) : Option Nat :=
  if (s.feat.rd 0).getLsbD 1 then ((hostRegions s)[o / 2 ^ 30]?).map fun r => r * 2 ^ 30 + o % 2 ^ 30 else none

/-- The pieces of a window access, byte by byte. -/
def hdmPieces (s : State) (o n : Nat) : Option (List (Nat × Nat)) :=
  (List.range n).foldr (fun i l => match hdmPa s (o + i), l with
    | some a, some l => some ((a, 1) :: l)
    | _, _ => none) (some [])

/-- What a host access, a read or a write of the bytes given, does in memory. -/
def hostPerforms (s : State) (ps : List (Nat × Nat)) (d : Option (List W8)) : State :=
  match d with
  | none => s.send (.hostBytes (readPieces s ps))
  | some d => s.writePa ps d

def Action.isHost (a : Action) : Bool := match a with | .host _ _ => true | _ => false

/-- A host access waits for engine operations that own its lines (12 R285), and behind the host's accesses that wait already, whose order the
host's platform keeps (R388). -/
def hostAccess (s : State) (ps : List (Nat × Nat)) (d : Option (List W8)) : State :=
  if owned s none ps || s.inbox.any Action.isHost then { s with inbox := s.inbox ++ [.host ps d] } else hostPerforms s ps d

/-- A host access that waits is tried again, the first of them. -/
def hostGoesOn (s : State) (ps : List (Nat × Nat)) (d : Option (List W8)) : State :=
  if s.inbox.find? Action.isHost == some (.host ps d) && !owned s none ps then
    hostPerforms { s with inbox := s.inbox.erase (.host ps d) } ps d
  else s

/-- HOST_CXL_MEM_ACCESS: a read, or a write of the bytes given. While HDM is not enabled the window is unmapped space, which reads 0 and ignores
writes (R394, R408). -/
def execHostCxlMemAccess (o n : Nat) (d : Option (List W8)) (s : State) : Out :=
  if !(s.feat.rd 0).getLsbD 1 then .next (match d with | none => s.send (.hostBytes (zeros n)) | some _ => s)
  else match hdmPieces s o (match d with | none => n | some d => d.length) with
    | some ps => .next (hostAccess s ps d)
    | none => .fault .noSuchAddress

/-- HOST_SNOOP: a host store, which recalls the device's ownership of its lines. -/
def execHostSnoop (a : Nat) (d : List W8) (s : State) : Out :=
  match hostPa a d.length with
  | some pa => .next (hostAccess s [(pa, d.length)] (some d))
  | none => .fault .noSuchAddress

/-! ### Scrubbing (R412) -/

/-- Every VF's context ends with a cause. -/
def endAll (s : State) (cause : W8) : State := (allVfs s).foldl (fun s v => endVf s v cause 0) s

/-- The number under which `ecc` holds an uncorrectable error of controller or crossbar state, beyond every line of memory. -/
def controlLine : Nat := 2 ^ 45

/-- Scrubbing names the words of SRAM that hold an error by their place in `sram`, beyond `controlLine`. -/
def sramLine (i : Nat) : Nat := controlLine + 1 + i

/-- The die freezes (22 R445). -/
def freezeNow (s : State) : State := if s.frozen then s else { s with frozen := true, frozenAt := s.ns }

/-- The module enters FAULTED (20 R412). Where the fuse says so it freezes on that edge: the dump shows its contexts as they stand (22 R445). -/
def enterFaulted (s : State) : State :=
  if s.frzFuse then { freezeNow s with faulted := true } else { endAll s 0x40 with faulted := true }

/-- The scrubbing of a word of SRAM: an error is logged, and corrected where its code can. -/
def scrubSram (s : State) (i : Nat) : State :=
  match s.sram[i]? with
  | none => s
  | some e =>
    let pa := (Config.value64 s.free).toNat
    let s := { s with free := s.free + 1 }
    if e.hard then logError s pa 2 0xFFFF
    else logError { s with sram := s.sram.erase e, eccCorrected := s.eccCorrected + 1 } pa 1 0xFFFF

/-- PATROL_SCRUB of a line, of controller and crossbar state, or of a word of SRAM. -/
def execPatrolScrub (pa : Nat) (s : State) : Out :=
  if controlLine < pa / 128 then .next (scrubSram s (pa / 128 - controlLine - 1))
  else if s.eccAt pa && decide (pa / 128 = controlLine) then .next (if s.faulted then s else enterFaulted s)
  else if s.eccAt pa then .next (logError s (pa / 128 * 128) 2 0xFFFF)
  else if s.soft.contains (pa / 128) then
    .next (logError { s with soft := s.soft.filter (· != pa / 128), eccCorrected := s.eccCorrected + 1 } (pa / 128 * 128) 1 0xFFFF)
  else .next s

end Sys2Proof.Machine
end

