-- ==== Sys2Proof/Machine/Firmware.lean ====
section
/-! DEFINITION. The firmware command queue (20 R404-R407): fetching and parsing, the order and the gate of commands, and the global ones
(R408-R410, R413, 16 R346). -/

namespace Sys2Proof.Machine

/-! ### What a command names (R406-R408) -/

/-- Whether a command's target is a Paddock, a VF, or unused. -/
inductive Scope where
  | global | pad | vf
  deriving DecidableEq, Repr

/-- The kind of target and the FEAT0 bit of each OPC; none for an unknown one. -/
def fwInfo (opc : W16) : Option (Scope × Option Nat) :=
  match opc.toNat with
  | 0x01 | 0x02 | 0x03 | 0x04 => some (.global, none)
  | 0x10 | 0x11 | 0x14 | 0x15 | 0x17 => some (.pad, none)
  | 0x12 | 0x13 => some (.pad, some 8)
  | 0x16 | 0x20 | 0x21 | 0x22 | 0x23 | 0x24 | 0x26 | 0x30 | 0x31 | 0x32 | 0x33 | 0x38 => some (.vf, none)
  | 0x25 => some (.vf, some 7)
  | 0x40 | 0x41 | 0x42 => some (.pad, some 3)
  | 0x43 => some (.pad, some 5)
  | 0x48 | 0x4B => some (.global, some 9)
  | 0x49 | 0x4A => some (.pad, some 9)
  | 0x50 => some (.global, some 2)
  | _ => none

def scopeOf (k : FwCmd) : Scope := match fwInfo k.opc with | some x => x.1 | none => .global

/-- The Paddock a command names, itself or through its VF. -/
def fwPaddock (s : State) (k : FwCmd) : Option Nat :=
  let t := k.hdr.target.toNat
  match scopeOf k with
  | .global => none
  | .pad => some t
  | .vf => if (s.vf t).active then some (s.vf t).paddock.toNat else none

/-- Whether a command waits for an earlier one. -/
def fwWaits (s : State) (earlier later : FwCmd) : Bool :=
  let a := scopeOf later
  a == .global || (a == scopeOf earlier && later.hdr.target == earlier.hdr.target) ||
    ((fwPaddock s later).isSome && fwPaddock s later == fwPaddock s earlier)

/-- Whether a command may start. -/
def startable (s : State) (k : FwCmd) : Bool :=
  s.fwpend.contains k && ((s.fwpend.takeWhile (· != k)).all fun e => !fwWaits s e k) &&
    (s.fwrun.filter fun r => !r.answered).all fun r => !fwWaits s r.cmd k

/-- The status of a command that does not reach its own rules, in the order of log entry 23. -/
def gate (s : State) (k : FwCmd) : Option W8 :=
  let t := k.hdr.target.toNat
  if s.faulted then some 4
  else if !s.negotiated && decide (4 < k.opc.toNat) then some 5
  else if (match (fwInfo k.opc).bind (·.2) with | some b => !(s.feat.rd 0).getLsbD b | none => false) then some 5
  else if !k.hdr.zeroOk then some 2
  else match scopeOf k with
    | .global => none
    | .pad => if 48 ≤ t then some 2 else if !(s.pad t).live && k.opc != 0x10 then some 4 else none
    | .vf => if 1024 ≤ t then some 2 else if !(s.vf t).active && k.opc != 0x20 then some 4 else none

/-- What a command comes to: done with a value, refused with a status, also after a request of it that ended a context, under way, or tried again
later. -/
inductive FwRes where
  | done (s : State) (value : W64)
  | no (status : W8)
  | fail (s : State) (status : W8)
  | go (s : State) (answered : Bool)
  | wait (s : State)

/-- Runs a command: from the queue once it may start, then, while it is under way, whenever its next step is due. -/
def firmware (k : FwCmd) (body : State → FwRes) (more : Running → State → State) (s : State) : Out :=
  if startable s k then
    let pend := s.fwpend
    let s := { s with fwpend := s.fwpend.erase k }
    let answer (s : State) (st : W8) (v : W64) : State := fwComplete s k.hdr.tag k.opc st v
    match gate s k with
    | some st => .next (answer s st 0)
    | none =>
      match body s with
      | .done s v => .next (answer s 0 v)
      | .no st => .next (answer s st 0)
      | .fail s st => .next (answer s st 0)
      | .go s answered =>
        let r : Running := { cmd := k, since := s.bell.toNat, forced := false, answered := answered }
        let s := { s with fwrun := s.fwrun ++ [r] }
        .next (more r (if answered then answer s 0 0 else s))
      | .wait s => .next { s with fwpend := pend }
  else match s.fwrun.find? fun r => r.cmd == k with
    | some r => .next (more r s)
    | none => .next s

/-- A command that is never under way. -/
def firmware1 (k : FwCmd) (body : State → FwRes) (s : State) : Out := firmware k body (fun _ s => s) s

/-- A command is no longer under way. -/
def fwDrop (s : State) (k : FwCmd) : State := { s with fwrun := s.fwrun.filter fun r => r.cmd != k }

/-! ### Buffers by physical address (R302) -/

def physOk (pa n : Nat) : Bool :=
  match pa / 2 ^ 50 with
  | 0 => decide (pa + n ≤ 2 ^ 40)
  | 2 => decide (pa + n ≤ 3 * 2 ^ 50)
  | _ => false

/-- Bytes that a command reads at a physical address; it waits for engine operations that own their lines (12 R285). -/
def withBytes (s : State) (pa n : Nat) (f : List W8 → FwRes) : FwRes := if owned s none [(pa, n)] then .wait s else f (s.mem.read pa n)

/-- A command's answer in memory. -/
def writeBuf (s : State) (pa : Nat) (d : List W8) : FwRes := if owned s none [(pa, d.length)] then .wait s else .done (s.writePa [(pa, d.length)] d) 0

/-- Numbers of the bits of a mask. -/
def bitsOf {n : Nat} (m : BitVec n) : List Nat := (List.range n).filter fun i => m.getLsbD i

/-- A mask of `8 * n` bits held as bytes. -/
def maskAt (d : List W8) (off n : Nat) (w : Nat) : BitVec w := BitVec.ofNat w (field d off n)

/-! ### Parsing (R405, R407) -/

/-- Where the operands of a command lie: offset from byte 8 and bytes of each; a Boolean is bit 0 of its field. -/
def fwFields (opc : Nat) : List (Nat × Nat × Bool) :=
  let q (o : Nat) : Nat × Nat × Bool := (o, 8, false)
  let d (o : Nat) : Nat × Nat × Bool := (o, 4, false)
  let b (o : Nat) : Nat × Nat × Bool := (o, 8, true)
  match opc with
  | 0x01 | 0x14 | 0x25 | 0x26 | 0x31 | 0x41 | 0x42 | 0x49 | 0x4A | 0x4B => [q 0]
  | 0x02 => [q 0, q 8, q 16, q 24]
  | 0x03 | 0x23 | 0x38 | 0x43 | 0x48 | 0x50 => [q 0, q 8]
  | 0x04 => [(0, 32, false), q 32]
  | 0x10 | 0x11 | 0x15 | 0x33 => [q 0, b 8]
  | 0x12 => [(0, 24, false), q 24]
  | 0x13 => [(0, 24, false)]
  | 0x17 => [d 0, d 4, d 8, d 12, d 16, d 20, d 24, d 28]
  | 0x20 => [q 0, d 8, d 12]
  | 0x22 => [q 0, q 8, q 16, q 24]
  | 0x24 => [d 0, d 4]
  | 0x30 => [d 0, d 4, q 8]
  | 0x32 => [d 0, d 4, b 8]
  | 0x40 => [q 0, (8, 32, false)]
  | _ => []

/-- The command in a 64-byte entry; none for an unknown OPC. -/
def parseFw (d : List W8) : Option FwCmd :=
  let opc := field d 0 2
  (fwInfo (BitVec.ofNat 16 opc)).map fun _ =>
    { opc := BitVec.ofNat 16 opc,
      hdr := { tag := BitVec.ofNat 16 (field d 2 2), target := BitVec.ofNat 16 (field d 4 2), zeroOk := field d 6 2 == 0 },
      args := (fwFields opc).map fun f => if f.2.2 then field d (8 + f.1) f.2.1 % 2 else field d (8 + f.1) f.2.1 }

/-- The status of an unknown OPC: what answers every command comes first (R408, R412; log entry 23). -/
def unknownStatus (s : State) : W8 := if s.faulted then 4 else if !s.negotiated then 5 else 1

/-- Takes the commands that the doorbell offers; one of an unknown OPC is answered at once. -/
def fetchCommands : Nat → State → State
  | 0, s => s
  | n + 1, s =>
    if !s.fwen || s.fwhead = s.fwtail then s
    else
      let d := s.hostRead (s.fwqbase.toNat + 64 * (s.fwhead.toNat % 2 ^ s.fwlogn.toNat)) 64
      let s := { s with fwhead := s.fwhead + 1 }
      match parseFw d with
      | some i => fetchCommands n { s with fwpend := s.fwpend ++ [i] }
      | none => fetchCommands n (fwComplete s (BitVec.ofNat 16 (field d 2 2)) (BitVec.ofNat 16 (field d 0 2)) (unknownStatus s) 0)

def offered (s : State) : Nat := (s.fwtail - s.fwhead).toNat

/-- FWTAIL. -/
def execFwtail (v : W16) (s : State) : Out :=
  let s := { s with fwtail := v }
  .next (fetchCommands (offered s) s)

/-- The firmware ring's registers without a row of their own. -/
def ringWrite (w : HostWrite) (s : State) : State :=
  match w.off / 8 with
  | 0 => if s.fwen then s else { s with fwqbase := merge64 s.fwqbase w }
  | 1 => if s.fwen then s else { s with fwcbase := merge64 s.fwcbase w }
  | 4 =>
    let v := merge64 ((if s.fwen then 0x80 else 0) ||| s.fwlogn.setWidth 64) w
    let n : BitVec 4 := v.setWidth 4
    let s := { s with fwen := v.getLsbD 7, fwlogn := if s.fwen || n.toNat < 4 || 12 < n.toNat then s.fwlogn else n }
    fetchCommands (offered s) s
  | _ => s

/-- REG_WRITE. -/
def execRegWrite (w : HostWrite) (s : State) : Out :=
  match w.win with
  | .pf => .next (if w.off < 0x1000 then ringWrite w s else pfWrite w s)
  | .vf n => .next (vfWindowWrite n w s)

/-! ### IDENTIFY, NEGOTIATE, PATCH_LOAD, ATTEST (R407-R410) -/

/-- Exactly `n` bytes. -/
def exactly (n : Nat) (d : List W8) : List W8 := (d ++ zeros n).take n

/-- FEAT0CAP. -/
def feat0Cap : W64 := 0xFFF

def patchVersion (s : State) : W32 := match s.patch with | some p => p.version | none => 0

/-- The page of IDENTIFY: part number and ROM version, patch version, FEAT caps, certificates (log entry 10). -/
def identityPage (s : State) : List W8 :=
  exactly 4096 (Config.partAndRom ++ natLe 4 (patchVersion s).toNat ++ natLe 8 feat0Cap.toNat ++ natLe 8 1 ++ zeros 16 ++ Config.certificates)

def identifyBody (buf : W64) (s : State) : FwRes := if physOk buf.toNat 4096 then writeBuf s buf.toNat (identityPage s) else .no 2

def execIdentify (c : FwHdr) (buf : W64) (s : State) : Out := firmware1 ⟨0x01, c, [buf.toNat]⟩ (identifyBody buf) s

def negotiateBody (f0 f1 f2 f3 : W64) (s : State) : FwRes :=
  if f0 &&& ~~~feat0Cap ≠ 0 ∨ f1 ≠ 1 ∨ f2 ≠ 0 ∨ f3 ≠ 0 then .no 2
  else if s.negotiated then .no 4
  else .done { s with feat := (((s.feat.wr 0 f0).wr 1 f1).wr 2 f2).wr 3 f3, negotiated := true } 0

def execNegotiate (c : FwHdr) (f0 f1 f2 f3 : W64) (s : State) : Out :=
  firmware1 ⟨0x02, c, [f0.toNat, f1.toNat, f2.toNat, f3.toNat]⟩ (negotiateBody f0 f1 f2 f3) s

def anyActive (s : State) : Bool := s.vfs.any fun e => e.2.active

/-- The checks of R409 on an image: the header of 192 bytes, the body's length and digest, the key's digest against the fuses, the signature over
the first 128 bytes and the body, and the SVN against the fused counter. -/
def patchOk (s : State) (d : List W8) (h : Config.PatchHead) : Bool :=
  let body := d.drop 192
  h.known && decide (192 ≤ d.length) && h.len == body.length && h.digest == sha256 body && sha256 h.key == Config.patchKeyDigest &&
    ecdsaOk (beNat (h.key.take 32), beNat (h.key.drop 32)) (d.take 128 ++ body) (beNat ((d.drop 128).take 32)) (beNat ((d.drop 160).take 32)) &&
    decide (s.fuseSvn ≤ h.svn)

def patchBody (pa len : W64) (s : State) : FwRes :=
  if s.negotiated && !(s.feat.rd 0).getLsbD 10 then .no 5
  else if 262144 < len.toNat || !physOk pa.toNat len.toNat then .no 2
  else if anyActive s then .no 4
  else withBytes s pa.toNat len.toNat fun d =>
    match Config.patchHead (d.take 128) with
    | none => .no 6
    | some h =>
      if !patchOk s d h then .no 6
      else .done { s with patch := some { svn := h.svn, version := h.version, image := d },
                          fuseSvn := if h.flags.getLsbD 0 && s.fuseSvn.ult h.svn then h.svn else s.fuseSvn } 0

def execPatchLoad (c : FwHdr) (pa len : W64) (s : State) : Out := firmware1 ⟨0x03, c, [pa.toNat, len.toNat]⟩ (patchBody pa len) s

/-- An entry of PORTOWN or MEMOWN (R398, R399). -/
def portWord (p : Port) : List W8 :=
  natLe 2 (p.owner.toNat + 256 * p.lender.toNat + if p.pending then 32768 else 0)

def regionWord (r : Region) : List W8 :=
  natLe 8 (r.owner.toNat + (if r.host then 64 else 0) + (if r.shared then 128 else 0) + 65536 * r.share.toNat)

/-- The PORTOWN and MEMOWN tables. -/
def ownTables (s : State) : List W8 :=
  ((List.range 220).flatMap fun i => portWord (s.port i)) ++ ((List.range 352).flatMap fun i => portWord (s.memPort i)) ++
    (List.range 1024).flatMap fun i => regionWord (s.region i)

/-- The report of ATTEST: 192 bytes, and their signature (log entry 10). -/
def attestReport (s : State) (nonce : BitVec 256) : List W8 :=
  let patch := match s.patch with
    | some p => natLe 4 p.svn.toNat ++ sha256 p.image
    | none => zeros 36
  let d := exactly 52 Config.reportHead ++ patch ++ (([0, 1, 2, 3] : List (BitVec 2)).flatMap fun i => natLe 8 (s.feat.rd i).toNat) ++
    sha256 (ownTables s) ++ natLe 8 s.ns.toNat ++ natLe 32 nonce.toNat
  d ++ ecdsaSign Config.identityKey (Config.signNonce s.free) d

def attestBody (nonce : BitVec 256) (buf : W64) (s : State) : FwRes :=
  if !physOk buf.toNat 256 then .no 2
  else match writeBuf s buf.toNat (attestReport s nonce) with
    | .done s v => .done { s with free := s.free + 1 } v
    | r => r

def execAttest (c : FwHdr) (nonce : BitVec 256) (buf : W64) (s : State) : Out := firmware1 ⟨0x04, c, [nonce.toNat, buf.toNat]⟩ (attestBody nonce buf) s

/-! ### Read-only shared frame sets (R413) -/

/-- The first number from a free one on that passes. -/
def freeNumber (n seed : Nat) (ok : Nat → Bool) : Option Nat := ((List.range n).map fun i => (seed + i) % n).find? ok

def setOf (s : State) (r : Nat) : Bool := s.sets.any fun e => e.2.regions.contains r

def setRegion (s : State) (r : Nat) (f : Region → Region) : State := { s with regions := s.regions.put r (f (s.region r)) }

def State.setRegions (s : State) (rs : List Nat) (f : Region → Region) : State := rs.foldl (fun s r => setRegion s r f) s

/-- Regions in the host-managed window. -/
def hostCount (s : State) : Nat := (s.regions.filter fun e => e.2.host).length

def zeroRegions (s : State) (rs : List Nat) : State :=
  let inside (a : Nat) : Bool := paClass a == 0 && rs.contains (regionOf a)
  { s with mem := s.mem.filter fun c => !inside c.1, ecc := s.ecc.filter fun l => !inside (128 * l),
           soft := s.soft.filter fun l => !inside (128 * l) }

def sharedCreateBody (pa f : W64) (s : State) : FwRes :=
  if !physOk pa.toNat 128 then .no 2
  else withBytes s pa.toNat 128 fun d =>
    let rs := bitsOf (maskAt d 0 128 1024)
    let n := f.toNat
    if 48 ≤ n ∧ n ≠ 63 then .no 2
    else if n = 63 ∧ !(s.feat.rd 0).getLsbD 1 then .no 5
    else if n ≠ 63 ∧ !(s.pad n).live then .no 4
    else if (rs.any fun r => (s.region r).owner != 63 || (s.region r).host || (s.region r).shared) || (n == 63 && decide (256 < hostCount s + rs.length))
    then .no 3
    else
      match freeNumber 65536 (Config.pick s.free) fun k => (s.sets.get k).isNone with
      | none => .no 3
      | some k =>
        let s := (zeroRegions s rs).setRegions rs fun r => if n = 63 then { r with host := true } else { r with owner := BitVec.ofNat 6 n }
        .done { s with sets := s.sets.put k { regions := rs, fill := n, sealed_ := false }, free := s.free + 1 } (BitVec.ofNat 64 k)

def execSharedCreate (c : FwHdr) (pa f : W64) (s : State) : Out := firmware1 ⟨0x48, c, [pa.toNat, f.toNat]⟩ (sharedCreateBody pa f) s

/-- Cached translations of some regions' frames are dropped. -/
def dropRegions (s : State) (rs : List Nat) (f : Cached → Bool) : State :=
  s.dropTlb fun c => f c && paClass c.pa == 0 && rs.any fun r => decide (c.pa < (r + 1) * 2 ^ 30) && decide (r * 2 ^ 30 < c.pa + c.size)

def sharedMapBody (pd : Nat) (set : W64) (s : State) : FwRes :=
  match s.sets.get set.toNat with
  | none => .no 2
  | some x => if !x.sealed_ then .no 4
    else .done (s.setRegions x.regions fun r => { r with share := r.share ||| (1#48 <<< pd) }) 0

def execSharedMap (c : FwHdr) (set : W64) (s : State) : Out := firmware1 ⟨0x49, c, [set.toNat]⟩ (sharedMapBody c.target.toNat set) s

/-- A sealed set that no Paddock reads any more returns to unowned regions. -/
def sharedUnmapBody (pd : Nat) (set : W64) (s : State) : FwRes :=
  match s.sets.get set.toNat with
  | none => .no 2
  | some x => if !x.sealed_ then .no 4
    else
      let s := dropRegions s x.regions fun c => (s.vf c.vf).paddock.toNat == pd
      let s := s.setRegions x.regions fun r => { r with share := r.share &&& ~~~(1#48 <<< pd) }
      if x.regions.all fun r => (s.region r).share == 0 then
        .done { s with regions := s.regions.filter (fun e => !x.regions.contains e.1), sets := s.sets.del set.toNat } 0
      else .done s 0

def execSharedUnmap (c : FwHdr) (set : W64) (s : State) : Out := firmware1 ⟨0x4A, c, [set.toNat]⟩ (sharedUnmapBody c.target.toNat set) s

/-- SHARED_SEAL: cached translations go; accesses under way to the set's frames are performed; then it is read-only (R413). -/
def sharedSealBody (set : W64) (s : State) : FwRes :=
  match s.sets.get set.toNat with
  | none => .no 2
  | some x => if x.sealed_ then .no 4
    else
      let s := dropRegions s x.regions fun _ => true
      if holding s (fun _ => true) (fun l => match l with | .pa a => paClass a == 0 && x.regions.contains (regionOf a) | _ => false) then .wait s
      else
      let share : BitVec 48 := if x.fill < 48 then 1#48 <<< x.fill else 0
      let s := s.setRegions x.regions fun r => { r with owner := 63, host := false, shared := true, share := share }
      .done { s with sets := s.sets.put set.toNat { x with sealed_ := true } } 0

def execSharedSeal (c : FwHdr) (set : W64) (s : State) : Out := firmware1 ⟨0x4B, c, [set.toNat]⟩ (sharedSealBody set) s

/-! ### DOMAIN_FORM (16 R346) -/

def domainBody (num pa : W64) (s : State) : FwRes :=
  if 255 < num.toNat || !physOk pa.toNat 1 then .no 2
  else .done { s with modnum := some (num.setWidth 8), bindings := Config.bindings fun i => s.mem.get (pa.toNat + i) } 0

def execDomainForm (c : FwHdr) (num pa : W64) (s : State) : Out := firmware1 ⟨0x50, c, [num.toNat, pa.toNat]⟩ (domainBody num pa) s

end Sys2Proof.Machine
end

