-- ==== Sys2Proof/Machine/FwPaddock.lean ====
section
/-! DEFINITION. Firmware commands on Paddocks: ports, regions, lending, roots, timers (20 R398-R403, R407). -/

namespace Sys2Proof.Machine

/-! ### PADDOCK_SET (R401, R402) -/

/-- A port list: masks of cores, encoders, heads, scratchpad slices, Fold segments and LPDDR slices. -/
structure PortList where
  cores : BitVec 192
  enc : BitVec 24
  heads : BitVec 4
  slices : BitVec 192
  segs : BitVec 64
  lp : BitVec 96
  deriving DecidableEq, Repr

def parsePorts (d : List W8) : Option PortList :=
  if field d 24 4 < 2 ^ 24 ∧ field d 28 1 < 16 ∧ field d 73 23 = 0 then
    some { cores := maskAt d 0 24 192, enc := maskAt d 24 4 24, heads := maskAt d 28 1 4, slices := maskAt d 29 24 192,
           segs := maskAt d 53 8 64, lp := maskAt d 61 12 96 }
  else none

/-- Whether a list names a requester port, and a memory-side port. -/
def PortList.req (l : PortList) (i : Nat) : Bool :=
  if i < 192 then l.cores.getLsbD i else if i < 216 then l.enc.getLsbD (i - 192) else l.heads.getLsbD (i - 216)
def PortList.mem (l : PortList) (i : Nat) : Bool :=
  if i < 96 then l.lp.getLsbD i else if i < 288 then l.slices.getLsbD (i - 96) else l.segs.getLsbD (i - 288)

def allReqPorts : List Nat := List.range 220
def allMemPorts : List Nat := List.range 352

def PortList.isEmpty (l : PortList) : Bool := !(allReqPorts.any fun i => l.req i) && !(allMemPorts.any fun i => l.mem i)

def ownsReq (s : State) (pd i : Nat) : Bool := (s.port i).owner.toNat == pd
def ownsMem (s : State) (pd i : Nat) : Bool := (s.memPort i).owner.toNat == pd

def State.setPort (s : State) (i : Nat) (p : Port) : State := { s with ports := s.ports.put i p }
def State.setMemPort (s : State) (i : Nat) (p : Port) : State := { s with memPorts := s.memPorts.put i p }

/-- A port that leaves a Paddock: a lent core goes back to its lender (log entry 24). -/
def Port.left (p : Port) : Port := { owner := p.lender, lender := 63, pending := false }

/-- Whether an admitted stream of a Paddock names a requester port. -/
def streamNames (s : State) (pd i : Nat) : Bool :=
  (s.pad pd).streamList.any fun t =>
    if i < 192 then t.2.cores.getLsbD i
    else if i < 216 then t.2.kind == 2 && t.2.unit == i - 192
    else t.2.kind == 1 && t.2.unit == i - 216

/-- Segments of a Paddock, ascending. -/
def segmentsOf (s : State) (pd : Nat) : List Nat := (List.range 64).filter fun i => ownsMem s pd (288 + i)

/-- Whether a ring of a Paddock lies in its `k`-th segment. -/
def ringIn (p : Paddock) (k : Nat) : Bool :=
  (List.range 64).any fun n => match p.ring n with
    | some r => decide (r.base < (k + 1) * 2 ^ 20) && decide (k * 2 ^ 20 < r.base + r.slots.length * r.slotsz)
    | none => false

def segmentHoldsRing (s : State) (pd seg : Nat) : Bool := ringIn (s.pad pd) ((segmentsOf s pd).takeWhile (· != seg)).length

/-- Whether the present state refuses a removal. -/
def removalRefused (s : State) (pd : Nat) (l : PortList) : Bool :=
  (allReqPorts.any fun i => ownsReq s pd i && !l.req i && streamNames s pd i) ||
    (allMemPorts.any fun i => ownsMem s pd i && !l.mem i &&
      (if i < 96 then !(vfsOf s pd).isEmpty else if 288 ≤ i then segmentHoldsRing s pd (i - 288) else false))

/-- Whether another Paddock holds a port that a list names. -/
def portsLacking (s : State) (pd : Nat) (l : PortList) : Bool :=
  (allReqPorts.any fun i => l.req i && !ownsReq s pd i && (s.port i).owner != 63) ||
    allMemPorts.any fun i => l.mem i && !ownsMem s pd i && (s.memPort i).owner != 63

/-- The cores of a Paddock that stay. -/
def staying (s : State) (pd core : Nat) : Bool := ownsCore s pd core && !(s.port core).pending

/-- A cooperative grid with placed clusters that the cores that stay cannot take (R401). -/
def coopStuck (s : State) (pd : Nat) (e : Nat × Grid) : Bool :=
  e.2.paddock == pd && e.2.launch.coop &&
    (let cs := s.clusters.filter fun c => c.2.grid == e.1
     !cs.isEmpty && !fitAll (staying s pd) e.2.kernel cs.length [])

def pendingCores (s : State) (pd : Nat) : List Nat := (List.range 192).filter fun i => ownsCore s pd i && (s.port i).pending
def pendingSlices (s : State) (pd : Nat) : List Nat :=
  ((List.range 192).map (· + 96)).filter fun i => ownsMem s pd i && (s.memPort i).pending

/-- A cooperative grid that the cores that stay cannot take keeps those of its cores that go, where its teams run or were saved from (R401). -/
def keepCores (s : State) (pd : Nat) : State :=
  { s with grids := s.grids.map fun e =>
      if coopStuck s pd e then (e.1, { e.2 with kept := (pendingCores s pd).filter fun i => s.teams.any fun t => t.2.grid == e.1 && t.2.last == i })
      else e }

/-- New ports at once; encoders, heads, segments and LPDDR slices leave at once; cores and scratchpad slices are pending, and those that nothing holds
leave as soon as that is known. -/
def movePorts (s : State) (pd : Nat) (l : PortList) : State :=
  let mine : Port := { owner := BitVec.ofNat 6 pd, lender := 63, pending := false }
  let s := allReqPorts.foldl (fun s i =>
    if l.req i && !ownsReq s pd i then s.setPort i mine
    else if !l.req i && ownsReq s pd i then
      if 192 ≤ i then s.setPort i (s.port i).left else s.setPort i { s.port i with pending := true }
    else s) s
  let s := allMemPorts.foldl (fun s i =>
    if l.mem i && !ownsMem s pd i then s.setMemPort i mine
    else if !l.mem i && ownsMem s pd i then
      if 96 ≤ i ∧ i < 288 then s.setMemPort i { s.memPort i with pending := true } else s.setMemPort i Port.none
    else s) s
  keepCores s pd

/-- Whether a core waits for the end of a cooperative grid. -/
def coreHeld (s : State) (core : Nat) : Bool := s.grids.any fun e => e.2.kept.contains core

/-- Whether a pending port may leave: no team is on the core and no grid keeps it; no grid holds granules of the slice (R401). -/
def coreFree (s : State) (core : Nat) : Bool := (coreTeams s core).isEmpty && !coreHeld s core

/-- Pending ports whose last cause has ended leave; with none left PEND falls (R402). -/
def leavePorts (s : State) (pd : Nat) : State :=
  let s' := ((pendingCores s pd).filter (coreFree s)).foldl (fun s i => s.setPort i (s.port i).left) s
  let s' := ((pendingSlices s pd).filter fun i => sliceUsed s (i - 96) == 0).foldl (fun s i => s.setMemPort i Port.none) s'
  let pend := !(pendingCores s' pd).isEmpty || !(pendingSlices s' pd).isEmpty
  let fell := (s'.pad pd).pend && !pend
  let s' := s'.setPad pd fun p => { p with pend := pend }
  if fell then s'.msixFire (2 + pd) else s'

/-- Teams on some cores. -/
def teamsOn (s : State) (cs : List Nat) : List (Nat × Team) :=
  s.teams.filter fun e => match e.2.core with | some c => cs.contains c | none => false

/-- Whether a team runs a cooperative grid that keeps cores to its end. -/
def teamStuck (s : State) (t : Team) : Bool := match s.grid t.grid with | some d => !d.kept.isEmpty | none => false

/-- What a pending shrink does next: at GRACE the forced step, and ports leave (R401, 18 R371). -/
def shrinkStep (pd : Nat) (r : Running) (s : State) : State :=
  let due := !r.forced && decide (r.since + (s.pad pd).timers.grace.toNat * 2 ^ 32 ≤ s.bell.toNat)
  let s := if due then
      let s := ((teamsOn s (pendingCores s pd)).filter fun t => !teamStuck s t.2).foldl (fun s t => forceStop s t.1) s
      { s with fwrun := s.fwrun.map fun x => if x.cmd = r.cmd then { x with forced := true } else x }
    else s
  let s := leavePorts s pd
  if (s.pad pd).pend then s else fwDrop s r.cmd

def cCoopEvicted : W8 := 0x33

/-- With FORCE, the context of a cooperative grid that keeps cores ends at once. -/
def evictCoop (s : State) (pd : Nat) : State :=
  (s.grids.filter fun e => e.2.paddock == pd && !e.2.kept.isEmpty).foldl (fun s e => endContext s e.2.vf cCoopEvicted 0) s

/-- A Paddock that is destroyed gives up its regions; its event ring's registers stay. -/
def dropPaddock (s : State) (pd : Nat) : State :=
  let rs := (s.regions.filter fun e => e.2.owner.toNat == pd && !setOf s e.1).map (·.1)
  let s := { s with regions := s.regions.filter fun e => !rs.contains e.1 }
  s.setPad pd fun p => { Paddock.reset with evbase := p.evbase, evovf := p.evovf, evlog := p.evlog, evwrite := p.evwrite, evread := p.evread,
                                            events := p.events }

def paddockSetBody (pd : Nat) (pa : W64) (force : Bool) (s : State) : FwRes :=
  if !physOk pa.toNat 96 then .no 2
  else withBytes s pa.toNat 96 fun d => match parsePorts d with
    | none => .no 2
    | some l =>
      if (s.pad pd).pend then .no 4
      else if portsLacking s pd l then .no 3
      else if removalRefused s pd l || (l.isEmpty && !(vfsOf s pd).isEmpty) then .no 4
      else
        let s := movePorts s pd l
        if l.isEmpty then .done (dropPaddock (leavePorts s pd) pd) 0
        else
          let s := s.setPad pd fun p => { p with live := true }
          .go (if force then evictCoop s pd else s) true

def execPaddockSet (c : FwHdr) (pa : W64) (force : Bool) (s : State) : Out :=
  firmware ⟨0x10, c, [pa.toNat, force.toNat]⟩ (paddockSetBody c.target.toNat pa force) (shrinkStep c.target.toNat) s

/-! ### PADDOCK_REGIONS (R399, R407) -/

/-- Frames of 4 KiB of a region. -/
def regionFrames (r : Nat) : List Nat := (List.range 262144).map fun i => r * 2 ^ 30 + 4096 * i

/-- A region joins the Paddock, or is taken back. Its frames join the store unless it lies in the host-managed window. -/
def toggleRegion (pd : Nat) (host : Bool) (s : State) (r : Nat) : State :=
  if (s.region r).owner.toNat = pd then
    let s := s.setPad pd fun p => { p with store := p.store.filter fun f => regionOf f != r }
    { s with regions := s.regions.del r }
  else
    let s := setRegion s r fun x => { x with owner := BitVec.ofNat 6 pd, host := host }
    if host then s else s.setPad pd fun p => { p with store := p.store ++ regionFrames r }

def paddockRegionsBody (pd : Nat) (pa : W64) (host : Bool) (s : State) : FwRes :=
  if host && !(s.feat.rd 0).getLsbD 1 then .no 5
  else if !physOk pa.toNat 128 then .no 2
  else withBytes s pa.toNat 128 fun d =>
    let rs := bitsOf (maskAt d 0 128 1024)
    let given := rs.filter fun r => (s.region r).owner.toNat != pd
    if rs.any fun r => setOf s r || ((s.region r).owner.toNat != pd && ((s.region r).owner != 63 || (s.region r).host)) then .no 3
    else if host && decide (256 < hostCount s + given.length) then .no 3
    else
      let s := rs.foldl (toggleRegion pd host) s
      .done (if given.isEmpty then s else (vfsOf s pd).foldl wakePgmaps s) 0

def execPaddockRegions (c : FwHdr) (pa : W64) (host : Bool) (s : State) : Out :=
  firmware1 ⟨0x11, c, [pa.toNat, host.toNat]⟩ (paddockRegionsBody c.target.toNat pa host) s

/-! ### LEND, RECLAIM (R403) -/

def lendBody (pd : Nat) (mask : BitVec 192) (dest : W64) (s : State) : FwRes :=
  let cs := bitsOf mask
  let b := dest.toNat
  if 48 ≤ b ∨ b = pd then .no 2
  else if (s.pad pd).pend || !(s.pad b).live || (s.pad b).pend then .no 4
  else if cs.any fun i => !ownsCore s pd i || (s.port i).lender != 63 then .no 3
  else if cs.any fun i => !(coreTeams s i).isEmpty || streamNames s pd i then .no 4
  else .done (cs.foldl (fun s i => s.setPort i { owner := BitVec.ofNat 6 b, lender := BitVec.ofNat 6 pd, pending := false }) s) 0

def execLend (c : FwHdr) (mask : BitVec 192) (dest : W64) (s : State) : Out :=
  firmware1 ⟨0x12, c, [mask.toNat, dest.toNat]⟩ (lendBody c.target.toNat mask dest) s

def lentCores (s : State) (pd : Nat) (mask : BitVec 192) : List Nat := (bitsOf mask).filter fun i => (s.port i).lender.toNat == pd

/-- A cluster of a team is marked as saved from a reclaimed core. -/
def markReclaim (s : State) (t : Team) : State :=
  match s.cluster t.cluster with
  | some x => s.setCluster t.cluster { x with reclaim := true }
  | none => s

def isForced (t : Team) : Bool := match t.stop with | some q => q.forced | none => false

/-- What RECLAIM does next: at the borrower's GRACE the forced step; an empty core returns; with the last, the command completes. -/
def reclaimStep (pd : Nat) (mask : BitVec 192) (r : Running) (s : State) : State :=
  let late (i : Nat) : Bool := decide (r.since + (s.pad (s.port i).owner.toNat).timers.grace.toNat * 2 ^ 32 ≤ s.bell.toNat)
  let ts := (teamsOn s ((lentCores s pd mask).filter late)).filter fun t => !isForced t.2
  let s := ts.foldl (fun s t => forceStop (markReclaim s t.2) t.1) s
  let s := (lentCores s pd mask).foldl (fun s i => if (coreTeams s i).isEmpty then s.setPort i (s.port i).left else s) s
  if (lentCores s pd mask).isEmpty then fwComplete (fwDrop s r.cmd) r.cmd.hdr.tag 0x13 0 0 else s

def reclaimBody (pd : Nat) (mask : BitVec 192) (s : State) : FwRes :=
  if (s.pad pd).pend then .no 4
  else if (bitsOf mask).any fun i => (s.port i).lender.toNat != pd then .no 3
  else .go s false

def execReclaim (c : FwHdr) (mask : BitVec 192) (s : State) : Out :=
  firmware ⟨0x13, c, [mask.toNat]⟩ (reclaimBody c.target.toNat mask) (reclaimStep c.target.toNat mask) s

/-! ### S2ROOT, S2INV, TIMERS (R407) -/

def s2rootBody (pd : Nat) (pa : W64) (s : State) : FwRes :=
  if pa.toNat % 4096 ≠ 0 ∨ !physOk pa.toNat 4096 then .no 2
  else if s.grids.any fun e => e.2.paddock == pd then .no 4
  else .done ((s.setPad pd fun p => { p with s2root := pa }).dropTlb fun c => (s.vf c.vf).paddock.toNat == pd) 0

def execS2root (c : FwHdr) (pa : W64) (s : State) : Out := firmware1 ⟨0x14, c, [pa.toNat]⟩ (s2rootBody c.target.toNat pa) s

/-- S2INV completes when no access that was translated before it is under way (14 R309). The cache holds no IPA, so every translation of the
Paddock's VFs goes (log entry 6). -/
def s2invBody (pd : Nat) (s : State) : FwRes :=
  let s := s.dropTlb fun c => (s.vf c.vf).paddock.toNat == pd
  if holding s (fun vf => (s.vf vf).paddock.toNat == pd) Loc.isPhys then .wait s else .done s 0

def execS2inv (c : FwHdr) (ipa : W64) (all : Bool) (s : State) : Out :=
  firmware1 ⟨0x15, c, [ipa.toNat, all.toNat]⟩ (s2invBody c.target.toNat) s

/-- A timer's new value: 0 keeps. -/
def keep0 (old new : W32) : W32 := if new = 0 then old else new

def Timers.after (o n : Timers) : Timers :=
  { spwin := keep0 o.spwin n.spwin, prep := keep0 o.prep n.prep, grace := keep0 o.grace n.grace, killt := keep0 o.killt n.killt,
    agep := keep0 o.agep n.agep, fabto := keep0 o.fabto n.fabto, start := keep0 o.start n.start, slice := keep0 o.slice n.slice }

/-- The limits of R366, R371, R372 and 16 R347. -/
def timersOk (t : Timers) : Bool :=
  decide (256 ≤ t.spwin.toNat) && decide (t.spwin.toNat ≤ 65536) && decide ((10 * t.spwin.toNat + 20) / 21 + 100 ≤ t.prep.toNat) &&
    decide (10000 ≤ t.grace.toNat) && decide (t.grace.toNat ≤ 10000000) && decide (t.grace.toNat ≤ t.killt.toNat) &&
    decide (10000 ≤ t.fabto.toNat) && decide (t.fabto.toNat ≤ 1000000000) &&
    (t.slice == 0xFFFFFFFF || (decide (100000 ≤ t.slice.toNat) && decide (t.slice.toNat ≤ 1000000000)))

def timersBody (pd : Nat) (t : Timers) (s : State) : FwRes :=
  let n := Timers.after (s.pad pd).timers t
  if timersOk n then .done (s.setPad pd fun p => { p with timers := n }) 0 else .no 2

def execTimers (c : FwHdr) (t : Timers) (s : State) : Out :=
  firmware1 ⟨0x17, c, [t.spwin.toNat, t.prep.toNat, t.grace.toNat, t.killt.toNat, t.agep.toNat, t.fabto.toNat, t.start.toNat, t.slice.toNat]⟩
    (timersBody c.target.toNat t) s

/-! ### FOLD_RING (18 R380) -/

/-- The ring that an entry describes, if it keeps the limits that concern it alone. -/
def parseRing (d : List W8) : Option Ring :=
  let f (o n : Nat) : Nat := field d o n
  let r : Ring := { base := f 0 4, slotsz := f 4 4, pitch := f 8 2, lines := f 10 1, lastl := f 11 1, h := f 13 1, cons := f 14 1, unit := f 15 1,
                    fmt := f 16 1, width := f 18 2, stream := f 20 2, slots := List.replicate (f 12 1) .free, tail := 0 }
  let n := f 12 1
  if r.base % 1024 = 0 ∧ r.slotsz = r.lines * r.pitch ∧ r.pitch % 64 = 0 ∧ 64 ≤ r.pitch ∧ r.pitch ≤ 16384 ∧
      16 ≤ r.lines ∧ r.lines ≤ 128 ∧ r.lines % 8 = 0 ∧ (r.cons = 2 → r.lines = 64 ∨ r.lines = 128) ∧
      r.lastl % 8 = 0 ∧ 8 ≤ r.lastl ∧ r.lastl ≤ r.lines ∧ 2 ≤ n ∧ n ≤ 16 ∧ r.h ≤ 16 ∧ r.h ≤ r.lines ∧ (r.cons ≠ 0 → r.h = 0) ∧
      r.cons ≤ 2 ∧ (r.cons = 1 → r.unit < 4) ∧ (r.cons = 2 → r.unit < 24) ∧ r.fmt ≤ 1 ∧ f 17 1 = 0 ∧ 4 * r.width ≤ r.pitch ∧
      r.width ≤ 4096 ∧ r.stream < 64 ∧ f 22 10 = 0
  then some r else none

def Ring.size (r : Ring) : Nat := r.slots.length * r.slotsz

/-- Whether another ring of the Paddock overlaps. -/
def ringOverlaps (p : Paddock) (n : Nat) (r : Ring) : Bool :=
  (List.range 64).any fun k => k != n && match p.ring k with
    | some x => decide (x.base < r.base + Ring.size r) && decide (r.base < x.base + Ring.size x)
    | none => false

def foldRingBody (pd : Nat) (ring : W64) (e : BitVec 256) (s : State) : FwRes :=
  let p := s.pad pd
  match parseRing (natLe 32 e.toNat) with
  | none => .no 2
  | some r =>
    if 64 ≤ ring.toNat then .no 2
    else if (segmentsOf s pd).length * 2 ^ 20 < r.base + Ring.size r ∨ ringOverlaps p ring.toNat r then .no 2
    else if p.streamList.any fun t => t.2.ringList.contains ring.toNat then .no 4
    else .done (s.setPad pd fun p => p.setRing ring.toNat r) 0

def execFoldRing (c : FwHdr) (ring : W64) (e : BitVec 256) (s : State) : Out :=
  firmware1 ⟨0x40, c, [ring.toNat, e.toNat]⟩ (foldRingBody c.target.toNat ring e) s

/-! ### HEAD_TIMING (18 R382) -/

def headTimingBody (pd : Nat) (head pa : W64) (s : State) : FwRes :=
  if 4 ≤ head.toNat ∨ !physOk pa.toNat 64 then .no 2
  else if !ownsReq s pd (216 + head.toNat) then .no 4
  else withBytes s pa.toNat 64 fun d =>
    let r : BitVec 512 := BitVec.ofNat 512 (leNat d)
    .done (s.setPad pd fun p => { p with heads := p.heads.wr (head.setWidth 2) r }) 0

def execHeadTiming (c : FwHdr) (head pa : W64) (s : State) : Out :=
  firmware1 ⟨0x43, c, [head.toNat, pa.toNat]⟩ (headTimingBody c.target.toNat head pa) s

end Sys2Proof.Machine
end

