-- ==== Sys2Proof/Machine/FwVf.lean ====
section
/-! DEFINITION. Firmware commands on virtual functions (20 R394, R407, R411, 14 R312-R318, 16 R332-R334). -/

namespace Sys2Proof.Machine

/-! ### RESUME_WALKS (14 R312) -/

/-- Paths and engines of a group that wait for the host go on. -/
def Group.resumeWalks (g : Group) : Group :=
  { g with
    paths := Bank.gen fun i => (g.paths.rd i).map fun p => match p.st with
      | .walk _ _ => { p with st := .walkGo }
      | _ => p,
    copies := Bank.gen fun d => { g.copies.rd d with held := false },
    pairs := Bank.gen fun i => (g.pairs.rd i).map fun x => { x with held := false } }

def resumeWalksBody (vf : Nat) (s : State) : FwRes :=
  let s := { s with groups := s.groups.map fun e : Nat × Group => if s.vfOf e.2 == vf then (e.1, e.2.resumeWalks) else e }
  .done ((s.walks.filter fun w => w.vf == vf).foldl restartWalk s) 0

def execResumeWalks (c : FwHdr) (s : State) : Out := firmware1 ⟨0x16, c, []⟩ (resumeWalksBody c.target.toNat) s

/-! ### VF_ACTIVATE, VF_DEACTIVATE, VF_BOOST, VF_END (R395, R407, R411). What the clock does when the boosted VF is deactivated the manual does
not say: the model keeps it, and the next VF that is alone in the module starts boosted (log entry 39) -/

def vfActivateBody (vf : Nat) (pd : W64) (guar burst : W32) (s : State) : FwRes :=
  if 48 ≤ pd.toNat ∨ burst.ult guar then .no 2
  else if (s.vf vf).active || !(s.pad pd.toNat).live then .no 4
  else
    let s := if anyActive s then { s with mhz := 2100, vfs := s.vfs.map fun e : Nat × Vf => (e.1, { e.2 with boost := false }) } else s
    .done (s.setVf vf fun v =>
      { v with active := true, paddock := pd.setWidth 6, guar := guar.toNat, burst := burst.toNat, ctr := Bank.fill 0, gridCounter := 1, dgen := 0,
               boost := decide (2100 < s.mhz), crook := { v.crook with nwrite := 0 },
               sh := { v.sh with window := s.ns.toNat / 1000, credit := 0 } }) 0

def execVfActivate (c : FwHdr) (pd : W64) (guar burst : W32) (s : State) : Out :=
  firmware1 ⟨0x20, c, [pd.toNat, guar.toNat, burst.toNat]⟩ (vfActivateBody c.target.toNat pd guar burst) s

/-- Pages whose frames a VF took go back to the store, and their leaves become invalid (log entry 9). -/
def freeVfFrames (s : State) (vf : Nat) : State :=
  let v := s.vf vf
  let pd := v.paddock.toNat
  (localLeaves s pd).foldl (fun s l =>
    if v.frames.contains l.2.base then
      let s := writeLeaf s l.2.entry 0 (l.2.size == 65536)
      s.setPad pd fun p => { p with store := p.store ++ framesOf l.2.base l.2.size, ages := KMap.del p.ages l.2.base }
    else s) s

/-- A destroyed queue's key changes (16 R332); it is nonzero. -/
def nextKey (s : State) (old : W32) : W32 :=
  let k := Config.queueKey s.free
  if k ≠ 0 ∧ k ≠ old then k else if old + 1 = 0 then 1 else old + 1

def destroyQueue (s : State) (n : Nat) (q : HwQueue) : State :=
  { s with queues := s.queues.put n { q with live := false, key := nextKey s q.key, count := 0, kept := 0 }, free := s.free + 1 }

/-- The clock stays as it is (log entry 39). -/
def vfDeactivateBody (vf : Nat) (s : State) : FwRes :=
  let s := endContext s vf cKilled 0
  let s := freeVfFrames s vf
  let s := (s.queues.filter fun e => e.2.live && e.2.vf == vf).foldl (fun s e => destroyQueue s e.1 e.2) s
  let s := { s with wqs := s.wqs.filter (fun e => (match e.2.bind with | some (v, _) => v != vf | none => true)),
                    pend := s.pend.filter fun p => p.vf != vf }
  let s := s.dropTlb fun c => c.vf == vf
  .done { s with vfs := s.vfs.del vf } 0

def execVfDeactivate (c : FwHdr) (s : State) : Out := firmware1 ⟨0x21, c, []⟩ (vfDeactivateBody c.target.toNat) s

def vfBoostBody (vf : Nat) (mhz : W64) (s : State) : FwRes :=
  let m := mhz.toNat
  if m < 2100 ∨ 2600 < m ∨ m % 100 ≠ 0 then .no 2
  else if s.vfs.any fun e => e.2.active && e.1 != vf then .no 4
  else .done { s.setVf vf fun v => { v with boost := decide (2100 < m) } with mhz := m } 0

def execVfBoost (c : FwHdr) (mhz : W64) (s : State) : Out := firmware1 ⟨0x25, c, [mhz.toNat]⟩ (vfBoostBody c.target.toNat mhz) s

def vfEndBody (vf : Nat) (cause : W64) (s : State) : FwRes :=
  if cause = 0x32 ∨ cause = 0x40 then .done (endContext s vf (cause.setWidth 8) 0) 0 else .no 2

def execVfEnd (c : FwHdr) (cause : W64) (s : State) : Out := firmware1 ⟨0x26, c, [cause.toNat]⟩ (vfEndBody c.target.toNat cause) s

/-! ### VF_POOL, VF_BACKING, VF_BUDGET (14 R314-R316) -/

def vfPoolBody (vf : Nat) (i vbase len ipa : W64) (s : State) : FwRes :=
  let ok (x : W64) : Bool := x.toNat % 2 ^ 21 == 0
  if 8 ≤ i.toNat || !ok vbase || !ok len || !ok ipa then .no 2
  else
    let p : Option Pool := if len = 0 then none else some { vbase := vbase.toNat, len := len.toNat, ipa := ipa.toNat }
    .done (wakePgmaps (s.setVf vf fun v => { v with pools := v.pools.wr (i.setWidth 3) p }) vf) 0

def execVfPool (c : FwHdr) (i vbase len ipa : W64) (s : State) : Out :=
  firmware1 ⟨0x22, c, [i.toNat, vbase.toNat, len.toNat, ipa.toNat]⟩ (vfPoolBody c.target.toNat i vbase len ipa) s

/-- The list holds `count` 8-byte addresses of host frames. -/
def vfBackingBody (vf : Nat) (pa count : W64) (s : State) : FwRes :=
  if !physOk pa.toNat (8 * count.toNat) then .no 2
  else withBytes s pa.toNat (8 * count.toNat) fun d =>
    let fs := (List.range count.toNat).map fun i => field d (8 * i) 8
    if fs.all fun f => f % 4096 == 0 && f / 2 ^ 50 == 2 then
      .done (wakePgmaps (s.setVf vf fun v => { v with backing := v.backing ++ fs }) vf) 0
    else .no 2

def execVfBacking (c : FwHdr) (pa count : W64) (s : State) : Out :=
  firmware1 ⟨0x23, c, [pa.toNat, count.toNat]⟩ (vfBackingBody c.target.toNat pa count) s

def vfBudgetBody (vf : Nat) (guar burst : W32) (s : State) : FwRes :=
  if burst.ult guar then .no 2
  else .done (wakePgmaps (s.setVf vf fun v => { v with guar := guar.toNat, burst := burst.toNat }) vf) 0

def execVfBudget (c : FwHdr) (guar burst : W32) (s : State) : Out :=
  firmware1 ⟨0x24, c, [guar.toNat, burst.toNat]⟩ (vfBudgetBody c.target.toNat guar burst) s

/-! ### Queues (16 R332, R334) -/

/-- Whether a local range lies in a Paddock's own regions. -/
def paddockMemory (s : State) (pd pa n : Nat) : Bool :=
  decide (pa + n ≤ 2 ^ 40) && (List.range ((n + 2 ^ 30 - 1) / 2 ^ 30 + 1)).all fun i =>
    decide (pa / 2 ^ 30 + i > (pa + n - 1) / 2 ^ 30) || (s.region (pa / 2 ^ 30 + i)).owner.toNat == pd

/-- A handle with rights E, D and S (16 R333). -/
def makeHandle (key : W32) (n : Nat) : W64 := (key.setWidth 64 <<< 32) ||| 0x1C000000 ||| BitVec.ofNat 64 n

def queueCreateBody (vf : Nat) (cap prod : W32) (store : W64) (s : State) : FwRes :=
  if cap = 0 ∨ 65536 < cap.toNat ∨ 65535 < prod.toNat ∨ !paddockMemory s (s.vf vf).paddock.toNat store.toNat (32 * cap.toNat) then .no 2
  else match freeNumber 16384 (Config.pick s.free) fun n => match s.queues.get n with | some q => !q.live | none => true with
    | none => .no 3
    | some n =>
      let key := match s.queues.get n with | some q => q.key | none => nextKey s 0
      let q : HwQueue := { live := true, key := key, cap := cap.toNat, vf := vf, prod := prod.toNat, posts := 0, head := 0, count := 0,
                           store := store.toNat, kept := 0 }
      .done { s.setQueue n q with free := s.free + 1 } (makeHandle key n)

def execQueueCreate (c : FwHdr) (cap prod : W32) (store : W64) (s : State) : Out :=
  firmware1 ⟨0x30, c, [cap.toNat, prod.toNat, store.toNat]⟩ (queueCreateBody c.target.toNat cap prod store) s

/-- A live queue of a VF. -/
def ownQueue (s : State) (vf n : Nat) : Option HwQueue := (s.queues.get n).filter fun q => q.live && q.vf == vf

def queueDestroyBody (vf : Nat) (qnum : W64) (s : State) : FwRes :=
  if 16384 ≤ qnum.toNat then .no 2
  else match ownQueue s vf qnum.toNat with
    | some q => .done (destroyQueue s qnum.toNat q) 0
    | none => .no 4

def execQueueDestroy (c : FwHdr) (qnum : W64) (s : State) : Out :=
  firmware1 ⟨0x31, c, [qnum.toNat]⟩ (queueDestroyBody c.target.toNat qnum) s

def queueSetBody (vf : Nat) (qnum prod : W32) (reset : Bool) (s : State) : FwRes :=
  if 16384 ≤ qnum.toNat ∨ 65535 < prod.toNat then .no 2
  else match ownQueue s vf qnum.toNat with
    | some q => .done (s.setQueue qnum.toNat { q with prod := prod.toNat, posts := if reset then 0 else q.posts }) 0
    | none => .no 4

def execQueueSet (c : FwHdr) (qnum prod : W32) (reset : Bool) (s : State) : Out :=
  firmware1 ⟨0x32, c, [qnum.toNat, prod.toNat, reset.toNat]⟩ (queueSetBody c.target.toNat qnum prod reset) s

/-! ### WQ_BIND (R394) -/

/-- The lowest window index that no queue of a VF holds. -/
def freeWindow (s : State) (vf : Nat) : Option Nat := (List.range 64).find? fun w => (wqAt s vf w).isNone

def wqBindBody (vf : Nat) (q : W64) (unbind : Bool) (s : State) : FwRes :=
  let n := q.toNat
  let x := s.wq n
  if 4096 ≤ n then .no 2
  else if x.en then .no 4
  else if unbind then
    match x.bind with
    | some (v, _) => if v = vf then .done (s.setWq n fun x => { x with bind := none }) 0 else .no 4
    | none => .no 4
  else if x.bind.isSome then .no 4
  else match freeWindow s vf with
    | some w => .done (s.setWq n fun x => { x with bind := some (vf, w) }) (BitVec.ofNat 64 w)
    | none => .no 3

def execWqBind (c : FwHdr) (q : W64) (unbind : Bool) (s : State) : Out :=
  firmware1 ⟨0x33, c, [q.toNat, unbind.toNat]⟩ (wqBindBody c.target.toNat q unbind) s

/-! ### MIGRATE (14 R317, R318) -/

def migrateBody (c : FwHdr) (ipa dst : W64) (s : State) : FwRes :=
  let vf := c.target.toNat
  let pd := (s.vf vf).paddock.toNat
  match stage2 s pd ipa.toNat with
  | .error _ => .no 4
  | .ok l =>
    if (l.size ≠ 4096 ∧ l.size ≠ 65536) ∨ ipa.toNat % l.size ≠ 0 ∨ dst.toNat % l.size ≠ 0 ∨ !frameOk s pd dst.toNat true then .no 2
    else if paClass dst.toNat = 1 ∧ !(s.feat.rd 0).getLsbD 11 then .no 5
    else if l.ms ≠ 0 then .no 4
    else if owned s none [(l.entry, 8)] then .wait s
    else
      let s := s.setPad pd fun p => { p with store := p.store.filter fun f => !(framesOf dst.toNat l.size).contains f }
      .go (startMigration s vf pd ipa.toNat l dst.toNat (some c)) false

def execMigrate (c : FwHdr) (ipa dst : W64) (s : State) : Out :=
  firmware ⟨0x38, c, [ipa.toNat, dst.toNat]⟩ (migrateBody c ipa dst) (fun _ s => s) s

end Sys2Proof.Machine
end

