-- ==== Sys2Proof/Machine/Admit.lean ====
section
/-! DEFINITION. Admission and withdrawal of streams (18 R363-R366, R385, 20 R407). -/

namespace Sys2Proof.Machine

/-- The fields of a stream record, with the stream it makes and its kernels' record addresses. -/
def parseStream (d : List W8) : Nat × Stream :=
  let f (o n : Nat) : Nat := field d o n
  let n := f 6 1
  (f 2 2,
   { kind := f 4 1, unit := f 5 1, nkern := n, srl0 := f 7 1, spf := f 8 2, vf := f 10 2, t0 := f 16 8 * 2 ^ 32 + f 12 4, fper := f 24 8,
     sper := f 32 8, lead := f 40 4, win := f 44 4, guard := f 48 4, qidx := f 52 1, wc := 0, enct := 0, cores := maskAt d 64 24 192,
     kerns := (List.range n).map fun i => BitVec.ofNat 64 (f (96 + 8 * i) 8), tiles := (List.range n).map fun i => f (128 + 4 * i) 4,
     rings := (List.range 4).map fun i => f (144 + 2 * i) 2, crec := BitVec.ofNat 64 (f 152 8), bsr := BitVec.ofNat 64 (f 160 8),
     clog := f 168 1, blog := f 169 1, copies := [], srl := f 7 1, next := 0, chains := [], commits := [],
     cons := { strip := 0, busy := none, lastSlot := none, rec_ := none }, written := 64, withdrawn := false })

/-- The limits of R363 on the record's own fields. -/
def streamFieldsOk (d : List W8) (num : Nat) (t : Stream) : Bool :=
  let zero (o n : Nat) : Bool := field d o n == 0
  decide (field d 0 2 = 1 ∧ num < 64 ∧ (t.kind = 1 ∨ t.kind = 2) ∧ t.unit < (if t.kind = 1 then 4 else 24) ∧ 1 ≤ t.nkern ∧ t.nkern ≤ 4 ∧
    t.srl0 ≤ 4 ∧ 1 ≤ t.spf ∧ t.spf ≤ 256 ∧ t.vf < 1024 ∧ t.spf * t.sper ≤ t.fper ∧ (t.kind = 2 → t.lead = 0) ∧ (t.kind = 1 → t.qidx = 0) ∧
    t.crec.toNat % 64 = 0 ∧ 4 ≤ t.clog ∧ t.clog ≤ 16 ∧
    (if t.kind = 1 then t.bsr = 0 ∧ t.blog = 0 else 16 ≤ t.blog ∧ t.blog ≤ 30)) &&
  zero 53 11 && zero 88 8 && zero 170 86 &&
  ((List.range 4).all fun i => decide (i < t.nkern) || (zero (96 + 8 * i) 8 && zero (128 + 4 * i) 4)) &&
  (t.kerns.all fun a => a.toNat % 64 == 0) && (t.tiles.all fun n => decide (1 ≤ n) && decide (n ≤ 65535)) &&
  (t.rings.all fun r => decide (r < 64) || r == 0xFFFF) && t.rings.any (· != 0xFFFF)

/-- Whether the UNIT, the cores and the rings belong to the Paddock; a lent or leaving core does not (R367, 20 R402). -/
def streamOwns (s : State) (pd : Nat) (t : Stream) : Bool :=
  ownsReq s pd (if t.kind = 1 then 216 + t.unit else 192 + t.unit) &&
    ((bitsOf t.cores).all fun c => ownsCore s pd c && (s.port c).lender == 63 && !(s.port c).pending) &&
    t.ringList.all fun r => ((s.pad pd).ring r).isSome

/-- Each launch record, with its kernel: they fail where one does not translate, is refused, or its kernel is not strip-eligible. -/
def readKernels (s : State) (pd vf : Nat) : List W64 → Dev (List (Launched × Kernel)) × State
  | [] => (.ok [], s)
  | a :: rest =>
    match s.devRead vf a.toNat 256 with
    | (.fail, s) => (.fail, s)
    | (.wait, s) => (.wait, s)
    | (.dead c, s) => (.dead c, s)
    | (.ok d, s) =>
      let l := parseLaunch d
      match admitLaunch s vf pd l false with
      | (.fail, s) => (.fail, s)
      | (.wait, s) => (.wait, s)
      | (.dead c, s) => (.dead c, s)
      | (.ok k, s) =>
        if l.flags ≠ 0 ∨ k.strip = 0 then (.fail, s)
        else match readKernels s pd vf rest with
          | (.ok ls, s) => (.ok ((l, k) :: ls), s)
          | e => e

/-- What has been read at other modules stands while one of the records waits. -/
def readAllKernels (s : State) (pd vf : Nat) (l : List W64) : Dev (List (Launched × Kernel)) × State :=
  match readKernels s pd vf l with
  | (.wait, t) => (.wait, keepAsks s t)
  | x => x

/-- Whether a kernel's clusters fit on cores of CORES (10 R245, R246). -/
def fitsCores (t : Stream) (k : Kernel) : Bool := (findRect k.cw k.ch fun _ c => t.cores.getLsbD c).isSome && k.need.fits

/-- WC in ns (R365): cycles at 2.1 GHz, rounded up. -/
def worstCase (tiles : List Nat) (ks : List Kernel) : Nat :=
  (10 * ((tiles.zip ks).map fun p => p.1 * p.2.strip).sum + 20) / 21

/-- ENCT in ns of a ring (R385). -/
def encodeTime (r : Ring) : Nat := (10 * r.width * r.lines + 13) / 14 + 500

/-- Whether a sum of fractions is at most 1. -/
def sumAtMostOne (xs : List (Nat × Nat)) : Bool :=
  let t := xs.foldl (fun (a : Nat × Nat) x => (a.1 * x.2 + x.1 * a.2, a.2 * x.2)) (0, 1)
  decide (t.1 ≤ t.2)

/-- Conditions 2, 4 and 6 (R366). -/
def streamTiming (p : Paddock) (num : Nat) (t : Stream) : Bool :=
  let prep := p.timers.prep.toNat
  let last := t.lastRing
  let e (r : Ring) : Nat := if r.cons = 1 then t.lead else if r.cons = 2 then t.enct else 0
  decide (t.win * 2 ^ 32 ≤ t.sper) && decide (t.wc + prep + t.guard ≤ t.win) &&
    t.ringList.all fun i => match p.ring i with
      | some r =>
        (if last = some i then r.cons == t.kind && r.unit == t.unit else r.cons == 0) && r.stream == num &&
          decide ((t.win + e r) * 2 ^ 32 ≤ (r.slots.length - 1) * t.sper)
      | none => false

/-- Conditions 3 and 5 (R366). -/
def streamLoad (p : Paddock) (t : Stream) : Bool :=
  let prep := p.timers.prep.toNat
  let others := p.streamList.map (·.2)
  ((bitsOf t.cores).all fun c =>
    sumAtMostOne (((t :: others).filter fun x => x.cores.getLsbD c).map fun x => (x.wc + prep, x.win))) &&
  (t.kind != 2 ||
    sumAtMostOne (((t :: others).filter fun x => x.kind == 2 && x.unit == t.unit).map fun x => (x.enct * 2 ^ 32, x.sper)))

/-- The first strip whose start lies PREP after a moment (R364). -/
def firstStrip (t : Stream) (prep now : Nat) : Nat :=
  let x := now + (prep + t.lead + t.win) * 2 ^ 32
  if x ≤ t.t0 then 0
  else
    let d := x - t.t0
    let f := d / t.fper
    let n := (d % t.fper + t.sper - 1) / t.sper
    if n < t.spf then f * t.spf + n else (f + 1) * t.spf

/-- Whether a head that a stream names carries an admitted one. -/
def headBusy (p : Paddock) (t : Stream) : Bool := t.kind == 1 && p.streamList.any fun x => x.2.kind == 1 && x.2.unit == t.unit

/-- STREAM_ADMIT: status 4 for what the Paddock does not own and for a head in use, 3 for conditions 3 and 5, 2 for every other failure (R366). -/
def streamAdmitBody (pd : Nat) (pa : W64) (s : State) : FwRes :=
  if !physOk pa.toNat 256 then .no 2
  else withBytes s pa.toNat 256 fun d =>
    let (num, t) := parseStream d
    if !streamFieldsOk d num t then .no 2
    else if !(s.feat.rd 0).getLsbD (if t.kind = 1 then 5 else 4) then .no 5
    else
      let p := s.pad pd
      if !streamOwns s pd t || headBusy p t then .no 4
      else if (p.stream num).isSome || !(s.vf t.vf).active || (s.vf t.vf).paddock.toNat != pd then .no 2
      else match readAllKernels s pd t.vf t.kerns with
        | (.wait, s) => .wait s
        | (.fail, _) => .no 2
        | (.dead c, s) => .fail (endContext s t.vf c 0) 2
        | (.ok ks, s) =>
          let enct := match t.lastRing.bind p.ring with | some r => if t.kind = 2 then encodeTime r else 0 | none => 0
          let t := { t with copies := ks.map (·.1), wc := worstCase t.tiles (ks.map (·.2)), enct := enct }
          if !(ks.all fun k => fitsCores t k.2) || !streamTiming p num t then .no 2
          else if !streamLoad p t then .no 3
          else
            let n := firstStrip t p.timers.prep.toNat s.bell.toNat
            .done (s.setPad pd fun p => p.setStream num { t with next := n, cons := { t.cons with strip := n } }) 0

def execStreamAdmit (c : FwHdr) (pa : W64) (s : State) : Out := firmware1 ⟨0x41, c, [pa.toNat]⟩ (streamAdmitBody c.target.toNat pa) s

/-- When no chain is left, the stream goes and the command completes. -/
def withdrawStep (pd : Nat) (st : W64) (r : Running) (s : State) : State :=
  match (s.pad pd).stream st.toNat with
  | some t =>
    if t.chains.isEmpty then
      let s := s.setPad pd fun p => { p with streams := p.streams.wr (st.setWidth 6) none }
      fwComplete (fwDrop s r.cmd) r.cmd.hdr.tag 0x42 0 0
    else s
  | none => s

def streamWithdrawBody (pd : Nat) (st : W64) (s : State) : FwRes :=
  if 64 ≤ st.toNat then .no 2
  else match (s.pad pd).stream st.toNat with
    | some t => if t.withdrawn then .no 4 else .go (setStreamOf s pd st.toNat fun t => { t with withdrawn := true }) false
    | none => .no 4

def execStreamWithdraw (c : FwHdr) (st : W64) (s : State) : Out :=
  firmware ⟨0x42, c, [st.toNat]⟩ (streamWithdrawBody c.target.toNat st) (withdrawStep c.target.toNat st) s

end Sys2Proof.Machine
end

