-- ==== Sys2Proof/Machine/Reset.lean ====
section
/-! DEFINITION. Resets, freeze and the scan dump (20 R414, 22 R445). -/

namespace Sys2Proof.Machine

/-- POWER_ON: every word of the module is zero; fuses, the memory of others, and what has left the module stay. -/
def execPowerOn (s : State) : Out :=
  .next { State.reset with mem := s.mem.filter fun c => paClass c.1 != 0, fuseSvn := s.fuseSvn, frzFuse := s.frzFuse, out := s.out,
                           free := s.free, msix := s.msix, agenda := s.agenda }

/-- PF_RESET: contexts end; patches, the Bellwether, fuses and DRAM stay. -/
def execPfReset (s : State) : Out :=
  let s := endAll s cKilled
  .next { State.reset with mem := s.mem, fold := s.fold, ecc := s.ecc.filter (· != controlLine), soft := s.soft, bell := s.bell, adj := s.adj, stepErr := s.stepErr,
                           src := s.src, latchHost := s.latchHost, latchCtl := s.latchCtl, ptp := s.ptp, patch := s.patch, fuseSvn := s.fuseSvn,
                           frzFuse := s.frzFuse, cycles := s.cycles, out := s.out, free := s.free, msix := s.msix, handle := s.handle,
                           agenda := s.agenda }

/-- VF_RESET: the window's registers and the bindings; the VF stays active, with its Paddock, budget, pools and frames. -/
def execVfReset (vf : Nat) (s : State) : Out :=
  let s := endContext s vf cKilled 0
  let s := { s with wqs := s.wqs.filter (fun e => (match e.2.bind with | some (v, _) => v != vf | none => true)),
                    pend := s.pend.filter (fun p => p.vf != vf), evalVf := if s.evalVf = some vf then none else s.evalVf }
  .next (s.setVf vf fun v =>
    { Vf.reset with active := v.active, paddock := v.paddock, boost := v.boost, held := v.held, frames := v.frames, guar := v.guar,
                    burst := v.burst, pools := v.pools, backing := v.backing, starved := v.starved, gridCounter := v.gridCounter,
                    dgen := v.dgen, starts := v.starts, endedKids := v.endedKids })

/-- FREEZE. -/
def execFreeze (s : State) : Out := .next (freezeNow s)

/-! ### The dump (R445) -/

/-- The context of a resident team, its groups as kind 1. -/
def teamImage (s : State) (t : Nat × Team) : List W8 :=
  match s.grid t.2.grid with
  | none => []
  | some d =>
    let groups := (s.teamGroups t.1).flatMap fun g => (fixedPieces g.2 1 fullLive ++ livePieces g.2 fullLive).map fun p =>
      (1024 + t.2.size + 32768 * g.2.gid + p.1, p.2)
    let m := ((0, teamHead s d t.2 0x31 s.frozenAt) :: groups).foldl (fun (m : Memory) p => m.write p.1 p.2) []
    m.read 0 (1024 + t.2.size + 32768 * t.2.gcount)

/-- The 64 bytes of a queue (16 R332). -/
def queueImage (q : HwQueue) : List W8 :=
  natLe 4 q.key.toNat ++ natLe 4 q.cap ++ natLe 2 q.vf ++ natLe 2 q.prod ++ natLe 2 q.posts ++ zeros 2 ++ natLe 4 q.head ++ natLe 4 q.count ++
    natLe 8 q.store ++ zeros 32

def slotCode : SlotSt → W8
  | .free => 0 | .open_ => 1 | .committed => 2 | .halo => 3

def ringImage (p : Paddock) : List W8 :=
  (List.range 64).flatMap fun n => match p.ring n with
    | some r => r.slots.map slotCode
    | none => []

/-- Copy slots in flight, queue states, slot states of every ring. -/
def engineImage (s : State) : List W8 :=
  (s.groups.flatMap fun g => allD.flatMap fun d =>
    if (g.2.copies.rd d).st == .running then copyBytes (g.2.copies.rd d) else []) ++
    ((s.queues.filter fun q => q.2.live).flatMap fun q => queueImage q.2) ++ s.paddocks.flatMap fun p => ringImage p.2

/-- Words of eight bytes with their check bits. -/
def checkedWords (d : List W8) : List W8 :=
  (List.range ((d.length + 7) / 8)).flatMap fun i => let w := exactly 8 (d.drop (8 * i)); w ++ Config.checkBits w

/-- L1, L2, the scratchpads, the Fold and the accumulators, word by word with check bits. Which lines L1 and L2 hold, and what the scratchpad's
granules of no grid do, is free (log entry 10); a line's words are those of memory. -/
def arrayImage (s : State) : List W8 :=
  ((Config.cacheLines s.free).flatMap fun l => checkedWords (s.mem.read (128 * l) 128)) ++
    (s.grids.flatMap fun d => checkedWords (d.2.scratch.read 0 d.2.kernel.scratch)) ++ checkedWords (Config.idleScratch s.free) ++
    checkedWords (s.fold.read 0 (64 * 2 ^ 20)) ++
    s.groups.flatMap fun g => checkedWords ((List.range g.2.acc).flatMap fun t => (List.range 256).flatMap fun n =>
      natLe 4 ((g.2.t.rd (BitVec.ofNat 3 t)).rd (BitVec.ofNat 8 n)).toNat)

/-- The LPDDR range that the session names, which no row carries: free (log entry 10). -/
def namedRange (s : State) : List W8 := s.mem.read (Config.scanRange s.free).1 (Config.scanRange s.free).2

/-- SCAN_DUMP: only from a frozen die. -/
def execScanDump (s : State) : Out :=
  .next (if s.frozen then
    { s.send (.scan (Config.partAndRom ++ natLe 4 (patchVersion s).toNat ++ natLe 8 s.frozenAt.toNat ++
        ((s.teams.filter fun t => t.2.core.isSome).flatMap (teamImage s)) ++ engineImage s ++ arrayImage s ++ namedRange s)) with
      free := s.free + 1 }
  else s)

end Sys2Proof.Machine
end

