-- ==== Sys2Proof/Machine/Issue.lean ====
section
/-! DEFINITION. Fetching an instruction (02 R47, R69, R70, 21 R416, R417) and choosing which paths issue in a core's cycle (10 R253,
R259-R261, 22 R432). -/

namespace Sys2Proof.Machine

/-- The header of a Flano instruction, with what it reads and writes. -/
def usesOf : Instr → Option (Hdr × Uses)
  | .sadd h o => some (h, uSSat o)
  | .saddi h o => some (h, uSImm o)
  | .ssub h o => some (h, uSSat o)
  | .smul h o => some (h, uSBin o)
  | .smulh h o => some (h, uSBin o)
  | .sand h o => some (h, uSBin o)
  | .sor h o => some (h, uSBin o)
  | .sxor h o => some (h, uSBin o)
  | .sshl h o => some (h, uSBin o)
  | .sshr h o => some (h, uSBin o)
  | .ssra h o => some (h, uSBin o)
  | .smin h o => some (h, uSBin o)
  | .smax h o => some (h, uSBin o)
  | .sminu h o => some (h, uSBin o)
  | .smaxu h o => some (h, uSBin o)
  | .sclz h o => some (h, uSUn o)
  | .spopc h o => some (h, uSUn o)
  | .sbfx h o => some (h, uSBits o)
  | .sbfi h o => some (h, uSBits o)
  | .ssel h o => some (h, uSBin o)
  | .scmp h o => some (h, uSCmp o)
  | .sli h o => some (h, uSImm o)
  | .slih h o => some (h, uSImm o)
  | .smov h o => some (h, uSMov o)
  | .sfadd h o => some (h, uSFp o)
  | .sfmul h o => some (h, uSFp o)
  | .sfma h o => some (h, uSFma o)
  | .sfcmp h o => some (h, uSFCmp o)
  | .sfcvt h o => some (h, uSFCvt o)
  | .bru h _ => some (h, uCtl)
  | .br h _ => some (h, uCtl)
  | .brx h o => some (h, uBrx o)
  | .jmp h _ => some (h, uCtl)
  | .jmpr h a => some (h, uSReg a)
  | .jmpv h a => some (h, uJmpV a)
  | .call h _ => some (h, uCall)
  | .callr h a => some (h, uCallR a)
  | .ret h => some (h, uCall)
  | .rcv h => some (h, uCtl)
  | .sloop h o => some (h, uSLoop o)
  | .exit h => some (h, uCtl)
  | .kand h o => some (h, uKBin o)
  | .kor h o => some (h, uKBin o)
  | .kxor h o => some (h, uKBin o)
  | .knot h o => some (h, uKUn o)
  | .kmov h o => some (h, uKUn o)
  | .kany h o => some (h, uKRed o)
  | .kall h o => some (h, uKRed o)
  | .kcount h o => some (h, uKRed o)
  | .kset h o => some (h, uKSet o)
  | .kget h o => some (h, uKRed o)
  | .sld h o => some (h, uSLd o)
  | .sst h o => some (h, uSSt o)
  | .satom h o => some (h, uSAtom o)
  | .scas h o => some (h, uSCas o)
  | .vadd h o => some (h, uVArith o)
  | .vsub h o => some (h, uVArith o)
  | .vmul h o => some (h, uVArith o)
  | .vmulh h o => some (h, uVUns o)
  | .vmad h o => some (h, uVMad o)
  | .vaddw h o => some (h, uVAddW o)
  | .vmulw h o => some (h, uVMulW o)
  | .vand h o => some (h, uVLogic o)
  | .vor h o => some (h, uVLogic o)
  | .vxor h o => some (h, uVLogic o)
  | .vshl h o => some (h, uVElem o)
  | .vshr h o => some (h, uVElem o)
  | .vsra h o => some (h, uVElem o)
  | .vmin h o => some (h, uVUns o)
  | .vmax h o => some (h, uVUns o)
  | .vabs h o => some (h, uVAbs o)
  | .vneg h o => some (h, uVAbs o)
  | .vclz h o => some (h, uVCount o)
  | .vpopc h o => some (h, uVCount o)
  | .vbrev h o => some (h, uVCount o)
  | .vbfx h o => some (h, uVBfx o)
  | .vbfi h o => some (h, uVBfi o)
  | .vsel h o => some (h, uVElem o)
  | .vcmp h o => some (h, uVCmp o)
  | .vmov h o => some (h, uVMov o)
  | .vli h o => some (h, uVLi o)
  | .vlane h d => some (h, uVLane d)
  | .vbcast h o => some (h, uVBcast o)
  | .vtos h o => some (h, uVToS o)
  | .vperm h o => some (h, uVPerm o)
  | .vred h o => some (h, uVRed o)
  | .vscan h o => some (h, uVRed o)
  | .vfadd h o => some (h, uVFp o)
  | .vfsub h o => some (h, uVFp o)
  | .vfmul h o => some (h, uVFp o)
  | .vfma h o => some (h, uVFma o)
  | .vfmin h o => some (h, uVBin o)
  | .vfmax h o => some (h, uVBin o)
  | .vfcmp h o => some (h, uVFCmp o)
  | .vfrcp h o => some (h, uVUn o)
  | .vfrsq h o => some (h, uVUn o)
  | .vfsqrt h o => some (h, uVUn o)
  | .vfexp2 h o => some (h, uVUn o)
  | .vflog2 h o => some (h, uVUn o)
  | .vfsin h o => some (h, uVUn o)
  | .vfcos h o => some (h, uVUn o)
  | .vfrnd h o => some (h, uVFRnd o)
  | .vfclass h o => some (h, uVUn o)
  | .vhadd h o => some (h, uVHalf o)
  | .vhmul h o => some (h, uVHalf o)
  | .vhfma h o => some (h, uVHFma o)
  | .vdot2 h o => some (h, uVDot2 o)
  | .vdot4 h o => some (h, uVDot4 o)
  | .vcvt h o => some (h, uVCvt o)
  | .vld h o => some (h, uVLd o)
  | .vst h o => some (h, uVSt o)
  | .vatom h o => some (h, uVAtom o)
  | .vcas h o => some (h, uVCas o)
  | .vprefetch h o => some (h, uVPrefetch o)
  | .fence h o => some (h, uFence o)
  | .waita h o => some (h, uWaitA o)
  | .vrdx h o => some (h, uVRdx o)
  | .vwrx h o => some (h, uVWrx o)
  | .xset h o => some (h, uXSet o)
  | .spill h o => some (h, uSpill o)
  | .fill h o => some (h, uFill o)
  | .mma h o => some (h, uMma o)
  | .mzero h d => some (h, uMZero d)
  | .mmov h o => some (h, uMMov o)
  | .mload h o => some (h, uMLoad o)
  | .mst h o => some (h, uMst o)
  | .mld h o => some (h, uMld o)
  | .dld h o => some (h, uDld o)
  | .dst h o => some (h, uDst o)
  | .dset h o => some (h, uDSet o)
  | .tcopy h o => some (h, uTCopy o)
  | .tstat h o => some (h, uTStat o)
  | .tresume h d => some (h, uDReg d)
  | .binit h o => some (h, uBInit o)
  | .barr h o => some (h, uBArr o)
  | .btry h o => some (h, uBTry o)
  | .binval h _ => some (h, Uses.none)
  | .cbarr h o => some (h, uCBArr o)
  | .cbtry h o => some (h, uCBTry o)
  | .rbox4 h o => some (h, uRBox o)
  | .rtri h o => some (h, uRTri o)
  | .pairs h o => some (h, uPairs o)
  | .tex h o => some (h, uTex o)
  | .cover h o => some (h, uCover o)
  | .scommit h o => some (h, uSCommit o)
  | .qenq h o => some (h, uQEnq o)
  | .qdeq h o => some (h, uQDeq o)
  | .qsteal h o => some (h, uQDeq o)
  | .qeos h q => some (h, uQEos q)
  | .rwq h o => some (h, uRwq o)
  | .launch h o => some (h, uLaunch o)
  | .lwait h o => some (h, uLWait o)
  | .trap h _ => some (h, Uses.none)
  | .brk h _ => some (h, Uses.none)
  | .fret h _ => some (h, { uPriv with closes := true })
  | .sret h => some (h, { uPriv with closes := true })
  | .crd h o => some (h, uCrd o)
  | .cwr h o => some (h, uCwr o)
  | .vgrow h _ => some (h, uGrow)
  | .vshrink h _ => some (h, Uses.none)
  | .yield h => some (h, uCtl)
  | .clock h o => some (h, uClock o)
  | .tstamp h a => some (h, uTStamp a)
  | .pgmap h o => some (h, uPgMap o)
  | .tlbinv h a => some (h, uTlbInv a)
  | .shev h o => some (h, uShEv o)
  | .halt h _ => some (h, uPriv)
  | _ => none

/-! ### Fetch (R47, R70) -/

/-- What fetching a word came to: the word, or a state in which the path does not go on with it. -/
inductive Fetched where
  | word (w : W64) (s : State)
  | out (s : State)

/-- The cause of a fetch that failed, with the address of the word in every lane of the path (14 R311). -/
def fetchFault (s : State) (r : PathRef) (p : Path) (a npc : W64) (c sub : W8) : State :=
  settleHold (deliver (dropAsks s (.path r)) r { FaultInfo.at c p.mask a with sub := sub } p.pc npc) r

/-- A word that another module holds: it is asked for, and the path waits for the answer, which it keeps until its instruction issues (14
R311). -/
def fetchAway (s : State) (r : PathRef) (g : Group) (p : Path) (a npc : W64) (l : Loc) : Fetched :=
  match l.away with
  | none => .out s
  | some (m, x) =>
    match keyed (answersOf s (.path r)) with
    | [] =>
      let s := ask s (.path r) (s.vfOf g) g.lin m .once [(0, .fetch x)]
      .out (s.setPath r { p with st := .remote (RemoteWait.first []) })
    | (_, .cause c) :: _ => .out (fetchFault ((dropAsks s (.path r)).setPath r { p with st := .ready }) r p a npc cRemote c)
    | l =>
      let w := BitVec.ofNat 64 (leNat (pieceData l 0 8))
      .word w ((dropAsks s (.path r)).setPath r { p with st := .ready, code := (a.toNat, w) :: p.code })

/-- Fetches one word. What a running grid of the VF has stored there it reads as stored: the new word, of the two that R72 allows (log entry 3).
-/
def fetchAt (s : State) (r : PathRef) (a npc : W64) : Fetched :=
  match s.path r with
  | none => .out s
  | some (g, p) =>
    match p.code.find? fun c => c.1 == a.toNat with
    | some (_, w) => .word w s
    | none =>
      match translate s (s.vfOf g) a.toNat 8 .ex with
      | (.ok pa, s) => if (locOf pa).away.isSome then fetchAway s r g p a npc (locOf pa) else .word (BitVec.ofNat 64 (leNat (s.readPa pa 8))) s
      | (.remote m, s) => fetchAway s r g p a npc (.dom m a.toNat)
      | (.cause c, s) => .out (fetchFault s r p a npc c 0)
      | (.remoteCause c, s) => .out (fetchFault s r p a npc cRemote c)
      | (.wait ipa c, s) => .out (waitWalk (dropAsks s (.path r)) r ipa c)
      | (.busy, s) => .out s
      | (.dead c, s) => .out (endContext s (s.vfOf g) c 0)

/-- The next PC that a word 0 states, its L read as a number (R47). -/
def nextPc (pc w0 : W64) : W64 := pc + 8 * (1 + (w0 &&& 3) + (w0 >>> 2 &&& 1))

/-- Whether an armed breakpoint names an address (R416). -/
def breakAt (s : State) (vf : Nat) (pc : W64) : Bool := allPaths.any fun i => (s.vf vf).crook.bp.rd i == pc ||| 1

/-- What is ranked between word 0 and word 1: an illegal L, a breakpoint, a single step. -/
def earlyFault (s : State) (g : Group) (p : Path) (w0 : W64) : Option FaultInfo :=
  if !lengthOk w0 then some { FaultInfo.of cIllegal p.mask with detail := 1 }
  else if !p.sup && !p.skipBp && breakAt s (s.vfOf g) p.pc then some { FaultInfo.of cBreakpoint p.mask with origin := 2 }
  else if !p.sup && g.stepArm && decide (1 ≤ p.stepN) then some (FaultInfo.of cSingleStep p.mask)
  else none

/-- What fetching an instruction came to: the instruction, to be executed in a state, or a state. -/
inductive Next where
  | run (i : Instr) (s : State)
  | out (s : State)

/-- Words 1 and 2 of an instruction, as word 0 asks for them. -/
def fetchRest (s : State) (r : PathRef) (p : Path) (w0 : W64) : Next :=
  let npc := nextPc p.pc w0
  let finish (w1 live : W64) (s : State) : Next :=
    match decodeWords w0 w1 live with
    | .ok i => .run i s
    | .error e => .out (settleHold (deliver s r { FaultInfo.of cIllegal p.mask with detail := e.detail } p.pc npc) r)
  let liveWord (w1 a : W64) (s : State) : Next :=
    if hasLive w0 then match fetchAt s r a npc with
      | .word w s => finish w1 w s
      | .out s => .out s
    else finish w1 0 s
  if isLong w0 then match fetchAt s r (p.pc + 8) npc with
    | .word w s => liveWord w (p.pc + 16) s
    | .out s => .out s
  else liveWord 0 (p.pc + 8) s

/-- Fetches the instruction of a path; what its words raise is taken in the order of R70. The next PC of a word 0 that could not be
fetched is free (log entry 13). -/
def fetchInstr (s : State) (r : PathRef) (g : Group) (p : Path) : Next :=
  match fetchAt s r p.pc (Config.value64 s.free) with
  | .out s => .out s
  | .word w0 s =>
    match earlyFault s g p w0 with
    | some f => .out (settleHold (deliver s r f p.pc (nextPc p.pc w0)) r)
    | none => fetchRest s r p w0

/-- Whether a path's team lets it go on to its next instruction. -/
def teamGoes (s : State) (g : Group) (p : Path) : Bool :=
  match s.team g.team with
  | some t => t.core.isSome && (match t.stop with | some q => !q.forced && p.stopped.isNone | none => true)
  | none => false

/-- Whether a path waits for nothing, and its team has not stopped it. Neither a stop nor a hold takes it inside an instruction, which goes on
when other modules have answered (08 R233, 10 R256, 14 R310). -/
def mayGoOn (s : State) (r : PathRef) (g : Group) (p : Path) : Bool :=
  (match p.st with
     | .ready => !p.hold && teamGoes s g p
     | .remote _ => allAnswered s (.path r) && (s.coreOf g).isSome
     | _ => false) &&
    match s.gridOf g with
    | some d => d.started
    | none => false

/-- Whether a path may be chosen to issue: it has a slot. -/
def mayIssue (s : State) (r : PathRef) (g : Group) (p : Path) : Bool := g.live r.p && mayGoOn s r g p

/-! ### Readiness and classes (R253, R259, R260) -/

/-- The TLBs that a group's paths go through: those of its core (14 R307). -/
def coreUnit (s : State) (g : Group) : TlbAt := match s.coreOf g with | some c => .core c | none => .die

/-- A word of a path's code, where it is at hand. -/
def peekWord (s : State) (g : Group) (p : Path) (a : W64) : Option W64 :=
  match p.code.find? fun c => c.1 == a.toNat with
  | some (_, w) => some w
  | none => match translate { s with unit := coreUnit s g } (s.vfOf g) a.toNat 8 .ex with
    | (.ok pa, s) => if paClass pa = 1 then none else some (BitVec.ofNat 64 (leNat (s.readPa pa 8)))
    | _ => none

/-- The instruction at a path's PC, where its words are at hand and well-formed. -/
def peekInstr (s : State) (g : Group) (p : Path) : Option Instr :=
  (peekWord s g p p.pc).bind fun w0 =>
    let w1 := if isLong w0 then peekWord s g p (p.pc + 8) else some 0
    let at_ := if isLong w0 then p.pc + 16 else p.pc + 8
    let live := if hasLive w0 then peekWord s g p at_ else some 0
    match w1, live with
    | some w1, some live => match decodeWords w0 w1 live with
      | .ok i => some i
      | .error _ => none
    | _, _ => none

/-- The class of an opcode, and its issues per cycle. An opcode that is not assigned takes a slot of the first. -/
def classOf (op : Nat) : Nat × Nat :=
  if (0x30 ≤ op ∧ op ≤ 0x33) ∨ (0x80 ≤ op ∧ op ≤ 0x8B) then (1, 4)
  else if 0xA0 ≤ op ∧ op ≤ 0xA5 then (2, 2)
  else if 0xB0 ≤ op ∧ op ≤ 0xBB then (3, 2)
  else if 0xC0 ≤ op ∧ op ≤ 0xC2 then (4, 1)
  else if 0xC3 ≤ op ∧ op ≤ 0xC5 then (5, 1)
  else if 0xC8 ≤ op ∧ op ≤ 0xCE then (6, 1)
  else if 0xD0 ≤ op ∧ op ≤ 0xDE then (7, 1)
  else (0, 8)

/-- Whether a traversal unit of a core is busy with `pairs`. -/
def traversing (s : State) (core : Nat) : Bool :=
  (coreTeams s core).any fun t => (s.teamGroups t.1).any fun g => allPaths.any fun i => (g.2.pairs.rd i).isSome

/-- Whether the engine that an instruction needs can accept it. -/
def engineFree (s : State) (core : Nat) (g : Group) (op : Nat) : Instr → Bool
  | .tcopy _ o => (g.copies.rd o.d).st != .running
  | _ => !(decide (0xC0 ≤ op) && decide (op ≤ 0xC2)) || !traversing s core

/-- Whether a path is ready, with the class of its instruction. What faults before the scoreboard is ready to. -/
def readyClass (s : State) (core : Nat) (r : PathRef) (g : Group) (p : Path) : Option (Nat × Nat) :=
  if !mayIssue s r g p then none
  else if p.atFrame.isSome then some (0, 8)
  else
    let op := match peekWord s g p p.pc with | some w => (w.extractLsb' 3 8).toNat | none => 0
    match (match p.again with | some (i, _) => some i | none => peekInstr s g p).bind fun i => (usesOf i).map fun u => (i, u) with
    | none => some (classOf op)
    | some (i, h, u) =>
      let all := u.all g (p.mask &&& g.pred h)
      if (barred u g p (p.mask &&& g.pred h)).isSome || ((all.all fun x => hardwired x || !(g.pendingRegs p.mask).contains x) && engineFree s core g op i) then some (classOf op)
      else none

/-- A ready path, as the order of R260 sees it. -/
structure Candidate where
  r : PathRef
  strip : Bool
  age : Nat
  young : Bool
  slot : Nat
  lane : Nat
  cls : Nat × Nat
  deriving DecidableEq, Repr

def Candidate.of (r : PathRef) (t : Team) (g : Group) (p : Path) (c : Nat × Nat) : Candidate :=
  { r := r, strip := t.strip, age := p.age, young := p.young, slot := g.slot, lane := p.mask.low.toNat, cls := c }

/-- The ready paths of a core. -/
def candidates (s : State) (core : Nat) : List Candidate :=
  (coreTeams s core).flatMap fun t => (s.teamGroups t.1).flatMap fun e => allPaths.filterMap fun i =>
    match e.2.paths.rd i with
    | none => none
    | some p => (readyClass s core ⟨e.1, i⟩ e.2 p).map (Candidate.of ⟨e.1, i⟩ t.2 e.2 p)

def Candidate.rank (c : Candidate) : Nat := if c.strip then 0 else if 1024 ≤ c.age then 1 else 2

/-- Whether a candidate takes a slot before another: rank, age, then group slot and PATHIX; after `yield` a path loses every tie. -/
def Candidate.before (a b : Candidate) : Bool :=
  if a.rank ≠ b.rank then decide (a.rank < b.rank)
  else if a.age ≠ b.age then decide (b.age < a.age)
  else if a.young ≠ b.young then b.young
  else if a.slot ≠ b.slot then decide (a.slot < b.slot)
  else decide (a.r.p.toNat < b.r.p.toNat)

/-- Takes candidates in order within 8 in all and each class's limit. -/
def takeSlots : List Candidate → List Candidate → List Candidate
  | [], taken => taken
  | c :: rest, taken =>
    if taken.length < 8 ∧ (taken.filter fun x => x.cls.1 == c.cls.1).length < c.cls.2 then takeSlots rest (taken ++ [c])
    else takeSlots rest taken

/-- Two live paths of one group issue in the order of their lowest lanes (04 R104). -/
def laneOrder (l : List Candidate) : List Candidate := byRank (fun a b => a.r.g == b.r.g && decide (a.lane < b.lane)) l

/-- The paths that issue in this cycle, in the order of their slots. -/
def selected (s : State) (core : Nat) : List Candidate := takeSlots (byRank Candidate.before (candidates s core)) []

/-- A ready path that does not issue grows older. -/
def growOlder (s : State) (r : PathRef) : State :=
  match s.path r with
  | some (_, p) => s.setPath r { p with age := min 65535 (p.age + 1) }
  | none => s

/-- VFs with a group resident on a core. -/
def residents (s : State) (core : Nat) : List Nat :=
  ((coreTeams s core).filterMap fun t => (s.grid t.2.grid).map (·.vf)).eraseDups

/-- VFs that sample their paths on a core in this cycle (22 R432). -/
def sampling (s : State) (core : Nat) : List Nat :=
  (residents s core).filter fun vf =>
    let v := s.vf vf
    v.sen && decide (10 ≤ v.slog.toNat) && decide (v.slog.toNat ≤ 24) && (s.cycle core + 1) % 2 ^ v.slog.toNat == 0

/-- Pairs written in the last cycle are read as they are now (05 R121). -/
def settlePairsRead (s : State) (core : Nat) : State :=
  { s with groups := s.groups.map fun e : Nat × Group => if s.coreOf e.2 = some core then (e.1, { e.2 with old := [] }) else e }

/-- ISSUE_SELECTION: one cycle of a core. What is chosen issues next, one path after another. -/
def execIssueSelection (core : Nat) (s : State) : Out :=
  let sel := selected s core
  let passed := (candidates s core).filter fun c => !(sel.any fun x => x.r == c.r)
  let samples : List Action := (sampling s core).map fun vf => .event (.pathSample vf core)
  let s := passed.foldl (fun s c => growOlder s c.r) (settlePairsRead s core)
  let s := (residents s core).foldl (fun s vf => s.count vf 0 1) s
  .next { s with cycles := s.cycles.put core (s.cycle core + 1), agenda := s.agenda ++ samples ++ (laneOrder sel).map fun c => .issue c.r }

/-! ### Path samples (22 R432) -/

/-- The paths of a VF that issue on a core in this cycle. -/
def issuing (s : State) (vf core : Nat) : List (Candidate × Group × Path) :=
  s.agenda.filterMap fun a => match a with
    | .issue r => match s.path r with
      | some (g, p) => match s.team g.team with
        | some t => if s.vfOf g = vf ∧ t.core = some core then some (Candidate.of r t g p (0, 0), g, p) else none
        | none => none
      | none => none
    | _ => none

/-- The one of them that takes the lowest issue slot. -/
def firstIssue (s : State) (vf core : Nat) : Option (PathRef × Group × Path) :=
  match issuing s vf core with
  | [] => none
  | x :: rest =>
    let y := rest.foldl (fun b c => if c.1.before b.1 then c else b) x
    some (y.1.r, y.2.1, y.2.2)

/-- PATH_SAMPLE. -/
def execPathSample (vf core : Nat) (s : State) : Out :=
  match firstIssue s vf core with
  | none => .next s
  | some (r, g, p) =>
    let gid := match s.gridOf g with | some d => d.gridid.toNat | none => 0
    .next (formTrace s vf (natLe 2 core ++ [2, r.p.setWidth 8] ++ natLe 4 g.lin ++ natLe 4 gid ++
      [p.mask, (if p.sup then 1 else 0 : W8), 0, 0] ++ natLe 8 p.pc.toNat ++ natLe 8 s.ns.toNat))

end Sys2Proof.Machine
end

