-- ==== Sys2Proof/Machine/Dispatch.lean ====
section
/-! DEFINITION. The dispatcher: one arm for each instruction. -/

namespace Sys2Proof.Machine

/-- What an instruction does. -/
def exec (i : Instr) (s : State) : Host.Outcome State Fault Refusal :=
  match i with
  | .sadd h o => Sys2Proof.Machine.execSadd h o s
  | .saddi h o => Sys2Proof.Machine.execSaddi h o s
  | .ssub h o => Sys2Proof.Machine.execSsub h o s
  | .smul h o => Sys2Proof.Machine.execSmul h o s
  | .smulh h o => Sys2Proof.Machine.execSmulh h o s
  | .sand h o => Sys2Proof.Machine.execSand h o s
  | .sor h o => Sys2Proof.Machine.execSor h o s
  | .sxor h o => Sys2Proof.Machine.execSxor h o s
  | .sshl h o => Sys2Proof.Machine.execSshl h o s
  | .sshr h o => Sys2Proof.Machine.execSshr h o s
  | .ssra h o => Sys2Proof.Machine.execSsra h o s
  | .smin h o => Sys2Proof.Machine.execSmin h o s
  | .smax h o => Sys2Proof.Machine.execSmax h o s
  | .sminu h o => Sys2Proof.Machine.execSminu h o s
  | .smaxu h o => Sys2Proof.Machine.execSmaxu h o s
  | .sclz h o => Sys2Proof.Machine.execSclz h o s
  | .spopc h o => Sys2Proof.Machine.execSpopc h o s
  | .sbfx h o => Sys2Proof.Machine.execSbfx h o s
  | .sbfi h o => Sys2Proof.Machine.execSbfi h o s
  | .ssel h o => Sys2Proof.Machine.execSsel h o s
  | .scmp h o => Sys2Proof.Machine.execScmp h o s
  | .sli h o => Sys2Proof.Machine.execSli h o s
  | .slih h o => Sys2Proof.Machine.execSlih h o s
  | .smov h o => Sys2Proof.Machine.execSmov h o s
  | .sfadd h o => Sys2Proof.Machine.execSfadd h o s
  | .sfmul h o => Sys2Proof.Machine.execSfmul h o s
  | .sfma h o => Sys2Proof.Machine.execSfma h o s
  | .sfcmp h o => Sys2Proof.Machine.execSfcmp h o s
  | .sfcvt h o => Sys2Proof.Machine.execSfcvt h o s
  | .bru h o => Sys2Proof.Machine.execBru h o s
  | .br h o => Sys2Proof.Machine.execBr h o s
  | .brx h o => Sys2Proof.Machine.execBrx h o s
  | .jmp h o => Sys2Proof.Machine.execJmp h o s
  | .jmpr h o => Sys2Proof.Machine.execJmpr h o s
  | .jmpv h o => Sys2Proof.Machine.execJmpv h o s
  | .call h o => Sys2Proof.Machine.execCall h o s
  | .callr h o => Sys2Proof.Machine.execCallr h o s
  | .ret h => Sys2Proof.Machine.execRet h s
  | .rcv h => Sys2Proof.Machine.execRcv h s
  | .sloop h o => Sys2Proof.Machine.execSloop h o s
  | .exit h => Sys2Proof.Machine.execExit h s
  | .kand h o => Sys2Proof.Machine.execKand h o s
  | .kor h o => Sys2Proof.Machine.execKor h o s
  | .kxor h o => Sys2Proof.Machine.execKxor h o s
  | .knot h o => Sys2Proof.Machine.execKnot h o s
  | .kmov h o => Sys2Proof.Machine.execKmov h o s
  | .kany h o => Sys2Proof.Machine.execKany h o s
  | .kall h o => Sys2Proof.Machine.execKall h o s
  | .kcount h o => Sys2Proof.Machine.execKcount h o s
  | .kset h o => Sys2Proof.Machine.execKset h o s
  | .kget h o => Sys2Proof.Machine.execKget h o s
  | .sld h o => Sys2Proof.Machine.execSld h o s
  | .sst h o => Sys2Proof.Machine.execSst h o s
  | .satom h o => Sys2Proof.Machine.execSatom h o s
  | .scas h o => Sys2Proof.Machine.execScas h o s
  | .vadd h o => Sys2Proof.Machine.execVadd h o s
  | .vsub h o => Sys2Proof.Machine.execVsub h o s
  | .vmul h o => Sys2Proof.Machine.execVmul h o s
  | .vmulh h o => Sys2Proof.Machine.execVmulh h o s
  | .vmad h o => Sys2Proof.Machine.execVmad h o s
  | .vaddw h o => Sys2Proof.Machine.execVaddw h o s
  | .vmulw h o => Sys2Proof.Machine.execVmulw h o s
  | .vand h o => Sys2Proof.Machine.execVand h o s
  | .vor h o => Sys2Proof.Machine.execVor h o s
  | .vxor h o => Sys2Proof.Machine.execVxor h o s
  | .vshl h o => Sys2Proof.Machine.execVshl h o s
  | .vshr h o => Sys2Proof.Machine.execVshr h o s
  | .vsra h o => Sys2Proof.Machine.execVsra h o s
  | .vmin h o => Sys2Proof.Machine.execVmin h o s
  | .vmax h o => Sys2Proof.Machine.execVmax h o s
  | .vabs h o => Sys2Proof.Machine.execVabs h o s
  | .vneg h o => Sys2Proof.Machine.execVneg h o s
  | .vclz h o => Sys2Proof.Machine.execVclz h o s
  | .vpopc h o => Sys2Proof.Machine.execVpopc h o s
  | .vbrev h o => Sys2Proof.Machine.execVbrev h o s
  | .vbfx h o => Sys2Proof.Machine.execVbfx h o s
  | .vbfi h o => Sys2Proof.Machine.execVbfi h o s
  | .vsel h o => Sys2Proof.Machine.execVsel h o s
  | .vcmp h o => Sys2Proof.Machine.execVcmp h o s
  | .vmov h o => Sys2Proof.Machine.execVmov h o s
  | .vli h o => Sys2Proof.Machine.execVli h o s
  | .vlane h o => Sys2Proof.Machine.execVlane h o s
  | .vbcast h o => Sys2Proof.Machine.execVbcast h o s
  | .vtos h o => Sys2Proof.Machine.execVtos h o s
  | .vperm h o => Sys2Proof.Machine.execVperm h o s
  | .vred h o => Sys2Proof.Machine.execVred h o s
  | .vscan h o => Sys2Proof.Machine.execVscan h o s
  | .vfadd h o => Sys2Proof.Machine.execVfadd h o s
  | .vfsub h o => Sys2Proof.Machine.execVfsub h o s
  | .vfmul h o => Sys2Proof.Machine.execVfmul h o s
  | .vfma h o => Sys2Proof.Machine.execVfma h o s
  | .vfmin h o => Sys2Proof.Machine.execVfmin h o s
  | .vfmax h o => Sys2Proof.Machine.execVfmax h o s
  | .vfcmp h o => Sys2Proof.Machine.execVfcmp h o s
  | .vfrcp h o => Sys2Proof.Machine.execVfrcp h o s
  | .vfrsq h o => Sys2Proof.Machine.execVfrsq h o s
  | .vfsqrt h o => Sys2Proof.Machine.execVfsqrt h o s
  | .vfexp2 h o => Sys2Proof.Machine.execVfexp2 h o s
  | .vflog2 h o => Sys2Proof.Machine.execVflog2 h o s
  | .vfsin h o => Sys2Proof.Machine.execVfsin h o s
  | .vfcos h o => Sys2Proof.Machine.execVfcos h o s
  | .vfrnd h o => Sys2Proof.Machine.execVfrnd h o s
  | .vfclass h o => Sys2Proof.Machine.execVfclass h o s
  | .vhadd h o => Sys2Proof.Machine.execVhadd h o s
  | .vhmul h o => Sys2Proof.Machine.execVhmul h o s
  | .vhfma h o => Sys2Proof.Machine.execVhfma h o s
  | .vdot2 h o => Sys2Proof.Machine.execVdot2 h o s
  | .vdot4 h o => Sys2Proof.Machine.execVdot4 h o s
  | .vcvt h o => Sys2Proof.Machine.execVcvt h o s
  | .vld h o => Sys2Proof.Machine.execVld h o s
  | .vst h o => Sys2Proof.Machine.execVst h o s
  | .vatom h o => Sys2Proof.Machine.execVatom h o s
  | .vcas h o => Sys2Proof.Machine.execVcas h o s
  | .vprefetch h o => Sys2Proof.Machine.execVprefetch h o s
  | .fence h o => Sys2Proof.Machine.execFence h o s
  | .waita h o => Sys2Proof.Machine.execWaita h o s
  | .waitaWake r => Sys2Proof.Machine.execWaitaWake r s
  | .waitaTimeout r => Sys2Proof.Machine.execWaitaTimeout r s
  | .vrdx h o => Sys2Proof.Machine.execVrdx h o s
  | .vwrx h o => Sys2Proof.Machine.execVwrx h o s
  | .xset h o => Sys2Proof.Machine.execXset h o s
  | .spill h o => Sys2Proof.Machine.execSpill h o s
  | .fill h o => Sys2Proof.Machine.execFill h o s
  | .loadLand g id => Sys2Proof.Machine.execLoadLand g id s
  | .mma h o => Sys2Proof.Machine.execMma h o s
  | .mmaComplete g id => Sys2Proof.Machine.execMmaComplete g id s
  | .mzero h o => Sys2Proof.Machine.execMzero h o s
  | .mmov h o => Sys2Proof.Machine.execMmov h o s
  | .mload h o => Sys2Proof.Machine.execMload h o s
  | .mst h o => Sys2Proof.Machine.execMst h o s
  | .mld h o => Sys2Proof.Machine.execMld h o s
  | .mstComplete g id => Sys2Proof.Machine.execMstComplete g id s
  | .mldComplete g id => Sys2Proof.Machine.execMldComplete g id s
  | .dld h o => Sys2Proof.Machine.execDld h o s
  | .dst h o => Sys2Proof.Machine.execDst h o s
  | .dset h o => Sys2Proof.Machine.execDset h o s
  | .tcopy h o => Sys2Proof.Machine.execTcopy h o s
  | .tcopyTile g d => Sys2Proof.Machine.execTcopyTile g d s
  | .tstat h o => Sys2Proof.Machine.execTstat h o s
  | .tresume h o => Sys2Proof.Machine.execTresume h o s
  | .binit h o => Sys2Proof.Machine.execBinit h o s
  | .barr h o => Sys2Proof.Machine.execBarr h o s
  | .btry h o => Sys2Proof.Machine.execBtry h o s
  | .btryWake r => Sys2Proof.Machine.execBtryWake r s
  | .btryTimeout r => Sys2Proof.Machine.execBtryTimeout r s
  | .binval h o => Sys2Proof.Machine.execBinval h o s
  | .cbarr h o => Sys2Proof.Machine.execCbarr h o s
  | .cbtry h o => Sys2Proof.Machine.execCbtry h o s
  | .rbox4 h o => Sys2Proof.Machine.execRbox4 h o s
  | .rtri h o => Sys2Proof.Machine.execRtri h o s
  | .pairs h o => Sys2Proof.Machine.execPairs h o s
  | .pairsStop r => Sys2Proof.Machine.execPairsStop r s
  | .tex h o => Sys2Proof.Machine.execTex h o s
  | .cover h o => Sys2Proof.Machine.execCover h o s
  | .scommit h o => Sys2Proof.Machine.execScommit h o s
  | .qenq h o => Sys2Proof.Machine.execQenq h o s
  | .qdeq h o => Sys2Proof.Machine.execQdeq h o s
  | .qsteal h o => Sys2Proof.Machine.execQsteal h o s
  | .qeos h o => Sys2Proof.Machine.execQeos h o s
  | .rwq h o => Sys2Proof.Machine.execRwq h o s
  | .launch h o => Sys2Proof.Machine.execLaunch h o s
  | .lwait h o => Sys2Proof.Machine.execLwait h o s
  | .lwaitWake r => Sys2Proof.Machine.execLwaitWake r s
  | .trap h o => Sys2Proof.Machine.execTrap h o s
  | .brk h o => Sys2Proof.Machine.execBrk h o s
  | .fret h o => Sys2Proof.Machine.execFret h o s
  | .sret h => Sys2Proof.Machine.execSret h s
  | .crd h o => Sys2Proof.Machine.execCrd h o s
  | .cwr h o => Sys2Proof.Machine.execCwr h o s
  | .vgrow h o => Sys2Proof.Machine.execVgrow h o s
  | .vgrowGrant core => Sys2Proof.Machine.execVgrowGrant core s
  | .vshrink h o => Sys2Proof.Machine.execVshrink h o s
  | .yield h => Sys2Proof.Machine.execYield h s
  | .issueSelection core => Sys2Proof.Machine.execIssueSelection core s
  | .clock h o => Sys2Proof.Machine.execClock h o s
  | .tstamp h o => Sys2Proof.Machine.execTstamp h o s
  | .pgmap h o => Sys2Proof.Machine.execPgmap h o s
  | .tlbinv h o => Sys2Proof.Machine.execTlbinv h o s
  | .shev h o => Sys2Proof.Machine.execShev h o s
  | .halt h o => Sys2Proof.Machine.execHalt h o s
  | .slotFill g => Sys2Proof.Machine.execSlotFill g s
  | .deadlockBreak core => Sys2Proof.Machine.execDeadlockBreak core s
  | .teamSave t => Sys2Proof.Machine.execTeamSave t s
  | .spwinExpiry t => Sys2Proof.Machine.execSpwinExpiry t s
  | .clusterDispatch pd => Sys2Proof.Machine.execClusterDispatch pd s
  | .teamExit t => Sys2Proof.Machine.execTeamExit t s
  | .walkComplete r => Sys2Proof.Machine.execWalkComplete r s
  | .migrationCommit id => Sys2Proof.Machine.execMigrationCommit id s
  | .ageSample pd => Sys2Proof.Machine.execAgeSample pd s
  | .remoteRequest m => Sys2Proof.Machine.execRemoteRequest m s
  | .fabricTimeout id => Sys2Proof.Machine.execFabricTimeout id s
  | .wqRecordTake q => Sys2Proof.Machine.execWqRecordTake q s
  | .startMsg vf src gen => Sys2Proof.Machine.execStartMsg vf src gen s
  | .abortMsg vf src gen => Sys2Proof.Machine.execAbortMsg vf src gen s
  | .startTimeout grid => Sys2Proof.Machine.execStartTimeout grid s
  | .chainStart pd st => Sys2Proof.Machine.execChainStart pd st s
  | .droverMilestone pd st => Sys2Proof.Machine.execDroverMilestone pd st s
  | .chainMiss pd st => Sys2Proof.Machine.execChainMiss pd st s
  | .sliceEnd pd => Sys2Proof.Machine.execSliceEnd pd s
  | .forcedStep vf => Sys2Proof.Machine.execForcedStep vf s
  | .killStep vf => Sys2Proof.Machine.execKillStep vf s
  | .headScanout pd st => Sys2Proof.Machine.execHeadScanout pd st s
  | .encodeStart pd st => Sys2Proof.Machine.execEncodeStart pd st s
  | .tileRowPost pd st => Sys2Proof.Machine.execTileRowPost pd st s
  | .eventPost pd => Sys2Proof.Machine.execEventPost pd s
  | .tileClose g tag => Sys2Proof.Machine.execTileClose g tag s
  | .pathSample vf core => Sys2Proof.Machine.execPathSample vf core s
  | .traceRecordWrite vf => Sys2Proof.Machine.execTraceRecordWrite vf s
  | .traceRecordDrop vf => Sys2Proof.Machine.execTraceRecordDrop vf s
  | .shEventOffer vf => Sys2Proof.Machine.execShEventOffer vf s
  | .shEvaluate vf => Sys2Proof.Machine.execShEvaluate vf s
  | .shWindow vf => Sys2Proof.Machine.execShWindow vf s
  | .shLdf d f => Sys2Proof.Machine.execShLdf d f s
  | .shLdi d k => Sys2Proof.Machine.execShLdi d k s
  | .shLdih d k => Sys2Proof.Machine.execShLdih d k s
  | .shAdd d a b => Sys2Proof.Machine.execShAdd d a b s
  | .shAddi d a k => Sys2Proof.Machine.execShAddi d a k s
  | .shSub d a b => Sys2Proof.Machine.execShSub d a b s
  | .shAnd d a b => Sys2Proof.Machine.execShAnd d a b s
  | .shOr d a b => Sys2Proof.Machine.execShOr d a b s
  | .shShl d a n => Sys2Proof.Machine.execShShl d a n s
  | .shShr d a n => Sys2Proof.Machine.execShShr d a n s
  | .shMin d a b => Sys2Proof.Machine.execShMin d a b s
  | .shCeq d a b => Sys2Proof.Machine.execShCeq d a b s
  | .shCltu d a b => Sys2Proof.Machine.execShCltu d a b s
  | .shBz a o => Sys2Proof.Machine.execShBz a o s
  | .shBnz a o => Sys2Proof.Machine.execShBnz a o s
  | .shHash d a m => Sys2Proof.Machine.execShHash d a m s
  | .shHist n a => Sys2Proof.Machine.execShHist n a s
  | .shCms a b => Sys2Proof.Machine.execShCms a b s
  | .shTrig a c => Sys2Proof.Machine.execShTrig a c s
  | .shDrop => Sys2Proof.Machine.execShDrop s
  | .shEnd => Sys2Proof.Machine.execShEnd s
  | .shattachWrite vf v => Sys2Proof.Machine.execShattachWrite vf v s
  | .shSlotWrite w => Sys2Proof.Machine.execShSlotWrite w s
  | .crookHalt c => Sys2Proof.Machine.execCrookHalt c s
  | .resume c pix => Sys2Proof.Machine.execResume c pix s
  | .crookStep c arm => Sys2Proof.Machine.execCrookStep c arm s
  | .setbp c n addr => Sys2Proof.Machine.execSetbp c n addr s
  | .setwp c n sp off lenKind => Sys2Proof.Machine.execSetwp c n sp off lenKind s
  | .regread c pix reg => Sys2Proof.Machine.execRegread c pix reg s
  | .noticePost vf => Sys2Proof.Machine.execNoticePost vf s
  | .noticeRingWrite vf r v => Sys2Proof.Machine.execNoticeRingWrite vf r v s
  | .bwnsRead by_ => Sys2Proof.Machine.execBwnsRead by_ s
  | .adj by_ v => Sys2Proof.Machine.execAdj by_ v s
  | .bwStep by_ v => Sys2Proof.Machine.execBwStep by_ v s
  | .ptpMessage m => Sys2Proof.Machine.execPtpMessage m s
  | .ptmRequest => Sys2Proof.Machine.execPtmRequest s
  | .counterLoRead vf n => Sys2Proof.Machine.execCounterLoRead vf n s
  | .counterHiRead vf n => Sys2Proof.Machine.execCounterHiRead vf n s
  | .wqtail vf w v => Sys2Proof.Machine.execWqtail vf w v s
  | .wqcfg vf w v => Sys2Proof.Machine.execWqcfg vf w v s
  | .hentry vf v => Sys2Proof.Machine.execHentry vf v s
  | .s1root vf v => Sys2Proof.Machine.execS1root vf v s
  | .evread pd v => Sys2Proof.Machine.execEvread pd v s
  | .fwtail v => Sys2Proof.Machine.execFwtail v s
  | .regWrite w => Sys2Proof.Machine.execRegWrite w s
  | .identify c buf => Sys2Proof.Machine.execIdentify c buf s
  | .negotiate c f0 f1 f2 f3 => Sys2Proof.Machine.execNegotiate c f0 f1 f2 f3 s
  | .patchLoad c pa len => Sys2Proof.Machine.execPatchLoad c pa len s
  | .attest c nonce buf => Sys2Proof.Machine.execAttest c nonce buf s
  | .paddockSet c pa force => Sys2Proof.Machine.execPaddockSet c pa force s
  | .paddockRegions c pa host => Sys2Proof.Machine.execPaddockRegions c pa host s
  | .lend c mask dest => Sys2Proof.Machine.execLend c mask dest s
  | .reclaim c mask => Sys2Proof.Machine.execReclaim c mask s
  | .s2root c pa => Sys2Proof.Machine.execS2root c pa s
  | .s2inv c ipa all => Sys2Proof.Machine.execS2inv c ipa all s
  | .resumeWalks c => Sys2Proof.Machine.execResumeWalks c s
  | .timers c t => Sys2Proof.Machine.execTimers c t s
  | .vfActivate c pd guar burst => Sys2Proof.Machine.execVfActivate c pd guar burst s
  | .vfDeactivate c => Sys2Proof.Machine.execVfDeactivate c s
  | .vfPool c n vbase len ipa => Sys2Proof.Machine.execVfPool c n vbase len ipa s
  | .vfBacking c pa count => Sys2Proof.Machine.execVfBacking c pa count s
  | .vfBudget c guar burst => Sys2Proof.Machine.execVfBudget c guar burst s
  | .vfBoost c mhz => Sys2Proof.Machine.execVfBoost c mhz s
  | .vfEnd c cause => Sys2Proof.Machine.execVfEnd c cause s
  | .queueCreate c cap prod store => Sys2Proof.Machine.execQueueCreate c cap prod store s
  | .queueDestroy c qnum => Sys2Proof.Machine.execQueueDestroy c qnum s
  | .queueSet c qnum prod reset => Sys2Proof.Machine.execQueueSet c qnum prod reset s
  | .wqBind c q unbind => Sys2Proof.Machine.execWqBind c q unbind s
  | .migrate c ipa dst => Sys2Proof.Machine.execMigrate c ipa dst s
  | .foldRing c ring entry => Sys2Proof.Machine.execFoldRing c ring entry s
  | .streamAdmit c pa => Sys2Proof.Machine.execStreamAdmit c pa s
  | .streamWithdraw c st => Sys2Proof.Machine.execStreamWithdraw c st s
  | .headTiming c head pa => Sys2Proof.Machine.execHeadTiming c head pa s
  | .sharedCreate c pa f => Sys2Proof.Machine.execSharedCreate c pa f s
  | .sharedMap c set => Sys2Proof.Machine.execSharedMap c set s
  | .sharedUnmap c set => Sys2Proof.Machine.execSharedUnmap c set s
  | .sharedSeal c set => Sys2Proof.Machine.execSharedSeal c set s
  | .domainForm c num pa => Sys2Proof.Machine.execDomainForm c num pa s
  | .hostCxlMemAccess off n d => Sys2Proof.Machine.execHostCxlMemAccess off n d s
  | .hostSnoop pa d => Sys2Proof.Machine.execHostSnoop pa d s
  | .patrolScrub pa => Sys2Proof.Machine.execPatrolScrub pa s
  | .powerOn => Sys2Proof.Machine.execPowerOn s
  | .pfReset => Sys2Proof.Machine.execPfReset s
  | .vfReset vf => Sys2Proof.Machine.execVfReset vf s
  | .freeze => Sys2Proof.Machine.execFreeze s
  | .scanDump => Sys2Proof.Machine.execScanDump s
  | .bellwetherTick => Sys2Proof.Machine.execBellwetherTick s
  | .remoteResponse id a => Sys2Proof.Machine.execRemoteResponse id a s

end Sys2Proof.Machine
end

