-- ==== Sys2Proof/Machine/Due.lean ====
section
/-! DEFINITION. What happens next (10 R260-R262): an issue, a filter word, a firmware command, or one of the steps that are due. The manual
fixes no order among agents; the model takes whichever `Config.pick` names (log entry 2). -/

namespace Sys2Proof.Machine

/-! ### Doing one thing -/

/-- After an issue: a path that waits inside its instruction, for another module, a word or a walk, keeps it, and one that a sibling's change of the same cycle has parked keeps no
window (04 R104, 10 R253). -/
def issuedPath (r : PathRef) (i : Instr) (woken issues : Bool) (s : State) : State :=
  match s.path r with
  | none => s
  | some (g, p) => match p.st with
    | .remote _ => s.setPath r { p with again := some (i, woken) }
    | .walk _ _ => s.setPath r { p with again := if issues then some (i, woken) else none }
    | .susp (.waita ..) => s.setPath r { p with again := some (i, false) }
    | _ => if g.fifo.contains r.p && !p.win.isEmpty then s.setPath r { p with win := [] } else s

/-- Whether nothing bars the instruction of a path from issuing (02 R70). -/
def issues (s : State) (r : PathRef) (i : Instr) : Bool :=
  match s.path r, usesOf i with
  | some (g, p), some (h, u) => (barred u g p (p.mask &&& g.pred h)).isNone
  | _, _ => false

def execFor (r : PathRef) (i : Instr) (woken : Bool) (s : State) : Out :=
  match exec i { s with cur := some r } with
  | .next t => .next (issuedPath r i woken (issues s r i) { t with cur := none })
  | o => o

/-- Whether a path waits for words of its next instruction, and its team's stop, a hold or a sibling that parks it takes it before it issues. -/
def leavesFetch (s : State) (r : PathRef) (g : Group) (p : Path) : Bool :=
  (match p.st with | .remote _ => p.again.isNone | _ => false) && (p.hold || !teamGoes s g p || !g.live r.p)

/-- A path that was chosen issues: its instruction is fetched and executed, or goes on when other modules have answered. A change that its
sibling made in the same cycle may have parked it since (04 R104). A handler without lanes returns its waiting lanes (08 R220). -/
def issueNow (r : PathRef) (s : State) : Out :=
  match s.path r with
  | none => .next s
  | some (g, p) =>
    if (g.live r.p || g.fifo.contains r.p) && mayGoOn s r g p then
      if leavesFetch s r g p then .next (settleHold ((dropAsks s (.path r)).setPath r { p with st := .ready }) r)
      else match p.atFrame, p.again with
        | some a, _ => .next (settleHold (goAtFrame { s.setPath r { p with atFrame := none } with cur := some r } r a) r)
        | none, some (i, w) => execFor r i w s
        | none, none => if p.mask = 0 then .next (settleHold (handlerReturn s r false false none) r) else match fetchInstr s r g p with
          | .out s => .next s
          | .run i s => execFor r i false s
    else .next s

/-- The next word of a filter evaluation. -/
def evalNow (vf : Nat) (e : Eval) (s : State) : Out :=
  match (s.vf vf).sh.word e.slot e.ix with
  | some i => exec i s
  | none => .next (s.setEval vf none)

/-- A firmware command of the ring (20 R407). -/
def runCommand (c : FwCmd) (s : State) : Out :=
  let h := c.hdr
  let n (i : Nat) : Nat := c.args.getD i 0
  let q (i : Nat) : W64 := BitVec.ofNat 64 (n i)
  let d (i : Nat) : W32 := BitVec.ofNat 32 (n i)
  let b (i : Nat) : Bool := n i == 1
  match c.opc.toNat with
  | 0x01 => execIdentify h (q 0) s
  | 0x02 => execNegotiate h (q 0) (q 1) (q 2) (q 3) s
  | 0x03 => execPatchLoad h (q 0) (q 1) s
  | 0x04 => execAttest h (BitVec.ofNat 256 (n 0)) (q 1) s
  | 0x10 => execPaddockSet h (q 0) (b 1) s
  | 0x11 => execPaddockRegions h (q 0) (b 1) s
  | 0x12 => execLend h (BitVec.ofNat 192 (n 0)) (q 1) s
  | 0x13 => execReclaim h (BitVec.ofNat 192 (n 0)) s
  | 0x14 => execS2root h (q 0) s
  | 0x15 => execS2inv h (q 0) (b 1) s
  | 0x16 => execResumeWalks h s
  | 0x17 => execTimers h { spwin := d 0, prep := d 1, grace := d 2, killt := d 3, agep := d 4, fabto := d 5, start := d 6, slice := d 7 } s
  | 0x20 => execVfActivate h (q 0) (d 1) (d 2) s
  | 0x21 => execVfDeactivate h s
  | 0x22 => execVfPool h (q 0) (q 1) (q 2) (q 3) s
  | 0x23 => execVfBacking h (q 0) (q 1) s
  | 0x24 => execVfBudget h (d 0) (d 1) s
  | 0x25 => execVfBoost h (q 0) s
  | 0x26 => execVfEnd h (q 0) s
  | 0x30 => execQueueCreate h (d 0) (d 1) (q 2) s
  | 0x31 => execQueueDestroy h (q 0) s
  | 0x32 => execQueueSet h (d 0) (d 1) (b 2) s
  | 0x33 => execWqBind h (q 0) (b 1) s
  | 0x38 => execMigrate h (q 0) (q 1) s
  | 0x40 => execFoldRing h (q 0) (BitVec.ofNat 256 (n 1)) s
  | 0x41 => execStreamAdmit h (q 0) s
  | 0x42 => execStreamWithdraw h (q 0) s
  | 0x43 => execHeadTiming h (q 0) (q 1) s
  | 0x48 => execSharedCreate h (q 0) (q 1) s
  | 0x49 => execSharedMap h (q 0) s
  | 0x4A => execSharedUnmap h (q 0) s
  | 0x4B => execSharedSeal h (q 0) s
  | 0x50 => execDomainForm h (q 0) (q 1) s
  | _ => .next s

/-- The miss that waits longest in a Paddock is walked once a walker is free (14 R308). -/
def walkMiss (pd : Nat) (s : State) : State :=
  match missesOf s pd with
  | [] => s
  | m :: _ =>
    if walkersFree s pd = 0 then s
    else match startWalk { s with unit := m.units.headD .die } m.vf (4096 * m.page) .rd with
      | (.ok _, t) | (.wait _ _, t) | (.busy, t) => t
      | _ => dropMiss s m.vf m.page

/-- The TLBs that an action goes through: those of its group's core, of its copy engine, or the walkers' (14 R307). -/
def unitOf (s : State) : Action → TlbAt
  | .issue r | .pass r | .event (.pairsStop r) | .event (.waitaWake r) | .event (.waitaTimeout r) => core r.g
  | .event (.mstComplete h _) | .event (.mldComplete h _) | .element h _ => core h
  | .event (.tcopyTile h _) | .copyElement h _ => match core h with | .core c => .engine c | u => u
  | _ => .die
where
  core (h : Nat) : TlbAt := match s.group h with | some g => coreUnit s g | none => .die

/-- What an action does. -/
def actOn (a : Action) (s : State) : Out :=
  match a with
  | .issue r => issueNow r s
  | .event i => exec i s
  | .pass r => .next (passStep r s)
  | .command c => runCommand c s
  | .scrub l => execPatrolScrub (128 * l) s
  | .element h id => .next (elementLands h id s)
  | .copyElement h d => .next (copyElementLands h d s)
  | .missWalk pd => .next (walkMiss pd s)
  | .account => .next (account s)
  | .kill vf c => .next (endContext s vf c 0)
  | .write i => .next (match s.pend[i]? with | some p => retryWrite s p | none => s)
  | .host ps d => .next (hostGoesOn s ps d)
  | .place a d => .next (placeRecord s a d)

/-- An action, through its own TLBs. -/
def act (a : Action) (s : State) : Out :=
  match actOn a { s with unit := unitOf s a } with
  | .next t => .next { t with unit := s.unit }
  | o => o

/-! ### What may come next -/

/-- A traversal: its next pass, or its stop where a pre-emption or a hold takes it (07 R205). -/
def pairsSteps (s : State) (r : PathRef) (g : Group) (p : Path) : List Action :=
  let stopping := match s.team g.team with | some t => t.stop.isSome | none => false
  match g.pairs.rd r.p with
  | some x => if x.stop.isSome then [.pass r] else if stopping || p.hold then [.event (.pairsStop r)] else if x.held then [] else [.pass r]
  | none => if p.hold then [.event (.pairsStop r)] else []

/-- What a path waits for. One whose answers have come goes on where it stands; only a new instruction needs a slot (04 R104). -/
def pathSteps (s : State) (r : PathRef) (g : Group) (p : Path) : List Action :=
  if (s.coreOf g).isNone then []
  else match p.st with
    | .susp (.waita ..) => [.event (.waitaWake r)]
    | .susp (.btry ..) => [.event (.btryWake r)]
    | .susp (.lwait ..) => [.event (.lwaitWake r)]
    | .susp (.pairs _) => pairsSteps s r g p
    | .walkGo => [.event (.walkComplete r)]
    | .remote _ => if g.live r.p && !leavesFetch s r g p then [] else [.issue r]
    | _ => []

/-- The paths of a group, with what a function makes of each. -/
def Group.pathList (h : Nat) (g : Group) (f : PathRef → Path → List Action) : List Action :=
  allPaths.flatMap fun i => match g.paths.rd i with | some p => f ⟨h, i⟩ p | none => []

/-- What a group's engines and paths have under way. -/
def groupSteps (s : State) (h : Nat) (g : Group) : List Action :=
  (g.lands.map fun l => .event (.loadLand h l.id)) ++
    (g.ops.flatMap fun o => match o.kind with
      | .mma _ _ => [.event (.mmaComplete h o.id)]
      | .mst _ _ _ => [.event (.mstComplete h o.id)] ++ if (asksOf s (.op h o.id)).isEmpty || o.go then [.element h o.id] else []
      | .mld _ _ _ => [.event (.mldComplete h o.id)]
      | .far _ _ _ _ _ => [.element h o.id]) ++
    (allD.flatMap fun d => if copyRuns s g (g.copies.rd d) then [.event (.tcopyTile h d), .copyElement h d] else []) ++
    g.pathList h fun r p => pathSteps s r g p

/-- Cores with a team. -/
def busyCores (s : State) : List Nat := (s.teams.filterMap fun e => e.2.core).eraseDups

def padSteps (s : State) (n : Nat) (p : Paddock) : List Action :=
  [.event (.clusterDispatch n), .event (.eventPost n)] ++ (if (missesOf s n).isEmpty then [] else [.missWalk n]) ++
    p.streamList.map fun t => .event (.tileRowPost n t.1)

def vfSteps (n : Nat) : List Action := [.event (.traceRecordWrite n), .event (.shEvaluate n), .event (.noticePost n)]

/-- What may come next, in no fixed order. -/
def steps (s : State) : List Action :=
  (s.groups.flatMap fun e => groupSteps s e.1 e.2) ++
    ((busyCores s).flatMap fun c => [.event (.issueSelection c), .event (.deadlockBreak c)]) ++
    (s.teams.flatMap fun e => [.event (.teamSave e.1), .event (.teamExit e.1)]) ++
    (s.paddocks.flatMap fun e => padSteps s e.1 e.2) ++ (s.vfs.flatMap fun e => vfSteps e.1) ++
    (s.wqs.map fun e => .event (.wqRecordTake e.1)) ++ (s.migrations.map fun e => .event (.migrationCommit e.1)) ++ s.inbox ++
    ((List.range s.pend.length).map .write) ++ (s.fwpend.map .command) ++ (s.fwrun.map fun r => .command r.cmd) ++
    (s.ecc.map .scrub) ++ (s.soft.map .scrub) ++ ((List.range s.sram.length).map fun i => .scrub (sramLine i)) ++ [.event .bellwetherTick]

/-! ### What is due at its moment

Nothing else of the module comes between the moment that the manual gives these and their step: slots (10 R249), returns (10 R262), grants (10
R255), closes (22 R431), the timers of 14 R316, 16 R347 and R350 and 18 R357, R369 to R372, R375 and R382, the drops, windows and offers of 22
R433 and R439, and what is counted (22 R424). -/

def groupDue (s : State) (h : Nat) (g : Group) : List Action :=
  (if g.canFill then [.event (.slotFill h)] else []) ++ (g.closing.map fun tag => .event (.tileClose h tag)) ++
    g.pathList h fun r p => if (s.coreOf g).isNone then [] else match p.st with
      | .susp (.waita ..) => [.event (.waitaTimeout r)]
      | .susp (.btry ..) => [.event (.btryTimeout r)]
      | _ => []

/-- Whether the AGE sampling of a Paddock is due (14 R316). -/
def ageDue (s : State) (p : Paddock) : Bool := decide (p.sampled + p.timers.agep.toNat * 2 ^ 32 ≤ s.bell.toNat)

def padDue (s : State) (n : Nat) (p : Paddock) : List Action :=
  [.event (.sliceEnd n)] ++ (if p.live && ageDue s p then [.event (.ageSample n)] else []) ++
    p.streamList.flatMap fun t =>
      [.event (.droverMilestone n t.1), .event (.chainMiss n t.1), .event (.chainStart n t.1), .event (.headScanout n t.1), .event (.encodeStart n t.1)]

def vfDue (n : Nat) : List Action :=
  [.event (.forcedStep n), .event (.killStep n), .event (.traceRecordDrop n), .event (.shEventOffer n), .event (.shWindow n)]

def dueSteps (s : State) : List Action :=
  (if s.uses.isEmpty then [] else [.account]) ++ (s.groups.flatMap fun e => groupDue s e.1 e.2) ++
    ((busyCores s).map fun c => .event (.vgrowGrant c)) ++ (s.teams.map fun e => .event (.spwinExpiry e.1)) ++
    (s.paddocks.flatMap fun e => padDue s e.1 e.2) ++ (s.vfs.flatMap fun e => vfDue e.1) ++
    (s.grids.map fun e => .event (.startTimeout e.1)) ++ s.asks.map fun e => .event (.fabricTimeout e.1)

/-- Whether a step would change anything. -/
def changes (s : State) (a : Action) : Bool :=
  match act a s with
  | .next t => t != s
  | _ => true

/-- One of some steps; a tick of the Bellwether where there is none. -/
def pickOf (s : State) (l : List Action) : Action := l.getD (Config.pick s.free % l.length) (.event .bellwetherTick)

/-- The scan-outs of the heads, which at their moment free slots that chains starting at the same moment take (18 R366). -/
def scanouts (s : State) : List Action := (dueSteps s).filter fun a => match a with | .event (.headScanout _ _) => true | _ => false

/-- What comes next: one of the steps that are due, where one changes the machine, else one of those that may come. A head's scan-out comes before
the other steps of its moment (18 R366). -/
def choose (s : State) : Action :=
  match (scanouts s).filter (changes s), (dueSteps s).filter (changes s) with
  | [], [] => pickOf s ((steps s).filter (changes s))
  | [], l => pickOf s l
  | l, _ => pickOf s l

/-! ### Freeze (22 R445) -/

/-- What goes on in a frozen module: the Bellwether, the controller, the dump, and power-on. -/
def runsFrozen (i : Instr) : Bool :=
  match i with
  | .bellwetherTick => true
  | .scanDump => true
  | .powerOn => true
  | .bwnsRead .controller => true
  | .adj .controller _ => true
  | .bwStep .controller _ => true
  | .ptpMessage _ => true
  | _ => false

/-- What a frozen module does with its agenda: the rest of it comes to nothing. -/
def performFrozen (a : Action) (s : State) : Out :=
  match a with
  | .event i => if runsFrozen i then exec i s else .next s
  | _ => .next s

/-- The next thing: while an event is filtered, its next word; else what the agenda holds; else what is due. -/
def advance (s : State) : Out :=
  if s.frozen then
    match s.agenda with
    | a :: rest => performFrozen a { s with agenda := rest }
    | [] => exec .bellwetherTick s
  else
    match s.eval with
    | some (vf, e) => evalNow vf e s
    | none => match s.agenda with
      | a :: rest => act a { s with agenda := rest }
      | [] => act (choose s) { s with free := s.free + 1 }

end Sys2Proof.Machine
end

