-- ==== Sys2Proof/Machine/Load.lean ====
section
/-! DEFINITION. A machine in which one instruction is about to run. The device loads no program: the host's driver builds tables, kernel and
launch records in memory, activates a VF and rings a work queue's doorbell, and the dispatcher places groups (01 R39-R45, 16 R337-R344,
19 R386-R392). What follows stands for that work with the smallest grid: one team of one group on core 0 (log entry 17). -/

namespace Sys2Proof.Machine

/-- Bytes of a table entry or word at an address. -/
def State.poke (s : State) (pa : Nat) (d : List W8) : State := { s with mem := s.mem.write pa d }

/-- Addresses of the load: stage-2 tables, stage-1 tables, code, frames, handler. -/
def loadS2 : Nat := 0x1000
def loadS1 : Nat := 0x4000
def loadCode : Nat := 0x10000
def loadFrames : Nat := 0x20000
def loadSpill : Nat := 0x30000
def loadHandler : Nat := 0x40000

/-- Three levels of tables from an address, the last with a leaf of 1 GiB at 0 that may be written and executed. -/
def pokeTables (s : State) (t : Nat) : State :=
  ((s.poke t (natLe 8 (t + 0x1000 + 3))).poke (t + 0x1000) (natLe 8 (t + 0x2000 + 3))).poke (t + 0x2000) (natLe 8 0xD)

def loadLaunch : Launched :=
  { format := 1, flags := 0, seed := 0, krec := 0, code := BitVec.ofNat 64 loadCode, gx := 1, gy := 1, gz := 1, gen := 0, exitb := 0x50000,
    frames := BitVec.ofNat 64 loadFrames, spills := BitVec.ofNat 64 loadSpill, args := [], q := Bank.fill 0, modmask := 0, saves := 0x60000,
    zero := true }

def loadKernel : Kernel :=
  { entry := 0, regs := 256, acc := 8, groups := 1, cw := 1, ch := 1, shared := 4096, spill := 4096, scratch := 0, strip := 0 }

def loadGrid : Grid :=
  { vf := 0, gridid := 1, paddock := 0, launch := loadLaunch, kernel := loadKernel, recAddr := 0, q := Bank.fill 0, origin := .child 0,
    prio := 0, order := 4, nextCluster := 1, ends := [], scratch := [], slices := [], domain := none, started := true, armed := [], kept := [] }

def loadTeam : Team :=
  { grid := 4, cluster := 3, teamid := 0, lin := 0, core := some 0, last := 0, placed := 2, gcount := 1, size := 4096, shared := [],
    bars := Bank.fill Barrier.start, strip := false, stop := none, saved := false, ids := none }

def loadCluster : Cluster := { grid := 4, index := 0, teams := [2], cbars := Bank.fill Barrier.start, reclaim := false, front := 0 }

def loadGroup : Group :=
  Group.start 2 0 0 0 256 8 4096 0 (BitVec.ofNat 64 loadCode) (BitVec.ofNat 64 loadSpill) (BitVec.ofNat 64 loadFrames) [] (Bank.fill 0) 0

/-- A grid of one group on core 0, in VF 0 of Paddock 0, with 1 GiB mapped to itself, about to issue. -/
def State.loaded (s : State) : State :=
  let s := pokeTables (pokeTables s loadS2) loadS1
  let s := s.setVf 0 fun v => { v with active := true, paddock := 0, hentry := BitVec.ofNat 64 loadHandler, s1root := BitVec.ofNat 64 loadS1 }
  let s := s.setPad 0 fun p => { p with live := true, s2root := BitVec.ofNat 64 loadS2 }
  { s with regions := s.regions.put 0 { Region.none with owner := 0 }, ports := s.ports.put 0 { Port.none with owner := 0 },
           grids := s.grids.put 4 loadGrid, clusters := s.clusters.put 3 loadCluster, teams := s.teams.put 2 loadTeam,
           groups := s.groups.put 1 loadGroup, handle := max s.handle 5, frozen := false, evalVf := none, cur := none,
           agenda := [.issue ⟨1, 0⟩] }

/-- A Flano instruction of three words at the PC of the loaded group. -/
def State.loadFlano (s : State) (w : Nat) : State := s.loaded.poke loadCode (natLe 24 w)

/-- A filter word in slot 0 of VF 0, whose evaluation of an event stands at it. -/
def State.loadFilter (s : State) (w : Nat) : State :=
  let e : Eval :=
    { ev := { cls := 0, e := Bank.fill 0, ns := 0 }, slot := 0, ix := 0, h := Bank.fill 0, hist := [], cms := [], trig := [] }
  { s.setVf 0 fun v => { v with sh := { v.sh with slots := v.sh.slots.wr 0 ((v.sh.slots.rd 0).wr 0 (BitVec.ofNat 32 w)), eval := some e } } with
    frozen := false, evalVf := some 0 }

end Sys2Proof.Machine
end

