-- ==== Sys2Proof/Machine/View.lean ====
section
/-! DEFINITION. What the host reads at the registers of its windows (20 R394-R399, R404, R408, R412, 16 R342, 18 R361, 22 R424-R444), at
offsets of 8 bytes. A 64-bit read of BWNS and a 32-bit read of a counter's half also change a latch: those are instructions of Host.lean. -/

namespace Sys2Proof.Machine

/-- Bit `i` of a register. -/
def bitAt (b : Bool) (i : Nat) : W64 := if b then 1#64 <<< i else 0

/-- Two words of 32 bits as the register that holds them. -/
def pair32 (lo hi : W32) : W64 := hi ++ lo

/-- Eight bytes of a list. -/
def word64At (d : List W8) (o : Nat) : W64 := BitVec.ofNat 64 (field d o 8)

/-- Firmware queue registers (R404). -/
def fwReg (s : State) (i : Nat) : W64 :=
  match i with
  | 0 => s.fwqbase
  | 1 => s.fwcbase
  | 2 => s.fwtail.setWidth 64
  | 3 => s.fwhead.setWidth 64
  | 4 => bitAt s.fwen 7 ||| s.fwlogn.setWidth 64
  | _ => 0

/-- FEATnCAP and FEATnEN (R408). -/
def featReg (s : State) (i : Nat) : W64 :=
  match i with
  | 0 => feat0Cap
  | 1 => 1
  | 4 => s.feat.rd 0
  | 5 => s.feat.rd 1
  | 6 => s.feat.rd 2
  | 7 => s.feat.rd 3
  | _ => 0

/-- The timebase block as the host reads it (R361). -/
def timebaseReg (s : State) (i : Nat) : W64 :=
  match i with
  | 0 => s.ns
  | 1 => s.latchHost.setWidth 64
  | 2 => s.adj.setWidth 64
  | 4 => bitAt s.stepErr 1 ||| bitAt s.src 0
  | _ => 0

/-- A Paddock's block (R396). -/
def padReg (p : Paddock) (i : Nat) : W64 :=
  match i with
  | 0 => p.evbase
  | 1 => bitAt p.evovf 8 ||| p.evlog.setWidth 64
  | 2 => p.evwrite.setWidth 64
  | 3 => p.evread.setWidth 64
  | 4 => bitAt p.pend 1 ||| bitAt p.live 0
  | _ => 0

/-- Bytes of the read-only copies of PORTOWN, and of MEMOWN's ports and regions (R398, R399). -/
def ownReg (s : State) (o : Nat) : W64 :=
  let ports (f : Nat → Port) (n i : Nat) : W64 :=
    word64At ((List.range 4).flatMap fun k => if 4 * i + k < n then portWord (f (4 * i + k)) else zeros 2) 0
  if o < 0x1000 then ports s.port 220 (o / 8)
  else if o < 0x1000 + 704 then ports s.memPort 352 ((o - 0x1000) / 8)
  else if o < 0x1000 + 704 + 8192 then word64At (regionWord (s.region ((o - 0x12C0) / 8))) 0
  else 0

/-- The PF window (R394). -/
def pfReg (s : State) (o : Nat) : W64 :=
  if o < 0x1000 then fwReg s (o / 8)
  else if o < 0x2000 then featReg s ((o - 0x1000) / 8)
  else if o < 0x3000 then timebaseReg s ((o - 0x2000) / 8)
  else if o < 0x3200 then (s.errLog.rd (BitVec.ofNat 4 ((o - 0x3000) / 32))).extractLsb' (64 * ((o - 0x3000) / 8 % 4)) 64
  else if o / 8 = 0x3200 / 8 then s.errCount.setWidth 64
  else if 0x4000 ≤ o ∧ o < 0x4C00 then padReg (s.pad ((o - 0x4000) / 64)) (o / 8 % 8)
  else if 0x10000 ≤ o then ownReg s (o - 0x10000)
  else 0

/-- VF control registers (R395). -/
def controlReg (v : Vf) (i : Nat) : W64 :=
  match i with
  | 0 =>
    bitAt v.active 0 ||| bitAt v.boost 1 ||| bitAt v.ended 2 ||| bitAt v.wrej 3 ||| (v.endc.setWidth 64 <<< 8) |||
      ((if v.active then v.paddock else 63).setWidth 64 <<< 16)
  | 1 => v.hentry
  | 2 => v.s1root
  | _ => 0

/-- A work queue's registers (16 R342). -/
def wqReg (q : Wq) (i : Nat) : W64 :=
  match i with
  | 0 => q.wqbase
  | 1 => q.cqbase
  | 2 => q.wqtail.setWidth 64
  | 3 => q.wqhead.setWidth 64
  | 4 => bitAt q.en 7 ||| bitAt q.err 6 ||| (q.prio.setWidth 64 <<< 4) ||| q.logn.setWidth 64
  | _ => 0

/-- CLATCH and the trace-buffer registers (22 R428, R430). -/
def traceReg (v : Vf) (o : Nat) : W64 :=
  if o / 8 = 0x2800 / 8 then pair32 (v.clatchIdx.setWidth 32 ||| (if v.clatchValid then 0x100 else 0)) v.clatchHi
  else if o / 8 = 0x2900 / 8 then v.trbase
  else if o / 8 = 0x2908 / 8 then (v.slog.setWidth 64 <<< 16) ||| bitAt v.sen 9 ||| bitAt v.tren 8 ||| v.trlog.setWidth 64
  else if o / 8 = 0x2910 / 8 then v.trwrite.setWidth 64
  else if o / 8 = 0x2918 / 8 then v.trread.setWidth 64
  else 0

/-- The Shepherd's registers, slots and tables (22 R435). -/
def shReg (s : State) (vf o : Nat) : W64 :=
  let h := (s.vf vf).sh
  let table (t : Bank 2 (Bank 6 W32)) (i : Nat) : W32 := (t.rd (BitVec.ofNat 2 (i / 64))).rd (BitVec.ofNat 6 i)
  let slotWord (i : Nat) : W32 := (h.slots.rd (BitVec.ofNat 3 (i / 32))).rd (BitVec.ofNat 5 i)
  let two (f : Nat → W32) (i : Nat) : W64 := pair32 (f i) (f (i + 1))
  if o / 8 = 0x3000 / 8 then bitAt h.en 0
  else if o / 8 = 0x3008 / 8 then (BitVec.ofNat 64 (shEff s vf) <<< 32) ||| h.req.setWidth 64
  else if o / 8 = 0x3010 / 8 then h.att.setWidth 64
  else if o / 8 = 0x3018 / 8 then lenWord h
  else if o / 8 = 0x3020 / 8 then bitAt h.err 0
  else if 0x3100 ≤ o ∧ o < 0x3500 then two slotWord ((o - 0x3100) / 8 * 2)
  else if 0x3800 ≤ o ∧ o < 0x3C00 then two (table h.ht) ((o - 0x3800) / 8 * 2)
  else if 0x3C00 ≤ o then two (table h.sk) ((o - 0x3C00) / 8 * 2)
  else 0

/-- The Crook's registers (22 R442). -/
def crookReg (k : Crook) (o : Nat) : W64 :=
  if o < 0x4020 then k.cmd.extractLsb' (64 * (o / 8 % 4)) 64
  else if o / 8 = 0x4028 / 8 then
    bitAt k.ovr 33 ||| bitAt k.busy 32 ||| (k.tag.setWidth 64 <<< 16) ||| (k.code.setWidth 64 <<< 8) ||| k.status.setWidth 64
  else if 0x4030 ≤ o ∧ o < 0x4050 then k.val.extractLsb' (64 * ((o - 0x4030) / 8)) 64
  else if o / 8 = 0x4050 / 8 then k.nbase
  else if o / 8 = 0x4058 / 8 then k.nlog.setWidth 64
  else if o / 8 = 0x4060 / 8 then k.nwrite.setWidth 64
  else if o / 8 = 0x4068 / 8 then k.nread.setWidth 64
  else if 0x4100 ≤ o ∧ o < 0x4140 then k.bp.rd (BitVec.ofNat 3 ((o - 0x4100) / 8))
  else if 0x4140 ≤ o ∧ o < 0x4180 then
    let i := BitVec.ofNat 2 ((o - 0x4140) / 16)
    if o / 8 % 2 = 0 then k.wp.rd i else (k.wplen.rd i).setWidth 64
  else 0

/-- A VF's window (R394): its Shepherd is unmapped space until it is negotiated (R408). Counters read whole are `readCounter`'s. -/
def vfReg (s : State) (vf o : Nat) : W64 :=
  if o < 0x1000 then controlReg (s.vf vf) (o / 8)
  else if o < 0x2000 then
    match wqAt s vf ((o - 0x1000) / 64) with
    | some q => wqReg (s.wq q) (o / 8 % 8)
    | none => 0
  else if o < 0x2800 then (readCounter s vf (BitVec.ofNat 8 ((o - 0x2000) / 8))).1
  else if o < 0x3000 then traceReg (s.vf vf) o
  else if o < 0x4000 then if shepherdOn s then shReg s vf o else 0
  else if o < 0x4200 then crookReg (s.vf vf).crook o
  else 0

/-- The 64 bits that a host reads at an offset that is a multiple of 8. -/
def regRead (s : State) (w : Window) (o : Nat) : W64 :=
  match w with
  | .pf => pfReg s o
  | .vf n => vfReg s n o

end Sys2Proof.Machine
end

