-- ==== Sys2Proof/Machine/Step.lean ====
section
/-! DEFINITION. One step of the module, and the state in which a given instruction is the next to run. -/

namespace Sys2Proof.Machine

/-- One step: a filter word, a thing the agenda holds, or one of the steps that are due. -/
def step (s : State) : Host.Outcome State Fault Refusal := advance s

/-- The machine with an instruction where the next step fetches it: a filter word of 32 bits, or the words of a Flano instruction, its
bits above `nbits` zero (log entry 17). -/
def State.withFetchWord (s : State) (nbits w : Nat) : State :=
  if nbits ≤ 32 then s.loadFilter (w % 2 ^ nbits) else s.loadFlano (w % 2 ^ nbits)

end Sys2Proof.Machine
end

