-- ==== Sys2Proof/Safety.lean ====
section
/-! DEFINITION. The words in which claims about the machine are made: when an instruction issues past the checks of 02 R70, what its
meaning is given, and what an instruction that completes leaves alone. -/

namespace Sys2Proof.Machine

/-- The checks ahead of an instruction's own effect pass (02 R70, R58, 10 R253): the path exists and waits for nothing, its level allows the opcode, its
registers lie in the group's window and tiles, no lookahead window forbids one, no result it needs is outstanding, nor, of an instruction that
comes after them, an access at another module, and no word of SRAM holds an error (20 R412). -/
structure Issues (s : State) (r : PathRef) (g : Group) (p : Path) (h : Hdr) (u : Uses) : Prop where
  cur : s.cur = some r
  path : s.path r = some (g, p)
  ready : p.st = .ready
  level : u.priv = true → p.sup = true
  inside : (u.rd ++ u.wr).any (outside g) = false
  windows : (p.win.any fun w => (u.all g (p.mask &&& g.pred h)).any fun x => w.regs.contains x) = false
  after : (u.mem && g.afar p.mask) = false
  landed : ((u.all g (p.mask &&& g.pred h)).any fun x => !hardwired x && (g.pendingRegs p.mask).contains x) = false
  sound : s.sram = []

/-- EMASK (00 R6). -/
def emaskOf (g : Group) (p : Path) (h : Hdr) : Mask := p.mask &&& g.pred h

/-- What the meaning of an issued instruction is given. -/
def cxOf (s : State) (r : PathRef) (g : Group) (p : Path) (h : Hdr) (u : Uses) : Cx :=
  { r := r, g := g.setPath r.p (p.issued g h u), p := p.issued g h u, em := emaskOf g p h, pc := p.pc, npc := p.pc + hdrLen h,
    vf := s.vfOf g, skip := p.skipBp, woken := p.wakes }

/-- The state in which its effect begins: the path issued, and the instruction counted (22 R424). -/
def issuedSt (s : State) (r : PathRef) (g : Group) (p : Path) (h : Hdr) (u : Uses) : State :=
  (s.setGroup r.g (g.setPath r.p (p.issued g h u))).count (s.vfOf g) 1 1

/-- The path goes on at `pc`, on the lanes and at the level it had, and nothing else of its group's path table moves. -/
structure Went (t : State) (r : PathRef) (g G : Group) (p q : Path) (pc : W64) : Prop where
  path : t.path r = some (G, q)
  pc : q.pc = pc
  ready : q.st = .ready
  lanes : q.mask = p.mask
  merge : q.rcv = p.rcv ∧ q.depth = p.depth ∧ q.join = p.join
  level : q.sup = p.sup ∧ q.fcause = p.fcause ∧ q.fpc = p.fpc ∧ q.entry = p.entry
  others : ∀ i, i ≠ r.p → G.paths.rd i = g.paths.rd i
  slots : G.slotA = g.slotA ∧ G.slotB = g.slotB ∧ G.fifo = g.fifo ∧ G.joins = g.joins ∧ G.ser = g.ser

/-- Nothing changes but the group of the path and the counter of instructions of its VF: no byte of memory, no other group, no
register of the device. -/
structure Quiet (s t : State) (r : PathRef) (vf : Nat) : Prop where
  rest : t = { s with groups := t.groups, vfs := t.vfs }
  groups : ∀ k, k ≠ r.g → t.group k = s.group k
  vfs : ∀ n, n ≠ vf → t.vf n = s.vf n
  counted : t.vf vf = { s.vf vf with ctr := (s.vf vf).ctr.wr 1 ((s.vf vf).ctr.rd 1 + 1) }
  memory : ∀ a, t.mem.get a = s.mem.get a

/-- The instruction completes with a value that satisfies `P` in scalar register `d` (s0 keeps 0), every other scalar and everything
else of the group as it was. -/
def WritesScalarSuch (i : Instr) (h : Hdr) (u : Uses) (d : SReg) (P : Group → Path → W64 → Prop) : Prop :=
  ∀ s r g p, Issues s r g p h u → p.hold = false →
    ∃ t q x, exec i s = .next t ∧ Went t r g (g.setPath r.p q) p q (p.pc + hdrLen h) ∧ Quiet s t r (s.vfOf g) ∧ P g p x ∧
      ∀ n, q.getS n = if n = d ∧ n ≠ 0 then x else p.getS n

/-- The same with one value. -/
def WritesScalar (i : Instr) (h : Hdr) (u : Uses) (d : SReg) (v : Group → Path → W64) : Prop :=
  WritesScalarSuch i h u d fun g p x => x = v g p

/-- The instruction completes with `v` in the EMASK lanes of predicate `d` (k0 keeps all ones), every other lane, predicate, scalar and
register as it was. -/
def WritesPred (i : Instr) (h : Hdr) (u : Uses) (d : KReg) (v : Group → Path → Mask) : Prop :=
  ∀ s r g p, Issues s r g p h u → p.hold = false →
    ∃ t G q, exec i s = .next t ∧ Went t r g G p q (p.pc + hdrLen h) ∧ Quiet s t r (s.vfOf g) ∧
      G = { g with k := G.k, paths := G.paths } ∧ (∀ n, q.getS n = p.getS n) ∧
      ∀ n l, (G.getK n).has l = if n = d ∧ n ≠ 0 ∧ (emaskOf g p h).has l then (v g p).has l else (g.getK n).has l

/-- The instruction completes with values that satisfy `P` in the EMASK lanes of the lane registers `ds`, every other lane and register
as it was; of a pair the other path may read old halves until the cycle ends (05 R121). -/
def WritesLanesSuch (i : Instr) (h : Hdr) (u : Uses) (ds : List VReg) (P : Group → Path → VReg → Lane → W32 → Prop) : Prop :=
  ∀ s r g p, Issues s r g p h u → p.hold = false →
    ∃ t G q, exec i s = .next t ∧ Went t r g G p q (p.pc + hdrLen h) ∧ Quiet s t r (s.vfOf g) ∧
      G = { g with v := G.v, paths := G.paths, old := G.old } ∧ (ds.length < 2 → G.old = g.old) ∧ (∀ n, q.getS n = p.getS n) ∧
      (∀ n l, n ∈ ds → (emaskOf g p h).has l → P g p n l ((G.getV n).rd l)) ∧
      ∀ n l, ¬ (n ∈ ds ∧ (emaskOf g p h).has l) → (G.getV n).rd l = (g.getV n).rd l

/-- The same with one value per lane of one register. -/
def WritesLanes (i : Instr) (h : Hdr) (u : Uses) (d : VReg) (v : Group → Path → Lane → W32) : Prop :=
  WritesLanesSuch i h u [d] fun g p _ l x => x = v g p l

/-- An exact result wrapped to `w` bits, or under saturation clamped to their signed or unsigned range (03 R76). -/
def settled (w : Nat) (sat unsigned : Bool) (x : Int) : BitVec w :=
  BitVec.ofInt w (if sat then (if unsigned then max 0 (min (2 ^ w - 1) x) else max (-2 ^ (w - 1)) (min (2 ^ (w - 1) - 1) x)) else x)

/-- Element by element: those in the half selected hold `f`, the others what the register held (05 R123, R124). -/
def Elementwise (w : Width) (half : Half) (old x : W32) (f : Nat → BitVec (widthBits w)) : Prop :=
  ∀ e, e < 32 / widthBits w → elt (widthBits w) x e =
    if half = .whole ∨ (half = .lo ∧ widthBits w * (e + 1) ≤ 16) ∨ (half = .hi ∧ 16 ≤ widthBits w * e) then f e
    else elt (widthBits w) old e

/-- The elements of a lane register, in each EMASK lane. -/
def WritesElements (i : Instr) (h : Hdr) (u : Uses) (d : VReg) (w : Width) (half : Half)
    (f : Group → Path → Lane → Nat → BitVec (widthBits w)) : Prop :=
  WritesLanesSuch i h u [d] fun g p _ l x => Elementwise w half ((g.getV d).rd l) x (f g p l)

/-- How far a lane shift moves element `e`: the element of a register or the whole immediate, modulo the width (05 R123, R125). -/
def shiftCount (g : Group) (o : VElem) (l : Lane) (e : Nat) : Nat :=
  (match o.b with
    | .reg a => (elt (widthBits o.w) (g.src a l) e).toNat
    | .imm v => v.toNat) % widthBits o.w

/-- The half of a 64-bit value that a register of a pair holds (01 R10). -/
def half64 (high : Bool) (x : W64) : W32 := if high then x.extractLsb' 32 32 else x.setWidth 32

/-- A result rounded once: in the mode named, or stochastically with the lane's generator advanced (03 R82, R83). -/
def rounded (r : Rnd) (rngs : W32) (f : How → Nat) : W32 × W32 :=
  match r with
  | .mode m => (BitVec.ofNat 32 (f (.mode m)), rngs)
  | .sr => (BitVec.ofNat 32 (f (.sr (rndOf (xorshift rngs)))), xorshift rngs)

/-- The same of an instruction that rounds: under `.sr` the RNGS of each EMASK lane advances too (03 R82, R83). -/
def RoundsLanes (i : Instr) (h : Hdr) (u : Uses) (d : VReg) (v : Group → Path → Lane → W32 × W32) : Prop :=
  ∀ s r g p, Issues s r g p h u → p.hold = false →
    ∃ t G q, exec i s = .next t ∧ Went t r g G p q (p.pc + hdrLen h) ∧ Quiet s t r (s.vfOf g) ∧
      G = { g with v := G.v, rngs := G.rngs, paths := G.paths } ∧ (∀ n, q.getS n = p.getS n) ∧
      (∀ n l, (G.getV n).rd l = if n = d ∧ (emaskOf g p h).has l then (v g p l).1 else (g.getV n).rd l) ∧
      ∀ l, G.rngs.rd l = if (emaskOf g p h).has l then (v g p l).2 else g.rngs.rd l

/-- The instruction completes at `pc`, no register of the group or path changed. -/
def GoesTo (i : Instr) (h : Hdr) (u : Uses) (C : Group → Path → Prop) (pc : Group → Path → W64) : Prop :=
  ∀ s r g p, Issues s r g p h u → p.hold = false → C g p →
    ∃ t q, exec i s = .next t ∧ Went t r g (g.setPath r.p q) p q (pc g p) ∧ Quiet s t r (s.vfOf g) ∧ ∀ n, q.getS n = p.getS n

/-- The instruction takes an exception in the lanes and with the report given (08 R218). -/
def TakesException (i : Instr) (h : Hdr) (u : Uses) (C : Group → Path → Prop) (f : Group → Path → FaultInfo) : Prop :=
  ∀ s r g p, Issues s r g p h u → C g p →
    exec i s = .next (settleHold (deliver (issuedSt s r g p h u) r (f g p) p.pc (p.pc + hdrLen h)) r)

/-- Where a lane of an indirect branch goes: its pair's address, or on, where it is not in EMASK (04 R114). -/
def brxDest (g : Group) (p : Path) (h : Hdr) (o : Brx) (l : Lane) : W64 :=
  if (emaskOf g p h).has l then g.pair o.a l else p.pc + hdrLen h

/-- An access whose checks pass (06 R150), which lands wholly in this module and in range: the state and places it has then. -/
structure Reaches (c : Cx) (s : State) (whole : Option Mask) (sp : Space) (z : Nat) (k : Acc) (rd wr : Bool) (qs : List (Lane × W64))
    (l : Landed) : Prop where
  ok : check c s whole sp z z k rd wr qs = .ok l
  here : ∀ x ∈ l.at_, ∃ ls, x.2 = .here ls
  inRange : l.off = 0

/-- The physical bytes of a list of places. -/
def inPlaces (ls : List (Lane × Place)) (a : Nat) : Prop :=
  ∃ x ∈ ls, ∃ ps, x.2 = .here ps ∧ ∃ b n, (Loc.pa b, n) ∈ ps ∧ b ≤ a ∧ a < b + n

/-- The instruction completes: beside the groups the state is `T`, in which every byte of memory outside `W` reads as in `S`; the group
and path of the instruction are as `R` says, every other group as it was. -/
def CompletesIn (i : Instr) (h : Hdr) (s : State) (r : PathRef) (g : Group) (p : Path) (S T : State) (W : Nat → Prop)
    (R : Group → Path → Prop) : Prop :=
  ∃ t G q, exec i s = .next t ∧ Went t r g G p q (p.pc + hdrLen h) ∧ t = { T with groups := t.groups } ∧
    (∀ k, k ≠ r.g → t.group k = s.group k) ∧ (S.mem.wf = true → ∀ a, ¬ W a → t.mem.get a = S.mem.get a) ∧ R G q

/-- Lanes of the path are switched off (12 R274): SMASK gains their bits; the lanes that stay go on after the instruction; where none stays, no
join record waits and no handler runs, the path's entry and slot are free. Beside the groups the state is `T`; no lane register and no
scalar changes, and `R` says what else the group holds. -/
def SwitchesOff (i : Instr) (h : Hdr) (s : State) (r : PathRef) (g : Group) (p : Path) (off : Mask) (T : State) (R : Group → Prop) : Prop :=
  (p.mask &&& ~~~off ≠ 0 →
    ∃ t G q, exec i s = .next t ∧ t.path r = some (G, q) ∧ t = { T with groups := t.groups } ∧ (∀ k, k ≠ r.g → t.group k = s.group k) ∧
      q.mask = p.mask &&& ~~~off ∧ q.pc = p.pc + hdrLen h ∧ q.st = .ready ∧ (∀ n, q.getS n = p.getS n) ∧
      G.smask = g.smask ||| off ∧ (∀ n, G.getV n = g.getV n) ∧ R G) ∧
  (p.mask &&& ~~~off = 0 → g.ser = none → p.entry = none → (∀ j, g.joins.rd j = none) →
    ∃ t G, exec i s = .next t ∧ t.group r.g = some G ∧ t = { T with groups := t.groups } ∧ (∀ k, k ≠ r.g → t.group k = s.group k) ∧
      G.paths.rd r.p = none ∧ G.live r.p = false ∧ G.smask = g.smask ||| off ∧ (∀ n, G.getV n = g.getV n) ∧ R G)

/-- No byte is stored. -/
def noByte : Nat → Prop := fun _ => False

/-- The register of a block that an indexed access of a lane names (06 R168). -/
def IndexNames (g : Group) (o : VIdx) (l : Lane) (n : VReg) : Prop :=
  let w := ((g.x.rd o.x).rd l).toNat
  let e : Int := (if o.step = .dec then (w % 256 + 255) % 256 else w % 256 : Nat) + o.off.toInt
  0 ≤ e ∧ e < w / 65536 % 256 ∧ (n.toNat : Int) = (w / 256 % 256 : Nat) + e ∧ n.toNat < g.vwin

/-- INDEX after an indexed access (06 R168): the other fields stay. -/
def indexAfter (st : XStep) (x : W32) : W32 :=
  x.extractLsb' 8 24 ++ (match st with
    | .none => x.setWidth 8
    | .inc => x.setWidth 8 + 1
    | .dec => x.setWidth 8 - 1)

/-- The slot offset of `spill` and `fill` (06 R171). -/
def spillOffset (o : SpillFill) (push : Bool) (p : Path) : Int :=
  (p.getS 61).toNat - (if push && o.adj then 4 * (o.nm1.toNat + 1) else 0 : Nat) + o.off.toInt

/-- The pages that a copy writes can be found, its lines are owned by no other operation, and none lies at another module (12 R284). -/
def LinesFree (s : State) (vf : Nat) (x : Copy) (l : List (Nat × Nat × Loc)) : Prop :=
  boxWait s vf x = none ∧ owned s none (physOf (l.map fun e => (e.2.2, dElem (dType x.desc)))) = false ∧ ∀ e ∈ l, e.2.2.away = none

/-- The arrivals of an engine operation at the barrier it names (07 R192): of every EXPECT arrivals the phase turns. -/
def Arrives (s t : State) (g : Group) (bar : Option Bar) (n : Nat := 1) : Prop :=
  match bar with
  | none => t.teams = s.teams ∧ t.clusters = s.clusters
  | some b => ∀ x, s.bar g b = some x → t.bar g b = some
      { x with count := (x.count + n) % x.expect, phase := x.phase != ((x.count + n) / x.expect % 2 == 1) }

/-- The parts of the first bytes of a `pairs` record that lie in this module's memory, by address (07 R204), and their writing. -/
def recordHere (x : PairsRun) (d : List W8) : List (Nat × List W8) :=
  (recordParts x d).filterMap fun y => match y.2.1 with | .pa a => some (a, y.2.2) | _ => none

def writeHere (s : State) (l : List (Nat × List W8)) : State := l.foldl (fun s y => s.writePa [(y.1, y.2.length)] y.2) s

/-- Where the stage-2 entry of an IPA at a level lies, every table on the way there (14 R303). -/
def routeS2 (s : State) (target ipa : Nat) : Nat → Nat → Option Nat
  | 0, _ => none
  | level + 1, table =>
    let at_ := table + 8 * (ipa / 2 ^ (12 + 9 * level) % 512)
    if level = target then some at_
    else if nbit (readEntryAt s at_) 0 then routeS2 s target ipa level (nbits (readEntryAt s at_) 51 12 * 4096)
    else none

/-- The same of the stage-1 entry of a virtual address, through stage 2. -/
def routeS1 (s : State) (vf target va : Nat) : Nat → Nat → Option Nat
  | 0, _ => none
  | level + 1, table =>
    match stage2 s (s.vf vf).paddock.toNat table with
    | .error _ => none
    | .ok l =>
      let at_ := homePa s (l.base + table % l.size) + 8 * (va / 2 ^ (12 + 9 * level) % 512)
      if level = target then some at_
      else if nbit (readEntryAt s at_) 0 then routeS1 s vf target va level (nbits (readEntryAt s at_) 51 12 * 4096)
      else none

/-! ### Firmware commands (20 R404-R407) -/

/-- The command of the ring that an instruction is. -/
def fwOf : Instr → Option FwCmd
  | .identify c b => some ⟨0x01, c, [b.toNat]⟩
  | .negotiate c f0 f1 f2 f3 => some ⟨0x02, c, [f0.toNat, f1.toNat, f2.toNat, f3.toNat]⟩
  | .patchLoad c pa n => some ⟨0x03, c, [pa.toNat, n.toNat]⟩
  | .attest c n b => some ⟨0x04, c, [n.toNat, b.toNat]⟩
  | .paddockSet c pa f => some ⟨0x10, c, [pa.toNat, f.toNat]⟩
  | .paddockRegions c pa f => some ⟨0x11, c, [pa.toNat, f.toNat]⟩
  | .lend c m d => some ⟨0x12, c, [m.toNat, d.toNat]⟩
  | .reclaim c m => some ⟨0x13, c, [m.toNat]⟩
  | .s2root c pa => some ⟨0x14, c, [pa.toNat]⟩
  | .s2inv c a f => some ⟨0x15, c, [a.toNat, f.toNat]⟩
  | .resumeWalks c => some ⟨0x16, c, []⟩
  | .timers c t =>
    some ⟨0x17, c, [t.spwin.toNat, t.prep.toNat, t.grace.toNat, t.killt.toNat, t.agep.toNat, t.fabto.toNat, t.start.toNat, t.slice.toNat]⟩
  | .vfActivate c p g b => some ⟨0x20, c, [p.toNat, g.toNat, b.toNat]⟩
  | .vfDeactivate c => some ⟨0x21, c, []⟩
  | .vfPool c i v l a => some ⟨0x22, c, [i.toNat, v.toNat, l.toNat, a.toNat]⟩
  | .vfBacking c pa n => some ⟨0x23, c, [pa.toNat, n.toNat]⟩
  | .vfBudget c g b => some ⟨0x24, c, [g.toNat, b.toNat]⟩
  | .vfBoost c m => some ⟨0x25, c, [m.toNat]⟩
  | .vfEnd c x => some ⟨0x26, c, [x.toNat]⟩
  | .queueCreate c k p st => some ⟨0x30, c, [k.toNat, p.toNat, st.toNat]⟩
  | .queueDestroy c q => some ⟨0x31, c, [q.toNat]⟩
  | .queueSet c q p f => some ⟨0x32, c, [q.toNat, p.toNat, f.toNat]⟩
  | .wqBind c q f => some ⟨0x33, c, [q.toNat, f.toNat]⟩
  | .migrate c a d => some ⟨0x38, c, [a.toNat, d.toNat]⟩
  | .foldRing c x e => some ⟨0x40, c, [x.toNat, e.toNat]⟩
  | .streamAdmit c pa => some ⟨0x41, c, [pa.toNat]⟩
  | .streamWithdraw c x => some ⟨0x42, c, [x.toNat]⟩
  | .headTiming c x pa => some ⟨0x43, c, [x.toNat, pa.toNat]⟩
  | .sharedCreate c pa f => some ⟨0x48, c, [pa.toNat, f.toNat]⟩
  | .sharedMap c x => some ⟨0x49, c, [x.toNat]⟩
  | .sharedUnmap c x => some ⟨0x4A, c, [x.toNat]⟩
  | .sharedSeal c x => some ⟨0x4B, c, [x.toNat]⟩
  | .domainForm c n pa => some ⟨0x50, c, [n.toNat, pa.toNat]⟩
  | _ => none

/-- The command stands in the ring, may start, and nothing answers it ahead of its own rules: it starts in `S`. -/
structure Starts (i : Instr) (s S : State) : Prop where
  pend : ∃ k, fwOf i = some k ∧ s.fwpend.contains k = true ∧ startable s k = true ∧ gate s k = none ∧ S = { s with fwpend := s.fwpend.erase k }

/-- The command completes with a status and a value, its effect having left `T`. -/
def Answers (i : Instr) (s : State) (st : W8) (v : W64) (T : State) : Prop :=
  ∃ k, fwOf i = some k ∧ exec i s = .next (fwComplete T k.hdr.tag k.opc st v)

/-! ### Memories -/

/-- Every memory of the machine in its canonical form: DRAM and host memory, the Fold, shared memories and scratchpads. -/
def MemoriesCanonical (s : State) : Prop :=
  s.mem.wf = true ∧ s.fold.wf = true ∧ (∀ e ∈ s.teams, e.2.shared.wf = true) ∧ ∀ e ∈ s.grids, e.2.scratch.wf = true

end Sys2Proof.Machine
end

