-- ==== Sys2Proof/Certificates/Slice0/Obligations.lean ====
section
/-! DEFINITION. What is claimed of the machine. -/

open Sys2Proof Sys2Proof.Machine

/-! ### Scalar and predicate instructions (04 R105-R109) -/

/-- Sums, differences, products and logic (04 R105): `.sat` clamps to INT64, every other result wraps. -/
def Sys2Proof.Claim.ScalarArithmeticResults : Prop :=
  ∀ h : Hdr,
    (∀ o, WritesScalar (.sadd h o) h (uSSat o) o.d fun _ p =>
      if o.sat then BitVec.ofInt 64 (max (-2 ^ 63) (min (2 ^ 63 - 1) ((p.getS o.a).toInt + (p.opB o.b).toInt)))
      else p.getS o.a + p.opB o.b) ∧
    (∀ o, WritesScalar (.ssub h o) h (uSSat o) o.d fun _ p =>
      if o.sat then BitVec.ofInt 64 (max (-2 ^ 63) (min (2 ^ 63 - 1) ((p.getS o.a).toInt - (p.opB o.b).toInt)))
      else p.getS o.a - p.opB o.b) ∧
    (∀ o, WritesScalar (.saddi h o) h (uSImm o) o.d fun _ p => p.pc + o.imm.signExtend 64) ∧
    (∀ o, WritesScalar (.smul h o) h (uSBin o) o.d fun _ p => BitVec.ofInt 64 ((p.getS o.a).toInt * (p.opB o.b).toInt)) ∧
    (∀ o, WritesScalar (.smulh h o) h (uSBin o) o.d fun _ p => BitVec.ofInt 64 ((p.getS o.a).toInt * (p.opB o.b).toInt / 2 ^ 64)) ∧
    (∀ o, WritesScalar (.sand h o) h (uSBin o) o.d fun _ p => p.getS o.a &&& p.opB o.b) ∧
    (∀ o, WritesScalar (.sor h o) h (uSBin o) o.d fun _ p => p.getS o.a ||| p.opB o.b) ∧
    (∀ o, WritesScalar (.sxor h o) h (uSBin o) o.d fun _ p => p.getS o.a ^^^ p.opB o.b) ∧
    (∀ o, WritesScalar (.smin h o) h (uSBin o) o.d fun _ p => BitVec.ofInt 64 (min (p.getS o.a).toInt (p.opB o.b).toInt)) ∧
    (∀ o, WritesScalar (.smax h o) h (uSBin o) o.d fun _ p => BitVec.ofInt 64 (max (p.getS o.a).toInt (p.opB o.b).toInt)) ∧
    (∀ o, WritesScalar (.sminu h o) h (uSBin o) o.d fun _ p => BitVec.ofNat 64 (min (p.getS o.a).toNat (p.opB o.b).toNat)) ∧
    (∀ o, WritesScalar (.smaxu h o) h (uSBin o) o.d fun _ p => BitVec.ofNat 64 (max (p.getS o.a).toNat (p.opB o.b).toNat)) ∧
    (∀ o, WritesScalar (.scmp h o) h (uSCmp o) o.d fun _ p => if condHolds o.cc (p.getS o.a) (p.opB o.b) then 1 else 0)

/-- Shifts by bits [5:0] of opB, bit fields, counts, selections and moves (04 R105-R107). -/
def Sys2Proof.Claim.ScalarBitResults : Prop :=
  ∀ h : Hdr,
    (∀ o, WritesScalar (.sshl h o) h (uSBin o) o.d fun _ p => BitVec.ofNat 64 ((p.getS o.a).toNat * 2 ^ ((p.opU o.b).toNat % 64))) ∧
    (∀ o, WritesScalar (.sshr h o) h (uSBin o) o.d fun _ p => BitVec.ofNat 64 ((p.getS o.a).toNat / 2 ^ ((p.opU o.b).toNat % 64))) ∧
    (∀ o, WritesScalar (.ssra h o) h (uSBin o) o.d fun _ p => BitVec.ofInt 64 ((p.getS o.a).toInt / 2 ^ ((p.opU o.b).toNat % 64))) ∧
    (∀ o, WritesScalarSuch (.sbfx h o) h (uSBits o) o.d fun _ p x => ∀ i, i < 64 →
      x.getLsbD i = (decide (i < o.wm1.toNat + 1 ∧ o.pos.toNat + i ≤ 63) && (p.getS o.a).getLsbD (o.pos.toNat + i))) ∧
    (∀ o, WritesScalarSuch (.sbfi h o) h (uSBits o) o.d fun _ p x => ∀ i, i < 64 →
      x.getLsbD i = if o.pos.toNat ≤ i ∧ i < o.pos.toNat + (o.wm1.toNat + 1) then (p.getS o.a).getLsbD (i - o.pos.toNat)
        else (p.getS o.d).getLsbD i) ∧
    (∀ o, WritesScalarSuch (.sclz h o) h (uSUn o) o.d fun _ p x =>
      x.toNat ≤ 64 ∧ (p.getS o.a).toNat < 2 ^ (64 - x.toNat) ∧ (x.toNat < 64 → 2 ^ (63 - x.toNat) ≤ (p.getS o.a).toNat)) ∧
    (∀ o, WritesScalar (.spopc h o) h (uSUn o) o.d fun _ p =>
      BitVec.ofNat 64 ((List.range 64).countP fun i => (p.getS o.a).getLsbD i)) ∧
    (∀ o, WritesScalar (.ssel h o) h (uSBin o) o.d fun _ p => if p.getS o.d ≠ 0 then p.getS o.a else p.opB o.b) ∧
    (∀ o, WritesScalar (.sli h o) h (uSImm o) o.d fun _ _ => o.imm.signExtend 64) ∧
    (∀ o, WritesScalar (.slih h o) h (uSImm o) o.d fun _ p => o.imm ++ (p.getS o.d).setWidth 32) ∧
    (∀ o, WritesScalar (.smov h o) h (uSMov o) o.d fun _ p => p.opB o.a)

/-- Scalar floating point (04 R108, 03 R90): one rounding of the exact result of the operands in the type's low bits. -/
def Sys2Proof.Claim.ScalarFloatResults : Prop :=
  ∀ h : Hdr,
    (∀ o, WritesScalar (.sfadd h o) h (uSFp o) o.d fun _ p =>
      BitVec.ofNat 64 (fpAdd (SFty.fmt o.t) (.mode o.rm) (fpBits o.t (p.getS o.a)) (fpBits o.t (p.getS o.b)))) ∧
    (∀ o, WritesScalar (.sfmul h o) h (uSFp o) o.d fun _ p =>
      BitVec.ofNat 64 (fpMul (SFty.fmt o.t) (.mode o.rm) (fpBits o.t (p.getS o.a)) (fpBits o.t (p.getS o.b)))) ∧
    (∀ o, WritesScalar (.sfma h o) h (uSFma o) o.d fun _ p =>
      BitVec.ofNat 64 (fpFma (SFty.fmt o.t) (.mode o.rm) (fpBits o.t (p.getS o.a)) (fpBits o.t (p.getS o.b)) (fpBits o.t (p.getS o.c)))) ∧
    (∀ o, WritesScalar (.sfcmp h o) h (uSFCmp o) o.d fun _ p =>
      if FCond.holds o.cc (unpack (SFty.fmt o.t) (fpBits o.t (p.getS o.a))) (unpack (SFty.fmt o.t) (fpBits o.t (p.getS o.b))) then 1 else 0) ∧
    (∀ o, WritesScalar (.sfcvt h o) h (uSFCvt o) o.d fun _ p => sfcvt o (p.getS o.a))

/-- Predicate instructions (04 R109): the forms that write a predicate write its EMASK lanes and no other; the rest reduce the EMASK
lanes of one to a scalar. -/
def Obligations.PredicateResults : Prop :=
  ∀ h : Hdr,
    (∀ o, WritesPred (.kand h o) h (uKBin o) o.d fun g _ => g.getK o.a &&& g.getK o.b) ∧
    (∀ o, WritesPred (.kor h o) h (uKBin o) o.d fun g _ => g.getK o.a ||| g.getK o.b) ∧
    (∀ o, WritesPred (.kxor h o) h (uKBin o) o.d fun g _ => g.getK o.a ^^^ g.getK o.b) ∧
    (∀ o, WritesPred (.knot h o) h (uKUn o) o.d fun g _ => ~~~(g.getK o.a)) ∧
    (∀ o, WritesPred (.kmov h o) h (uKUn o) o.d fun g _ => g.getK o.a) ∧
    (∀ o, WritesPred (.kset h o) h (uKSet o) o.d fun _ p => (p.getS o.a).setWidth 8) ∧
    (∀ o, WritesScalar (.kany h o) h (uKRed o) o.d fun g p =>
      if ∃ l : Lane, (emaskOf g p h).has l ∧ (g.getK o.a).has l then 1 else 0) ∧
    (∀ o, WritesScalar (.kall h o) h (uKRed o) o.d fun g p =>
      if ∀ l : Lane, (emaskOf g p h).has l → (g.getK o.a).has l then 1 else 0) ∧
    (∀ o, WritesScalar (.kcount h o) h (uKRed o) o.d fun g p =>
      BitVec.ofNat 64 (allLanes.countP fun l => (emaskOf g p h).has l && (g.getK o.a).has l)) ∧
    (∀ o, WritesScalar (.kget h o) h (uKRed o) o.d fun g p => (g.getK o.a &&& emaskOf g p h).setWidth 64)

/-! ### Lane instructions (05 R120-R145) -/

/-- Element arithmetic (05 R123-R126): exact results wrapped, or under `.sat` clamped. -/
def Sys2Proof.Claim.LaneArithmeticResults : Prop :=
  ∀ h : Hdr,
    (∀ o, WritesElements (.vadd h o) h (uVArith o) o.d o.w o.half fun g _ l e => settled _ o.sat o.u
      (eltVal o.u (elt (widthBits o.w) (g.src o.a l) e) + eltVal o.u (g.srcElt (widthBits o.w) o.b l e))) ∧
    (∀ o, WritesElements (.vsub h o) h (uVArith o) o.d o.w o.half fun g _ l e => settled _ o.sat o.u
      (eltVal o.u (elt (widthBits o.w) (g.src o.a l) e) - eltVal o.u (g.srcElt (widthBits o.w) o.b l e))) ∧
    (∀ o, WritesElements (.vmul h o) h (uVArith o) o.d o.w o.half fun g _ l e => settled _ o.sat o.u
      (eltVal o.u (elt (widthBits o.w) (g.src o.a l) e) * eltVal o.u (g.srcElt (widthBits o.w) o.b l e))) ∧
    (∀ o, WritesElements (.vmad h o) h (uVMad o) o.d o.w o.half fun g _ l e => settled _ o.sat o.u
      (eltVal o.u (elt (widthBits o.w) (g.src o.a l) e) * eltVal o.u (elt (widthBits o.w) (g.src o.b l) e) +
        eltVal o.u (elt (widthBits o.w) (g.src o.c l) e))) ∧
    (∀ o, WritesElements (.vmulh h o) h (uVUns o) o.d o.w o.half fun g _ l e => BitVec.ofInt _
      (eltVal o.u (elt (widthBits o.w) (g.src o.a l) e) * eltVal o.u (g.srcElt (widthBits o.w) o.b l e) / 2 ^ widthBits o.w)) ∧
    (∀ o, WritesElements (.vmin h o) h (uVUns o) o.d o.w o.half fun g _ l e => BitVec.ofInt _
      (min (eltVal o.u (elt (widthBits o.w) (g.src o.a l) e)) (eltVal o.u (g.srcElt (widthBits o.w) o.b l e)))) ∧
    (∀ o, WritesElements (.vmax h o) h (uVUns o) o.d o.w o.half fun g _ l e => BitVec.ofInt _
      (max (eltVal o.u (elt (widthBits o.w) (g.src o.a l) e)) (eltVal o.u (g.srcElt (widthBits o.w) o.b l e)))) ∧
    (∀ o, WritesElements (.vabs h o) h (uVAbs o) o.d o.w o.half fun g _ l e => settled _ o.sat false
      |(elt (widthBits o.w) (g.src o.a l) e).toInt|) ∧
    (∀ o, WritesElements (.vneg h o) h (uVAbs o) o.d o.w o.half fun g _ l e => settled _ o.sat false
      (-(elt (widthBits o.w) (g.src o.a l) e).toInt))

/-- Logic, shifts, counts, bit fields and selections of lane elements (05 R125, R127, R128). -/
def Sys2Proof.Claim.LaneBitResults : Prop :=
  ∀ h : Hdr,
    (∀ o, WritesLanes (.vand h o) h (uVLogic o) o.d fun g _ l => g.src o.a l &&& g.srcB o.b l) ∧
    (∀ o, WritesLanes (.vor h o) h (uVLogic o) o.d fun g _ l => g.src o.a l ||| g.srcB o.b l) ∧
    (∀ o, WritesLanes (.vxor h o) h (uVLogic o) o.d fun g _ l => g.src o.a l ^^^ g.srcB o.b l) ∧
    (∀ o, WritesElements (.vshl h o) h (uVElem o) o.d o.w o.half fun g _ l e =>
      BitVec.ofNat _ ((elt (widthBits o.w) (g.src o.a l) e).toNat * 2 ^ shiftCount g o l e)) ∧
    (∀ o, WritesElements (.vshr h o) h (uVElem o) o.d o.w o.half fun g _ l e =>
      BitVec.ofNat _ ((elt (widthBits o.w) (g.src o.a l) e).toNat / 2 ^ shiftCount g o l e)) ∧
    (∀ o, WritesElements (.vsra h o) h (uVElem o) o.d o.w o.half fun g _ l e =>
      BitVec.ofInt _ ((elt (widthBits o.w) (g.src o.a l) e).toInt / 2 ^ shiftCount g o l e)) ∧
    (∀ o, WritesElements (.vclz h o) h (uVCount o) o.d o.w o.half fun g _ l e =>
      BitVec.ofNat _ (zclz (elt (widthBits o.w) (g.src o.a l) e))) ∧
    (∀ o, WritesElements (.vpopc h o) h (uVCount o) o.d o.w o.half fun g _ l e =>
      BitVec.ofNat _ ((List.range (widthBits o.w)).countP fun i => (elt (widthBits o.w) (g.src o.a l) e).getLsbD i)) ∧
    (∀ o, WritesElements (.vbrev h o) h (uVCount o) o.d o.w o.half fun g _ l e =>
      (elt (widthBits o.w) (g.src o.a l) e).reverse) ∧
    (∀ o, WritesElements (.vsel h o) h (uVElem o) o.d o.w o.half fun g _ l e =>
      if elt (widthBits o.w) ((g.getV o.d).rd l) e ≠ 0 then elt _ (g.src o.a l) e else g.srcElt _ o.b l e) ∧
    (∀ o, WritesLanesSuch (.vbfx h o) h (uVBfx o) [o.d] fun g _ _ l x => ∀ i, i < 32 →
      x.getLsbD i = if i < o.wm1.toNat + 1 then (g.src o.a l).getLsbD (o.pos.toNat + i)
        else !o.u && (g.src o.a l).getLsbD (o.pos.toNat + o.wm1.toNat)) ∧
    (∀ o, WritesLanesSuch (.vbfi h o) h (uVBfi o) [o.d] fun g _ _ l x => ∀ i, i < 32 →
      x.getLsbD i = if o.pos.toNat ≤ i ∧ i < o.pos.toNat + (o.wm1.toNat + 1) then (g.src o.a l).getLsbD (i - o.pos.toNat)
        else ((g.getV o.d).rd l).getLsbD i) ∧
    (∀ o, WritesPred (.vcmp h o) h (uVCmp o) o.d fun g _ => Mask.of fun l => condHolds o.cc (g.src o.a l) (g.srcB o.b l))

/-- Widening sums and products, moves, broadcasts, permutations, reductions and scans (05 R130-R135). -/
def Obligations.LaneMoveResults : Prop :=
  ∀ h : Hdr,
    (∀ o, WritesLanesSuch (.vaddw h o) h (uVAddW o) [o.d, o.d + 1] fun g _ n l x =>
      x = half64 (n == o.d + 1) (BitVec.ofInt 64 ((g.srcN o.a 1 l ++ g.srcN o.a 0 l).toInt + eltVal o.u (g.srcB o.b l)))) ∧
    (∀ o, WritesLanesSuch (.vmulw h o) h (uVMulW o) [o.d, o.d + 1] fun g _ n l x =>
      x = half64 (n == o.d + 1) (BitVec.ofInt 64 (eltVal o.u (g.src o.a l) * eltVal o.u (g.srcB o.b l)))) ∧
    (∀ o, WritesLanes (.vmov h o) h (uVMov o) o.d fun g _ l => g.srcB o.a l) ∧
    (∀ o, WritesLanesSuch (.vli h o) h (uVLi o) [o.d] fun g _ _ l x =>
      match o.half with
      | .whole => x = o.imm
      | .lo => x = ((g.getV o.d).rd l).extractLsb' 16 16 ++ o.imm.setWidth 16
      | .hi => x = o.imm.setWidth 16 ++ ((g.getV o.d).rd l).setWidth 16) ∧
    (∀ d, WritesLanes (.vlane h d) h (uVLane d) d fun _ _ l => BitVec.ofNat 32 l.toNat) ∧
    (∀ o, WritesLanes (.vbcast h o) h (uVBcast o) o.d fun _ p _ => (p.getS o.a).setWidth 32) ∧
    (∀ o, WritesScalar (.vtos h o) h (uVToS o) o.d fun g _ => BitVec.ofInt 64 (eltVal o.u (g.src o.a o.n))) ∧
    (∀ o, WritesLanesSuch (.vperm h o) h (uVPerm o) [o.d] fun g _ _ l x =>
      match o.a with
      | .lane a => x = (g.seen a).rd ((g.src o.b l).setWidth 3)
      | .byte a => ∀ i, i < 4 → elt 8 x i = if (elt 8 (g.src o.b l) i).toNat % 8 < 4 then elt 8 (g.src a l) ((elt 8 (g.src o.b l) i).toNat % 8) else 0) ∧
    (∀ o, WritesLanes (.vred h o) h (uVRed o) o.d fun g p _ =>
      (prefixTree (combine o.op o.u) (fun k => if (emaskOf g p h).has k then some (g.src o.a k) else none) 7).getD 0) ∧
    (∀ o, o.op ≠ .xadd → WritesLanes (.vscan h o) h (uVRed o) o.d fun g p l =>
      (prefixTree (combine o.op o.u) (fun k => if (emaskOf g p h).has k then some (g.src o.a k) else none) l.toNat).getD 0) ∧
    (∀ o, o.op = .xadd → WritesLanes (.vscan h o) h (uVRed o) o.d fun g p l =>
      (allLanes.filter fun k => (emaskOf g p h).has k && decide (k.toNat < l.toNat)).foldl (fun x k => x + g.src o.a k) 0)

/-- A result is near the number `v`: it is finite, and lies within `b` of it where `v` or the result has a normal magnitude; 05 R138 states no
bound for a result that is not normal. -/
def Sys2Proof.Claim.NearBy (r : W32) (v b : Dy) : Prop :=
  ∃ n m e, unpack .f32 r.toNat = .fin n m e ∧
    (normalMag v.abs = true ∨ normalMag ⟨m, e⟩ = true → ((FV.fin n m e).dy.sub v).abs.le b = true)

/-- The special and exact results of the approximating functions, and how near the others are (05 R138). Of 1/x and 1/sqrt x the number is
characterised; of 2^x, log2 x, sin and cos of pi x it is the model's own fixed-point number (log entry 4). -/
def Sys2Proof.Claim.ApproximationCases : Prop :=
  (∀ a, unpack .f32 a.toNat = .nan → ∀ f ∈ [fpRcp, fpRsq, fpSqrt, fpExp2, fpLog2, fpSin, fpCos], f a = 0x7FC00000) ∧
  (∀ a n, unpack .f32 a.toNat = .inf n →
    fpRcp a = (if n then 0x80000000 else 0) ∧ fpRsq a = (if n then 0x7FC00000 else 0) ∧ fpSqrt a = (if n then 0x7FC00000 else 0x7F800000) ∧
    fpExp2 a = (if n then 0 else 0x7F800000) ∧ fpLog2 a = (if n then 0x7FC00000 else 0x7F800000) ∧ fpSin a = 0x7FC00000 ∧ fpCos a = 0x7FC00000) ∧
  (∀ a n e, unpack .f32 a.toNat = .fin n 0 e →
    fpRcp a = (if n then 0xFF800000 else 0x7F800000) ∧ fpRsq a = (if n then 0xFF800000 else 0x7F800000) ∧
    fpSqrt a = (if n then 0x80000000 else 0) ∧ fpExp2 a = 0x3F800000 ∧ fpLog2 a = 0xFF800000 ∧ fpSin a = (if n then 0x80000000 else 0) ∧
    fpCos a = 0x3F800000) ∧
  (∀ a m e, unpack .f32 a.toNat = .fin true m e → m ≠ 0 → fpRsq a = 0x7FC00000 ∧ fpSqrt a = 0x7FC00000 ∧ fpLog2 a = 0x7FC00000) ∧
  (∀ a n (j : Nat) e, unpack .f32 a.toNat = .fin n (2 ^ j) e →
    (-(j + e) ≤ 127 → fpRcp a = f32of ⟨if n then -1 else 1, -(j + e)⟩) ∧
    (127 < -(j + e) → fpRcp a = if n then 0xFF800000 else 0x7F800000) ∧
    (n = false → fpLog2 a = f32of (.ofInt (j + e)) ∧ ∀ k : Int, j + e = 2 * k → fpRsq a = f32of ⟨1, -k⟩)) ∧
  (∀ a n m e, unpack .f32 a.toNat = .fin n m e → m ≠ 0 → ∀ x, x = (FV.fin n m e).dy →
    ((⟨128, 0⟩ : Dy).le x = true → fpExp2 a = 0x7F800000) ∧ (x.le ⟨-150, 0⟩ = true → fpExp2 a = 0) ∧
    (∀ k : Int, x.eq (.ofInt k) = true → (-150 < k → k < 128 → fpExp2 a = f32of ⟨1, k⟩) ∧
      fpSin a = (if n then 0x80000000 else 0) ∧ fpCos a = if k % 2 = 0 then 0x3F800000 else 0xBF800000) ∧
    (∀ k : Int, x.eq ⟨2 * k + 1, -1⟩ = true → fpSin a = (if k % 2 = 0 then 0x3F800000 else 0xBF800000) ∧ fpCos a = 0)) ∧
  (∀ a n m e, unpack .f32 a.toNat = .fin n m e → m ≠ 0 → ∀ x : Dy, x = (FV.fin n m e).dy →
    (m ≠ 2 ^ m.log2 → ∃ v : Dy, ((v.mul x).sub ⟨1, 0⟩).abs.le ⟨1, -90⟩ = true ∧
      (if (⟨2 ^ 24 - 1, 104⟩ : Dy).lt v.abs = true then fpRcp a = (if n then 0xFF800000 else 0x7F800000)
        else Sys2Proof.Claim.NearBy (fpRcp a) v (ulp32 v))) ∧
    (n = false → m ≠ 2 ^ m.log2 ∨ (m.log2 + e) % 2 ≠ 0 → ∃ v : Dy, (((v.mul v).mul x).sub ⟨1, 0⟩).abs.le ⟨1, -90⟩ = true ∧
      Sys2Proof.Claim.NearBy (fpRsq a) v (ulp32 v)) ∧
    ((⟨-150, 0⟩ : Dy).lt x = true → x.lt ⟨128, 0⟩ = true → x.eq (.ofInt x.floor) = false →
      ∀ v : Dy, v = ⟨fxExp2 ((x.sub (.ofInt x.floor)).scale 128).floor.toNat, x.floor - 128⟩ →
        Sys2Proof.Claim.NearBy (fpExp2 a) v ((ulp32 v).scale 1)) ∧
    (n = false → m ≠ 2 ^ m.log2 → ∀ v : Dy, v = (Dy.ofInt (m.log2 + e)).add ⟨fxLog2 64 (m * 2 ^ (128 - m.log2)) 0, -64⟩ →
      Sys2Proof.Claim.NearBy (fpLog2 a) v (if (m.log2 : Int) + e = 0 ∨ (m.log2 : Int) + e = -1 then ⟨1, -22⟩ else (ulp32 v).scale 1)) ∧
    (∀ k : Int, k = x.floor → x.eq (.ofInt k) = false → x.eq ⟨2 * k + 1, -1⟩ = false →
      (∀ v : Dy, v = (if x.abs.lt ⟨1, -40⟩ = true then ⟨x.m * fxPi, x.e - 128⟩ else sinHalves (x.sub (.ofInt (k - k % 2)))) →
        Sys2Proof.Claim.NearBy (fpSin a) v ⟨1, -21⟩) ∧
      ∀ y v : Dy, y = x.sub (.ofInt (k - k % 2)) →
        v = sinHalves (if (⟨3, -1⟩ : Dy).le y = true then y.sub ⟨3, -1⟩ else y.add ⟨1, -1⟩) → Sys2Proof.Claim.NearBy (fpCos a) v ⟨1, -21⟩))

/-- FP32, packed-half, dot-product and conversion results (05 R136-R145): one rounding where the instruction rounds. -/
def Obligations.LaneFloatResults : Prop :=
  ∀ h : Hdr,
    (∀ o, RoundsLanes (.vfadd h o) h (uVFp o) o.d fun g _ l =>
      rounded o.rnd (g.rngs.rd l) fun k => fpAdd .f32 k (g.src o.a l).toNat (g.src o.b l).toNat) ∧
    (∀ o, RoundsLanes (.vfsub h o) h (uVFp o) o.d fun g _ l =>
      rounded o.rnd (g.rngs.rd l) fun k => fpSub .f32 k (g.src o.a l).toNat (g.src o.b l).toNat) ∧
    (∀ o, RoundsLanes (.vfmul h o) h (uVFp o) o.d fun g _ l =>
      rounded o.rnd (g.rngs.rd l) fun k => fpMul .f32 k (g.src o.a l).toNat (g.src o.b l).toNat) ∧
    (∀ o, RoundsLanes (.vfma h o) h (uVFma o) o.d fun g _ l =>
      rounded o.rnd (g.rngs.rd l) fun k => fpFma .f32 k (g.src o.a l).toNat (g.src o.b l).toNat (g.src o.c l).toNat) ∧
    (∀ o, RoundsLanes (.vdot2 h o) h (uVDot2 o) o.d fun g _ l =>
      rounded o.rnd (g.rngs.rd l) fun k => sumRound .f32 k [unpack .f32 ((g.getV o.d).rd l).toNat,
        (unpack (HTy.fmt o.t) (eltN 16 (g.src o.a l) 0)).mul (unpack (HTy.fmt o.t) (eltN 16 (g.src o.b l) 0)),
        (unpack (HTy.fmt o.t) (eltN 16 (g.src o.a l) 1)).mul (unpack (HTy.fmt o.t) (eltN 16 (g.src o.b l) 1))]) ∧
    (∀ o, RoundsLanes (.vhadd h o) h (uVHalf o) o.d fun g _ l => halves o.half o.rnd ((g.getV o.d).rd l)
      (fun k e => fpAdd (HTy.fmt o.t) k (eltN 16 (g.src o.a l) e) (eltN 16 (g.src o.b l) e)) (g.rngs.rd l)) ∧
    (∀ o, RoundsLanes (.vhmul h o) h (uVHalf o) o.d fun g _ l => halves o.half o.rnd ((g.getV o.d).rd l)
      (fun k e => fpMul (HTy.fmt o.t) k (eltN 16 (g.src o.a l) e) (eltN 16 (g.src o.b l) e)) (g.rngs.rd l)) ∧
    (∀ o, RoundsLanes (.vhfma h o) h (uVHFma o) o.d fun g _ l => halves o.half o.rnd ((g.getV o.d).rd l)
      (fun k e => fpFma (HTy.fmt o.t) k (eltN 16 (g.src o.a l) e) (eltN 16 (g.src o.b l) e) (eltN 16 (g.src o.c l) e)) (g.rngs.rd l)) ∧
    (∀ o, RoundsLanes (.vcvt h o) h (uVCvt o) o.d fun g _ l => vcvtLane o ((g.getV o.d).rd l) (g.src o.a l) (g.rngs.rd l)) ∧
    (∀ o, WritesLanes (.vdot4 h o) h (uVDot4 o) o.d fun g _ l => settled 32 o.sat o.u
      (eltVal o.u ((g.getV o.d).rd l) + ((List.range 4).map fun e =>
        eltVal o.u (elt 8 (g.src o.a l) e) * eltVal o.u (elt 8 (g.src o.b l) e)).sum)) ∧
    (∀ o, WritesLanes (.vfmin h o) h (uVBin o) o.d fun g _ l => BitVec.ofNat 32 (fpMin .f32 (g.src o.a l).toNat (g.src o.b l).toNat)) ∧
    (∀ o, WritesLanes (.vfmax h o) h (uVBin o) o.d fun g _ l => BitVec.ofNat 32 (fpMax .f32 (g.src o.a l).toNat (g.src o.b l).toNat)) ∧
    (∀ o, WritesPred (.vfcmp h o) h (uVFCmp o) o.d fun g _ => Mask.of fun l =>
      FCond.holds o.cc (unpack .f32 (g.src o.a l).toNat) (unpack .f32 (g.src o.b l).toNat)) ∧
    (∀ o, WritesLanes (.vfrcp h o) h (uVUn o) o.d fun g _ l => fpRcp (g.src o.a l)) ∧
    (∀ o, WritesLanes (.vfrsq h o) h (uVUn o) o.d fun g _ l => fpRsq (g.src o.a l)) ∧
    (∀ o, WritesLanes (.vfsqrt h o) h (uVUn o) o.d fun g _ l => fpSqrt (g.src o.a l)) ∧
    (∀ o, WritesLanes (.vfexp2 h o) h (uVUn o) o.d fun g _ l => fpExp2 (g.src o.a l)) ∧
    (∀ o, WritesLanes (.vflog2 h o) h (uVUn o) o.d fun g _ l => fpLog2 (g.src o.a l)) ∧
    (∀ o, WritesLanes (.vfsin h o) h (uVUn o) o.d fun g _ l => fpSin (g.src o.a l)) ∧
    (∀ o, WritesLanes (.vfcos h o) h (uVUn o) o.d fun g _ l => fpCos (g.src o.a l)) ∧
    (∀ o, WritesLanes (.vfrnd h o) h (uVFRnd o) o.d fun g _ l => fpRnd o.rm (g.src o.a l)) ∧
    (∀ o, WritesLanes (.vfclass h o) h (uVUn o) o.d fun g _ l => fpClass (g.src o.a l)) ∧ Sys2Proof.Claim.ApproximationCases

/-! ### Control flow (04 R110-R119) -/

/-- Branches whose lanes agree, jumps, and merge points where nothing merges: the path goes on at one address, and no register, no
lane and no byte changes (04 R112-R115, R117, R119). -/
def Sys2Proof.Claim.BranchesGoOn : Prop :=
  ∀ h : Hdr,
    (∀ o, GoesTo (.bru h o) h uCtl
      (fun g p => emaskOf g p h = p.mask ∨ emaskOf g p h = 0 ∨ g.uchk = false)
      (fun g p => if emaskOf g p h = p.mask ∨ (emaskOf g p h ≠ 0 ∧ (emaskOf g p h).has p.mask.low) then brTarget p.pc o else p.pc + hdrLen h)) ∧
    (∀ o, GoesTo (.br h o) h uCtl
      (fun g p => p.mask ≠ 0 ∧ (emaskOf g p h = p.mask ∨ emaskOf g p h = 0))
      (fun g p => if emaskOf g p h = p.mask then brTarget p.pc o.toff else p.pc + hdrLen h)) ∧
    (∀ o, GoesTo (.brx h o) h (uBrx o)
      (fun g p => (∀ l, (emaskOf g p h).has l → g.pair o.a l &&& 7 = 0) ∧
        ∀ l, p.mask.has l → brxDest g p h o l = brxDest g p h o p.mask.low)
      (fun g p => brxDest g p h o p.mask.low)) ∧
    (∀ o, GoesTo (.jmp h o) h uCtl (fun _ _ => True) fun _ p => brTarget p.pc o) ∧
    (∀ a, GoesTo (.jmpr h a) h (uSReg a) (fun _ p => p.getS a &&& 7 = 0) fun _ p => p.getS a) ∧
    (∀ a, GoesTo (.jmpv h a) h (uJmpV a)
      (fun g p => g.pair a p.mask.low &&& 7 = 0 ∧ (g.uchk = false ∨ ∀ l, p.mask.has l → g.pair a l = g.pair a p.mask.low))
      fun g p => g.pair a p.mask.low) ∧
    GoesTo (.rcv h) h uCtl
      (fun g p => g.ser = none ∧ (p.sup = true ∨ p.join = none ∨ p.rcv ≠ some p.pc)) (fun _ p => p.pc + hdrLen h) ∧
    GoesTo (.exit h) h uCtl (fun g p => emaskOf g p h = 0) (fun _ p => p.pc + hdrLen h)

/-- `sloop` decrements its counter and branches while the new value is not zero (04 R118). -/
def Sys2Proof.Claim.LoopCounts : Prop :=
  ∀ h o s r g p, Issues s r g p h (uSLoop o) → p.hold = false →
    ∃ t q, exec (.sloop h o) s = .next t ∧
      Went t r g (g.setPath r.p q) p q (if p.getS o.d - 1 ≠ 0 then brTarget p.pc o.toff else p.pc + hdrLen h) ∧ Quiet s t r (s.vfOf g) ∧
      ∀ n, q.getS n = if n = o.d ∧ n ≠ 0 then p.getS o.d - 1 else p.getS n

/-- Branches and jumps that fault: disagreement under the uniform check (04 R112, R115), and a register target that is no multiple of
8 (04 R110). -/
def Sys2Proof.Claim.BranchFaults : Prop :=
  ∀ h : Hdr,
    (∀ o, TakesException (.bru h o) h uCtl
      (fun g p => emaskOf g p h ≠ p.mask ∧ emaskOf g p h ≠ 0 ∧ g.uchk = true) fun _ p => FaultInfo.of 0x05 p.mask) ∧
    (∀ o, TakesException (.brx h o) h (uBrx o) (fun g p => ∃ l, (emaskOf g p h).has l ∧ g.pair o.a l &&& 7 ≠ 0)
      fun g p => FaultInfo.lanes 0x08 (Mask.of fun l => (emaskOf g p h).has l && g.pair o.a l &&& 7 != 0) (g.pairs64 o.a)) ∧
    (∀ a, TakesException (.jmpr h a) h (uSReg a) (fun _ p => p.getS a &&& 7 ≠ 0) fun _ p => FaultInfo.at 0x08 p.mask (p.getS a)) ∧
    (∀ a, TakesException (.jmpv h a) h (uJmpV a)
      (fun g p => g.uchk = true ∧ ∃ l, p.mask.has l ∧ g.pair a l ≠ g.pair a p.mask.low) fun _ p => FaultInfo.of 0x05 p.mask) ∧
    (∀ a, TakesException (.callr h a) h (uCallR a) (fun _ p => p.getS a &&& 7 ≠ 0) fun _ p => FaultInfo.at 0x08 p.mask (p.getS a)) ∧
    TakesException (.ret h) h uCall (fun _ p => p.getS 62 &&& 7 ≠ 0) fun _ p => FaultInfo.at 0x08 p.mask (p.getS 62)

/-- A `br` whose lanes disagree splits its path in two, where the path table, the join store and the depth allow (04 R99, R100): the lower
lane's side keeps the entry, the other takes a free one, and a join record is owed every lane. -/
def Sys2Proof.Claim.BranchSplits : Prop :=
  ∀ h o s r g p j k rest, Issues s r g p h uCtl → emaskOf g p h ≠ 0 → emaskOf g p h ≠ p.mask → g.ser = none → p.sup = false → p.depth < 16 →
    g.freeJoin = some j → g.freeEntries = k :: rest →
    ∃ t G q1 q2, exec (.br h o) s = .next t ∧ t.group r.g = some G ∧ G.paths.rd r.p = some q1 ∧ G.paths.rd k = some q2 ∧
      q1.mask ||| q2.mask = p.mask ∧ q1.mask &&& q2.mask = 0 ∧ q1.mask.has p.mask.low = true ∧
      (∀ q, q = q1 ∨ q = q2 →
        (q.mask = emaskOf g p h ∧ q.pc = brTarget p.pc o.toff ∨ q.mask = p.mask &&& ~~~(emaskOf g p h) ∧ q.pc = p.pc + hdrLen h) ∧
        q.rcv = some (brRecon p.pc o.roff) ∧ q.depth = p.depth + 1 ∧ q.join = some j ∧ q.s = p.s ∧ q.written = 0) ∧
      (∃ J, G.joins.rd j = some J ∧ J.owed = p.mask ∧ J.arrived = 0 ∧ J.prcv = p.rcv ∧ J.pjoin = p.join ∧ J.pdepth = p.depth ∧
        J.base = p.s ∧ J.baseW = p.written) ∧
      (∀ i, i ≠ j → G.joins.rd i = g.joins.rd i) ∧ (∀ n, G.getV n = g.getV n) ∧ (∀ n, G.getK n = g.getK n) ∧ ∀ a, t.mem.get a = s.mem.get a

/-- The destinations of a `brx`, each once, in the order of the lowest lane that goes there (04 R99 step 5, R114). -/
def Sys2Proof.Claim.brxDests (g : Group) (p : Path) (h : Hdr) (o : Brx) : List W64 :=
  p.mask.lanes.foldl (fun ts l => if ts.contains (brxDest g p h o l) then ts else ts ++ [brxDest g p h o l]) []

/-- A `brx` whose lanes name 2 to 8 destinations splits its path into one child for each, where the path table, the join store and the depth
allow (04 R99, R100, R114): child 0 keeps the entry, the others take free ones in ascending order (10 R249), and the join record is owed every
lane; every other path of user level leaves its slot. Where they do not allow it, the lanes run one by one (R103). -/
def Sys2Proof.Claim.IndirectSplits : Prop :=
  ∀ h o s r g p, Issues s r g p h (uBrx o) → (∀ l, (emaskOf g p h).has l = true → g.pair o.a l &&& 7 = 0) → g.ser = none →
    2 ≤ (Sys2Proof.Claim.brxDests g p h o).length →
    (∀ j, p.sup = false → p.depth < 16 → g.freeJoin = some j → (Sys2Proof.Claim.brxDests g p h o).length ≤ g.freeEntries.length + 1 →
      ∃ t G, exec (.brx h o) s = .next t ∧ t.group r.g = some G ∧
        (∀ (i : Nat) a, (Sys2Proof.Claim.brxDests g p h o)[i]? = some a → ∃ k q, (r.p :: g.freeEntries)[i]? = some k ∧ G.paths.rd k = some q ∧
          (∀ l, q.mask.has l = true ↔ p.mask.has l = true ∧ brxDest g p h o l = a) ∧ q.pc = a ∧ q.rcv = some (brRecon p.pc o.roff) ∧
          q.depth = p.depth + 1 ∧ q.join = some j ∧ q.s = p.s ∧ q.written = 0) ∧
        (∃ J, G.joins.rd j = some J ∧ J.owed = p.mask ∧ J.arrived = 0 ∧ J.prcv = p.rcv ∧ J.pjoin = p.join ∧ J.pdepth = p.depth ∧
          J.base = p.s ∧ J.baseW = p.written) ∧
        (∀ i, i ≠ r.p → g.paths.rd i ≠ none → (G.paths.rd i).map (fun x => (x.mask, x.pc, x.s)) = (g.paths.rd i).map fun x => (x.mask, x.pc, x.s)) ∧
        (∀ i x, i ≠ r.p → G.live i = true → g.paths.rd i = some x → x.sup = true) ∧
        (∀ i, i ≠ j → G.joins.rd i = g.joins.rd i) ∧ (∀ n, G.getV n = g.getV n) ∧ (∀ n, G.getK n = g.getK n) ∧ ∀ a, t.mem.get a = s.mem.get a) ∧
    (g.freeJoin = none ∨ 16 ≤ p.depth ∨ g.freeEntries.length + 1 < (Sys2Proof.Claim.brxDests g p h o).length ∨ p.sup = true →
      ∃ t G q z, exec (.brx h o) s = .next t ∧ t.group r.g = some G ∧ G.paths.rd r.p = some q ∧ G.ser = some z ∧
        z.p = r.p ∧ z.lanes = p.mask ∧ z.todo = p.mask &&& ~~~(Mask.one p.mask.low) ∧ z.rs = brRecon p.pc o.roff ∧ z.arr = [] ∧
        (∀ l, p.mask.has l = true → z.next.rd l = brxDest g p h o l) ∧
        q.mask = Mask.one p.mask.low ∧ q.pc = z.next.rd p.mask.low ∧ q.s = p.s ∧ q.written = 0 ∧ q.st = .ready ∧ q.sup = p.sup ∧
        (∀ j, G.joins.rd j = g.joins.rd j) ∧ (∀ n, G.getV n = g.getV n) ∧ ∀ a, t.mem.get a = s.mem.get a)

/-- A `br` whose lanes disagree and that cannot split puts its group into serial mode (04 R100, R103): each lane's next PC is kept, the lowest
lane runs first from its own, with the path's scalars and an empty written set, and the other user-level paths leave their slots. -/
def Sys2Proof.Claim.BranchSerializes : Prop :=
  ∀ h o s r g p, Issues s r g p h uCtl → emaskOf g p h ≠ 0 → emaskOf g p h ≠ p.mask → g.ser = none →
    g.freeJoin = none ∨ 16 ≤ p.depth ∨ g.freeEntries = [] ∨ p.sup = true →
    ∃ t G q z, exec (.br h o) s = .next t ∧ t.group r.g = some G ∧ G.paths.rd r.p = some q ∧ G.ser = some z ∧
      z.p = r.p ∧ z.lanes = p.mask ∧ z.todo = p.mask &&& ~~~(Mask.one p.mask.low) ∧ z.rs = brRecon p.pc o.roff ∧ z.arr = [] ∧
      (∀ l, p.mask.has l = true → z.next.rd l = if (emaskOf g p h).has l then brTarget p.pc o.toff else p.pc + hdrLen h) ∧
      z.base = p.s ∧ z.baseW = p.written ∧ z.rcv = p.rcv ∧ z.join = p.join ∧ z.depth = p.depth ∧ z.sup = p.sup ∧
      z.fcause = p.fcause ∧ z.fpc = p.fpc ∧
      q.mask = Mask.one p.mask.low ∧ q.pc = z.next.rd p.mask.low ∧ q.s = p.s ∧ q.written = 0 ∧ q.st = .ready ∧ q.sup = p.sup ∧
      (∀ i, i ≠ r.p → (G.paths.rd i).map (fun x => (x.mask, x.pc)) = (g.paths.rd i).map fun x => (x.mask, x.pc)) ∧
      (∀ i x, i ≠ r.p → G.live i = true → G.paths.rd i = some x → x.sup = true) ∧
      (∀ j, G.joins.rd j = g.joins.rd j) ∧ (∀ n, G.getV n = g.getV n) ∧ ∀ a, t.mem.get a = s.mem.get a

/-- A lane run of serial mode that executes `rcv` at RS ends (04 R103): the next lane runs, from its own PC with the scalars from before the
branch; after the last, the runs merge into the path's own entry at its own level, and serial mode is over. `rcv` at another address goes
on. -/
def Sys2Proof.Claim.LaneRunsMerge : Prop :=
  ∀ h s r g p z, Issues s r g p h uCtl → g.ser = some z → z.p = r.p → z.sup = p.sup →
    (z.rs ≠ p.pc → p.hold = false → ∃ t q, exec (.rcv h) s = .next t ∧ Went t r g (g.setPath r.p q) p q (p.pc + hdrLen h) ∧
      ∀ n, q.getS n = p.getS n) ∧
    (z.rs = p.pc → z.todo ≠ 0 → ∃ t G q z', exec (.rcv h) s = .next t ∧ t.group r.g = some G ∧ G.paths.rd r.p = some q ∧ G.ser = some z' ∧
      z'.todo = z.todo &&& ~~~(Mask.one z.todo.low) ∧ z'.next = z.next ∧ z'.rs = z.rs ∧ z'.arr.length = z.arr.length + 1 ∧
      q.mask = Mask.one z.todo.low ∧ q.pc = z.next.rd z.todo.low ∧ q.s = z.base ∧ q.written = 0 ∧ q.sup = p.sup ∧
      (∀ i, i ≠ r.p → G.paths.rd i = g.paths.rd i) ∧ ∀ a, t.mem.get a = s.mem.get a) ∧
    (z.rs = p.pc → z.todo = 0 → ∃ t G q, exec (.rcv h) s = .next t ∧ t.group r.g = some G ∧ G.paths.rd r.p = some q ∧ G.ser = none ∧
      (∀ l, q.mask.has l = true ↔ p.mask.has l = true ∨ ∃ a ∈ z.arr, a.mask.has l = true) ∧
      q.pc = p.pc + hdrLen h ∧ q.rcv = z.rcv ∧ q.join = z.join ∧ q.depth = z.depth ∧ q.sup = p.sup ∧ q.fcause = z.fcause ∧ q.fpc = z.fpc ∧
      q.entry = p.entry ∧
      (∀ n, q.s.rd n = mergeReg z.base (z.arr ++ [{ mask := p.mask, s := p.s, written := p.written, stepN := (p.issued g h uCtl).stepN }]) n) ∧
      (∀ i, i ≠ r.p → G.paths.rd i = g.paths.rd i) ∧ ∀ a, t.mem.get a = s.mem.get a)

/-- A path that reaches its `rcv` arrives at its join record; the last arrival merges (04 R101, R117): the merged path holds every arrived
lane and what the path that split had saved, and each scalar comes from the arrival of the lowest lane among those that wrote it, or from
before the split where none did. That the merged path takes the entry of the last arrival is the model's choice (log entry 14). -/
def Sys2Proof.Claim.ArrivalsMerge : Prop :=
  ∀ h s r g p j J, Issues s r g p h uCtl → g.ser = none → p.sup = false → p.join = some j → p.rcv = some p.pc → g.joins.rd j = some J →
    ∃ t G, exec (.rcv h) s = .next t ∧ t.group r.g = some G ∧ (∀ n, G.getV n = g.getV n) ∧ (∀ a, t.mem.get a = s.mem.get a) ∧
      (J.owed &&& ~~~p.mask ≠ 0 → G.paths.rd r.p = none ∧
        ∃ J', G.joins.rd j = some J' ∧ J'.owed = J.owed &&& ~~~p.mask ∧ J'.arrived = J.arrived ||| p.mask) ∧
      (J.owed &&& ~~~p.mask = 0 → G.joins.rd j = none ∧
        ∃ q, G.paths.rd r.p = some q ∧ q.mask = J.arrived ||| p.mask ∧ q.pc = p.pc + hdrLen h ∧ q.rcv = J.prcv ∧ q.join = J.pjoin ∧
          q.depth = J.pdepth ∧
          ∀ n, q.s.rd n = mergeReg J.base (J.arr ++ [{ mask := p.mask, s := p.s, written := p.written, stepN := (p.issued g h uCtl).stepN }]) n)

/-- `exit` ends the lanes of EMASK (04 R119, R102): the others go on after it, and no join record is owed an ended lane; where none is
left, no record waits and no handler runs, the entry and its slot are free. -/
def Sys2Proof.Claim.ExitEndsLanes : Prop :=
  ∀ h s r g p, Issues s r g p h uCtl → emaskOf g p h ≠ 0 →
    (p.mask &&& ~~~(emaskOf g p h) ≠ 0 →
      ∃ t G q, exec (.exit h) s = .next t ∧ t.path r = some (G, q) ∧ q.mask = p.mask &&& ~~~(emaskOf g p h) ∧ q.pc = p.pc + hdrLen h ∧
        (∀ n, q.getS n = p.getS n) ∧ (∀ i, i ≠ r.p → G.paths.rd i = g.paths.rd i) ∧
        (∀ i, G.joins.rd i = (g.joins.rd i).map fun J => { J with owed := J.owed &&& ~~~(emaskOf g p h) }) ∧
        (∀ n, G.getV n = g.getV n) ∧ ∀ a, t.mem.get a = s.mem.get a) ∧
    (emaskOf g p h = p.mask → g.ser = none → p.entry = none → (∀ i, g.joins.rd i = none) →
      ∃ t G, exec (.exit h) s = .next t ∧ t.group r.g = some G ∧ G.paths.rd r.p = none ∧ G.live r.p = false ∧
        (∀ i, i ≠ r.p → G.paths.rd i = g.paths.rd i) ∧ ∀ a, t.mem.get a = s.mem.get a)

/-- `call`, `callr` and `ret` (04 R116): the link register is saved in, or taken from, eight bytes of the spill area of each lane; the
path goes on at the target. Where the area lies at another module the access goes there (16 R347). -/
def Sys2Proof.Claim.CallsAndReturns : Prop :=
  ∀ h : Hdr,
    (∀ (i : Instr) (u : Uses) (target : Path → W64), ((∃ o, i = .call h o ∧ u = uCall ∧ ∀ p : Path, target p = brTarget p.pc o) ∨
        (∃ a, i = .callr h a ∧ u = uCallR a ∧ ∀ p : Path, target p = p.getS a)) →
      ∀ s r g p s' ps, Issues s r g p h u → p.hold = false → target p &&& 7 = 0 → p.getS 61 &&& 3 = 0 → 8 ≤ (p.getS 61).toNat →
        (p.getS 61).toNat ≤ spillSize (cxOf s r g p h u) s →
        globalPlaces (cxOf s r g p h u) (issuedSt s r g p h u) none .wr (p.mask.lanes.map (spillReq g ((p.getS 61).toNat - 8) 2)) = .ok (s', ps) →
        (∀ x ∈ ps, x.2.isRemote = false) →
        ∃ t q, exec i s = .next t ∧ Went t r g (g.setPath r.p q) p q (target p) ∧
          (∀ n, q.getS n = if n = 61 then p.getS 61 - 8 else if n = 62 then p.pc + hdrLen h else p.getS n) ∧
          t.mem = (writeAll s' ps fun _ => natLe 8 (p.getS 62).toNat).mem) ∧
    (∀ s r g p s' l pl, Issues s r g p h uCall → p.hold = false → p.getS 62 &&& 7 = 0 → p.getS 61 &&& 3 = 0 →
      (p.getS 61).toNat + 8 ≤ spillSize (cxOf s r g p h uCall) s →
      globalPlaces (cxOf s r g p h uCall) (issuedSt s r g p h uCall) (some p.mask) .rd [spillReq g (p.getS 61).toNat 2 p.mask.low] =
        .ok (s', [(l, pl)]) → pl.isRemote = false →
      ∃ t q, exec (.ret h) s = .next t ∧ Went t r g (g.setPath r.p q) p q (p.getS 62) ∧
        (∀ n, q.getS n = if n = 61 then p.getS 61 + 8 else if n = 62 then BitVec.ofNat 64 (leNat (s'.readLocs pl.all)) else p.getS n) ∧
        t.mem = s'.mem)

/-! ### Memory (06 R146-R171) -/

/-- Scalar accesses that land here and in range (06 R157-R161): the register takes the bytes extended, or the memory the register's
low bytes; an atomic leaves the old value in the register and the new one in memory. -/
def Obligations.ScalarAccesses : Prop :=
  ∀ (h : Hdr) (s : State) (r : PathRef) (g : Group) (p : Path) (l : Landed) (ls : List (Loc × Nat)),
    p.hold = false → l.at_ = [(0, .here ls)] →
    (∀ o, Issues s r g p h (uSLd o) →
      Reaches (cxOf s r g p h (uSLd o)) (issuedSt s r g p h (uSLd o)) (some p.mask) o.sp (sizeBytes o.z) .rd true false
        [(0, p.getS o.a + o.off.signExtend 64)] l →
      CompletesIn (.sld h o) h s r g p l.s l.s noByte fun G q => G = g.setPath r.p q ∧
        ∀ n, q.getS n = if n = o.d ∧ n ≠ 0 then
            (if o.sx then (BitVec.ofNat (8 * sizeBytes o.z) (leNat (l.s.readLocs ls))).signExtend 64
             else (BitVec.ofNat (8 * sizeBytes o.z) (leNat (l.s.readLocs ls))).setWidth 64)
          else p.getS n) ∧
    (∀ o, Issues s r g p h (uSSt o) →
      Reaches (cxOf s r g p h (uSSt o)) (issuedSt s r g p h (uSSt o)) (some p.mask) o.sp (sizeBytes o.z) .wr false true
        [(0, p.getS o.a + o.off.signExtend 64)] l →
      CompletesIn (.sst h o) h s r g p l.s (l.s.writeLocs ls ((natLe 8 (p.getS o.d).toNat).take (sizeBytes o.z))) (inPlaces l.at_)
        fun G q => G = g.setPath r.p q ∧ ∀ n, q.getS n = p.getS n) ∧
    (∀ o, Issues s r g p h (uSAtom o) →
      Reaches (cxOf s r g p h (uSAtom o)) (issuedSt s r g p h (uSAtom o)) (some p.mask) o.sp (sizeBytes o.z) .rmw true true
        [(0, p.getS o.a + o.off.signExtend 64)] l →
      CompletesIn (.satom h o) h s r g p l.s
        (l.s.writeLocs ls (natLe (sizeBytes o.z) (atomOp o.op (8 * sizeBytes o.z) (leNat (l.s.readLocs ls))
          ((p.getS o.b).toNat % 2 ^ (8 * sizeBytes o.z))))) (inPlaces l.at_)
        fun G q => G = g.setPath r.p q ∧
          ∀ n, q.getS n = if n = o.d ∧ n ≠ 0 then BitVec.ofNat 64 (leNat (l.s.readLocs ls)) else p.getS n) ∧
    (∀ o, Issues s r g p h (uSCas o) →
      Reaches (cxOf s r g p h (uSCas o)) (issuedSt s r g p h (uSCas o)) (some p.mask) o.sp (sizeBytes o.z) .rmw true true
        [(0, p.getS o.a + o.off.signExtend 64)] l →
      CompletesIn (.scas h o) h s r g p l.s
        (l.s.writeLocs ls (natLe (sizeBytes o.z)
          (if leNat (l.s.readLocs ls) = (p.getS o.b).toNat % 2 ^ (8 * sizeBytes o.z) then (p.getS o.c).toNat % 2 ^ (8 * sizeBytes o.z)
           else leNat (l.s.readLocs ls)))) (inPlaces l.at_)
        fun G q => G = g.setPath r.p q ∧
          ∀ n, q.getS n = if n = o.d ∧ n ≠ 0 then BitVec.ofNat 64 (leNat (l.s.readLocs ls)) else p.getS n)

/-- Lane accesses that land here and in range (06 R157-R161): loads and atomics put their results on the way to the registers, stores
and atomics change the bytes at each lane's place, the lanes in ascending order. No result goes to a register that has left the window since
the instruction first issued (01 R9, 08 R227). -/
def Obligations.LaneAccesses : Prop :=
  ∀ (h : Hdr) (s : State) (r : PathRef) (g : Group) (p : Path) (l : Landed), p.hold = false →
    (∀ o, Issues s r g p h (uVLd o) →
      Reaches (cxOf s r g p h (uVLd o)) (issuedSt s r g p h (uVLd o)) none o.sp (sizeBytes o.z) .rd true false
        (addrs (cxOf s r g p h (uVLd o)) o.sp (sizeBytes o.z) o.addr o.off) l →
      CompletesIn (.vld h o) h s r g p l.s { l.s with handle := l.s.handle + (if l.at_ = [] then 0 else 1) } noByte fun G q =>
        (∀ n, q.getS n = p.getS n) ∧
        G = { g with paths := G.paths, lands := g.lands ++ (if l.at_ = [] then [] else
          [{ id := s.handle, mask := maskOf (l.at_.map (·.1)), regs := ((List.range (sizeRegs o.z)).map fun i =>
            (o.d + BitVec.ofNat 8 i, Bank.gen fun k =>
              loadedReg o.z o.sx ((laneData l.s l.at_ []).rd k) i)).filter fun x => (p.issued g h (uVLd o)).keeps x.1 }]) }) ∧
    (∀ o, Issues s r g p h (uVSt o) →
      Reaches (cxOf s r g p h (uVSt o)) (issuedSt s r g p h (uVSt o)) none o.sp (sizeBytes o.z) .wr false true
        (addrs (cxOf s r g p h (uVSt o)) o.sp (sizeBytes o.z) o.addr o.off) l →
      CompletesIn (.vst h o) h s r g p l.s
        (writeAll l.s l.at_ fun k => ((List.range (sizeRegs o.z)).flatMap fun i =>
          natLe 4 ((g.seen (o.d + BitVec.ofNat 8 i)).rd k).toNat).take (sizeBytes o.z)) (inPlaces l.at_)
        fun G q => G = g.setPath r.p q ∧ ∀ n, q.getS n = p.getS n) ∧
    (∀ o, Issues s r g p h (uVAtom o) →
      Reaches (cxOf s r g p h (uVAtom o)) (issuedSt s r g p h (uVAtom o)) none o.sp (sizeBytes o.z) .rmw true true
        (addrs (cxOf s r g p h (uVAtom o)) o.sp (sizeBytes o.z) (.vec o.a) o.off) l →
      ∀ ms T, atomLanes l.s [] (sizeBytes o.z) (fun k m => atomOp o.op (8 * sizeBytes o.z) m
        (if o.z = .d then (g.pair o.b k).toNat else ((g.seen o.b).rd k).toNat)) 0 l.at_ = (ms, T) →
      CompletesIn (.vatom h o) h s r g p l.s { T with handle := T.handle + (if l.at_ = [] then 0 else 1) } (inPlaces l.at_) fun G q =>
        (∀ n, q.getS n = p.getS n) ∧
        G = { g with paths := G.paths, lands := g.lands ++ (if l.at_ = [] then [] else
          [{ id := s.handle, mask := maskOf (l.at_.map (·.1)), regs := (atomResult o.d o.z ms).filter fun x => (p.issued g h (uVAtom o)).keeps x.1 }]) }) ∧
    (∀ o, Issues s r g p h (uVCas o) →
      Reaches (cxOf s r g p h (uVCas o)) (issuedSt s r g p h (uVCas o)) none o.sp (sizeBytes o.z) .rmw true true
        (addrs (cxOf s r g p h (uVCas o)) o.sp (sizeBytes o.z) (.vec o.a) o.off) l →
      ∀ ms T, atomLanes l.s [] (sizeBytes o.z) (fun k m =>
        let x (b : VReg) := if o.z = .d then (g.pair b k).toNat else ((g.seen b).rd k).toNat
        if m = x o.b then x o.c else m) 0 l.at_ = (ms, T) →
      CompletesIn (.vcas h o) h s r g p l.s { T with handle := T.handle + (if l.at_ = [] then 0 else 1) } (inPlaces l.at_) fun G q =>
        (∀ n, q.getS n = p.getS n) ∧
        G = { g with paths := G.paths, lands := g.lands ++ (if l.at_ = [] then [] else
          [{ id := s.handle, mask := maskOf (l.at_.map (·.1)), regs := (atomResult o.d o.z ms).filter fun x => (p.issued g h (uVCas o)).keeps x.1 }]) })

/-- The lanes of an atomic act one after another on a word they share, the lower lane first (06 R156, R159): each old value is what the
lanes before it left, and the lanes that reach memory stand in ascending order. -/
def Obligations.AtomicLanesInOrder : Prop :=
  (∀ (s : State) (z a : Nat) (f : Lane → Nat → Nat) (ls : List Lane), s.mem.wf = true → paClass a ≠ 1 →
    (atomLanes s [] z f 0 (ls.map fun l => (l, .here [(.pa a, z)]))).2.mem.le a z =
      ls.foldl (fun m l => f l m % 2 ^ (8 * z)) (s.mem.le a z) ∧
    ∀ n l, ls[n]? = some l → (atomLanes s [] z f 0 (ls.map fun l => (l, .here [(.pa a, z)]))).1[n]? =
      some (l, (ls.take n).foldl (fun m l => f l m % 2 ^ (8 * z)) (s.mem.le a z))) ∧
  ∀ (c : Cx) (s : State) (sp : Space) (z : Nat) (k : Acc) (rd wr : Bool) (a : Addr) (off : W32) (l : Landed), (∀ w, c.p.st ≠ .remote w) →
    check c s none sp z z k rd wr (addrs c sp z a off) = .ok l → (l.at_.map fun x => x.1.toNat).Pairwise (· < ·)

/-- What an access checks (06 R146, R147, R151): a misaligned lane faults before anything else; in the shared memory of its team, with no
watchpoint set and no error in SRAM, each lane whose bytes lie inside lands at its offset, and the others are off. -/
def Sys2Proof.Claim.AccessChecks : Prop :=
  ∀ (c : Cx) (s : State) (whole : Option Mask) (z align : Nat) (k : Acc) (rd wr : Bool) (qs : List (Lane × W64)),
    (∀ sp, (∃ q ∈ qs, q.2.toNat % align ≠ 0) → ∃ f, check c s whole sp z align k rd wr qs = .error (.fault s f) ∧ f.cause = 0x08 ∧
      (whole = none → ∀ l, f.mask.has l = true ↔ ∃ q ∈ qs, q.1 = l ∧ q.2.toNat % align ≠ 0) ∧ ∀ m, whole = some m → f.mask = m) ∧
    (∀ t, (∀ q ∈ qs, q.2.toNat % align = 0) → s.team c.g.team = some t → (∀ i, (s.vf c.vf).crook.wplen.rd i = 0) → s.sram = [] →
      ∃ l, check c s whole .s z align k rd wr qs = .ok l ∧ l.s = s ∧
        l.at_ = (qs.filter fun q => decide (0 ≤ q.2.toInt ∧ q.2.toInt + z ≤ (t.size : Int))).map
          (fun q => (q.1, .here [(.team c.g.team q.2.toNat, z)])) ∧
        ∀ k, l.off.has k = true ↔ ∃ q ∈ qs, q.1 = k ∧ ¬ (0 ≤ q.2.toInt ∧ q.2.toInt + z ≤ (t.size : Int)))

/-- Translation for an access changes the accessed and dirty bits of table entries and what the device keeps about translations, what it has
asked of other modules for them, migrating pages, errors and counted uses, and nothing else (14 R306, R318). -/
def Sys2Proof.Claim.AccessChecksTouchTables : Prop :=
  ∀ (c : Cx) (s : State) (whole : Option Mask) (sp : Space) (z align : Nat) (k : Acc) (rd wr : Bool) (qs : List (Lane × W64)) (l : Landed),
    check c s whole sp z align k rd wr qs = .ok l →
    l.s = { s with mem := l.s.mem, tlb := l.s.tlb, vfs := l.s.vfs, soft := l.s.soft, sram := l.s.sram, free := l.s.free,
                   errLog := l.s.errLog, errCount := l.s.errCount, msix := l.s.msix, out := l.s.out, misses := l.s.misses, uses := l.s.uses,
                   migrations := l.s.migrations, asks := l.s.asks } ∧
    (∀ n, l.s.vf n = { s.vf n with ctr := (l.s.vf n).ctr }) ∧
    (s.mem.wf = true → l.s.mem.wf = true ∧ ∀ a, l.s.mem.get a &&& 0x9F = s.mem.get a &&& 0x9F)

/-- An access that passes its checks with lanes out of range (06 R151, 12 R274): those lanes make no access, write no register and are
switched off; the lanes in range load or store. A scalar access out of range switches off its whole path and writes nothing. -/
def Sys2Proof.Claim.LanesOutOfRange : Prop :=
  ∀ (h : Hdr) (s : State) (r : PathRef) (g : Group) (p : Path) (l : Landed), p.hold = false → (∀ x ∈ l.at_, ∃ ls, x.2 = .here ls) → l.off ≠ 0 →
    (∀ o, Issues s r g p h (uVLd o) →
      check (cxOf s r g p h (uVLd o)) (issuedSt s r g p h (uVLd o)) none o.sp (sizeBytes o.z) (sizeBytes o.z) .rd true false
        (addrs (cxOf s r g p h (uVLd o)) o.sp (sizeBytes o.z) o.addr o.off) = .ok l →
      SwitchesOff (.vld h o) h s r g p l.off { l.s with handle := l.s.handle + (if l.at_ = [] then 0 else 1) } fun G =>
        G.lands = g.lands ++ (if l.at_ = [] then [] else
          [{ id := s.handle, mask := maskOf (l.at_.map (·.1)), regs := ((List.range (sizeRegs o.z)).map fun i =>
            (o.d + BitVec.ofNat 8 i, Bank.gen fun k => loadedReg o.z o.sx ((laneData l.s l.at_ []).rd k) i)).filter fun x =>
              (p.issued g h (uVLd o)).keeps x.1 }])) ∧
    (∀ o, Issues s r g p h (uVSt o) →
      check (cxOf s r g p h (uVSt o)) (issuedSt s r g p h (uVSt o)) none o.sp (sizeBytes o.z) (sizeBytes o.z) .wr false true
        (addrs (cxOf s r g p h (uVSt o)) o.sp (sizeBytes o.z) o.addr o.off) = .ok l →
      SwitchesOff (.vst h o) h s r g p l.off
        (writeAll l.s l.at_ fun k => ((List.range (sizeRegs o.z)).flatMap fun i =>
          natLe 4 ((g.seen (o.d + BitVec.ofNat 8 i)).rd k).toNat).take (sizeBytes o.z)) fun G => G.lands = g.lands) ∧
    (∀ o, Issues s r g p h (uSLd o) →
      check (cxOf s r g p h (uSLd o)) (issuedSt s r g p h (uSLd o)) (some p.mask) o.sp (sizeBytes o.z) (sizeBytes o.z) .rd true false
        [(0, p.getS o.a + o.off.signExtend 64)] = .ok l →
      SwitchesOff (.sld h o) h s r g p p.mask l.s fun G => G.lands = g.lands) ∧
    (∀ o, Issues s r g p h (uSSt o) →
      check (cxOf s r g p h (uSSt o)) (issuedSt s r g p h (uSSt o)) (some p.mask) o.sp (sizeBytes o.z) (sizeBytes o.z) .wr false true
        [(0, p.getS o.a + o.off.signExtend 64)] = .ok l →
      SwitchesOff (.sst h o) h s r g p p.mask l.s fun G => G.lands = g.lands)

/-- Bytes read back as written, and no others change (12 R271, R275). -/
def Sys2Proof.Claim.MemoryReadsWhatWasWritten : Prop :=
  ∀ (m : Memory) (a : Nat) (d : List W8), m.wf = true →
    (m.write a d).wf = true ∧ (m.write a d).read a d.length = d ∧ (∀ k, k < a ∨ a + d.length ≤ k → (m.write a d).get k = m.get k) ∧
    ∀ n : Memory, n.wf = true → (∀ k, m.get k = n.get k) → m = n

/-- `vprefetch` and `fence` complete and change no register, byte or table; `fence` once no engine access of its path's lanes that
it names is under way (06 R163-R165). -/
def Sys2Proof.Claim.PrefetchAndFenceComplete : Prop :=
  ∀ h s r g p, p.hold = false →
    (∀ o, Issues s r g p h (uVPrefetch o) →
      CompletesIn (.vprefetch h o) h s r g p s (issuedSt s r g p h (uVPrefetch o)) noByte fun G q => G = g.setPath r.p q ∧
        ∀ n, q.getS n = p.getS n) ∧
    (∀ o, Issues s r g p h (uFence o) →
      (∀ d, (g.copies.rd d).st = .running → (g.copies.rd d).own &&& p.mask ≠ 0 → o.pred.getLsbD 2 = false ∧ o.pred.getLsbD 3 = false) →
      (∀ e ∈ g.ops, e.own &&& p.mask ≠ 0 → match e.kind with
        | .mma _ _ => True
        | .mld _ _ _ => o.pred.getLsbD 4 = false
        | .mst _ _ _ => o.pred.getLsbD 5 = false
        | .far _ _ _ _ _ => True) →
      CompletesIn (.fence h o) h s r g p s (issuedSt s r g p h (uFence o)) noByte fun G q => G = g.setPath r.p q ∧
        ∀ n, q.getS n = p.getS n)

/-- `waita` (06 R166): a word that differs from S[B] is taken at once; else the path suspends and gives up its slot, and its register
is still as it was. -/
def Sys2Proof.Claim.WaitaTakesOrSuspends : Prop :=
  ∀ h o s r g p l ls, Issues s r g p h (uWaitA o) → p.hold = false → p.wakes = false → l.at_ = [(0, .here ls)] →
    Reaches (cxOf s r g p h (uWaitA o)) (issuedSt s r g p h (uWaitA o)) (some p.mask) o.sp (sizeBytes o.z) .rd true false
      [(0, p.getS o.a + o.off.signExtend 64)] l →
    (leNat (l.s.readLocs ls) ≠ (p.getS o.b).toNat % 2 ^ (8 * sizeBytes o.z) →
      CompletesIn (.waita h o) h s r g p l.s l.s noByte fun G q => G = g.setPath r.p q ∧
        ∀ n, q.getS n = if n = o.d ∧ n ≠ 0 then BitVec.ofNat 64 (leNat (l.s.readLocs ls)) else p.getS n) ∧
    (leNat (l.s.readLocs ls) = (p.getS o.b).toNat % 2 ^ (8 * sizeBytes o.z) →
      ∃ t G q, exec (.waita h o) s = .next t ∧ t.path r = some (G, q) ∧ t = { l.s with groups := t.groups } ∧ G.live r.p = false ∧
        q.st = .susp (.waita o (p.pc + hdrLen h) (cycleOf s g)) ∧ q.pc = p.pc ∧ ∀ n, q.getS n = p.getS n)

/-- A suspended `waita` ends (06 R166, R167): the word is read again, the register takes it, and the path goes on after the instruction,
waiting for a slot if it has none. A timeout does the same once its cycles have passed. -/
def Sys2Proof.Claim.WaitaEnds : Prop :=
  ∀ (r : PathRef) (s : State) (g : Group) (p : Path) (o : WaitA) (npc : W64) (since : Nat) (l : Landed) (ls : List (Loc × Nat)) (i : Instr),
    s.path r = some (g, p) → p.st = .susp (.waita o npc since) → g.ser = none → l.at_ = [(0, .here ls)] →
    Reaches (wakeCx s r g p npc) s (some p.mask) o.sp (sizeBytes o.z) .rd true false [(0, p.getS o.a + o.off.signExtend 64)] l →
    (i = .waitaWake r ∨ i = .waitaTimeout r ∧ since + Config.waitCycles ≤ cycleOf s g) →
    ∃ t G q, exec i s = .next t ∧ t.path r = some (G, q) ∧ t = { l.s with groups := t.groups } ∧ q.st = .ready ∧ q.pc = npc ∧
      (G.live r.p = true ∨ r.p ∈ G.fifo) ∧ (∀ k, k ≠ r.g → t.group k = s.group k) ∧
      ∀ n, q.getS n = if n = o.d ∧ n ≠ 0 then BitVec.ofNat 64 (leNat (l.s.readLocs ls)) else p.getS n

/-- `vrdx`, `vwrx` and `xset` (06 R168, R169): each EMASK lane reads or writes the register that its own index names. -/
def Sys2Proof.Claim.IndexedRegisters : Prop :=
  ∀ h s r g p, p.hold = false →
    (∀ o (f : Lane → VReg), Issues s r g p h (uVRdx o) → (∀ l, (emaskOf g p h).has l = true → IndexNames g o l (f l)) →
      CompletesIn (.vrdx h o) h s r g p s (issuedSt s r g p h (uVRdx o)) noByte fun G q => (∀ n, q.getS n = p.getS n) ∧
        G = { g with v := G.v, x := G.x, paths := G.paths } ∧
        (∀ n l, (G.getV n).rd l = if n = o.d ∧ (emaskOf g p h).has l then (g.seen (f l)).rd l else (g.getV n).rd l) ∧
        ∀ n l, (G.x.rd n).rd l = if n = o.x ∧ (emaskOf g p h).has l then indexAfter o.step ((g.x.rd n).rd l) else (g.x.rd n).rd l) ∧
    (∀ o (f : Lane → VReg), Issues s r g p h (uVWrx o) → (∀ l, (emaskOf g p h).has l = true → IndexNames g o l (f l)) →
      CompletesIn (.vwrx h o) h s r g p s (issuedSt s r g p h (uVWrx o)) noByte fun G q => (∀ n, q.getS n = p.getS n) ∧
        G = { g with v := G.v, x := G.x, paths := G.paths } ∧
        (∀ n l, (G.getV n).rd l = if (emaskOf g p h).has l ∧ n = f l then (g.seen o.d).rd l else (g.getV n).rd l) ∧
        ∀ n l, (G.x.rd n).rd l = if n = o.x ∧ (emaskOf g p h).has l then indexAfter o.step ((g.x.rd n).rd l) else (g.x.rd n).rd l) ∧
    (∀ d a, Issues s r g p h (uXSet (.reg d a)) →
      CompletesIn (.xset h (.reg d a)) h s r g p s (issuedSt s r g p h (uXSet (.reg d a))) noByte fun G q => (∀ n, q.getS n = p.getS n) ∧
        G = { g with x := G.x, paths := G.paths } ∧
        ∀ n l, (G.x.rd n).rd l = if n = d ∧ (emaskOf g p h).has l then (g.seen a).rd l &&& 0xFFFFFF else (g.x.rd n).rd l) ∧
    (∀ d v, Issues s r g p h (uXSet (.imm d v)) →
      CompletesIn (.xset h (.imm d v)) h s r g p s (issuedSt s r g p h (uXSet (.imm d v))) noByte fun G q => (∀ n, q.getS n = p.getS n) ∧
        G = { g with x := G.x, paths := G.paths } ∧
        ∀ n l, (G.x.rd n).rd l = if n = d ∧ (emaskOf g p h).has l then v.setWidth 32 else (g.x.rd n).rd l) ∧
    (∀ d a, Issues s r g p h (uXSet (.get d a)) →
      CompletesIn (.xset h (.get d a)) h s r g p s (issuedSt s r g p h (uXSet (.get d a))) noByte fun G q => (∀ n, q.getS n = p.getS n) ∧
        G = { g with v := G.v, paths := G.paths } ∧
        ∀ n l, (G.getV n).rd l = if n = d ∧ (emaskOf g p h).has l then (g.x.rd a).rd l &&& 0xFFFFFF else (g.getV n).rd l)

/-- `spill` and `fill` (06 R171): the registers of the EMASK lanes to, or from, the slots at the offset, in the lanes' own spill areas;
`.push` and `.pop` move ksp. -/
def Sys2Proof.Claim.SpillAndFill : Prop :=
  ∀ h o s r g p S ps, p.hold = false → (∀ x ∈ ps, ∃ ls, Prod.snd x = Place.here ls) → p.getS 61 &&& 3 = 0 →
    (Issues s r g p h (uSpill o) → 0 ≤ spillOffset o true p →
      spillOffset o true p + 4 * (o.nm1.toNat + 1) ≤ spillSize (cxOf s r g p h (uSpill o)) s →
      globalPlaces (cxOf s r g p h (uSpill o)) (issuedSt s r g p h (uSpill o)) none .wr
        ((emaskOf g p h).lanes.map (spillReq g (spillOffset o true p).toNat (o.nm1.toNat + 1))) = .ok (S, ps) →
      CompletesIn (.spill h o) h s r g p S
        (writeAll S ps fun l => (List.range (o.nm1.toNat + 1)).flatMap fun i => natLe 4 ((g.seen (o.d + BitVec.ofNat 8 i)).rd l).toNat)
        (inPlaces ps) fun G q => G = g.setPath r.p q ∧
          ∀ n, q.getS n = if n = 61 ∧ o.adj then p.getS 61 - BitVec.ofNat 64 (4 * (o.nm1.toNat + 1)) else p.getS n) ∧
    (Issues s r g p h (uFill o) → 0 ≤ spillOffset o false p →
      spillOffset o false p + 4 * (o.nm1.toNat + 1) ≤ spillSize (cxOf s r g p h (uFill o)) s →
      globalPlaces (cxOf s r g p h (uFill o)) (issuedSt s r g p h (uFill o)) none .rd
        ((emaskOf g p h).lanes.map (spillReq g (spillOffset o false p).toNat (o.nm1.toNat + 1))) = .ok (S, ps) →
      CompletesIn (.fill h o) h s r g p S { S with handle := S.handle + (if emaskOf g p h = 0 then 0 else 1) } noByte fun G q =>
        (∀ n, q.getS n = if n = 61 ∧ o.adj then p.getS 61 + BitVec.ofNat 64 (4 * (o.nm1.toNat + 1)) else p.getS n) ∧
        G = { g with paths := G.paths, lands := g.lands ++ (if emaskOf g p h = 0 then [] else
          [{ id := s.handle, mask := emaskOf g p h, regs := ((List.range (o.nm1.toNat + 1)).map fun i =>
            (o.d + BitVec.ofNat 8 i, Bank.gen fun l =>
              BitVec.ofNat 32 (field ((laneData S ps []).rd l) (4 * i) 4))).filter fun x => (p.issued g h (uFill o)).keeps x.1 }]) })

/-- Indexed accesses and spills that fault, with no effect: REG_INDEX_RANGE in the lanes of EMASK whose index names no register (06 R168); for
`spill` and `fill` MISALIGNED where ksp is no multiple of 4, and SPILL_STACK_OVERFLOW where the block leaves the spill area (06 R171). In
which lanes the last two fault, and the offset that FADDR reports, are the model's choice (log entry 15). -/
def Sys2Proof.Claim.IndexAndSpillFaults : Prop :=
  ∀ h : Hdr,
    (∀ o i u, (i = .vrdx h o ∧ u = uVRdx o ∨ i = .vwrx h o ∧ u = uVWrx o) →
      ∀ s r g p m, Issues s r g p h u → m ≠ 0 → (∀ l, m.has l = true ↔ (emaskOf g p h).has l = true ∧ ∀ n, ¬ IndexNames g o l n) →
        exec i s = .next (settleHold (deliver (issuedSt s r g p h u) r (FaultInfo.of 0x04 m) p.pc (p.pc + hdrLen h)) r)) ∧
    ∀ o i u push, (i = .spill h o ∧ u = uSpill o ∧ push = true ∨ i = .fill h o ∧ u = uFill o ∧ push = false) →
      ∀ s r g p, Issues s r g p h u →
        (p.getS 61 &&& 3 ≠ 0 →
          exec i s = .next (settleHold (deliver (issuedSt s r g p h u) r
            (FaultInfo.at 0x08 (if emaskOf g p h = 0 then p.mask else emaskOf g p h) (p.getS 61)) p.pc (p.pc + hdrLen h)) r)) ∧
        (p.getS 61 &&& 3 = 0 →
          spillOffset o push p < 0 ∨ (spillSize (cxOf s r g p h u) s : Int) < spillOffset o push p + 4 * (o.nm1.toNat + 1) →
          exec i s = .next (settleHold (deliver (issuedSt s r g p h u) r
            (FaultInfo.at 0x14 (if emaskOf g p h = 0 then p.mask else emaskOf g p h) (BitVec.ofInt 64 (spillOffset o push p)))
            p.pc (p.pc + hdrLen h)) r))

/-- A result on its way lands, a register at a time (05 R121, 10 R253): the register takes its value in its lanes, whole, and with the last one
the result is outstanding no more. Which of a result's registers comes first is free: the model's choice (log entry 18). -/
def Sys2Proof.Claim.ResultsLand : Prop :=
  ∀ (s : State) (k id : Nat) (g : Group) (l : Land), s.group k = some g → (g.lands.find? fun x => x.id == id) = some l → l.regs ≠ [] →
    ∃ t G x, x ∈ l.regs ∧ exec (.loadLand k id) s = .next t ∧ t = { s with groups := t.groups, free := s.free + 1 } ∧
      (∀ j, j ≠ k → t.group j = s.group j) ∧ t.group k = some G ∧ G = { g with v := G.v, lands := G.lands } ∧
      G.lands = (if l.regs.length = 1 then g.lands.filter fun y => y.id != id
        else g.lands.map fun y => if y.id = id then { l with regs := l.regs.erase x } else y) ∧
      (∀ j, (G.getV x.1).rd j = if l.mask.has j then x.2.rd j else (g.getV x.1).rd j) ∧ ∀ n, n ≠ x.1 → G.getV n = g.getV n

/-! ### Engines (07 R174-R194) -/

/-- The matrix unit (07 R174-R178, 03 R91-R95): `mma` needs all lanes and faults with MMA_PARTIAL without, reads its operands at issue and writes the tile when it completes;
INT8 sums wrap, FP16 products are summed exactly and rounded once; `mzero`, `mmov` and `mload` act on whole rows. -/
def Sys2Proof.Claim.MatrixOperations : Prop :=
  ∀ h s r g p, p.hold = false →
    (∀ o, Issues s r g p h (uMma o) → p.mask = 0xFF →
      CompletesIn (.mma h o) h s r g p s
        (({ handAsks (issuedSt s r g p h (uMma o)) (.path r) (.op r.g s.handle) with handle := s.handle + 1 }).count (s.vfOf g) 2 1) noByte fun G q =>
        (∀ n, q.getS n = p.getS n) ∧ ∃ tile, G = { g with
          paths := G.paths, log := g.log ++ [(.mma s.handle, s.bell.toNat)],
          ops := g.ops ++ [{ id := s.handle, own := 0xFF, kind := .mma o.d tile, landed := [], go := false }] } ∧
        ∀ i j, i < 16 → j < 16 → tile.rd (tileIx i j) = mmaElt g o i j ∧
          (o.t = .int8 → tile.rd (tileIx i j) = BitVec.ofInt 32 (((g.t.rd o.d).rd (tileIx i j)).toInt +
            ((List.range 32).map fun k => (BitVec.ofNat 8 (rowElt g (o.a + BitVec.ofNat 8 i) 8 k)).toInt *
              (BitVec.ofNat 8 (rowElt g (o.b + BitVec.ofNat 8 j) 8 k)).toInt).sum)) ∧
          (o.t = .f16 → tile.rd (tileIx i j) = BitVec.ofNat 32 (sumRound .f32 (.mode .rne)
            (unpack .f32 ((g.t.rd o.d).rd (tileIx i j)).toNat :: (List.range 16).map fun k =>
              (unpack .f16 (rowElt g (o.a + BitVec.ofNat 8 i) 16 k)).mul (unpack .f16 (rowElt g (o.b + BitVec.ofNat 8 j) 16 k)))))) ∧
    (∀ o, Issues s r g p h (uMma o) → p.mask ≠ 0xFF → exec (.mma h o) s = .next (settleHold
      (deliver (issuedSt s r g p h (uMma o)) r (FaultInfo.of 0x07 p.mask) p.pc (p.pc + hdrLen h)) r)) ∧
    (∀ d, Issues s r g p h (uMZero d) →
      CompletesIn (.mzero h d) h s r g p s (issuedSt s r g p h (uMZero d)) noByte fun G q => (∀ n, q.getS n = p.getS n) ∧
        G = { g with paths := G.paths, t := G.t } ∧ (∀ i, (G.t.rd d).rd i = 0) ∧ ∀ k, k ≠ d → G.t.rd k = g.t.rd k) ∧
    (∀ o, Issues s r g p h (uMMov o) → emaskOf g p h ≠ 0 →
      CompletesIn (.mmov h o) h s r g p s { issuedSt s r g p h (uMMov o) with handle := s.handle + 1 } noByte fun G q =>
        (∀ n, q.getS n = p.getS n) ∧ ∃ rs : List (VReg × Lanes W32), G = { g with paths := G.paths, lands := g.lands ++ [Land.mk s.handle (emaskOf g p h)
          (rs.filter fun x => (p.issued g h (uMMov o)).keeps x.1)] } ∧
        ∀ i, i < rowRegs o.rows → ∃ x, rs[i]? = some (o.v + BitVec.ofNat 8 i, x) ∧
          ∀ l : Lane, x.rd l = (g.t.rd o.t).rd (tileIx ((if o.rows = .bot then 8 else 0) + i / 2) (8 * (i % 2) + l.toNat))) ∧
    (∀ o, Issues s r g p h (uMLoad o) →
      CompletesIn (.mload h o) h s r g p s (issuedSt s r g p h (uMLoad o)) noByte fun G q => (∀ n, q.getS n = p.getS n) ∧
        G = { g with paths := G.paths, t := G.t } ∧ (∀ k, k ≠ o.t → G.t.rd k = g.t.rd k) ∧
        ∀ i j, i < 16 → j < 16 → (G.t.rd o.t).rd (tileIx i j) =
          if (o.rows = .top → i < 8) ∧ (o.rows = .bot → 8 ≤ i) then
            (g.seen (o.v + BitVec.ofNat 8 (2 * (i - (if o.rows = .bot then 8 else 0)) + j / 8))).rd (BitVec.ofNat 3 (j % 8))
          else (g.t.rd o.t).rd (tileIx i j))

/-- `mst` and `mld` start an engine operation once every row's place and the barrier are checked (07 R179); in the shared memory of the
team a row lies at its offset. -/
def Sys2Proof.Claim.TileTransfersStart : Prop :=
  ∀ h s r g p o S ps, p.hold = false →
    (Issues s r g p h (uMst o) → rowPlaces o .wr (cxOf s r g p h (uMst o)) (issuedSt s r g p h (uMst o)) = .ok (S, ps) →
      CompletesIn (.mst h o) h s r g p S { handAsks S (.path r) (.op r.g s.handle) with handle := s.handle + 1 } noByte fun G q => (∀ n, q.getS n = p.getS n) ∧
        G = { g with paths := G.paths, ops := g.ops ++ [{ id := s.handle, own := p.mask, kind := .mst ps (g.t.rd o.t) o.bar, landed := [], go := false }] }) ∧
    (Issues s r g p h (uMld o) → rowPlaces o .rd (cxOf s r g p h (uMld o)) (issuedSt s r g p h (uMld o)) = .ok (S, ps) →
      CompletesIn (.mld h o) h s r g p S { handAsks S (.path r) (.op r.g s.handle) with handle := s.handle + 1 } noByte fun G q => (∀ n, q.getS n = p.getS n) ∧
        G = { g with paths := G.paths, ops := g.ops ++ [{ id := s.handle, own := p.mask, kind := .mld ps o.t o.bar, landed := [], go := false }] }) ∧
    ∀ (c : Cx) (k : Acc) (t : Team) (a : Nat → W64), (∀ i, a i = c.p.getS o.a + o.off.signExtend 64 + BitVec.ofNat 64 i * c.p.getS o.b) →
      o.sp = .s → o.bar = none → s.team c.g.team = some t →
      (∀ i, i < 16 → (a i).toNat % 64 = 0 ∧ 0 ≤ (a i).toInt ∧ (a i).toInt + 64 ≤ (t.size : Int)) →
      rowPlaces o k c s = .ok (s, (List.range 16).map fun i => .here [(.team c.g.team (a i).toNat, 64)])

/-- Engine operations complete (07 R177, R179): the tile takes the sum or the sixteen rows read then, or the rows take what is still to be
written of the tile as it was at issue, element by element; the barrier that one names receives an arrival. An error in SRAM that its code does not
correct ends the context (20 R412). Rows at other modules are performed
there first (16 R347). -/
def Sys2Proof.Claim.MatrixCompletions : Prop :=
  (∀ (s : State) (k id : Nat) (g : Group) (e : EngOp), s.group k = some g → (g.ops.find? fun o => o.id == id) = some e →
    (∀ t tile, e.kind = .mma t tile →
      exec (.mmaComplete k id) s = .next (s.setGroup k { g with
        ops := g.ops.filter fun o => o.id != id, t := g.t.wr t tile, log := g.log ++ [(.mmaDone id, s.bell.toNat)] })) ∧
    (∀ rows tile bar, e.kind = .mst rows tile bar → asksOf s (.op k id) = [] →
      ∃ t, exec (.mstComplete k id) s = .next t ∧ t.group k = some { g with ops := g.ops.filter fun o => o.id != id } ∧
        (∀ j, j ≠ k → t.group j = s.group j) ∧
        (let M := ((List.range 256).filter fun n => !e.landed.contains n).foldl (landElem rows tile) s
         t.mem = M.mem ∧ Arrives M t g bar)) ∧
    ∀ (rows : List (List (Loc × Nat))) tr bar, e.kind = .mld (rows.map .here) tr bar → rows.length = 16 → asksOf s (.op k id) = [] →
      rowsOwned s (rows.map .here) = false → ∀ x S, sramLocs s (s.vfOf g) ((rows.map Place.here).flatMap Place.all) = (x, S) →
      (∀ c, x = some c → exec (.mldComplete k id) s = .next (endContext S (s.vfOf g) c 0)) ∧
      (x = none → ∃ t G, exec (.mldComplete k id) s = .next t ∧ t.group k = some G ∧ t.mem = S.mem ∧ (∀ j, j ≠ k → t.group j = S.group j) ∧
        G = { g with ops := g.ops.filter fun o => o.id != id, t := G.t } ∧ (∀ n, n ≠ tr → G.t.rd n = g.t.rd n) ∧ Arrives S t g bar ∧
        ∀ i j, i < 16 → j < 16 → (G.t.rd tr).rd (tileIx i j) = BitVec.ofNat 32 (field (S.readLocs (rows.getD i [])) (4 * j) 4))) ∧
  ∀ (rows : List Place) (tile : Bank 8 W32) (s : State) (i j : Nat) (l : Loc) (m : Nat), i < 16 → j < 16 → rows[i]? = some (.here [(l, m)]) →
    landElem rows tile s (16 * i + j) = s.writeLoc (l.plus (4 * j)) (natLe 4 (tile.rd (tileIx i j)).toNat)

/-- `dld`, `dst`, `dset`, `tstat` and `tresume` (07 R182, R188): 64 bytes to or from a descriptor register, one field of one, the
state of a slot, and a faulted copy set running where it stands, with the lines that it owns again. -/
def Sys2Proof.Claim.DescriptorsAndSlots : Prop :=
  ∀ (h : Hdr) (s : State) (r : PathRef) (g : Group) (p : Path), p.hold = false →
    (∀ o l ls, Issues s r g p h (uDld o) → l.at_ = [(0, .here ls)] →
      Reaches (cxOf s r g p h (uDld o)) (issuedSt s r g p h (uDld o)) (some p.mask) (eSpace o.sp) 64 .rd true false
        [(0, p.getS o.a + o.off.signExtend 64)] l →
      CompletesIn (.dld h o) h s r g p l.s l.s noByte fun G q => (∀ n, q.getS n = p.getS n) ∧
        G = { g with paths := G.paths, d := g.d.wr o.d (BitVec.ofNat 512 (leNat (l.s.readLocs ls))) }) ∧
    (∀ o l ls, Issues s r g p h (uDst o) → l.at_ = [(0, .here ls)] →
      Reaches (cxOf s r g p h (uDst o)) (issuedSt s r g p h (uDst o)) (some p.mask) (eSpace o.sp) 64 .wr false true
        [(0, p.getS o.a + o.off.signExtend 64)] l →
      CompletesIn (.dst h o) h s r g p l.s (l.s.writeLocs ls (natLe 64 (g.d.rd o.d).toNat)) (inPlaces l.at_) fun G q =>
        G = g.setPath r.p q ∧ ∀ n, q.getS n = p.getS n) ∧
    (∀ o, Issues s r g p h (uDSet o) →
      CompletesIn (.dset h o) h s r g p s (issuedSt s r g p h (uDSet o)) noByte fun G q => (∀ n, q.getS n = p.getS n) ∧
        G = { g with paths := G.paths, d := G.d } ∧ (∀ k, k ≠ o.d → G.d.rd k = g.d.rd k) ∧
        dfield (G.d.rd o.d) (dFieldAt o.f).1 (dFieldAt o.f).2 = (p.opB o.b).toNat % 2 ^ (8 * (dFieldAt o.f).2) ∧
        ∀ k, k < 64 → k < (dFieldAt o.f).1 ∨ (dFieldAt o.f).1 + (dFieldAt o.f).2 ≤ k →
          dfield (G.d.rd o.d) k 1 = dfield (g.d.rd o.d) k 1) ∧
    (∀ o, WritesScalar (.tstat h o) h (uTStat o) o.d fun g _ =>
      let c := g.copies.rd o.a
      BitVec.ofNat 64 (c.cursor * 2 ^ 32 + c.tag.toNat * 2 ^ 16 + (if c.st = .faulted then c.tcause.toNat else 0) * 2 ^ 8 +
        (match c.st with | .idle => 0 | .running => 1 | .done => 2 | .faulted => 3))) ∧
    ∀ d x l, Issues s r g p h (uDReg d) → x = { g.copies.rd d with st := .running, tcause := 0, faddr := 0 } →
      l = boxLocs (issuedSt s r g p h (uDReg d)) (s.vfOf g) x →
      ((g.copies.rd d).st ≠ .faulted →
        CompletesIn (.tresume h d) h s r g p s (issuedSt s r g p h (uDReg d)) noByte fun G q => (∀ n, q.getS n = p.getS n) ∧ G = g.setPath r.p q) ∧
      ((g.copies.rd d).st = .faulted → LinesFree (issuedSt s r g p h (uDReg d)) (s.vfOf g) x l →
        CompletesIn (.tresume h d) h s r g p s { issuedSt s r g p h (uDReg d) with handle := s.handle + 1 } noByte fun G q =>
          (∀ n, q.getS n = p.getS n) ∧ G = { g with paths := G.paths, copies := G.copies } ∧
          (∀ k, k ≠ d → G.copies.rd k = g.copies.rd k) ∧ G.copies.rd d = x.withLines s l [])

/-- `tcopy` (07 R183-R187): past its checks, where no other operation owns a line that it writes and none of those lies at another module, it
fills its slot, owns those lines, and the path goes on; a slot that still runs holds the path where it is, a faulted one and a malformed
descriptor raise their causes. -/
def Sys2Proof.Claim.CopiesStart : Prop :=
  ∀ h o s r g p, Issues s r g p h (uTCopy o) →
    (∀ (origin : Bank 2 W32) (x : Copy) (l : List (Nat × Nat × Loc)), p.hold = false → (g.copies.rd o.d).st = .idle ∨ (g.copies.rd o.d).st = .done → dCheck (g.d.rd o.d) = none →
      (∀ b, o.bar = some b → s.barValid g b = true) → (p.getS o.a).toNat % 16 = 0 → 0 ≤ (p.getS o.a).toInt →
      (p.getS o.a).toInt + dLocal (g.d.rd o.d) ≤ (allocSize s g (localSpace o.dir) : Int) →
      origin.rd 0 = (p.getS o.b).setWidth 32 → origin.rd 1 = (p.getS o.b).extractLsb' 32 32 →
      origin.rd 2 = (p.getS (o.b + 1)).setWidth 32 → origin.rd 3 = (p.getS (o.b + 1)).extractLsb' 32 32 →
      tensorIsG o.dir = true ∨ tensorInScratch s g (g.d.rd o.d) origin = true →
      x = { Copy.idle with st := .running, desc := g.d.rd o.d, dir := o.dir, laddr := p.getS o.a, origin := origin, bar := o.bar,
                           tag := o.tag, own := p.mask } →
      l = boxLocs (issuedSt s r g p h (uTCopy o)) (s.vfOf g) x → LinesFree (issuedSt s r g p h (uTCopy o)) (s.vfOf g) x l →
      CompletesIn (.tcopy h o) h s r g p s { issuedSt s r g p h (uTCopy o) with handle := s.handle + 1 } noByte fun G q =>
        (∀ n, q.getS n = p.getS n) ∧
        G = { g with paths := G.paths, copies := G.copies, log := g.log ++ [(.copy o.tag o.dir, s.bell.toNat)] } ∧
        (∀ k, k ≠ o.d → G.copies.rd k = g.copies.rd k) ∧ G.copies.rd o.d = x.withLines s l []) ∧
    ((g.copies.rd o.d).st = .running → exec (.tcopy h o) s = .next s) ∧
    ((g.copies.rd o.d).st = .faulted → exec (.tcopy h o) s =
      .next (settleHold (deliver (issuedSt s r g p h (uTCopy o)) r
        { FaultInfo.at 0x15 p.mask (g.copies.rd o.d).faddr with
          sub := (g.copies.rd o.d).tcause, dindex := o.d.setWidth 8, code := BitVec.ofNat 32 (g.copies.rd o.d).cursor } p.pc (p.pc + hdrLen h)) r)) ∧
    ∀ off, (g.copies.rd o.d).st = .idle → dCheck (g.d.rd o.d) = some off → exec (.tcopy h o) s =
      .next (settleHold (deliver (issuedSt s r g p h (uTCopy o)) r
        { FaultInfo.of 0x0D p.mask with detail := BitVec.ofNat 8 off, dindex := o.d.setWidth 8 } p.pc (p.pc + hdrLen h)) r)

/-- The engine takes a tile of a running copy (07 R184, R186): once every page of the tile is translated the elements move and the cursor
advances; after the last tile the copy is done, owns no line, and the barrier that it names receives its arrivals. A tile that cannot be
translated moves nothing, and the copy stops with the cause and the address. -/
def Sys2Proof.Claim.CopyTilesMove : Prop :=
  ∀ (s : State) (k : Nat) (d : DReg) (g : Group) (tm : Team) (c : Copy), s.group k = some g → s.team g.team = some tm → tm.core ≠ none →
    s.sram = [] → asksOf s (.copy k d) = [] → g.copies.rd d = c → c.st = .running → c.held = false → c.tile = none →
    (∀ l S T, tilePlaces s (s.vfOf g) tm.grid c (tileElems c.desc c.cursor) = (.ok l, S) → awayElems l = [] →
      arriveAll S (s.vfOf g) (if toGlobal c.dir then .wr else .rd) (if toGlobal c.dir then some c.since else none)
        ((tilePhys c l).map (·.1)) ((tilePhys c l).map (·.2)) = (none, T) →
      let M := (List.range l.length).foldl (moveElem g c [] l) T
      ∃ t G, exec (.tcopyTile k d) s = .next t ∧ t.group k = some G ∧ (∀ j, j ≠ k → t.group j = s.group j) ∧ t.mem = M.mem ∧
        t.grids = M.grids ∧ (∀ n, (t.team n).map (·.shared) = (M.team n).map (·.shared)) ∧
        (∀ j, j ≠ d → G.copies.rd j = g.copies.rd j) ∧
        (c.cursor + 1 < tileCount c.desc → G = { g with copies := G.copies } ∧ G.copies.rd d = { c with
              cursor := c.cursor + 1
              lines := (c.lines.filter fun x => x.1 != c.cursor) ++
                if toGlobal c.dir then ((tilePhys c l).map fun x => (c.cursor, x.2.1, x.2.2)).filter fun x => paClass x.2.1 != 1 else [] } ∧
          Arrives M t g none) ∧
        (tileCount c.desc ≤ c.cursor + 1 →
          G = { g with copies := G.copies, log := g.log ++ [(.copyDone c.tag c.dir, s.bell.toNat)] } ∧
          G.copies.rd d = { c with cursor := c.cursor + 1, st := .done, lines := [], claims := [] } ∧ Arrives M t g c.bar c.owes)) ∧
    ∀ l a cause S, tilePlaces s (s.vfOf g) tm.grid c (tileElems c.desc c.cursor) = (.bad l a (.cause cause), S) → awayElems l = [] →
      ∃ t G, exec (.tcopyTile k d) s = .next t ∧ t.group k = some G ∧
        t = { tellClaims S (s.vfOf g) c .cancel with groups := t.groups } ∧
        G = { g with copies := G.copies } ∧ (∀ j, j ≠ d → G.copies.rd j = g.copies.rd j) ∧
        G.copies.rd d = { c with st := .faulted, tcause := cause, faddr := BitVec.ofNat 64 a, lines := [], claims := [] }

/-- Barrier instructions (07 R190-R194): set up, arrivals that turn the phase at every EXPECT of them, the question whether it has turned,
and the end. `binit` on a valid barrier or with a count that is not 1 to 65,535, and every other one but `binval` on a barrier that is not
valid, raise BARRIER_INVALID. -/
def Obligations.BarrierInstructions : Prop :=
  ∀ (h : Hdr) (s : State) (r : PathRef) (g : Group) (p : Path), p.hold = false →
    (∀ o n, Issues s r g p h (uBInit o) →
      n = (match o.n with | .reg a => (p.getS a).toNat | .imm v => v.toNat) → 1 ≤ n → n ≤ 65535 → (s.bar g o.bar).isSome →
      s.barValid g o.bar = false →
      CompletesIn (.binit h o) h s r g p s
        ((issuedSt s r g p h (uBInit o)).setBar g o.bar { valid := true, expect := n, count := 0, phase := false }) noByte fun G q =>
        G = g.setPath r.p q ∧ ∀ k, q.getS k = p.getS k) ∧
    (∀ o n, Issues s r g p h (uBInit o) →
      n = (match o.n with | .reg a => (p.getS a).toNat | .imm v => v.toNat) → s.barValid g o.bar = true ∨ n = 0 ∨ 65535 < n →
      exec (.binit h o) s =
        .next (settleHold (deliver (issuedSt s r g p h (uBInit o)) r (FaultInfo.of 0x0E p.mask) p.pc (p.pc + hdrLen h)) r)) ∧
    (∀ i u b d n x, (∃ o, i = .barr h o ∧ u = uBArr o ∧ b = .team o.bar ∧ d = o.d ∧ n = o.n) ∨
        (∃ o, i = .cbarr h o ∧ u = uCBArr o ∧ b = .cluster o.bar ∧ d = o.d ∧ n = o.n) →
      Issues s r g p h u → faultedOn g b = none → s.bar g b = some x →
      (x.valid = true → CompletesIn i h s r g p s
        ((issuedSt s r g p h u).setBar g b
          (let m := x.count + (if n = 0 then 1 else BitVec.toNat n)
           { x with count := m % x.expect, phase := x.phase != (m / x.expect % 2 == 1) })) noByte fun G q =>
        G = g.setPath r.p q ∧ ∀ k, q.getS k = if k = d ∧ k ≠ 0 then (if x.phase then 1 else 0) else p.getS k) ∧
      (x.valid = false → exec i s =
        .next (settleHold (deliver (issuedSt s r g p h u) r (FaultInfo.of 0x0E p.mask) p.pc (p.pc + hdrLen h)) r))) ∧
    (∀ i u b d a x, (∃ o, i = .btry h o ∧ u = uBTry o ∧ b = .team o.bar ∧ d = o.d ∧ a = o.b) ∨
        (∃ o, i = .cbtry h o ∧ u = uCBTry o ∧ b = .cluster o.bar ∧ d = o.d ∧ a = o.b) →
      Issues s r g p h u → faultedOn g b = none → s.bar g b = some x →
      (x.valid = false → exec i s =
        .next (settleHold (deliver (issuedSt s r g p h u) r (FaultInfo.of 0x0E p.mask) p.pc (p.pc + hdrLen h)) r)) ∧
      (x.valid = true → x.phase ≠ (p.getS a).getLsbD 0 →
        CompletesIn i h s r g p s (issuedSt s r g p h u) noByte fun G q => (∀ k, q.getS k = p.getS k) ∧
          G = { g with paths := G.paths, k := G.k } ∧
          ∀ n l, (G.getK n).has l = if n = d ∧ n ≠ 0 ∧ p.mask.has l then true else (g.getK n).has l) ∧
      (x.valid = true → x.phase = (p.getS a).getLsbD 0 → ∃ t G q, exec i s = .next t ∧ t.path r = some (G, q) ∧
        t = { issuedSt s r g p h u with groups := t.groups } ∧ G.live r.p = false ∧
        q.st = .susp (.btry b d ((p.getS a).getLsbD 0) (p.pc + hdrLen h) (cycleOf s g)) ∧ q.pc = p.pc ∧
        (∀ n, q.getS n = p.getS n) ∧ ∀ n, G.getK n = g.getK n)) ∧
    ∀ b x, Issues s r g p h Uses.none → faultedOn g b = none → owedArrival (issuedSt s r g p h Uses.none) g b = false → s.bar g b = some x →
      CompletesIn (.binval h b) h s r g p s
        (if x.valid then (issuedSt s r g p h Uses.none).setBar g b { x with valid := false } else issuedSt s r g p h Uses.none) noByte
        fun G q => G = g.setPath r.p q ∧ ∀ k, q.getS k = p.getS k

/-- A path suspended in `btry` or `cbtry` returns (07 R193): when the phase has turned, with ones in the predicate's MASK lanes; after the
waiting time, with whether it has. -/
def Sys2Proof.Claim.BarrierWaitsEnd : Prop :=
  ∀ (r : PathRef) (s : State) (g : Group) (p : Path) (b : Bar) (d : KReg) (want : Bool) (npc : W64) (since : Nat) (x : Barrier) (i : Instr),
    s.path r = some (g, p) → p.st = .susp (.btry b d want npc since) → g.ser = none → s.bar g b = some x →
    (i = .btryWake r ∧ x.phase ≠ want ∨ i = .btryTimeout r ∧ since + Config.waitCycles ≤ cycleOf s g) →
    ∃ t G q, exec i s = .next t ∧ t.path r = some (G, q) ∧ t = { s with groups := t.groups } ∧ q.st = .ready ∧ q.pc = npc ∧
      (G.live r.p = true ∨ r.p ∈ G.fifo) ∧ (∀ k, k ≠ r.g → t.group k = s.group k) ∧ (∀ n, q.getS n = p.getS n) ∧
      ∀ n l, (G.getK n).has l = if n = d ∧ n ≠ 0 ∧ p.mask.has l then x.phase != want else (g.getK n).has l

/-! ### Traversal, texture, coverage (07 R195-R208) -/

/-- `rbox4`, `rtri` and `cover` (07 R196-R199, R208): each EMASK lane's result words come from its own registers and the bytes at its
own address, and are on their way to the registers, but for those that have left the window since the instruction first issued (01 R9). -/
def Sys2Proof.Claim.TraversalAndCoverage : Prop :=
  ∀ (h : Hdr) (s : State) (r : PathRef) (g : Group) (p : Path) (o : Trav), p.hold = false → emaskOf g p h ≠ 0 →
    (∀ (i : Instr) (u : Uses) (z align n : Nat) (f : Ray → List W8 → List W32) (S : State) (ps : List (Lane × Place)),
      (i = .rbox4 h o ∧ u = uRBox o ∧ z = 128 ∧ align = 128 ∧ n = 5 ∧ f = boxWords) ∨
        (i = .rtri h o ∧ u = uRTri o ∧ z = 48 ∧ align = 16 ∧ n = 4 ∧ f = triHit) →
      Issues s r g p h u → (∀ l, (emaskOf g p h).has l = true → (g.pair o.b l).toNat % align = 0) →
      globalPlaces (cxOf s r g p h u) (issuedSt s r g p h u) none .rd
        ((emaskOf g p h).lanes.map fun l => ⟨l, g.pair o.b l, lineChunks (g.pair o.b l).toNat z⟩) = .ok (S, ps) →
      (∀ x ∈ ps, ∃ ls, x.2 = .here ls) →
      CompletesIn i h s r g p S { S with handle := s.handle + 1 } noByte fun G q => (∀ k, q.getS k = p.getS k) ∧
        ∃ rs : List (VReg × Lanes W32), G = { g with paths := G.paths, lands := g.lands ++ [Land.mk s.handle (emaskOf g p h)
            (rs.filter fun x => (p.issued g h u).keeps x.1)] } ∧
          rs.length = n ∧ ∀ k, k < n → ∃ x, rs[k]? = some (o.d + BitVec.ofNat 8 k, x) ∧
            ∀ l ls, (l, .here ls) ∈ ps → x.rd l = (f (rayOf g o.a l) (S.readLocs ls)).getD k 0) ∧
    (Issues s r g p h (uCover o) →
      CompletesIn (.cover h o) h s r g p s { issuedSt s r g p h (uCover o) with handle := s.handle + 1 } noByte fun G q =>
        (∀ k, q.getS k = p.getS k) ∧ ∃ x : Lanes W32,
          G = { g with paths := G.paths, lands := g.lands ++ [Land.mk s.handle (emaskOf g p h)
            ([(o.d, x)].filter fun y => (p.issued g h (uCover o)).keeps y.1)] } ∧
          ∀ l, x.rd l = coverage ((List.range 6).map fun i => (g.seen (o.a + BitVec.ofNat 8 i)).rd l) ((g.seen o.b).rd l) ((g.seen (o.b + 1)).rd l))

/-- A box test lists the children that the ray meets, nearest first, and counts them (07 R197). -/
def Sys2Proof.Claim.BoxTestOrders : Prop :=
  ∀ (r : Ray) (node : List W8),
    ∃ hs : List (Ext × W32), boxHits r node = hs.map (·.2) ∧ hs.Pairwise (fun a b => a.1.le b.1 = true) ∧
      hs.Perm ([0, 1, 2, 3].filterMap fun c =>
        if word32 node (96 + 4 * c) = 0xFFFFFFFF then none
        else (boxHit r (axes.map fun x => word32 node (24 * c + 4 * x)) (axes.map fun x => word32 node (24 * c + 12 + 4 * x))).map
          fun k => (k, word32 node (96 + 4 * c))) ∧
      boxWords r node = (List.range 4).map (fun i => (hs.map (·.2)).getD i 0xFFFFFFFF) ++ [BitVec.ofNat 32 hs.length]

/-- `tex` (07 R207): each channel of a lane is the sum, rounded once, of its texels' elements times their weights; a coordinate that is no
number gives NaN in every channel; with no lane in EMASK nothing is read or written. A descriptor that is no texture faults: that the fault names
every lane of MASK, and is raised with no lane in EMASK too, is the model's choice (log entry 41). -/
def Obligations.TextureSamples : Prop :=
  ∀ (h : Hdr) (o : Tex) (s : State) (r : PathRef) (g : Group) (p : Path) (S : State) (ps : List (Lane × Place)) (d : BitVec 512),
    Issues s r g p h (uTex o) → d = g.d.rd o.b →
    (∀ off, texCheck d = some off → exec (.tex h o) s = .next (settleHold (deliver (issuedSt s r g p h (uTex o)) r
      { FaultInfo.of 0x0D p.mask with detail := BitVec.ofNat 8 off } p.pc (p.pc + hdrLen h)) r)) ∧
    (p.hold = false → emaskOf g p h = 0 → texCheck d = none → dDim d 0 ≠ 0 → dDim d 1 ≠ 0 →
      CompletesIn (.tex h o) h s r g p s (issuedSt s r g p h (uTex o)) noByte fun G q => G = g.setPath r.p q ∧ ∀ k, q.getS k = p.getS k) ∧
    (p.hold = false → emaskOf g p h ≠ 0 → texCheck d = none → dDim d 0 ≠ 0 → dDim d 1 ≠ 0 →
      ∀ (z : Nat) (at_ : Lane → Option (List ((Nat × Nat) × Nat))) (qs : List (Lane × W64)), z = dElem (dType d) →
      (∀ l, at_ l = texels o d ((g.seen o.a).rd l) ((g.seen (o.a + 1)).rd l)) →
      qs = (emaskOf g p h).lanes.flatMap (fun l => match at_ l with | some ts => (texReads d ts).map fun a => (l, a) | none => []) →
      (∀ q ∈ qs, q.2.toNat % z = 0) →
      globalPlaces (cxOf s r g p h (uTex o)) (issuedSt s r g p h (uTex o)) none .rd
        (qs.map fun q => ⟨q.1, q.2, lineChunks q.2.toNat z⟩) = .ok (S, ps) →
      (∀ x ∈ ps, ∃ ls, x.2 = .here ls) →
      CompletesIn (.tex h o) h s r g p S { S with handle := s.handle + 1 } noByte fun G q => (∀ k, q.getS k = p.getS k) ∧
        ∃ rs : List (VReg × Lanes W32), G = { g with paths := G.paths, lands := g.lands ++ [Land.mk s.handle (emaskOf g p h)
            (rs.filter fun x => (p.issued g h (uTex o)).keeps x.1)] } ∧
          rs.length = 4 ∧ ∀ c, c < 4 → ∃ x, rs[c]? = some (o.d + BitVec.ofNat 8 c, x) ∧
            ∀ l, (emaskOf g p h).has l = true → x.rd l = match at_ l with
              | none => 0x7FC00000
              | some ts => BitVec.ofNat 32 (sumRound .f32 (.mode .rne) ((ts.zip (List.range ts.length)).map fun t =>
                  (texelVal (dType d) (((ps.filter fun x => x.1 == l).map fun x => match x.2 with
                    | .here ls => S.readLocs ls
                    | .remote _ => []).getD (4 * t.2 + c) [])).mul (weight t.1.2))))

/-- One pass of the loop of `pairs` (07 R202). Of two leaves it emits a pair where their boxes overlap and, in a tree against itself, the first
has the lower index. Else it opens the first reference that is a node: its children whose boxes overlap the other's source go on the stack, slot 3
first, each with its source. -/
def Sys2Proof.Claim.PairsPass : Prop :=
  ∀ (s : State) (v : Reader) (ta tb : Tree) (self : Bool) (ar asrc br bsrc : W32),
    (isLeafRef ar = true → isLeafRef br = true → ∀ ba bb S T, readLeaf s v ta ar = (.ok ba, S) → readLeaf S v tb br = (.ok bb, T) →
      passOf s v ta tb self (ar, asrc, br, bsrc) =
        (if overlaps ba bb = true ∧ (self = true → refIndex ar < refIndex br) then .emit (refIndex ar) (refIndex br) else .nothing, T)) ∧
    (isLeafRef ar = false → ∀ d box S T, readNode s v ta ar = (.ok d, S) → sourceBox S v tb bsrc = (.ok box, T) →
      passOf s v ta tb self (ar, asrc, br, bsrc) = (.push ([3, 2, 1, 0].filterMap fun c =>
        if word32 d (96 + 4 * c) ≠ 0xFFFFFFFF ∧ overlaps (slotBox d c) box = true then
          some (word32 d (96 + 4 * c), (ar <<< 2) ||| BitVec.ofNat 32 c, br, bsrc) else none), T)) ∧
    (isLeafRef ar = true → isLeafRef br = false → ∀ d box S T, readNode s v tb br = (.ok d, S) → sourceBox S v ta asrc = (.ok box, T) →
      passOf s v ta tb self (ar, asrc, br, bsrc) = (.push ([3, 2, 1, 0].filterMap fun c =>
        if word32 d (96 + 4 * c) ≠ 0xFFFFFFFF ∧ overlaps (slotBox d c) box = true then
          some (ar, asrc, word32 d (96 + 4 * c), (br <<< 2) ||| BitVec.ofNat 32 c) else none), T))

/-- What a pass of a running `pairs` comes to (07 R202, R203, R205): the stack takes the children; a pair's record, with its flags and its number,
goes to the queue, and the loop goes on; a record that the queue refuses ends the loop with ones in K[P]; a stack beyond 252 entries, a reference
out of range, a handle that is no longer valid and a failing address stop it with their causes. Each stop first writes STATUS 1 and the stack as it
stood before the pass. -/
def Sys2Proof.Claim.PairsLoop : Prop :=
  ∀ (s S0 S : State) (r : PathRef) (g : Group) (p : Path) (x : PairsRun) (npc : W64) (e : PairEntry) (rest : List PairEntry) (P : Pass),
    s.path r = some (g, p) → g.pairs.rd r.p = some x → p.st = .susp (.pairs npc) → x.stop = none → x.stack = e :: rest → x.words = [] →
    asksOf s (.pairs r) = [] → S0 = setPairs (dropAsks { s with unit := unitOf s (.pass r) } (.pairs r)) r (some x) →
    passOf S0 { vf := s.vfOf g, since := x.since, words := [] } (parseTree x.ta) (parseTree x.tb) (x.a == x.b) e = (P, S) →
    (∀ y, (P = .nothing ∧ y = { x with stack := rest } ∨
        ∃ es, P = .push es ∧ es.length + rest.length ≤ 252 ∧ y = { x with stack := es.reverse ++ rest }) →
      ∃ t G, act (.pass r) s = .next t ∧ t = { S with groups := t.groups, unit := s.unit } ∧ t.path r = some (G, p) ∧
        G = { g with pairs := g.pairs.wr r.p (some y) }) ∧
    (∀ a b n q, P = .emit a b → handleAt S (s.vfOf g) (g.q.rd x.o.q) = .here n → S.queues.get n = some q → q.count + q.kept < q.cap →
      ∃ t G, act (.pass r) s = .next t ∧ t.path r = some (G, p) ∧ t.queues.get n = some { q with count := q.count + 1 } ∧
        G = { g with pairs := g.pairs.wr r.p (some { x with stack := rest, seq := x.seq + 1, emitted := true }) } ∧
        t.mem = (S.writePa [(q.store + 32 * ((q.head + q.count) % q.cap), 32)]
          (natLe 4 a ++ natLe 4 b ++ natLe 2 (parseTree x.ta).tag ++ natLe 2 (parseTree x.tb).tag ++
            natLe 4 ((if x.a = x.b then 1 else 0) + if x.resumed = true ∧ x.emitted = false then 2 else 0) ++ natLe 8 x.seq.toNat ++ zeros 8)).mem) ∧
    (x.recAsk = [] → g.ser = none → ∀ a b n q T, P = .emit a b → handleAt S (s.vfOf g) (g.q.rd x.o.q) = .here n → S.queues.get n = some q →
      q.cap ≤ q.count + q.kept →
      arriveAll (queueEvent S n 1 g.lin) (s.vfOf g) .wr (some x.since) []
        ((recordHere x (recordBytes x 1 x.stack)).map fun y => (y.1, y.2.length)) false true = (none, T) →
      ∃ t G Q, act (.pass r) s = .next t ∧ t.path r = some (G, Q) ∧ Q.pc = npc ∧ Q.st = .ready ∧ G.pairs.rd r.p = none ∧
        (G.live r.p = true ∨ r.p ∈ G.fifo) ∧ t.mem = (writeHere T (recordHere x (recordBytes x 1 x.stack))).mem ∧
        ∀ k l, (G.getK k).has l = if k = x.o.kp ∧ k ≠ 0 ∧ p.mask.has l then true else (g.getK k).has l) ∧
    (x.recAsk = [] → ∀ f T,
      (∃ es, P = .push es ∧ 252 < es.length + rest.length ∧ f = { FaultInfo.of 0x0D p.mask with detail := 0xFF, code := 252 }) ∨
        (∃ ref, P = .range ref ∧ f = { FaultInfo.of 0x0D p.mask with detail := 0xFE, code := ref }) ∨
        (∃ a b, P = .emit a b ∧ (∀ n, handleAt S (s.vfOf g) (g.q.rd x.o.q) ≠ .here n) ∧ f = FaultInfo.of 0x21 p.mask) ∨
        (∃ a c, P = .fail a (.cause c) ∧ f = FaultInfo.at c p.mask (BitVec.ofNat 64 a)) →
      arriveAll S (s.vfOf g) .wr (some x.since) []
        ((recordHere x (recordBytes x 1 x.stack)).map fun y => (y.1, y.2.length)) false true = (none, T) →
      act (.pass r) s = .next { faultSuspended
        (setPairs (dropAsks (writeHere T (recordHere x (recordBytes x 1 x.stack))) (.pairs r)) r none) r f with unit := s.unit })

/-- `pairs` (07 R201-R205): a record that is complete sets the predicate to zero and the path goes on; else the path suspends with
the traversal where the record has it, and the traversal runs pass by pass; when its stack is empty, the record says so and the path returns with
zero; a stop writes the stack as it stands. -/
def Obligations.PairsTraversal : Prop :=
  Sys2Proof.Claim.PairsPass ∧ Sys2Proof.Claim.PairsLoop ∧
  (∀ (h : Hdr) (o : Pairs) (s : State) (r : PathRef) (g : Group) (p : Path) (n : Nat) (S : State) (la lb ld : List (Loc × Nat))
      (ls : List Lane) (a b d q : W64),
    Issues s r g p h (uPairs o) → p.hold = false → a = p.getS o.a → b = p.getS o.b → d = p.getS o.d → q = g.q.rd o.q →
    handleAt s (s.vfOf g) q = .here n → q.getLsbD 26 = true → q.getLsbD 24 = false → a &&& 63 = 0 → b &&& 63 = 0 → d &&& 63 = 0 →
    pairsPlaces (cxOf s r g p h (uPairs o)) (issuedSt s r g p h (uPairs o))
        [⟨0, a, pagesOf a.toNat 64⟩, ⟨0, b, pagesOf b.toNat 64⟩, ⟨0, d, pagesOf d.toNat 4096⟩] =
      .ok (S, ls.zip [.here la, .here lb, .here ld]) → ls.length = 3 →
    treeCheck (S.readLocs la) = none → treeCheck (S.readLocs lb) = none →
    (readHeader (S.readLocs ld) a b (parseTree (S.readLocs la)).root (parseTree (S.readLocs lb)).root = .complete →
      CompletesIn (.pairs h o) h s r g p S S noByte fun G q => (∀ k, q.getS k = p.getS k) ∧ G = { g with paths := G.paths, k := G.k } ∧
        ∀ k l, (G.getK k).has l = if k = o.kp ∧ k ≠ 0 ∧ p.mask.has l then false else (g.getK k).has l) ∧
    (∀ stack seq resumed,
      readHeader (S.readLocs ld) a b (parseTree (S.readLocs la)).root (parseTree (S.readLocs lb)).root = .go stack seq resumed →
      ∃ t G Q x, exec (.pairs h o) s = .next t ∧ t.path r = some (G, Q) ∧
        t = { S with groups := t.groups, handle := s.handle + 1 } ∧ G.live r.p = false ∧
        Q.st = .susp (.pairs (p.pc + hdrLen h)) ∧ Q.pc = p.pc ∧ G.pairs.rd r.p = some x ∧ x.stack = stack ∧ x.seq = seq ∧
        x.resumed = resumed ∧ x.a = a ∧ x.b = b ∧ x.recAddr = d ∧ x.rec_ = .here ld ∧ x.recAsk = [] ∧ x.stop = none)) ∧
  ∀ (s : State) (r : PathRef) (g : Group) (p : Path) (x : PairsRun) (npc : W64), s.path r = some (g, p) →
    g.pairs.rd r.p = some x → p.st = .susp (.pairs npc) → x.stop = none → x.recAsk = [] → asksOf s (.pairs r) = [] →
    (∀ T, x.stack = [] → g.ser = none →
      arriveAll { s with unit := unitOf s (.pass r) } (s.vfOf g) .wr (some x.since) []
        ((recordHere x (recordBytes x 2 [])).map fun y => (y.1, y.2.length)) false true = (none, T) →
      ∃ t G q, act (.pass r) s = .next t ∧ t.path r = some (G, q) ∧ q.pc = npc ∧ q.st = .ready ∧ G.pairs.rd r.p = none ∧
        (G.live r.p = true ∨ r.p ∈ G.fifo) ∧ t.mem = (writeHere T (recordHere x (recordBytes x 2 []))).mem ∧
        ∀ k l, (G.getK k).has l = if k = x.o.kp ∧ k ≠ 0 ∧ p.mask.has l then false else (g.getK k).has l) ∧
    (∀ T, p.hold = false →
      arriveAll s (s.vfOf g) .wr (some x.since) [] ((recordHere x (recordBytes x 1 x.stack)).map fun y => (y.1, y.2.length)) false true =
        (none, T) →
      ∃ t G, exec (.pairsStop r) s = .next t ∧ t.path r = some (G, p) ∧ G = { g with pairs := g.pairs.wr r.p none } ∧
        t.mem = (writeHere T (recordHere x (recordBytes x 1 x.stack))).mem)

/-! ### Queues, launches (07 R210-R216) -/

/-- `qenq` and `qeos` on a queue of this module (07 R210-R212, 16 R332, R334): the record goes to the tail and the predicate reads zero, or
the queue is full, nothing is stored and it reads one; posts saturate. -/
def Sys2Proof.Claim.QueuesTakeRecords : Prop :=
  ∀ (h : Hdr) (s : State) (r : PathRef) (g : Group) (p : Path) (n : Nat) (q : HwQueue), p.hold = false → s.queues.get n = some q →
    (∀ o, Issues s r g p h (uQEnq o) → handleAt s (s.vfOf g) (g.q.rd o.q) = .here n → (g.q.rd o.q).getLsbD 26 = true →
      (q.count + q.kept < q.cap →
        CompletesIn (.qenq h o) h s r g p s
          (((issuedSt s r g p h (uQEnq o)).writePa [(q.store + 32 * ((q.head + q.count) % q.cap), 32)]
            (allLanes.flatMap fun l => natLe 4 ((g.seen o.d).rd l).toNat)).setQueue n { q with count := q.count + 1 })
          (fun a => q.store + 32 * ((q.head + q.count) % q.cap) ≤ a ∧ a < q.store + 32 * ((q.head + q.count) % q.cap) + 32)
          fun G Q => (∀ k, Q.getS k = p.getS k) ∧ G = { g with paths := G.paths, k := G.k } ∧
            ∀ k l, (G.getK k).has l = if k = o.kp ∧ k ≠ 0 ∧ p.mask.has l then false else (g.getK k).has l) ∧
      (q.cap ≤ q.count + q.kept →
        CompletesIn (.qenq h o) h s r g p s (queueEvent (issuedSt s r g p h (uQEnq o)) n 1 g.lin) noByte
          fun G Q => (∀ k, Q.getS k = p.getS k) ∧ G = { g with paths := G.paths, k := G.k } ∧
            ∀ k l, (G.getK k).has l = if k = o.kp ∧ k ≠ 0 ∧ p.mask.has l then true else (g.getK k).has l)) ∧
    ∀ d, Issues s r g p h (uQEos d) → handleAt s (s.vfOf g) (g.q.rd d) = .here n → (g.q.rd d).getLsbD 26 = true →
      CompletesIn (.qeos h d) h s r g p s ((issuedSt s r g p h (uQEos d)).setQueue n { q with posts := min 65535 (q.posts + 1) }) noByte
        fun G Q => G = g.setPath r.p Q ∧ ∀ k, Q.getS k = p.getS k

/-- `qdeq` takes the record at the head and `qsteal` the one at the tail (07 R210, R211): word l of it is on its way to lane l; an
empty queue gives a one, and whether its stream has ended. With no lane in EMASK no record is removed and nothing is written. -/
def Sys2Proof.Claim.QueuesGiveRecords : Prop :=
  ∀ (h : Hdr) (s : State) (r : PathRef) (g : Group) (p : Path) (n : Nat) (q : HwQueue) (o : QDeq) (i : Instr) (tail : Bool),
    p.hold = false → s.queues.get n = some q → Issues s r g p h (uQDeq o) →
    handleAt s (s.vfOf g) (g.q.rd o.q) = .here n → (g.q.rd o.q).getLsbD 24 = false →
    (i = .qdeq h o ∧ tail = false ∧ (g.q.rd o.q).getLsbD 27 = true ∨ i = .qsteal h o ∧ tail = true ∧ (g.q.rd o.q).getLsbD 28 = true) →
    (emaskOf g p h = 0 →
      CompletesIn i h s r g p s (issuedSt s r g p h (uQDeq o)) noByte fun G Q => G = g.setPath r.p Q ∧ ∀ k, Q.getS k = p.getS k) ∧
    (emaskOf g p h ≠ 0 → 0 < q.count →
      CompletesIn i h s r g p s { (issuedSt s r g p h (uQDeq o)).setQueue n
          { q with count := q.count - 1, head := if tail then q.head else (q.head + 1) % q.cap } with handle := s.handle + 1 } noByte
        fun G Q => (∀ k, Q.getS k = p.getS k) ∧
          (∃ x : Lanes W32, G = { g with paths := G.paths, k := G.k, lands := g.lands ++ [Land.mk s.handle (emaskOf g p h)
              ([(o.d, x)].filter fun y => (p.issued g h (uQDeq o)).keeps y.1)] } ∧
            ∀ l, x.rd l = BitVec.ofNat 32 (s.mem.le
              (q.store + 32 * ((q.head + (if tail then q.count - 1 else 0)) % q.cap) + 4 * l.toNat) 4)) ∧
          ∀ k l, (G.getK k).has l = if k = o.kp ∧ k ≠ 0 ∧ (emaskOf g p h).has l then false else (g.getK k).has l) ∧
    (emaskOf g p h ≠ 0 → q.count = 0 →
      CompletesIn i h s r g p s (queueEvent (issuedSt s r g p h (uQDeq o)) n (if q.prod ≤ q.posts then 3 else 2) g.lin) noByte
        fun G Q => (∀ k, Q.getS k = p.getS k) ∧ G = { g with paths := G.paths, k := G.k } ∧
          ∀ k l, (G.getK k).has l =
            if k = o.ke ∧ k ≠ 0 ∧ (emaskOf g p h).has l then decide (q.prod ≤ q.posts)
            else if k = o.kp ∧ k ≠ 0 ∧ (emaskOf g p h).has l then true else (g.getK k).has l)

/-- The handle comes before everything else (07 R210, 16 R333): one that names no queue of the VF raises QUEUE_HANDLE_INVALID, then one without
the right, or of another module where the instruction admits none, raises QUEUE_RIGHTS. That both name every lane of MASK is the model's choice (log
entry 41). -/
def Sys2Proof.Claim.HandleChecks : Prop :=
  ∀ (h : Hdr) (i : Instr) (u : Uses) (q : QReg) (right : Nat) (far : Bool),
    (∃ o, i = .qenq h o ∧ u = uQEnq o ∧ q = o.q ∧ right = 26 ∧ far = true) ∨
      (∃ o, i = .qdeq h o ∧ u = uQDeq o ∧ q = o.q ∧ right = 27 ∧ far = false) ∨
      (∃ o, i = .qsteal h o ∧ u = uQDeq o ∧ q = o.q ∧ right = 28 ∧ far = false) ∨
      (∃ d, i = .qeos h d ∧ u = uQEos d ∧ q = d ∧ right = 26 ∧ far = true) ∨
      (∃ o, i = .rwq h o ∧ u = uRwq o ∧ q = o.q ∧ right = 26 ∧ far = true) ∨
      (∃ o, i = .pairs h o ∧ u = uPairs o ∧ q = o.q ∧ right = 26 ∧ far = false) →
    ∀ s r g p, Issues s r g p h u →
      (handleAt s (s.vfOf g) (g.q.rd q) = .bad → exec i s =
        .next (settleHold (deliver (issuedSt s r g p h u) r (FaultInfo.of 0x21 p.mask) p.pc (p.pc + hdrLen h)) r)) ∧
      ∀ n, handleAt s (s.vfOf g) (g.q.rd q) = .here n → (g.q.rd q).getLsbD right = false ∨ far = false ∧ (g.q.rd q).getLsbD 24 = true →
        exec i s = .next (settleHold (deliver (issuedSt s r g p h u) r (FaultInfo.of 0x20 p.mask) p.pc (p.pc + hdrLen h)) r)

/-- `rwq` to a queue and an address of this module (07 R213): a slot is kept while the pages translate, the payload is stored and its record
follows; where the queue is full, nothing happens but the predicate. -/
def Sys2Proof.Claim.PayloadsDeliver : Prop :=
  ∀ (h : Hdr) (s : State) (r : PathRef) (g : Group) (p : Path) (n : Nat) (q : HwQueue) (o : Rwq) (S S1 : State) (ls : List (Loc × Nat))
    (dst size : Nat) (d : List W8),
    p.hold = false → s.queues.get n = some q → Issues s r g p h (uRwq o) → handleAt s (s.vfOf g) (g.q.rd o.q) = .here n →
    (g.q.rd o.q).getLsbD 26 = true → d = (allLanes.flatMap fun l => natLe 4 ((g.seen o.d).rd l).toNat) → dst = field d 0 8 → size = field d 8 4 →
    4 ≤ size → size ≤ 4096 → size % 4 = 0 → p.getS o.b &&& 3 = 0 → dst % 4 = 0 → isDomain dst = false →
    globalPlaces (cxOf s r g p h (uRwq o)) (issuedSt s r g p h (uRwq o)) (some p.mask) .rd
      [⟨0, p.getS o.b, pagesOf (p.getS o.b).toNat size⟩] = .ok (S, [(0, .here ls)]) → S1 = dropAsks S (.path r) →
    (q.cap ≤ q.count + q.kept →
      CompletesIn (.rwq h o) h s r g p S (queueEvent S1 n 1 g.lin) noByte
        fun G Q => (∀ k, Q.getS k = p.getS k) ∧ G = { g with paths := G.paths, k := G.k } ∧
          ∀ k l, (G.getK k).has l = if k = o.kp ∧ k ≠ 0 ∧ p.mask.has l then true else (g.getK k).has l) ∧
    ∀ ps as S', q.count + q.kept < q.cap → (S.readLocs ls).length = size →
      (S1.setQueue n { q with kept := q.kept + 1 }).devAt (.path r) (s.vfOf g) .wr (pagesOf dst size)
        (fun i a => .write a (payloadPart (BitVec.ofNat 64 dst) (S.readLocs ls) ((pagesOf dst size).getD i (0, 0)))) = (.ok (ps, as), S') →
      CompletesIn (.rwq h o) h s r g p S'
        (((writeAllAt S' ps (S.readLocs ls)).writePa [(q.store + 32 * ((q.head + q.count) % q.cap), 32)] d).setQueue n
          { q with count := q.count + 1 })
        (fun a => (∃ b k, (Loc.pa b, k) ∈ ps ∧ b ≤ a ∧ a < b + k) ∨
          q.store + 32 * ((q.head + q.count) % q.cap) ≤ a ∧ a < q.store + 32 * ((q.head + q.count) % q.cap) + 32)
        fun G Q => (∀ k, Q.getS k = p.getS k) ∧ G = { g with paths := G.paths, k := G.k } ∧
          ∀ k l, (G.getK k).has l = if k = o.kp ∧ k ≠ 0 ∧ p.mask.has l then false else (g.getK k).has l

/-- `launch` and `lwait` (07 R214-R216, 16 R339-R341): each lane's record is accepted, with the next identifier of the VF, or refused with
all ones, once every kernel record can be read; a wait whose grids have all ended takes their causes, else the path suspends and returns when they have. -/
def Obligations.LaunchesAndWaits : Prop :=
  (∀ (h : Hdr) (s : State) (r : PathRef) (g : Group) (p : Path) (o : Launch) (S T U : State) (ps : List (Lane × Place))
      (xs : List (Lane × Option W32)),
    p.hold = false → Issues s r g p h (uLaunch o) → emaskOf g p h ≠ 0 → (∀ l, (emaskOf g p h).has l = true → (g.pair o.a l).toNat % 64 = 0) →
    globalPlaces (cxOf s r g p h (uLaunch o)) (issuedSt s r g p h (uLaunch o)) none .rd
      ((emaskOf g p h).lanes.map fun l => ⟨l, g.pair o.a l, lineChunks (g.pair o.a l).toNat 256⟩) = .ok (S, ps) →
    (∀ x ∈ ps, ∃ ls, x.2 = .here ls) →
    recordsReady (cxOf s r g p h (uLaunch o)) (ps.map fun x => S.readLocs x.2.all) S = (.ok (), U) →
    launchLanes (cxOf s r g p h (uLaunch o)) (ps.map fun x => (x.1, g.pair o.a x.1, S.readLocs x.2.all)) { U with uses := S.uses } = (xs, T) →
    CompletesIn (.launch h o) h s r g p T { T with handle := T.handle + 1 } noByte fun G q => (∀ k, q.getS k = p.getS k) ∧
      (∃ x : Lanes W32, G = { g with paths := G.paths, k := G.k, lands := g.lands ++ [Land.mk T.handle (emaskOf g p h)
          ([(o.d, x)].filter fun y => (p.issued g h (uLaunch o)).keeps y.1)] } ∧
        ∀ l id, (l, id) ∈ xs → x.rd l = id.getD 0xFFFFFFFF) ∧
      (∀ k l id, (l, id) ∈ xs → (G.getK k).has l = if k = o.kp ∧ k ≠ 0 then id.isNone else (g.getK k).has l) ∧
      ∀ k l, (emaskOf g p h).has l = false → (G.getK k).has l = (g.getK k).has l) ∧
  (∀ (c : Cx) (l : Lane) (a : W64) (d : List W8) (s : State), ∃ x t, launchLanes c [(l, a, d)] s = ([(l, x)], t) ∧
    (∀ (gd : Grid) (k : Kernel) (S : State), s.gridOf c.g = some gd → admitLaunch s c.vf gd.paddock (parseLaunch d) true = (.ok k, S) →
      x = some (S.vf c.vf).gridCounter ∧ (t.vf c.vf).gridCounter = nextGridId (S.vf c.vf).gridCounter ∧
      ∃ e, t.grid S.handle = some e ∧ e.gridid = (S.vf c.vf).gridCounter ∧ e.vf = c.vf ∧ e.launch = parseLaunch d ∧ e.kernel = k ∧
        e.q = c.g.q ∧ e.nextCluster = 0 ∧ e.ends = []) ∧
    (∀ (gd : Grid) (S : State), s.gridOf c.g = some gd → admitLaunch s c.vf gd.paddock (parseLaunch d) true = (.fail, S) → x = none ∧ t = S)) ∧
  (∀ (h : Hdr) (s : State) (r : PathRef) (g : Group) (p : Path) (o : LWait), p.hold = false → Issues s r g p h (uLWait o) → emaskOf g p h ≠ 0 →
    ((∀ l, (emaskOf g p h).has l = true → (childEnd s (s.vfOf g) ((g.seen o.a).rd l)).isSome) →
      CompletesIn (.lwait h o) h s r g p s { issuedSt s r g p h (uLWait o) with handle := s.handle + 1 } noByte fun G q =>
        (∀ k, q.getS k = p.getS k) ∧ ∃ x : Lanes W32,
          G = { g with paths := G.paths, lands := g.lands ++ [Land.mk s.handle (emaskOf g p h)
            ([(o.d, x)].filter fun y => (p.issued g h (uLWait o)).keeps y.1)] } ∧
          ∀ l c, (emaskOf g p h).has l = true → childEnd s (s.vfOf g) ((g.seen o.a).rd l) = some c → x.rd l = c.setWidth 32) ∧
    ((∃ l, (emaskOf g p h).has l = true ∧ childEnd s (s.vfOf g) ((g.seen o.a).rd l) = none) →
      ∃ t G q, exec (.lwait h o) s = .next t ∧ t.path r = some (G, q) ∧ t = { issuedSt s r g p h (uLWait o) with groups := t.groups } ∧
        G.live r.p = false ∧ q.st = .susp (.lwait o.d (emaskOf g p h) (fixedIds s (s.vfOf g) (g.seen o.a)) (p.pc + hdrLen h)) ∧ q.pc = p.pc)) ∧
  ∀ (s : State) (r : PathRef) (g : Group) (p : Path) (d : VReg) (m : Mask) (ids : Lanes W32) (npc : W64), s.path r = some (g, p) → g.ser = none →
    p.st = .susp (.lwait d m ids npc) → (∀ l, m.has l = true → (childEnd s (s.vfOf g) (ids.rd l)).isSome) →
    ∃ t G q, exec (.lwaitWake r) s = .next t ∧ t.path r = some (G, q) ∧ t = { s with groups := t.groups } ∧ q.st = .ready ∧ q.pc = npc ∧
      (G.live r.p = true ∨ r.p ∈ G.fifo) ∧
      ∀ n l, (G.getV n).rd l = if n = d ∧ m.has l ∧ p.keeps d then ((childEnd s (s.vfOf g) (ids.rd l)).getD 0).setWidth 32 else (g.getV n).rd l

/-! ### Exceptions and the system instructions (08 R217-R233) -/

/-- Taking an exception (08 R218, R219): the frame, in this module's memory or the host's, receives the report and the scalars; the faulting lanes go on at supervisor level at the
handler, s1 and s2 with the frame's address and the cause; what the path was is kept for its return. At supervisor level, or with no
handler, the context ends. -/
def Sys2Proof.Claim.ExceptionsEnter : Prop :=
  ∀ (s : State) (r : PathRef) (g : Group) (p : Path) (f : FaultInfo) (pc npc : W64), s.path r = some (g, p) →
    (p.sup = true → deliver s r f pc npc = endContext s (s.vfOf g) 0x32 f.cause) ∧
    (p.sup = false → (s.vf (s.vfOf g)).hentry = 0 → deliver s r f pc npc = endContext s (s.vfOf g) f.cause 0) ∧
    ∀ pa S, p.sup = false → (s.vf (s.vfOf g)).hentry ≠ 0 →
      translate s (s.vfOf g) (g.frameb + 1024 * r.p.setWidth 64).toNat 640 .wr = (.ok pa, S) → paClass pa ≠ 1 →
      ∃ G q, (deliver s r f pc npc).path r = some (G, q) ∧ q.mask = f.mask ∧ q.pc = (s.vf (s.vfOf g)).hentry ∧ q.sup = true ∧
        q.st = .ready ∧ q.fcause = f.cause ∧ q.fpc = pc ∧ q.win = [] ∧
        q.entry = some { mask := p.mask, s := p.s, written := p.written } ∧
        (∀ n, q.getS n = if n = 1 then g.frameb + 1024 * r.p.setWidth 64 else if n = 2 then f.cause.setWidth 64 else p.getS n) ∧
        (∀ l, G.faddr.rd l = if f.mask.has l then f.addr.rd l else g.faddr.rd l) ∧
        (∀ i, i ≠ r.p → G.paths.rd i = g.paths.rd i) ∧ (∀ n, G.getK n = g.getK n) ∧
        ((deliver s r f pc npc).vf (s.vfOf g)).ctr.rd 20 = (S.vf (s.vfOf g)).ctr.rd 20 + 1 ∧
        (S.mem.wf = true →
          let m := (deliver s r f pc npc).mem
          (∀ a, a < pa ∨ pa + 640 ≤ a → m.get a = S.mem.get a) ∧ m.le pa 1 = f.cause.toNat ∧ m.le (pa + 1) 1 = f.detail.toNat ∧
            m.le (pa + 4) 4 = f.code.toNat ∧ m.le (pa + 8) 8 = pc.toNat ∧ m.le (pa + 16) 8 = npc.toNat ∧ m.le (pa + 24) 1 = f.mask.toNat ∧
            m.le (pa + 25) 1 = p.mask.toNat ∧ m.le (pa + 26) 1 = r.p.toNat ∧ m.le (pa + 27) 1 = f.origin.toNat ∧
            (∀ l : Lane, f.mask.has l = true → m.le (pa + 32 + 8 * l.toNat) 8 = (f.addr.rd l).toNat) ∧
            ∀ n : SReg, m.le (pa + 128 + 8 * n.toNat) 8 = (p.getS n).toNat)

/-- `trap` and `brk` take their exceptions (08 R222), and complete at the handler where there is one and the frame can be written (08 R218); a
privileged instruction at user level and a register or tile outside the window, of whatever instruction, take theirs as it first issues (08
R217, R227, 01 R9, R14, 02 R70). -/
def Obligations.TrapsAndChecksTakeExceptions : Prop :=
  (∀ (h : Hdr) (n : W8), TakesException (.trap h n) h Uses.none (fun _ _ => True) fun _ p =>
    if 0x80 ≤ n.toNat then { FaultInfo.of n p.mask with origin := 1 } else { FaultInfo.of 0x0C p.mask with detail := n, origin := 1 }) ∧
  (∀ (h : Hdr) (n : BitVec 12), TakesException (.brk h n) h Uses.none (fun _ _ => True) fun _ p =>
    { FaultInfo.of 0x09 p.mask with code := n.setWidth 32, origin := 2 }) ∧
  (∀ (h : Hdr) (i : Instr) (c : W8) (s : State) (r : PathRef) (g : Group) (p : Path) (pa : Nat) (S : State),
    (∃ n : W8, i = .trap h n ∧ c = if 0x80 ≤ n.toNat then n else 0x0C) ∨ (∃ n, i = .brk h n ∧ c = 0x09) →
    Issues s r g p h Uses.none → p.hold = false → p.sup = false → (s.vf (s.vfOf g)).hentry ≠ 0 →
    translate (issuedSt s r g p h Uses.none) (s.vfOf g) (g.frameb + 1024 * r.p.setWidth 64).toNat 640 .wr = (.ok pa, S) → paClass pa ≠ 1 →
    ∃ t G q, exec i s = .next t ∧ t.path r = some (G, q) ∧ q.pc = (s.vf (s.vfOf g)).hentry ∧ q.mask = p.mask ∧ q.sup = true ∧ q.st = .ready ∧
      q.fcause = c ∧ q.fpc = p.pc ∧ q.entry = some { mask := p.mask, s := p.s, written := p.written } ∧
      (∀ n, q.getS n = if n = 1 then g.frameb + 1024 * r.p.setWidth 64 else if n = 2 then c.setWidth 64 else p.getS n) ∧
      (S.mem.wf = true → t.mem.le pa 1 = c.toNat ∧ t.mem.le (pa + 8) 8 = p.pc.toNat ∧ t.mem.le (pa + 16) 8 = (p.pc + hdrLen h).toNat ∧
        ∀ a, a < pa ∨ pa + 640 ≤ a → t.mem.get a = S.mem.get a)) ∧
  (∀ (h : Hdr) (i : Instr) (s : State) (r : PathRef) (g : Group) (p : Path), s.cur = some r → s.path r = some (g, p) → p.again = none →
    p.sup = false →
    ((∃ b, i = .fret h b) ∨ i = .sret h ∨ (∃ o, i = .pgmap h o) ∨ (∃ o, i = .tlbinv h o) ∨ (∃ b, i = .halt h b) ∨
      (∃ a, i = .cwr h (.faddr a)) ∨ ∃ a, i = .cwr h (.scalar .smask a) ∨ i = .cwr h (.scalar .fcause a) ∨ i = .cwr h (.scalar .fpc a)) →
    exec i s = .next (deliver s r (FaultInfo.of 0x02 p.mask) p.pc (p.pc + hdrLen h))) ∧
  ∀ (i : Instr) (h : Hdr) (u : Uses) (s : State) (r : PathRef) (g : Group) (p : Path), usesOf i = some (h, u) → s.cur = some r →
    s.path r = some (g, p) → p.again = none → (u.priv = true → p.sup = true) →
    ((∃ n, .v n ∈ u.rd ++ u.wr ∧ g.vwin ≤ BitVec.toNat n) ∨ ∃ n, .t n ∈ u.rd ++ u.wr ∧ g.acc ≤ BitVec.toNat n) →
    exec i s = .next (deliver s r (FaultInfo.of 0x03 p.mask) p.pc (p.pc + hdrLen h))

/-- The lookahead count, the debug points and the watchpoints (02 R58, 21 R416-R418): an instruction within a count that names a register of
the window faults as it first issues, instead of waiting; a path at user level whose PC an armed breakpoint names, or that is armed to step and has completed an
instruction since, faults before it fetches further; an access to shared memory or scratchpad that a watchpoint covers faults in the lanes that
touch it. -/
def Obligations.LookaheadAndDebugPoints : Prop :=
  (∀ (i : Instr) (h : Hdr) (u : Uses) (s : State) (r : PathRef) (g : Group) (p : Path) (w : Win) (x : Reg), usesOf i = some (h, u) →
    s.cur = some r → s.path r = some (g, p) → p.again = none → (u.priv = true → p.sup = true) → (u.rd ++ u.wr).any (outside g) = false → w ∈ p.win →
    x ∈ w.regs → x ∈ u.rd ++ u.wr → exec i s = .next (deliver s r (FaultInfo.of 0x06 p.mask) p.pc (p.pc + hdrLen h))) ∧
  (∀ (s S : State) (r : PathRef) (g : Group) (p : Path) (w0 : W64), fetchAt s r p.pc (Config.value64 s.free) = .word w0 S → lengthOk w0 = true →
    p.sup = false →
    (p.skipBp = false → (∃ i, (S.vf (S.vfOf g)).crook.bp.rd i = p.pc ||| 1) → fetchInstr s r g p =
      .out (settleHold (deliver S r { FaultInfo.of 0x09 p.mask with origin := 2 } p.pc (nextPc p.pc w0)) r)) ∧
    (p.skipBp = true ∨ (∀ i, (S.vf (S.vfOf g)).crook.bp.rd i ≠ p.pc ||| 1) → g.stepArm = true → 1 ≤ p.stepN → fetchInstr s r g p =
      .out (settleHold (deliver S r (FaultInfo.of 0x0A p.mask) p.pc (nextPc p.pc w0)) r))) ∧
  ∀ (c : Cx) (s : State) (whole : Option Mask) (z : Nat) (k : Acc) (rd wr : Bool) (qs : List (Lane × W64)) (t : Team), c.skip = false →
    s.team c.g.team = some t → (∀ q ∈ qs, q.2.toNat % z = 0) →
    ∀ hits, hits = qs.filter (fun q => decide (0 ≤ q.2.toInt ∧ q.2.toInt + z ≤ (t.size : Int)) &&
        watched s c.vf (.team c.g.team q.2.toNat) z rd wr) → hits ≠ [] →
      check c s whole .s z z k rd wr qs = .error (.fault s (faultOver whole 0x0B 0 hits))

/-- `fret` and `sret` (08 R223): the path takes the scalars and the PC of its frame, the lanes it had less those that exited, and user
level. That the bits [2:0] of the frame's PC are cleared is the model's reading (log entry 21). -/
def Sys2Proof.Claim.HandlersReturn : Prop :=
  ∀ (h : Hdr) (i : Instr) (after nobp : Bool) (s : State) (r : PathRef) (g : Group) (p : Path) (e : Entry) (pa : Nat) (S : State),
    (i = .fret h nobp ∧ after = false ∨ i = .sret h ∧ after = true ∧ nobp = false) →
    Issues s r g p h { uPriv with closes := true } → p.hold = false → (∀ z, g.ser = some z → z.p ≠ r.p ∨ z.sup = false) →
    p.entry = some e → e.mask ≠ 0 →
    translate (issuedSt s r g p h { uPriv with closes := true }) (s.vfOf g) (g.frameb + 1024 * r.p.setWidth 64).toNat 640 .rd = (.ok pa, S) →
    paClass pa ≠ 1 →
    ∃ t G q, exec i s = .next t ∧ t.path r = some (G, q) ∧ t = { dropAsks S (.path r) with groups := t.groups } ∧ (∀ k, k ≠ r.g → t.group k = s.group k) ∧
      q.mask = e.mask ∧ q.sup = false ∧ q.fcause = 0 ∧ q.entry = none ∧ q.skipBp = nobp ∧
      q.pc = BitVec.ofNat 64 (S.mem.le (pa + if after then 16 else 8) 8) &&& ~~~7#64 ∧
      (∀ n, q.getS n = if n = 0 then 0 else BitVec.ofNat 64 (S.mem.le (pa + 128 + 8 * n.toNat) 8)) ∧
      (∀ n, n ≠ 0 → q.written.getLsbD n.toNat = (e.written.getLsbD n.toNat || decide (q.getS n ≠ e.s.rd n))) ∧
      ∀ k, k ≠ r.p → G.paths.rd k = g.paths.rd k

/-- `crd` (01 R17, R20, 08 R224): the value each name stands for; a restored team has the identifiers its save area held (08 R238). -/
def Sys2Proof.Claim.ControlRegistersRead : Prop :=
  (∀ (h : Hdr) (n : CrName) (d : SReg) (s : State) (r : PathRef) (g : Group) (p : Path), Issues s r g p h (uCrd (.scalar n d)) → p.hold = false →
    ∃ x, CompletesIn (.crd h (.scalar n d)) h s r g p s (issuedSt s r g p h (uCrd (.scalar n d))) noByte (fun G q => G = g.setPath r.p q ∧
        ∀ k, q.getS k = if k = d ∧ k ≠ 0 then x else p.getS k) ∧
      match n with
      | .gid => x = BitVec.ofNat 64 g.gid
      | .teamid => ∀ t, s.team g.team = some t → x = BitVec.ofNat 64 (match t.ids with | some i => i.teamid | none => t.teamid)
      | .clid => ∀ t c, s.team g.team = some t → s.gridOf g = some c →
          x = match t.ids with | some i => i.clid | none => BitVec.ofNat 64 (c.clid (t.lin / c.teamsPer))
      | .gridid => ∀ t c, s.team g.team = some t → s.gridOf g = some c →
          x = (match t.ids with | some i => i.gridid | none => c.gridid).setWidth 64
      | .core => ∀ k, s.coreOf g = some k → x = BitVec.ofNat 64 (k % 16 + 16 * (k / 16) + 256 * k)
      | .vfid => ∀ t, s.team g.team = some t → x = match t.ids with | some i => i.vfid.setWidth 64 | none => BitVec.ofNat 64 (s.vfOf g)
      | .pathix => x = r.p.setWidth 64
      | .pmask => x = p.mask.setWidth 64
      | .gctl => x = BitVec.ofNat 64 ((if g.uchk then 1 else 0) + (if g.ser.isSome then 2 else 0) + 4 * p.depth)
      | .vwin => x = BitVec.ofNat 64 g.vwin
      | .smask => x = g.smask.setWidth 64
      | .fcause => x = p.fcause.setWidth 64
      | .fpc => x = p.fpc
      | .srate => (chainOf s g = none → x = 0) ∧ ∀ c, chainOf s g = some c → x = BitVec.ofNat 64 c.2.srl
      | .stripid => (chainOf s g = none → x = 0xFFFFFFFF) ∧ ∀ c, chainOf s g = some c → x = BitVec.ofNat 64 (c.2.strip % 2 ^ 32)
      | .deadln => (chainOf s g = none → x = 0) ∧ ∀ c, chainOf s g = some c → x = BitVec.ofNat 64 (c.1.deadline c.2.strip / 2 ^ 32)
      | .ctr i => x = if 33 ≤ i.toNat then 0 else (s.vf (s.vfOf g)).ctr.rd i + if i = 1 then 1 else 0) ∧
  ∀ h : Hdr,
    (∀ d, WritesLanesSuch (.crd h (.faddr d)) h (uCrd (.faddr d)) [d, d + 1] fun g _ n l x => x = half64 (n == d + 1) (g.faddr.rd l)) ∧
    ∀ d, WritesLanes (.crd h (.rngs d)) h (uCrd (.rngs d)) d fun g _ l => g.rngs.rd l

/-- `cwr` (01 R18-R20, 08 R224, R225): the register takes the value, RNGS never zero, and FPC goes to the frame as well. -/
def Sys2Proof.Claim.ControlRegistersWrite : Prop :=
  ∀ (h : Hdr) (s : State) (r : PathRef) (g : Group) (p : Path), p.hold = false →
    (∀ a, Issues s r g p h (uCwr (.scalar .gctl a)) →
      CompletesIn (.cwr h (.scalar .gctl a)) h s r g p s (issuedSt s r g p h (uCwr (.scalar .gctl a))) noByte fun G q =>
        (∀ n, q.getS n = p.getS n) ∧ G = { g with paths := G.paths, uchk := (p.getS a).getLsbD 0 }) ∧
    (∀ a, Issues s r g p h (uCwr (.scalar .smask a)) →
      CompletesIn (.cwr h (.scalar .smask a)) h s r g p s (issuedSt s r g p h (uCwr (.scalar .smask a))) noByte fun G q =>
        (∀ n, q.getS n = p.getS n) ∧ G = { g with paths := G.paths, smask := (p.getS a).setWidth 8 }) ∧
    (∀ a, Issues s r g p h (uCwr (.faddr a)) →
      CompletesIn (.cwr h (.faddr a)) h s r g p s (issuedSt s r g p h (uCwr (.faddr a))) noByte fun G q =>
        (∀ n, q.getS n = p.getS n) ∧ G = { g with paths := G.paths, faddr := G.faddr } ∧
        ∀ l, G.faddr.rd l = if (emaskOf g p h).has l then g.pair a l else g.faddr.rd l) ∧
    (∀ a, Issues s r g p h (uCwr (.rngs a)) →
      CompletesIn (.cwr h (.rngs a)) h s r g p s (issuedSt s r g p h (uCwr (.rngs a))) noByte fun G q =>
        (∀ n, q.getS n = p.getS n) ∧ G = { g with paths := G.paths, rngs := G.rngs } ∧
        ∀ l, G.rngs.rd l = if (emaskOf g p h).has l then (if (g.seen a).rd l = 0 then 1 else (g.seen a).rd l) else g.rngs.rd l) ∧
    (∀ a, Issues s r g p h (uCwr (.scalar .fcause a)) → ∃ t q, exec (.cwr h (.scalar .fcause a)) s = .next t ∧
      t.path r = some (g.setPath r.p q, q) ∧ Quiet s t r (s.vfOf g) ∧ q.fcause = (p.getS a).setWidth 8 ∧ q.fpc = p.fpc ∧
      q.pc = p.pc + hdrLen h ∧ q.mask = p.mask ∧ q.sup = p.sup ∧ ∀ n, q.getS n = p.getS n) ∧
    ∀ a pa S, Issues s r g p h (uCwr (.scalar .fpc a)) →
      translate ((issuedSt s r g p h (uCwr (.scalar .fpc a))).setPath r
          { p.issued g h (uCwr (.scalar .fpc a)) with fpc := p.getS a &&& ~~~7#64 }) (s.vfOf g)
        (g.frameb + 1024 * r.p.setWidth 64 + 8).toNat 8 .wr = (.ok pa, S) → paClass pa ≠ 1 →
      ∃ t q, exec (.cwr h (.scalar .fpc a)) s = .next t ∧ t.path r = some (g.setPath r.p q, q) ∧ q.fpc = p.getS a &&& ~~~7#64 ∧
        q.fcause = p.fcause ∧ q.pc = p.pc + hdrLen h ∧ q.mask = p.mask ∧ q.sup = p.sup ∧ (∀ n, q.getS n = p.getS n) ∧
        (S.mem.wf = true → t.mem.le pa 8 = (p.getS a &&& ~~~7#64).toNat ∧ ∀ b, b < pa ∨ pa + 8 ≤ b → t.mem.get b = S.mem.get b)

/-- The register window (08 R226, R227): `vgrow` asks the core and suspends, or faults where the window or the core could never hold it;
requests are granted in order, new registers reading zero; `vshrink` gives registers back and never the last sixteen. -/
def Obligations.WindowsGrowAndShrink : Prop :=
  (∀ (h : Hdr) (n : BitVec 4) (s : State) (r : PathRef) (g : Group) (p : Path) (core : Nat), Issues s r g p h uGrow → s.coreOf g = some core →
    (256 < g.vwin + 16 * n.toNat ∨ mostGranules (issuedSt s r g p h uGrow) core r.g < (g.vwin + 16 * n.toNat) / 16 → exec (.vgrow h n) s =
      .next (settleHold (deliver (issuedSt s r g p h uGrow) r (FaultInfo.of 0x28 p.mask) p.pc (p.pc + hdrLen h)) r)) ∧
    (p.hold = false → g.vwin + 16 * n.toNat ≤ 256 → (g.vwin + 16 * n.toNat) / 16 ≤ mostGranules (issuedSt s r g p h uGrow) core r.g →
      ∃ t G q, exec (.vgrow h n) s = .next t ∧ t.path r = some (G, q) ∧
        t = { issuedSt s r g p h uGrow with groups := t.groups, vgrowQ := s.vgrowQ ++ [(core, r)] } ∧ G.live r.p = false ∧ q.pc = p.pc ∧
        q.st = .susp (.vgrow n (p.pc + hdrLen h)))) ∧
  (∀ (s : State) (core : Nat) (r : PathRef) (n : BitVec 4) (npc : W64) (g : Group) (p : Path),
    (s.vgrowQ.find? fun e => e.1 == core) = some (core, r) → s.path r = some (g, p) → p.st = .susp (.vgrow n npc) → g.ser = none →
    (coreUsed s core).gran + n.toNat ≤ Config.granules →
    ∃ t G q, exec (.vgrowGrant core) s = .next t ∧ t.path r = some (G, q) ∧ q.pc = npc ∧ q.st = .ready ∧ (∀ k, q.getS k = p.getS k) ∧
      G.vwin = g.vwin + 16 * n.toNat ∧ (G.live r.p = true ∨ r.p ∈ G.fifo) ∧ t.vgrowQ = s.vgrowQ.filter (fun e => e.2 != r) ∧ t.mem = s.mem ∧
      ∀ k l, (G.getV k).rd l = if g.vwin ≤ k.toNat ∧ k.toNat < g.vwin + 16 * n.toNat then 0 else (g.getV k).rd l) ∧
  ∀ (h : Hdr) (n : BitVec 4) (s : State) (r : PathRef) (g : Group) (p : Path), Issues s r g p h Uses.none →
    (g.vwin < 16 * n.toNat + 16 → exec (.vshrink h n) s =
      .next (settleHold (deliver (issuedSt s r g p h Uses.none) r (FaultInfo.of 0x03 p.mask) p.pc (p.pc + hdrLen h)) r)) ∧
    (p.hold = false → 16 * n.toNat + 16 ≤ g.vwin →
      CompletesIn (.vshrink h n) h s r g p s (issuedSt s r g p h Uses.none) noByte fun G q => (∀ k, q.getS k = p.getS k) ∧
        G = { g with paths := G.paths, vwin := g.vwin - 16 * n.toNat })

/-- `yield`, `clock`, `tstamp`, `shev`, `tlbinv` (08 R228-R232, 22 R431, R434): the ageing starts again; the register takes the Bellwether;
a tile closes, now or, while its copies run, once they have completed; the event is offered; no dropped translation stays, once no access of
the VF that has translated is still to be performed. -/
def Sys2Proof.Claim.YieldClockStampEventDrop : Prop :=
  ∀ (h : Hdr) (s : State) (r : PathRef) (g : Group) (p : Path), p.hold = false →
    (Issues s r g p h uCtl → CompletesIn (.yield h) h s r g p s (issuedSt s r g p h uCtl) noByte fun G q =>
      G = g.setPath r.p q ∧ q.young = true ∧ q.age = 0 ∧ ∀ n, q.getS n = p.getS n) ∧
    (∀ o, Issues s r g p h (uClock o) →
      CompletesIn (.clock h o) h s r g p s (issuedSt s r g p h (uClock o)) noByte fun G q => G = g.setPath r.p q ∧
        ∀ n, q.getS n = if n = o.d ∧ n ≠ 0 then (if o.frac then s.bell.setWidth 64 else s.bell.extractLsb' 32 64) else p.getS n) ∧
    (∀ a tag, Issues s r g p h (uTStamp a) → tag = (p.getS a).setWidth 16 →
      (tagBusy g tag = true →
        CompletesIn (.tstamp h a) h s r g p s (issuedSt s r g p h (uTStamp a)) noByte fun G q => (∀ n, q.getS n = p.getS n) ∧
          G = { g with paths := G.paths, closing := g.closing ++ [tag], log := g.log ++ [(.stamp tag, s.bell.toNat)] }) ∧
      (tagBusy g tag = false → ∃ T, CompletesIn (.tstamp h a) h s r g p s T noByte (fun G q => (∀ n, q.getS n = p.getS n) ∧
          G = { g with paths := G.paths, closing := (g.closing ++ [tag]).erase tag,
                       log := g.log ++ [(.stamp tag, s.bell.toNat), (.close tag true, s.bell.toNat)] }) ∧
        T = { issuedSt s r g p h (uTStamp a) with vfs := T.vfs, free := s.free + 1 } ∧
        (T.vf (s.vfOf g)).trace = (s.vf (s.vfOf g)).trace ++
          [{ body := rec32 (stampBytes s { g with log := g.log ++ [(.stamp tag, s.bell.toNat)] } tag true), ns := s.ns, tile := stripOf s g }])) ∧
    (∀ o d, Issues s r g p h (uShEv o) → s.gridOf g = some d →
      CompletesIn (.shev h o) h s r g p s (offer (issuedSt s r g p h (uShEv o)) (s.vfOf g) 5
        [(p.getS o.a).setWidth 32, (p.getS o.b).setWidth 32, (p.getS o.b).extractLsb' 32 32, BitVec.ofNat 32 g.lin, d.gridid]) noByte
        fun G q => G = g.setPath r.p q ∧ ∀ n, q.getS n = p.getS n) ∧
    ∀ a T, Issues s r g p h (uTlbInv a) → T = { issuedSt s r g p h (uTlbInv a) with
          tlb := s.tlb.filter fun c => !(c.vf == s.vfOf g && match a with
            | some x => decide (c.va ≤ (p.getS x).toNat) && decide ((p.getS x).toNat < c.va + c.size)
            | none => true) } →
      enginePending (cxOf s r g p h (uTlbInv a)) 0x7F = false → holding T (· == s.vfOf g) Loc.isPhys = false →
      CompletesIn (.tlbinv h a) h s r g p s T noByte fun G q => G = g.setPath r.p q ∧ ∀ n, q.getS n = p.getS n

/-- `halt` (08 R233): the path is held after itself, `halt.group` every path of the group, and the Crook has a notice for it. -/
def Sys2Proof.Claim.HaltHolds : Prop :=
  ∀ (h : Hdr) (s : State) (r : PathRef) (g : Group) (p : Path), Issues s r g p h uPriv →
    (∃ t G q n, exec (.halt h false) s = .next t ∧ t.path r = some (G, q) ∧ q.st = .held ∧ q.pc = p.pc + hdrLen h ∧ q.mask = p.mask ∧
      (∀ k, q.getS k = p.getS k) ∧ G.live r.p = false ∧ r.p ∉ G.fifo ∧ (∀ i, i ≠ r.p → G.paths.rd i = g.paths.rd i) ∧
      (t.vf (s.vfOf g)).crook.notices = (s.vf (s.vfOf g)).crook.notices ++ [n] ∧ n.ref = r ∧ n.go = false ∧ t.mem = s.mem) ∧
    ((∀ i, g.pairs.rd i = none) → ∃ t, exec (.halt h true) s = .next t ∧ ∀ i q, g.paths.rd i = some q → (i = r.p ∨ ∀ w, q.st ≠ .remote w) →
      ∃ G q', t.path ⟨r.g, i⟩ = some (G, q') ∧ q'.st = .held ∧ q'.mask = q.mask ∧ q'.s = q.s)

/-- `pgmap` (08 R231, 14 R314, R315): its status by the rows of the table, nothing changed, 1 where the entry is occupied; or the page mapped,
within the budget, status zero; or a wait for frames, the path at its `pgmap`. Where the tables on the way are there and the frame is a new one,
a mapping writes the stage-1 leaf with the W and X asked for and A and D zero, the stage-2 leaf with W and X set, zero bytes in the frame, and
nothing else. That HELD counts the frames that the driver itself has mapped is the model's reading (log entry 9). -/
def Sys2Proof.Claim.PagesMap : Prop :=
  (∀ (h : Hdr) (o : PgMap) (s : State) (r : PathRef) (g : Group) (p : Path), Issues s r g p h (uPgMap o) → p.hold = false →
    (∀ n, pgmapTry (issuedSt s r g p h (uPgMap o)) (s.vfOf g) o.z (p.getS o.a).toNat (p.getS o.b).toNat = .status n →
      CompletesIn (.pgmap h o) h s r g p s (endWalk (issuedSt s r g p h (uPgMap o)) (s.vfOf g) (p.getS o.a).toNat) noByte fun G q => G = g.setPath r.p q ∧
        ∀ k, q.getS k = if k = o.d ∧ k ≠ 0 then BitVec.ofNat 64 n else p.getS k) ∧
    (∀ S, pgmapTry (issuedSt s r g p h (uPgMap o)) (s.vfOf g) o.z (p.getS o.a).toNat (p.getS o.b).toNat = .mapped S →
      CompletesIn (.pgmap h o) h s r g p S (endWalk S (s.vfOf g) (p.getS o.a).toNat) noByte fun G q => G = g.setPath r.p q ∧
        ∀ k, q.getS k = if k = o.d ∧ k ≠ 0 then 0 else p.getS k) ∧
    ∀ x, pgmapTry (issuedSt s r g p h (uPgMap o)) (s.vfOf g) o.z (p.getS o.a).toNat (p.getS o.b).toNat = .empty x →
      ∃ t G q, exec (.pgmap h o) s = .next t ∧ t.path r = some (G, q) ∧ q.st = .susp .pgmap ∧ q.pc = p.pc ∧ G.live r.p = false ∧
        (∀ k, q.getS k = p.getS k) ∧ (t.vf (s.vfOf g)).starved = some x) ∧
  ∀ (s : State) (vf va perm : Nat) (z : PSize), noncanonical s vf va = false →
    (poolOf (s.vf vf) va = none → pgmapTry s vf z va perm = .status 2) ∧
    (∀ b, poolOf (s.vf vf) va = some b →
      (va % pageBytes z ≠ 0 ∨ (b.ipa + (va - b.vbase)) % pageBytes z ≠ 0 → pgmapTry s vf z va perm = .status 2) ∧
      (va % pageBytes z = 0 → (b.ipa + (va - b.vbase)) % pageBytes z = 0 → 4 ≤ perm → pgmapTry s vf z va perm = .status 3)) ∧
    (∀ b, poolOf (s.vf vf) va = some b → va % pageBytes z = 0 → (b.ipa + (va - b.vbase)) % pageBytes z = 0 → perm < 4 →
      occupied s vf (pageLevel z) va (z == .p64k) 5 (s.vf vf).s1root.toNat = .ok true → pgmapTry s vf z va perm = .status 1) ∧
    (∀ S, pgmapTry s vf z va perm = .mapped S → (S.vf vf).held + driverFrames s vf ≤ (s.vf vf).burst ∧ (s.vf vf).held ≤ (S.vf vf).held ∧
      S.groups = s.groups) ∧
    ∀ S b ipa f a at1 at2 leaf1 leaf2, pgmapTry s vf z va perm = .mapped S → s.mem.wf = true → poolOf (s.vf vf) va = some b →
      ipa = b.ipa + (va - b.vbase) → stage2 s (s.vf vf).paddock.toNat ipa = .error (.bad 0x10) →
      tableAt s (pageLevel z) ipa 5 (s.pad (s.vf vf).paddock.toNat).s2root.toNat = false →
      Alloc.take { store := (s.pad (s.vf vf).paddock.toNat).store, taken := 0, short := false } s.free (pageBytes z / 4096) = (f, a) →
      paClass f ≠ 1 →
      leaf2 = f + 0xD + (if z = .p64k then 16 else 0) →
      leaf1 = ipa + 1 + (if nbit perm 0 then 4 else 0) + (if nbit perm 1 then 8 else 0) + (if z = .p64k then 16 else 0) →
      routeS2 (zeroFrame s f (pageBytes z)) (pageLevel z) ipa 5 (s.pad (s.vf vf).paddock.toNat).s2root.toNat = some at2 →
      routeS1 (writeLeaf (zeroFrame s f (pageBytes z)) at2 leaf2 (z == .p64k)) vf (pageLevel z) va 5 (s.vf vf).s1root.toNat = some at1 →
      (∀ i, i < 128 → paClass (at1 + i) ≠ 1 ∧ paClass (at2 + i) ≠ 1) → (at1 + 128 ≤ at2 ∨ at2 + 128 ≤ at1) →
      (∀ x ∈ [at1, at2], x + 128 ≤ f ∨ f + pageBytes z ≤ x) →
      let k := if z = .p64k then 16 else 1
      (S.vf vf).held = (s.vf vf).held + pageBytes z / 4096 ∧
      (∀ i, i < k → S.mem.le (at1 + 8 * i) 8 = leaf1 % 2 ^ 64 ∧ S.mem.le (at2 + 8 * i) 8 = leaf2 % 2 ^ 64) ∧
      ∀ x, (x < at1 ∨ at1 + 8 * k ≤ x) → (x < at2 ∨ at2 + 8 * k ≤ x) →
        S.mem.get x = if f ≤ x ∧ x < f + pageBytes z then 0 else s.mem.get x

/-! ### Strips, chains (07 R209, 18 R368-R377) -/

/-- `scommit` (07 R209, 18 R374): status 1 and nothing changed where the slot is not this chain's to commit; 2 where the chain has missed or
its deadline has come; else 0 and the slot is COMMITTED, the last slot of the last kernel finishing the chain. -/
def Sys2Proof.Claim.StripCommits : Prop :=
  ∀ (h : Hdr) (o : SUn) (s : State) (r : PathRef) (g : Group) (p : Path), Issues s r g p h (uSCommit o) → p.hold = false →
    ∀ (S : State) (a : W64), S = issuedSt s r g p h (uSCommit o) → a = p.getS o.a →
    ∀ gives : Nat → State → Prop,
      (∀ v T, gives v T ↔ ∃ t G q, exec (.scommit h o) s = .next t ∧ Went t r g G p q (p.pc + hdrLen h) ∧ t = { T with groups := t.groups } ∧
        (∀ k, k ≠ r.g → t.group k = s.group k) ∧ G = g.setPath r.p q ∧
        ∀ k, q.getS k = if k = o.d ∧ k ≠ 0 then BitVec.ofNat 64 v else p.getS k) →
    ((∀ d, s.gridOf g = some d → ∀ pd st n, d.origin ≠ .chain pd st n) → gives 1 S) ∧
    ∀ (x : Team) (d : Grid) (pd st n : Nat) (t : Stream) (rg : Ring) (c : Chain) (ring slot : Nat),
      s.team g.team = some x → s.grid x.grid = some d → d.origin = .chain pd st n → (s.pad pd).stream st = some t →
      (s.pad pd).ring ring = some rg → t.chainOf n = some c → ring = a.toNat % 2 ^ 16 → slot = a.toNat / 2 ^ 16 % 2 ^ 16 →
      (a.toNat / 2 ^ 32 ≠ 0 ∨ ring ∉ t.ringList ∨ rg.slots.length ≤ slot ∨ n % 2 ^ 32 % rg.slots.length ≠ slot ∨ rg.slot slot ≠ .open_ ∨
        c.finished = true → gives 1 S) ∧
      (a.toNat / 2 ^ 32 = 0 → ring ∈ t.ringList → slot < rg.slots.length → n % 2 ^ 32 % rg.slots.length = slot → rg.slot slot = .open_ →
        c.finished = false →
        (c.missed = true → gives 2 S) ∧
        (c.missed = false → t.deadline n ≤ s.bell.toNat → gives 2 (missChain S pd st t c 1)) ∧
        (c.missed = false → s.bell.toNat < t.deadline n →
          ((commitSlot S pd st ring slot n).pad pd).ring ring = some (rg.setSlot slot .committed) ∧
          (c.grids.length = t.nkern ∧ c.grids.getLast? = some x.grid ∧ t.lastRing = some ring →
            gives 0 (finishChain (commitSlot S pd st ring slot n) pd st t c)) ∧
          (¬ (c.grids.length = t.nkern ∧ c.grids.getLast? = some x.grid ∧ t.lastRing = some ring) →
            gives 0 (commitSlot S pd st ring slot n))))

/-- A chain starts at S when its slots are FREE, which become OPEN, and the teams that are not strip class on its cores are asked to stop
within SPWIN; a milestone raises the SRL by the prediction; a chain that reaches D misses: its record says so, its grids not placed are
cancelled, its teams lose their class, the SRL rises (18 R368-R375, 17 R357). -/
def Sys2Proof.Claim.ChainsStartAndMiss : Prop :=
  (∀ (s : State) (pd st : Nat) (t : Stream), (s.pad pd).stream st = some t → t.withdrawn = false → t.start t.next ≤ s.bell.toNat →
    t.current = none →
    ((∀ i ∈ t.ringList, ∀ x, (s.pad pd).ring i = some x → x.slot (x.slotOf t.next) = .free) →
      ∃ T u c, exec (.chainStart pd st) s = .next T ∧ (T.pad pd).stream st = some u ∧ u.next = t.next + 1 ∧ u.chains = t.chains ++ [c] ∧
        c.strip = t.next ∧ c.srl = t.srl ∧ c.srlStart = t.srl ∧ c.grids = [] ∧ c.live = true ∧ T.mem = s.mem ∧ T.groups = s.groups ∧
        (∀ i ∈ t.ringList, ∀ x, (s.pad pd).ring i = some x → (T.pad pd).ring i = some (x.setSlot (x.slotOf t.next) .open_)) ∧
        ∀ k x core, s.team k = some x → x.core = some core → x.strip = false → t.cores.getLsbD core = true → x.stop = none →
          ∃ y, T.team k = some y ∧ y.stop = some { until_ := s.cycle core + (s.pad pd).timers.spwin.toNat, forced := false }) ∧
    ((∃ i ∈ t.ringList, ∃ x, (s.pad pd).ring i = some x ∧ x.slot (x.slotOf t.next) ≠ .free) →
      ∃ T u, exec (.chainStart pd st) s = .next T ∧ (T.pad pd).stream st = some u ∧ u.next = t.next + 1 ∧ u.chains = t.chains ∧
        u.srl = min 4 (t.srl + 1) ∧ (T.vf t.vf).ctr.rd 26 = (s.vf t.vf).ctr.rd 26 + 1 ∧ T.groups = s.groups)) ∧
  (∀ (s : State) (pd st : Nat) (t : Stream) (c : Chain) (k up : Nat), (s.pad pd).stream st = some t → t.current = some c →
    k = c.milestone + 1 → k ≤ 3 → k * t.win * 2 ^ 32 ≤ 4 * (s.bell.toNat - t.start c.strip) →
    up = (if c.doneTiles = 0 then 2 else if 4 * c.doneTiles * (t.win - t.guard) < k * t.win * t.total then 1 else 0) →
    ∃ T, exec (.droverMilestone pd st) s = .next T ∧ T.mem = s.mem ∧ T.groups = s.groups ∧ T.teams = s.teams ∧
      (T.pad pd).stream st = some (t.setChain { c with
        milestone := k, srl := min 4 (c.srl + up),
        raised := if c.srl < min 4 (c.srl + up) then c.raised ||| 1#3 <<< (k - 1) else c.raised })) ∧
  ∀ (s : State) (pd st : Nat) (t : Stream) (c : Chain), (s.pad pd).stream st = some t → t.current = some c →
    (s.bell.toNat < t.deadline c.strip → exec (.chainMiss pd st) s = .next s) ∧
    (t.deadline c.strip ≤ s.bell.toNat →
      ∃ T u, exec (.chainMiss pd st) s = .next T ∧ (T.pad pd).stream st = some u ∧ u.srl = min 4 (c.srl + 1) ∧
        (T.vf t.vf).ctr.rd 26 = (s.vf t.vf).ctr.rd 26 + 1 ∧ (∀ e ∈ T.teams, e.2.grid ∈ c.grids → e.2.strip = false) ∧
        (∀ e ∈ T.grids, e.1 ∈ c.grids → e.2.nextCluster ≠ 0) ∧ T.groups = s.groups ∧
        ∀ S, s.vfWrite t.vf (t.crec.toNat + 64 * (c.strip % 2 ^ 32 % 2 ^ t.clog)) (chainRecord t c 0x34 1 0) = some S → T.mem = S.mem)

/-! ### The dispatcher (10 R244-R248, 16 R338-R345) -/

/-- A record is taken from the queue whose turn it is (16 R342-R344): a launch that is admitted makes a grid under the VF's next
identifier; one that is refused completes with identifier FFFFFFFF and cause 22; an address that fails stops the queue. That a record whose page,
or whose kernel record's page, waits for the host stays in the queue, with what has been read at other modules kept, is the model's choice (log
entry 43). -/
def Obligations.WorkQueuesGiveGrids : Prop :=
  ∀ (s : State) (q vf w pd i : Nat) (S0 : State), (s.wq q).bind = some (vf, w) → pd = (s.vf vf).paddock.toNat → i = (s.wq q).taken.toNat →
    S0 = s.setPad pd (fun p => { p with rrWq := p.rrWq.wr (s.wq q).prio q }) →
    (isTurn s q = false → exec (.wqRecordTake q) s = .next s) ∧
    (isTurn s q = true → (s.wq q).en = true ∧ (s.wq q).err = false ∧ (s.wq q).taken ≠ (s.wq q).wqtail ∧ (s.vf vf).active = true) ∧
    (isTurn s q = true →
      (∀ S, S0.devRead vf ((s.wq q).wqbase.toNat + 256 * (i % 2 ^ (s.wq q).logn.toNat)) 256 = (.fail, S) →
        exec (.wqRecordTake q) s = .next (S.setWq q fun w => { w with err := true })) ∧
      (∀ S, S0.devRead vf ((s.wq q).wqbase.toNat + 256 * (i % 2 ^ (s.wq q).logn.toNat)) 256 = (.wait, S) →
        exec (.wqRecordTake q) s = .next S) ∧
      ∀ d S, S0.devRead vf ((s.wq q).wqbase.toNat + 256 * (i % 2 ^ (s.wq q).logn.toNat)) 256 = (.ok d, S) →
        (∀ S', admitLaunch S vf pd (parseLaunch d) false = (.wait, S') → exec (.wqRecordTake q) s = .next (keepAsks s S')) ∧
        (∀ k S', admitLaunch S vf pd (parseLaunch d) false = (.ok k, S') →
          ∃ T x, exec (.wqRecordTake q) s = .next T ∧ T.grids = S'.grids.put S'.handle x ∧ x.launch = parseLaunch d ∧ x.kernel = k ∧
            x.vf = vf ∧ x.paddock = pd ∧ x.origin = .host q i ∧ x.prio = (s.wq q).prio.toNat ∧ x.nextCluster = 0 ∧ x.ends = [] ∧
            x.gridid = (S'.vf vf).gridCounter ∧ x.scratch = [] ∧
            (T.vf vf).gridCounter = (if x.gridid + 1 = 0xFFFFFFFF then 1 else x.gridid + 1) ∧
            (T.wq q).taken = (S'.wq q).taken + 1 ∧ T.groups = s.groups ∧ T.mem = S'.mem) ∧
        ∀ S', admitLaunch S vf pd (parseLaunch d) false = (.fail, S') → (parseLaunch d).isDomain = false →
          exec (.wqRecordTake q) s = .next (complete (S'.setWq q fun w => { w with taken := w.taken + 1 }) q i 0xFFFFFFFF 0x22))

/-- A cluster is placed (16 R344, 10 R246): of the grids by priority and order, the first that has a cluster to start and a rectangle that
takes it, where none has a saved one. The rectangle is the one of lowest mesh index that passes; its teams start on its cores, each with the groups that
a kernel's start gives, in the core's lowest free slots (the slots are the model's choice, log entry 42). -/
def Sys2Proof.Claim.ClustersPlaced : Prop :=
  (∀ (s S T : State) (pd : Nat) (e : Nat × Grid), S = fixSlice s pd → runningChains S pd = [] →
    (∀ x ∈ gridOrder S pd, hasSaved S x.1 = false) →
    (gridOrder S pd).find? (fun x => hasNew x.2 && !heldBack S x.2 && (placeGrid S x.1).isSome) = some e → placeGrid S e.1 = some T →
    exec (.clusterDispatch pd) s = .next T) ∧
  (∀ (S : State) (gh : Nat) (d : Grid) (cores : List Nat), S.grid gh = some d → d.launch.coop = false → d.launch.isDomain = false →
    d.nextCluster < clustersOf d.launch →
    findRect d.kernel.cw d.kernel.ch (fun _ c => coreTakes S gh d false c d.kernel.need) = some cores →
    ∃ T c, placeGrid S gh = some T ∧ T.grid gh = some { d with nextCluster := d.nextCluster + 1 } ∧ T.mem = S.mem ∧ T.vfs = S.vfs ∧
      T.cluster S.handle = some c ∧ c.grid = gh ∧ c.index = d.nextCluster ∧
      ∀ x ∈ (List.range d.teamsPer).zip cores, ∃ U th t,
        U = addTeams gh d S.handle d.nextCluster (((List.range d.teamsPer).zip cores).take x.1) { S with handle := S.handle + 1 } ∧
        th = U.handle ∧ T.team th = some t ∧ t.grid = gh ∧ t.cluster = S.handle ∧ t.teamid = x.1 ∧
        t.lin = d.nextCluster * d.teamsPer + x.1 ∧ t.core = some x.2 ∧ t.shared = [] ∧ t.size = d.kernel.shared ∧ t.stop = none ∧
        (∀ b, t.bars.rd b = ⟨false, 0, 0, false⟩) ∧
        ∀ y ∈ (List.range d.kernel.groups).zip (freeSlots U x.2 d.kernel.groups), ∃ k, T.group k = some (startGroup S d th t.lin y.2 y.1)) ∧
  ∀ (w h : Nat) (ok : Nat → Nat → Bool) (cs : List Nat), findRect w h ok = some cs →
    ∃ x y, x + w ≤ 16 ∧ y + h ≤ 12 ∧ cs.length = w * h ∧ ∀ t, t < w * h → cs[t]? = some ((y + t / w) * 16 + (x + t % w)) ∧
      ok t ((y + t / w) * 16 + (x + t % w)) = true ∧
      ∀ x' y', x' + w ≤ 16 → y' + h ≤ 12 → y' * 16 + x' < y * 16 + x → ∃ t, t < w * h ∧ ok t ((y' + t / w) * 16 + (x' + t % w)) = false

/-- A group starts with one path of every lane at the kernel's entry, the launch's arguments in s1 to s8, the spill top in s61, every other
register zero, k0 and the random words as the launch seeds them (01 R7, R19, 16 R338). -/
def Sys2Proof.Claim.GroupsStart : Prop :=
  ∀ (s : State) (d : Grid) (t lin slot gid : Nat) (g : Group), g = startGroup s d t lin slot gid →
    (∃ p, g.paths.rd 0 = some p ∧ p.mask = 0xFF ∧ p.pc = d.launch.code + BitVec.ofNat 64 d.kernel.entry ∧ p.rcv = none ∧ p.depth = 0 ∧
      p.join = none ∧ p.sup = false ∧ p.st = .ready ∧ p.written = 0 ∧
      ∀ n, p.getS n = if n = 61 then BitVec.ofNat 64 d.kernel.spill
        else if 1 ≤ n.toNat ∧ n.toNat ≤ 8 then (argsOf s d).getD (n.toNat - 1) 0 else 0) ∧
    (∀ i, i ≠ 0 → g.paths.rd i = none) ∧ (∀ j, g.joins.rd j = none) ∧ g.slotA = some 0 ∧ g.slotB = none ∧ g.fifo = [] ∧ g.ser = none ∧
    (∀ n l, (g.getV n).rd l = 0) ∧ (∀ n, g.getK n = if n = 0 then 0xFF else 0) ∧ (∀ n l, (g.x.rd n).rd l = 0) ∧
    (∀ n l, (g.t.rd n).rd l = 0) ∧ (∀ n, g.d.rd n = 0) ∧ g.q = d.q ∧ g.smask = 0 ∧ g.uchk = true ∧ g.vwin = d.kernel.regs ∧
    g.acc = d.kernel.acc ∧ (∀ i, (g.copies.rd i).st = .idle) ∧ g.lin = lin * d.kernel.groups + gid ∧ g.slot = slot ∧
    g.sbase = d.launch.spills + BitVec.ofNat 64 (8 * d.kernel.spill * g.lin) ∧ g.frameb = d.launch.frames + BitVec.ofNat 64 (8192 * g.lin) ∧
    ∀ l : Lane, g.rngs.rd l = if d.launch.seed + BitVec.ofNat 32 (8 * g.lin + l.toNat) = 0 then 1
      else d.launch.seed + BitVec.ofNat 32 (8 * g.lin + l.toNat)

/-- A team whose groups have all ended exits (10 R248, 16 R341): it and its groups leave, its record is written, its cause (COPY_FAULT, else
LANES_OFF, else 0) enters its grid's. That a record whose page waits for the host is kept until the page is there is the model's choice (log entry
43). -/
def Sys2Proof.Claim.TeamsExit : Prop :=
  ∀ (s : State) (th : Nat) (t : Team), s.team th = some t →
    (teamEnded s th = false → exec (.teamExit th) s = .next s) ∧
    (teamEnded s th = true → ∃ T, exec (.teamExit th) s = .next T ∧ T.team th = none ∧ (∀ e ∈ T.groups, e.2.team ≠ th) ∧
      ∀ d cause, s.grid t.grid = some d →
        cause = (if (s.teamGroups th).any (fun g => allD.any fun i => (g.2.copies.rd i).st == .faulted) then 0x15
          else if (s.teamGroups th).any (fun g => g.2.smask != 0) then 0x19 else (0 : W8)) →
        d.ends.length + 1 < d.teamCount →
        ∀ x S, s.devWrite d.vf (d.launch.exitb.toNat + 128 * t.lin) (exitBytes s d t.lin cause 0 (teamSmasks s th)) = (x, S) →
          (x = .ok () ∨ x = .fail → T.mem = S.mem ∧ T.grid t.grid = some { d with ends := (t.lin, cause) :: d.ends }) ∧
          (x = .wait → T.grid t.grid = some d ∧ T.pend = S.pend ++ [{
            vf := d.vf
            va := d.launch.exitb.toNat + 128 * t.lin
            d := exitBytes s d t.lin cause 0 (teamSmasks s th)
            then_ := .exit t.grid t.lin cause }]))

/-! ### Pre-emption (10 R254-R258, 18 R371, R372) -/

/-- The steps by which teams leave cores (18 R371, R372, 10 R254-R258): a slice ends and its holder's ladder starts; at GRACE the forced
step; at KILLT the context ends; a stop window that ends stops what has not stopped; a team that has stopped leaves with its context
written; of a core that cannot go on the newest team leaves, or the head request starves. That the end of a window forces what has not
stopped, when a save has which cause, and which saved cluster starts first are the model's reading (log entry 25); that a save whose page waits for
the host, or is another module's, goes on from what it has written is its choice (log entry 43). -/
def Sys2Proof.Claim.TeamsLeaveCores : Prop :=
  (∀ (s : State) (pd v start : Nat), (s.pad pd).slice = some (v, start) → sliceOver s pd = true →
    ∃ T stop n, exec (.sliceEnd pd) s = .next T ∧ stop = start + (s.pad pd).timers.slice.toNat * 2 ^ 32 ∧ T.groups = s.groups ∧ T.mem = s.mem ∧
      nextTurn (contenders s pd) v = some n ∧ (T.pad pd).slice = some (n, stop) ∧
      (T.pad pd).ladders = (s.pad pd).ladders ++ [⟨v, stop, s.handle, false⟩]) ∧
  (∀ (s : State) (vf : Nat),
    (dueLadder s vf false = none → exec (.forcedStep vf) s = .next s) ∧
    ∀ l, dueLadder s vf false = some l → ∃ T, exec (.forcedStep vf) s = .next T ∧ T.mem = s.mem ∧
      ∀ k x, (k, x) ∈ ladderTeams s l → s.team k = some x → ∃ y, T.team k = some y ∧ y.stop = some { until_ := 0, forced := true }) ∧
  (∀ (s : State) (vf : Nat) (l : Ladder), dueLadder s vf true = some l →
    ∃ S, S = s.setPad (s.vf vf).paddock.toNat (fun p => { p with ladders := p.ladders.filter (· != l) }) ∧
      exec (.killStep vf) s = .next (if (ladderTeams s l).isEmpty then S else endContext S vf 0x32 0)) ∧
  (∀ (s : State) (th core : Nat) (t : Team) (q : StopReq), s.team th = some t → t.stop = some q → t.core = some core → q.forced = false →
    q.until_ ≤ s.cycle core → exec (.spwinExpiry th) s = .next (s.setTeam th { t with stop := some { q with forced := true } })) ∧
  (∀ (s P : State) (th : Nat), readyToSave s th = true → P = (saveSet s th).foldl stampSave ((saveSet s th).foldl settleTeam s) →
    (∀ S, writeContexts (saveSet P th) P = (.ok (), S) →
      ∃ T, exec (.teamSave th) s = .next T ∧ T.mem = S.mem ∧ T.grids = S.grids ∧
        ∀ k x y, (k, x) ∈ saveSet s th → S.team k = some y → ∃ z, T.team k = some z ∧ z = { y with core := none, stop := none, saved := true }) ∧
    (∀ S, writeContexts (saveSet P th) P = (.wait, S) → exec (.teamSave th) s = .next (keepAsks P S)) ∧
    ∀ x d S, s.team th = some x → s.grid x.grid = some d →
      (writeContexts (saveSet P th) P = (.fail, S) → exec (.teamSave th) s = .next (endContext S d.vf 0x32 0)) ∧
      ∀ c, writeContexts (saveSet P th) P = (.dead c, S) → exec (.teamSave th) s = .next (endContext S d.vf c 0)) ∧
  ∀ (s : State) (core : Nat),
    (deadlocked s core = false → exec (.deadlockBreak core) s = .next s) ∧
    (deadlocked s core = true →
      (∀ r n a g p, breakCandidates s core = [] → headRequest s core = some (r, n, a) → s.path r = some (g, p) →
        exec (.deadlockBreak core) s =
          .next (faultSuspended { s with vgrowQ := s.vgrowQ.filter fun q => q.2 != r } r (FaultInfo.of 0x28 p.mask))) ∧
      (breakCandidates s core ≠ [] → ∃ x ∈ breakCandidates s core, (∀ y ∈ breakCandidates s core, y.2.placed ≤ x.2.placed) ∧
        ∃ S, exec (.deadlockBreak core) s = .next (forceStop S x.1) ∧ S.groups = s.groups ∧ S.teams = s.teams ∧ S.mem = s.mem ∧
          ∀ c, s.cluster x.2.cluster = some c → S.cluster x.2.cluster = some { c with front := s.handle }))

/-! ### Slots and issue (10 R249, R253, R259-R261) -/

/-- A free slot takes the head of the FIFO (10 R249). In a cycle a core issues at most eight instructions and at most its limit of each
class; who is passed over has lost to better-placed paths, and grows older (10 R253, R259, R260). -/
def Obligations.CoresIssue : Prop :=
  (∀ (s : State) (h : Nat) (g : Group) (t : Team) (i : BitVec 3) (rest : List (BitVec 3)), s.group h = some g → s.team g.team = some t →
    t.core ≠ none → t.stop = none → g.ser = none → g.fifo = i :: rest →
    (g.slotA = none → exec (.slotFill h) s = .next (s.setGroup h { g with slotA := some i, fifo := rest })) ∧
    (g.slotA ≠ none → g.slotB = none → exec (.slotFill h) s = .next (s.setGroup h { g with slotB := some i, fifo := rest })) ∧
    (g.slotA ≠ none → g.slotB ≠ none → exec (.slotFill h) s = .next s)) ∧
  ∀ (s : State) (core : Nat),
    ∃ (T : State) (l : List Candidate), exec (.issueSelection core) s = .next T ∧
      T.agenda = s.agenda ++ ((sampling s core).map fun vf => .event (.pathSample vf core)) ++ (l.map fun c => .issue c.r) ∧
      T.cycle core = s.cycle core + 1 ∧ T.mem = s.mem ∧ T.teams = s.teams ∧ l.length ≤ 8 ∧
      (∀ c ∈ l, c ∈ candidates s core ∧ (l.filter fun x => x.cls.1 == c.cls.1).length ≤ c.cls.2) ∧
      (∀ c ∈ candidates s core, c ∉ l →
        (l.length = 8 ∨ (l.filter fun x => x.cls.1 == c.cls.1).length = c.cls.2) ∧
        (∀ x ∈ l, x.cls.1 = c.cls.1 → c.before x = false) ∧
        ((∀ x ∈ l, x.r ≠ c.r) → ∀ g p, s.path c.r = some (g, p) →
          ∃ G q, T.path c.r = some (G, q) ∧ q = { p with age := q.age } ∧ min 65535 (p.age + 1) ≤ q.age))

/-! ### Pages (14 R312, R316-R318) -/

/-- A path that waited for the host goes on at its instruction; a migration commits: accesses wait while it is COMMITTING, then the leaf names the
destination, no translation of the page stays, and accesses under way go there; sampling clears A and ages each page (14 R312, R316, R318). Where an
engine operation owns the bytes of an entry that they change, they wait (12 R285). -/
def Sys2Proof.Claim.PagesMoveAndAge : Prop :=
  (∀ (s : State) (r : PathRef) (g : Group) (p : Path), s.path r = some (g, p) →
    (p.st = .walkGo → p.hold = false → exec (.walkComplete r) s = .next (s.setPath r { p with st := .ready })) ∧
    (p.st ≠ .walkGo → exec (.walkComplete r) s = .next s)) ∧
  (∀ (s : State) (id : Nat) (m : Migration), s.migrations.get id = some m → m.phase = .copying → (m.away = true → pageOwned s m = false) →
    s.mem.wf = true → paClass m.leaf = 0 → paClass (m.leaf + 1) = 0 → owned s none [(m.leaf, 8)] = false →
    ∃ T u, exec (.migrationCommit id) s = .next T ∧ (∀ c ∈ T.tlb, ¬ (m.src ≤ c.pa ∧ c.pa < m.src + m.size)) ∧ T.groups = s.groups ∧
      T.migrations.get id = some u ∧ u.phase = .committing ∧ u.src = m.src ∧ u.dst = m.dst ∧ nbits (T.mem.le m.leaf 8) 10 9 = 2) ∧
  (∀ (s : State) (id : Nat) (m : Migration), s.migrations.get id = some m → m.phase = .committing → m.away = false → m.driver = none →
    s.mem.wf = true → paClass m.leaf = 0 → m.dst % 4096 = 0 → m.dst < 2 ^ 52 → owned s none [(m.leaf, 8)] = false →
    ∃ T, exec (.migrationCommit id) s = .next T ∧ (∀ c ∈ T.tlb, ¬ (m.src ≤ c.pa ∧ c.pa < m.src + m.size)) ∧
      T.groups = s.groups.map (fun e : Nat × Group => (e.1, e.2.moved m)) ∧
      T.migrations.get id = none ∧ nbits (T.mem.le m.leaf 8) 51 12 * 4096 = m.dst ∧ nbits (T.mem.le m.leaf 8) 10 9 = 0) ∧
  (∀ (s : State) (id : Nat) (m : Migration), s.migrations.get id = some m → m.phase = .copying ∨ m.phase = .committing →
    owned s none [(m.leaf, 8)] = true → exec (.migrationCommit id) s = .next s) ∧
  (∀ (s : State) (pd : Nat), owned s none ((localLeaves s pd).map fun l : Nat × PLeaf => (l.2.entry, 8)) = true → exec (.ageSample pd) s = .next s) ∧
  ∀ (s : State) (pd : Nat), s.mem.wf = true → owned s none ((localLeaves s pd).map fun l : Nat × PLeaf => (l.2.entry, 8)) = false →
    ((localLeaves s pd).map fun l : Nat × PLeaf => l.2.entry).Nodup →
    ((localLeaves s pd).map fun l : Nat × PLeaf => l.2.base).Nodup →
    ∃ T, exec (.ageSample pd) s = .next T ∧ T.groups = s.groups ∧ (T.pad pd).sampled = s.bell.toNat ∧
      ∀ l ∈ localLeaves s pd, nbit (T.mem.le l.2.entry 8) 5 = false ∧
        (∀ c ∈ T.tlb, ¬ (l.2.base ≤ c.pa ∧ c.pa < l.2.base + l.2.size)) ∧
        ageOf (T.pad pd) l.2.base = if nbit (s.mem.le l.2.entry 8) 5 then 0 else min (ageOf (s.pad pd) l.2.base + 1) 255

/-! ### The fabric (14 R310, 16 R335, R346-R350) -/

/-- What arrives from another module (16 R335, R347, 14 R310): a memory operation is performed once at its pages and answered with the bytes
it read, or with the cause at which it fails and no effect; it waits here where its page waits for the host, or an engine owns its lines. An
operation that is asked about is held when it passes, performed when its sender says so, dropped when it cancels; a page that lies at a third
module is asked for there first. A queue operation is answered with whether the queue was full. An answer goes to the request that waits for it,
and the path that made it goes on once every module has answered; no answer within FABTO ends the context with cause 18, but for a request that is
forwarded, which its sender times. What the answer of an operation that ends the sender's context tells, how a message arrives and is answered, and
that a page at a third module is reached by a request of this one are the model's choices (log entry 7); that FABTO is that of the VF's Paddock is its
choice too (log entry 46). -/
def Sys2Proof.Claim.RemoteMessages : Prop :=
  (∀ (s S : State) (m : Request) (key : Nat) (o : RemoteOp) (a : W64) (n : Nat) (k : Acc) (act : Action) (who : Asker)
      (back done : State → PieceAnswer → State),
    m.mode = .once → m.ops = [(key, o)] → opRange o = some (a, n, k) → o.isLine = false → act = .event (.remoteRequest m) → who = .fwd m.src m.id →
    (∀ T x, back T x = respond (outOfInbox (T.flitIn m.vf) act) m (.pieces [(key, x)])) → (∀ T x, done T x = back (dropAsks T who) x) →
    (∀ ps, reqPages s m.vf k (pagesOf a.toNat n) = (.ok ps, S) → (∀ y ∈ ps, y.1.away = none) →
      (∀ T x, opsArrive S m.vf none false [(key, o, ps)] = (some x, T) → (∀ c, x ≠ .dead c) →
        exec (.remoteRequest m) s = .next (intoInbox T act)) ∧
      ∀ T, opsArrive S m.vf none false [(key, o, ps)] = (none, T) →
        (∀ b j, o = .read b j → exec (.remoteRequest m) s = .next (done T (.data (T.readLocs ps)))) ∧
        (∀ b, o = .fetch b → exec (.remoteRequest m) s = .next (done T (.data (T.readLocs ps)))) ∧
        (∀ b d, o = .write b d → exec (.remoteRequest m) s = .next (done (T.writeLocs ps d) (.data []))) ∧
        (∀ b op z x, o = .atom b op z x → exec (.remoteRequest m) s =
          .next (done (T.writeLocs ps (natLe (sizeBytes z) (atomOp op (8 * sizeBytes z) (leNat (T.readLocs ps)) x.toNat)))
            (.data (T.readLocs ps)))) ∧
        ∀ b z x y, o = .cas b z x y → exec (.remoteRequest m) s =
          .next (done (T.writeLocs ps (natLe (sizeBytes z) (if leNat (T.readLocs ps) = x.toNat then y.toNat else leNat (T.readLocs ps))))
            (.data (T.readLocs ps)))) ∧
    (∀ b y pa, o = .atom a b y pa → n = sizeBytes y → ∀ far l, reqPages s m.vf k (pagesOf a.toNat n) = (.ok [(.far far l, n)], S) →
      asksOf S who = [] → exec (.remoteRequest m) s =
        .next (intoInbox (ask S who m.vf 0 far .once [(0, .atom (BitVec.ofNat 64 l) b y pa)]) act)) ∧
    (∀ c, reqPages s m.vf k (pagesOf a.toNat n) = (.error (.cause c), S) → exec (.remoteRequest m) s = .next (back S (.cause c))) ∧
    (∀ i c, reqPages s m.vf k (pagesOf a.toNat n) = (.error (.wait i c), S) → exec (.remoteRequest m) s = .next (intoInbox S act)) ∧
    (reqPages s m.vf k (pagesOf a.toNat n) = (.error .busy, S) → exec (.remoteRequest m) s = .next (intoInbox S act))) ∧
  (∀ (s S : State) (m : Request) (key : Nat) (o : RemoteOp) (a : W64) (n : Nat) (k : Acc) (own : Bool) (past : List Nat) (act : Action),
    m.mode = .ask own past → m.ops = [(key, o)] → opRange o = some (a, n, k) → act = .event (.remoteRequest m) →
    (∀ ps, reqPages s m.vf k (pagesOf a.toNat n) = (.ok ps, S) → ∃ T H, exec (.remoteRequest m) s = .next T ∧
      T = respond (outOfInbox (({ S with held := S.held ++ [H], handle := S.handle + 1 } : State).flitIn m.vf) act) m (.pieces [(key, .pass)]) ∧
      H.src = m.src ∧ H.id = m.id ∧ H.vf = m.vf ∧ H.own = (if own then some S.handle else none) ∧ H.past = past ∧ H.ops = [(key, o, ps)] ∧
      H.freed = []) ∧
    (∀ c, o.isLine = false → reqPages s m.vf k (pagesOf a.toNat n) = (.error (.cause c), S) →
      exec (.remoteRequest m) s = .next (respond (outOfInbox (S.flitIn m.vf) act) m (.pieces [(key, .cause c)])))) ∧
  (∀ (s : State) (m : Request) (id : Nat) (act : Action), m.ops = [] → act = .event (.remoteRequest m) →
    (m.mode = .go id →
      (s.heldOf m.src id = none → exec (.remoteRequest m) s = .next (respond (outOfInbox (s.flitIn m.vf) act) m (.pieces []))) ∧
      ∀ h T, s.heldOf m.src id = some h → (∀ x ∈ h.ops, ∀ b j, x.2.1 ≠ .line b j ∧ x.2.1 ≠ .claim b j) →
        h.lostQueue s = false → (∀ x ∈ h.ops, ∀ y ∈ x.2.2, y.1.away = none) →
        opsArrive (behind s h) h.vf h.own false h.ops = (none, T) → ∃ U, exec (.remoteRequest m) s = .next U ∧
          U = respond (outOfInbox (({ dropAsks (performOps T h.vf [] 0 h.ops).2 (.fwd m.src m.id) with
            held := (s.dropHeld m.src id).held } : State).flitIn m.vf) act) m (.pieces (performOps T h.vf [] 0 h.ops).1)) ∧
    (m.mode = .cancel id → ∃ U, exec (.remoteRequest m) s = .next U ∧ U.held = (s.dropHeld m.src id).held ∧ U.mem = s.mem ∧
      U.groups = s.groups ∧ U.heldOf m.src id = none)) ∧
  (∀ (s : State) (m : Request) (key : Nat) (h : W64) (o : RemoteOp) (back : State → Answer → State), m.ops = [(key, o)] →
    (∀ T x, back T x = respond (outOfInbox (T.flitIn m.vf) (.event (.remoteRequest m))) m x) →
    (o = .probe h ∨ o = .eos h ∨ o = .slot h ∨ o = .unslot h ∨ (∃ x, o = .enqKept h x) ∨ ∃ x, o = .enq h x) →
    ((∀ n, localQueue s m.vf h ≠ .here n) → exec (.remoteRequest m) s = .next (back s .badHandle)) ∧
    ∀ n q, localQueue s m.vf h = .here n → s.queues.get n = some q →
      (o = .probe h → exec (.remoteRequest m) s = .next (back s (.queue false))) ∧
      (o = .eos h → exec (.remoteRequest m) s = .next (back (s.setQueue n q.post) (.queue false))) ∧
      (o = .slot h → q.full = false → exec (.remoteRequest m) s = .next (back (s.setQueue n q.keep) (.queue false))) ∧
      (o = .slot h → q.full = true → exec (.remoteRequest m) s = .next (back (queueEvent s n 1 m.g.toNat) (.queue true))) ∧
      (o = .unslot h → exec (.remoteRequest m) s = .next (back (s.setQueue n q.unkeep) (.queue false))) ∧
      (∀ x, o = .enqKept h x → exec (.remoteRequest m) s = .next (back (pushQueue s n q.unkeep x) (.queue false))) ∧
      (∀ x S, o = .enq h x → enqueue s n x = some S → exec (.remoteRequest m) s = .next (back S (.queue false))) ∧
      ∀ x, o = .enq h x → enqueue s n x = none → exec (.remoteRequest m) s = .next (back (queueEvent s n 1 m.g.toNat) (.queue true))) ∧
  (∀ (s : State) (id : Nat) (k : Ask), s.asks.get id = some k →
    (∀ a x, k.ans = some x → exec (.remoteResponse id a) s = .next s) ∧
    (∀ a, k.ans = none → fatalCause a = none ∨ (∃ x y, k.who = .fwd x y) → exec (.remoteResponse id a) s =
      .next { s.flitIn k.vf with asks := s.asks.put id { k with ans := some a } }) ∧
    (∀ a c, k.ans = none → fatalCause a = some c → (∀ x y, k.who ≠ .fwd x y) → exec (.remoteResponse id a) s =
      .next (endContext { s.flitIn k.vf with asks := s.asks.del id } k.vf c 0)) ∧
    (fabricLate s id = false → exec (.fabricTimeout id) s = .next s) ∧
    ((∃ x y, k.who = .fwd x y) → fabricLate s id = false) ∧
    ((∀ x, k.who ≠ .migr x) → (∀ x y, k.who ≠ .fwd x y) →
      (fabricLate s id = true → exec (.fabricTimeout id) s = .next (endContext { s with asks := s.asks.del id } k.vf 0x18 0)) ∧
      (fabricLate s id = true ↔ k.ans = none ∧
        k.since + (s.pad (s.vf k.vf).paddock.toNat).timers.fabto.toNat * 2 ^ 32 ≤ s.bell.toNat))) ∧
  (∀ (s : State) (id : Nat) (a : Answer), s.asks.get id = none →
    exec (.remoteResponse id a) s = .next s ∧ exec (.fabricTimeout id) s = .next s) ∧
  ∀ (s : State) (r : PathRef) (g : Group) (p : Path) (w : RemoteWait), s.path r = some (g, p) → p.st = .remote w →
    mayIssue s r g p = true → ∀ k ∈ s.asks, k.2.who = .path r → k.2.ans ≠ none

/-- The launches of a domain (16 R348-R350): a START of the copy that waits is noted, and the last one starts it; a START of the next
generation is kept; any other is counted. An ABORT, or the start timeout, ends a copy that has not started: its teams and its grid leave,
its generation is spent, and the STARTs of the next stay. A copy that has started is not touched. That an ended copy completes with identifier FFFFFFFF
and cause 0x22, and that an ABORT of the next generation moves DGEN where no copy of it waits, are the model's reading (log entry 27). -/
def Sys2Proof.Claim.DomainLaunches : Prop :=
  (∀ (s : State) (vf src : Nat) (gen : W32) (h : Nat) (d : Grid) (w : DomainWait), waitingCopy s vf gen = some (h, d) → d.domain = some w →
    (s.vf vf).dgen = gen →
    exec (.startMsg vf src gen) s = .next ((s.flitIn vf).setGrid h { d with
      domain := some { w with got := w.got ||| 1#256 <<< src }
      started := (w.got ||| 1#256 <<< src) &&& w.mask == w.mask })) ∧
  (∀ (s : State) (vf src : Nat) (gen : W32), waitingCopy s vf gen = none →
    (gen = (s.vf vf).dgen + 1 →
      exec (.startMsg vf src gen) s = .next ((s.flitIn vf).setVf vf fun v => { v with starts := v.starts ++ [(src, gen)] }) ∧
      exec (.abortMsg vf src gen) s = .next ((s.flitIn vf).setVf vf fun v => { v with
        dgen := gen, starts := v.starts.filter fun x => x.2 == gen + 1 })) ∧
    (gen ≠ (s.vf vf).dgen + 1 → exec (.startMsg vf src gen) s = .next ((s.flitIn vf).count vf 22 1) ∧
      exec (.abortMsg vf src gen) s = .next (s.flitIn vf))) ∧
  (∀ (s : State) (vf src : Nat) (gen : W32) (h : Nat) (d : Grid), waitingCopy s vf gen = some (h, d) →
    ∃ T, exec (.abortMsg vf src gen) s = .next T ∧ T = abortCopy (s.flitIn vf) vf gen ∧ T.grid h = none ∧
      (∀ e ∈ T.teams, e.2.grid ≠ h) ∧ (T.vf vf).dgen = gen ∧ (T.vf vf).starts = (s.vf vf).starts.filter fun x => x.2 == gen + 1) ∧
  ∀ (s : State) (h : Nat) (d : Grid), s.grid h = some d →
    (startLate s d = true → exec (.startTimeout h) s = .next (abortCopy (sendAborts s d.vf d.launch.modmask d.launch.gen) d.vf d.launch.gen)) ∧
    (startLate s d = false → exec (.startTimeout h) s = .next s) ∧
    (d.started = true → startLate s d = false)

/-! ### Heads, encoders, records (17 R353-R356, 18 R376-R384, 20 R397, 22 R430-R433) -/

/-- At its moment a head scans the strip's slot out, or repeats the last one, and the slots it has passed are FREE; an encoder codes its most
urgent ready row and posts it, whole, without its bytes where the ring has no room for them, or not at all (18 R381-R384). The coded bytes are
free (log entry 11). That a row whose ring's page waits for the host stays as it is coded is the model's choice (log entry 43). -/
def Sys2Proof.Claim.HeadsAndEncoders : Prop :=
  (∀ (s : State) (pd st : Nat) (t : Stream) (i : Nat) (x : Ring) (video : List (Nat × Nat × Nat) → Sent), (s.pad pd).stream st = some t →
    t.lastRing = some i → (s.pad pd).ring i = some x → t.kind = 1 →
    (∀ px, video px = .video pd t.unit ((s.pad pd).heads.rd (BitVec.ofNat 2 t.unit)) x.bits px) →
    (s.bell.toNat < t.q t.cons.strip → exec (.headScanout pd st) s = .next s) ∧
    (t.q t.cons.strip ≤ s.bell.toNat →
      (∀ c o S, (if t.committed x t.cons.strip = true then some (x.slotOf t.cons.strip) else t.cons.lastSlot) = some o →
        slotMeets s t.vf pd x o (x.linesOf t.spf t.cons.strip) = (some c, S) → exec (.headScanout pd st) s = .next (endContext S t.vf c 0)) ∧
      (t.committed x t.cons.strip = true →
        ∀ S, slotMeets s t.vf pd x (x.slotOf t.cons.strip) (x.linesOf t.spf t.cons.strip) = (none, S) →
        ∃ T u, exec (.headScanout pd st) s = .next T ∧
          T.out = S.out ++ [video (slotPixels s pd x (x.slotOf t.cons.strip) (x.linesOf t.spf t.cons.strip))] ∧
          (T.pad pd).stream st = some u ∧ u.cons = { t.cons with strip := t.cons.strip + 1, lastSlot := some (x.slotOf t.cons.strip) } ∧
          (T.pad pd).ring i = some (x.scanned t (x.slotOf t.cons.strip)) ∧ T.mem = s.mem ∧ T.fold = s.fold) ∧
      (t.committed x t.cons.strip = false →
        ∀ S, (match t.cons.lastSlot with | some o => slotMeets s t.vf pd x o (x.linesOf t.spf t.cons.strip) | none => (none, s)) = (none, S) →
        ∃ T u, exec (.headScanout pd st) s = .next T ∧
          T.out = S.out ++ [video (match t.cons.lastSlot with
            | some o => slotPixels s pd x o (x.linesOf t.spf t.cons.strip)
            | none => List.replicate (x.linesOf t.spf t.cons.strip * x.width) (0, 0, 0))] ∧
          (T.pad pd).stream st = some u ∧ u.cons = { t.cons with strip := t.cons.strip + 1 } ∧ (T.pad pd).ring i = some x))) ∧
  (∀ (x : Ring) (t : Stream) (slot i : Nat), i < x.slots.length →
    (x.scanned t slot).slot i = if x.slot i = .committed ∧ i ≠ slot ∧ (∀ n ∈ t.commits, x.slotOf n ≠ i) then .free else x.slot i) ∧
  (∀ (s : State) (pd st : Nat) (t : Stream) (again : Bool), (s.pad pd).stream st = some t → rowReady s pd t = some again →
    (encoderFree s pd t = true → ∃ T, exec (.encodeStart pd st) s = .next T ∧ T.mem = s.mem ∧ T.groups = s.groups ∧
      (T.pad pd).stream st = some { t with cons := { t.cons with busy := some again } }) ∧
    (encoderFree s pd t = false → exec (.encodeStart pd st) s = .next s)) ∧
  (∀ (s : State) (pd st : Nat) (t : Stream) (again : Bool), (s.pad pd).stream st = some t → t.cons.busy = some again →
    ∀ puts : State → Nat → List W8 → Prop, (∀ V at_ l, puts V at_ l ↔
      (∀ U, V.devWrite t.vf (t.bsr.toNat + at_) l = (.wait, U) →
        exec (.tileRowPost pd st) s = .next (setCons U pd st { t.cons with rec_ := some (at_, l) })) ∧
      ∀ x U W, V.devWrite t.vf (t.bsr.toNat + at_) l = (x, U) → x = .ok () ∨ x = .fail → W = writeRec U t.vf t.bsr.toNat (natLe 8 (at_ + l.length)) →
        exec (.tileRowPost pd st) s =
          .next (rowPosted (setStreamOf W pd st fun t => { t with written := at_ + l.length }) pd st again t.cons.strip)) →
    (∀ at_ l, t.cons.rec_ = some (at_, l) → puts s at_ l) ∧
    (t.cons.rec_ = none →
      (∀ S, s.devRead t.vf (t.bsr.toNat + 8) 8 = (.wait, S) → exec (.tileRowPost pd st) s = .next S) ∧
      ∀ d R, s.devRead t.vf (t.bsr.toNat + 8) 8 = (.ok d, R) →
        (∀ c S, rowMeets R pd t again = (some c, S) → exec (.tileRowPost pd st) s = .next (endContext S t.vf c 0)) ∧
        ∀ S V, rowMeets R pd t again = (none, S) → V = { S with free := S.free + 1 } →
          (rowPlace t again S.ns (obuBytes S pd t again) (max 64 (leNat d)) = none →
            exec (.tileRowPost pd st) s = .next (rowPosted V pd st again t.cons.strip)) ∧
          ∀ at_ l, rowPlace t again S.ns (obuBytes S pd t again) (max 64 (leNat d)) = some (at_, l) → puts V at_ l)) ∧
  ∀ (s : State) (pd st n : Nat) (t : Stream) (again : Bool), (s.pad pd).stream st = some t →
    ∃ u, ((rowPosted s pd st again n).pad pd).stream st = some u ∧ u.cons = { t.cons with strip := n + 1, busy := none, rec_ := none } ∧
      u.commits = t.commits.filter (n < ·) ∧ (rowPosted s pd st again n).groups = s.groups ∧ (rowPosted s pd st again n).mem = s.mem ∧
      ∀ i x, t.lastRing = some i → (s.pad pd).ring i = some x →
        ((rowPosted s pd st again n).pad pd).ring i = some (if again then x else x.setSlot (x.slotOf n) .free)

/-- Records of a VF and events of a Paddock (20 R396, R397, 22 R430-R433): the oldest that waits is written where its ring has room and WRITE
advances; a trace record that its buffer does not take, or that has waited too long, is dropped and counted. A tile closes with a stamp
once its copies are done, and counts in its chain when the stamp is written; a sample names the path in the lowest slot. The MMA field of a tile
that closes with an `mma` incomplete is free (log entry 36). -/
def Sys2Proof.Claim.RecordsAndEvents : Prop :=
  (∀ (s : State) (pd : Nat) (e : BitVec 256) (rest : List (BitVec 256)) (pa : Nat), (s.pad pd).events = e :: rest →
    4 ≤ (s.pad pd).evlog.toNat → (s.pad pd).evlog.toNat ≤ 16 →
    (2 ^ (s.pad pd).evlog.toNat ≤ ((s.pad pd).evwrite - (s.pad pd).evread).toNat → exec (.eventPost pd) s = .next s) ∧
    (((s.pad pd).evwrite - (s.pad pd).evread).toNat < 2 ^ (s.pad pd).evlog.toNat → s.mem.wf = true →
      hostPa ((s.pad pd).evbase.toNat + 32 * ((s.pad pd).evwrite.toNat % 2 ^ (s.pad pd).evlog.toNat)) 32 = some pa →
      (owned s none [(pa, 32)] = true → exec (.eventPost pd) s = .next s) ∧
      (owned s none [(pa, 32)] = false → ∃ T, exec (.eventPost pd) s = .next T ∧ T.pad pd = { s.pad pd with events := rest, evwrite := (s.pad pd).evwrite + 1 } ∧
        T.mem.read pa 32 = natLe 32 e.toNat ∧ (∀ a, a < pa ∨ pa + 32 ≤ a → T.mem.get a = s.mem.get a) ∧
        T.msix = s.msix ++ [2 + pd] ∧ T.groups = s.groups))) ∧
  (∀ (s : State) (vf : Nat) (x : TraceRec) (rest : List TraceRec) (n : Nat), (s.vf vf).trace = x :: rest → n = (s.vf vf).trlog.toNat →
    ((s.vf vf).tren = false ∨ n < 7 ∨ 20 < n ∨ ((s.vf vf).trwrite - (s.vf vf).trread).toNat = 2 ^ n ∨ x.ns.toNat + 10000 < s.ns.toNat →
      ∃ T, exec (.traceRecordWrite vf) s = .next T ∧ (T.vf vf).trace = rest ∧ (T.vf vf).ctr.rd 32 = (s.vf vf).ctr.rd 32 + 1 ∧
        T.mem = s.mem ∧ (T.vf vf).trwrite = (s.vf vf).trwrite ∧ T.paddocks = s.paddocks) ∧
    ((s.vf vf).tren = true → 7 ≤ n → n ≤ 20 → ((s.vf vf).trwrite - (s.vf vf).trread).toNat ≠ 2 ^ n → s.ns.toNat ≤ x.ns.toNat + 10000 →
      ∀ S, s.devWrite vf ((s.vf vf).trbase.toNat + 32 * ((s.vf vf).trwrite.toNat % 2 ^ n)) (natLe 32 x.body.toNat) = (.ok (), S) →
        ∃ T, exec (.traceRecordWrite vf) s = .next T ∧ (T.vf vf).trace = rest ∧ (T.vf vf).trwrite = (s.vf vf).trwrite + 1 ∧
          T.mem = S.mem ∧ T.groups = s.groups ∧
          ∀ pd st k t c, x.tile = some (pd, st, k) → (S.pad pd).stream st = some t → t.chainOf k = some c →
            (T.pad pd).stream st = some (t.setChain { c with doneTiles := c.doneTiles + 1 })) ∧
    (x.ns.toNat + 10000 < s.ns.toNat →
      ∃ T, exec (.traceRecordDrop vf) s = .next T ∧ (T.vf vf).trace = rest ∧ (T.vf vf).ctr.rd 32 = (s.vf vf).ctr.rd 32 + 1 ∧ T.mem = s.mem) ∧
    (s.ns.toNat ≤ x.ns.toNat + 10000 → exec (.traceRecordDrop vf) s = .next s)) ∧
  (∀ (s : State) (h : Nat) (g : Group) (tag : W16) (by_ : Bool), s.group h = some g → by_ = g.closing.contains tag →
    (tagBusy g tag = true → by_ = true → exec (.tileClose h tag) s = .next s) ∧
    (tagBusy g tag = false ∨ by_ = false → ∃ T G, exec (.tileClose h tag) s = .next T ∧ T.group h = some G ∧
      G = { g with closing := g.closing.erase tag, log := G.log } ∧ T.mem = s.mem ∧
      (T.vf (s.vfOf g)).trace = (s.vf (s.vfOf g)).trace ++ [{
        body := rec32 (stampBytes s g tag by_)
        ns := s.ns
        tile := if by_ then stripOf s g else none }])) ∧
  ∀ (s : State) (vf core : Nat),
    (firstIssue s vf core = none → exec (.pathSample vf core) s = .next s) ∧
    ∀ r g p, firstIssue s vf core = some (r, g, p) → ∃ T x, exec (.pathSample vf core) s = .next T ∧ T.groups = s.groups ∧ T.mem = s.mem ∧
      (T.vf vf).trace = (s.vf vf).trace ++ [⟨rec32 x, s.ns, none⟩] ∧ x.length = 32 ∧ field x 0 2 = core % 2 ^ 16 ∧ field x 2 1 = 2 ∧
      field x 3 1 = r.p.toNat ∧ field x 4 4 = g.lin % 2 ^ 32 ∧ field x 12 1 = p.mask.toNat ∧ field x 16 8 = p.pc.toNat ∧
      field x 24 8 = s.ns.toNat ∧ ∃ c, (c, g, p) ∈ issuing s vf core ∧ c.r = r ∧ ∀ y ∈ issuing s vf core, y.1.before c = false

/-! ### The Shepherd (22 R434-R440) -/

/-- The filter instructions (22 R436): each of these leaves its register or next word as given, counts one executed instruction, and
changes nothing else; `hist`, `cms` and `trig` keep their updates for the end. -/
def Sys2Proof.Claim.FiltersCompute : Prop :=
  ∀ (s : State) (vf : Nat) (e : Eval) (next : Eval → State → Prop), s.eval = some (vf, e) →
    (∀ e' t, next e' t ↔ t.eval = some (vf, e') ∧ t = { s with vfs := t.vfs } ∧ (∀ n, n ≠ vf → t.vf n = s.vf n) ∧
      t.vf vf = { s.vf vf with
        ctr := (s.vf vf).ctr.wr 30 ((s.vf vf).ctr.rd 30 + 1)
        sh := { (s.vf vf).sh with eval := some e' } }) →
    (∀ (i : Instr) (d a b : BitVec 4) (k : W16) (n : BitVec 5) (m : BitVec 2) (f : BitVec 4) (v : W32),
      (i = .shLdf d f ∧ v = e.ev.e.rd f) ∨ (i = .shLdi d k ∧ v = k.setWidth 32) ∨
      (i = .shLdih d k ∧ v = k ++ (e.h.rd d).setWidth 16) ∨ (i = .shAdd d a b ∧ v = e.h.rd a + e.h.rd b) ∨
      (i = .shAddi d a k ∧ v = e.h.rd a + k.setWidth 32) ∨ (i = .shSub d a b ∧ v = e.h.rd a - e.h.rd b) ∨
      (i = .shAnd d a b ∧ v = e.h.rd a &&& e.h.rd b) ∨ (i = .shOr d a b ∧ v = e.h.rd a ||| e.h.rd b) ∨
      (i = .shShl d a n ∧ v = e.h.rd a <<< n.toNat) ∨ (i = .shShr d a n ∧ v = e.h.rd a >>> n.toNat) ∨
      (i = .shMin d a b ∧ v.toNat = min (e.h.rd a).toNat (e.h.rd b).toNat) ∨
      (i = .shCeq d a b ∧ v = if e.h.rd a = e.h.rd b then 1 else 0) ∨
      (i = .shCltu d a b ∧ v = if (e.h.rd a).toNat < (e.h.rd b).toNat then 1 else 0) ∨
      (i = .shHash d a m ∧ v = (e.h.rd a ^^^ e.h.rd a >>> 16) * (([0x9E3779B1, 0x85EBCA77, 0xC2B2AE3D, 0x27D4EB2F] : List W32).getD m.toNat 0)) →
      ∃ t, exec i s = .next t ∧ next { e with h := e.h.wr d v, ix := e.ix + 1 } t) ∧
    (∀ (a : BitVec 4) (o : W8),
      (∃ t, exec (.shBz a o) s = .next t ∧ next { e with ix := if e.h.rd a = 0 then e.ix + o.toNat else e.ix + 1 } t) ∧
      ∃ t, exec (.shBnz a o) s = .next t ∧ next { e with ix := if e.h.rd a = 0 then e.ix + 1 else e.ix + o.toNat } t) ∧
    (∀ n a : BitVec 4, ∃ t, exec (.shHist n a) s = .next t ∧
      next { e with hist := e.hist ++ [(n.setWidth 2, BitVec.ofNat 6 (min (e.h.rd a).toNat 63))], ix := e.ix + 1 } t) ∧
    (∀ a b : BitVec 4, ∃ t, exec (.shCms a b) s = .next t ∧
      next { e with
        cms := e.cms ++ ([0, 1, 2, 3] : List (BitVec 2)).map fun r => (r, (((e.h.rd a ^^^ e.h.rd a >>> 16) *
          (([0x9E3779B1, 0x85EBCA77, 0xC2B2AE3D, 0x27D4EB2F] : List W32).getD r.toNat 0)) >>> 26).setWidth 6, e.h.rd b)
        ix := e.ix + 1 } t) ∧
    (∀ (a : BitVec 4) (c : W16), ∃ t, exec (.shTrig a c) s = .next t ∧ next { e with trig := e.trig ++ [(e.h.rd a, c)], ix := e.ix + 1 } t)

/-- The end of an evaluation (22 R436, R438): `end` adds to the tables, saturating, and forms a record for each trigger; `drop` leaves the
tables and triggers and counts a drop; both count the instruction, and nothing is under evaluation. -/
def Sys2Proof.Claim.FiltersEnd : Prop :=
  ∀ (s : State) (vf : Nat) (e : Eval), s.eval = some (vf, e) →
    (∃ T, exec .shDrop s = .next T ∧ T.evalVf = none ∧ (T.vf vf).sh = { (s.vf vf).sh with eval := none } ∧
      (T.vf vf).trace = (s.vf vf).trace ∧ (T.vf vf).ctr.rd 29 = (s.vf vf).ctr.rd 29 + 1 ∧ (T.vf vf).ctr.rd 30 = (s.vf vf).ctr.rd 30 + 1 ∧
      T.mem = s.mem ∧ T.groups = s.groups) ∧
    ∃ T, exec .shEnd s = .next T ∧ T.evalVf = none ∧ (T.vf vf).sh.eval = none ∧ (T.vf vf).sh.slots = (s.vf vf).sh.slots ∧
      (T.vf vf).sh.accepted = (s.vf vf).sh.accepted ∧ T.mem = s.mem ∧ T.groups = s.groups ∧
      (T.vf vf).ctr.rd 30 = (s.vf vf).ctr.rd 30 + 1 ∧ (T.vf vf).ctr.rd 31 = (s.vf vf).ctr.rd 31 + BitVec.ofNat 64 e.trig.length ∧
      (T.vf vf).trace = (s.vf vf).trace ++ (e.trig.map fun t => ⟨rec32 (trigBytes e.ev t), s.ns, none⟩) ∧
      (∀ r c, ((((T.vf vf).sh.ht.rd r).rd c).toNat) =
        min (((((s.vf vf).sh.ht.rd r).rd c).toNat) + (e.hist.filter fun x => x.1 == r && x.2 == c).length) 0xFFFFFFFF) ∧
      ∀ r c, ((((T.vf vf).sh.sk.rd r).rd c).toNat) =
        min (((((s.vf vf).sh.sk.rd r).rd c).toNat) + ((e.cms.filter fun x => x.1 == r && x.2.1 == c).map fun x => x.2.2.toNat).sum) 0xFFFFFFFF

/-- Offers and windows (22 R439): the oldest offer is accepted, with the credit its evaluation uses spent, when the longest path of its
slot fits the credit and fewer than 64 wait; else it is refused and counted. The oldest accepted event is evaluated from word 0 with its
registers zero. A window that starts, as it does when the Bellwether shows it, has the credit that EFF gives at that moment, and what was offered in
the last one has been taken. -/
def Sys2Proof.Claim.EventsAccepted : Prop :=
  ∀ (s : State) (vf : Nat) (h : Shepherd), h = (s.vf vf).sh →
    (∀ (e : ShEvent) (rest : List ShEvent), h.offers = e :: rest →
      (h.maxpath.rd (h.slotOf e.cls.toNat) ≤ h.credit ∧ h.accepted.length < 64 →
        ∃ T, exec (.shEventOffer vf) s = .next T ∧ T.groups = s.groups ∧ T.mem = s.mem ∧
          (T.vf vf).sh = { h with
            offers := rest
            accepted := h.accepted ++ [e]
            credit := h.credit - filterCount h (h.slotOf e.cls.toNat) e.e 32 (Bank.fill 0) 0 } ∧
          (T.vf vf).ctr.rd 27 = (s.vf vf).ctr.rd 27 + 1 ∧ (T.vf vf).ctr.rd 28 = (s.vf vf).ctr.rd 28) ∧
      (¬ (h.maxpath.rd (h.slotOf e.cls.toNat) ≤ h.credit ∧ h.accepted.length < 64) →
        ∃ T, exec (.shEventOffer vf) s = .next T ∧ T.groups = s.groups ∧ T.mem = s.mem ∧
          (T.vf vf).sh = { h with offers := rest } ∧
          (T.vf vf).ctr.rd 28 = (s.vf vf).ctr.rd 28 + 1 ∧ (T.vf vf).ctr.rd 27 = (s.vf vf).ctr.rd 27)) ∧
    (∀ (e : ShEvent) (rest : List ShEvent), h.accepted = e :: rest → h.eval = none →
      ∃ T x, exec (.shEvaluate vf) s = .next T ∧ T.eval = some (vf, x) ∧ x.ev = e ∧ x.slot = h.slotOf e.cls.toNat ∧ x.ix = 0 ∧
        (∀ n, x.h.rd n = 0) ∧ x.hist = [] ∧ x.cms = [] ∧ x.trig = [] ∧ (T.vf vf).sh = { h with accepted := rest, eval := some x } ∧
        T.mem = s.mem ∧ T.groups = s.groups) ∧
    (h.offers = [] → h.window ≠ s.ns.toNat / 1000 →
      exec (.shWindow vf) s = .next (s.setVf vf fun v => { v with sh := { h with credit := shEff s vf, window := s.ns.toNat / 1000 } })) ∧
    (h.window ≠ s.ns.toNat / 1000 → ∃ T, exec (.shWindow vf) s = .next T ∧ (T.vf vf).sh.offers = [] ∧ (T.vf vf).sh.credit = shEff s vf ∧
      (T.vf vf).sh.window = s.ns.toNat / 1000 ∧ T.mem = s.mem ∧ T.groups = s.groups) ∧
    (h.window = s.ns.toNat / 1000 → exec (.shWindow vf) s = .next s) ∧
    (∀ b : BitVec 96, s.frozen = false → (s.vfs.get vf).isSome = true →
      ((s.setBell b).vf vf).sh.window = (s.setBell b).ns.toNat / 1000 ∧ (s.setBell b).bell = b) ∧
    (h.accepted = [] ∨ h.eval ≠ none → exec (.shEvaluate vf) s = .next s)

/-- Attachment and slots (22 R435, R437): a write of SHATTACH takes effect whole when every slot it names passes the checks, and not at
all, with ERR set, otherwise; a word or length of a slot that an attached class names is not written, and sets ERR, a write of several lengths
being refused whole (the model's choice, log entry 38); without the Shepherd negotiated both writes reach nothing. -/
def Sys2Proof.Claim.FiltersAttach : Prop :=
  ∀ (s : State) (vf : Nat) (v : W64) (w : HostWrite) (h h' : Shepherd), h = (s.vf vf).sh → h' = { h with att := v.setWidth 48 &&& 0x878787878787 } →
    w.win = .vf vf →
    (shepherdOn s = false → exec (.shattachWrite vf v) s = .next s ∧ exec (.shSlotWrite w) s = .next s) ∧
    (shepherdOn s = true →
      (((List.range 6).all fun c => !h'.attached c || slotOk h' (h'.slotOf c)) = true →
        ∃ T, exec (.shattachWrite vf v) s = .next T ∧ (T.vf vf).sh = { h' with maxpath := (T.vf vf).sh.maxpath } ∧
          (∀ i, (T.vf vf).sh.maxpath.rd i = if h'.names i then longest h' i 32 0 else h.maxpath.rd i) ∧ T.mem = s.mem ∧ T.groups = s.groups) ∧
      (((List.range 6).all fun c => !h'.attached c || slotOk h' (h'.slotOf c)) = false →
        exec (.shattachWrite vf v) s = .next (s.setVf vf fun f => { f with sh := { h with err := true } })) ∧
      (∀ i, w.off = 0x3100 + 4 * i → i < 256 → w.wide = false →
        (h.names (BitVec.ofNat 3 (i / 32)) = true → exec (.shSlotWrite w) s = .next (s.setVf vf fun f => { f with sh := { h with err := true } })) ∧
        (h.names (BitVec.ofNat 3 (i / 32)) = false → exec (.shSlotWrite w) s = .next (s.setVf vf fun f => { f with
          sh := { h with slots := h.slots.wr (BitVec.ofNat 3 (i / 32)) ((h.slots.rd (BitVec.ofNat 3 (i / 32))).wr (BitVec.ofNat 5 i) (w.v.setWidth 32)) } }))) ∧
      (w.off = 0x3018 → w.wide = true →
        (∀ i : BitVec 3, h.names i = false) →
          exec (.shSlotWrite w) s = .next (s.setVf vf fun f => { f with
            sh := { h with len := Bank.gen fun i => w.v.extractLsb' (8 * i.toNat) 6 } })) ∧
      (w.off = 0x3018 ∨ w.off = 0x301C → (∃ i ∈ lenSlots w, h.names i = true) →
        exec (.shSlotWrite w) s = .next (s.setVf vf fun f => { f with sh := { h with err := true } })))

/-! ### The Crook (21 R416-R420, 22 R442-R444) -/

/-- The Crook's commands on a group (21 R419, 22 R442, R443): `halt` holds its paths, one that waits for another module at its boundary; `resume` lets a held path whose notice has been posted
go on where it stands; `step` arms its single step, counts from zero where it was not armed; a register of a held path goes to VAL. Status 1 answers a
group or path that is not there or not held, 2 a field out of range. -/
def Sys2Proof.Claim.CrookCommandsOnGroups : Prop :=
  ∀ (s : State) (c : CrookTo) (answers : Instr → W8 → State → W8 → Prop),
    (∀ i code S st, answers i code S st ↔ exec i s = .next (S.setVf c.vf fun v => { v with
      crook := { v.crook with busy := false, tag := c.tag, code := code, status := st } })) →
    (namedGroup s c = .none → answers (.crookHalt c) 1 s 1 ∧ (∀ x, answers (.resume c x) 2 s 1) ∧ answers (.crookStep c 1) 3 s 1 ∧
      answers (.crookStep c 0) 3 s 1 ∧ ∀ x n, answers (.regread c x n) 6 s 1) ∧
    (∀ a : W8, 1 < a.toNat → answers (.crookStep c a) 3 s 2) ∧
    (∀ gh d, namedGroup s c = .grid gh d → answers (.crookHalt c) 1 s 0 ∧ answers (.resume c 0xFF) 2 s 0 ∧
      answers (.crookStep c 1) 3 (s.setGrid gh { d with armed := d.armed.filter (· != c.g.toNat) ++ [c.g.toNat] }) 0 ∧
      answers (.crookStep c 0) 3 (s.setGrid gh { d with armed := d.armed.filter (· != c.g.toNat) }) 0) ∧
    ∀ h g, namedGroup s c = .group h g → s.group h = some g →
      (∃ S, answers (.crookHalt c) 1 S 0 ∧ ∀ i q, g.paths.rd i = some q →
        ((∀ w, q.st ≠ .remote w) → g.pairs.rd i = none →
          ∃ G q', S.path ⟨h, i⟩ = some (G, q') ∧ q'.st = .held ∧ q'.mask = q.mask ∧ q'.s = q.s ∧ (q.st ≠ .held → G.live i = false)) ∧
        ((∃ w, q.st = .remote w) → ∃ G q', S.path ⟨h, i⟩ = some (G, q') ∧ q' = { q with hold := true })) ∧
      (g.stepArm = true → answers (.crookStep c 1) 3 (s.setGroup h g) 0) ∧
      (g.stepArm = false → ∃ S G, answers (.crookStep c 1) 3 S 0 ∧ S = s.setGroup h G ∧ G.stepArm = true ∧
        (∀ i, G.paths.rd i = (g.paths.rd i).map fun p => { p with stepN := 0 }) ∧
        (∀ j x, G.joins.rd j = some x → ∀ a ∈ x.arr, a.stepN = 0) ∧ ∀ z, G.ser = some z → z.steps = 0 ∧ ∀ a ∈ z.arr, a.stepN = 0) ∧
      answers (.crookStep c 0) 3 (s.setGroup h { g with stepArm := false }) 0 ∧
      (∀ x : W8, 8 ≤ x.toNat → (x ≠ 0xFF → answers (.resume c x) 2 s 2) ∧ ∀ n, answers (.regread c x n) 6 s 2) ∧
      ∀ (x : W8) (i : BitVec 3), x = i.setWidth 8 →
        ((∀ q, g.paths.rd i = some q → q.st ≠ .held) → answers (.resume c x) 2 s 1 ∧ ∀ n, answers (.regread c x n) 6 s 1) ∧
        ∀ q, g.paths.rd i = some q → q.st = .held →
          ((∀ n ∈ (s.vf (s.vfOf g)).crook.notices, n.ref ≠ ⟨h, i⟩) → ∃ S G q', answers (.resume c x) 2 S 0 ∧
            S.path ⟨h, i⟩ = some (G, q') ∧ q'.st = .ready ∧ q'.pc = q.pc ∧ q'.mask = q.mask ∧ q'.s = q.s ∧
            (G.live i = true ∨ i ∈ G.fifo) ∧ ∀ k, k ≠ i → G.paths.rd k = g.paths.rd k) ∧
          ((∃ n ∈ (s.vf (s.vfOf g)).crook.notices, n.ref = ⟨h, i⟩) → ∃ S G q', answers (.resume c x) 2 S 0 ∧
            S.path ⟨h, i⟩ = some (G, q') ∧ q'.st = .held) ∧
          (∀ n : W64, (∃ v, readReg (g.flush q.mask) q n.toNat = some v ∧ answers (.regread c x n) 6
              (s.setVf c.vf fun f => { f with crook := { f.crook with val := v } }) 0) ∨
            (readReg (g.flush q.mask) q n.toNat = none ∧ answers (.regread c x n) 6 s 2)) ∧
          (∀ n : SReg, readReg (g.flush q.mask) q n.toNat = some ((q.getS n).setWidth 256)) ∧
          ∀ n : Nat, 0x40 ≤ n → n < 0x100 ∨ 0x200 + 0x10 ≤ n ∧ n < 0x300 ∨ 0x304 ≤ n → readReg (g.flush q.mask) q n = none

/-- Break- and watchpoints and the notice ring (21 R416, R418, 22 R442, R444): the register takes the address with its armed bit, the
watchpoint its place, kind and length, 0 disarms, and a field out of range changes nothing and answers 2; that a length of 0 disarms whatever the
space and the kind say is the model's reading (log entry 44). A notice is posted where the ring
takes it, once its path's accesses are performed and none of an earlier command waits, and its number is the next SEQ; which of several it is, is free
(log entry 34). A write of a ring register tries again. -/
def Sys2Proof.Claim.CrookPointsAndNotices : Prop :=
  (∀ (s : State) (c : CrookTo) (i : W8) (a : W64) (S : State → W8 → W8 → State),
    (∀ T code st, S T code st = T.setVf c.vf fun v => { v with
      crook := { v.crook with busy := false, tag := c.tag, code := code, status := st } }) →
    (8 ≤ i.toNat ∨ a.toNat % 8 ≠ 0 → exec (.setbp c i a) s = .next (S s 4 2)) ∧
    (i.toNat < 8 → a.toNat % 8 = 0 → exec (.setbp c i a) s = .next (S (s.setVf c.vf fun f => { f with
      crook := { f.crook with bp := f.crook.bp.wr (i.setWidth 3) (if a = 0 then 0 else a ||| 1) } }) 4 0)) ∧
    ∀ (sp : W8) (x : W64) (len kind : Nat), len = x.toNat % 2 ^ 17 → kind = x.toNat / 2 ^ 32 % 4 →
      (4 ≤ i.toNat ∨ x &&& 0xFFFFFFFCFFFE0000 ≠ 0 ∨ a.toNat % 4 ≠ 0 → exec (.setwp c i sp a x) s = .next (S s 5 2)) ∧
      (i.toNat < 4 → x &&& 0xFFFFFFFCFFFE0000 = 0 → a.toNat % 4 = 0 →
        (len = 0 → exec (.setwp c i sp a x) s = .next (S (s.setVf c.vf fun f => { f with
          crook := { f.crook with wp := f.crook.wp.wr (i.setWidth 2) 0, wplen := f.crook.wplen.wr (i.setWidth 2) 0 } }) 5 0)) ∧
        (len ≠ 0 → (sp ≠ 1 ∧ sp ≠ 3) ∨ kind = 0 ∨ len % 4 ≠ 0 ∨ 65536 < len ∨ 2 ^ 32 ≤ a.toNat →
          exec (.setwp c i sp a x) s = .next (S s 5 2)) ∧
        (len ≠ 0 → sp = 1 ∨ sp = 3 → kind ≠ 0 → len % 4 = 0 → len ≤ 65536 → a.toNat < 2 ^ 32 →
          exec (.setwp c i sp a x) s = .next (S (s.setVf c.vf fun f => { f with crook := { f.crook with
            wp := f.crook.wp.wr (i.setWidth 2) (BitVec.ofNat 64 (a.toNat + sp.toNat * 2 ^ 32 + kind * 2 ^ 36))
            wplen := f.crook.wplen.wr (i.setWidth 2) (BitVec.ofNat 17 len) } }) 5 0)))) ∧
  ∀ (s : State) (vf : Nat) (k : Crook), k = (s.vf vf).crook →
    (∀ n : Notice, n ∈ postable s k.notices ↔ n ∈ k.notices ∧ performedAll s n.ref = true ∧ ∀ m ∈ k.notices, m.before n = false) ∧
    (∀ m n : Notice, m.before n = true ↔ ∃ i j, m.order = some i ∧ n.order = some j ∧ i < j) ∧
    (postable s k.notices = [] → exec (.noticePost vf) s = .next s) ∧
    (∀ n : Notice, (postable s k.notices)[Config.pick s.free % (postable s k.notices).length]? = some n →
      (k.nlog = 0 ∨ 2 ^ k.nlog.toNat ≤ (k.nwrite - k.nread).toNat → exec (.noticePost vf) s = .next s) ∧
      (k.nlog ≠ 0 → (k.nwrite - k.nread).toNat < 2 ^ k.nlog.toNat →
        ∀ x S, s.devWrite vf (k.nbase.toNat + 32 * (k.nwrite.toNat % 2 ^ k.nlog.toNat)) (natLe 32 (n.body.toNat + k.nwrite.toNat)) = (x, S) →
          (x = .fail ∨ x = .wait → exec (.noticePost vf) s = .next S) ∧
          (x = .ok () → n.go = false → ∃ T, exec (.noticePost vf) s = .next T ∧ T.mem = S.mem ∧ T.groups = s.groups ∧
            (T.vf vf).crook = { k with notices := k.notices.erase n, nwrite := k.nwrite + 1 }))) ∧
    (k.notices = [] →
      exec (.noticePost vf) s = .next s ∧
      ∀ x : W64,
        exec (.noticeRingWrite vf .nread x) s = .next (s.setVf vf fun v => { v with crook := { k with nread := x.setWidth 32 } }) ∧
        exec (.noticeRingWrite vf .nbase x) s = .next (s.setVf vf fun v => { v with crook := { k with nbase := x &&& ~~~0xFFF#64 } }) ∧
        exec (.noticeRingWrite vf .nlog x) s = .next (s.setVf vf fun v => { v with
          crook := if 4 ≤ x.toNat ∧ x.toNat ≤ 7 then { k with nlog := x.setWidth 4 } else k })) ∧
    ∀ x : W64, ∃ T, exec (.noticeRingWrite vf .nread x) s = .next T ∧ (T.vf vf).crook.nread = x.setWidth 32 ∧
      (T.vf vf).crook.nbase = k.nbase ∧ (T.vf vf).crook.notices.length ≤ k.notices.length

/-! ### The Bellwether (18 R360-R362) and host registers (16 R342, 20 R394-R397, 22 R428) -/

/-- The Bellwether (18 R360-R362): a tick adds 1 ns and ADJ, and a step its ns; both carry a slice that goes on alone forward, to a moment that is the
model's choice (log entry 37; R372 says only that it never ends); a read answers the count in
ns and latches its fraction; the source that SRC selects sets ADJ, clamped, and steps the count, which an admitted stream forbids; a PTM request is
answered with the count. The port steers the clock while SRC = 1, by a follow-up of a Sync of its master and by nothing else; by how much is free
(log entry 12). -/
def Sys2Proof.Claim.BellwetherCounts : Prop :=
  ∀ (s : State) (moved : BitVec 96 → State → Prop),
    (∀ b T, moved b T ↔ T.bell = b ∧ T.groups = s.groups ∧ T.mem = s.mem ∧ T.teams = s.teams ∧ T.grids = s.grids ∧ T.out = s.out ∧ T.adj = s.adj ∧
      (s.frozen = true → T = { s with bell := b }) ∧
      (s.frozen = false → ∀ pd v start len, (s.paddocks.get pd).isSome = true → (s.pad pd).slice = some (v, start) →
        len = (s.pad pd).timers.slice.toNat * 2 ^ 32 →
        (T.pad pd).slice = some (v,
          if (s.pad pd).timers.slice = 0xFFFFFFFF ∨ T.bell.toNat < start + len ∨ 2 ≤ (contenders s pd).length then start
          else T.bell.toNat - len))) →
    (∃ T, exec .bellwetherTick s = .next T ∧ moved (s.bell + 2 ^ 32 + s.adj.signExtend 96) T) ∧
    exec (.bwnsRead .host) s = .next { s with latchHost := s.bell.setWidth 32, out := s.out ++ [.host (s.bell.extractLsb' 32 64)] } ∧
    exec (.bwnsRead .controller) s = .next { s with latchCtl := s.bell.setWidth 32 } ∧
    exec .ptmRequest s = .next { s with out := s.out ++ [.ptm (s.bell.extractLsb' 32 64)] } ∧
    (∀ (w : Steer) (v : W32), (s.src = true ↔ w ≠ .controller) → exec (.adj w v) s = .next s) ∧
    (∀ (w : Steer) (v : W32), (s.src = true ↔ w = .controller) → ∃ x : W32, exec (.adj w v) s = .next { s with adj := x } ∧
      x.toInt = max (-4194304) (min 4194304 v.toInt)) ∧
    (∀ (w : Steer) (v : W64), (s.src = true ↔ w ≠ .controller) → exec (.bwStep w v) s = .next s) ∧
    (∀ (w : Steer) (v : W64), (s.src = true ↔ w = .controller) →
      (anyStream s = true → exec (.bwStep w v) s = .next { s with stepErr := true }) ∧
      (anyStream s = false → ∃ T, exec (.bwStep w v) s = .next T ∧ moved (s.bell + v.setWidth 96 <<< 32) T)) ∧
    (∀ b : BitVec 96, (s.setBell b).bell = b ∧ (s.setBell b).groups = s.groups ∧ (s.setBell b).mem = s.mem) ∧
    (s.src = false → ∀ f, exec (.ptpMessage f) s = .next s) ∧
    (s.src = true → ∀ f, parsePtp f = none → exec (.ptpMessage f) s = .next s) ∧
    (s.src = true → ∀ f m, parsePtp f = some m → ∃ T, exec (.ptpMessage f) s = .next T ∧ T.groups = s.groups ∧ T.mem = s.mem ∧
      (m.kind ≠ 8 ∨ s.ptp.parent ≠ m.src ∨ (∀ t, s.ptp.sync ≠ some (m.seq, t)) → T.adj = s.adj ∧ T.bell = s.bell) ∧
      (m.kind = 8 → s.ptp.parent = m.src → ∀ t, s.ptp.sync = some (m.seq, t) →
        T.adj = clampAdj (Config.ptpAdjust (t - m.time - m.corr - s.ptp.delay) s.free) ∧ T.ptp.ms = t - m.time - m.corr ∧ T.ptp.sync = none ∧
        (Config.ptpStep (t - m.time - m.corr - s.ptp.delay) s.free = none ∨ anyStream s = true → T.bell = s.bell)) ∧
      (m.kind = 0 → s.ptp.parent = m.src → m.twoStep = true → T.ptp.sync = some (m.seq, s.stamp - m.corr)))

/-- Registers that the host writes and reads (16 R342, 20 R394-R397, 22 R428): counter halves with their latch, work-queue doorbell and
configuration, handler entry and table root while the VF runs nothing, event READ, firmware doorbell, and the rules of other registers. -/
def Sys2Proof.Claim.HostRegisters : Prop :=
  ∀ (s : State),
    (∀ (vf : Nat) (n : W8) (v : W64) (S : State), readCounter s vf n = (v, S) →
      (∃ T, exec (.counterLoRead vf n) s = .next T ∧ T.out = s.out ++ [.host ((v.setWidth 32 : W32).setWidth 64)] ∧ T.groups = s.groups ∧
        (T.vf vf).clatchHi = v.extractLsb' 32 32 ∧ (T.vf vf).clatchValid = true ∧ (T.vf vf).clatchIdx = n) ∧
      ((s.vf vf).clatchValid = true → (s.vf vf).clatchIdx = n →
        exec (.counterHiRead vf n) s = .next { s with out := s.out ++ [.host ((s.vf vf).clatchHi.setWidth 64)] }) ∧
      ((s.vf vf).clatchValid = false ∨ (s.vf vf).clatchIdx ≠ n →
        exec (.counterHiRead vf n) s = .next { S with out := S.out ++ [.host (v >>> 32)] })) ∧
    (∀ (vf w q : Nat) (v : W64), wqAt s vf w = some q →
      (∃ T, exec (.wqtail vf w v) s = .next T ∧ T = { s with wqs := T.wqs } ∧ T.wq q = { s.wq q with
        wqtail := v.setWidth 16
        err := (s.wq q).err || ((s.wq q).en && decide (2 ^ (s.wq q).logn.toNat < ((v.setWidth 16 : W16) - (s.wq q).wqhead).toNat)) }) ∧
      (v.getLsbD 7 = false → ∃ T, exec (.wqcfg vf w v) s = .next T ∧ T = { s with wqs := T.wqs } ∧ (T.wq q).en = false ∧
        (T.wq q).err = (s.wq q).err ∧ ((s.wq q).en = true → (T.wq q).prio = (s.wq q).prio ∧ (T.wq q).logn = (s.wq q).logn) ∧
        ((s.wq q).en = false → (T.wq q).prio = v.extractLsb' 4 2 ∧
          (T.wq q).logn = if v.toNat % 16 ≤ 12 then v.setWidth 4 else (s.wq q).logn)) ∧
      (v.getLsbD 7 = true → (s.wq q).waiting = [] → ∃ T, exec (.wqcfg vf w v) s = .next T ∧ T.mem = s.mem ∧ T.groups = s.groups ∧
        (T.wq q).en = true)) ∧
    (∀ (vf : Nat) (v : W64),
      (hasGrids s vf = true → exec (.hentry vf v) s = .next (s.setVf vf fun f => { f with wrej := true }) ∧
        exec (.s1root vf v) s = .next (s.setVf vf fun f => { f with wrej := true })) ∧
      (hasGrids s vf = false → exec (.hentry vf v) s = .next (s.setVf vf fun f => { f with hentry := v &&& ~~~7#64 }) ∧
        exec (.s1root vf v) s = .next (s.setVf vf fun f => { f with s1root := v &&& 0x000FFFFFFFFFF000 }))) ∧
    (∀ (pd : Nat) (v : W32), (s.pad pd).events = [] → exec (.evread pd v) s = .next (s.setPad pd fun p => { p with evread := v })) ∧
    (∀ v : W16, s.fwen = false → exec (.fwtail v) s = .next { s with fwtail := v }) ∧
    ∀ (w : HostWrite),
      (w.win = .pf → w.off = 0 → s.fwen = true → exec (.regWrite w) s = .next s) ∧
      (w.win = .pf → w.off = 0 → w.wide = true → s.fwen = false → exec (.regWrite w) s = .next { s with fwqbase := w.v }) ∧
      (∀ n, n < 48 → w.win = .pf → w.off = 0x4000 + 64 * n → w.wide = true →
        exec (.regWrite w) s = .next (s.setPad n fun p => { p with evbase := w.v })) ∧
      (∀ n, w.win = .vf n → w.off = 0 → w.wide = true → exec (.regWrite w) s = .next (s.setVf n fun f => { f with
        wrej := f.wrej && !w.v.getLsbD 3
        ended := f.ended && !w.v.getLsbD 2 })) ∧
      (∀ n x q, w.win = .vf n → x < 64 → wqAt s n x = some q → w.off = 0x1000 + 64 * x → (s.wq q).en = true →
        ∃ T, exec (.regWrite w) s = .next T ∧ T = { s with wqs := T.wqs } ∧ T.wq q = s.wq q) ∧
      ∀ n, w.win = .vf n → w.off = 0x4020 → (s.vf n).crook.busy = true →
        exec (.regWrite w) s = .next (s.setVf n fun v => { v with crook := { v.crook with ovr := true } })

/-! ### Firmware commands (20 R395-R413, 14 R312-R318, 16 R332-R346, 18 R363-R385) -/

/-- The order and the gate of the command ring (20 R404-R408): a command starts when no earlier one that it waits for is left, a faulted
module, one that has not negotiated, a feature that is off, a target out of range or absent each answer for it; a completion is written at
its place with the status, the phase and the value, and vector 0 fires; where an engine operation owns that place it waits (12 R285). The order of the checks of a command, and that the zero field
checked is bytes 6 and 7, are the model's reading (log entry 23). -/
def Obligations.FirmwareRing : Prop :=
  (∀ (i : Instr) (k : FwCmd) (s : State), fwOf i = some k →
    (startable s k = false → s.fwrun.find? (fun r => r.cmd == k) = none → exec i s = .next s) ∧
    ∀ st, startable s k = true → gate s k = some st →
      exec i s = .next (fwComplete { s with fwpend := s.fwpend.erase k } k.hdr.tag k.opc st 0)) ∧
  (∀ (s : State) (k : FwCmd), startable s k = true ↔ k ∈ s.fwpend ∧ (∀ e ∈ s.fwpend.takeWhile (· != k), fwWaits s e k = false) ∧
    ∀ r ∈ s.fwrun, r.answered = false → fwWaits s r.cmd k = false) ∧
  (∀ (s : State) (k : FwCmd),
    (s.faulted = true → gate s k = some 4) ∧
    (s.faulted = false → s.negotiated = false → 4 < k.opc.toNat → gate s k = some 5) ∧
    (s.faulted = false → s.negotiated = true → k.hdr.zeroOk = true →
      (∀ sc b, fwInfo k.opc = some (sc, some b) → (s.feat.rd 0).getLsbD b = false → gate s k = some 5) ∧
      (fwInfo k.opc = some (.pad, none) → 48 ≤ k.hdr.target.toNat → gate s k = some 2) ∧
      (fwInfo k.opc = some (.vf, none) → 1024 ≤ k.hdr.target.toNat → gate s k = some 2) ∧
      (fwInfo k.opc = some (.vf, none) → k.hdr.target.toNat < 1024 → k.opc ≠ 0x20 → (s.vf k.hdr.target.toNat).active = false →
        gate s k = some 4))) ∧
  ∀ (s T : State) (tag opc : W16) (st : W8) (v : W64), T = fwComplete s tag opc st v →
    T.fwdone = s.fwdone + 1 ∧ T.groups = s.groups ∧ T.vfs = s.vfs ∧ T.paddocks = s.paddocks ∧
    (hostOwned s (s.fwcbase.toNat + 16 * (s.fwdone % 2 ^ s.fwlogn.toNat)) 16 = false → T.msix = s.msix ++ [0] ∧ T.inbox = s.inbox) ∧
    (hostOwned s (s.fwcbase.toNat + 16 * (s.fwdone % 2 ^ s.fwlogn.toNat)) 16 = true → T.msix = s.msix ∧ T.mem = s.mem ∧ ∃ d, d.length = 16 ∧
      T.inbox = s.inbox ++ [.place (s.fwcbase.toNat + 16 * (s.fwdone % 2 ^ s.fwlogn.toNat)) d] ∧ leNat (d.take 2) = tag.toNat ∧
      leNat ((d.drop 2).take 2) = opc.toNat ∧ leNat ((d.drop 8).take 8) = v.toNat) ∧
    ∀ pa, hostPa (s.fwcbase.toNat + 16 * (s.fwdone % 2 ^ s.fwlogn.toNat)) 16 = some pa → s.mem.wf = true → owned s none [(pa, 16)] = false →
      T.mem.le pa 2 = tag.toNat ∧ T.mem.le (pa + 2) 2 = opc.toNat ∧ T.mem.get (pa + 4) = st ∧
      T.mem.le (pa + 5) 1 = s.fwdone / 2 ^ s.fwlogn.toNat % 2 ∧ T.mem.le (pa + 8) 8 = v.toNat ∧
      ∀ a, a < pa ∨ pa + 16 ≤ a → T.mem.get a = s.mem.get a

/-- The commands on the module (20 R407-R410, R413, 16 R346): IDENTIFY and ATTEST write their pages; NEGOTIATE sets the features once;
PATCH_LOAD takes an image whose header, digest, key and signature are in order and whose SVN the fuses allow; ATTEST writes a report that ends
in the signature of the rest; shared frame sets are made, sealed once no write to them is under way, mapped and unmapped; DOMAIN_FORM gives the
module its number and bindings. The layouts of the pages, and of what the header holds where, are the model's (log entry 10). That a command whose page
an engine operation owns waits and is tried again is its choice too (log entry 43), on the words of 12 R285. -/
def Obligations.FirmwareOnModule : Prop :=
  ∀ (c : FwHdr) (s S : State),
    (∀ b, Starts (.identify c b) s S →
      (physOk b.toNat 4096 = false → Answers (.identify c b) s 2 0 S) ∧
      (physOk b.toNat 4096 = true →
        (owned s none [(b.toNat, 4096)] = true → exec (.identify c b) s = .next s) ∧
        (owned s none [(b.toNat, 4096)] = false → Answers (.identify c b) s 0 0 (S.writePa [(b.toNat, 4096)] (identityPage S)) ∧
          (identityPage S).length = 4096))) ∧
    (∀ f0 f1 f2 f3, Starts (.negotiate c f0 f1 f2 f3) s S →
      (f0.toNat / 4096 ≠ 0 ∨ f1 ≠ 1 ∨ f2 ≠ 0 ∨ f3 ≠ 0 → Answers (.negotiate c f0 f1 f2 f3) s 2 0 S) ∧
      (f0.toNat / 4096 = 0 → f1 = 1 → f2 = 0 → f3 = 0 →
        (s.negotiated = true → Answers (.negotiate c f0 f1 f2 f3) s 4 0 S) ∧
        (s.negotiated = false → ∃ F : Bank 2 W64, F.rd 0 = f0 ∧ F.rd 1 = f1 ∧ F.rd 2 = f2 ∧ F.rd 3 = f3 ∧
          Answers (.negotiate c f0 f1 f2 f3) s 0 0 { S with feat := F, negotiated := true }))) ∧
    (∀ pa n d, Starts (.patchLoad c pa n) s S → s.negotiated = true → (s.feat.rd 0).getLsbD 10 = true → d = s.mem.read pa.toNat n.toNat →
      (262144 < n.toNat ∨ physOk pa.toNat n.toNat = false → Answers (.patchLoad c pa n) s 2 0 S) ∧
      (n.toNat ≤ 262144 → physOk pa.toNat n.toNat = true →
        (anyActive s = true → Answers (.patchLoad c pa n) s 4 0 S) ∧
        (anyActive s = false → owned s none [(pa.toNat, n.toNat)] = false →
          (Config.patchHead (d.take 128) = none → Answers (.patchLoad c pa n) s 6 0 S) ∧
          ∀ h, Config.patchHead (d.take 128) = some h →
            (patchOk s d h = false → Answers (.patchLoad c pa n) s 6 0 S) ∧
            (patchOk s d h = true → Answers (.patchLoad c pa n) s 0 0 { S with
              patch := some ⟨h.svn, h.version, d⟩
              fuseSvn := if h.flags.getLsbD 0 = true ∧ s.fuseSvn < h.svn then h.svn else s.fuseSvn }) ∧
            (patchOk s d h = true ↔ h.known = true ∧ 192 ≤ d.length ∧ h.len = d.length - 192 ∧ h.digest = sha256 (d.drop 192) ∧
              sha256 h.key = Config.patchKeyDigest ∧ s.fuseSvn ≤ h.svn ∧
              ecdsaOk (beNat (h.key.take 32), beNat (h.key.drop 32)) (d.take 128 ++ d.drop 192) (beNat ((d.drop 128).take 32))
                (beNat ((d.drop 160).take 32)) = true)))) ∧
    (∀ n b, Starts (.attest c n b) s S →
      (physOk b.toNat 256 = false → Answers (.attest c n b) s 2 0 S) ∧
      (physOk b.toNat 256 = true → owned s none [(b.toNat, 256)] = false → ∃ d, d.length = 256 ∧ (d.drop 152).take 8 = natLe 8 s.ns.toNat ∧
        (d.drop 160).take 32 = natLe 32 n.toNat ∧ (d.drop 120).take 32 = sha256 (ownTables s) ∧
        d.drop 192 = ecdsaSign Config.identityKey (Config.signNonce s.free) (d.take 192) ∧
        Answers (.attest c n b) s 0 0 { S.writePa [(b.toNat, 256)] d with free := s.free + 1 })) ∧
    (∀ pa f rs, Starts (.sharedCreate c pa f) s S → rs = bitsOf (maskAt (s.mem.read pa.toNat 128) 0 128 1024) → physOk pa.toNat 128 = true →
      owned s none [(pa.toNat, 128)] = false → f.toNat < 48 → (s.pad f.toNat).live = true →
      ((∃ r ∈ rs, (s.region r).owner ≠ 63 ∨ (s.region r).host = true ∨ (s.region r).shared = true) →
        Answers (.sharedCreate c pa f) s 3 0 S) ∧
      ((∀ r ∈ rs, (s.region r).owner = 63 ∧ (s.region r).host = false ∧ (s.region r).shared = false) → s.sets.length < 65536 →
        ∃ T k, Answers (.sharedCreate c pa f) s 0 (BitVec.ofNat 64 k) T ∧ k < 65536 ∧ s.sets.get k = none ∧
          T.sets.get k = some { regions := rs, fill := f.toNat, sealed_ := false } ∧ T.groups = s.groups ∧
          ∀ r ∈ rs, (T.region r).owner.toNat = f.toNat)) ∧
    (∀ x, Starts (.sharedMap c x) s S →
      (s.sets.get x.toNat = none → Answers (.sharedMap c x) s 2 0 S) ∧
      ∀ e, s.sets.get x.toNat = some e →
        (e.sealed_ = false → Answers (.sharedMap c x) s 4 0 S) ∧
        (e.sealed_ = true → ∃ T, Answers (.sharedMap c x) s 0 0 T ∧ T = { S with regions := T.regions } ∧
          ∀ r ∈ e.regions, (T.region r).share.getLsbD c.target.toNat = decide (c.target.toNat < 48))) ∧
    (∀ x, Starts (.sharedUnmap c x) s S →
      (s.sets.get x.toNat = none → Answers (.sharedUnmap c x) s 2 0 S) ∧
      ∀ e, s.sets.get x.toNat = some e →
        (e.sealed_ = false → Answers (.sharedUnmap c x) s 4 0 S) ∧
        (e.sealed_ = true → ∃ T, Answers (.sharedUnmap c x) s 0 0 T ∧ T.mem = s.mem ∧ T.groups = s.groups ∧
          ∀ r ∈ e.regions, (T.region r).share.getLsbD c.target.toNat = false)) ∧
    (∀ x, Starts (.sharedSeal c x) s S →
      (s.sets.get x.toNat = none → Answers (.sharedSeal c x) s 2 0 S) ∧
      ∀ e, s.sets.get x.toNat = some e →
        (e.sealed_ = true → Answers (.sharedSeal c x) s 4 0 S) ∧
        ∀ f : Loc → Bool, (∀ l, f l = match l with | .pa a => paClass a == 0 && e.regions.contains (regionOf a) | _ => false) →
          e.sealed_ = false →
          (holding s (fun _ => true) f = true → ∃ T, exec (.sharedSeal c x) s = .next T ∧ T.fwpend = s.fwpend ∧ T.fwdone = s.fwdone ∧
            T.sets = s.sets ∧ T.regions = s.regions ∧ T.mem = s.mem ∧ T.groups = s.groups) ∧
          (holding s (fun _ => true) f = false → ∃ T, Answers (.sharedSeal c x) s 0 0 T ∧ T.mem = s.mem ∧ T.groups = s.groups ∧
            T.sets.get x.toNat = some { e with sealed_ := true } ∧
            ∀ r ∈ e.regions, T.region r = ⟨63, false, true, if e.fill < 48 then 1#48 <<< e.fill else 0⟩)) ∧
    ∀ n pa, Starts (.domainForm c n pa) s S →
      (255 < n.toNat ∨ physOk pa.toNat 1 = false → Answers (.domainForm c n pa) s 2 0 S) ∧
      (n.toNat ≤ 255 → physOk pa.toNat 1 = true → ∃ b, Answers (.domainForm c n pa) s 0 0 { S with
        modnum := some (n.setWidth 8), bindings := b })

/-- The commands on a Paddock (20 R398-R403, R407, 14 R304, 18 R363-R367, R380-R385): its ports, regions and loans, its table root, its
timers, its rings, heads and streams. Where the region words of MEMOWN lie, how a shrink and a loan go on, and the statuses of loans and
streams that the manual does not give, are the model's choices (log entry 24); so is that a STREAM_ADMIT one of whose kernel records waits for the
host stays in the ring (log entry 43); that the statuses of STREAM_ADMIT come in the order of 18
R364 and R366 is its reading (log entry 23), and so is that an S2INV drops every translation of the Paddock's VFs (log entry 6). -/
def Obligations.FirmwareOnPaddocks : Prop :=
  ∀ (c : FwHdr) (s S : State) (pd : Nat), pd = c.target.toNat →
    (∀ pa force l, Starts (.paddockSet c pa force) s S → physOk pa.toNat 96 = true → owned s none [(pa.toNat, 96)] = false → parsePorts (s.mem.read pa.toNat 96) = some l →
      ((s.pad pd).pend = true → Answers (.paddockSet c pa force) s 4 0 S) ∧
      ((s.pad pd).pend = false →
        (portsLacking s pd l = true → Answers (.paddockSet c pa force) s 3 0 S) ∧
        (portsLacking s pd l = false → removalRefused s pd l = true → Answers (.paddockSet c pa force) s 4 0 S) ∧
        (portsLacking s pd l = false → removalRefused s pd l = false →
          (l.isEmpty = true → vfsOf s pd = [] → ∃ T, Answers (.paddockSet c pa force) s 0 0 T ∧ (T.pad pd).live = false ∧ T.groups = s.groups) ∧
          (l.isEmpty = false → force = false → ∃ T, exec (.paddockSet c pa force) s = .next T ∧ (T.pad pd).live = true ∧ T.fwdone = s.fwdone + 1 ∧
            (∀ i, i < 220 → l.req i = true → (s.port i).pending = false → (T.port i).owner.toNat = pd) ∧
            (∀ i, 192 ≤ i → i < 220 → l.req i = false → (s.port i).owner.toNat = pd → T.port i = (s.port i).left))))) ∧
    (∀ pa rs, Starts (.paddockRegions c pa false) s S → physOk pa.toNat 128 = true → owned s none [(pa.toNat, 128)] = false → rs = bitsOf (maskAt (s.mem.read pa.toNat 128) 0 128 1024) →
      ((∃ r ∈ rs, setOf s r = true ∨ ((s.region r).owner.toNat ≠ pd ∧ ((s.region r).owner ≠ 63 ∨ (s.region r).host = true))) →
        Answers (.paddockRegions c pa false) s 3 0 S) ∧
      ((∀ r ∈ rs, setOf s r = false ∧ ((s.region r).owner.toNat = pd ∨ ((s.region r).owner = 63 ∧ (s.region r).host = false))) →
        ∃ T, Answers (.paddockRegions c pa false) s 0 0 T ∧ T.mem = s.mem ∧
          ∀ r ∈ rs, (s.region r).owner.toNat ≠ pd → (T.region r).owner.toNat = pd)) ∧
    (∀ m d, Starts (.lend c m d) s S → 48 ≤ d.toNat ∨ d.toNat = pd → Answers (.lend c m d) s 2 0 S) ∧
    (∀ m d, Starts (.lend c m d) s S → d.toNat < 48 → d.toNat ≠ pd →
      (s.pad pd).pend = true ∨ (s.pad d.toNat).live = false ∨ (s.pad d.toNat).pend = true → Answers (.lend c m d) s 4 0 S) ∧
    (∀ m d, Starts (.lend c m d) s S → d.toNat < 48 → d.toNat ≠ pd → (s.pad pd).pend = false → (s.pad d.toNat).live = true →
      (s.pad d.toNat).pend = false →
      ((∃ i ∈ bitsOf m, (s.port i).owner.toNat ≠ pd ∨ (s.port i).lender ≠ 63) → Answers (.lend c m d) s 3 0 S) ∧
      ((∀ i ∈ bitsOf m, (s.port i).owner.toNat = pd ∧ (s.port i).lender = 63) →
        (∃ i ∈ bitsOf m, coreTeams s i ≠ [] ∨ streamNames s pd i = true) → Answers (.lend c m d) s 4 0 S) ∧
      ((∀ i ∈ bitsOf m, (s.port i).owner.toNat = pd ∧ (s.port i).lender = 63 ∧ coreTeams s i = [] ∧ streamNames s pd i = false) →
        ∃ T, Answers (.lend c m d) s 0 0 T ∧ T = { S with ports := T.ports } ∧
          ∀ i, T.port i = if i ∈ bitsOf m then ⟨BitVec.ofNat 6 d.toNat, BitVec.ofNat 6 pd, false⟩ else s.port i)) ∧
    (∀ m, Starts (.reclaim c m) s S →
      ((s.pad pd).pend = true → Answers (.reclaim c m) s 4 0 S) ∧
      ((s.pad pd).pend = false → (∃ i ∈ bitsOf m, (s.port i).lender.toNat ≠ pd) → Answers (.reclaim c m) s 3 0 S) ∧
      ((s.pad pd).pend = false → (∀ i ∈ bitsOf m, (s.port i).lender.toNat = pd ∧ coreTeams s i = []) →
        ∃ T, Answers (.reclaim c m) s 0 0 T ∧ T.groups = s.groups ∧ ∀ i ∈ bitsOf m, T.port i = ⟨BitVec.ofNat 6 pd, 63, false⟩)) ∧
    (∀ pa, Starts (.s2root c pa) s S →
      (pa.toNat % 4096 ≠ 0 ∨ physOk pa.toNat 4096 = false → Answers (.s2root c pa) s 2 0 S) ∧
      (pa.toNat % 4096 = 0 → physOk pa.toNat 4096 = true →
        ((∃ e ∈ s.grids, e.2.paddock = pd) → Answers (.s2root c pa) s 4 0 S) ∧
        ((∀ e ∈ s.grids, e.2.paddock ≠ pd) → ∃ T, Answers (.s2root c pa) s 0 0 T ∧ T.pad pd = { s.pad pd with s2root := pa } ∧
          T.groups = s.groups ∧ T.mem = s.mem ∧ ∀ x ∈ T.tlb, (s.vf x.vf).paddock.toNat ≠ pd))) ∧
    (∀ a all D, Starts (.s2inv c a all) s S → D = s.tlb.filter (fun x => (s.vf x.vf).paddock.toNat != pd) →
      (holding s (fun vf => (s.vf vf).paddock.toNat == pd) Loc.isPhys = false → Answers (.s2inv c a all) s 0 0 { S with tlb := D }) ∧
      (holding s (fun vf => (s.vf vf).paddock.toNat == pd) Loc.isPhys = true → exec (.s2inv c a all) s = .next { s with tlb := D })) ∧
    (∀ t n, Starts (.timers c t) s S → n = Timers.after (s.pad pd).timers t →
      (timersOk n = true → Answers (.timers c t) s 0 0 (S.setPad pd fun p => { p with timers := n })) ∧
      (timersOk n = false → Answers (.timers c t) s 2 0 S)) ∧
    (∀ x e, Starts (.foldRing c x e) s S →
      (parseRing (natLe 32 e.toNat) = none ∨ 64 ≤ x.toNat → Answers (.foldRing c x e) s 2 0 S) ∧
      ∀ r, parseRing (natLe 32 e.toNat) = some r → x.toNat < 64 →
        ((segmentsOf s pd).length * 2 ^ 20 < r.base + Ring.size r ∨ ringOverlaps (s.pad pd) x.toNat r = true → Answers (.foldRing c x e) s 2 0 S) ∧
        (r.base + Ring.size r ≤ (segmentsOf s pd).length * 2 ^ 20 → ringOverlaps (s.pad pd) x.toNat r = false →
          ((∃ t ∈ (s.pad pd).streamList, x.toNat ∈ t.2.ringList) → Answers (.foldRing c x e) s 4 0 S) ∧
          ((∀ t ∈ (s.pad pd).streamList, x.toNat ∉ t.2.ringList) →
            Answers (.foldRing c x e) s 0 0 (S.setPad pd fun p => p.setRing x.toNat r) ∧ ∀ i, i < r.slots.length → r.slot i = .free))) ∧
    (∀ x pa, Starts (.headTiming c x pa) s S →
      (4 ≤ x.toNat ∨ physOk pa.toNat 64 = false → Answers (.headTiming c x pa) s 2 0 S) ∧
      (x.toNat < 4 → physOk pa.toNat 64 = true →
        ((s.port (216 + x.toNat)).owner.toNat ≠ pd → Answers (.headTiming c x pa) s 4 0 S) ∧
        ((s.port (216 + x.toNat)).owner.toNat = pd → owned s none [(pa.toNat, 64)] = false → Answers (.headTiming c x pa) s 0 0 (S.setPad pd fun p => { p with
          heads := p.heads.wr (x.setWidth 2) (BitVec.ofNat 512 (s.mem.le pa.toNat 64)) })))) ∧
    (∀ pa d n t, Starts (.streamAdmit c pa) s S → physOk pa.toNat 256 = true → owned s none [(pa.toNat, 256)] = false →
      d = s.mem.read pa.toNat 256 → parseStream d = (n, t) →
      (streamFieldsOk d n t = false → Answers (.streamAdmit c pa) s 2 0 S) ∧
      (streamFieldsOk d n t = true → (s.feat.rd 0).getLsbD (if t.kind = 1 then 5 else 4) = true →
        (streamOwns s pd t = false ∨ headBusy (s.pad pd) t = true → Answers (.streamAdmit c pa) s 4 0 S) ∧
        (streamOwns s pd t = true → headBusy (s.pad pd) t = false →
          ((s.pad pd).stream n ≠ none ∨ (s.vf t.vf).active = false ∨ (s.vf t.vf).paddock.toNat ≠ pd → Answers (.streamAdmit c pa) s 2 0 S) ∧
          ((s.pad pd).stream n = none → (s.vf t.vf).active = true → (s.vf t.vf).paddock.toNat = pd →
            (∀ U, readAllKernels S pd t.vf t.kerns = (.fail, U) → Answers (.streamAdmit c pa) s 2 0 S) ∧
            (∀ U, readAllKernels S pd t.vf t.kerns = (.wait, U) → exec (.streamAdmit c pa) s = .next { U with fwpend := s.fwpend }) ∧
            (∀ x U, readAllKernels S pd t.vf t.kerns = (.dead x, U) → Answers (.streamAdmit c pa) s 2 0 (endContext U t.vf x 0)) ∧
            ∀ ks U u, readAllKernels S pd t.vf t.kerns = (.ok ks, U) →
              u = { t with
                copies := ks.map (·.1)
                wc := worstCase t.tiles (ks.map (·.2))
                enct := match t.lastRing.bind (s.pad pd).ring with | some r => if t.kind = 2 then encodeTime r else 0 | none => 0 } →
              ((∃ k ∈ ks, fitsCores u k.2 = false) ∨ streamTiming (s.pad pd) n u = false → Answers (.streamAdmit c pa) s 2 0 S) ∧
              ((∀ k ∈ ks, fitsCores u k.2 = true) → streamTiming (s.pad pd) n u = true →
                (streamLoad (s.pad pd) u = false → Answers (.streamAdmit c pa) s 3 0 S) ∧
                (streamLoad (s.pad pd) u = true → ∃ f, f = firstStrip u (s.pad pd).timers.prep.toNat U.bell.toNat ∧
                  Answers (.streamAdmit c pa) s 0 0 (U.setPad pd fun p => p.setStream n { u with
                    next := f, cons := { t.cons with strip := f } }))))))) ∧
    ∀ x, Starts (.streamWithdraw c x) s S →
      (64 ≤ x.toNat → Answers (.streamWithdraw c x) s 2 0 S) ∧
      (x.toNat < 64 → (s.pad pd).stream x.toNat = none → Answers (.streamWithdraw c x) s 4 0 S) ∧
      ∀ t, x.toNat < 64 → (s.pad pd).stream x.toNat = some t →
        (t.withdrawn = true → Answers (.streamWithdraw c x) s 4 0 S) ∧
        (t.withdrawn = false → t.chains = [] → ∃ T, Answers (.streamWithdraw c x) s 0 0 T ∧ (T.pad pd).stream x.toNat = none ∧
          T.groups = s.groups ∧ T.mem = s.mem) ∧
        (t.withdrawn = false → t.chains ≠ [] → ∃ T, exec (.streamWithdraw c x) s = .next T ∧ T.fwdone = s.fwdone ∧
          (T.pad pd).stream x.toNat = some { t with withdrawn := true } ∧ ∃ r ∈ T.fwrun, some r.cmd = fwOf (.streamWithdraw c x))

/-- The commands on a VF (20 R394, R395, R407, R411, 14 R312-R318, 16 R332-R334): its life and end, its pools, frames and budget, its queues
and migrations. Which free frames are taken, and what a VF's end gives back, are the model's choices (log entry 9). -/
def Obligations.FirmwareOnVfs : Prop :=
  ∀ (c : FwHdr) (s S : State) (vf : Nat), vf = c.target.toNat →
    (Starts (.resumeWalks c) s S → ∃ T, Answers (.resumeWalks c) s 0 0 T ∧ ((∀ w ∈ s.walks, w.vf ≠ vf) → T.mem = s.mem) ∧ T.teams = s.teams ∧
      ∀ h g i p a x, T.group h = some g → s.vfOf g = vf → g.paths.rd i = some p → p.st ≠ .walk a x) ∧
    (∀ p g b, Starts (.vfActivate c p g b) s S →
      (48 ≤ p.toNat ∨ b.toNat < g.toNat → Answers (.vfActivate c p g b) s 2 0 S) ∧
      (p.toNat < 48 → g.toNat ≤ b.toNat →
        ((s.vf vf).active = true ∨ (s.pad p.toNat).live = false → Answers (.vfActivate c p g b) s 4 0 S) ∧
        ((s.vf vf).active = false → (s.pad p.toNat).live = true → ∃ T, Answers (.vfActivate c p g b) s 0 0 T ∧ T.groups = s.groups ∧ T.mem = s.mem ∧
          (T.vf vf).active = true ∧ (T.vf vf).paddock.toNat = p.toNat ∧ (T.vf vf).guar = g.toNat ∧ (T.vf vf).burst = b.toNat ∧
          (T.vf vf).gridCounter = 1 ∧ (T.vf vf).dgen = 0 ∧ (∀ n, (T.vf vf).ctr.rd n = 0) ∧ (T.vf vf).crook.nwrite = 0 ∧
          (anyActive s = true → T.mhz = 2100 ∧ ∀ n, (T.vf n).boost = false)))) ∧
    (Starts (.vfDeactivate c) s S → ∃ T, Answers (.vfDeactivate c) s 0 0 T ∧ T.vfs.get vf = none ∧ (∀ x ∈ T.tlb, x.vf ≠ vf) ∧
      (∀ e ∈ T.grids, e.2.vf ≠ vf) ∧ ∀ e ∈ T.wqs, ∀ w, e.2.bind ≠ some (vf, w)) ∧
    (∀ i v l a, Starts (.vfPool c i v l a) s S →
      (8 ≤ i.toNat ∨ v.toNat % 2 ^ 21 ≠ 0 ∨ l.toNat % 2 ^ 21 ≠ 0 ∨ a.toNat % 2 ^ 21 ≠ 0 → Answers (.vfPool c i v l a) s 2 0 S) ∧
      (i.toNat < 8 → v.toNat % 2 ^ 21 = 0 → l.toNat % 2 ^ 21 = 0 → a.toNat % 2 ^ 21 = 0 →
        Answers (.vfPool c i v l a) s 0 0 (wakePgmaps (S.setVf vf fun f => { f with
          pools := f.pools.wr (i.setWidth 3) (if l = 0 then none else some ⟨v.toNat, l.toNat, a.toNat⟩) }) vf))) ∧
    (∀ pa n fs, Starts (.vfBacking c pa n) s S → physOk pa.toNat (8 * n.toNat) = true → owned s none [(pa.toNat, 8 * n.toNat)] = false →
      fs = (List.range n.toNat).map (fun i => s.mem.le (pa.toNat + 8 * i) 8) →
      ((∃ f ∈ fs, f % 4096 ≠ 0 ∨ f / 2 ^ 50 ≠ 2) → Answers (.vfBacking c pa n) s 2 0 S) ∧
      ((∀ f ∈ fs, f % 4096 = 0 ∧ f / 2 ^ 50 = 2) → ∃ T, Answers (.vfBacking c pa n) s 0 0 T ∧ T.mem = s.mem ∧
        (T.vf vf).backing = (s.vf vf).backing ++ fs)) ∧
    (∀ g b, Starts (.vfBudget c g b) s S →
      (b.toNat < g.toNat → Answers (.vfBudget c g b) s 2 0 S) ∧
      (g.toNat ≤ b.toNat → Answers (.vfBudget c g b) s 0 0 (wakePgmaps (S.setVf vf fun f => { f with
        guar := g.toNat, burst := b.toNat }) vf))) ∧
    (∀ m, Starts (.vfBoost c m) s S →
      (m.toNat < 2100 ∨ 2600 < m.toNat ∨ m.toNat % 100 ≠ 0 → Answers (.vfBoost c m) s 2 0 S) ∧
      (2100 ≤ m.toNat → m.toNat ≤ 2600 → m.toNat % 100 = 0 →
        ((∃ e ∈ s.vfs, e.2.active = true ∧ e.1 ≠ vf) → Answers (.vfBoost c m) s 4 0 S) ∧
        ((∀ e ∈ s.vfs, e.2.active = true → e.1 = vf) → ∃ T, Answers (.vfBoost c m) s 0 0 T ∧ T.mhz = m.toNat ∧
          (T.vf vf).boost = decide (2100 < m.toNat) ∧ T.groups = s.groups))) ∧
    (∀ x, Starts (.vfEnd c x) s S →
      (x = 0x32 ∨ x = 0x40 → Answers (.vfEnd c x) s 0 0 (endContext S vf (x.setWidth 8) 0)) ∧
      (x ≠ 0x32 → x ≠ 0x40 → Answers (.vfEnd c x) s 2 0 S)) ∧
    (∀ k p st, Starts (.queueCreate c k p st) s S →
      (k = 0 ∨ 65536 < k.toNat ∨ 65535 < p.toNat → Answers (.queueCreate c k p st) s 2 0 S) ∧
      (k ≠ 0 → k.toNat ≤ 65536 → p.toNat ≤ 65535 → paddockMemory s (s.vf vf).paddock.toNat st.toNat (32 * k.toNat) = true →
        s.queues.length < 16384 → ∃ T n q, Answers (.queueCreate c k p st) s 0 (makeHandle q.key n) T ∧ n < 16384 ∧ T.queues.get n = some q ∧
          q.live = true ∧ q.cap = k.toNat ∧ q.vf = vf ∧ q.prod = p.toNat ∧ q.count = 0 ∧ q.posts = 0 ∧ q.store = st.toNat ∧ T.mem = s.mem)) ∧
    (∀ n, Starts (.queueDestroy c n) s S →
      (n.toNat < 16384 → ownQueue s vf n.toNat = none → Answers (.queueDestroy c n) s 4 0 S) ∧
      ∀ q, n.toNat < 16384 → ownQueue s vf n.toNat = some q → ∃ T q', Answers (.queueDestroy c n) s 0 0 T ∧ T.queues.get n.toNat = some q' ∧
        q'.live = false ∧ q'.key ≠ q.key ∧ q'.key ≠ 0 ∧ T.mem = s.mem ∧ T.groups = s.groups) ∧
    (∀ n p reset, Starts (.queueSet c n p reset) s S → n.toNat < 16384 → p.toNat ≤ 65535 →
      (ownQueue s vf n.toNat = none → Answers (.queueSet c n p reset) s 4 0 S) ∧
      ∀ q, ownQueue s vf n.toNat = some q → Answers (.queueSet c n p reset) s 0 0
        (S.setQueue n.toNat { q with prod := p.toNat, posts := if reset then 0 else q.posts })) ∧
    (∀ n unbind, Starts (.wqBind c n unbind) s S →
      (4096 ≤ n.toNat → Answers (.wqBind c n unbind) s 2 0 S) ∧
      (n.toNat < 4096 → (s.wq n.toNat).en = true → Answers (.wqBind c n unbind) s 4 0 S) ∧
      (n.toNat < 4096 → (s.wq n.toNat).en = false →
        (unbind = true → ∀ w, (s.wq n.toNat).bind = some (vf, w) →
          Answers (.wqBind c n unbind) s 0 0 (S.setWq n.toNat fun x => { x with bind := none })) ∧
        (unbind = true → (∀ w, (s.wq n.toNat).bind ≠ some (vf, w)) → Answers (.wqBind c n unbind) s 4 0 S) ∧
        (unbind = false → (s.wq n.toNat).bind ≠ none → Answers (.wqBind c n unbind) s 4 0 S) ∧
        (unbind = false → (s.wq n.toNat).bind = none →
          (∀ w, w < 64 → wqAt s vf w ≠ none) → Answers (.wqBind c n unbind) s 3 0 S) ∧
        (unbind = false → (s.wq n.toNat).bind = none → ∀ w, w < 64 → wqAt s vf w = none → (∀ x, x < w → wqAt s vf x ≠ none) →
          Answers (.wqBind c n unbind) s 0 (BitVec.ofNat 64 w) (S.setWq n.toNat fun x => { x with bind := some (vf, w) })))) ∧
    ∀ a d pd, Starts (.migrate c a d) s S → pd = (s.vf vf).paddock.toNat →
      (∀ e, stage2 s pd a.toNat = .error e → Answers (.migrate c a d) s 4 0 S) ∧
      ∀ l, stage2 s pd a.toNat = .ok l →
        ((l.size ≠ 4096 ∧ l.size ≠ 65536) ∨ a.toNat % l.size ≠ 0 ∨ d.toNat % l.size ≠ 0 ∨ frameOk s pd d.toNat true = false →
          Answers (.migrate c a d) s 2 0 S) ∧
        (l.size = 4096 ∨ l.size = 65536 → a.toNat % l.size = 0 → d.toNat % l.size = 0 → frameOk s pd d.toNat true = true →
          paClass d.toNat ≠ 1 →
          (l.ms ≠ 0 → Answers (.migrate c a d) s 4 0 S) ∧
          (l.ms = 0 → owned s none [(l.entry, 8)] = true → exec (.migrate c a d) s = .next s) ∧
          (l.ms = 0 → owned s none [(l.entry, 8)] = false → ∃ T m, exec (.migrate c a d) s = .next T ∧ T.fwdone = s.fwdone ∧ T.migrations.get s.handle = some m ∧ m.src = homePa s l.base ∧
            m.dst = d.toNat ∧ m.phase = .copying ∧ m.size = l.size ∧ m.leaf = l.entry ∧ m.vf = vf ∧ m.driver = some c ∧ T.groups = s.groups))

/-! ### Host memory, scrubbing, resets, freeze (20 R393, R412, R414, 14 R302, 22 R445) -/

/-- Host accesses (20 R393, R399, R408, 14 R302): a byte of the host-managed window is the byte of its region; a host store reaches host
memory; either waits for engine operations that own its lines (12 R285), and behind the host's accesses that wait already (19 R388); without HDM the window reads 0 and ignores writes, which is the
model's reading of an unmapped space (log entry 23); an address that does not exist stops the access. A scrub of a line or of a word of SRAM
with an error logs it, and corrects it where its code can; of controller state it ends every context and the module is FAULTED (20 R412); a die
whose fuse says so freezes at that moment instead, its contexts as they stand (22 R445).
What of a met error the log holds where no rule says so is the model's choice (log entry 20); so are the stop of an access to an address
that does not exist (log entry 32) and the 0 of host memory that nothing has written (log entry 1). -/
def Obligations.HostMemoryAndScrub : Prop :=
  (∀ (s : State) (o n : Nat), (s.feat.rd 0).getLsbD 1 = true →
    (∀ ps, hdmPieces s o n = some ps →
      (owned s none ps = false → s.inbox.any Action.isHost = false → exec (.hostCxlMemAccess o n none) s =
        .next (s.send (.hostBytes (readPieces s ps)))) ∧
      (owned s none ps = true ∨ s.inbox.any Action.isHost = true → exec (.hostCxlMemAccess o n none) s =
        .next { s with inbox := s.inbox ++ [.host ps none] }) ∧
      ps.length = n ∧ ∀ i, i < n → ∃ a, ps[i]? = some (a, 1) ∧ hdmPa s (o + i) = some a) ∧
    (∀ d ps, d.length = n → hdmPieces s o n = some ps → s.mem.wf = true → owned s none ps = false → s.inbox.any Action.isHost = false →
      ∃ T, exec (.hostCxlMemAccess o n (some d)) s = .next T ∧ T.groups = s.groups ∧
        ∀ a, (∀ i, i < n → hdmPa s (o + i) ≠ some a) → T.mem.get a = s.mem.get a) ∧
    (∀ d, hdmPieces s o n = none → exec (.hostCxlMemAccess o n none) s = .fault .noSuchAddress ∧
      (d.length = n → exec (.hostCxlMemAccess o n (some d)) s = .fault .noSuchAddress)) ∧
    ∀ x a, hdmPa s x = some a → ∃ r, (hostRegions s)[x / 2 ^ 30]? = some r ∧ a = r * 2 ^ 30 + x % 2 ^ 30) ∧
  (∀ (s : State) (o n : Nat), (s.feat.rd 0).getLsbD 1 = false → (∀ x, hdmPa s x = none) ∧
    exec (.hostCxlMemAccess o n none) s = .next (s.send (.hostBytes (zeros n))) ∧
    ∀ d, exec (.hostCxlMemAccess o n (some d)) s = .next s) ∧
  (∀ (s : State) (a : Nat) (d : List W8),
    (2 ^ 50 < a + d.length → exec (.hostSnoop a d) s = .fault .noSuchAddress) ∧
    (a + d.length ≤ 2 ^ 50 → owned s none [(2 ^ 51 + a, d.length)] = true ∨ s.inbox.any Action.isHost = true →
      exec (.hostSnoop a d) s = .next { s with inbox := s.inbox ++ [.host [(2 ^ 51 + a, d.length)] (some d)] }) ∧
    (a + d.length ≤ 2 ^ 50 → owned s none [(2 ^ 51 + a, d.length)] = false → s.inbox.any Action.isHost = false → s.mem.wf = true →
      ∃ T, exec (.hostSnoop a d) s = .next T ∧ T.groups = s.groups ∧
        T.mem.read (2 ^ 51 + a) d.length = d ∧ ∀ b, b < 2 ^ 51 + a ∨ 2 ^ 51 + a + d.length ≤ b → T.mem.get b = s.mem.get b)) ∧
  ∀ (s : State) (pa : Nat),
    (s.eccAt pa = true → pa / 128 < 2 ^ 45 → exec (.patrolScrub pa) s = .next (logError s (pa / 128 * 128) 2 0xFFFF)) ∧
    (s.eccAt pa = true → pa / 128 = 2 ^ 45 → s.faulted = false → exec (.patrolScrub pa) s = .next (enterFaulted s)) ∧
    ((enterFaulted s).faulted = true ∧ (enterFaulted s).frozen = (s.frozen || s.frzFuse) ∧ (enterFaulted s).mem = if s.frzFuse then s.mem else (endAll s 0x40).mem) ∧
    (s.eccAt pa = false → pa / 128 ≤ 2 ^ 45 → s.soft.contains (pa / 128) = true → ∃ T, exec (.patrolScrub pa) s = .next T ∧
      T.eccCorrected = s.eccCorrected + 1 ∧ T.errCount = s.errCount + 1 ∧ T.soft.contains (pa / 128) = false ∧ T.mem = s.mem) ∧
    (s.eccAt pa = false → pa / 128 ≤ 2 ^ 45 → s.soft.contains (pa / 128) = false → exec (.patrolScrub pa) s = .next s) ∧
    (∀ i e, pa / 128 = 2 ^ 45 + 1 + i → s.sram[i]? = some e → ∃ T, exec (.patrolScrub pa) s = .next T ∧ T.errCount = s.errCount + 1 ∧
      T.mem = s.mem ∧ T.groups = s.groups ∧ T.eccCorrected = (if e.hard then s.eccCorrected else s.eccCorrected + 1) ∧
      T.sram = if e.hard then s.sram else s.sram.erase e) ∧
    (logError s (pa / 128 * 128) 2 0xFFFF).errCount = s.errCount + 1 ∧ (logError s (pa / 128 * 128) 2 0xFFFF).mem = s.mem

/-- Resets (20 R414): power-on zeroes every word and stops every unit, host memory and the fuses as they are; a PF reset ends every context
and destroys every Paddock, queue, stream, ring and shared set, patch, Bellwether, fuses and memory as they are; a VF reset ends the context
and clears the window, the VF active with its Paddock, budget, pools and frames. A freeze stops the die at its moment, which can then be
dumped: header, resident teams, engines, arrays, and the range of memory that the session names (22 R445). What a PF reset and a VF reset
leave beyond the words of R414 is the model's choice (log entry 28), and so is the layout of the dump (log entry 10). -/
def Obligations.ResetsAndFreeze : Prop :=
  ∀ s : State,
    (s.mem.wf = true → ∃ T, exec .powerOn s = .next T ∧ (∀ a, T.mem.get a = if paClass a = 0 then 0 else s.mem.get a) ∧ T.groups = [] ∧
      T.teams = [] ∧ T.grids = [] ∧ T.vfs = [] ∧ T.paddocks = [] ∧ T.queues = [] ∧ T.bell = 0 ∧ T.patch = none ∧ T.negotiated = false ∧
      T.frozen = false ∧ T.fold = [] ∧ T.fuseSvn = s.fuseSvn ∧ T.frzFuse = s.frzFuse) ∧
    (∃ T, exec .pfReset s = .next T ∧ T.mem = (endAll s 0x32).mem ∧ T.groups = [] ∧ T.teams = [] ∧ T.grids = [] ∧ T.vfs = [] ∧ T.paddocks = [] ∧
      T.queues = [] ∧ T.sets = [] ∧ T.wqs = [] ∧ T.negotiated = false ∧ T.faulted = false ∧ T.fwen = false ∧
      T.patch = s.patch ∧ T.bell = s.bell ∧ T.fuseSvn = s.fuseSvn) ∧
    (∀ vf, ∃ T, exec (.vfReset vf) s = .next T ∧ (∀ e ∈ T.grids, e.2.vf ≠ vf) ∧ (T.vf vf).active = (s.vf vf).active ∧
      (T.vf vf).paddock = (s.vf vf).paddock ∧ (T.vf vf).guar = (s.vf vf).guar ∧ (T.vf vf).burst = (s.vf vf).burst ∧
      (T.vf vf).pools = (s.vf vf).pools ∧ (T.vf vf).held = (s.vf vf).held ∧ (T.vf vf).frames = (s.vf vf).frames ∧
      (T.vf vf).hentry = 0 ∧ (T.vf vf).s1root = 0 ∧ (T.vf vf).endc = 0 ∧ (T.vf vf).sh = Shepherd.reset ∧ (T.vf vf).crook = Crook.reset ∧
      ∀ e ∈ T.wqs, ∀ w, e.2.bind ≠ some (vf, w)) ∧
    (s.frozen = false → exec .freeze s = .next { s with frozen := true, frozenAt := s.ns }) ∧
    (s.frozen = true → exec .freeze s = .next s) ∧
    (s.frozen = false → exec .scanDump s = .next s) ∧
    (s.frozen = true → ∃ T d, exec .scanDump s = .next T ∧ T = { s with out := s.out ++ [.scan d], free := s.free + 1 } ∧
      ∃ x, d = Config.partAndRom ++ natLe 4 (patchVersion s).toNat ++ natLe 8 s.frozenAt.toNat ++
        ((s.teams.filter fun t => t.2.core.isSome).flatMap (teamImage s)) ++ engineImage s ++ x ++
        s.mem.read (Config.scanRange s.free).1 (Config.scanRange s.free).2)

/-! ### The machine as a whole -/

/-- A step runs what stands next: the filter word of an evaluation under way; of an issue, the instruction whose words are fetched at the
path's PC, or the one that has waited for other modules, or what the path has yet to do at its frame; an event or a command of the agenda; else a step
that is due at its moment, where one changes the machine, the scan-outs of heads first, else one of those that may come: which of several is free (log
entry 2). Each goes through the TLBs of its unit (log entry 6). -/
def Obligations.StepRunsWhatIsNext : Prop :=
  ∀ (s : State) (at_ : Action → List Action → State) (back : Out → Out), s.frozen = false →
    (∀ a rest, at_ a rest = { s with agenda := rest, unit := unitOf { s with agenda := rest } a }) →
    (∀ t, back (.next t) = .next { t with unit := s.unit }) → (∀ f, back (.fault f) = .fault f) → (∀ x, back (.refused x) = .refused x) →
    (∀ vf e i, s.eval = some (vf, e) → (s.vf vf).sh.word e.slot e.ix = some i → step s = exec i s) ∧
    (s.eval = none →
      (∀ i rest, s.agenda = .event i :: rest → step s = back (exec i (at_ (.event i) rest))) ∧
      (∀ i k rest, s.agenda = .command k :: rest → fwOf i = some k → step s = back (exec i (at_ (.command k) rest))) ∧
      (s.agenda = [] → ∃ a, step s = act a { s with free := s.free + 1 } ∧
        (a ∈ dueSteps s ∧ changes s a = true ∨ (∀ d ∈ dueSteps s, changes s d = false) ∧ (a ∈ steps s ∨ a = .event .bellwetherTick)) ∧
        ((∃ pd st, .event (.headScanout pd st) ∈ dueSteps s ∧ changes s (.event (.headScanout pd st)) = true) →
          ∃ pd st, a = .event (.headScanout pd st))) ∧
      ∀ (r : PathRef) (rest : List Action) (s0 : State) (g : Group) (p : Path) (runs : Bool → Instr → State → Prop),
        s.agenda = .issue r :: rest → s0 = at_ (.issue r) rest → s0.path r = some (g, p) →
        (g.live r.p || g.fifo.contains r.p) = true → mayGoOn s0 r g p = true →
        (∀ w i S, runs w i S ↔ step s = back
          (match exec i { S with cur := some r } with | .next t => .next (issuedPath r i w (issues S r i) { t with cur := none }) | o => o)) →
        (leavesFetch s0 r g p = true → step s = back (.next (settleHold ((dropAsks s0 (.path r)).setPath r { p with st := .ready }) r))) ∧
        (leavesFetch s0 r g p = false → ∀ a, p.atFrame = some a →
          step s = back (.next (settleHold (goAtFrame { s0.setPath r { p with atFrame := none } with cur := some r } r a) r))) ∧
        (leavesFetch s0 r g p = false → p.atFrame = none → ∀ i w, p.again = some (i, w) → runs w i s0) ∧
        (p.st = .ready → p.atFrame = none → p.again = none → p.mask = 0 → step s = back (.next (settleHold (handlerReturn s0 r false false none) r))) ∧
        ∀ (S0 : State) (pa0 : Nat) (w0 : W64), p.st = .ready → p.mask ≠ 0 → p.atFrame = none → p.again = none → p.code = [] →
        translate s0 (s0.vfOf g) p.pc.toNat 8 .ex = (.ok pa0, S0) → paClass pa0 ≠ 1 → w0 = BitVec.ofNat 64 (S0.mem.le pa0 8) →
        earlyFault S0 g p w0 = none →
        (isLong w0 = false → hasLive w0 = false → ∀ i, decodeWords w0 0 0 = .ok i → runs false i S0) ∧
        ∀ pa1 S1 w1, translate S0 (S0.vfOf g) (p.pc + 8).toNat 8 .ex = (.ok pa1, S1) → paClass pa1 ≠ 1 →
          w1 = BitVec.ofNat 64 (S1.mem.le pa1 8) →
          (isLong w0 = true → hasLive w0 = false → ∀ i, decodeWords w0 w1 0 = .ok i → runs false i S1) ∧
          (isLong w0 = false → hasLive w0 = true → ∀ i, decodeWords w0 0 w1 = .ok i → runs false i S1) ∧
          ∀ pa2 S2 w2, translate S1 (S1.vfOf g) (p.pc + 16).toNat 8 .ex = (.ok pa2, S2) → paClass pa2 ≠ 1 →
            w2 = BitVec.ofNat 64 (S2.mem.le pa2 8) →
            isLong w0 = true → hasLive w0 = true → ∀ i, decodeWords w0 w1 w2 = .ok i → runs false i S2)

/-- No instruction is refused, and only the two accesses of the host to memory can stop the machine: from no state does a step refuse, and
one that faults runs such an access, of the agenda or of those that wait. That an access of the host to an address that does not exist stops
is the model's choice (log entry 32). -/
def Obligations.OnlyHostAccessesStop : Prop :=
  (∀ (i : Instr) (s : State) (x : Refusal), exec i s ≠ .refused x) ∧
  (∀ (i : Instr) (s : State) (f : Fault), exec i s = .fault f → (∃ o n d, i = .hostCxlMemAccess o n d) ∨ ∃ a d, i = .hostSnoop a d) ∧
  (∀ (s : State) (x : Refusal), step s ≠ .refused x) ∧
  ∀ (s : State) (f : Fault), step s = .fault f → s.frozen = false ∧ s.eval = none ∧
    ∃ i, ((∃ rest, s.agenda = .event i :: rest) ∨ s.agenda = [] ∧ .event i ∈ s.inbox) ∧
      ((∃ o n d, i = .hostCxlMemAccess o n d) ∨ ∃ a d, i = .hostSnoop a d)

/-- A frozen die stays frozen until power-on, and while it is frozen no core issues: groups, teams, grids and memory stay as they are (22
R445). That the host's own memory stays too, so that what the host stores into it meanwhile is lost, is the model's reading (log entry 29). -/
def Obligations.FrozenStaysFrozen : Prop :=
  ∀ s t : State, s.frozen = true → step s = .next t → (∀ rest, s.agenda ≠ .event .powerOn :: rest) →
    t.frozen = true ∧ t.groups = s.groups ∧ t.teams = s.teams ∧ t.grids = s.grids ∧ t.mem = s.mem ∧ t.fold = s.fold ∧ t.vfs = s.vfs ∧
    t.paddocks = s.paddocks

/-- Every step keeps every memory canonical, so that equal memories are equal data. -/
def Obligations.StepKeepsMemoriesCanonical : Prop :=
  ∀ s t : State, MemoriesCanonical s → step s = .next t → MemoriesCanonical t

/-- The module after power-on (20 R395, R396, R404, R408, R414, 18 R360, 16 R342, 22 R424, R435, R442): memory reads zero and is canonical,
the Bellwether stands at 0, Paddocks are absent, VFs inactive with the values of their registers, nothing runs. The values that no rule
states (host memory, owners, counters of the model itself) are the model's choices (log entries 1, 2 and 16). -/
def Obligations.ResetState : Prop :=
  ∀ s : State, s = State.reset → MemoriesCanonical s ∧ (∀ a, s.mem.get a = 0) ∧ (∀ a, s.fold.get a = 0) ∧ s.bell = 0 ∧ s.adj = 0 ∧
    s.src = false ∧ (∀ n, (s.pad n).live = false ∧ (s.pad n).evwrite = 0 ∧ (s.pad n).evread = 0 ∧ (s.pad n).pend = false) ∧
    (∀ n, (s.vf n).active = false ∧ (s.vf n).hentry = 0 ∧ (s.vf n).s1root = 0 ∧ (s.vf n).gridCounter = 1 ∧ (∀ k, (s.vf n).ctr.rd k = 0) ∧
      (s.vf n).sh.en = false ∧ (s.vf n).sh.att = 0 ∧ (s.vf n).crook.nlog = 0 ∧ (s.vf n).paddock = 63) ∧
    (∀ n, (s.wq n).en = false ∧ (s.wq n).wqtail = 0 ∧ (s.wq n).wqhead = 0) ∧ (∀ n, (s.port n).owner = 63 ∧ (s.port n).lender = 63) ∧
    (∀ n, (s.region n).owner = 63) ∧ s.fwen = false ∧ s.fwtail = 0 ∧ s.fwhead = 0 ∧ s.negotiated = false ∧ (∀ n, s.feat.rd n = 0) ∧
    s.faulted = false ∧ s.frozen = false ∧ s.groups = [] ∧ s.teams = [] ∧ s.grids = [] ∧ s.queues = [] ∧ s.agenda = [] ∧
    s.asks = [] ∧ s.held = [] ∧ s.inbox = [] ∧ s.pend = [] ∧ s.walks = [] ∧ s.migrations = [] ∧ s.sram = []

/-! ### Encodings (02 R46-R72, 22 R436) -/

/-- The words of a well-formed instruction are read as that instruction, whatever its operands, modifiers and header. -/
def Obligations.EncodedIsDecoded : Prop :=
  ∀ (i : Instr) (ws : List W64), i.wf = true → encode i = some ws → decodeList ws = .ok i

/-- The words that are read as an instruction are the ones that it lays out: no two words are one instruction. -/
def Obligations.DecodedIsEncoded : Prop :=
  ∀ (w0 w1 live : W64) (i : Instr), decodeWords w0 w1 live = .ok i →
    encode i = some (w0 :: ((if isLong w0 then [w1] else []) ++ if hasLive w0 then [live] else []))

/-- A filter instruction and its word are one another's (22 R436). -/
def Obligations.FilterWordsAgree : Prop :=
  (∀ (i : Instr) (w : W32), i.wf = true → encodeFilter i = some w → decodeFilter w = some i) ∧
  ∀ (i : Instr) (w : W32), decodeFilter w = some i → encodeFilter i = some w

/-! ### Rules word for word -/

/-- 01 R12 -/
def Obligations.FirstPredicate : Prop :=
  (∀ g : Group, g.getK 0 = 0xFF) ∧ (∀ (g : Group) (m x : Mask), g.setK 0 m x = g) ∧ ∀ (m : Mask) (l : Lane), m.has l = m.getLsbD l.toNat

/-- 01 R19 -/
def Obligations.RandomWords : Prop :=
  (∀ (s : State) (d : Grid) (t lin slot gid : Nat) (l : Lane),
    (startGroup s d t lin slot gid).rngs.rd l =
      if (d.launch.seed.toNat + 8 * (lin * d.kernel.groups + gid) + l.toNat) % 2 ^ 32 = 0 then 1
      else BitVec.ofNat 32 (d.launch.seed.toNat + 8 * (lin * d.kernel.groups + gid) + l.toNat)) ∧
  ∀ (h : Hdr) (a : VReg) (s : State) (r : PathRef) (g : Group) (p : Path), Issues s r g p h (uCwr (.rngs a)) → p.hold = false →
    ∃ t G q, exec (.cwr h (.rngs a)) s = .next t ∧ t.path r = some (G, q) ∧
      ∀ l, (emaskOf g p h).has l = true → G.rngs.rd l = if (g.seen a).rd l = 0 then 1 else (g.seen a).rd l

/-- 04 R107 -/
def Obligations.SelectReadsItsDestination : Prop :=
  ∀ (h : Hdr) (o : SBin), WritesScalar (.ssel h o) h (uSBin o) o.d fun _ p => if p.getS o.d ≠ 0 then p.getS o.a else p.opB o.b

/-- 22 R438 -/
def Sys2Proof.Claim.TriggerRecord : Prop :=
  ∀ (e : ShEvent) (a : W32) (code : W16) (d : List W8), d = trigBytes e (a, code) →
    d.length = 32 ∧ field d 0 2 = code.toNat ∧ field d 2 1 = 3 ∧ field d 3 1 = e.cls.toNat ∧ field d 4 4 = a.toNat ∧
    (∀ i, i < 4 → field d (8 + 4 * i) 4 = (e.e.rd (BitVec.ofNat 4 i)).toNat) ∧ field d 24 8 = e.ns.toNat

/-! ### Words of the manual -/

/-- A header of a short or a long form, with no window and no live words. -/
def Sys2Proof.Claim.header (long : Bool) (pk : BitVec 4) (pn : Bool) : Hdr := { long := long, live := none, la := 0, pk := pk, pn := pn }

/-- Words that the manual writes out beside their instructions (chapters 02 and 04 to 22, in the tables beside their examples) are read as
those instructions, and the words that it gives as illegal are not read. -/
def Obligations.DecodesSpecWords : Prop :=
  decodeTableWord 64 0x8 = some (.sadd (Claim.header false 0 false) { sat := false, d := 0, a := 0, b := .reg 0 }) ∧
  decodeTableWord 128 0x6400000004030510201 = some (.vadd (Claim.header true 2 false) { w := .w32, u := false, sat := false, half := .whole, d := 5, a := { r := 3, p := .id }, b := .reg { r := 4, p := .bf 1 } }) ∧
  decodeTableWord 128 0x6000080000000000000008109 = some (.br (Claim.header true 1 false) { toff := 6, roff := 8 }) ∧
  decodeTableWord 64 0x158 = some (.exit (Claim.header false 0 false)) ∧
  decodeTableWord 64 0x40100170 = some (.kset (Claim.header false 0 false) { d := 1, a := 4 }) ∧
  decodeTableWord 64 0x230000306003a8 = some (.vcvt (Claim.header false 0 false) { dst := .e4m3, src := .f32, rnd := .mode (.rne), sat := false, d := 6, a := { r := 3, p := .id }, ds := 2, ss := 0 }) ∧
  decodeTableWord 64 0x100200020400400 = some (.vld (Claim.header false 0 false) { z := .w, sp := .g, ord := .rlx, scope := .path, sx := false, d := 4, addr := .vec 2, off := 16 }) ∧
  decodeTableWord 64 0xa80300010300188 = some (.sst (Claim.header false 0 false) { z := .d, sp := .g, ord := .rlx, scope := .path, d := 3, a := 1, off := 168 }) ∧
  decodeTableWord 128 0x810000000000c206020500411 = some (.vatom (Claim.header true 0 false) { op := .add, z := .w, sp := .g, ord := .ar, scope := .module, d := 5, a := 2, off := 8, b := 6 }) ∧
  decodeTableWord 128 0x202180000000000000000000429 = some (.fence (Claim.header true 0 false) { scope := .system, pred := 2, succ := 2 }) ∧
  decodeTableWord 64 0x210000100500 = some (.mma (Claim.header false 0 false) { t := .bf16, d := 1, a := 0, b := 16 }) ∧
  decodeTableWord 128 0x1800400000000010060000599 = some (.tcopy (Claim.header true 0 false) { dir := .g2s, d := 0, a := 6, b := 16, bar := some (.team 1), tag := 1 }) ∧
  decodeTableWord 64 0x150003005c0 = some (.btry (Claim.header false 0 false) { d := 3, bar := 0, b := 21 }) ∧
  decodeTableWord 64 0xe000800600 = some (.rbox4 (Claim.header false 0 false) { d := 8, a := 0, b := 14 }) ∧
  decodeTableWord 64 0x2100000300648 = some (.qdeq (Claim.header false 0 false) { kp := 1, ke := 2, d := 3, q := 0 }) ∧
  decodeTableWord 64 0x40305006d8 = some (.pgmap (Claim.header false 0 false) { z := .p4k, d := 5, a := 3, b := 4 }) ∧
  decodeTableWord 64 0xf0000000b006a0 = some (.crd (Claim.header false 0 false) (.scalar (.srate) 11)) ∧
  decodeTableWord 64 0x850000000000680 = some (.trap (Claim.header false 0 false) 133) ∧
  decodeTableWord 64 0xffffffffffffffff = none ∧
  decodeTableWord 64 0x0 = none ∧
  decodeTableWord 64 0x3020108008 = none ∧
  decodeTableWord 128 0x8c00000004030510201 = none ∧
  decodeTableWord 32 0x01100004 = some (.shLdf 1 4) ∧
  decodeTableWord 32 0x18040200 = some (.shBz 4 2)

/-! ### Statements made of several claims -/

/-- The results of the scalar instructions of chapter 04. -/
def Obligations.ScalarResults : Prop :=
  Claim.ScalarArithmeticResults ∧ Claim.ScalarBitResults ∧ Claim.ScalarFloatResults

/-- The results of the lane instructions on integers and bits (chapter 05). -/
def Obligations.LaneIntegerResults : Prop :=
  Claim.LaneArithmeticResults ∧ Claim.LaneBitResults

/-- Where branches, jumps and loops go, and where they fault (chapter 04). -/
def Obligations.BranchesJumpsAndLoops : Prop :=
  Claim.BranchesGoOn ∧ Claim.LoopCounts ∧ Claim.BranchFaults

/-- Paths split at a branch and merge at their reconvergence point, or run lane by lane in serial mode (04 R99-R103, R113, R117). -/
def Obligations.PathsSplitAndMerge : Prop :=
  Claim.BranchSplits ∧ Claim.IndirectSplits ∧ Claim.ArrivalsMerge ∧ Claim.BranchSerializes ∧ Claim.LaneRunsMerge

/-- Calls, returns and the ends of lanes (04 R102, R116, R119). -/
def Obligations.CallsReturnsAndExits : Prop :=
  Claim.CallsAndReturns ∧ Claim.ExitEndsLanes

/-- `vprefetch`, `fence` and `waita` complete (06 R163-R166). -/
def Obligations.PrefetchFenceAndWait : Prop :=
  Claim.PrefetchAndFenceComplete ∧ Claim.WaitaTakesOrSuspends

/-- A path that waits at an address or at a barrier runs on when what it waits for has come (06 R167, 07 R192). -/
def Obligations.WaitsEnd : Prop :=
  Claim.WaitaEnds ∧ Claim.BarrierWaitsEnd

/-- The checks of an access in their order, what they touch, and lanes out of range (06 R146-R151, 12 R274, 14 R306). -/
def Obligations.AccessChecksInOrder : Prop :=
  Claim.AccessChecks ∧ Claim.AccessChecksTouchTables ∧ Claim.LanesOutOfRange

/-- Indexed registers, spills and fills (06 R168-R171). -/
def Obligations.IndexedAndSpilledRegisters : Prop :=
  Claim.IndexedRegisters ∧ Claim.SpillAndFill ∧ Claim.IndexAndSpillFaults

/-- What memory gives back after a store, and where a result lands (12 R271, 05 R121). -/
def Obligations.MemoryAndLandings : Prop :=
  Claim.MemoryReadsWhatWasWritten ∧ Claim.ResultsLand

/-- Matrix operations and tile transfers, from their issue to their completion (07 R174-R179). -/
def Obligations.MatrixEngine : Prop :=
  Claim.MatrixOperations ∧ Claim.TileTransfersStart ∧ Claim.MatrixCompletions

/-- Descriptors, tile slots and copies (07 R182-R188). -/
def Obligations.DescriptorsAndCopies : Prop :=
  Claim.DescriptorsAndSlots ∧ Claim.CopiesStart ∧ Claim.CopyTilesMove

/-- Traversal, coverage and box tests (07 R196-R199, R208). -/
def Obligations.TraversalAndBoxTests : Prop :=
  Claim.TraversalAndCoverage ∧ Claim.BoxTestOrders

/-- Queues take records, give records and deliver payloads, once their handles have passed (07 R210-R213). -/
def Obligations.QueueRecords : Prop :=
  Claim.QueuesTakeRecords ∧ Claim.QueuesGiveRecords ∧ Claim.HandleChecks ∧ Claim.PayloadsDeliver

/-- Taking an exception, and returning from its handler (08 R217-R223). -/
def Obligations.ExceptionsAndReturns : Prop :=
  Claim.ExceptionsEnter ∧ Claim.HandlersReturn

/-- Reads and writes of control registers (01 R17-R20, 08 R224, R225). -/
def Obligations.ControlRegisters : Prop :=
  Claim.ControlRegistersRead ∧ Claim.ControlRegistersWrite

/-- The instructions that only advance, read a clock, offer an event or hold a path (08 R228-R233). -/
def Obligations.SystemInstructions : Prop :=
  Claim.YieldClockStampEventDrop ∧ Claim.HaltHolds

/-- Pages are mapped, moved and aged (08 R231, 14 R312-R318). -/
def Obligations.PagesMapMoveAndAge : Prop :=
  Claim.PagesMap ∧ Claim.PagesMoveAndAge

/-- Strips are committed, and chains start and miss (07 R209, 18 R368-R375). -/
def Obligations.StripTables : Prop :=
  Claim.StripCommits ∧ Claim.ChainsStartAndMiss

/-- Where clusters are placed, and how a group starts (16 R344, 10 R246, 01 R7, R19). -/
def Obligations.ClustersAndGroups : Prop :=
  Claim.ClustersPlaced ∧ Claim.GroupsStart

/-- Teams exit and leave cores (10 R248-R258, 18 R371). -/
def Obligations.TeamsEnd : Prop :=
  Claim.TeamsExit ∧ Claim.TeamsLeaveCores

/-- Messages of other modules and launches over a domain (16 R335, R347-R350). -/
def Obligations.FabricMessages : Prop :=
  Claim.RemoteMessages ∧ Claim.DomainLaunches

/-- Display heads, encoders, and the records of the trace buffer and the event rings (18 R381-R384, 22 R430-R433, R438). -/
def Obligations.RecordsOfUnits : Prop :=
  Claim.HeadsAndEncoders ∧ Claim.RecordsAndEvents ∧ Claim.TriggerRecord

/-- Filters compute and end (22 R436-R438). -/
def Obligations.FilterEvaluations : Prop :=
  Claim.FiltersCompute ∧ Claim.FiltersEnd

/-- Filters attach, and events reach them (22 R435, R437, R439). -/
def Obligations.FilterEvents : Prop :=
  Claim.EventsAccepted ∧ Claim.FiltersAttach

/-- Crook commands, points and notices (21 R416-R419, 22 R442-R444). -/
def Obligations.CrookDebug : Prop :=
  Claim.CrookCommandsOnGroups ∧ Claim.CrookPointsAndNotices

/-- The Bellwether, and the registers of the host (18 R360-R362, 20 R394-R397). -/
def Obligations.BellwetherAndHostRegisters : Prop :=
  Claim.BellwetherCounts ∧ Claim.HostRegisters
end

