-- ==== Sys2Proof/Laws/Data.lean ====
section
/-! SUPPORT. Reading what was written: banks, keyed lists, lane masks. -/

namespace Sys2Proof.Laws

/-! ### Banks -/

@[simp] theorem rd_wr_same {w : Nat} {α : Type} (v : Bank w α) (i : BitVec w) (x : α) : Bank.rd (v.wr i x) i = x := by
  simp [Bank.rd, Bank.wr]

theorem rd_wr {w : Nat} {α : Type} (v : Bank w α) (i j : BitVec w) (x : α) :
    Bank.rd (v.wr i x) j = if j = i then x else v.rd j := by
  simp only [Bank.rd, Bank.wr, Vector.getElem_set, BitVec.toNat_inj, eq_comm]

@[simp] theorem rd_wr_other {w : Nat} {α : Type} (v : Bank w α) {i j : BitVec w} (x : α) (h : j ≠ i) :
    Bank.rd (v.wr i x) j = v.rd j := by
  rw [rd_wr, if_neg h]

@[simp] theorem wr_wr {w : Nat} {α : Type} (v : Bank w α) (i : BitVec w) (x y : α) : Bank.wr (v.wr i x) i y = v.wr i y := by
  simp only [Bank.wr, Vector.set_set]

@[simp] theorem rd_fill {w : Nat} {α : Type} (x : α) (i : BitVec w) : Bank.rd (Bank.fill x) i = x := by
  simp [Bank.rd, Bank.fill]

@[simp] theorem rd_gen {w : Nat} {α : Type} (f : BitVec w → α) (i : BitVec w) : Bank.rd (Bank.gen f) i = f i := by
  simp [Bank.rd, Bank.gen]

/-! ### Keyed lists -/

@[simp] theorem kget_put_same {α : Type} (m : KMap α) (k : Nat) (x : α) : KMap.get (m.put k x) k = some x := by
  induction m with
  | nil => simp [KMap.put, KMap.get]
  | cons e m ih =>
    obtain ⟨j, y⟩ := e
    by_cases h : j = k <;> simp [KMap.put, KMap.get, h, ih]

@[simp] theorem kget_put_other {α : Type} (m : KMap α) {k j : Nat} (x : α) (h : j ≠ k) :
    KMap.get (m.put k x) j = m.get j := by
  induction m with
  | nil => simp [KMap.put, KMap.get, Ne.symm h]
  | cons e m ih =>
    obtain ⟨i, y⟩ := e
    by_cases h' : i = k
    · subst h'; simp [KMap.put, KMap.get, Ne.symm h]
    · by_cases h'' : i = j
      · subst h''; simp [KMap.put, KMap.get, h']
      · simp [KMap.put, KMap.get, h', h'', ih]

@[simp] theorem kput_put {α : Type} (m : KMap α) (k : Nat) (x y : α) : KMap.put (m.put k x) k y = m.put k y := by
  induction m with
  | nil => simp [KMap.put]
  | cons e m ih =>
    obtain ⟨j, z⟩ := e
    by_cases h : j = k <;> simp [KMap.put, h, ih]

/-! ### Lane masks -/

@[simp] theorem has_and (a b : Mask) (l : Lane) : Mask.has (a &&& b) l = (Mask.has a l && Mask.has b l) := by
  simp [Mask.has]

@[simp] theorem has_or (a b : Mask) (l : Lane) : Mask.has (a ||| b) l = (Mask.has a l || Mask.has b l) := by
  simp [Mask.has]

@[simp] theorem has_not (a : Mask) (l : Lane) : Mask.has (~~~a) l = !Mask.has a l := by
  simp [Mask.has, l.isLt]

theorem lane_cases (l : Lane) : l = 0 ∨ l = 1 ∨ l = 2 ∨ l = 3 ∨ l = 4 ∨ l = 5 ∨ l = 6 ∨ l = 7 := by
  revert l; decide

@[simp] theorem has_of (f : Lane → Bool) (l : Lane) : Mask.has (Mask.of f) l = f l := by
  have key : ∀ b0 b1 b2 b3 b4 b5 b6 b7 : Bool, ∀ l : Lane,
      Mask.has (allLanes.foldl (fun m k => if (match k.toNat with
        | 0 => b0 | 1 => b1 | 2 => b2 | 3 => b3 | 4 => b4 | 5 => b5 | 6 => b6 | _ => b7) then m ||| Mask.one k else m) 0) l =
      (match l.toNat with | 0 => b0 | 1 => b1 | 2 => b2 | 3 => b3 | 4 => b4 | 5 => b5 | 6 => b6 | _ => b7) := by decide
  have e := key (f 0) (f 1) (f 2) (f 3) (f 4) (f 5) (f 6) (f 7) l
  have hf : ∀ k : Lane, (match k.toNat with
      | 0 => f 0 | 1 => f 1 | 2 => f 2 | 3 => f 3 | 4 => f 4 | 5 => f 5 | 6 => f 6 | _ => f 7) = f k := by
    intro k
    rcases lane_cases k with h | h | h | h | h | h | h | h <;> subst h <;> rfl
  simp only [hf] at e
  exact e

end Sys2Proof.Laws
end

