-- ==== Sys2Proof/Laws/Elements.lean ====
section
/-! SUPPORT. Elements of lane registers: what replacing one or several of them gives (05 R123, R124). -/

namespace Sys2Proof.Machine

theorem getLsbD_setElt (w : Nat) (x : W32) (e : Nat) (v : BitVec w) (i : Nat) (hi : i < 32) :
    (setElt w x e v).getLsbD i = if w * e ≤ i ∧ i < w * e + w then v.getLsbD (i - w * e) else x.getLsbD i := by
  simp only [setElt, BitVec.getLsbD_or, BitVec.getLsbD_and, BitVec.getLsbD_not, BitVec.getLsbD_shiftLeft, BitVec.getLsbD_setWidth,
    BitVec.getLsbD_allOnes, hi, decide_true, Bool.true_and]
  by_cases h1 : w * e ≤ i
  · by_cases h2 : i < w * e + w
    · rw [if_pos ⟨h1, h2⟩]
      simp [show ¬ i < w * e by omega, show i - w * e < 32 by omega, show i - w * e < w by omega]
    · rw [if_neg (by omega)]
      simp [show ¬ i < w * e by omega, show ¬ i - w * e < w by omega, BitVec.getLsbD_of_ge v _ (by omega : w ≤ i - w * e)]
  · rw [if_neg (by omega)]
    simp [show i < w * e by omega]

theorem getLsbD_elt (w : Nat) (x : W32) (e i : Nat) (hi : i < w) : (elt w x e).getLsbD i = x.getLsbD (w * e + i) := by
  simp [elt, hi]

theorem elt_setElt (w : Nat) (x : W32) (e k : Nat) (v : BitVec w) (hk : w * k + w ≤ 32) (he : w * e + w ≤ 32) :
    elt w (setElt w x e v) k = if k = e then v else elt w x k := by
  apply BitVec.eq_of_getLsbD_eq
  intro i hi
  rw [getLsbD_elt _ _ _ _ hi, getLsbD_setElt _ _ _ _ _ (by omega)]
  by_cases h : k = e
  · subst h
    rw [if_pos ⟨by omega, by omega⟩, if_pos rfl]
    congr 1; omega
  · rw [if_neg h, getLsbD_elt _ _ _ _ hi, if_neg]
    rintro ⟨h1, h2⟩
    rcases Nat.lt_or_gt_of_ne h with h' | h'
    · have : w * (k + 1) ≤ w * e := Nat.mul_le_mul_left _ h'
      rw [Nat.mul_add] at this; omega
    · have : w * (e + 1) ≤ w * k := Nat.mul_le_mul_left _ h'
      rw [Nat.mul_add] at this; omega

/-- Every element an operation takes holds its result; the others are kept. -/
theorem elt_elements (w : Width) (half : Half) (old : W32) (f : Nat → BitVec (widthBits w)) :
    Elementwise w half old (elements (widthBits w) half old f) f := by
  have hw : ∀ k, k < 32 / widthBits w → widthBits w * k + widthBits w ≤ 32 := by
    cases w <;> simp only [widthBits] <;> omega
  have key : ∀ n, n ≤ 32 / widthBits w → ∀ k, k < 32 / widthBits w →
      elt (widthBits w) ((List.range n).foldl (fun x e => if halfTakes half (widthBits w) e then setElt (widthBits w) x e (f e) else x) old) k =
        if k < n ∧ halfTakes half (widthBits w) k then f k else elt (widthBits w) old k := by
    intro n
    induction n with
    | zero => intro _ k _; rw [if_neg (by omega)]; rfl
    | succ n ih =>
      intro hn k hk
      rw [List.range_succ, List.foldl_append, List.foldl_cons, List.foldl_nil]
      split
      · rename_i ht
        rw [elt_setElt _ _ _ _ _ (hw k hk) (hw n (by omega))]
        by_cases h : k = n
        · subst h; rw [if_pos rfl, if_pos ⟨by omega, ht⟩]
        · rw [if_neg h, ih (by omega) k hk]
          have : (k < n ∧ halfTakes half (widthBits w) k = true) ↔ (k < n + 1 ∧ halfTakes half (widthBits w) k = true) := by
            constructor <;> rintro ⟨a, b⟩ <;> exact ⟨by omega, b⟩
          simp only [this]
      · rename_i ht
        rw [ih (by omega) k hk]
        have : (k < n ∧ halfTakes half (widthBits w) k = true) ↔ (k < n + 1 ∧ halfTakes half (widthBits w) k = true) := by
          constructor
          · rintro ⟨a, b⟩; exact ⟨by omega, b⟩
          · rintro ⟨a, b⟩
            refine ⟨?_, b⟩
            rcases Nat.lt_or_ge k n with h | h
            · exact h
            · have : k = n := by omega
              subst this; exact absurd b ht
        simp only [this]
  intro e he
  rw [elements, key _ (Nat.le_refl _) e he]
  have : (e < 32 / widthBits w ∧ halfTakes half (widthBits w) e = true) ↔
      (half = .whole ∨ (half = .lo ∧ widthBits w * (e + 1) ≤ 16) ∨ (half = .hi ∧ 16 ≤ widthBits w * e)) := by
    cases half <;> simp [halfTakes, he]
  simp only [this]

end Sys2Proof.Machine
end

