-- ==== Sys2Proof/Laws/Encoding.lean ====
section
/-! SUPPORT. What is laid out is read back (02 R46-R72): one lemma per code, per field of the modifier byte and word 1, and per
operand shape. -/

namespace Sys2Proof.Laws

set_option linter.unusedSimpArgs false
set_option linter.constructorNameAsVariable false
set_option linter.unnecessarySeqFocus false

/-! ### Codes -/

@[simp] theorem condOf_code (c : Cond) : condOf c.code = c := by cases c <;> rfl
@[simp] theorem fcondOf_code (c : FCond) : fcondOf c.code = c := by cases c <;> rfl
@[simp] theorem rmOf_code (c : Rm) : rmOf c.code = c := by cases c <;> rfl
@[simp] theorem halfOf_code (c : Half) : halfOf c.code = c := by cases c <;> rfl
@[simp] theorem widthOf_code (c : Width) : widthOf c.code = c := by cases c <;> rfl
@[simp] theorem tyOf_code (c : Ty) : tyOf c.code = c := by cases c <;> rfl
@[simp] theorem sftyOf_code (c : SFty) : sftyOf c.code = c := by cases c <;> rfl
@[simp] theorem scvtTyOf_code (c : SCvtTy) : scvtTyOf c.code = c := by cases c <;> rfl
@[simp] theorem htyOf_code (c : HTy) : htyOf c.code = c := by cases c <;> rfl
@[simp] theorem sizeOf_code (c : Size) : sizeOf' c.code = c := by cases c <;> rfl
@[simp] theorem spaceOf_code (p : Space) : spaceOf p.code = p := by cases p <;> rfl
@[simp] theorem ordOf_code (c : Ord) : ordOf c.code = c := by cases c <;> rfl
@[simp] theorem scopeOf_code (c : Scope) : scopeOf c.code = c := by cases c <;> rfl
@[simp] theorem atomOf_code (c : AtomOp) : atomOf c.code.1 c.code.2 = c := by cases c <;> rfl
@[simp] theorem redOf_code (c : RedOp) : redOf c.code = c := by cases c <;> rfl
@[simp] theorem xstepOf_code (c : XStep) : xstepOf c.code = c := by cases c <;> rfl
@[simp] theorem rowsOf_code (c : Rows) : rowsOf c.code = c := by cases c <;> rfl
@[simp] theorem espaceOf_code (c : ESpace) : espaceOf c.code = c := by cases c <;> rfl
@[simp] theorem dfieldOf_code (c : DField) : dfieldOf c.code = c := by cases c <;> rfl
@[simp] theorem cdirOf_code (c : CDir) : cdirOf c.code = c := by cases c <;> rfl
@[simp] theorem psizeOf_code (c : PSize) : psizeOf c.code = c := by cases c <;> rfl
@[simp] theorem cwNameOf_code (c : CwName) : cwNameOf c.code = c := by cases c <;> rfl

@[simp] theorem permOf_code (p : Perm) : permOf p.code = p := by
  cases p with
  | id => rfl
  | rot k => revert k; decide
  | bc k => revert k; decide
  | bf k => revert k; decide
  | mir k => revert k; decide

theorem plain_eq {a : VSrc} (h : a.plain = true) : a.p = .id := by simpa [VSrc.plain] using h
@[simp] theorem plain_iff (a : VSrc) : a.plain = true ↔ a.p = .id := by simp [VSrc.plain]
@[simp] theorem rnd_plain_iff (r : Rnd) : r.plain = true ↔ r = .mode .rne := by simp [Rnd.plain]
@[simp] theorem code_id : Perm.code .id = 0#6 := rfl
@[simp] theorem permOf_zero : permOf 0#6 = .id := rfl
@[simp] theorem fitS_iff (v : W32) : fitS v = true ↔ (v.setWidth 12).signExtend 32 = v := by
  constructor
  · exact fun h => (eq_of_beq h).symm
  · exact fun h => beq_iff_eq.2 h.symm
theorem rnd_eq {r : Rnd} (h : r.plain = true) : r = .mode .rne := by simpa [Rnd.plain] using h
theorem fitS_eq {v : W32} (h : fitS v = true) : (v.setWidth 12).signExtend 32 = v := (eq_of_beq h).symm
theorem fitU_of_lt {v : W32} (h : v.toNat < 4096) : (v.setWidth 12).setWidth 32 = v := by
  apply BitVec.eq_of_toNat_eq; simp; omega

/-! ### Registers in an 8-bit field -/

@[simp] theorem regS_fld (a : SReg) : regS (fld a) = a := by simp [regS, fld]
@[simp] theorem regK_fld (a : KReg) : regK (fld a) = a := by simp [regK, fld]
@[simp] theorem regT_fld (a : TReg) : regT (fld a) = a := by simp [regT, fld]
@[simp] theorem regX_fld (a : XReg) : regX (fld a) = a := by simp [regX, fld]

/-! ### The modifier byte -/

@[simp] theorem fnScalar_i (i : Bool) (n : BitVec 4) : (fnScalar i n).getLsbD 7 = i := by revert i n; decide
@[simp] theorem fnScalar_lo (i : Bool) (n : BitVec 4) : (fnScalar i n).extractLsb' 0 4 = n := by revert i n; decide
@[simp] theorem fnScalar_0 (i : Bool) (n : BitVec 4) : (fnScalar i n).getLsbD 0 = n.getLsbD 0 := by revert i n; decide
@[simp] theorem app44_lo (x y : BitVec 4) : (x ++ y : BitVec (4 + 4)).extractLsb' 0 4 = y := by revert x y; decide
@[simp] theorem app44_hi (x y : BitVec 4) : (x ++ y : BitVec (4 + 4)).extractLsb' 4 4 = x := by revert x y; decide
@[simp] theorem fnLane_u (u i : Bool) (w : Width) (n : BitVec 4) : (fnLane u i w n).getLsbD 7 = u := by
  cases w <;> revert u i n <;> decide
@[simp] theorem fnLane_i (u i : Bool) (w : Width) (n : BitVec 4) : (fnLane u i w n).getLsbD 6 = i := by
  cases w <;> revert u i n <;> decide
@[simp] theorem fnLane_w (u i : Bool) (w : Width) (n : BitVec 4) : (fnLane u i w n).extractLsb' 4 2 = w.code := by
  cases w <;> revert u i n <;> decide
@[simp] theorem fnLane_lo (u i : Bool) (w : Width) (n : BitVec 4) : (fnLane u i w n).extractLsb' 0 4 = n := by
  cases w <;> revert u i n <;> decide
@[simp] theorem fnMem_z (o : Ord) (sp : Space) (z : Size) : (fnMem o sp z).extractLsb' 0 3 = z.code := by
  cases o <;> cases sp <;> cases z <;> rfl
@[simp] theorem fnMem_sp (o : Ord) (sp : Space) (z : Size) : (fnMem o sp z).extractLsb' 3 3 = sp.code := by
  cases o <;> cases sp <;> cases z <;> rfl
@[simp] theorem fnMem_ord (o : Ord) (sp : Space) (z : Size) : (fnMem o sp z).extractLsb' 6 2 = o.code := by
  cases o <;> cases sp <;> cases z <;> rfl

/-! ### MOD -/

@[simp] theorem modAr_rm (m : Rm) (h : Half) (b : Bool) : (modAr (.mode m) h b).extractLsb' 0 2 = m.code := by
  cases m <;> cases h <;> cases b <;> rfl
@[simp] theorem modAr_sr (r : Rnd) (h : Half) (b : Bool) : (modAr r h b).getLsbD 5 = (r == .sr) := by
  cases r with
  | sr => cases h <;> cases b <;> rfl
  | mode m => cases m <;> cases h <;> cases b <;> rfl
@[simp] theorem modAr_half (r : Rnd) (h : Half) (b : Bool) : (modAr r h b).extractLsb' 3 2 = h.code := by
  cases r with
  | sr => cases h <;> cases b <;> rfl
  | mode m => cases m <;> cases h <;> cases b <;> rfl
@[simp] theorem modAr_sat (r : Rnd) (h : Half) (b : Bool) : (modAr r h b).getLsbD 2 = b := by
  cases r with
  | sr => cases h <;> cases b <;> rfl
  | mode m => cases m <;> cases h <;> cases b <;> rfl
@[simp] theorem modAr_zero : modAr (.mode .rne) .whole false = 0#6 := rfl
@[simp] theorem rne_code : Rm.code .rne = 0#2 := rfl
@[simp] theorem modMem_zero : modMem 0#3 .path = 0#6 := rfl
@[simp] theorem rmOf_zero : rmOf 0#2 = .rne := rfl
@[simp] theorem halfOf_zero : halfOf 0#2 = .whole := rfl
@[simp] theorem scopeOf_zero : scopeOf 0#3 = .path := rfl
theorem modAr_rnd (r : Rnd) (h : Half) (b : Bool) :
    (if (modAr r h b).getLsbD 5 then Rnd.sr else .mode (rmOf ((modAr r h b).extractLsb' 0 2))) = r := by
  cases r with
  | sr => simp only [modAr_sr]; rfl
  | mode m => simp only [modAr_sr, modAr_rm, rmOf_code]; rfl
@[simp] theorem rm_mod (m : Rm) : (m.code.setWidth 6).extractLsb' 0 2 = m.code := by cases m <;> rfl
@[simp] theorem modMem_sel (s : BitVec 3) (c : Scope) : (modMem s c).extractLsb' 3 3 = s := by cases c <;> revert s <;> decide
@[simp] theorem modMem_scope (s : BitVec 3) (c : Scope) : (modMem s c).extractLsb' 0 3 = c.code := by
  cases c <;> revert s <;> decide
@[simp] theorem modMem_mode (m : BitVec 2) (x : Bool) (c : Scope) : (modMem (m ++ BitVec.ofBool x) c).extractLsb' 4 2 = m := by
  cases c <;> revert m x <;> decide
@[simp] theorem modMem_x (m : BitVec 2) (x : Bool) (c : Scope) : (modMem (m ++ BitVec.ofBool x) c).getLsbD 3 = x := by
  cases c <;> revert m x <;> decide


/-! ### Fields side by side -/

theorem app_lo {m n k w : Nat} (x : BitVec m) (y : BitVec n) (h : w ≤ n) (hk : n ≤ k) :
    ((x ++ y).setWidth k).extractLsb' 0 w = y.setWidth w := by
  ext i hi
  rw [BitVec.getElem_extractLsb', BitVec.getLsbD_setWidth, BitVec.getLsbD_append]
  simp [show i < n by omega, show i < k by omega, hi]

theorem app_hi {m n k : Nat} (x : BitVec m) (y : BitVec n) (hk : m + n ≤ k) :
    ((x ++ y).setWidth k).extractLsb' n m = x := by
  ext i hi
  rw [BitVec.getElem_extractLsb', BitVec.getLsbD_setWidth, BitVec.getLsbD_append]
  have : ¬ n + i < n := by omega
  simp [this, hi]; omega

@[simp] theorem pos66 (x y : BitVec 6) : ((x ++ y).setWidth 32 : W32).extractLsb' 0 6 = y := by rw [app_lo] <;> simp
@[simp] theorem wid66 (x y : BitVec 6) : ((x ++ y).setWidth 32 : W32).extractLsb' 6 6 = x := by rw [app_hi]; simp
@[simp] theorem pos55 (x y : BitVec 5) : ((x ++ y).setWidth 32 : W32).extractLsb' 0 5 = y := by rw [app_lo] <;> simp
@[simp] theorem wid55 (x y : BitVec 5) : ((x ++ y).setWidth 32 : W32).extractLsb' 5 5 = x := by rw [app_hi]; simp
@[simp] theorem pos33 (x y : BitVec 3) : ((x ++ y).setWidth 32 : W32).extractLsb' 0 3 = y := by rw [app_lo] <;> simp
@[simp] theorem wid33 (x y : BitVec 3) : ((x ++ y).setWidth 32 : W32).extractLsb' 3 3 = x := by rw [app_hi]; simp

/-- A value below 4,096 survives the 12-bit field. -/
theorem in12 {v : W32} (h : v.toNat < 4096) : (v.setWidth 12).setWidth 32 = v := by
  apply BitVec.eq_of_toNat_eq; simp; omega

theorem narrow12 {n : Nat} (v : BitVec n) (h : n ≤ 12) : ((v.setWidth 32 : W32).setWidth 12).setWidth 32 = v.setWidth 32 := by
  apply in12
  have := v.isLt
  have : 2 ^ n ≤ 2 ^ 12 := Nat.pow_le_pow_right (by omega) h
  simp; omega

@[simp] theorem roff_app (o : BitVec 20) : (o.extractLsb' 14 6 ++ o.extractLsb' 6 8 ++ o.extractLsb' 0 6 : BitVec 20) = o := by
  apply BitVec.eq_of_getLsbD_eq
  intro i hi
  rw [BitVec.getLsbD_append, BitVec.getLsbD_append]
  by_cases h : i < 6
  · simp [h]
  · by_cases h' : i - 6 < 8
    · simp [h, h', show 6 + (i - 6) = i by omega]
    · simp [h, h', show i - 6 - 8 < 6 by omega, show 14 + (i - 6 - 8) = i by omega]

@[simp] theorem below4096 {v : W32} (h : v.toNat < 4096) : (v.setWidth 12).setWidth 32 = v := in12 h
@[simp] theorem below64 {v : W32} (h : v.toNat < 64) : (v.setWidth 12).setWidth 32 = v := in12 (by omega)
@[simp] theorem below32 {v : W32} (h : v.toNat < 32) : (v.setWidth 12).setWidth 32 = v := in12 (by omega)
@[simp] theorem below16 {v : W32} (h : v.toNat < 16) : (v.setWidth 12).setWidth 32 = v := in12 (by omega)
@[simp] theorem below8 {v : W32} (h : v.toNat < 8) : (v.setWidth 12).setWidth 32 = v := in12 (by omega)
@[simp] theorem narrow16 {n : W16} (h : n.toNat < 4096) : ((n.setWidth 12).setWidth 32 : W32).setWidth 16 = n := by
  apply BitVec.eq_of_toNat_eq; simp; omega
@[simp] theorem narrow24 {n : BitVec 24} (h : n.toNat < 4096) : ((n.setWidth 12).setWidth 32 : W32).setWidth 24 = n := by
  apply BitVec.eq_of_toNat_eq; simp; omega

@[simp] theorem mode_vec (c : Scope) : (modMem 0#3 c).toNat >>> 4 % 4 = 0 := by cases c <;> rfl
@[simp] theorem mode_scaled (c : Scope) : (modMem 2#3 c).toNat >>> 4 % 4 = 1 := by cases c <;> rfl
@[simp] theorem mode_lanes (c : Scope) : (modMem 4#3 c).toNat >>> 4 % 4 = 2 := by cases c <;> rfl
@[simp] theorem flag_bit (b : Bool) : (0#7 ++ BitVec.ofBool b).getLsbD 0 = b := by cases b <;> rfl
@[simp] theorem flag_fn (i b : Bool) : (fnScalar i (0#3 ++ BitVec.ofBool b)).getLsbD 0 = b := by cases i <;> cases b <;> rfl
@[simp] theorem two_flags0 (x y : Bool) : (0#6 ++ BitVec.ofBool x ++ BitVec.ofBool y).getLsbD 0 = y := by cases x <;> cases y <;> rfl
@[simp] theorem two_flags1 (x y : Bool) : (0#6 ++ BitVec.ofBool x ++ BitVec.ofBool y).getLsbD 1 = x := by cases x <;> cases y <;> rfl
@[simp] theorem xstep_fn (c : XStep) : (c.code.setWidth 8).extractLsb' 0 2 = c.code := by cases c <;> rfl
@[simp] theorem spill_adj (b : Bool) (n : BitVec 4) : (0#3 ++ BitVec.ofBool b ++ n).getLsbD 4 = b := by revert b n; decide
@[simp] theorem spill_n (b : Bool) (n : BitVec 4) : (0#3 ++ BitVec.ofBool b ++ n).extractLsb' 0 4 = n := by revert b n; decide
@[simp] theorem espace_m (c : ESpace) : (0#1 ++ c.code ++ 0#4).extractLsb' 4 3 = c.code := by cases c <;> rfl
@[simp] theorem espace_d (c : ESpace) : (0#2 ++ c.code ++ 0#3).extractLsb' 3 3 = c.code := by cases c <;> rfl
@[simp] theorem cdir_fn (c : CDir) : (0#5 ++ c.code).extractLsb' 0 3 = c.code := by cases c <;> rfl
@[simp] theorem psize_fn (c : PSize) : (0#6 ++ c.code).extractLsb' 0 2 = c.code := by cases c <;> rfl
@[simp] theorem pairs_k (k : KReg) (q : QReg) : (0#2 ++ k ++ q).extractLsb' 2 4 = k := by revert k q; decide
@[simp] theorem pairs_q (k : KReg) (q : QReg) : (0#2 ++ k ++ q).extractLsb' 0 2 = q := by revert k q; decide
@[simp] theorem fld_lo (k : KReg) : (fld k).extractLsb' 0 4 = k := by revert k; decide
@[simp] theorem tag12 {n : W16} (h : n.toNat < 4096) : (n.setWidth 12).setWidth 16 = n := by
  apply BitVec.eq_of_toNat_eq; simp; omega
@[simp] theorem val12 {n : BitVec 24} (h : n.toNat < 4096) : (n.setWidth 12).setWidth 24 = n := by
  apply BitVec.eq_of_toNat_eq; simp; omega
@[simp] theorem fence_p (x y : BitVec 7) : (0#17 ++ x ++ 0#1 ++ y).extractLsb' 0 7 = y := by
  apply BitVec.eq_of_getLsbD_eq
  intro i hi
  rw [BitVec.getLsbD_extractLsb', BitVec.getLsbD_append]
  simp [hi]
@[simp] theorem fence_s (x y : BitVec 7) : (0#17 ++ x ++ 0#1 ++ y).extractLsb' 8 7 = x := by
  apply BitVec.eq_of_getLsbD_eq
  intro i hi
  rw [BitVec.getLsbD_extractLsb', BitVec.getLsbD_append, BitVec.getLsbD_append, BitVec.getLsbD_append]
  simp [hi, show ¬ 8 + i < 7 by omega, show ¬ 8 + i - 7 < 1 by omega, show 8 + i - 7 - 1 = i by omega]
@[simp] theorem team_bar (n : BitVec 4) : ((n.setWidth 8 : W8).setWidth 4) = n := by revert n; decide
@[simp] theorem cluster_bar (n : BitVec 2) : ((n.setWidth 8 : W8).setWidth 2) = n := by revert n; decide
@[simp] theorem regK_wide (n : BitVec 4) : regK (n.setWidth 8) = n := by revert n; decide
@[simp] theorem regX_wide (n : BitVec 2) : regX (n.setWidth 8) = n := by revert n; decide
@[simp] theorem crNameOf_code (c : CrName) : crNameOf c.code = c := by
  cases c with
  | ctr n => revert n; decide
  | _ => rfl
theorem crName_faddr (c : CrName) : c.code ≠ 13 := by
  cases c with
  | ctr n => revert n; decide
  | _ => decide
theorem crName_rngs (c : CrName) : c.code ≠ 14 := by
  cases c with
  | ctr n => revert n; decide
  | _ => decide
theorem cwName_faddr (c : CwName) : c.code ≠ 13 := by cases c <;> decide
theorem cwName_rngs (c : CwName) : c.code ≠ 14 := by cases c <;> decide

/-- What laying out keeps: the header, the opcode, and nothing in word 1 of the short form. -/
structure Laid (h : Hdr) (op : W8) (r : Raw) : Prop where
  head : r.h = h
  code : r.op = op
  short : h.long = false → r.word1 = 0

/-- Fields of word 1 that are all zero. -/
theorem word1_zero (r : Raw) (h1 : r.imm32 = 0) (h2 : r.mod = 0) (h3 : r.c = 0) (h4 : r.pcc = 0) (h5 : r.pb = 0) (h6 : r.pa = 0) :
    r.word1 = 0 := by
  simp only [Raw.word1, h1, h2, h3, h4, h5, h6]; rfl

theorem laid_iff (h : Hdr) (op : W8) (r : Raw) : Laid h op r ↔ r.h = h ∧ r.op = op ∧ (h.long = false → r.word1 = 0) :=
  ⟨fun x => ⟨x.head, x.code, x.short⟩, fun x => ⟨x.1, x.2.1, x.2.2⟩⟩

theorem laid_SSat (h : Hdr) (op : W8) (o : SSat) (hw : ((chkSSat h o).fn && (chkSSat h o).fld && (chkSSat h o).short) = true) :
    Laid h op (putSSat (Raw.mk h op 0 0 0 0 0 0 0 0 0 0 0) o) ∧ getSSat (putSSat (Raw.mk h op 0 0 0 0 0 0 0 0 0 0 0) o) = o := by
  obtain ⟨satx, dx, ax, bx⟩ := o
  rcases hl : h.long with _ | _ <;> cases bx <;>
    simp_all [laid_iff, chkSSat, putSSat, getSSat, Raw.imm, Raw.immS, Raw.immU, Raw.immSB, Raw.putA, Raw.putB, Raw.putC, Raw.putVB, Raw.srcA, Raw.srcB, Raw.srcC, Raw.vb, Raw.vbU,
      Raw.sb, Raw.sbU, Raw.rm, Raw.half, Raw.sat, Raw.u, Raw.width, Raw.fnLo, Raw.fnHi, Raw.ord, Raw.sp, Raw.z, Raw.scope, Raw.sel,
      putRoff, getRoff, putAtom, Raw.atom, Raw.putAddr, Raw.addr, Raw.putBar, Raw.bar, Raw.barD, Bar.fld, Bar.isCluster, Raw.rnd,
      SB.below, VB.below, Addr.isVec, Width.bits, Raw.word1, SB.fit, VB.fit, SB.isImm, VB.isImm, VSrc.plain, -BitVec.getLsbD_eq_getElem]

theorem laid_SAddI (h : Hdr) (op : W8) (o : SImm) (hw : ((chkSAddI h o).fn && (chkSAddI h o).fld && (chkSAddI h o).short) = true) :
    Laid h op (putSAddI (Raw.mk h op 0 0 0 0 0 0 0 0 0 0 0) o) ∧ getSAddI (putSAddI (Raw.mk h op 0 0 0 0 0 0 0 0 0 0 0) o) = o := by
  obtain ⟨dx, immx⟩ := o
  rcases hl : h.long with _ | _ <;>
    simp_all [laid_iff, chkSAddI, putSAddI, getSAddI, Raw.imm, Raw.immS, Raw.immU, Raw.immSB, Raw.putA, Raw.putB, Raw.putC, Raw.putVB, Raw.srcA, Raw.srcB, Raw.srcC, Raw.vb, Raw.vbU,
      Raw.sb, Raw.sbU, Raw.rm, Raw.half, Raw.sat, Raw.u, Raw.width, Raw.fnLo, Raw.fnHi, Raw.ord, Raw.sp, Raw.z, Raw.scope, Raw.sel,
      putRoff, getRoff, putAtom, Raw.atom, Raw.putAddr, Raw.addr, Raw.putBar, Raw.bar, Raw.barD, Bar.fld, Bar.isCluster, Raw.rnd,
      SB.below, VB.below, Addr.isVec, Width.bits, Raw.word1, SB.fit, VB.fit, SB.isImm, VB.isImm, VSrc.plain, -BitVec.getLsbD_eq_getElem]

theorem laid_SBin (h : Hdr) (op : W8) (o : SBin) (hw : ((chkSBin h o).fn && (chkSBin h o).fld && (chkSBin h o).short) = true) :
    Laid h op (putSBin (Raw.mk h op 0 0 0 0 0 0 0 0 0 0 0) o) ∧ getSBin (putSBin (Raw.mk h op 0 0 0 0 0 0 0 0 0 0 0) o) = o := by
  obtain ⟨dx, ax, bx⟩ := o
  rcases hl : h.long with _ | _ <;> cases bx <;>
    simp_all [laid_iff, chkSBin, putSBin, getSBin, Raw.imm, Raw.immS, Raw.immU, Raw.immSB, Raw.putA, Raw.putB, Raw.putC, Raw.putVB, Raw.srcA, Raw.srcB, Raw.srcC, Raw.vb, Raw.vbU,
      Raw.sb, Raw.sbU, Raw.rm, Raw.half, Raw.sat, Raw.u, Raw.width, Raw.fnLo, Raw.fnHi, Raw.ord, Raw.sp, Raw.z, Raw.scope, Raw.sel,
      putRoff, getRoff, putAtom, Raw.atom, Raw.putAddr, Raw.addr, Raw.putBar, Raw.bar, Raw.barD, Bar.fld, Bar.isCluster, Raw.rnd,
      SB.below, VB.below, Addr.isVec, Width.bits, Raw.word1, SB.fit, VB.fit, SB.isImm, VB.isImm, VSrc.plain, -BitVec.getLsbD_eq_getElem]

theorem laid_SShift (h : Hdr) (op : W8) (o : SBin) (hw : ((chkSShift h o).fn && (chkSShift h o).fld && (chkSShift h o).short) = true) :
    Laid h op (putSShift (Raw.mk h op 0 0 0 0 0 0 0 0 0 0 0) o) ∧ getSShift (putSShift (Raw.mk h op 0 0 0 0 0 0 0 0 0 0 0) o) = o := by
  obtain ⟨dx, ax, bx⟩ := o
  rcases hl : h.long with _ | _ <;> cases bx <;>
    simp_all [laid_iff, chkSShift, putSShift, getSShift, Raw.imm, Raw.immS, Raw.immU, Raw.immSB, Raw.putA, Raw.putB, Raw.putC, Raw.putVB, Raw.srcA, Raw.srcB, Raw.srcC, Raw.vb, Raw.vbU,
      Raw.sb, Raw.sbU, Raw.rm, Raw.half, Raw.sat, Raw.u, Raw.width, Raw.fnLo, Raw.fnHi, Raw.ord, Raw.sp, Raw.z, Raw.scope, Raw.sel,
      putRoff, getRoff, putAtom, Raw.atom, Raw.putAddr, Raw.addr, Raw.putBar, Raw.bar, Raw.barD, Bar.fld, Bar.isCluster, Raw.rnd,
      SB.below, VB.below, Addr.isVec, Width.bits, Raw.word1, SB.fit, VB.fit, SB.isImm, VB.isImm, VSrc.plain, -BitVec.getLsbD_eq_getElem]

theorem laid_SUn (h : Hdr) (op : W8) (o : SUn) (_ : ((chkSUn h o).fn && (chkSUn h o).fld && (chkSUn h o).short) = true) :
    Laid h op (putSUn (Raw.mk h op 0 0 0 0 0 0 0 0 0 0 0) o) ∧ getSUn (putSUn (Raw.mk h op 0 0 0 0 0 0 0 0 0 0 0) o) = o := by
  obtain ⟨dx, ax⟩ := o
  rcases hl : h.long with _ | _ <;>
    simp_all [laid_iff, chkSUn, putSUn, getSUn, Raw.imm, Raw.immS, Raw.immU, Raw.immSB, Raw.putA, Raw.putB, Raw.putC, Raw.putVB, Raw.srcA, Raw.srcB, Raw.srcC, Raw.vb, Raw.vbU,
      Raw.sb, Raw.sbU, Raw.rm, Raw.half, Raw.sat, Raw.u, Raw.width, Raw.fnLo, Raw.fnHi, Raw.ord, Raw.sp, Raw.z, Raw.scope, Raw.sel,
      putRoff, getRoff, putAtom, Raw.atom, Raw.putAddr, Raw.addr, Raw.putBar, Raw.bar, Raw.barD, Bar.fld, Bar.isCluster, Raw.rnd,
      SB.below, VB.below, Addr.isVec, Width.bits, Raw.word1, SB.fit, VB.fit, SB.isImm, VB.isImm, VSrc.plain, -BitVec.getLsbD_eq_getElem]

theorem laid_SBits (h : Hdr) (op : W8) (o : SBits) (_ : ((chkSBits h o).fn && (chkSBits h o).fld && (chkSBits h o).short) = true) :
    Laid h op (putSBits (Raw.mk h op 0 0 0 0 0 0 0 0 0 0 0) o) ∧ getSBits (putSBits (Raw.mk h op 0 0 0 0 0 0 0 0 0 0 0) o) = o := by
  obtain ⟨dx, ax, posx, wm1x⟩ := o
  rcases hl : h.long with _ | _ <;>
    simp_all [laid_iff, chkSBits, putSBits, getSBits, Raw.imm, Raw.immS, Raw.immU, Raw.immSB, Raw.putA, Raw.putB, Raw.putC, Raw.putVB, Raw.srcA, Raw.srcB, Raw.srcC, Raw.vb, Raw.vbU,
      Raw.sb, Raw.sbU, Raw.rm, Raw.half, Raw.sat, Raw.u, Raw.width, Raw.fnLo, Raw.fnHi, Raw.ord, Raw.sp, Raw.z, Raw.scope, Raw.sel,
      putRoff, getRoff, putAtom, Raw.atom, Raw.putAddr, Raw.addr, Raw.putBar, Raw.bar, Raw.barD, Bar.fld, Bar.isCluster, Raw.rnd,
      SB.below, VB.below, Addr.isVec, Width.bits, Raw.word1, SB.fit, VB.fit, SB.isImm, VB.isImm, VSrc.plain, -BitVec.getLsbD_eq_getElem]

theorem laid_SCmp (h : Hdr) (op : W8) (o : SCmp) (hw : ((chkSCmp h o).fn && (chkSCmp h o).fld && (chkSCmp h o).short) = true) :
    Laid h op (putSCmp (Raw.mk h op 0 0 0 0 0 0 0 0 0 0 0) o) ∧ getSCmp (putSCmp (Raw.mk h op 0 0 0 0 0 0 0 0 0 0 0) o) = o := by
  obtain ⟨ccx, dx, ax, bx⟩ := o
  rcases hl : h.long with _ | _ <;> cases bx <;>
    simp_all [laid_iff, chkSCmp, putSCmp, getSCmp, Raw.imm, Raw.immS, Raw.immU, Raw.immSB, Raw.putA, Raw.putB, Raw.putC, Raw.putVB, Raw.srcA, Raw.srcB, Raw.srcC, Raw.vb, Raw.vbU,
      Raw.sb, Raw.sbU, Raw.rm, Raw.half, Raw.sat, Raw.u, Raw.width, Raw.fnLo, Raw.fnHi, Raw.ord, Raw.sp, Raw.z, Raw.scope, Raw.sel,
      putRoff, getRoff, putAtom, Raw.atom, Raw.putAddr, Raw.addr, Raw.putBar, Raw.bar, Raw.barD, Bar.fld, Bar.isCluster, Raw.rnd,
      SB.below, VB.below, Addr.isVec, Width.bits, Raw.word1, SB.fit, VB.fit, SB.isImm, VB.isImm, VSrc.plain, -BitVec.getLsbD_eq_getElem]

theorem laid_SImm (h : Hdr) (op : W8) (o : SImm) (hw : h.long = true) :
    Laid h op (putSImm (Raw.mk h op 0 0 0 0 0 0 0 0 0 0 0) o) ∧ getSImm (putSImm (Raw.mk h op 0 0 0 0 0 0 0 0 0 0 0) o) = o := by
  obtain ⟨dx, immx⟩ := o
  rcases hl : h.long with _ | _ <;>
    simp_all [laid_iff, chkSImm, putSImm, getSImm, Raw.imm, Raw.immS, Raw.immU, Raw.immSB, Raw.putA, Raw.putB, Raw.putC, Raw.putVB, Raw.srcA, Raw.srcB, Raw.srcC, Raw.vb, Raw.vbU,
      Raw.sb, Raw.sbU, Raw.rm, Raw.half, Raw.sat, Raw.u, Raw.width, Raw.fnLo, Raw.fnHi, Raw.ord, Raw.sp, Raw.z, Raw.scope, Raw.sel,
      putRoff, getRoff, putAtom, Raw.atom, Raw.putAddr, Raw.addr, Raw.putBar, Raw.bar, Raw.barD, Bar.fld, Bar.isCluster, Raw.rnd,
      SB.below, VB.below, Addr.isVec, Width.bits, Raw.word1, SB.fit, VB.fit, SB.isImm, VB.isImm, VSrc.plain, -BitVec.getLsbD_eq_getElem]

theorem laid_SMov (h : Hdr) (op : W8) (o : SMov) (hw : ((chkSMov h o).fn && (chkSMov h o).fld && (chkSMov h o).short) = true) :
    Laid h op (putSMov (Raw.mk h op 0 0 0 0 0 0 0 0 0 0 0) o) ∧ getSMov (putSMov (Raw.mk h op 0 0 0 0 0 0 0 0 0 0 0) o) = o := by
  obtain ⟨dx, ax⟩ := o
  rcases hl : h.long with _ | _ <;> cases ax <;>
    simp_all [laid_iff, chkSMov, putSMov, getSMov, Raw.imm, Raw.immS, Raw.immU, Raw.immSB, Raw.putA, Raw.putB, Raw.putC, Raw.putVB, Raw.srcA, Raw.srcB, Raw.srcC, Raw.vb, Raw.vbU,
      Raw.sb, Raw.sbU, Raw.rm, Raw.half, Raw.sat, Raw.u, Raw.width, Raw.fnLo, Raw.fnHi, Raw.ord, Raw.sp, Raw.z, Raw.scope, Raw.sel,
      putRoff, getRoff, putAtom, Raw.atom, Raw.putAddr, Raw.addr, Raw.putBar, Raw.bar, Raw.barD, Bar.fld, Bar.isCluster, Raw.rnd,
      SB.below, VB.below, Addr.isVec, Width.bits, Raw.word1, SB.fit, VB.fit, SB.isImm, VB.isImm, VSrc.plain, -BitVec.getLsbD_eq_getElem]

theorem laid_SFp (h : Hdr) (op : W8) (o : SFp) (hw : ((chkSFp h o).fn && (chkSFp h o).fld && (chkSFp h o).short) = true) :
    Laid h op (putSFp (Raw.mk h op 0 0 0 0 0 0 0 0 0 0 0) o) ∧ getSFp (putSFp (Raw.mk h op 0 0 0 0 0 0 0 0 0 0 0) o) = o := by
  obtain ⟨tx, rmx, dx, ax, bx⟩ := o
  rcases hl : h.long with _ | _ <;>
    simp_all [laid_iff, chkSFp, putSFp, getSFp, Raw.imm, Raw.immS, Raw.immU, Raw.immSB, Raw.putA, Raw.putB, Raw.putC, Raw.putVB, Raw.srcA, Raw.srcB, Raw.srcC, Raw.vb, Raw.vbU,
      Raw.sb, Raw.sbU, Raw.rm, Raw.half, Raw.sat, Raw.u, Raw.width, Raw.fnLo, Raw.fnHi, Raw.ord, Raw.sp, Raw.z, Raw.scope, Raw.sel,
      putRoff, getRoff, putAtom, Raw.atom, Raw.putAddr, Raw.addr, Raw.putBar, Raw.bar, Raw.barD, Bar.fld, Bar.isCluster, Raw.rnd,
      SB.below, VB.below, Addr.isVec, Width.bits, Raw.word1, SB.fit, VB.fit, SB.isImm, VB.isImm, VSrc.plain, -BitVec.getLsbD_eq_getElem]

theorem laid_SFma (h : Hdr) (op : W8) (o : SFma) (hw : h.long = true) :
    Laid h op (putSFma (Raw.mk h op 0 0 0 0 0 0 0 0 0 0 0) o) ∧ getSFma (putSFma (Raw.mk h op 0 0 0 0 0 0 0 0 0 0 0) o) = o := by
  obtain ⟨tx, rmx, dx, ax, bx, cx⟩ := o
  rcases hl : h.long with _ | _ <;>
    simp_all [laid_iff, chkSFma, putSFma, getSFma, Raw.imm, Raw.immS, Raw.immU, Raw.immSB, Raw.putA, Raw.putB, Raw.putC, Raw.putVB, Raw.srcA, Raw.srcB, Raw.srcC, Raw.vb, Raw.vbU,
      Raw.sb, Raw.sbU, Raw.rm, Raw.half, Raw.sat, Raw.u, Raw.width, Raw.fnLo, Raw.fnHi, Raw.ord, Raw.sp, Raw.z, Raw.scope, Raw.sel,
      putRoff, getRoff, putAtom, Raw.atom, Raw.putAddr, Raw.addr, Raw.putBar, Raw.bar, Raw.barD, Bar.fld, Bar.isCluster, Raw.rnd,
      SB.below, VB.below, Addr.isVec, Width.bits, Raw.word1, SB.fit, VB.fit, SB.isImm, VB.isImm, VSrc.plain, -BitVec.getLsbD_eq_getElem]

theorem laid_SFCmp (h : Hdr) (op : W8) (o : SFCmp) (_ : ((chkSFCmp h o).fn && (chkSFCmp h o).fld && (chkSFCmp h o).short) = true) :
    Laid h op (putSFCmp (Raw.mk h op 0 0 0 0 0 0 0 0 0 0 0) o) ∧ getSFCmp (putSFCmp (Raw.mk h op 0 0 0 0 0 0 0 0 0 0 0) o) = o := by
  obtain ⟨tx, ccx, dx, ax, bx⟩ := o
  rcases hl : h.long with _ | _ <;>
    simp_all [laid_iff, chkSFCmp, putSFCmp, getSFCmp, Raw.imm, Raw.immS, Raw.immU, Raw.immSB, Raw.putA, Raw.putB, Raw.putC, Raw.putVB, Raw.srcA, Raw.srcB, Raw.srcC, Raw.vb, Raw.vbU,
      Raw.sb, Raw.sbU, Raw.rm, Raw.half, Raw.sat, Raw.u, Raw.width, Raw.fnLo, Raw.fnHi, Raw.ord, Raw.sp, Raw.z, Raw.scope, Raw.sel,
      putRoff, getRoff, putAtom, Raw.atom, Raw.putAddr, Raw.addr, Raw.putBar, Raw.bar, Raw.barD, Bar.fld, Bar.isCluster, Raw.rnd,
      SB.below, VB.below, Addr.isVec, Width.bits, Raw.word1, SB.fit, VB.fit, SB.isImm, VB.isImm, VSrc.plain, -BitVec.getLsbD_eq_getElem]

theorem laid_SFCvt (h : Hdr) (op : W8) (o : SFCvt) (hw : ((chkSFCvt h o).fn && (chkSFCvt h o).fld && (chkSFCvt h o).short) = true) :
    Laid h op (putSFCvt (Raw.mk h op 0 0 0 0 0 0 0 0 0 0 0) o) ∧ getSFCvt (putSFCvt (Raw.mk h op 0 0 0 0 0 0 0 0 0 0 0) o) = o := by
  obtain ⟨dstx, srcx, rmx, satx, dx, ax⟩ := o
  rcases hl : h.long with _ | _ <;>
    simp_all [laid_iff, chkSFCvt, putSFCvt, getSFCvt, Raw.imm, Raw.immS, Raw.immU, Raw.immSB, Raw.putA, Raw.putB, Raw.putC, Raw.putVB, Raw.srcA, Raw.srcB, Raw.srcC, Raw.vb, Raw.vbU,
      Raw.sb, Raw.sbU, Raw.rm, Raw.half, Raw.sat, Raw.u, Raw.width, Raw.fnLo, Raw.fnHi, Raw.ord, Raw.sp, Raw.z, Raw.scope, Raw.sel,
      putRoff, getRoff, putAtom, Raw.atom, Raw.putAddr, Raw.addr, Raw.putBar, Raw.bar, Raw.barD, Bar.fld, Bar.isCluster, Raw.rnd,
      SB.below, VB.below, Addr.isVec, Width.bits, Raw.word1, SB.fit, VB.fit, SB.isImm, VB.isImm, VSrc.plain, -BitVec.getLsbD_eq_getElem]

theorem laid_Toff (h : Hdr) (op : W8) (o : W32) (hw : h.long = true) :
    Laid h op (putToff (Raw.mk h op 0 0 0 0 0 0 0 0 0 0 0) o) ∧ getToff (putToff (Raw.mk h op 0 0 0 0 0 0 0 0 0 0 0) o) = o := by
  rcases hl : h.long with _ | _ <;>
    simp_all [laid_iff, chkToff, putToff, getToff, Raw.imm, Raw.immS, Raw.immU, Raw.immSB, Raw.putA, Raw.putB, Raw.putC, Raw.putVB, Raw.srcA, Raw.srcB, Raw.srcC, Raw.vb, Raw.vbU,
      Raw.sb, Raw.sbU, Raw.rm, Raw.half, Raw.sat, Raw.u, Raw.width, Raw.fnLo, Raw.fnHi, Raw.ord, Raw.sp, Raw.z, Raw.scope, Raw.sel,
      putRoff, getRoff, putAtom, Raw.atom, Raw.putAddr, Raw.addr, Raw.putBar, Raw.bar, Raw.barD, Bar.fld, Bar.isCluster, Raw.rnd,
      SB.below, VB.below, Addr.isVec, Width.bits, Raw.word1, SB.fit, VB.fit, SB.isImm, VB.isImm, VSrc.plain, -BitVec.getLsbD_eq_getElem]

theorem laid_Br (h : Hdr) (op : W8) (o : Br) (hw : h.long = true) :
    Laid h op (putBr (Raw.mk h op 0 0 0 0 0 0 0 0 0 0 0) o) ∧ getBr (putBr (Raw.mk h op 0 0 0 0 0 0 0 0 0 0 0) o) = o := by
  obtain ⟨toffx, roffx⟩ := o
  rcases hl : h.long with _ | _ <;>
    simp_all [laid_iff, chkBr, putBr, getBr, Raw.imm, Raw.immS, Raw.immU, Raw.immSB, Raw.putA, Raw.putB, Raw.putC, Raw.putVB, Raw.srcA, Raw.srcB, Raw.srcC, Raw.vb, Raw.vbU,
      Raw.sb, Raw.sbU, Raw.rm, Raw.half, Raw.sat, Raw.u, Raw.width, Raw.fnLo, Raw.fnHi, Raw.ord, Raw.sp, Raw.z, Raw.scope, Raw.sel,
      putRoff, getRoff, putAtom, Raw.atom, Raw.putAddr, Raw.addr, Raw.putBar, Raw.bar, Raw.barD, Bar.fld, Bar.isCluster, Raw.rnd,
      SB.below, VB.below, Addr.isVec, Width.bits, Raw.word1, SB.fit, VB.fit, SB.isImm, VB.isImm, VSrc.plain, -BitVec.getLsbD_eq_getElem]

theorem laid_Brx (h : Hdr) (op : W8) (o : Brx) (hw : h.long = true) :
    Laid h op (putBrx (Raw.mk h op 0 0 0 0 0 0 0 0 0 0 0) o) ∧ getBrx (putBrx (Raw.mk h op 0 0 0 0 0 0 0 0 0 0 0) o) = o := by
  obtain ⟨ax, roffx⟩ := o
  rcases hl : h.long with _ | _ <;>
    simp_all [laid_iff, chkBrx, putBrx, getBrx, Raw.imm, Raw.immS, Raw.immU, Raw.immSB, Raw.putA, Raw.putB, Raw.putC, Raw.putVB, Raw.srcA, Raw.srcB, Raw.srcC, Raw.vb, Raw.vbU,
      Raw.sb, Raw.sbU, Raw.rm, Raw.half, Raw.sat, Raw.u, Raw.width, Raw.fnLo, Raw.fnHi, Raw.ord, Raw.sp, Raw.z, Raw.scope, Raw.sel,
      putRoff, getRoff, putAtom, Raw.atom, Raw.putAddr, Raw.addr, Raw.putBar, Raw.bar, Raw.barD, Bar.fld, Bar.isCluster, Raw.rnd,
      SB.below, VB.below, Addr.isVec, Width.bits, Raw.word1, SB.fit, VB.fit, SB.isImm, VB.isImm, VSrc.plain, -BitVec.getLsbD_eq_getElem]

theorem laid_SA (h : Hdr) (op : W8) (o : SReg) (_ : ((chkSA h o).fn && (chkSA h o).fld && (chkSA h o).short) = true) :
    Laid h op (putSA (Raw.mk h op 0 0 0 0 0 0 0 0 0 0 0) o) ∧ getSA (putSA (Raw.mk h op 0 0 0 0 0 0 0 0 0 0 0) o) = o := by
  rcases hl : h.long with _ | _ <;>
    simp_all [laid_iff, chkSA, putSA, getSA, Raw.imm, Raw.immS, Raw.immU, Raw.immSB, Raw.putA, Raw.putB, Raw.putC, Raw.putVB, Raw.srcA, Raw.srcB, Raw.srcC, Raw.vb, Raw.vbU,
      Raw.sb, Raw.sbU, Raw.rm, Raw.half, Raw.sat, Raw.u, Raw.width, Raw.fnLo, Raw.fnHi, Raw.ord, Raw.sp, Raw.z, Raw.scope, Raw.sel,
      putRoff, getRoff, putAtom, Raw.atom, Raw.putAddr, Raw.addr, Raw.putBar, Raw.bar, Raw.barD, Bar.fld, Bar.isCluster, Raw.rnd,
      SB.below, VB.below, Addr.isVec, Width.bits, Raw.word1, SB.fit, VB.fit, SB.isImm, VB.isImm, VSrc.plain, -BitVec.getLsbD_eq_getElem]

theorem laid_VA (h : Hdr) (op : W8) (o : VReg) (hw : ((chkVA h o).fn && (chkVA h o).fld && (chkVA h o).short) = true) :
    Laid h op (putVA (Raw.mk h op 0 0 0 0 0 0 0 0 0 0 0) o) ∧ getVA (putVA (Raw.mk h op 0 0 0 0 0 0 0 0 0 0 0) o) = o := by
  rcases hl : h.long with _ | _ <;>
    simp_all [laid_iff, chkVA, putVA, getVA, Raw.imm, Raw.immS, Raw.immU, Raw.immSB, Raw.putA, Raw.putB, Raw.putC, Raw.putVB, Raw.srcA, Raw.srcB, Raw.srcC, Raw.vb, Raw.vbU,
      Raw.sb, Raw.sbU, Raw.rm, Raw.half, Raw.sat, Raw.u, Raw.width, Raw.fnLo, Raw.fnHi, Raw.ord, Raw.sp, Raw.z, Raw.scope, Raw.sel,
      putRoff, getRoff, putAtom, Raw.atom, Raw.putAddr, Raw.addr, Raw.putBar, Raw.bar, Raw.barD, Bar.fld, Bar.isCluster, Raw.rnd,
      SB.below, VB.below, Addr.isVec, Width.bits, Raw.word1, SB.fit, VB.fit, SB.isImm, VB.isImm, VSrc.plain, -BitVec.getLsbD_eq_getElem]

theorem laid_SLoop (h : Hdr) (op : W8) (o : SLoop) (hw : h.long = true) :
    Laid h op (putSLoop (Raw.mk h op 0 0 0 0 0 0 0 0 0 0 0) o) ∧ getSLoop (putSLoop (Raw.mk h op 0 0 0 0 0 0 0 0 0 0 0) o) = o := by
  obtain ⟨dx, toffx⟩ := o
  rcases hl : h.long with _ | _ <;>
    simp_all [laid_iff, chkSLoop, putSLoop, getSLoop, Raw.imm, Raw.immS, Raw.immU, Raw.immSB, Raw.putA, Raw.putB, Raw.putC, Raw.putVB, Raw.srcA, Raw.srcB, Raw.srcC, Raw.vb, Raw.vbU,
      Raw.sb, Raw.sbU, Raw.rm, Raw.half, Raw.sat, Raw.u, Raw.width, Raw.fnLo, Raw.fnHi, Raw.ord, Raw.sp, Raw.z, Raw.scope, Raw.sel,
      putRoff, getRoff, putAtom, Raw.atom, Raw.putAddr, Raw.addr, Raw.putBar, Raw.bar, Raw.barD, Bar.fld, Bar.isCluster, Raw.rnd,
      SB.below, VB.below, Addr.isVec, Width.bits, Raw.word1, SB.fit, VB.fit, SB.isImm, VB.isImm, VSrc.plain, -BitVec.getLsbD_eq_getElem]

theorem laid_SLd (h : Hdr) (op : W8) (o : SLd) (hw : ((chkSLd h o).fn && (chkSLd h o).fld && (chkSLd h o).short) = true) :
    Laid h op (putSLd (Raw.mk h op 0 0 0 0 0 0 0 0 0 0 0) o) ∧ getSLd (putSLd (Raw.mk h op 0 0 0 0 0 0 0 0 0 0 0) o) = o := by
  obtain ⟨zx, spx, ordx, scopex, sxx, dx, ax, offx⟩ := o
  rcases hl : h.long with _ | _ <;>
    simp_all [laid_iff, chkSLd, putSLd, getSLd, Raw.imm, Raw.immS, Raw.immU, Raw.immSB, Raw.putA, Raw.putB, Raw.putC, Raw.putVB, Raw.srcA, Raw.srcB, Raw.srcC, Raw.vb, Raw.vbU,
      Raw.sb, Raw.sbU, Raw.rm, Raw.half, Raw.sat, Raw.u, Raw.width, Raw.fnLo, Raw.fnHi, Raw.ord, Raw.sp, Raw.z, Raw.scope, Raw.sel,
      putRoff, getRoff, putAtom, Raw.atom, Raw.putAddr, Raw.addr, Raw.putBar, Raw.bar, Raw.barD, Bar.fld, Bar.isCluster, Raw.rnd,
      SB.below, VB.below, Addr.isVec, Width.bits, Raw.word1, SB.fit, VB.fit, SB.isImm, VB.isImm, VSrc.plain, -BitVec.getLsbD_eq_getElem]

theorem laid_SSt (h : Hdr) (op : W8) (o : SSt) (hw : ((chkSSt h o).fn && (chkSSt h o).fld && (chkSSt h o).short) = true) :
    Laid h op (putSSt (Raw.mk h op 0 0 0 0 0 0 0 0 0 0 0) o) ∧ getSSt (putSSt (Raw.mk h op 0 0 0 0 0 0 0 0 0 0 0) o) = o := by
  obtain ⟨zx, spx, ordx, scopex, dx, ax, offx⟩ := o
  rcases hl : h.long with _ | _ <;>
    simp_all [laid_iff, chkSSt, putSSt, getSSt, Raw.imm, Raw.immS, Raw.immU, Raw.immSB, Raw.putA, Raw.putB, Raw.putC, Raw.putVB, Raw.srcA, Raw.srcB, Raw.srcC, Raw.vb, Raw.vbU,
      Raw.sb, Raw.sbU, Raw.rm, Raw.half, Raw.sat, Raw.u, Raw.width, Raw.fnLo, Raw.fnHi, Raw.ord, Raw.sp, Raw.z, Raw.scope, Raw.sel,
      putRoff, getRoff, putAtom, Raw.atom, Raw.putAddr, Raw.addr, Raw.putBar, Raw.bar, Raw.barD, Bar.fld, Bar.isCluster, Raw.rnd,
      SB.below, VB.below, Addr.isVec, Width.bits, Raw.word1, SB.fit, VB.fit, SB.isImm, VB.isImm, VSrc.plain, -BitVec.getLsbD_eq_getElem]

theorem laid_SAtom (h : Hdr) (op : W8) (o : SAtom) (hw : ((chkSAtom h o).fn && (chkSAtom h o).fld && (chkSAtom h o).short) = true) :
    Laid h op (putSAtom (Raw.mk h op 0 0 0 0 0 0 0 0 0 0 0) o) ∧ getSAtom (putSAtom (Raw.mk h op 0 0 0 0 0 0 0 0 0 0 0) o) = o := by
  obtain ⟨opx, zx, spx, ordx, scopex, dx, ax, offx, bx⟩ := o
  rcases hl : h.long with _ | _ <;> cases opx <;>
    simp_all [laid_iff, chkSAtom, putSAtom, getSAtom, Raw.imm, Raw.immS, Raw.immU, Raw.immSB, Raw.putA, Raw.putB, Raw.putC, Raw.putVB, Raw.srcA, Raw.srcB, Raw.srcC, Raw.vb, Raw.vbU,
      Raw.sb, Raw.sbU, Raw.rm, Raw.half, Raw.sat, Raw.u, Raw.width, Raw.fnLo, Raw.fnHi, Raw.ord, Raw.sp, Raw.z, Raw.scope, Raw.sel,
      putRoff, getRoff, putAtom, Raw.atom, Raw.putAddr, Raw.addr, Raw.putBar, Raw.bar, Raw.barD, Bar.fld, Bar.isCluster, Raw.rnd,
      SB.below, VB.below, Addr.isVec, Width.bits, Raw.word1, SB.fit, VB.fit, SB.isImm, VB.isImm, VSrc.plain, -BitVec.getLsbD_eq_getElem]

theorem laid_SCas (h : Hdr) (op : W8) (o : SCas) (hw : h.long = true) :
    Laid h op (putSCas (Raw.mk h op 0 0 0 0 0 0 0 0 0 0 0) o) ∧ getSCas (putSCas (Raw.mk h op 0 0 0 0 0 0 0 0 0 0 0) o) = o := by
  obtain ⟨zx, spx, ordx, scopex, dx, ax, offx, bx, cx⟩ := o
  rcases hl : h.long with _ | _ <;>
    simp_all [laid_iff, chkSCas, putSCas, getSCas, Raw.imm, Raw.immS, Raw.immU, Raw.immSB, Raw.putA, Raw.putB, Raw.putC, Raw.putVB, Raw.srcA, Raw.srcB, Raw.srcC, Raw.vb, Raw.vbU,
      Raw.sb, Raw.sbU, Raw.rm, Raw.half, Raw.sat, Raw.u, Raw.width, Raw.fnLo, Raw.fnHi, Raw.ord, Raw.sp, Raw.z, Raw.scope, Raw.sel,
      putRoff, getRoff, putAtom, Raw.atom, Raw.putAddr, Raw.addr, Raw.putBar, Raw.bar, Raw.barD, Bar.fld, Bar.isCluster, Raw.rnd,
      SB.below, VB.below, Addr.isVec, Width.bits, Raw.word1, SB.fit, VB.fit, SB.isImm, VB.isImm, VSrc.plain, -BitVec.getLsbD_eq_getElem]

theorem laid_VArith (h : Hdr) (op : W8) (o : VArith) (hw : ((chkVArith h o).fn && (chkVArith h o).fld && (chkVArith h o).short) = true) :
    Laid h op (putVArith (Raw.mk h op 0 0 0 0 0 0 0 0 0 0 0) o) ∧ getVArith (putVArith (Raw.mk h op 0 0 0 0 0 0 0 0 0 0 0) o) = o := by
  obtain ⟨wx, ux, satx, halfx, dx, ⟨ar, ap⟩, bx⟩ := o
  rcases hl : h.long with _ | _ <;> rcases bx with ⟨bxr, bxp⟩ | bxv <;>
    simp_all [laid_iff, chkVArith, putVArith, getVArith, Raw.imm, Raw.immS, Raw.immU, Raw.immSB, Raw.putA, Raw.putB, Raw.putC, Raw.putVB, Raw.srcA, Raw.srcB, Raw.srcC, Raw.vb, Raw.vbU,
      Raw.sb, Raw.sbU, Raw.rm, Raw.half, Raw.sat, Raw.u, Raw.width, Raw.fnLo, Raw.fnHi, Raw.ord, Raw.sp, Raw.z, Raw.scope, Raw.sel,
      putRoff, getRoff, putAtom, Raw.atom, Raw.putAddr, Raw.addr, Raw.putBar, Raw.bar, Raw.barD, Bar.fld, Bar.isCluster, Raw.rnd,
      SB.below, VB.below, Addr.isVec, Width.bits, Raw.word1, SB.fit, VB.fit, SB.isImm, VB.isImm, VSrc.plain, -BitVec.getLsbD_eq_getElem]

theorem laid_VUns (h : Hdr) (op : W8) (o : VUns) (hw : ((chkVUns h o).fn && (chkVUns h o).fld && (chkVUns h o).short) = true) :
    Laid h op (putVUns (Raw.mk h op 0 0 0 0 0 0 0 0 0 0 0) o) ∧ getVUns (putVUns (Raw.mk h op 0 0 0 0 0 0 0 0 0 0 0) o) = o := by
  obtain ⟨wx, ux, halfx, dx, ⟨ar, ap⟩, bx⟩ := o
  rcases hl : h.long with _ | _ <;> rcases bx with ⟨bxr, bxp⟩ | bxv <;>
    simp_all [laid_iff, chkVUns, putVUns, getVUns, Raw.imm, Raw.immS, Raw.immU, Raw.immSB, Raw.putA, Raw.putB, Raw.putC, Raw.putVB, Raw.srcA, Raw.srcB, Raw.srcC, Raw.vb, Raw.vbU,
      Raw.sb, Raw.sbU, Raw.rm, Raw.half, Raw.sat, Raw.u, Raw.width, Raw.fnLo, Raw.fnHi, Raw.ord, Raw.sp, Raw.z, Raw.scope, Raw.sel,
      putRoff, getRoff, putAtom, Raw.atom, Raw.putAddr, Raw.addr, Raw.putBar, Raw.bar, Raw.barD, Bar.fld, Bar.isCluster, Raw.rnd,
      SB.below, VB.below, Addr.isVec, Width.bits, Raw.word1, SB.fit, VB.fit, SB.isImm, VB.isImm, VSrc.plain, -BitVec.getLsbD_eq_getElem]

theorem laid_VMad (h : Hdr) (op : W8) (o : VMad) (hw : h.long = true) :
    Laid h op (putVMad (Raw.mk h op 0 0 0 0 0 0 0 0 0 0 0) o) ∧ getVMad (putVMad (Raw.mk h op 0 0 0 0 0 0 0 0 0 0 0) o) = o := by
  obtain ⟨wx, ux, satx, halfx, dx, ⟨ar, ap⟩, ⟨br, bp⟩, ⟨cr, cp⟩⟩ := o
  rcases hl : h.long with _ | _ <;>
    simp_all [laid_iff, chkVMad, putVMad, getVMad, Raw.imm, Raw.immS, Raw.immU, Raw.immSB, Raw.putA, Raw.putB, Raw.putC, Raw.putVB, Raw.srcA, Raw.srcB, Raw.srcC, Raw.vb, Raw.vbU,
      Raw.sb, Raw.sbU, Raw.rm, Raw.half, Raw.sat, Raw.u, Raw.width, Raw.fnLo, Raw.fnHi, Raw.ord, Raw.sp, Raw.z, Raw.scope, Raw.sel,
      putRoff, getRoff, putAtom, Raw.atom, Raw.putAddr, Raw.addr, Raw.putBar, Raw.bar, Raw.barD, Bar.fld, Bar.isCluster, Raw.rnd,
      SB.below, VB.below, Addr.isVec, Width.bits, Raw.word1, SB.fit, VB.fit, SB.isImm, VB.isImm, VSrc.plain, -BitVec.getLsbD_eq_getElem]

theorem laid_VWide (h : Hdr) (op : W8) (o : VWide) (hw : (h.long || (o.a.plain && o.b.fit)) = true) :
    Laid h op (putVWide (Raw.mk h op 0 0 0 0 0 0 0 0 0 0 0) o) ∧ getVWide (putVWide (Raw.mk h op 0 0 0 0 0 0 0 0 0 0 0) o) = o := by
  obtain ⟨ux, dx, ⟨ar, ap⟩, bx⟩ := o
  rcases hl : h.long with _ | _ <;> rcases bx with ⟨bxr, bxp⟩ | bxv <;>
    simp_all [laid_iff, chkVAddw, putVWide, getVWide, Raw.imm, Raw.immS, Raw.immU, Raw.immSB, Raw.putA, Raw.putB, Raw.putC, Raw.putVB, Raw.srcA, Raw.srcB, Raw.srcC, Raw.vb, Raw.vbU,
      Raw.sb, Raw.sbU, Raw.rm, Raw.half, Raw.sat, Raw.u, Raw.width, Raw.fnLo, Raw.fnHi, Raw.ord, Raw.sp, Raw.z, Raw.scope, Raw.sel,
      putRoff, getRoff, putAtom, Raw.atom, Raw.putAddr, Raw.addr, Raw.putBar, Raw.bar, Raw.barD, Bar.fld, Bar.isCluster, Raw.rnd,
      SB.below, VB.below, Addr.isVec, Width.bits, Raw.word1, SB.fit, VB.fit, SB.isImm, VB.isImm, VSrc.plain, -BitVec.getLsbD_eq_getElem]

theorem laid_VLogic (h : Hdr) (op : W8) (o : VLogic) (hw : ((chkVLogic h o).fn && (chkVLogic h o).fld && (chkVLogic h o).short) = true) :
    Laid h op (putVLogic (Raw.mk h op 0 0 0 0 0 0 0 0 0 0 0) o) ∧ getVLogic (putVLogic (Raw.mk h op 0 0 0 0 0 0 0 0 0 0 0) o) = o := by
  obtain ⟨dx, ⟨ar, ap⟩, bx⟩ := o
  rcases hl : h.long with _ | _ <;> rcases bx with ⟨bxr, bxp⟩ | bxv <;>
    simp_all [laid_iff, chkVLogic, putVLogic, getVLogic, Raw.imm, Raw.immS, Raw.immU, Raw.immSB, Raw.putA, Raw.putB, Raw.putC, Raw.putVB, Raw.srcA, Raw.srcB, Raw.srcC, Raw.vb, Raw.vbU,
      Raw.sb, Raw.sbU, Raw.rm, Raw.half, Raw.sat, Raw.u, Raw.width, Raw.fnLo, Raw.fnHi, Raw.ord, Raw.sp, Raw.z, Raw.scope, Raw.sel,
      putRoff, getRoff, putAtom, Raw.atom, Raw.putAddr, Raw.addr, Raw.putBar, Raw.bar, Raw.barD, Bar.fld, Bar.isCluster, Raw.rnd,
      SB.below, VB.below, Addr.isVec, Width.bits, Raw.word1, SB.fit, VB.fit, SB.isImm, VB.isImm, VSrc.plain, -BitVec.getLsbD_eq_getElem]

theorem laid_VShift (h : Hdr) (op : W8) (o : VElem) (hw : ((chkVShift h o).fn && (chkVShift h o).fld && (chkVShift h o).short) = true) :
    Laid h op (putVShift (Raw.mk h op 0 0 0 0 0 0 0 0 0 0 0) o) ∧ getVShift (putVShift (Raw.mk h op 0 0 0 0 0 0 0 0 0 0 0) o) = o := by
  obtain ⟨wx, halfx, dx, ⟨ar, ap⟩, bx⟩ := o
  rcases hl : h.long with _ | _ <;> cases wx <;> rcases bx with ⟨bxr, bxp⟩ | bxv <;>
    simp_all [laid_iff, chkVShift, putVShift, getVShift, Raw.imm, Raw.immS, Raw.immU, Raw.immSB, Raw.putA, Raw.putB, Raw.putC, Raw.putVB, Raw.srcA, Raw.srcB, Raw.srcC, Raw.vb, Raw.vbU,
      Raw.sb, Raw.sbU, Raw.rm, Raw.half, Raw.sat, Raw.u, Raw.width, Raw.fnLo, Raw.fnHi, Raw.ord, Raw.sp, Raw.z, Raw.scope, Raw.sel,
      putRoff, getRoff, putAtom, Raw.atom, Raw.putAddr, Raw.addr, Raw.putBar, Raw.bar, Raw.barD, Bar.fld, Bar.isCluster, Raw.rnd,
      SB.below, VB.below, Addr.isVec, Width.bits, Raw.word1, SB.fit, VB.fit, SB.isImm, VB.isImm, VSrc.plain, -BitVec.getLsbD_eq_getElem]
  all_goals
    obtain ⟨⟨_, hb⟩, _⟩ := hw
    have hb := of_decide_eq_true hb
    exact in12 (by omega)

theorem laid_VAbs (h : Hdr) (op : W8) (o : VAbs) (hw : ((chkVAbs h o).fn && (chkVAbs h o).fld && (chkVAbs h o).short) = true) :
    Laid h op (putVAbs (Raw.mk h op 0 0 0 0 0 0 0 0 0 0 0) o) ∧ getVAbs (putVAbs (Raw.mk h op 0 0 0 0 0 0 0 0 0 0 0) o) = o := by
  obtain ⟨wx, satx, halfx, dx, ⟨ar, ap⟩⟩ := o
  rcases hl : h.long with _ | _ <;>
    simp_all [laid_iff, chkVAbs, putVAbs, getVAbs, Raw.imm, Raw.immS, Raw.immU, Raw.immSB, Raw.putA, Raw.putB, Raw.putC, Raw.putVB, Raw.srcA, Raw.srcB, Raw.srcC, Raw.vb, Raw.vbU,
      Raw.sb, Raw.sbU, Raw.rm, Raw.half, Raw.sat, Raw.u, Raw.width, Raw.fnLo, Raw.fnHi, Raw.ord, Raw.sp, Raw.z, Raw.scope, Raw.sel,
      putRoff, getRoff, putAtom, Raw.atom, Raw.putAddr, Raw.addr, Raw.putBar, Raw.bar, Raw.barD, Bar.fld, Bar.isCluster, Raw.rnd,
      SB.below, VB.below, Addr.isVec, Width.bits, Raw.word1, SB.fit, VB.fit, SB.isImm, VB.isImm, VSrc.plain, -BitVec.getLsbD_eq_getElem]

theorem laid_VCount (h : Hdr) (op : W8) (o : VCount) (hw : ((chkVCount h o).fn && (chkVCount h o).fld && (chkVCount h o).short) = true) :
    Laid h op (putVCount (Raw.mk h op 0 0 0 0 0 0 0 0 0 0 0) o) ∧ getVCount (putVCount (Raw.mk h op 0 0 0 0 0 0 0 0 0 0 0) o) = o := by
  obtain ⟨wx, halfx, dx, ⟨ar, ap⟩⟩ := o
  rcases hl : h.long with _ | _ <;>
    simp_all [laid_iff, chkVCount, putVCount, getVCount, Raw.imm, Raw.immS, Raw.immU, Raw.immSB, Raw.putA, Raw.putB, Raw.putC, Raw.putVB, Raw.srcA, Raw.srcB, Raw.srcC, Raw.vb, Raw.vbU,
      Raw.sb, Raw.sbU, Raw.rm, Raw.half, Raw.sat, Raw.u, Raw.width, Raw.fnLo, Raw.fnHi, Raw.ord, Raw.sp, Raw.z, Raw.scope, Raw.sel,
      putRoff, getRoff, putAtom, Raw.atom, Raw.putAddr, Raw.addr, Raw.putBar, Raw.bar, Raw.barD, Bar.fld, Bar.isCluster, Raw.rnd,
      SB.below, VB.below, Addr.isVec, Width.bits, Raw.word1, SB.fit, VB.fit, SB.isImm, VB.isImm, VSrc.plain, -BitVec.getLsbD_eq_getElem]

theorem laid_VBfx (h : Hdr) (op : W8) (o : VBfx) (hw : ((chkVBfx h o).fn && (chkVBfx h o).fld && (chkVBfx h o).short) = true) :
    Laid h op (putVBfx (Raw.mk h op 0 0 0 0 0 0 0 0 0 0 0) o) ∧ getVBfx (putVBfx (Raw.mk h op 0 0 0 0 0 0 0 0 0 0 0) o) = o := by
  obtain ⟨ux, dx, ⟨ar, ap⟩, posx, wm1x⟩ := o
  rcases hl : h.long with _ | _ <;>
    simp_all [laid_iff, chkVBfx, putVBfx, getVBfx, Raw.imm, Raw.immS, Raw.immU, Raw.immSB, Raw.putA, Raw.putB, Raw.putC, Raw.putVB, Raw.srcA, Raw.srcB, Raw.srcC, Raw.vb, Raw.vbU,
      Raw.sb, Raw.sbU, Raw.rm, Raw.half, Raw.sat, Raw.u, Raw.width, Raw.fnLo, Raw.fnHi, Raw.ord, Raw.sp, Raw.z, Raw.scope, Raw.sel,
      putRoff, getRoff, putAtom, Raw.atom, Raw.putAddr, Raw.addr, Raw.putBar, Raw.bar, Raw.barD, Bar.fld, Bar.isCluster, Raw.rnd,
      SB.below, VB.below, Addr.isVec, Width.bits, Raw.word1, SB.fit, VB.fit, SB.isImm, VB.isImm, VSrc.plain, -BitVec.getLsbD_eq_getElem]

theorem laid_VBfi (h : Hdr) (op : W8) (o : VBfi) (hw : ((chkVBfi h o).fn && (chkVBfi h o).fld && (chkVBfi h o).short) = true) :
    Laid h op (putVBfi (Raw.mk h op 0 0 0 0 0 0 0 0 0 0 0) o) ∧ getVBfi (putVBfi (Raw.mk h op 0 0 0 0 0 0 0 0 0 0 0) o) = o := by
  obtain ⟨dx, ⟨ar, ap⟩, posx, wm1x⟩ := o
  rcases hl : h.long with _ | _ <;>
    simp_all [laid_iff, chkVBfi, putVBfi, getVBfi, Raw.imm, Raw.immS, Raw.immU, Raw.immSB, Raw.putA, Raw.putB, Raw.putC, Raw.putVB, Raw.srcA, Raw.srcB, Raw.srcC, Raw.vb, Raw.vbU,
      Raw.sb, Raw.sbU, Raw.rm, Raw.half, Raw.sat, Raw.u, Raw.width, Raw.fnLo, Raw.fnHi, Raw.ord, Raw.sp, Raw.z, Raw.scope, Raw.sel,
      putRoff, getRoff, putAtom, Raw.atom, Raw.putAddr, Raw.addr, Raw.putBar, Raw.bar, Raw.barD, Bar.fld, Bar.isCluster, Raw.rnd,
      SB.below, VB.below, Addr.isVec, Width.bits, Raw.word1, SB.fit, VB.fit, SB.isImm, VB.isImm, VSrc.plain, -BitVec.getLsbD_eq_getElem]

theorem laid_VElem (h : Hdr) (op : W8) (o : VElem) (hw : ((chkVElem h o).fn && (chkVElem h o).fld && (chkVElem h o).short) = true) :
    Laid h op (putVElem (Raw.mk h op 0 0 0 0 0 0 0 0 0 0 0) o) ∧ getVElem (putVElem (Raw.mk h op 0 0 0 0 0 0 0 0 0 0 0) o) = o := by
  obtain ⟨wx, halfx, dx, ⟨ar, ap⟩, bx⟩ := o
  rcases hl : h.long with _ | _ <;> rcases bx with ⟨bxr, bxp⟩ | bxv <;>
    simp_all [laid_iff, chkVElem, putVElem, getVElem, Raw.imm, Raw.immS, Raw.immU, Raw.immSB, Raw.putA, Raw.putB, Raw.putC, Raw.putVB, Raw.srcA, Raw.srcB, Raw.srcC, Raw.vb, Raw.vbU,
      Raw.sb, Raw.sbU, Raw.rm, Raw.half, Raw.sat, Raw.u, Raw.width, Raw.fnLo, Raw.fnHi, Raw.ord, Raw.sp, Raw.z, Raw.scope, Raw.sel,
      putRoff, getRoff, putAtom, Raw.atom, Raw.putAddr, Raw.addr, Raw.putBar, Raw.bar, Raw.barD, Bar.fld, Bar.isCluster, Raw.rnd,
      SB.below, VB.below, Addr.isVec, Width.bits, Raw.word1, SB.fit, VB.fit, SB.isImm, VB.isImm, VSrc.plain, -BitVec.getLsbD_eq_getElem]

theorem laid_VCmp (h : Hdr) (op : W8) (o : VCmp) (hw : ((chkVCmp h o).fn && (chkVCmp h o).fld && (chkVCmp h o).short) = true) :
    Laid h op (putVCmp (Raw.mk h op 0 0 0 0 0 0 0 0 0 0 0) o) ∧ getVCmp (putVCmp (Raw.mk h op 0 0 0 0 0 0 0 0 0 0 0) o) = o := by
  obtain ⟨ccx, dx, ⟨ar, ap⟩, bx⟩ := o
  rcases hl : h.long with _ | _ <;> rcases bx with ⟨bxr, bxp⟩ | bxv <;>
    simp_all [laid_iff, chkVCmp, putVCmp, getVCmp, Raw.imm, Raw.immS, Raw.immU, Raw.immSB, Raw.putA, Raw.putB, Raw.putC, Raw.putVB, Raw.srcA, Raw.srcB, Raw.srcC, Raw.vb, Raw.vbU,
      Raw.sb, Raw.sbU, Raw.rm, Raw.half, Raw.sat, Raw.u, Raw.width, Raw.fnLo, Raw.fnHi, Raw.ord, Raw.sp, Raw.z, Raw.scope, Raw.sel,
      putRoff, getRoff, putAtom, Raw.atom, Raw.putAddr, Raw.addr, Raw.putBar, Raw.bar, Raw.barD, Bar.fld, Bar.isCluster, Raw.rnd,
      SB.below, VB.below, Addr.isVec, Width.bits, Raw.word1, SB.fit, VB.fit, SB.isImm, VB.isImm, VSrc.plain, -BitVec.getLsbD_eq_getElem]

theorem laid_VMov (h : Hdr) (op : W8) (o : VMov) (hw : ((chkVMov h o).fn && (chkVMov h o).fld && (chkVMov h o).short) = true) :
    Laid h op (putVMov (Raw.mk h op 0 0 0 0 0 0 0 0 0 0 0) o) ∧ getVMov (putVMov (Raw.mk h op 0 0 0 0 0 0 0 0 0 0 0) o) = o := by
  obtain ⟨dx, ax⟩ := o
  rcases hl : h.long with _ | _ <;> rcases ax with ⟨axr, axp⟩ | axv <;>
    simp_all [laid_iff, chkVMov, putVMov, getVMov, Raw.imm, Raw.immS, Raw.immU, Raw.immSB, Raw.putA, Raw.putB, Raw.putC, Raw.putVB, Raw.srcA, Raw.srcB, Raw.srcC, Raw.vb, Raw.vbU,
      Raw.sb, Raw.sbU, Raw.rm, Raw.half, Raw.sat, Raw.u, Raw.width, Raw.fnLo, Raw.fnHi, Raw.ord, Raw.sp, Raw.z, Raw.scope, Raw.sel,
      putRoff, getRoff, putAtom, Raw.atom, Raw.putAddr, Raw.addr, Raw.putBar, Raw.bar, Raw.barD, Bar.fld, Bar.isCluster, Raw.rnd,
      SB.below, VB.below, Addr.isVec, Width.bits, Raw.word1, SB.fit, VB.fit, SB.isImm, VB.isImm, VSrc.plain, -BitVec.getLsbD_eq_getElem]

theorem laid_VLi (h : Hdr) (op : W8) (o : VLi) (hw : h.long = true) :
    Laid h op (putVLi (Raw.mk h op 0 0 0 0 0 0 0 0 0 0 0) o) ∧ getVLi (putVLi (Raw.mk h op 0 0 0 0 0 0 0 0 0 0 0) o) = o := by
  obtain ⟨halfx, dx, immx⟩ := o
  rcases hl : h.long with _ | _ <;>
    simp_all [laid_iff, chkVLi, putVLi, getVLi, Raw.imm, Raw.immS, Raw.immU, Raw.immSB, Raw.putA, Raw.putB, Raw.putC, Raw.putVB, Raw.srcA, Raw.srcB, Raw.srcC, Raw.vb, Raw.vbU,
      Raw.sb, Raw.sbU, Raw.rm, Raw.half, Raw.sat, Raw.u, Raw.width, Raw.fnLo, Raw.fnHi, Raw.ord, Raw.sp, Raw.z, Raw.scope, Raw.sel,
      putRoff, getRoff, putAtom, Raw.atom, Raw.putAddr, Raw.addr, Raw.putBar, Raw.bar, Raw.barD, Bar.fld, Bar.isCluster, Raw.rnd,
      SB.below, VB.below, Addr.isVec, Width.bits, Raw.word1, SB.fit, VB.fit, SB.isImm, VB.isImm, VSrc.plain, -BitVec.getLsbD_eq_getElem]

theorem laid_VD (h : Hdr) (op : W8) (o : VReg) (_ : ((chkVD h o).fn && (chkVD h o).fld && (chkVD h o).short) = true) :
    Laid h op (putVD (Raw.mk h op 0 0 0 0 0 0 0 0 0 0 0) o) ∧ getVD (putVD (Raw.mk h op 0 0 0 0 0 0 0 0 0 0 0) o) = o := by
  rcases hl : h.long with _ | _ <;>
    simp_all [laid_iff, chkVD, putVD, getVD, Raw.imm, Raw.immS, Raw.immU, Raw.immSB, Raw.putA, Raw.putB, Raw.putC, Raw.putVB, Raw.srcA, Raw.srcB, Raw.srcC, Raw.vb, Raw.vbU,
      Raw.sb, Raw.sbU, Raw.rm, Raw.half, Raw.sat, Raw.u, Raw.width, Raw.fnLo, Raw.fnHi, Raw.ord, Raw.sp, Raw.z, Raw.scope, Raw.sel,
      putRoff, getRoff, putAtom, Raw.atom, Raw.putAddr, Raw.addr, Raw.putBar, Raw.bar, Raw.barD, Bar.fld, Bar.isCluster, Raw.rnd,
      SB.below, VB.below, Addr.isVec, Width.bits, Raw.word1, SB.fit, VB.fit, SB.isImm, VB.isImm, VSrc.plain, -BitVec.getLsbD_eq_getElem]

theorem laid_VBcast (h : Hdr) (op : W8) (o : VBcast) (_ : ((chkVBcast h o).fn && (chkVBcast h o).fld && (chkVBcast h o).short) = true) :
    Laid h op (putVBcast (Raw.mk h op 0 0 0 0 0 0 0 0 0 0 0) o) ∧ getVBcast (putVBcast (Raw.mk h op 0 0 0 0 0 0 0 0 0 0 0) o) = o := by
  obtain ⟨dx, ax⟩ := o
  rcases hl : h.long with _ | _ <;>
    simp_all [laid_iff, chkVBcast, putVBcast, getVBcast, Raw.imm, Raw.immS, Raw.immU, Raw.immSB, Raw.putA, Raw.putB, Raw.putC, Raw.putVB, Raw.srcA, Raw.srcB, Raw.srcC, Raw.vb, Raw.vbU,
      Raw.sb, Raw.sbU, Raw.rm, Raw.half, Raw.sat, Raw.u, Raw.width, Raw.fnLo, Raw.fnHi, Raw.ord, Raw.sp, Raw.z, Raw.scope, Raw.sel,
      putRoff, getRoff, putAtom, Raw.atom, Raw.putAddr, Raw.addr, Raw.putBar, Raw.bar, Raw.barD, Bar.fld, Bar.isCluster, Raw.rnd,
      SB.below, VB.below, Addr.isVec, Width.bits, Raw.word1, SB.fit, VB.fit, SB.isImm, VB.isImm, VSrc.plain, -BitVec.getLsbD_eq_getElem]

theorem laid_VToS (h : Hdr) (op : W8) (o : VToS) (hw : ((chkVToS h o).fn && (chkVToS h o).fld && (chkVToS h o).short) = true) :
    Laid h op (putVToS (Raw.mk h op 0 0 0 0 0 0 0 0 0 0 0) o) ∧ getVToS (putVToS (Raw.mk h op 0 0 0 0 0 0 0 0 0 0 0) o) = o := by
  obtain ⟨ux, dx, ⟨ar, ap⟩, nx⟩ := o
  rcases hl : h.long with _ | _ <;>
    simp_all [laid_iff, chkVToS, putVToS, getVToS, Raw.imm, Raw.immS, Raw.immU, Raw.immSB, Raw.putA, Raw.putB, Raw.putC, Raw.putVB, Raw.srcA, Raw.srcB, Raw.srcC, Raw.vb, Raw.vbU,
      Raw.sb, Raw.sbU, Raw.rm, Raw.half, Raw.sat, Raw.u, Raw.width, Raw.fnLo, Raw.fnHi, Raw.ord, Raw.sp, Raw.z, Raw.scope, Raw.sel,
      putRoff, getRoff, putAtom, Raw.atom, Raw.putAddr, Raw.addr, Raw.putBar, Raw.bar, Raw.barD, Bar.fld, Bar.isCluster, Raw.rnd,
      SB.below, VB.below, Addr.isVec, Width.bits, Raw.word1, SB.fit, VB.fit, SB.isImm, VB.isImm, VSrc.plain, -BitVec.getLsbD_eq_getElem]

theorem laid_VPerm (h : Hdr) (op : W8) (o : VPerm) (hw : ((chkVPerm h o).fn && (chkVPerm h o).fld && (chkVPerm h o).short) = true) :
    Laid h op (putVPerm (Raw.mk h op 0 0 0 0 0 0 0 0 0 0 0) o) ∧ getVPerm (putVPerm (Raw.mk h op 0 0 0 0 0 0 0 0 0 0 0) o) = o := by
  obtain ⟨dx, ax, ⟨br, bp⟩⟩ := o
  rcases hl : h.long with _ | _ <;> rcases ax with _ | ⟨ar, ap⟩ <;>
    simp_all [laid_iff, chkVPerm, putVPerm, getVPerm, Raw.imm, Raw.immS, Raw.immU, Raw.immSB, Raw.putA, Raw.putB, Raw.putC, Raw.putVB, Raw.srcA, Raw.srcB, Raw.srcC, Raw.vb, Raw.vbU,
      Raw.sb, Raw.sbU, Raw.rm, Raw.half, Raw.sat, Raw.u, Raw.width, Raw.fnLo, Raw.fnHi, Raw.ord, Raw.sp, Raw.z, Raw.scope, Raw.sel,
      putRoff, getRoff, putAtom, Raw.atom, Raw.putAddr, Raw.addr, Raw.putBar, Raw.bar, Raw.barD, Bar.fld, Bar.isCluster, Raw.rnd,
      SB.below, VB.below, Addr.isVec, Width.bits, Raw.word1, SB.fit, VB.fit, SB.isImm, VB.isImm, VSrc.plain, -BitVec.getLsbD_eq_getElem]

theorem laid_VRed (h : Hdr) (op : W8) (o : VRed) (hw : (h.long || o.a.plain) = true) :
    Laid h op (putVRed (Raw.mk h op 0 0 0 0 0 0 0 0 0 0 0) o) ∧ getVRed (putVRed (Raw.mk h op 0 0 0 0 0 0 0 0 0 0 0) o) = o := by
  obtain ⟨opx, ux, dx, ⟨ar, ap⟩⟩ := o
  rcases hl : h.long with _ | _ <;>
    simp_all [laid_iff, chkVRedOp, putVRed, getVRed, Raw.imm, Raw.immS, Raw.immU, Raw.immSB, Raw.putA, Raw.putB, Raw.putC, Raw.putVB, Raw.srcA, Raw.srcB, Raw.srcC, Raw.vb, Raw.vbU,
      Raw.sb, Raw.sbU, Raw.rm, Raw.half, Raw.sat, Raw.u, Raw.width, Raw.fnLo, Raw.fnHi, Raw.ord, Raw.sp, Raw.z, Raw.scope, Raw.sel,
      putRoff, getRoff, putAtom, Raw.atom, Raw.putAddr, Raw.addr, Raw.putBar, Raw.bar, Raw.barD, Bar.fld, Bar.isCluster, Raw.rnd,
      SB.below, VB.below, Addr.isVec, Width.bits, Raw.word1, SB.fit, VB.fit, SB.isImm, VB.isImm, VSrc.plain, -BitVec.getLsbD_eq_getElem]

theorem laid_VFp (h : Hdr) (op : W8) (o : VFp) (hw : ((chkVFp h o).fn && (chkVFp h o).fld && (chkVFp h o).short) = true) :
    Laid h op (putVFp (Raw.mk h op 0 0 0 0 0 0 0 0 0 0 0) o) ∧ getVFp (putVFp (Raw.mk h op 0 0 0 0 0 0 0 0 0 0 0) o) = o := by
  obtain ⟨rndx, dx, ⟨ar, ap⟩, ⟨br, bp⟩⟩ := o
  rcases hl : h.long with _ | _ <;> cases rndx <;>
    simp_all [laid_iff, chkVFp, putVFp, getVFp, Raw.imm, Raw.immS, Raw.immU, Raw.immSB, Raw.putA, Raw.putB, Raw.putC, Raw.putVB, Raw.srcA, Raw.srcB, Raw.srcC, Raw.vb, Raw.vbU,
      Raw.sb, Raw.sbU, Raw.rm, Raw.half, Raw.sat, Raw.u, Raw.width, Raw.fnLo, Raw.fnHi, Raw.ord, Raw.sp, Raw.z, Raw.scope, Raw.sel,
      putRoff, getRoff, putAtom, Raw.atom, Raw.putAddr, Raw.addr, Raw.putBar, Raw.bar, Raw.barD, Bar.fld, Bar.isCluster, Raw.rnd,
      SB.below, VB.below, Addr.isVec, Width.bits, Raw.word1, SB.fit, VB.fit, SB.isImm, VB.isImm, VSrc.plain, -BitVec.getLsbD_eq_getElem]

theorem laid_VFma (h : Hdr) (op : W8) (o : VFma) (hw : h.long = true) :
    Laid h op (putVFma (Raw.mk h op 0 0 0 0 0 0 0 0 0 0 0) o) ∧ getVFma (putVFma (Raw.mk h op 0 0 0 0 0 0 0 0 0 0 0) o) = o := by
  obtain ⟨rndx, dx, ⟨ar, ap⟩, ⟨br, bp⟩, ⟨cr, cp⟩⟩ := o
  rcases hl : h.long with _ | _ <;> cases rndx <;>
    simp_all [laid_iff, chkVFma, putVFma, getVFma, Raw.imm, Raw.immS, Raw.immU, Raw.immSB, Raw.putA, Raw.putB, Raw.putC, Raw.putVB, Raw.srcA, Raw.srcB, Raw.srcC, Raw.vb, Raw.vbU,
      Raw.sb, Raw.sbU, Raw.rm, Raw.half, Raw.sat, Raw.u, Raw.width, Raw.fnLo, Raw.fnHi, Raw.ord, Raw.sp, Raw.z, Raw.scope, Raw.sel,
      putRoff, getRoff, putAtom, Raw.atom, Raw.putAddr, Raw.addr, Raw.putBar, Raw.bar, Raw.barD, Bar.fld, Bar.isCluster, Raw.rnd,
      SB.below, VB.below, Addr.isVec, Width.bits, Raw.word1, SB.fit, VB.fit, SB.isImm, VB.isImm, VSrc.plain, -BitVec.getLsbD_eq_getElem]

theorem laid_VBin (h : Hdr) (op : W8) (o : VBin) (hw : ((chkVBin h o).fn && (chkVBin h o).fld && (chkVBin h o).short) = true) :
    Laid h op (putVBin (Raw.mk h op 0 0 0 0 0 0 0 0 0 0 0) o) ∧ getVBin (putVBin (Raw.mk h op 0 0 0 0 0 0 0 0 0 0 0) o) = o := by
  obtain ⟨dx, ⟨ar, ap⟩, ⟨br, bp⟩⟩ := o
  rcases hl : h.long with _ | _ <;>
    simp_all [laid_iff, chkVBin, putVBin, getVBin, Raw.imm, Raw.immS, Raw.immU, Raw.immSB, Raw.putA, Raw.putB, Raw.putC, Raw.putVB, Raw.srcA, Raw.srcB, Raw.srcC, Raw.vb, Raw.vbU,
      Raw.sb, Raw.sbU, Raw.rm, Raw.half, Raw.sat, Raw.u, Raw.width, Raw.fnLo, Raw.fnHi, Raw.ord, Raw.sp, Raw.z, Raw.scope, Raw.sel,
      putRoff, getRoff, putAtom, Raw.atom, Raw.putAddr, Raw.addr, Raw.putBar, Raw.bar, Raw.barD, Bar.fld, Bar.isCluster, Raw.rnd,
      SB.below, VB.below, Addr.isVec, Width.bits, Raw.word1, SB.fit, VB.fit, SB.isImm, VB.isImm, VSrc.plain, -BitVec.getLsbD_eq_getElem]

theorem laid_VFCmp (h : Hdr) (op : W8) (o : VFCmp) (hw : ((chkVFCmp h o).fn && (chkVFCmp h o).fld && (chkVFCmp h o).short) = true) :
    Laid h op (putVFCmp (Raw.mk h op 0 0 0 0 0 0 0 0 0 0 0) o) ∧ getVFCmp (putVFCmp (Raw.mk h op 0 0 0 0 0 0 0 0 0 0 0) o) = o := by
  obtain ⟨ccx, dx, ⟨ar, ap⟩, ⟨br, bp⟩⟩ := o
  rcases hl : h.long with _ | _ <;>
    simp_all [laid_iff, chkVFCmp, putVFCmp, getVFCmp, Raw.imm, Raw.immS, Raw.immU, Raw.immSB, Raw.putA, Raw.putB, Raw.putC, Raw.putVB, Raw.srcA, Raw.srcB, Raw.srcC, Raw.vb, Raw.vbU,
      Raw.sb, Raw.sbU, Raw.rm, Raw.half, Raw.sat, Raw.u, Raw.width, Raw.fnLo, Raw.fnHi, Raw.ord, Raw.sp, Raw.z, Raw.scope, Raw.sel,
      putRoff, getRoff, putAtom, Raw.atom, Raw.putAddr, Raw.addr, Raw.putBar, Raw.bar, Raw.barD, Bar.fld, Bar.isCluster, Raw.rnd,
      SB.below, VB.below, Addr.isVec, Width.bits, Raw.word1, SB.fit, VB.fit, SB.isImm, VB.isImm, VSrc.plain, -BitVec.getLsbD_eq_getElem]

theorem laid_VUn (h : Hdr) (op : W8) (o : VUn) (hw : ((chkVUn h o).fn && (chkVUn h o).fld && (chkVUn h o).short) = true) :
    Laid h op (putVUn (Raw.mk h op 0 0 0 0 0 0 0 0 0 0 0) o) ∧ getVUn (putVUn (Raw.mk h op 0 0 0 0 0 0 0 0 0 0 0) o) = o := by
  obtain ⟨dx, ⟨ar, ap⟩⟩ := o
  rcases hl : h.long with _ | _ <;>
    simp_all [laid_iff, chkVUn, putVUn, getVUn, Raw.imm, Raw.immS, Raw.immU, Raw.immSB, Raw.putA, Raw.putB, Raw.putC, Raw.putVB, Raw.srcA, Raw.srcB, Raw.srcC, Raw.vb, Raw.vbU,
      Raw.sb, Raw.sbU, Raw.rm, Raw.half, Raw.sat, Raw.u, Raw.width, Raw.fnLo, Raw.fnHi, Raw.ord, Raw.sp, Raw.z, Raw.scope, Raw.sel,
      putRoff, getRoff, putAtom, Raw.atom, Raw.putAddr, Raw.addr, Raw.putBar, Raw.bar, Raw.barD, Bar.fld, Bar.isCluster, Raw.rnd,
      SB.below, VB.below, Addr.isVec, Width.bits, Raw.word1, SB.fit, VB.fit, SB.isImm, VB.isImm, VSrc.plain, -BitVec.getLsbD_eq_getElem]

theorem laid_VFRnd (h : Hdr) (op : W8) (o : VFRnd) (hw : ((chkVFRnd h o).fn && (chkVFRnd h o).fld && (chkVFRnd h o).short) = true) :
    Laid h op (putVFRnd (Raw.mk h op 0 0 0 0 0 0 0 0 0 0 0) o) ∧ getVFRnd (putVFRnd (Raw.mk h op 0 0 0 0 0 0 0 0 0 0 0) o) = o := by
  obtain ⟨rmx, dx, ⟨ar, ap⟩⟩ := o
  rcases hl : h.long with _ | _ <;>
    simp_all [laid_iff, chkVFRnd, putVFRnd, getVFRnd, Raw.imm, Raw.immS, Raw.immU, Raw.immSB, Raw.putA, Raw.putB, Raw.putC, Raw.putVB, Raw.srcA, Raw.srcB, Raw.srcC, Raw.vb, Raw.vbU,
      Raw.sb, Raw.sbU, Raw.rm, Raw.half, Raw.sat, Raw.u, Raw.width, Raw.fnLo, Raw.fnHi, Raw.ord, Raw.sp, Raw.z, Raw.scope, Raw.sel,
      putRoff, getRoff, putAtom, Raw.atom, Raw.putAddr, Raw.addr, Raw.putBar, Raw.bar, Raw.barD, Bar.fld, Bar.isCluster, Raw.rnd,
      SB.below, VB.below, Addr.isVec, Width.bits, Raw.word1, SB.fit, VB.fit, SB.isImm, VB.isImm, VSrc.plain, -BitVec.getLsbD_eq_getElem]

theorem laid_VHalf (h : Hdr) (op : W8) (o : VHalf) (hw : ((chkVHalf h o).fn && (chkVHalf h o).fld && (chkVHalf h o).short) = true) :
    Laid h op (putVHalf (Raw.mk h op 0 0 0 0 0 0 0 0 0 0 0) o) ∧ getVHalf (putVHalf (Raw.mk h op 0 0 0 0 0 0 0 0 0 0 0) o) = o := by
  obtain ⟨tx, rndx, halfx, dx, ⟨ar, ap⟩, ⟨br, bp⟩⟩ := o
  rcases hl : h.long with _ | _ <;> cases rndx <;>
    simp_all [laid_iff, chkVHalf, putVHalf, getVHalf, Raw.imm, Raw.immS, Raw.immU, Raw.immSB, Raw.putA, Raw.putB, Raw.putC, Raw.putVB, Raw.srcA, Raw.srcB, Raw.srcC, Raw.vb, Raw.vbU,
      Raw.sb, Raw.sbU, Raw.rm, Raw.half, Raw.sat, Raw.u, Raw.width, Raw.fnLo, Raw.fnHi, Raw.ord, Raw.sp, Raw.z, Raw.scope, Raw.sel,
      putRoff, getRoff, putAtom, Raw.atom, Raw.putAddr, Raw.addr, Raw.putBar, Raw.bar, Raw.barD, Bar.fld, Bar.isCluster, Raw.rnd,
      SB.below, VB.below, Addr.isVec, Width.bits, Raw.word1, SB.fit, VB.fit, SB.isImm, VB.isImm, VSrc.plain, -BitVec.getLsbD_eq_getElem]

theorem laid_VHFma (h : Hdr) (op : W8) (o : VHFma) (hw : h.long = true) :
    Laid h op (putVHFma (Raw.mk h op 0 0 0 0 0 0 0 0 0 0 0) o) ∧ getVHFma (putVHFma (Raw.mk h op 0 0 0 0 0 0 0 0 0 0 0) o) = o := by
  obtain ⟨tx, rndx, halfx, dx, ⟨ar, ap⟩, ⟨br, bp⟩, ⟨cr, cp⟩⟩ := o
  rcases hl : h.long with _ | _ <;> cases rndx <;>
    simp_all [laid_iff, chkVHFma, putVHFma, getVHFma, Raw.imm, Raw.immS, Raw.immU, Raw.immSB, Raw.putA, Raw.putB, Raw.putC, Raw.putVB, Raw.srcA, Raw.srcB, Raw.srcC, Raw.vb, Raw.vbU,
      Raw.sb, Raw.sbU, Raw.rm, Raw.half, Raw.sat, Raw.u, Raw.width, Raw.fnLo, Raw.fnHi, Raw.ord, Raw.sp, Raw.z, Raw.scope, Raw.sel,
      putRoff, getRoff, putAtom, Raw.atom, Raw.putAddr, Raw.addr, Raw.putBar, Raw.bar, Raw.barD, Bar.fld, Bar.isCluster, Raw.rnd,
      SB.below, VB.below, Addr.isVec, Width.bits, Raw.word1, SB.fit, VB.fit, SB.isImm, VB.isImm, VSrc.plain, -BitVec.getLsbD_eq_getElem]

theorem laid_VDot2 (h : Hdr) (op : W8) (o : VDot2) (hw : ((chkVDot2 h o).fn && (chkVDot2 h o).fld && (chkVDot2 h o).short) = true) :
    Laid h op (putVDot2 (Raw.mk h op 0 0 0 0 0 0 0 0 0 0 0) o) ∧ getVDot2 (putVDot2 (Raw.mk h op 0 0 0 0 0 0 0 0 0 0 0) o) = o := by
  obtain ⟨tx, rndx, dx, ⟨ar, ap⟩, ⟨br, bp⟩⟩ := o
  rcases hl : h.long with _ | _ <;> cases rndx <;>
    simp_all [laid_iff, chkVDot2, putVDot2, getVDot2, Raw.imm, Raw.immS, Raw.immU, Raw.immSB, Raw.putA, Raw.putB, Raw.putC, Raw.putVB, Raw.srcA, Raw.srcB, Raw.srcC, Raw.vb, Raw.vbU,
      Raw.sb, Raw.sbU, Raw.rm, Raw.half, Raw.sat, Raw.u, Raw.width, Raw.fnLo, Raw.fnHi, Raw.ord, Raw.sp, Raw.z, Raw.scope, Raw.sel,
      putRoff, getRoff, putAtom, Raw.atom, Raw.putAddr, Raw.addr, Raw.putBar, Raw.bar, Raw.barD, Bar.fld, Bar.isCluster, Raw.rnd,
      SB.below, VB.below, Addr.isVec, Width.bits, Raw.word1, SB.fit, VB.fit, SB.isImm, VB.isImm, VSrc.plain, -BitVec.getLsbD_eq_getElem]

theorem laid_VDot4 (h : Hdr) (op : W8) (o : VDot4) (hw : ((chkVDot4 h o).fn && (chkVDot4 h o).fld && (chkVDot4 h o).short) = true) :
    Laid h op (putVDot4 (Raw.mk h op 0 0 0 0 0 0 0 0 0 0 0) o) ∧ getVDot4 (putVDot4 (Raw.mk h op 0 0 0 0 0 0 0 0 0 0 0) o) = o := by
  obtain ⟨ux, satx, dx, ⟨ar, ap⟩, ⟨br, bp⟩⟩ := o
  rcases hl : h.long with _ | _ <;> cases ux <;>
    simp_all [laid_iff, chkVDot4, putVDot4, getVDot4, Raw.imm, Raw.immS, Raw.immU, Raw.immSB, Raw.putA, Raw.putB, Raw.putC, Raw.putVB, Raw.srcA, Raw.srcB, Raw.srcC, Raw.vb, Raw.vbU,
      Raw.sb, Raw.sbU, Raw.rm, Raw.half, Raw.sat, Raw.u, Raw.width, Raw.fnLo, Raw.fnHi, Raw.ord, Raw.sp, Raw.z, Raw.scope, Raw.sel,
      putRoff, getRoff, putAtom, Raw.atom, Raw.putAddr, Raw.addr, Raw.putBar, Raw.bar, Raw.barD, Bar.fld, Bar.isCluster, Raw.rnd,
      SB.below, VB.below, Addr.isVec, Width.bits, Raw.word1, SB.fit, VB.fit, SB.isImm, VB.isImm, VSrc.plain, -BitVec.getLsbD_eq_getElem]

theorem laid_VCvt (h : Hdr) (op : W8) (o : VCvt) (hw : ((chkVCvt h o).fn && (chkVCvt h o).fld && (chkVCvt h o).short) = true) :
    Laid h op (putVCvt (Raw.mk h op 0 0 0 0 0 0 0 0 0 0 0) o) ∧ getVCvt (putVCvt (Raw.mk h op 0 0 0 0 0 0 0 0 0 0 0) o) = o := by
  obtain ⟨dstx, srcx, rndx, satx, dx, ⟨ar, ap⟩, dsx, ssx⟩ := o
  rcases hl : h.long with _ | _ <;> cases rndx <;>
    simp_all [laid_iff, chkVCvt, putVCvt, getVCvt, Raw.imm, Raw.immS, Raw.immU, Raw.immSB, Raw.putA, Raw.putB, Raw.putC, Raw.putVB, Raw.srcA, Raw.srcB, Raw.srcC, Raw.vb, Raw.vbU,
      Raw.sb, Raw.sbU, Raw.rm, Raw.half, Raw.sat, Raw.u, Raw.width, Raw.fnLo, Raw.fnHi, Raw.ord, Raw.sp, Raw.z, Raw.scope, Raw.sel,
      putRoff, getRoff, putAtom, Raw.atom, Raw.putAddr, Raw.addr, Raw.putBar, Raw.bar, Raw.barD, Bar.fld, Bar.isCluster, Raw.rnd,
      SB.below, VB.below, Addr.isVec, Width.bits, Raw.word1, SB.fit, VB.fit, SB.isImm, VB.isImm, VSrc.plain, -BitVec.getLsbD_eq_getElem]

theorem laid_VLd (h : Hdr) (op : W8) (o : VLd) (hw : ((chkVLd h o).fn && (chkVLd h o).fld && (chkVLd h o).short) = true) :
    Laid h op (putVLd (Raw.mk h op 0 0 0 0 0 0 0 0 0 0 0) o) ∧ getVLd (putVLd (Raw.mk h op 0 0 0 0 0 0 0 0 0 0 0) o) = o := by
  obtain ⟨zx, spx, ordx, scopex, sxx, dx, addrx, offx⟩ := o
  rcases hl : h.long with _ | _ <;> cases addrx <;>
    simp_all [laid_iff, chkVLd, putVLd, getVLd, Raw.imm, Raw.immS, Raw.immU, Raw.immSB, Raw.putA, Raw.putB, Raw.putC, Raw.putVB, Raw.srcA, Raw.srcB, Raw.srcC, Raw.vb, Raw.vbU,
      Raw.sb, Raw.sbU, Raw.rm, Raw.half, Raw.sat, Raw.u, Raw.width, Raw.fnLo, Raw.fnHi, Raw.ord, Raw.sp, Raw.z, Raw.scope, Raw.sel,
      putRoff, getRoff, putAtom, Raw.atom, Raw.putAddr, Raw.addr, Raw.putBar, Raw.bar, Raw.barD, Bar.fld, Bar.isCluster, Raw.rnd,
      SB.below, VB.below, Addr.isVec, Width.bits, Raw.word1, SB.fit, VB.fit, SB.isImm, VB.isImm, VSrc.plain, -BitVec.getLsbD_eq_getElem]

theorem laid_VSt (h : Hdr) (op : W8) (o : VSt) (hw : ((chkVSt h o).fn && (chkVSt h o).fld && (chkVSt h o).short) = true) :
    Laid h op (putVSt (Raw.mk h op 0 0 0 0 0 0 0 0 0 0 0) o) ∧ getVSt (putVSt (Raw.mk h op 0 0 0 0 0 0 0 0 0 0 0) o) = o := by
  obtain ⟨zx, spx, ordx, scopex, dx, addrx, offx⟩ := o
  rcases hl : h.long with _ | _ <;> cases addrx <;>
    simp_all [laid_iff, chkVSt, putVSt, getVSt, Raw.imm, Raw.immS, Raw.immU, Raw.immSB, Raw.putA, Raw.putB, Raw.putC, Raw.putVB, Raw.srcA, Raw.srcB, Raw.srcC, Raw.vb, Raw.vbU,
      Raw.sb, Raw.sbU, Raw.rm, Raw.half, Raw.sat, Raw.u, Raw.width, Raw.fnLo, Raw.fnHi, Raw.ord, Raw.sp, Raw.z, Raw.scope, Raw.sel,
      putRoff, getRoff, putAtom, Raw.atom, Raw.putAddr, Raw.addr, Raw.putBar, Raw.bar, Raw.barD, Bar.fld, Bar.isCluster, Raw.rnd,
      SB.below, VB.below, Addr.isVec, Width.bits, Raw.word1, SB.fit, VB.fit, SB.isImm, VB.isImm, VSrc.plain, -BitVec.getLsbD_eq_getElem]

theorem laid_VAtom (h : Hdr) (op : W8) (o : VAtom) (hw : ((chkVAtom h o).fn && (chkVAtom h o).fld && (chkVAtom h o).short) = true) :
    Laid h op (putVAtom (Raw.mk h op 0 0 0 0 0 0 0 0 0 0 0) o) ∧ getVAtom (putVAtom (Raw.mk h op 0 0 0 0 0 0 0 0 0 0 0) o) = o := by
  obtain ⟨opx, zx, spx, ordx, scopex, dx, ax, offx, bx⟩ := o
  rcases hl : h.long with _ | _ <;> cases opx <;>
    simp_all [laid_iff, chkVAtom, putVAtom, getVAtom, Raw.imm, Raw.immS, Raw.immU, Raw.immSB, Raw.putA, Raw.putB, Raw.putC, Raw.putVB, Raw.srcA, Raw.srcB, Raw.srcC, Raw.vb, Raw.vbU,
      Raw.sb, Raw.sbU, Raw.rm, Raw.half, Raw.sat, Raw.u, Raw.width, Raw.fnLo, Raw.fnHi, Raw.ord, Raw.sp, Raw.z, Raw.scope, Raw.sel,
      putRoff, getRoff, putAtom, Raw.atom, Raw.putAddr, Raw.addr, Raw.putBar, Raw.bar, Raw.barD, Bar.fld, Bar.isCluster, Raw.rnd,
      SB.below, VB.below, Addr.isVec, Width.bits, Raw.word1, SB.fit, VB.fit, SB.isImm, VB.isImm, VSrc.plain, -BitVec.getLsbD_eq_getElem]

theorem laid_VCas (h : Hdr) (op : W8) (o : VCas) (hw : h.long = true) :
    Laid h op (putVCas (Raw.mk h op 0 0 0 0 0 0 0 0 0 0 0) o) ∧ getVCas (putVCas (Raw.mk h op 0 0 0 0 0 0 0 0 0 0 0) o) = o := by
  obtain ⟨zx, spx, ordx, scopex, dx, ax, offx, bx, cx⟩ := o
  rcases hl : h.long with _ | _ <;>
    simp_all [laid_iff, chkVCas, putVCas, getVCas, Raw.imm, Raw.immS, Raw.immU, Raw.immSB, Raw.putA, Raw.putB, Raw.putC, Raw.putVB, Raw.srcA, Raw.srcB, Raw.srcC, Raw.vb, Raw.vbU,
      Raw.sb, Raw.sbU, Raw.rm, Raw.half, Raw.sat, Raw.u, Raw.width, Raw.fnLo, Raw.fnHi, Raw.ord, Raw.sp, Raw.z, Raw.scope, Raw.sel,
      putRoff, getRoff, putAtom, Raw.atom, Raw.putAddr, Raw.addr, Raw.putBar, Raw.bar, Raw.barD, Bar.fld, Bar.isCluster, Raw.rnd,
      SB.below, VB.below, Addr.isVec, Width.bits, Raw.word1, SB.fit, VB.fit, SB.isImm, VB.isImm, VSrc.plain, -BitVec.getLsbD_eq_getElem]

theorem laid_VPrefetch (h : Hdr) (op : W8) (o : VPrefetch) (hw : ((chkVPrefetch h o).fn && (chkVPrefetch h o).fld && (chkVPrefetch h o).short) = true) :
    Laid h op (putVPrefetch (Raw.mk h op 0 0 0 0 0 0 0 0 0 0 0) o) ∧ getVPrefetch (putVPrefetch (Raw.mk h op 0 0 0 0 0 0 0 0 0 0 0) o) = o := by
  obtain ⟨l2x, zx, addrx, offx⟩ := o
  rcases hl : h.long with _ | _ <;> cases addrx <;>
    simp_all [laid_iff, chkVPrefetch, putVPrefetch, getVPrefetch, Raw.imm, Raw.immS, Raw.immU, Raw.immSB, Raw.putA, Raw.putB, Raw.putC, Raw.putVB, Raw.srcA, Raw.srcB, Raw.srcC, Raw.vb, Raw.vbU,
      Raw.sb, Raw.sbU, Raw.rm, Raw.half, Raw.sat, Raw.u, Raw.width, Raw.fnLo, Raw.fnHi, Raw.ord, Raw.sp, Raw.z, Raw.scope, Raw.sel,
      putRoff, getRoff, putAtom, Raw.atom, Raw.putAddr, Raw.addr, Raw.putBar, Raw.bar, Raw.barD, Bar.fld, Bar.isCluster, Raw.rnd,
      SB.below, VB.below, Addr.isVec, Width.bits, Raw.word1, SB.fit, VB.fit, SB.isImm, VB.isImm, VSrc.plain, -BitVec.getLsbD_eq_getElem]

theorem laid_Fence (h : Hdr) (op : W8) (o : Fence) (hw : h.long = true) :
    Laid h op (putFence (Raw.mk h op 0 0 0 0 0 0 0 0 0 0 0) o) ∧ getFence (putFence (Raw.mk h op 0 0 0 0 0 0 0 0 0 0 0) o) = o := by
  obtain ⟨scopex, predx, succx⟩ := o
  rcases hl : h.long with _ | _ <;>
    simp_all [laid_iff, chkFence, putFence, getFence, Raw.imm, Raw.immS, Raw.immU, Raw.immSB, Raw.putA, Raw.putB, Raw.putC, Raw.putVB, Raw.srcA, Raw.srcB, Raw.srcC, Raw.vb, Raw.vbU,
      Raw.sb, Raw.sbU, Raw.rm, Raw.half, Raw.sat, Raw.u, Raw.width, Raw.fnLo, Raw.fnHi, Raw.ord, Raw.sp, Raw.z, Raw.scope, Raw.sel,
      putRoff, getRoff, putAtom, Raw.atom, Raw.putAddr, Raw.addr, Raw.putBar, Raw.bar, Raw.barD, Bar.fld, Bar.isCluster, Raw.rnd,
      SB.below, VB.below, Addr.isVec, Width.bits, Raw.word1, SB.fit, VB.fit, SB.isImm, VB.isImm, VSrc.plain, -BitVec.getLsbD_eq_getElem]

theorem laid_WaitA (h : Hdr) (op : W8) (o : WaitA) (hw : ((chkWaitA h o).fn && (chkWaitA h o).fld && (chkWaitA h o).short) = true) :
    Laid h op (putWaitA (Raw.mk h op 0 0 0 0 0 0 0 0 0 0 0) o) ∧ getWaitA (putWaitA (Raw.mk h op 0 0 0 0 0 0 0 0 0 0 0) o) = o := by
  obtain ⟨zx, spx, ordx, scopex, dx, ax, offx, bx⟩ := o
  rcases hl : h.long with _ | _ <;>
    simp_all [laid_iff, chkWaitA, putWaitA, getWaitA, Raw.imm, Raw.immS, Raw.immU, Raw.immSB, Raw.putA, Raw.putB, Raw.putC, Raw.putVB, Raw.srcA, Raw.srcB, Raw.srcC, Raw.vb, Raw.vbU,
      Raw.sb, Raw.sbU, Raw.rm, Raw.half, Raw.sat, Raw.u, Raw.width, Raw.fnLo, Raw.fnHi, Raw.ord, Raw.sp, Raw.z, Raw.scope, Raw.sel,
      putRoff, getRoff, putAtom, Raw.atom, Raw.putAddr, Raw.addr, Raw.putBar, Raw.bar, Raw.barD, Bar.fld, Bar.isCluster, Raw.rnd,
      SB.below, VB.below, Addr.isVec, Width.bits, Raw.word1, SB.fit, VB.fit, SB.isImm, VB.isImm, VSrc.plain, -BitVec.getLsbD_eq_getElem]

theorem laid_VIdx (h : Hdr) (op : W8) (o : VIdx) (_ : ((chkVIdx h o).fn && (chkVIdx h o).fld && (chkVIdx h o).short) = true) :
    Laid h op (putVIdx (Raw.mk h op 0 0 0 0 0 0 0 0 0 0 0) o) ∧ getVIdx (putVIdx (Raw.mk h op 0 0 0 0 0 0 0 0 0 0 0) o) = o := by
  obtain ⟨stepx, dx, xx, offx⟩ := o
  rcases hl : h.long with _ | _ <;>
    simp_all [laid_iff, chkVIdx, putVIdx, getVIdx, Raw.imm, Raw.immS, Raw.immU, Raw.immSB, Raw.putA, Raw.putB, Raw.putC, Raw.putVB, Raw.srcA, Raw.srcB, Raw.srcC, Raw.vb, Raw.vbU,
      Raw.sb, Raw.sbU, Raw.rm, Raw.half, Raw.sat, Raw.u, Raw.width, Raw.fnLo, Raw.fnHi, Raw.ord, Raw.sp, Raw.z, Raw.scope, Raw.sel,
      putRoff, getRoff, putAtom, Raw.atom, Raw.putAddr, Raw.addr, Raw.putBar, Raw.bar, Raw.barD, Bar.fld, Bar.isCluster, Raw.rnd,
      SB.below, VB.below, Addr.isVec, Width.bits, Raw.word1, SB.fit, VB.fit, SB.isImm, VB.isImm, VSrc.plain, -BitVec.getLsbD_eq_getElem]

theorem laid_XSet (h : Hdr) (op : W8) (o : XSet) (hw : ((chkXSet h o).fn && (chkXSet h o).fld && (chkXSet h o).short) = true) :
    Laid h op (putXSet (Raw.mk h op 0 0 0 0 0 0 0 0 0 0 0) o) ∧ getXSet (putXSet (Raw.mk h op 0 0 0 0 0 0 0 0 0 0 0) o) = o := by
  rcases hl : h.long with _ | _ <;> cases o <;>
    simp_all [laid_iff, chkXSet, putXSet, getXSet, Raw.imm, Raw.immS, Raw.immU, Raw.immSB, Raw.putA, Raw.putB, Raw.putC, Raw.putVB, Raw.srcA, Raw.srcB, Raw.srcC, Raw.vb, Raw.vbU,
      Raw.sb, Raw.sbU, Raw.rm, Raw.half, Raw.sat, Raw.u, Raw.width, Raw.fnLo, Raw.fnHi, Raw.ord, Raw.sp, Raw.z, Raw.scope, Raw.sel,
      putRoff, getRoff, putAtom, Raw.atom, Raw.putAddr, Raw.addr, Raw.putBar, Raw.bar, Raw.barD, Bar.fld, Bar.isCluster, Raw.rnd,
      SB.below, VB.below, Addr.isVec, Width.bits, Raw.word1, SB.fit, VB.fit, SB.isImm, VB.isImm, VSrc.plain, -BitVec.getLsbD_eq_getElem]

theorem laid_SpillFill (h : Hdr) (op : W8) (o : SpillFill) (hw : ((chkSpillFill h o).fn && (chkSpillFill h o).fld && (chkSpillFill h o).short) = true) :
    Laid h op (putSpillFill (Raw.mk h op 0 0 0 0 0 0 0 0 0 0 0) o) ∧ getSpillFill (putSpillFill (Raw.mk h op 0 0 0 0 0 0 0 0 0 0 0) o) = o := by
  obtain ⟨adjx, dx, nm1x, offx⟩ := o
  rcases hl : h.long with _ | _ <;>
    simp_all [laid_iff, chkSpillFill, putSpillFill, getSpillFill, Raw.imm, Raw.immS, Raw.immU, Raw.immSB, Raw.putA, Raw.putB, Raw.putC, Raw.putVB, Raw.srcA, Raw.srcB, Raw.srcC, Raw.vb, Raw.vbU,
      Raw.sb, Raw.sbU, Raw.rm, Raw.half, Raw.sat, Raw.u, Raw.width, Raw.fnLo, Raw.fnHi, Raw.ord, Raw.sp, Raw.z, Raw.scope, Raw.sel,
      putRoff, getRoff, putAtom, Raw.atom, Raw.putAddr, Raw.addr, Raw.putBar, Raw.bar, Raw.barD, Bar.fld, Bar.isCluster, Raw.rnd,
      SB.below, VB.below, Addr.isVec, Width.bits, Raw.word1, SB.fit, VB.fit, SB.isImm, VB.isImm, VSrc.plain, -BitVec.getLsbD_eq_getElem]

theorem laid_Mma (h : Hdr) (op : W8) (o : Mma) (hw : ((chkMma h o).fn && (chkMma h o).fld && (chkMma h o).short) = true) :
    Laid h op (putMma (Raw.mk h op 0 0 0 0 0 0 0 0 0 0 0) o) ∧ getMma (putMma (Raw.mk h op 0 0 0 0 0 0 0 0 0 0 0) o) = o := by
  obtain ⟨tx, dx, ax, bx⟩ := o
  rcases hl : h.long with _ | _ <;> rcases tx with _ | _ | _ | ⟨a5, _ | b⟩ | ⟨c, hi⟩ <;> (try cases a5) <;> (try cases b) <;> (try cases hi) <;>
    simp_all [laid_iff, chkMma, putMma, getMma, Raw.imm, Raw.immS, Raw.immU, Raw.immSB, Raw.putA, Raw.putB, Raw.putC, Raw.putVB, Raw.srcA, Raw.srcB, Raw.srcC, Raw.vb, Raw.vbU,
      Raw.sb, Raw.sbU, Raw.rm, Raw.half, Raw.sat, Raw.u, Raw.width, Raw.fnLo, Raw.fnHi, Raw.ord, Raw.sp, Raw.z, Raw.scope, Raw.sel,
      putRoff, getRoff, putAtom, Raw.atom, Raw.putAddr, Raw.addr, Raw.putBar, Raw.bar, Raw.barD, Bar.fld, Bar.isCluster, Raw.rnd,
      SB.below, VB.below, Addr.isVec, Width.bits, Raw.word1, SB.fit, VB.fit, SB.isImm, VB.isImm, VSrc.plain, -BitVec.getLsbD_eq_getElem]
  all_goals rfl

theorem laid_TD (h : Hdr) (op : W8) (o : TReg) (_ : ((chkTD h o).fn && (chkTD h o).fld && (chkTD h o).short) = true) :
    Laid h op (putTD (Raw.mk h op 0 0 0 0 0 0 0 0 0 0 0) o) ∧ getTD (putTD (Raw.mk h op 0 0 0 0 0 0 0 0 0 0 0) o) = o := by
  rcases hl : h.long with _ | _ <;>
    simp_all [laid_iff, chkTD, putTD, getTD, Raw.imm, Raw.immS, Raw.immU, Raw.immSB, Raw.putA, Raw.putB, Raw.putC, Raw.putVB, Raw.srcA, Raw.srcB, Raw.srcC, Raw.vb, Raw.vbU,
      Raw.sb, Raw.sbU, Raw.rm, Raw.half, Raw.sat, Raw.u, Raw.width, Raw.fnLo, Raw.fnHi, Raw.ord, Raw.sp, Raw.z, Raw.scope, Raw.sel,
      putRoff, getRoff, putAtom, Raw.atom, Raw.putAddr, Raw.addr, Raw.putBar, Raw.bar, Raw.barD, Bar.fld, Bar.isCluster, Raw.rnd,
      SB.below, VB.below, Addr.isVec, Width.bits, Raw.word1, SB.fit, VB.fit, SB.isImm, VB.isImm, VSrc.plain, -BitVec.getLsbD_eq_getElem]

theorem laid_MMov (h : Hdr) (op : W8) (o : MMove) (hw : ((chkMMov h o).fn && (chkMMov h o).fld && (chkMMov h o).short) = true) :
    Laid h op (putMMov (Raw.mk h op 0 0 0 0 0 0 0 0 0 0 0) o) ∧ getMMov (putMMov (Raw.mk h op 0 0 0 0 0 0 0 0 0 0 0) o) = o := by
  obtain ⟨rowsx, vx, tx⟩ := o
  rcases hl : h.long with _ | _ <;>
    simp_all [laid_iff, chkMMov, putMMov, getMMov, Raw.imm, Raw.immS, Raw.immU, Raw.immSB, Raw.putA, Raw.putB, Raw.putC, Raw.putVB, Raw.srcA, Raw.srcB, Raw.srcC, Raw.vb, Raw.vbU,
      Raw.sb, Raw.sbU, Raw.rm, Raw.half, Raw.sat, Raw.u, Raw.width, Raw.fnLo, Raw.fnHi, Raw.ord, Raw.sp, Raw.z, Raw.scope, Raw.sel,
      putRoff, getRoff, putAtom, Raw.atom, Raw.putAddr, Raw.addr, Raw.putBar, Raw.bar, Raw.barD, Bar.fld, Bar.isCluster, Raw.rnd,
      SB.below, VB.below, Addr.isVec, Width.bits, Raw.word1, SB.fit, VB.fit, SB.isImm, VB.isImm, VSrc.plain, -BitVec.getLsbD_eq_getElem]

theorem laid_MLoad (h : Hdr) (op : W8) (o : MMove) (hw : ((chkMLoad h o).fn && (chkMLoad h o).fld && (chkMLoad h o).short) = true) :
    Laid h op (putMLoad (Raw.mk h op 0 0 0 0 0 0 0 0 0 0 0) o) ∧ getMLoad (putMLoad (Raw.mk h op 0 0 0 0 0 0 0 0 0 0 0) o) = o := by
  obtain ⟨rowsx, vx, tx⟩ := o
  rcases hl : h.long with _ | _ <;>
    simp_all [laid_iff, chkMLoad, putMLoad, getMLoad, Raw.imm, Raw.immS, Raw.immU, Raw.immSB, Raw.putA, Raw.putB, Raw.putC, Raw.putVB, Raw.srcA, Raw.srcB, Raw.srcC, Raw.vb, Raw.vbU,
      Raw.sb, Raw.sbU, Raw.rm, Raw.half, Raw.sat, Raw.u, Raw.width, Raw.fnLo, Raw.fnHi, Raw.ord, Raw.sp, Raw.z, Raw.scope, Raw.sel,
      putRoff, getRoff, putAtom, Raw.atom, Raw.putAddr, Raw.addr, Raw.putBar, Raw.bar, Raw.barD, Bar.fld, Bar.isCluster, Raw.rnd,
      SB.below, VB.below, Addr.isVec, Width.bits, Raw.word1, SB.fit, VB.fit, SB.isImm, VB.isImm, VSrc.plain, -BitVec.getLsbD_eq_getElem]

theorem laid_MMem (h : Hdr) (op : W8) (o : MMem) (hw : ((chkMMem h o).fn && (chkMMem h o).fld && (chkMMem h o).short) = true) :
    Laid h op (putMMem (Raw.mk h op 0 0 0 0 0 0 0 0 0 0 0) o) ∧ getMMem (putMMem (Raw.mk h op 0 0 0 0 0 0 0 0 0 0 0) o) = o := by
  obtain ⟨spx, tx, ax, offx, bx, barx⟩ := o
  rcases hl : h.long with _ | _ <;> rcases barx with _ | (n | n) <;>
    simp_all [laid_iff, chkMMem, putMMem, getMMem, Raw.imm, Raw.immS, Raw.immU, Raw.immSB, Raw.putA, Raw.putB, Raw.putC, Raw.putVB, Raw.srcA, Raw.srcB, Raw.srcC, Raw.vb, Raw.vbU,
      Raw.sb, Raw.sbU, Raw.rm, Raw.half, Raw.sat, Raw.u, Raw.width, Raw.fnLo, Raw.fnHi, Raw.ord, Raw.sp, Raw.z, Raw.scope, Raw.sel,
      putRoff, getRoff, putAtom, Raw.atom, Raw.putAddr, Raw.addr, Raw.putBar, Raw.bar, Raw.barD, Bar.fld, Bar.isCluster, Raw.rnd,
      SB.below, VB.below, Addr.isVec, Width.bits, Raw.word1, SB.fit, VB.fit, SB.isImm, VB.isImm, VSrc.plain, -BitVec.getLsbD_eq_getElem]

theorem laid_DMem (h : Hdr) (op : W8) (o : DMem) (hw : ((chkDMem h o).fn && (chkDMem h o).fld && (chkDMem h o).short) = true) :
    Laid h op (putDMem (Raw.mk h op 0 0 0 0 0 0 0 0 0 0 0) o) ∧ getDMem (putDMem (Raw.mk h op 0 0 0 0 0 0 0 0 0 0 0) o) = o := by
  obtain ⟨spx, dx, ax, offx⟩ := o
  rcases hl : h.long with _ | _ <;>
    simp_all [laid_iff, chkDMem, putDMem, getDMem, Raw.imm, Raw.immS, Raw.immU, Raw.immSB, Raw.putA, Raw.putB, Raw.putC, Raw.putVB, Raw.srcA, Raw.srcB, Raw.srcC, Raw.vb, Raw.vbU,
      Raw.sb, Raw.sbU, Raw.rm, Raw.half, Raw.sat, Raw.u, Raw.width, Raw.fnLo, Raw.fnHi, Raw.ord, Raw.sp, Raw.z, Raw.scope, Raw.sel,
      putRoff, getRoff, putAtom, Raw.atom, Raw.putAddr, Raw.addr, Raw.putBar, Raw.bar, Raw.barD, Bar.fld, Bar.isCluster, Raw.rnd,
      SB.below, VB.below, Addr.isVec, Width.bits, Raw.word1, SB.fit, VB.fit, SB.isImm, VB.isImm, VSrc.plain, -BitVec.getLsbD_eq_getElem]

theorem laid_DSet (h : Hdr) (op : W8) (o : DSet) (hw : ((chkDSet h o).fn && (chkDSet h o).fld && (chkDSet h o).short) = true) :
    Laid h op (putDSet (Raw.mk h op 0 0 0 0 0 0 0 0 0 0 0) o) ∧ getDSet (putDSet (Raw.mk h op 0 0 0 0 0 0 0 0 0 0 0) o) = o := by
  obtain ⟨fx, dx, bx⟩ := o
  rcases hl : h.long with _ | _ <;> cases bx <;>
    simp_all [laid_iff, chkDSet, putDSet, getDSet, Raw.imm, Raw.immS, Raw.immU, Raw.immSB, Raw.putA, Raw.putB, Raw.putC, Raw.putVB, Raw.srcA, Raw.srcB, Raw.srcC, Raw.vb, Raw.vbU,
      Raw.sb, Raw.sbU, Raw.rm, Raw.half, Raw.sat, Raw.u, Raw.width, Raw.fnLo, Raw.fnHi, Raw.ord, Raw.sp, Raw.z, Raw.scope, Raw.sel,
      putRoff, getRoff, putAtom, Raw.atom, Raw.putAddr, Raw.addr, Raw.putBar, Raw.bar, Raw.barD, Bar.fld, Bar.isCluster, Raw.rnd,
      SB.below, VB.below, Addr.isVec, Width.bits, Raw.word1, SB.fit, VB.fit, SB.isImm, VB.isImm, VSrc.plain, -BitVec.getLsbD_eq_getElem]

theorem laid_TCopy (h : Hdr) (op : W8) (o : TCopy) (hw : ((chkTCopy h o).fn && (chkTCopy h o).fld && (chkTCopy h o).short) = true) :
    Laid h op (putTCopy (Raw.mk h op 0 0 0 0 0 0 0 0 0 0 0) o) ∧ getTCopy (putTCopy (Raw.mk h op 0 0 0 0 0 0 0 0 0 0 0) o) = o := by
  obtain ⟨dirx, dx, ax, bx, barx, tagx⟩ := o
  rcases hl : h.long with _ | _ <;> rcases barx with _ | (n | n) <;>
    simp_all [laid_iff, chkTCopy, putTCopy, getTCopy, Raw.imm, Raw.immS, Raw.immU, Raw.immSB, Raw.putA, Raw.putB, Raw.putC, Raw.putVB, Raw.srcA, Raw.srcB, Raw.srcC, Raw.vb, Raw.vbU,
      Raw.sb, Raw.sbU, Raw.rm, Raw.half, Raw.sat, Raw.u, Raw.width, Raw.fnLo, Raw.fnHi, Raw.ord, Raw.sp, Raw.z, Raw.scope, Raw.sel,
      putRoff, getRoff, putAtom, Raw.atom, Raw.putAddr, Raw.addr, Raw.putBar, Raw.bar, Raw.barD, Bar.fld, Bar.isCluster, Raw.rnd,
      SB.below, VB.below, Addr.isVec, Width.bits, Raw.word1, SB.fit, VB.fit, SB.isImm, VB.isImm, VSrc.plain, -BitVec.getLsbD_eq_getElem]

theorem laid_TStat (h : Hdr) (op : W8) (o : TStat) (_ : ((chkTStat h o).fn && (chkTStat h o).fld && (chkTStat h o).short) = true) :
    Laid h op (putTStat (Raw.mk h op 0 0 0 0 0 0 0 0 0 0 0) o) ∧ getTStat (putTStat (Raw.mk h op 0 0 0 0 0 0 0 0 0 0 0) o) = o := by
  obtain ⟨dx, ax⟩ := o
  rcases hl : h.long with _ | _ <;>
    simp_all [laid_iff, chkTStat, putTStat, getTStat, Raw.imm, Raw.immS, Raw.immU, Raw.immSB, Raw.putA, Raw.putB, Raw.putC, Raw.putVB, Raw.srcA, Raw.srcB, Raw.srcC, Raw.vb, Raw.vbU,
      Raw.sb, Raw.sbU, Raw.rm, Raw.half, Raw.sat, Raw.u, Raw.width, Raw.fnLo, Raw.fnHi, Raw.ord, Raw.sp, Raw.z, Raw.scope, Raw.sel,
      putRoff, getRoff, putAtom, Raw.atom, Raw.putAddr, Raw.addr, Raw.putBar, Raw.bar, Raw.barD, Bar.fld, Bar.isCluster, Raw.rnd,
      SB.below, VB.below, Addr.isVec, Width.bits, Raw.word1, SB.fit, VB.fit, SB.isImm, VB.isImm, VSrc.plain, -BitVec.getLsbD_eq_getElem]

theorem laid_DD (h : Hdr) (op : W8) (o : DReg) (_ : ((chkDD h o).fn && (chkDD h o).fld && (chkDD h o).short) = true) :
    Laid h op (putDD (Raw.mk h op 0 0 0 0 0 0 0 0 0 0 0) o) ∧ getDD (putDD (Raw.mk h op 0 0 0 0 0 0 0 0 0 0 0) o) = o := by
  rcases hl : h.long with _ | _ <;>
    simp_all [laid_iff, chkDD, putDD, getDD, Raw.imm, Raw.immS, Raw.immU, Raw.immSB, Raw.putA, Raw.putB, Raw.putC, Raw.putVB, Raw.srcA, Raw.srcB, Raw.srcC, Raw.vb, Raw.vbU,
      Raw.sb, Raw.sbU, Raw.rm, Raw.half, Raw.sat, Raw.u, Raw.width, Raw.fnLo, Raw.fnHi, Raw.ord, Raw.sp, Raw.z, Raw.scope, Raw.sel,
      putRoff, getRoff, putAtom, Raw.atom, Raw.putAddr, Raw.addr, Raw.putBar, Raw.bar, Raw.barD, Bar.fld, Bar.isCluster, Raw.rnd,
      SB.below, VB.below, Addr.isVec, Width.bits, Raw.word1, SB.fit, VB.fit, SB.isImm, VB.isImm, VSrc.plain, -BitVec.getLsbD_eq_getElem]

theorem laid_BInit (h : Hdr) (op : W8) (o : BInit) (hw : ((chkBInit h o).fn && (chkBInit h o).fld && (chkBInit h o).short) = true) :
    Laid h op (putBInit (Raw.mk h op 0 0 0 0 0 0 0 0 0 0 0) o) ∧ getBInit (putBInit (Raw.mk h op 0 0 0 0 0 0 0 0 0 0 0) o) = o := by
  obtain ⟨barx, nx⟩ := o
  rcases hl : h.long with _ | _ <;> cases barx <;> cases nx <;>
    simp_all [laid_iff, chkBInit, putBInit, getBInit, Raw.imm, Raw.immS, Raw.immU, Raw.immSB, Raw.putA, Raw.putB, Raw.putC, Raw.putVB, Raw.srcA, Raw.srcB, Raw.srcC, Raw.vb, Raw.vbU,
      Raw.sb, Raw.sbU, Raw.rm, Raw.half, Raw.sat, Raw.u, Raw.width, Raw.fnLo, Raw.fnHi, Raw.ord, Raw.sp, Raw.z, Raw.scope, Raw.sel,
      putRoff, getRoff, putAtom, Raw.atom, Raw.putAddr, Raw.addr, Raw.putBar, Raw.bar, Raw.barD, Bar.fld, Bar.isCluster, Raw.rnd,
      SB.below, VB.below, Addr.isVec, Width.bits, Raw.word1, SB.fit, VB.fit, SB.isImm, VB.isImm, VSrc.plain, -BitVec.getLsbD_eq_getElem]

theorem laid_BArr (h : Hdr) (op : W8) (o : BArr) (hw : ((chkBArr h o).fn && (chkBArr h o).fld && (chkBArr h o).short) = true) :
    Laid h op (putBArr (Raw.mk h op 0 0 0 0 0 0 0 0 0 0 0) o) ∧ getBArr (putBArr (Raw.mk h op 0 0 0 0 0 0 0 0 0 0 0) o) = o := by
  obtain ⟨dx, barx, nx⟩ := o
  rcases hl : h.long with _ | _ <;>
    simp_all [laid_iff, chkBArr, putBArr, getBArr, Raw.imm, Raw.immS, Raw.immU, Raw.immSB, Raw.putA, Raw.putB, Raw.putC, Raw.putVB, Raw.srcA, Raw.srcB, Raw.srcC, Raw.vb, Raw.vbU,
      Raw.sb, Raw.sbU, Raw.rm, Raw.half, Raw.sat, Raw.u, Raw.width, Raw.fnLo, Raw.fnHi, Raw.ord, Raw.sp, Raw.z, Raw.scope, Raw.sel,
      putRoff, getRoff, putAtom, Raw.atom, Raw.putAddr, Raw.addr, Raw.putBar, Raw.bar, Raw.barD, Bar.fld, Bar.isCluster, Raw.rnd,
      SB.below, VB.below, Addr.isVec, Width.bits, Raw.word1, SB.fit, VB.fit, SB.isImm, VB.isImm, VSrc.plain, -BitVec.getLsbD_eq_getElem]

theorem laid_BTry (h : Hdr) (op : W8) (o : BTry) (_ : ((chkBTry h o).fn && (chkBTry h o).fld && (chkBTry h o).short) = true) :
    Laid h op (putBTry (Raw.mk h op 0 0 0 0 0 0 0 0 0 0 0) o) ∧ getBTry (putBTry (Raw.mk h op 0 0 0 0 0 0 0 0 0 0 0) o) = o := by
  obtain ⟨dx, barx, bx⟩ := o
  rcases hl : h.long with _ | _ <;>
    simp_all [laid_iff, chkBTry, putBTry, getBTry, Raw.imm, Raw.immS, Raw.immU, Raw.immSB, Raw.putA, Raw.putB, Raw.putC, Raw.putVB, Raw.srcA, Raw.srcB, Raw.srcC, Raw.vb, Raw.vbU,
      Raw.sb, Raw.sbU, Raw.rm, Raw.half, Raw.sat, Raw.u, Raw.width, Raw.fnLo, Raw.fnHi, Raw.ord, Raw.sp, Raw.z, Raw.scope, Raw.sel,
      putRoff, getRoff, putAtom, Raw.atom, Raw.putAddr, Raw.addr, Raw.putBar, Raw.bar, Raw.barD, Bar.fld, Bar.isCluster, Raw.rnd,
      SB.below, VB.below, Addr.isVec, Width.bits, Raw.word1, SB.fit, VB.fit, SB.isImm, VB.isImm, VSrc.plain, -BitVec.getLsbD_eq_getElem]

theorem laid_BInval (h : Hdr) (op : W8) (o : Bar) (_ : ((chkBInval h o).fn && (chkBInval h o).fld && (chkBInval h o).short) = true) :
    Laid h op (putBInval (Raw.mk h op 0 0 0 0 0 0 0 0 0 0 0) o) ∧ getBInval (putBInval (Raw.mk h op 0 0 0 0 0 0 0 0 0 0 0) o) = o := by
  rcases hl : h.long with _ | _ <;> cases o <;>
    simp_all [laid_iff, chkBInval, putBInval, getBInval, Raw.imm, Raw.immS, Raw.immU, Raw.immSB, Raw.putA, Raw.putB, Raw.putC, Raw.putVB, Raw.srcA, Raw.srcB, Raw.srcC, Raw.vb, Raw.vbU,
      Raw.sb, Raw.sbU, Raw.rm, Raw.half, Raw.sat, Raw.u, Raw.width, Raw.fnLo, Raw.fnHi, Raw.ord, Raw.sp, Raw.z, Raw.scope, Raw.sel,
      putRoff, getRoff, putAtom, Raw.atom, Raw.putAddr, Raw.addr, Raw.putBar, Raw.bar, Raw.barD, Bar.fld, Bar.isCluster, Raw.rnd,
      SB.below, VB.below, Addr.isVec, Width.bits, Raw.word1, SB.fit, VB.fit, SB.isImm, VB.isImm, VSrc.plain, -BitVec.getLsbD_eq_getElem]

theorem laid_CBArr (h : Hdr) (op : W8) (o : CBArr) (hw : ((chkCBArr h o).fn && (chkCBArr h o).fld && (chkCBArr h o).short) = true) :
    Laid h op (putCBArr (Raw.mk h op 0 0 0 0 0 0 0 0 0 0 0) o) ∧ getCBArr (putCBArr (Raw.mk h op 0 0 0 0 0 0 0 0 0 0 0) o) = o := by
  obtain ⟨dx, barx, nx⟩ := o
  rcases hl : h.long with _ | _ <;>
    simp_all [laid_iff, chkCBArr, putCBArr, getCBArr, Raw.imm, Raw.immS, Raw.immU, Raw.immSB, Raw.putA, Raw.putB, Raw.putC, Raw.putVB, Raw.srcA, Raw.srcB, Raw.srcC, Raw.vb, Raw.vbU,
      Raw.sb, Raw.sbU, Raw.rm, Raw.half, Raw.sat, Raw.u, Raw.width, Raw.fnLo, Raw.fnHi, Raw.ord, Raw.sp, Raw.z, Raw.scope, Raw.sel,
      putRoff, getRoff, putAtom, Raw.atom, Raw.putAddr, Raw.addr, Raw.putBar, Raw.bar, Raw.barD, Bar.fld, Bar.isCluster, Raw.rnd,
      SB.below, VB.below, Addr.isVec, Width.bits, Raw.word1, SB.fit, VB.fit, SB.isImm, VB.isImm, VSrc.plain, -BitVec.getLsbD_eq_getElem]

theorem laid_CBTry (h : Hdr) (op : W8) (o : CBTry) (_ : ((chkCBTry h o).fn && (chkCBTry h o).fld && (chkCBTry h o).short) = true) :
    Laid h op (putCBTry (Raw.mk h op 0 0 0 0 0 0 0 0 0 0 0) o) ∧ getCBTry (putCBTry (Raw.mk h op 0 0 0 0 0 0 0 0 0 0 0) o) = o := by
  obtain ⟨dx, barx, bx⟩ := o
  rcases hl : h.long with _ | _ <;>
    simp_all [laid_iff, chkCBTry, putCBTry, getCBTry, Raw.imm, Raw.immS, Raw.immU, Raw.immSB, Raw.putA, Raw.putB, Raw.putC, Raw.putVB, Raw.srcA, Raw.srcB, Raw.srcC, Raw.vb, Raw.vbU,
      Raw.sb, Raw.sbU, Raw.rm, Raw.half, Raw.sat, Raw.u, Raw.width, Raw.fnLo, Raw.fnHi, Raw.ord, Raw.sp, Raw.z, Raw.scope, Raw.sel,
      putRoff, getRoff, putAtom, Raw.atom, Raw.putAddr, Raw.addr, Raw.putBar, Raw.bar, Raw.barD, Bar.fld, Bar.isCluster, Raw.rnd,
      SB.below, VB.below, Addr.isVec, Width.bits, Raw.word1, SB.fit, VB.fit, SB.isImm, VB.isImm, VSrc.plain, -BitVec.getLsbD_eq_getElem]

theorem laid_Trav (h : Hdr) (op : W8) (o : Trav) (hw : ((chkRBox4 h o).fn && (chkRBox4 h o).fld && (chkRBox4 h o).short) = true) :
    Laid h op (putTrav (Raw.mk h op 0 0 0 0 0 0 0 0 0 0 0) o) ∧ getTrav (putTrav (Raw.mk h op 0 0 0 0 0 0 0 0 0 0 0) o) = o := by
  obtain ⟨dx, ax, bx⟩ := o
  rcases hl : h.long with _ | _ <;>
    simp_all [laid_iff, chkRBox4, putTrav, getTrav, Raw.imm, Raw.immS, Raw.immU, Raw.immSB, Raw.putA, Raw.putB, Raw.putC, Raw.putVB, Raw.srcA, Raw.srcB, Raw.srcC, Raw.vb, Raw.vbU,
      Raw.sb, Raw.sbU, Raw.rm, Raw.half, Raw.sat, Raw.u, Raw.width, Raw.fnLo, Raw.fnHi, Raw.ord, Raw.sp, Raw.z, Raw.scope, Raw.sel,
      putRoff, getRoff, putAtom, Raw.atom, Raw.putAddr, Raw.addr, Raw.putBar, Raw.bar, Raw.barD, Bar.fld, Bar.isCluster, Raw.rnd,
      SB.below, VB.below, Addr.isVec, Width.bits, Raw.word1, SB.fit, VB.fit, SB.isImm, VB.isImm, VSrc.plain, -BitVec.getLsbD_eq_getElem]

theorem laid_Pairs (h : Hdr) (op : W8) (o : Pairs) (_ : ((chkPairs h o).fn && (chkPairs h o).fld && (chkPairs h o).short) = true) :
    Laid h op (putPairs (Raw.mk h op 0 0 0 0 0 0 0 0 0 0 0) o) ∧ getPairs (putPairs (Raw.mk h op 0 0 0 0 0 0 0 0 0 0 0) o) = o := by
  obtain ⟨kpx, ax, bx, dx, qx⟩ := o
  rcases hl : h.long with _ | _ <;>
    simp_all [laid_iff, chkPairs, putPairs, getPairs, Raw.imm, Raw.immS, Raw.immU, Raw.immSB, Raw.putA, Raw.putB, Raw.putC, Raw.putVB, Raw.srcA, Raw.srcB, Raw.srcC, Raw.vb, Raw.vbU,
      Raw.sb, Raw.sbU, Raw.rm, Raw.half, Raw.sat, Raw.u, Raw.width, Raw.fnLo, Raw.fnHi, Raw.ord, Raw.sp, Raw.z, Raw.scope, Raw.sel,
      putRoff, getRoff, putAtom, Raw.atom, Raw.putAddr, Raw.addr, Raw.putBar, Raw.bar, Raw.barD, Bar.fld, Bar.isCluster, Raw.rnd,
      SB.below, VB.below, Addr.isVec, Width.bits, Raw.word1, SB.fit, VB.fit, SB.isImm, VB.isImm, VSrc.plain, -BitVec.getLsbD_eq_getElem]

theorem laid_Tex (h : Hdr) (op : W8) (o : Tex) (hw : ((chkTex h o).fn && (chkTex h o).fld && (chkTex h o).short) = true) :
    Laid h op (putTex (Raw.mk h op 0 0 0 0 0 0 0 0 0 0 0) o) ∧ getTex (putTex (Raw.mk h op 0 0 0 0 0 0 0 0 0 0 0) o) = o := by
  obtain ⟨linx, wrapx, dx, ax, bx⟩ := o
  rcases hl : h.long with _ | _ <;>
    simp_all [laid_iff, chkTex, putTex, getTex, Raw.imm, Raw.immS, Raw.immU, Raw.immSB, Raw.putA, Raw.putB, Raw.putC, Raw.putVB, Raw.srcA, Raw.srcB, Raw.srcC, Raw.vb, Raw.vbU,
      Raw.sb, Raw.sbU, Raw.rm, Raw.half, Raw.sat, Raw.u, Raw.width, Raw.fnLo, Raw.fnHi, Raw.ord, Raw.sp, Raw.z, Raw.scope, Raw.sel,
      putRoff, getRoff, putAtom, Raw.atom, Raw.putAddr, Raw.addr, Raw.putBar, Raw.bar, Raw.barD, Bar.fld, Bar.isCluster, Raw.rnd,
      SB.below, VB.below, Addr.isVec, Width.bits, Raw.word1, SB.fit, VB.fit, SB.isImm, VB.isImm, VSrc.plain, -BitVec.getLsbD_eq_getElem]

theorem laid_QEnq (h : Hdr) (op : W8) (o : QEnq) (_ : ((chkQEnq h o).fn && (chkQEnq h o).fld && (chkQEnq h o).short) = true) :
    Laid h op (putQEnq (Raw.mk h op 0 0 0 0 0 0 0 0 0 0 0) o) ∧ getQEnq (putQEnq (Raw.mk h op 0 0 0 0 0 0 0 0 0 0 0) o) = o := by
  obtain ⟨kpx, qx, dx⟩ := o
  rcases hl : h.long with _ | _ <;>
    simp_all [laid_iff, chkQEnq, putQEnq, getQEnq, Raw.imm, Raw.immS, Raw.immU, Raw.immSB, Raw.putA, Raw.putB, Raw.putC, Raw.putVB, Raw.srcA, Raw.srcB, Raw.srcC, Raw.vb, Raw.vbU,
      Raw.sb, Raw.sbU, Raw.rm, Raw.half, Raw.sat, Raw.u, Raw.width, Raw.fnLo, Raw.fnHi, Raw.ord, Raw.sp, Raw.z, Raw.scope, Raw.sel,
      putRoff, getRoff, putAtom, Raw.atom, Raw.putAddr, Raw.addr, Raw.putBar, Raw.bar, Raw.barD, Bar.fld, Bar.isCluster, Raw.rnd,
      SB.below, VB.below, Addr.isVec, Width.bits, Raw.word1, SB.fit, VB.fit, SB.isImm, VB.isImm, VSrc.plain, -BitVec.getLsbD_eq_getElem]

theorem laid_QDeq (h : Hdr) (op : W8) (o : QDeq) (hw : ((chkQDeq h o).fn && (chkQDeq h o).fld && (chkQDeq h o).short) = true) :
    Laid h op (putQDeq (Raw.mk h op 0 0 0 0 0 0 0 0 0 0 0) o) ∧ getQDeq (putQDeq (Raw.mk h op 0 0 0 0 0 0 0 0 0 0 0) o) = o := by
  obtain ⟨kpx, kex, dx, qx⟩ := o
  rcases hl : h.long with _ | _ <;>
    simp_all [laid_iff, chkQDeq, putQDeq, getQDeq, Raw.imm, Raw.immS, Raw.immU, Raw.immSB, Raw.putA, Raw.putB, Raw.putC, Raw.putVB, Raw.srcA, Raw.srcB, Raw.srcC, Raw.vb, Raw.vbU,
      Raw.sb, Raw.sbU, Raw.rm, Raw.half, Raw.sat, Raw.u, Raw.width, Raw.fnLo, Raw.fnHi, Raw.ord, Raw.sp, Raw.z, Raw.scope, Raw.sel,
      putRoff, getRoff, putAtom, Raw.atom, Raw.putAddr, Raw.addr, Raw.putBar, Raw.bar, Raw.barD, Bar.fld, Bar.isCluster, Raw.rnd,
      SB.below, VB.below, Addr.isVec, Width.bits, Raw.word1, SB.fit, VB.fit, SB.isImm, VB.isImm, VSrc.plain, -BitVec.getLsbD_eq_getElem]

theorem laid_QA (h : Hdr) (op : W8) (o : QReg) (_ : ((chkQA h o).fn && (chkQA h o).fld && (chkQA h o).short) = true) :
    Laid h op (putQA (Raw.mk h op 0 0 0 0 0 0 0 0 0 0 0) o) ∧ getQA (putQA (Raw.mk h op 0 0 0 0 0 0 0 0 0 0 0) o) = o := by
  rcases hl : h.long with _ | _ <;>
    simp_all [laid_iff, chkQA, putQA, getQA, Raw.imm, Raw.immS, Raw.immU, Raw.immSB, Raw.putA, Raw.putB, Raw.putC, Raw.putVB, Raw.srcA, Raw.srcB, Raw.srcC, Raw.vb, Raw.vbU,
      Raw.sb, Raw.sbU, Raw.rm, Raw.half, Raw.sat, Raw.u, Raw.width, Raw.fnLo, Raw.fnHi, Raw.ord, Raw.sp, Raw.z, Raw.scope, Raw.sel,
      putRoff, getRoff, putAtom, Raw.atom, Raw.putAddr, Raw.addr, Raw.putBar, Raw.bar, Raw.barD, Bar.fld, Bar.isCluster, Raw.rnd,
      SB.below, VB.below, Addr.isVec, Width.bits, Raw.word1, SB.fit, VB.fit, SB.isImm, VB.isImm, VSrc.plain, -BitVec.getLsbD_eq_getElem]

theorem laid_Rwq (h : Hdr) (op : W8) (o : Rwq) (_ : ((chkRwq h o).fn && (chkRwq h o).fld && (chkRwq h o).short) = true) :
    Laid h op (putRwq (Raw.mk h op 0 0 0 0 0 0 0 0 0 0 0) o) ∧ getRwq (putRwq (Raw.mk h op 0 0 0 0 0 0 0 0 0 0 0) o) = o := by
  obtain ⟨kpx, qx, dx, bx⟩ := o
  rcases hl : h.long with _ | _ <;>
    simp_all [laid_iff, chkRwq, putRwq, getRwq, Raw.imm, Raw.immS, Raw.immU, Raw.immSB, Raw.putA, Raw.putB, Raw.putC, Raw.putVB, Raw.srcA, Raw.srcB, Raw.srcC, Raw.vb, Raw.vbU,
      Raw.sb, Raw.sbU, Raw.rm, Raw.half, Raw.sat, Raw.u, Raw.width, Raw.fnLo, Raw.fnHi, Raw.ord, Raw.sp, Raw.z, Raw.scope, Raw.sel,
      putRoff, getRoff, putAtom, Raw.atom, Raw.putAddr, Raw.addr, Raw.putBar, Raw.bar, Raw.barD, Bar.fld, Bar.isCluster, Raw.rnd,
      SB.below, VB.below, Addr.isVec, Width.bits, Raw.word1, SB.fit, VB.fit, SB.isImm, VB.isImm, VSrc.plain, -BitVec.getLsbD_eq_getElem]

theorem laid_Launch (h : Hdr) (op : W8) (o : Launch) (hw : ((chkLaunch h o).fn && (chkLaunch h o).fld && (chkLaunch h o).short) = true) :
    Laid h op (putLaunch (Raw.mk h op 0 0 0 0 0 0 0 0 0 0 0) o) ∧ getLaunch (putLaunch (Raw.mk h op 0 0 0 0 0 0 0 0 0 0 0) o) = o := by
  obtain ⟨kpx, dx, ax⟩ := o
  rcases hl : h.long with _ | _ <;>
    simp_all [laid_iff, chkLaunch, putLaunch, getLaunch, Raw.imm, Raw.immS, Raw.immU, Raw.immSB, Raw.putA, Raw.putB, Raw.putC, Raw.putVB, Raw.srcA, Raw.srcB, Raw.srcC, Raw.vb, Raw.vbU,
      Raw.sb, Raw.sbU, Raw.rm, Raw.half, Raw.sat, Raw.u, Raw.width, Raw.fnLo, Raw.fnHi, Raw.ord, Raw.sp, Raw.z, Raw.scope, Raw.sel,
      putRoff, getRoff, putAtom, Raw.atom, Raw.putAddr, Raw.addr, Raw.putBar, Raw.bar, Raw.barD, Bar.fld, Bar.isCluster, Raw.rnd,
      SB.below, VB.below, Addr.isVec, Width.bits, Raw.word1, SB.fit, VB.fit, SB.isImm, VB.isImm, VSrc.plain, -BitVec.getLsbD_eq_getElem]

theorem laid_LWait (h : Hdr) (op : W8) (o : LWait) (_ : ((chkLWait h o).fn && (chkLWait h o).fld && (chkLWait h o).short) = true) :
    Laid h op (putLWait (Raw.mk h op 0 0 0 0 0 0 0 0 0 0 0) o) ∧ getLWait (putLWait (Raw.mk h op 0 0 0 0 0 0 0 0 0 0 0) o) = o := by
  obtain ⟨dx, ax⟩ := o
  rcases hl : h.long with _ | _ <;>
    simp_all [laid_iff, chkLWait, putLWait, getLWait, Raw.imm, Raw.immS, Raw.immU, Raw.immSB, Raw.putA, Raw.putB, Raw.putC, Raw.putVB, Raw.srcA, Raw.srcB, Raw.srcC, Raw.vb, Raw.vbU,
      Raw.sb, Raw.sbU, Raw.rm, Raw.half, Raw.sat, Raw.u, Raw.width, Raw.fnLo, Raw.fnHi, Raw.ord, Raw.sp, Raw.z, Raw.scope, Raw.sel,
      putRoff, getRoff, putAtom, Raw.atom, Raw.putAddr, Raw.addr, Raw.putBar, Raw.bar, Raw.barD, Bar.fld, Bar.isCluster, Raw.rnd,
      SB.below, VB.below, Addr.isVec, Width.bits, Raw.word1, SB.fit, VB.fit, SB.isImm, VB.isImm, VSrc.plain, -BitVec.getLsbD_eq_getElem]

theorem laid_TrapN (h : Hdr) (op : W8) (o : W8) (_ : ((chkTrapN h o).fn && (chkTrapN h o).fld && (chkTrapN h o).short) = true) :
    Laid h op (putTrapN (Raw.mk h op 0 0 0 0 0 0 0 0 0 0 0) o) ∧ getTrapN (putTrapN (Raw.mk h op 0 0 0 0 0 0 0 0 0 0 0) o) = o := by
  rcases hl : h.long with _ | _ <;>
    simp_all [laid_iff, chkTrapN, putTrapN, getTrapN, Raw.imm, Raw.immS, Raw.immU, Raw.immSB, Raw.putA, Raw.putB, Raw.putC, Raw.putVB, Raw.srcA, Raw.srcB, Raw.srcC, Raw.vb, Raw.vbU,
      Raw.sb, Raw.sbU, Raw.rm, Raw.half, Raw.sat, Raw.u, Raw.width, Raw.fnLo, Raw.fnHi, Raw.ord, Raw.sp, Raw.z, Raw.scope, Raw.sel,
      putRoff, getRoff, putAtom, Raw.atom, Raw.putAddr, Raw.addr, Raw.putBar, Raw.bar, Raw.barD, Bar.fld, Bar.isCluster, Raw.rnd,
      SB.below, VB.below, Addr.isVec, Width.bits, Raw.word1, SB.fit, VB.fit, SB.isImm, VB.isImm, VSrc.plain, -BitVec.getLsbD_eq_getElem]

theorem laid_BrkN (h : Hdr) (op : W8) (o : BitVec 12) (_ : ((chkBrkN h o).fn && (chkBrkN h o).fld && (chkBrkN h o).short) = true) :
    Laid h op (putBrkN (Raw.mk h op 0 0 0 0 0 0 0 0 0 0 0) o) ∧ getBrkN (putBrkN (Raw.mk h op 0 0 0 0 0 0 0 0 0 0 0) o) = o := by
  rcases hl : h.long with _ | _ <;>
    simp_all [laid_iff, chkBrkN, putBrkN, getBrkN, Raw.imm, Raw.immS, Raw.immU, Raw.immSB, Raw.putA, Raw.putB, Raw.putC, Raw.putVB, Raw.srcA, Raw.srcB, Raw.srcC, Raw.vb, Raw.vbU,
      Raw.sb, Raw.sbU, Raw.rm, Raw.half, Raw.sat, Raw.u, Raw.width, Raw.fnLo, Raw.fnHi, Raw.ord, Raw.sp, Raw.z, Raw.scope, Raw.sel,
      putRoff, getRoff, putAtom, Raw.atom, Raw.putAddr, Raw.addr, Raw.putBar, Raw.bar, Raw.barD, Bar.fld, Bar.isCluster, Raw.rnd,
      SB.below, VB.below, Addr.isVec, Width.bits, Raw.word1, SB.fit, VB.fit, SB.isImm, VB.isImm, VSrc.plain, -BitVec.getLsbD_eq_getElem]

theorem laid_Flag (h : Hdr) (op : W8) (o : Bool) (_ : ((chkFlag h o).fn && (chkFlag h o).fld && (chkFlag h o).short) = true) :
    Laid h op (putFlag (Raw.mk h op 0 0 0 0 0 0 0 0 0 0 0) o) ∧ getFlag (putFlag (Raw.mk h op 0 0 0 0 0 0 0 0 0 0 0) o) = o := by
  rcases hl : h.long with _ | _ <;>
    simp_all [laid_iff, chkFlag, putFlag, getFlag, Raw.imm, Raw.immS, Raw.immU, Raw.immSB, Raw.putA, Raw.putB, Raw.putC, Raw.putVB, Raw.srcA, Raw.srcB, Raw.srcC, Raw.vb, Raw.vbU,
      Raw.sb, Raw.sbU, Raw.rm, Raw.half, Raw.sat, Raw.u, Raw.width, Raw.fnLo, Raw.fnHi, Raw.ord, Raw.sp, Raw.z, Raw.scope, Raw.sel,
      putRoff, getRoff, putAtom, Raw.atom, Raw.putAddr, Raw.addr, Raw.putBar, Raw.bar, Raw.barD, Bar.fld, Bar.isCluster, Raw.rnd,
      SB.below, VB.below, Addr.isVec, Width.bits, Raw.word1, SB.fit, VB.fit, SB.isImm, VB.isImm, VSrc.plain, -BitVec.getLsbD_eq_getElem]

theorem laid_Crd (h : Hdr) (op : W8) (o : Crd) (hw : ((chkCrd h o).fn && (chkCrd h o).fld && (chkCrd h o).short) = true) :
    Laid h op (putCrd (Raw.mk h op 0 0 0 0 0 0 0 0 0 0 0) o) ∧ getCrd (putCrd (Raw.mk h op 0 0 0 0 0 0 0 0 0 0 0) o) = o := by
  rcases hl : h.long with _ | _ <;> rcases o with ⟨n, d⟩ | d | d <;> (try have h13 := crName_faddr n) <;> (try have h14 := crName_rngs n) <;>
    simp_all [laid_iff, chkCrd, putCrd, getCrd, Raw.imm, Raw.immS, Raw.immU, Raw.immSB, Raw.putA, Raw.putB, Raw.putC, Raw.putVB, Raw.srcA, Raw.srcB, Raw.srcC, Raw.vb, Raw.vbU,
      Raw.sb, Raw.sbU, Raw.rm, Raw.half, Raw.sat, Raw.u, Raw.width, Raw.fnLo, Raw.fnHi, Raw.ord, Raw.sp, Raw.z, Raw.scope, Raw.sel,
      putRoff, getRoff, putAtom, Raw.atom, Raw.putAddr, Raw.addr, Raw.putBar, Raw.bar, Raw.barD, Bar.fld, Bar.isCluster, Raw.rnd,
      SB.below, VB.below, Addr.isVec, Width.bits, Raw.word1, SB.fit, VB.fit, SB.isImm, VB.isImm, VSrc.plain, -BitVec.getLsbD_eq_getElem]

theorem laid_Cwr (h : Hdr) (op : W8) (o : Cwr) (hw : ((chkCwr h o).fn && (chkCwr h o).fld && (chkCwr h o).short) = true) :
    Laid h op (putCwr (Raw.mk h op 0 0 0 0 0 0 0 0 0 0 0) o) ∧ getCwr (putCwr (Raw.mk h op 0 0 0 0 0 0 0 0 0 0 0) o) = o := by
  rcases hl : h.long with _ | _ <;> rcases o with ⟨n, d⟩ | d | d <;> (try have h13 := cwName_faddr n) <;> (try have h14 := cwName_rngs n) <;>
    simp_all [laid_iff, chkCwr, putCwr, getCwr, Raw.imm, Raw.immS, Raw.immU, Raw.immSB, Raw.putA, Raw.putB, Raw.putC, Raw.putVB, Raw.srcA, Raw.srcB, Raw.srcC, Raw.vb, Raw.vbU,
      Raw.sb, Raw.sbU, Raw.rm, Raw.half, Raw.sat, Raw.u, Raw.width, Raw.fnLo, Raw.fnHi, Raw.ord, Raw.sp, Raw.z, Raw.scope, Raw.sel,
      putRoff, getRoff, putAtom, Raw.atom, Raw.putAddr, Raw.addr, Raw.putBar, Raw.bar, Raw.barD, Bar.fld, Bar.isCluster, Raw.rnd,
      SB.below, VB.below, Addr.isVec, Width.bits, Raw.word1, SB.fit, VB.fit, SB.isImm, VB.isImm, VSrc.plain, -BitVec.getLsbD_eq_getElem]

theorem laid_GrowN (h : Hdr) (op : W8) (o : BitVec 4) (hw : ((chkGrowN h o).fn && (chkGrowN h o).fld && (chkGrowN h o).short) = true) :
    Laid h op (putGrowN (Raw.mk h op 0 0 0 0 0 0 0 0 0 0 0) o) ∧ getGrowN (putGrowN (Raw.mk h op 0 0 0 0 0 0 0 0 0 0 0) o) = o := by
  rcases hl : h.long with _ | _ <;>
    simp_all [laid_iff, chkGrowN, putGrowN, getGrowN, Raw.imm, Raw.immS, Raw.immU, Raw.immSB, Raw.putA, Raw.putB, Raw.putC, Raw.putVB, Raw.srcA, Raw.srcB, Raw.srcC, Raw.vb, Raw.vbU,
      Raw.sb, Raw.sbU, Raw.rm, Raw.half, Raw.sat, Raw.u, Raw.width, Raw.fnLo, Raw.fnHi, Raw.ord, Raw.sp, Raw.z, Raw.scope, Raw.sel,
      putRoff, getRoff, putAtom, Raw.atom, Raw.putAddr, Raw.addr, Raw.putBar, Raw.bar, Raw.barD, Bar.fld, Bar.isCluster, Raw.rnd,
      SB.below, VB.below, Addr.isVec, Width.bits, Raw.word1, SB.fit, VB.fit, SB.isImm, VB.isImm, VSrc.plain, -BitVec.getLsbD_eq_getElem]

theorem laid_Clock (h : Hdr) (op : W8) (o : Clock) (_ : ((chkClock h o).fn && (chkClock h o).fld && (chkClock h o).short) = true) :
    Laid h op (putClock (Raw.mk h op 0 0 0 0 0 0 0 0 0 0 0) o) ∧ getClock (putClock (Raw.mk h op 0 0 0 0 0 0 0 0 0 0 0) o) = o := by
  obtain ⟨fracx, dx⟩ := o
  rcases hl : h.long with _ | _ <;>
    simp_all [laid_iff, chkClock, putClock, getClock, Raw.imm, Raw.immS, Raw.immU, Raw.immSB, Raw.putA, Raw.putB, Raw.putC, Raw.putVB, Raw.srcA, Raw.srcB, Raw.srcC, Raw.vb, Raw.vbU,
      Raw.sb, Raw.sbU, Raw.rm, Raw.half, Raw.sat, Raw.u, Raw.width, Raw.fnLo, Raw.fnHi, Raw.ord, Raw.sp, Raw.z, Raw.scope, Raw.sel,
      putRoff, getRoff, putAtom, Raw.atom, Raw.putAddr, Raw.addr, Raw.putBar, Raw.bar, Raw.barD, Bar.fld, Bar.isCluster, Raw.rnd,
      SB.below, VB.below, Addr.isVec, Width.bits, Raw.word1, SB.fit, VB.fit, SB.isImm, VB.isImm, VSrc.plain, -BitVec.getLsbD_eq_getElem]

theorem laid_PgMap (h : Hdr) (op : W8) (o : PgMap) (_ : ((chkPgMap h o).fn && (chkPgMap h o).fld && (chkPgMap h o).short) = true) :
    Laid h op (putPgMap (Raw.mk h op 0 0 0 0 0 0 0 0 0 0 0) o) ∧ getPgMap (putPgMap (Raw.mk h op 0 0 0 0 0 0 0 0 0 0 0) o) = o := by
  obtain ⟨zx, dx, ax, bx⟩ := o
  rcases hl : h.long with _ | _ <;>
    simp_all [laid_iff, chkPgMap, putPgMap, getPgMap, Raw.imm, Raw.immS, Raw.immU, Raw.immSB, Raw.putA, Raw.putB, Raw.putC, Raw.putVB, Raw.srcA, Raw.srcB, Raw.srcC, Raw.vb, Raw.vbU,
      Raw.sb, Raw.sbU, Raw.rm, Raw.half, Raw.sat, Raw.u, Raw.width, Raw.fnLo, Raw.fnHi, Raw.ord, Raw.sp, Raw.z, Raw.scope, Raw.sel,
      putRoff, getRoff, putAtom, Raw.atom, Raw.putAddr, Raw.addr, Raw.putBar, Raw.bar, Raw.barD, Bar.fld, Bar.isCluster, Raw.rnd,
      SB.below, VB.below, Addr.isVec, Width.bits, Raw.word1, SB.fit, VB.fit, SB.isImm, VB.isImm, VSrc.plain, -BitVec.getLsbD_eq_getElem]

theorem laid_TlbInv (h : Hdr) (op : W8) (o : Option SReg) (_ : ((chkTlbInv h o).fn && (chkTlbInv h o).fld && (chkTlbInv h o).short) = true) :
    Laid h op (putTlbInv (Raw.mk h op 0 0 0 0 0 0 0 0 0 0 0) o) ∧ getTlbInv (putTlbInv (Raw.mk h op 0 0 0 0 0 0 0 0 0 0 0) o) = o := by
  rcases hl : h.long with _ | _ <;> cases o <;>
    simp_all [laid_iff, chkTlbInv, putTlbInv, getTlbInv, Raw.imm, Raw.immS, Raw.immU, Raw.immSB, Raw.putA, Raw.putB, Raw.putC, Raw.putVB, Raw.srcA, Raw.srcB, Raw.srcC, Raw.vb, Raw.vbU,
      Raw.sb, Raw.sbU, Raw.rm, Raw.half, Raw.sat, Raw.u, Raw.width, Raw.fnLo, Raw.fnHi, Raw.ord, Raw.sp, Raw.z, Raw.scope, Raw.sel,
      putRoff, getRoff, putAtom, Raw.atom, Raw.putAddr, Raw.addr, Raw.putBar, Raw.bar, Raw.barD, Bar.fld, Bar.isCluster, Raw.rnd,
      SB.below, VB.below, Addr.isVec, Width.bits, Raw.word1, SB.fit, VB.fit, SB.isImm, VB.isImm, VSrc.plain, -BitVec.getLsbD_eq_getElem]

theorem laid_ShEv (h : Hdr) (op : W8) (o : ShEv) (_ : ((chkShEv h o).fn && (chkShEv h o).fld && (chkShEv h o).short) = true) :
    Laid h op (putShEv (Raw.mk h op 0 0 0 0 0 0 0 0 0 0 0) o) ∧ getShEv (putShEv (Raw.mk h op 0 0 0 0 0 0 0 0 0 0 0) o) = o := by
  obtain ⟨ax, bx⟩ := o
  rcases hl : h.long with _ | _ <;>
    simp_all [laid_iff, chkShEv, putShEv, getShEv, Raw.imm, Raw.immS, Raw.immU, Raw.immSB, Raw.putA, Raw.putB, Raw.putC, Raw.putVB, Raw.srcA, Raw.srcB, Raw.srcC, Raw.vb, Raw.vbU,
      Raw.sb, Raw.sbU, Raw.rm, Raw.half, Raw.sat, Raw.u, Raw.width, Raw.fnLo, Raw.fnHi, Raw.ord, Raw.sp, Raw.z, Raw.scope, Raw.sel,
      putRoff, getRoff, putAtom, Raw.atom, Raw.putAddr, Raw.addr, Raw.putBar, Raw.bar, Raw.barD, Bar.fld, Bar.isCluster, Raw.rnd,
      SB.below, VB.below, Addr.isVec, Width.bits, Raw.word1, SB.fit, VB.fit, SB.isImm, VB.isImm, VSrc.plain, -BitVec.getLsbD_eq_getElem]

theorem laid_KBin (h : Hdr) (op : W8) (fn : W8) (o : KBin) (_ : ((chkKBin h o).fn && (chkKBin h o).fld && (chkKBin h o).short) = true) :
    Laid h op (putKBin (Raw.mk h op 0 0 0 fn 0 0 0 0 0 0 0) o) ∧ getKBin (putKBin (Raw.mk h op 0 0 0 fn 0 0 0 0 0 0 0) o) = o := by
  obtain ⟨dx, ax, bx⟩ := o
  rcases hl : h.long with _ | _ <;>
    simp_all [laid_iff, chkKBin, putKBin, getKBin, Raw.imm, Raw.immS, Raw.immU, Raw.immSB, Raw.putA, Raw.putB, Raw.putC, Raw.putVB, Raw.srcA, Raw.srcB, Raw.srcC, Raw.vb, Raw.vbU,
      Raw.sb, Raw.sbU, Raw.rm, Raw.half, Raw.sat, Raw.u, Raw.width, Raw.fnLo, Raw.fnHi, Raw.ord, Raw.sp, Raw.z, Raw.scope, Raw.sel,
      putRoff, getRoff, putAtom, Raw.atom, Raw.putAddr, Raw.addr, Raw.putBar, Raw.bar, Raw.barD, Bar.fld, Bar.isCluster, Raw.rnd,
      SB.below, VB.below, Addr.isVec, Width.bits, Raw.word1, SB.fit, VB.fit, SB.isImm, VB.isImm, VSrc.plain, -BitVec.getLsbD_eq_getElem]

theorem laid_KUn (h : Hdr) (op : W8) (fn : W8) (o : KUn) (_ : ((chkKUn h o).fn && (chkKUn h o).fld && (chkKUn h o).short) = true) :
    Laid h op (putKUn (Raw.mk h op 0 0 0 fn 0 0 0 0 0 0 0) o) ∧ getKUn (putKUn (Raw.mk h op 0 0 0 fn 0 0 0 0 0 0 0) o) = o := by
  obtain ⟨dx, ax⟩ := o
  rcases hl : h.long with _ | _ <;>
    simp_all [laid_iff, chkKUn, putKUn, getKUn, Raw.imm, Raw.immS, Raw.immU, Raw.immSB, Raw.putA, Raw.putB, Raw.putC, Raw.putVB, Raw.srcA, Raw.srcB, Raw.srcC, Raw.vb, Raw.vbU,
      Raw.sb, Raw.sbU, Raw.rm, Raw.half, Raw.sat, Raw.u, Raw.width, Raw.fnLo, Raw.fnHi, Raw.ord, Raw.sp, Raw.z, Raw.scope, Raw.sel,
      putRoff, getRoff, putAtom, Raw.atom, Raw.putAddr, Raw.addr, Raw.putBar, Raw.bar, Raw.barD, Bar.fld, Bar.isCluster, Raw.rnd,
      SB.below, VB.below, Addr.isVec, Width.bits, Raw.word1, SB.fit, VB.fit, SB.isImm, VB.isImm, VSrc.plain, -BitVec.getLsbD_eq_getElem]

theorem laid_KRed (h : Hdr) (op : W8) (fn : W8) (o : KRed) (_ : ((chkKRed h o).fn && (chkKRed h o).fld && (chkKRed h o).short) = true) :
    Laid h op (putKRed (Raw.mk h op 0 0 0 fn 0 0 0 0 0 0 0) o) ∧ getKRed (putKRed (Raw.mk h op 0 0 0 fn 0 0 0 0 0 0 0) o) = o := by
  obtain ⟨dx, ax⟩ := o
  rcases hl : h.long with _ | _ <;>
    simp_all [laid_iff, chkKRed, putKRed, getKRed, Raw.imm, Raw.immS, Raw.immU, Raw.immSB, Raw.putA, Raw.putB, Raw.putC, Raw.putVB, Raw.srcA, Raw.srcB, Raw.srcC, Raw.vb, Raw.vbU,
      Raw.sb, Raw.sbU, Raw.rm, Raw.half, Raw.sat, Raw.u, Raw.width, Raw.fnLo, Raw.fnHi, Raw.ord, Raw.sp, Raw.z, Raw.scope, Raw.sel,
      putRoff, getRoff, putAtom, Raw.atom, Raw.putAddr, Raw.addr, Raw.putBar, Raw.bar, Raw.barD, Bar.fld, Bar.isCluster, Raw.rnd,
      SB.below, VB.below, Addr.isVec, Width.bits, Raw.word1, SB.fit, VB.fit, SB.isImm, VB.isImm, VSrc.plain, -BitVec.getLsbD_eq_getElem]

theorem laid_KSet (h : Hdr) (op : W8) (fn : W8) (o : KSet) (_ : ((chkKSet h o).fn && (chkKSet h o).fld && (chkKSet h o).short) = true) :
    Laid h op (putKSet (Raw.mk h op 0 0 0 fn 0 0 0 0 0 0 0) o) ∧ getKSet (putKSet (Raw.mk h op 0 0 0 fn 0 0 0 0 0 0 0) o) = o := by
  obtain ⟨dx, ax⟩ := o
  rcases hl : h.long with _ | _ <;>
    simp_all [laid_iff, chkKSet, putKSet, getKSet, Raw.imm, Raw.immS, Raw.immU, Raw.immSB, Raw.putA, Raw.putB, Raw.putC, Raw.putVB, Raw.srcA, Raw.srcB, Raw.srcC, Raw.vb, Raw.vbU,
      Raw.sb, Raw.sbU, Raw.rm, Raw.half, Raw.sat, Raw.u, Raw.width, Raw.fnLo, Raw.fnHi, Raw.ord, Raw.sp, Raw.z, Raw.scope, Raw.sel,
      putRoff, getRoff, putAtom, Raw.atom, Raw.putAddr, Raw.addr, Raw.putBar, Raw.bar, Raw.barD, Bar.fld, Bar.isCluster, Raw.rnd,
      SB.below, VB.below, Addr.isVec, Width.bits, Raw.word1, SB.fit, VB.fit, SB.isImm, VB.isImm, VSrc.plain, -BitVec.getLsbD_eq_getElem]

end Sys2Proof.Laws
end

