-- ==== Sys2Proof/Laws/State.lean ====
section
/-! SUPPORT. One lemma per field and update of the state: what an update leaves, and what a lookup after it gives. -/

namespace Sys2Proof.Machine

/-! ### setGroup -/

@[simp] theorem setGroup_mem (s : State) (k : Nat) (x : Group) : (s.setGroup k x).mem = s.mem := rfl
@[simp] theorem setGroup_fold (s : State) (k : Nat) (x : Group) : (s.setGroup k x).fold = s.fold := rfl
@[simp] theorem setGroup_groups (s : State) (k : Nat) (x : Group) : (s.setGroup k x).groups = s.groups.put k x := rfl
@[simp] theorem setGroup_teams (s : State) (k : Nat) (x : Group) : (s.setGroup k x).teams = s.teams := rfl
@[simp] theorem setGroup_clusters (s : State) (k : Nat) (x : Group) : (s.setGroup k x).clusters = s.clusters := rfl
@[simp] theorem setGroup_grids (s : State) (k : Nat) (x : Group) : (s.setGroup k x).grids = s.grids := rfl
@[simp] theorem setGroup_vfs (s : State) (k : Nat) (x : Group) : (s.setGroup k x).vfs = s.vfs := rfl
@[simp] theorem setGroup_wqs (s : State) (k : Nat) (x : Group) : (s.setGroup k x).wqs = s.wqs := rfl
@[simp] theorem setGroup_queues (s : State) (k : Nat) (x : Group) : (s.setGroup k x).queues = s.queues := rfl
@[simp] theorem setGroup_paddocks (s : State) (k : Nat) (x : Group) : (s.setGroup k x).paddocks = s.paddocks := rfl
@[simp] theorem setGroup_ports (s : State) (k : Nat) (x : Group) : (s.setGroup k x).ports = s.ports := rfl
@[simp] theorem setGroup_memPorts (s : State) (k : Nat) (x : Group) : (s.setGroup k x).memPorts = s.memPorts := rfl
@[simp] theorem setGroup_regions (s : State) (k : Nat) (x : Group) : (s.setGroup k x).regions = s.regions := rfl
@[simp] theorem setGroup_sets (s : State) (k : Nat) (x : Group) : (s.setGroup k x).sets = s.sets := rfl
@[simp] theorem setGroup_migrations (s : State) (k : Nat) (x : Group) : (s.setGroup k x).migrations = s.migrations := rfl
@[simp] theorem setGroup_tlb (s : State) (k : Nat) (x : Group) : (s.setGroup k x).tlb = s.tlb := rfl
@[simp] theorem setGroup_unit (s : State) (k : Nat) (x : Group) : (s.setGroup k x).unit = s.unit := rfl
@[simp] theorem setGroup_bell (s : State) (k : Nat) (x : Group) : (s.setGroup k x).bell = s.bell := rfl
@[simp] theorem setGroup_adj (s : State) (k : Nat) (x : Group) : (s.setGroup k x).adj = s.adj := rfl
@[simp] theorem setGroup_stepErr (s : State) (k : Nat) (x : Group) : (s.setGroup k x).stepErr = s.stepErr := rfl
@[simp] theorem setGroup_src (s : State) (k : Nat) (x : Group) : (s.setGroup k x).src = s.src := rfl
@[simp] theorem setGroup_latchHost (s : State) (k : Nat) (x : Group) : (s.setGroup k x).latchHost = s.latchHost := rfl
@[simp] theorem setGroup_latchCtl (s : State) (k : Nat) (x : Group) : (s.setGroup k x).latchCtl = s.latchCtl := rfl
@[simp] theorem setGroup_fwqbase (s : State) (k : Nat) (x : Group) : (s.setGroup k x).fwqbase = s.fwqbase := rfl
@[simp] theorem setGroup_fwcbase (s : State) (k : Nat) (x : Group) : (s.setGroup k x).fwcbase = s.fwcbase := rfl
@[simp] theorem setGroup_fwtail (s : State) (k : Nat) (x : Group) : (s.setGroup k x).fwtail = s.fwtail := rfl
@[simp] theorem setGroup_fwhead (s : State) (k : Nat) (x : Group) : (s.setGroup k x).fwhead = s.fwhead := rfl
@[simp] theorem setGroup_fwen (s : State) (k : Nat) (x : Group) : (s.setGroup k x).fwen = s.fwen := rfl
@[simp] theorem setGroup_fwlogn (s : State) (k : Nat) (x : Group) : (s.setGroup k x).fwlogn = s.fwlogn := rfl
@[simp] theorem setGroup_fwdone (s : State) (k : Nat) (x : Group) : (s.setGroup k x).fwdone = s.fwdone := rfl
@[simp] theorem setGroup_fwpend (s : State) (k : Nat) (x : Group) : (s.setGroup k x).fwpend = s.fwpend := rfl
@[simp] theorem setGroup_fwrun (s : State) (k : Nat) (x : Group) : (s.setGroup k x).fwrun = s.fwrun := rfl
@[simp] theorem setGroup_feat (s : State) (k : Nat) (x : Group) : (s.setGroup k x).feat = s.feat := rfl
@[simp] theorem setGroup_negotiated (s : State) (k : Nat) (x : Group) : (s.setGroup k x).negotiated = s.negotiated := rfl
@[simp] theorem setGroup_patch (s : State) (k : Nat) (x : Group) : (s.setGroup k x).patch = s.patch := rfl
@[simp] theorem setGroup_fuseSvn (s : State) (k : Nat) (x : Group) : (s.setGroup k x).fuseSvn = s.fuseSvn := rfl
@[simp] theorem setGroup_errLog (s : State) (k : Nat) (x : Group) : (s.setGroup k x).errLog = s.errLog := rfl
@[simp] theorem setGroup_errCount (s : State) (k : Nat) (x : Group) : (s.setGroup k x).errCount = s.errCount := rfl
@[simp] theorem setGroup_faulted (s : State) (k : Nat) (x : Group) : (s.setGroup k x).faulted = s.faulted := rfl
@[simp] theorem setGroup_ecc (s : State) (k : Nat) (x : Group) : (s.setGroup k x).ecc = s.ecc := rfl
@[simp] theorem setGroup_soft (s : State) (k : Nat) (x : Group) : (s.setGroup k x).soft = s.soft := rfl
@[simp] theorem setGroup_eccCorrected (s : State) (k : Nat) (x : Group) : (s.setGroup k x).eccCorrected = s.eccCorrected := rfl
@[simp] theorem setGroup_modnum (s : State) (k : Nat) (x : Group) : (s.setGroup k x).modnum = s.modnum := rfl
@[simp] theorem setGroup_bindings (s : State) (k : Nat) (x : Group) : (s.setGroup k x).bindings = s.bindings := rfl
@[simp] theorem setGroup_mhz (s : State) (k : Nat) (x : Group) : (s.setGroup k x).mhz = s.mhz := rfl
@[simp] theorem setGroup_cycles (s : State) (k : Nat) (x : Group) : (s.setGroup k x).cycles = s.cycles := rfl
@[simp] theorem setGroup_vgrowQ (s : State) (k : Nat) (x : Group) : (s.setGroup k x).vgrowQ = s.vgrowQ := rfl
@[simp] theorem setGroup_frozen (s : State) (k : Nat) (x : Group) : (s.setGroup k x).frozen = s.frozen := rfl
@[simp] theorem setGroup_frzFuse (s : State) (k : Nat) (x : Group) : (s.setGroup k x).frzFuse = s.frzFuse := rfl
@[simp] theorem setGroup_msix (s : State) (k : Nat) (x : Group) : (s.setGroup k x).msix = s.msix := rfl
@[simp] theorem setGroup_out (s : State) (k : Nat) (x : Group) : (s.setGroup k x).out = s.out := rfl
@[simp] theorem setGroup_evalVf (s : State) (k : Nat) (x : Group) : (s.setGroup k x).evalVf = s.evalVf := rfl
@[simp] theorem setGroup_cur (s : State) (k : Nat) (x : Group) : (s.setGroup k x).cur = s.cur := rfl
@[simp] theorem setGroup_agenda (s : State) (k : Nat) (x : Group) : (s.setGroup k x).agenda = s.agenda := rfl
@[simp] theorem setGroup_free (s : State) (k : Nat) (x : Group) : (s.setGroup k x).free = s.free := rfl
@[simp] theorem setGroup_handle (s : State) (k : Nat) (x : Group) : (s.setGroup k x).handle = s.handle := rfl
@[simp] theorem setGroup_walks (s : State) (k : Nat) (x : Group) : (s.setGroup k x).walks = s.walks := rfl
@[simp] theorem setGroup_misses (s : State) (k : Nat) (x : Group) : (s.setGroup k x).misses = s.misses := rfl
@[simp] theorem setGroup_asks (s : State) (k : Nat) (x : Group) : (s.setGroup k x).asks = s.asks := rfl
@[simp] theorem setGroup_held (s : State) (k : Nat) (x : Group) : (s.setGroup k x).held = s.held := rfl
@[simp] theorem setGroup_inbox (s : State) (k : Nat) (x : Group) : (s.setGroup k x).inbox = s.inbox := rfl
@[simp] theorem setGroup_pend (s : State) (k : Nat) (x : Group) : (s.setGroup k x).pend = s.pend := rfl
@[simp] theorem setGroup_uses (s : State) (k : Nat) (x : Group) : (s.setGroup k x).uses = s.uses := rfl
@[simp] theorem setGroup_l2 (s : State) (k : Nat) (x : Group) : (s.setGroup k x).l2 = s.l2 := rfl
@[simp] theorem setGroup_ptp (s : State) (k : Nat) (x : Group) : (s.setGroup k x).ptp = s.ptp := rfl
@[simp] theorem setGroup_sram (s : State) (k : Nat) (x : Group) : (s.setGroup k x).sram = s.sram := rfl
@[simp] theorem setGroup_frozenAt (s : State) (k : Nat) (x : Group) : (s.setGroup k x).frozenAt = s.frozenAt := rfl

/-! ### setTeam -/

@[simp] theorem setTeam_mem (s : State) (k : Nat) (x : Team) : (s.setTeam k x).mem = s.mem := rfl
@[simp] theorem setTeam_fold (s : State) (k : Nat) (x : Team) : (s.setTeam k x).fold = s.fold := rfl
@[simp] theorem setTeam_groups (s : State) (k : Nat) (x : Team) : (s.setTeam k x).groups = s.groups := rfl
@[simp] theorem setTeam_teams (s : State) (k : Nat) (x : Team) : (s.setTeam k x).teams = s.teams.put k x := rfl
@[simp] theorem setTeam_clusters (s : State) (k : Nat) (x : Team) : (s.setTeam k x).clusters = s.clusters := rfl
@[simp] theorem setTeam_grids (s : State) (k : Nat) (x : Team) : (s.setTeam k x).grids = s.grids := rfl
@[simp] theorem setTeam_vfs (s : State) (k : Nat) (x : Team) : (s.setTeam k x).vfs = s.vfs := rfl
@[simp] theorem setTeam_wqs (s : State) (k : Nat) (x : Team) : (s.setTeam k x).wqs = s.wqs := rfl
@[simp] theorem setTeam_queues (s : State) (k : Nat) (x : Team) : (s.setTeam k x).queues = s.queues := rfl
@[simp] theorem setTeam_paddocks (s : State) (k : Nat) (x : Team) : (s.setTeam k x).paddocks = s.paddocks := rfl
@[simp] theorem setTeam_ports (s : State) (k : Nat) (x : Team) : (s.setTeam k x).ports = s.ports := rfl
@[simp] theorem setTeam_memPorts (s : State) (k : Nat) (x : Team) : (s.setTeam k x).memPorts = s.memPorts := rfl
@[simp] theorem setTeam_regions (s : State) (k : Nat) (x : Team) : (s.setTeam k x).regions = s.regions := rfl
@[simp] theorem setTeam_sets (s : State) (k : Nat) (x : Team) : (s.setTeam k x).sets = s.sets := rfl
@[simp] theorem setTeam_migrations (s : State) (k : Nat) (x : Team) : (s.setTeam k x).migrations = s.migrations := rfl
@[simp] theorem setTeam_tlb (s : State) (k : Nat) (x : Team) : (s.setTeam k x).tlb = s.tlb := rfl
@[simp] theorem setTeam_unit (s : State) (k : Nat) (x : Team) : (s.setTeam k x).unit = s.unit := rfl
@[simp] theorem setTeam_bell (s : State) (k : Nat) (x : Team) : (s.setTeam k x).bell = s.bell := rfl
@[simp] theorem setTeam_adj (s : State) (k : Nat) (x : Team) : (s.setTeam k x).adj = s.adj := rfl
@[simp] theorem setTeam_stepErr (s : State) (k : Nat) (x : Team) : (s.setTeam k x).stepErr = s.stepErr := rfl
@[simp] theorem setTeam_src (s : State) (k : Nat) (x : Team) : (s.setTeam k x).src = s.src := rfl
@[simp] theorem setTeam_latchHost (s : State) (k : Nat) (x : Team) : (s.setTeam k x).latchHost = s.latchHost := rfl
@[simp] theorem setTeam_latchCtl (s : State) (k : Nat) (x : Team) : (s.setTeam k x).latchCtl = s.latchCtl := rfl
@[simp] theorem setTeam_fwqbase (s : State) (k : Nat) (x : Team) : (s.setTeam k x).fwqbase = s.fwqbase := rfl
@[simp] theorem setTeam_fwcbase (s : State) (k : Nat) (x : Team) : (s.setTeam k x).fwcbase = s.fwcbase := rfl
@[simp] theorem setTeam_fwtail (s : State) (k : Nat) (x : Team) : (s.setTeam k x).fwtail = s.fwtail := rfl
@[simp] theorem setTeam_fwhead (s : State) (k : Nat) (x : Team) : (s.setTeam k x).fwhead = s.fwhead := rfl
@[simp] theorem setTeam_fwen (s : State) (k : Nat) (x : Team) : (s.setTeam k x).fwen = s.fwen := rfl
@[simp] theorem setTeam_fwlogn (s : State) (k : Nat) (x : Team) : (s.setTeam k x).fwlogn = s.fwlogn := rfl
@[simp] theorem setTeam_fwdone (s : State) (k : Nat) (x : Team) : (s.setTeam k x).fwdone = s.fwdone := rfl
@[simp] theorem setTeam_fwpend (s : State) (k : Nat) (x : Team) : (s.setTeam k x).fwpend = s.fwpend := rfl
@[simp] theorem setTeam_fwrun (s : State) (k : Nat) (x : Team) : (s.setTeam k x).fwrun = s.fwrun := rfl
@[simp] theorem setTeam_feat (s : State) (k : Nat) (x : Team) : (s.setTeam k x).feat = s.feat := rfl
@[simp] theorem setTeam_negotiated (s : State) (k : Nat) (x : Team) : (s.setTeam k x).negotiated = s.negotiated := rfl
@[simp] theorem setTeam_patch (s : State) (k : Nat) (x : Team) : (s.setTeam k x).patch = s.patch := rfl
@[simp] theorem setTeam_fuseSvn (s : State) (k : Nat) (x : Team) : (s.setTeam k x).fuseSvn = s.fuseSvn := rfl
@[simp] theorem setTeam_errLog (s : State) (k : Nat) (x : Team) : (s.setTeam k x).errLog = s.errLog := rfl
@[simp] theorem setTeam_errCount (s : State) (k : Nat) (x : Team) : (s.setTeam k x).errCount = s.errCount := rfl
@[simp] theorem setTeam_faulted (s : State) (k : Nat) (x : Team) : (s.setTeam k x).faulted = s.faulted := rfl
@[simp] theorem setTeam_ecc (s : State) (k : Nat) (x : Team) : (s.setTeam k x).ecc = s.ecc := rfl
@[simp] theorem setTeam_soft (s : State) (k : Nat) (x : Team) : (s.setTeam k x).soft = s.soft := rfl
@[simp] theorem setTeam_eccCorrected (s : State) (k : Nat) (x : Team) : (s.setTeam k x).eccCorrected = s.eccCorrected := rfl
@[simp] theorem setTeam_modnum (s : State) (k : Nat) (x : Team) : (s.setTeam k x).modnum = s.modnum := rfl
@[simp] theorem setTeam_bindings (s : State) (k : Nat) (x : Team) : (s.setTeam k x).bindings = s.bindings := rfl
@[simp] theorem setTeam_mhz (s : State) (k : Nat) (x : Team) : (s.setTeam k x).mhz = s.mhz := rfl
@[simp] theorem setTeam_cycles (s : State) (k : Nat) (x : Team) : (s.setTeam k x).cycles = s.cycles := rfl
@[simp] theorem setTeam_vgrowQ (s : State) (k : Nat) (x : Team) : (s.setTeam k x).vgrowQ = s.vgrowQ := rfl
@[simp] theorem setTeam_frozen (s : State) (k : Nat) (x : Team) : (s.setTeam k x).frozen = s.frozen := rfl
@[simp] theorem setTeam_frzFuse (s : State) (k : Nat) (x : Team) : (s.setTeam k x).frzFuse = s.frzFuse := rfl
@[simp] theorem setTeam_msix (s : State) (k : Nat) (x : Team) : (s.setTeam k x).msix = s.msix := rfl
@[simp] theorem setTeam_out (s : State) (k : Nat) (x : Team) : (s.setTeam k x).out = s.out := rfl
@[simp] theorem setTeam_evalVf (s : State) (k : Nat) (x : Team) : (s.setTeam k x).evalVf = s.evalVf := rfl
@[simp] theorem setTeam_cur (s : State) (k : Nat) (x : Team) : (s.setTeam k x).cur = s.cur := rfl
@[simp] theorem setTeam_agenda (s : State) (k : Nat) (x : Team) : (s.setTeam k x).agenda = s.agenda := rfl
@[simp] theorem setTeam_free (s : State) (k : Nat) (x : Team) : (s.setTeam k x).free = s.free := rfl
@[simp] theorem setTeam_handle (s : State) (k : Nat) (x : Team) : (s.setTeam k x).handle = s.handle := rfl
@[simp] theorem setTeam_walks (s : State) (k : Nat) (x : Team) : (s.setTeam k x).walks = s.walks := rfl
@[simp] theorem setTeam_misses (s : State) (k : Nat) (x : Team) : (s.setTeam k x).misses = s.misses := rfl
@[simp] theorem setTeam_asks (s : State) (k : Nat) (x : Team) : (s.setTeam k x).asks = s.asks := rfl
@[simp] theorem setTeam_held (s : State) (k : Nat) (x : Team) : (s.setTeam k x).held = s.held := rfl
@[simp] theorem setTeam_inbox (s : State) (k : Nat) (x : Team) : (s.setTeam k x).inbox = s.inbox := rfl
@[simp] theorem setTeam_pend (s : State) (k : Nat) (x : Team) : (s.setTeam k x).pend = s.pend := rfl
@[simp] theorem setTeam_uses (s : State) (k : Nat) (x : Team) : (s.setTeam k x).uses = s.uses := rfl
@[simp] theorem setTeam_l2 (s : State) (k : Nat) (x : Team) : (s.setTeam k x).l2 = s.l2 := rfl
@[simp] theorem setTeam_ptp (s : State) (k : Nat) (x : Team) : (s.setTeam k x).ptp = s.ptp := rfl
@[simp] theorem setTeam_sram (s : State) (k : Nat) (x : Team) : (s.setTeam k x).sram = s.sram := rfl
@[simp] theorem setTeam_frozenAt (s : State) (k : Nat) (x : Team) : (s.setTeam k x).frozenAt = s.frozenAt := rfl

/-! ### setCluster -/

@[simp] theorem setCluster_mem (s : State) (k : Nat) (x : Cluster) : (s.setCluster k x).mem = s.mem := rfl
@[simp] theorem setCluster_fold (s : State) (k : Nat) (x : Cluster) : (s.setCluster k x).fold = s.fold := rfl
@[simp] theorem setCluster_groups (s : State) (k : Nat) (x : Cluster) : (s.setCluster k x).groups = s.groups := rfl
@[simp] theorem setCluster_teams (s : State) (k : Nat) (x : Cluster) : (s.setCluster k x).teams = s.teams := rfl
@[simp] theorem setCluster_clusters (s : State) (k : Nat) (x : Cluster) : (s.setCluster k x).clusters = s.clusters.put k x := rfl
@[simp] theorem setCluster_grids (s : State) (k : Nat) (x : Cluster) : (s.setCluster k x).grids = s.grids := rfl
@[simp] theorem setCluster_vfs (s : State) (k : Nat) (x : Cluster) : (s.setCluster k x).vfs = s.vfs := rfl
@[simp] theorem setCluster_wqs (s : State) (k : Nat) (x : Cluster) : (s.setCluster k x).wqs = s.wqs := rfl
@[simp] theorem setCluster_queues (s : State) (k : Nat) (x : Cluster) : (s.setCluster k x).queues = s.queues := rfl
@[simp] theorem setCluster_paddocks (s : State) (k : Nat) (x : Cluster) : (s.setCluster k x).paddocks = s.paddocks := rfl
@[simp] theorem setCluster_ports (s : State) (k : Nat) (x : Cluster) : (s.setCluster k x).ports = s.ports := rfl
@[simp] theorem setCluster_memPorts (s : State) (k : Nat) (x : Cluster) : (s.setCluster k x).memPorts = s.memPorts := rfl
@[simp] theorem setCluster_regions (s : State) (k : Nat) (x : Cluster) : (s.setCluster k x).regions = s.regions := rfl
@[simp] theorem setCluster_sets (s : State) (k : Nat) (x : Cluster) : (s.setCluster k x).sets = s.sets := rfl
@[simp] theorem setCluster_migrations (s : State) (k : Nat) (x : Cluster) : (s.setCluster k x).migrations = s.migrations := rfl
@[simp] theorem setCluster_tlb (s : State) (k : Nat) (x : Cluster) : (s.setCluster k x).tlb = s.tlb := rfl
@[simp] theorem setCluster_unit (s : State) (k : Nat) (x : Cluster) : (s.setCluster k x).unit = s.unit := rfl
@[simp] theorem setCluster_bell (s : State) (k : Nat) (x : Cluster) : (s.setCluster k x).bell = s.bell := rfl
@[simp] theorem setCluster_adj (s : State) (k : Nat) (x : Cluster) : (s.setCluster k x).adj = s.adj := rfl
@[simp] theorem setCluster_stepErr (s : State) (k : Nat) (x : Cluster) : (s.setCluster k x).stepErr = s.stepErr := rfl
@[simp] theorem setCluster_src (s : State) (k : Nat) (x : Cluster) : (s.setCluster k x).src = s.src := rfl
@[simp] theorem setCluster_latchHost (s : State) (k : Nat) (x : Cluster) : (s.setCluster k x).latchHost = s.latchHost := rfl
@[simp] theorem setCluster_latchCtl (s : State) (k : Nat) (x : Cluster) : (s.setCluster k x).latchCtl = s.latchCtl := rfl
@[simp] theorem setCluster_fwqbase (s : State) (k : Nat) (x : Cluster) : (s.setCluster k x).fwqbase = s.fwqbase := rfl
@[simp] theorem setCluster_fwcbase (s : State) (k : Nat) (x : Cluster) : (s.setCluster k x).fwcbase = s.fwcbase := rfl
@[simp] theorem setCluster_fwtail (s : State) (k : Nat) (x : Cluster) : (s.setCluster k x).fwtail = s.fwtail := rfl
@[simp] theorem setCluster_fwhead (s : State) (k : Nat) (x : Cluster) : (s.setCluster k x).fwhead = s.fwhead := rfl
@[simp] theorem setCluster_fwen (s : State) (k : Nat) (x : Cluster) : (s.setCluster k x).fwen = s.fwen := rfl
@[simp] theorem setCluster_fwlogn (s : State) (k : Nat) (x : Cluster) : (s.setCluster k x).fwlogn = s.fwlogn := rfl
@[simp] theorem setCluster_fwdone (s : State) (k : Nat) (x : Cluster) : (s.setCluster k x).fwdone = s.fwdone := rfl
@[simp] theorem setCluster_fwpend (s : State) (k : Nat) (x : Cluster) : (s.setCluster k x).fwpend = s.fwpend := rfl
@[simp] theorem setCluster_fwrun (s : State) (k : Nat) (x : Cluster) : (s.setCluster k x).fwrun = s.fwrun := rfl
@[simp] theorem setCluster_feat (s : State) (k : Nat) (x : Cluster) : (s.setCluster k x).feat = s.feat := rfl
@[simp] theorem setCluster_negotiated (s : State) (k : Nat) (x : Cluster) : (s.setCluster k x).negotiated = s.negotiated := rfl
@[simp] theorem setCluster_patch (s : State) (k : Nat) (x : Cluster) : (s.setCluster k x).patch = s.patch := rfl
@[simp] theorem setCluster_fuseSvn (s : State) (k : Nat) (x : Cluster) : (s.setCluster k x).fuseSvn = s.fuseSvn := rfl
@[simp] theorem setCluster_errLog (s : State) (k : Nat) (x : Cluster) : (s.setCluster k x).errLog = s.errLog := rfl
@[simp] theorem setCluster_errCount (s : State) (k : Nat) (x : Cluster) : (s.setCluster k x).errCount = s.errCount := rfl
@[simp] theorem setCluster_faulted (s : State) (k : Nat) (x : Cluster) : (s.setCluster k x).faulted = s.faulted := rfl
@[simp] theorem setCluster_ecc (s : State) (k : Nat) (x : Cluster) : (s.setCluster k x).ecc = s.ecc := rfl
@[simp] theorem setCluster_soft (s : State) (k : Nat) (x : Cluster) : (s.setCluster k x).soft = s.soft := rfl
@[simp] theorem setCluster_eccCorrected (s : State) (k : Nat) (x : Cluster) : (s.setCluster k x).eccCorrected = s.eccCorrected := rfl
@[simp] theorem setCluster_modnum (s : State) (k : Nat) (x : Cluster) : (s.setCluster k x).modnum = s.modnum := rfl
@[simp] theorem setCluster_bindings (s : State) (k : Nat) (x : Cluster) : (s.setCluster k x).bindings = s.bindings := rfl
@[simp] theorem setCluster_mhz (s : State) (k : Nat) (x : Cluster) : (s.setCluster k x).mhz = s.mhz := rfl
@[simp] theorem setCluster_cycles (s : State) (k : Nat) (x : Cluster) : (s.setCluster k x).cycles = s.cycles := rfl
@[simp] theorem setCluster_vgrowQ (s : State) (k : Nat) (x : Cluster) : (s.setCluster k x).vgrowQ = s.vgrowQ := rfl
@[simp] theorem setCluster_frozen (s : State) (k : Nat) (x : Cluster) : (s.setCluster k x).frozen = s.frozen := rfl
@[simp] theorem setCluster_frzFuse (s : State) (k : Nat) (x : Cluster) : (s.setCluster k x).frzFuse = s.frzFuse := rfl
@[simp] theorem setCluster_msix (s : State) (k : Nat) (x : Cluster) : (s.setCluster k x).msix = s.msix := rfl
@[simp] theorem setCluster_out (s : State) (k : Nat) (x : Cluster) : (s.setCluster k x).out = s.out := rfl
@[simp] theorem setCluster_evalVf (s : State) (k : Nat) (x : Cluster) : (s.setCluster k x).evalVf = s.evalVf := rfl
@[simp] theorem setCluster_cur (s : State) (k : Nat) (x : Cluster) : (s.setCluster k x).cur = s.cur := rfl
@[simp] theorem setCluster_agenda (s : State) (k : Nat) (x : Cluster) : (s.setCluster k x).agenda = s.agenda := rfl
@[simp] theorem setCluster_free (s : State) (k : Nat) (x : Cluster) : (s.setCluster k x).free = s.free := rfl
@[simp] theorem setCluster_handle (s : State) (k : Nat) (x : Cluster) : (s.setCluster k x).handle = s.handle := rfl
@[simp] theorem setCluster_walks (s : State) (k : Nat) (x : Cluster) : (s.setCluster k x).walks = s.walks := rfl
@[simp] theorem setCluster_misses (s : State) (k : Nat) (x : Cluster) : (s.setCluster k x).misses = s.misses := rfl
@[simp] theorem setCluster_asks (s : State) (k : Nat) (x : Cluster) : (s.setCluster k x).asks = s.asks := rfl
@[simp] theorem setCluster_held (s : State) (k : Nat) (x : Cluster) : (s.setCluster k x).held = s.held := rfl
@[simp] theorem setCluster_inbox (s : State) (k : Nat) (x : Cluster) : (s.setCluster k x).inbox = s.inbox := rfl
@[simp] theorem setCluster_pend (s : State) (k : Nat) (x : Cluster) : (s.setCluster k x).pend = s.pend := rfl
@[simp] theorem setCluster_uses (s : State) (k : Nat) (x : Cluster) : (s.setCluster k x).uses = s.uses := rfl
@[simp] theorem setCluster_l2 (s : State) (k : Nat) (x : Cluster) : (s.setCluster k x).l2 = s.l2 := rfl
@[simp] theorem setCluster_ptp (s : State) (k : Nat) (x : Cluster) : (s.setCluster k x).ptp = s.ptp := rfl
@[simp] theorem setCluster_sram (s : State) (k : Nat) (x : Cluster) : (s.setCluster k x).sram = s.sram := rfl
@[simp] theorem setCluster_frozenAt (s : State) (k : Nat) (x : Cluster) : (s.setCluster k x).frozenAt = s.frozenAt := rfl

/-! ### setGrid -/

@[simp] theorem setGrid_mem (s : State) (k : Nat) (x : Grid) : (s.setGrid k x).mem = s.mem := rfl
@[simp] theorem setGrid_fold (s : State) (k : Nat) (x : Grid) : (s.setGrid k x).fold = s.fold := rfl
@[simp] theorem setGrid_groups (s : State) (k : Nat) (x : Grid) : (s.setGrid k x).groups = s.groups := rfl
@[simp] theorem setGrid_teams (s : State) (k : Nat) (x : Grid) : (s.setGrid k x).teams = s.teams := rfl
@[simp] theorem setGrid_clusters (s : State) (k : Nat) (x : Grid) : (s.setGrid k x).clusters = s.clusters := rfl
@[simp] theorem setGrid_grids (s : State) (k : Nat) (x : Grid) : (s.setGrid k x).grids = s.grids.put k x := rfl
@[simp] theorem setGrid_vfs (s : State) (k : Nat) (x : Grid) : (s.setGrid k x).vfs = s.vfs := rfl
@[simp] theorem setGrid_wqs (s : State) (k : Nat) (x : Grid) : (s.setGrid k x).wqs = s.wqs := rfl
@[simp] theorem setGrid_queues (s : State) (k : Nat) (x : Grid) : (s.setGrid k x).queues = s.queues := rfl
@[simp] theorem setGrid_paddocks (s : State) (k : Nat) (x : Grid) : (s.setGrid k x).paddocks = s.paddocks := rfl
@[simp] theorem setGrid_ports (s : State) (k : Nat) (x : Grid) : (s.setGrid k x).ports = s.ports := rfl
@[simp] theorem setGrid_memPorts (s : State) (k : Nat) (x : Grid) : (s.setGrid k x).memPorts = s.memPorts := rfl
@[simp] theorem setGrid_regions (s : State) (k : Nat) (x : Grid) : (s.setGrid k x).regions = s.regions := rfl
@[simp] theorem setGrid_sets (s : State) (k : Nat) (x : Grid) : (s.setGrid k x).sets = s.sets := rfl
@[simp] theorem setGrid_migrations (s : State) (k : Nat) (x : Grid) : (s.setGrid k x).migrations = s.migrations := rfl
@[simp] theorem setGrid_tlb (s : State) (k : Nat) (x : Grid) : (s.setGrid k x).tlb = s.tlb := rfl
@[simp] theorem setGrid_unit (s : State) (k : Nat) (x : Grid) : (s.setGrid k x).unit = s.unit := rfl
@[simp] theorem setGrid_bell (s : State) (k : Nat) (x : Grid) : (s.setGrid k x).bell = s.bell := rfl
@[simp] theorem setGrid_adj (s : State) (k : Nat) (x : Grid) : (s.setGrid k x).adj = s.adj := rfl
@[simp] theorem setGrid_stepErr (s : State) (k : Nat) (x : Grid) : (s.setGrid k x).stepErr = s.stepErr := rfl
@[simp] theorem setGrid_src (s : State) (k : Nat) (x : Grid) : (s.setGrid k x).src = s.src := rfl
@[simp] theorem setGrid_latchHost (s : State) (k : Nat) (x : Grid) : (s.setGrid k x).latchHost = s.latchHost := rfl
@[simp] theorem setGrid_latchCtl (s : State) (k : Nat) (x : Grid) : (s.setGrid k x).latchCtl = s.latchCtl := rfl
@[simp] theorem setGrid_fwqbase (s : State) (k : Nat) (x : Grid) : (s.setGrid k x).fwqbase = s.fwqbase := rfl
@[simp] theorem setGrid_fwcbase (s : State) (k : Nat) (x : Grid) : (s.setGrid k x).fwcbase = s.fwcbase := rfl
@[simp] theorem setGrid_fwtail (s : State) (k : Nat) (x : Grid) : (s.setGrid k x).fwtail = s.fwtail := rfl
@[simp] theorem setGrid_fwhead (s : State) (k : Nat) (x : Grid) : (s.setGrid k x).fwhead = s.fwhead := rfl
@[simp] theorem setGrid_fwen (s : State) (k : Nat) (x : Grid) : (s.setGrid k x).fwen = s.fwen := rfl
@[simp] theorem setGrid_fwlogn (s : State) (k : Nat) (x : Grid) : (s.setGrid k x).fwlogn = s.fwlogn := rfl
@[simp] theorem setGrid_fwdone (s : State) (k : Nat) (x : Grid) : (s.setGrid k x).fwdone = s.fwdone := rfl
@[simp] theorem setGrid_fwpend (s : State) (k : Nat) (x : Grid) : (s.setGrid k x).fwpend = s.fwpend := rfl
@[simp] theorem setGrid_fwrun (s : State) (k : Nat) (x : Grid) : (s.setGrid k x).fwrun = s.fwrun := rfl
@[simp] theorem setGrid_feat (s : State) (k : Nat) (x : Grid) : (s.setGrid k x).feat = s.feat := rfl
@[simp] theorem setGrid_negotiated (s : State) (k : Nat) (x : Grid) : (s.setGrid k x).negotiated = s.negotiated := rfl
@[simp] theorem setGrid_patch (s : State) (k : Nat) (x : Grid) : (s.setGrid k x).patch = s.patch := rfl
@[simp] theorem setGrid_fuseSvn (s : State) (k : Nat) (x : Grid) : (s.setGrid k x).fuseSvn = s.fuseSvn := rfl
@[simp] theorem setGrid_errLog (s : State) (k : Nat) (x : Grid) : (s.setGrid k x).errLog = s.errLog := rfl
@[simp] theorem setGrid_errCount (s : State) (k : Nat) (x : Grid) : (s.setGrid k x).errCount = s.errCount := rfl
@[simp] theorem setGrid_faulted (s : State) (k : Nat) (x : Grid) : (s.setGrid k x).faulted = s.faulted := rfl
@[simp] theorem setGrid_ecc (s : State) (k : Nat) (x : Grid) : (s.setGrid k x).ecc = s.ecc := rfl
@[simp] theorem setGrid_soft (s : State) (k : Nat) (x : Grid) : (s.setGrid k x).soft = s.soft := rfl
@[simp] theorem setGrid_eccCorrected (s : State) (k : Nat) (x : Grid) : (s.setGrid k x).eccCorrected = s.eccCorrected := rfl
@[simp] theorem setGrid_modnum (s : State) (k : Nat) (x : Grid) : (s.setGrid k x).modnum = s.modnum := rfl
@[simp] theorem setGrid_bindings (s : State) (k : Nat) (x : Grid) : (s.setGrid k x).bindings = s.bindings := rfl
@[simp] theorem setGrid_mhz (s : State) (k : Nat) (x : Grid) : (s.setGrid k x).mhz = s.mhz := rfl
@[simp] theorem setGrid_cycles (s : State) (k : Nat) (x : Grid) : (s.setGrid k x).cycles = s.cycles := rfl
@[simp] theorem setGrid_vgrowQ (s : State) (k : Nat) (x : Grid) : (s.setGrid k x).vgrowQ = s.vgrowQ := rfl
@[simp] theorem setGrid_frozen (s : State) (k : Nat) (x : Grid) : (s.setGrid k x).frozen = s.frozen := rfl
@[simp] theorem setGrid_frzFuse (s : State) (k : Nat) (x : Grid) : (s.setGrid k x).frzFuse = s.frzFuse := rfl
@[simp] theorem setGrid_msix (s : State) (k : Nat) (x : Grid) : (s.setGrid k x).msix = s.msix := rfl
@[simp] theorem setGrid_out (s : State) (k : Nat) (x : Grid) : (s.setGrid k x).out = s.out := rfl
@[simp] theorem setGrid_evalVf (s : State) (k : Nat) (x : Grid) : (s.setGrid k x).evalVf = s.evalVf := rfl
@[simp] theorem setGrid_cur (s : State) (k : Nat) (x : Grid) : (s.setGrid k x).cur = s.cur := rfl
@[simp] theorem setGrid_agenda (s : State) (k : Nat) (x : Grid) : (s.setGrid k x).agenda = s.agenda := rfl
@[simp] theorem setGrid_free (s : State) (k : Nat) (x : Grid) : (s.setGrid k x).free = s.free := rfl
@[simp] theorem setGrid_handle (s : State) (k : Nat) (x : Grid) : (s.setGrid k x).handle = s.handle := rfl
@[simp] theorem setGrid_walks (s : State) (k : Nat) (x : Grid) : (s.setGrid k x).walks = s.walks := rfl
@[simp] theorem setGrid_misses (s : State) (k : Nat) (x : Grid) : (s.setGrid k x).misses = s.misses := rfl
@[simp] theorem setGrid_asks (s : State) (k : Nat) (x : Grid) : (s.setGrid k x).asks = s.asks := rfl
@[simp] theorem setGrid_held (s : State) (k : Nat) (x : Grid) : (s.setGrid k x).held = s.held := rfl
@[simp] theorem setGrid_inbox (s : State) (k : Nat) (x : Grid) : (s.setGrid k x).inbox = s.inbox := rfl
@[simp] theorem setGrid_pend (s : State) (k : Nat) (x : Grid) : (s.setGrid k x).pend = s.pend := rfl
@[simp] theorem setGrid_uses (s : State) (k : Nat) (x : Grid) : (s.setGrid k x).uses = s.uses := rfl
@[simp] theorem setGrid_l2 (s : State) (k : Nat) (x : Grid) : (s.setGrid k x).l2 = s.l2 := rfl
@[simp] theorem setGrid_ptp (s : State) (k : Nat) (x : Grid) : (s.setGrid k x).ptp = s.ptp := rfl
@[simp] theorem setGrid_sram (s : State) (k : Nat) (x : Grid) : (s.setGrid k x).sram = s.sram := rfl
@[simp] theorem setGrid_frozenAt (s : State) (k : Nat) (x : Grid) : (s.setGrid k x).frozenAt = s.frozenAt := rfl

/-! ### setVf -/

@[simp] theorem setVf_mem (s : State) (k : Nat) (f : Vf → Vf) : (s.setVf k f).mem = s.mem := rfl
@[simp] theorem setVf_fold (s : State) (k : Nat) (f : Vf → Vf) : (s.setVf k f).fold = s.fold := rfl
@[simp] theorem setVf_groups (s : State) (k : Nat) (f : Vf → Vf) : (s.setVf k f).groups = s.groups := rfl
@[simp] theorem setVf_teams (s : State) (k : Nat) (f : Vf → Vf) : (s.setVf k f).teams = s.teams := rfl
@[simp] theorem setVf_clusters (s : State) (k : Nat) (f : Vf → Vf) : (s.setVf k f).clusters = s.clusters := rfl
@[simp] theorem setVf_grids (s : State) (k : Nat) (f : Vf → Vf) : (s.setVf k f).grids = s.grids := rfl
@[simp] theorem setVf_vfs (s : State) (k : Nat) (f : Vf → Vf) : (s.setVf k f).vfs = s.vfs.put k (f (s.vf k)) := rfl
@[simp] theorem setVf_wqs (s : State) (k : Nat) (f : Vf → Vf) : (s.setVf k f).wqs = s.wqs := rfl
@[simp] theorem setVf_queues (s : State) (k : Nat) (f : Vf → Vf) : (s.setVf k f).queues = s.queues := rfl
@[simp] theorem setVf_paddocks (s : State) (k : Nat) (f : Vf → Vf) : (s.setVf k f).paddocks = s.paddocks := rfl
@[simp] theorem setVf_ports (s : State) (k : Nat) (f : Vf → Vf) : (s.setVf k f).ports = s.ports := rfl
@[simp] theorem setVf_memPorts (s : State) (k : Nat) (f : Vf → Vf) : (s.setVf k f).memPorts = s.memPorts := rfl
@[simp] theorem setVf_regions (s : State) (k : Nat) (f : Vf → Vf) : (s.setVf k f).regions = s.regions := rfl
@[simp] theorem setVf_sets (s : State) (k : Nat) (f : Vf → Vf) : (s.setVf k f).sets = s.sets := rfl
@[simp] theorem setVf_migrations (s : State) (k : Nat) (f : Vf → Vf) : (s.setVf k f).migrations = s.migrations := rfl
@[simp] theorem setVf_tlb (s : State) (k : Nat) (f : Vf → Vf) : (s.setVf k f).tlb = s.tlb := rfl
@[simp] theorem setVf_unit (s : State) (k : Nat) (f : Vf → Vf) : (s.setVf k f).unit = s.unit := rfl
@[simp] theorem setVf_bell (s : State) (k : Nat) (f : Vf → Vf) : (s.setVf k f).bell = s.bell := rfl
@[simp] theorem setVf_adj (s : State) (k : Nat) (f : Vf → Vf) : (s.setVf k f).adj = s.adj := rfl
@[simp] theorem setVf_stepErr (s : State) (k : Nat) (f : Vf → Vf) : (s.setVf k f).stepErr = s.stepErr := rfl
@[simp] theorem setVf_src (s : State) (k : Nat) (f : Vf → Vf) : (s.setVf k f).src = s.src := rfl
@[simp] theorem setVf_latchHost (s : State) (k : Nat) (f : Vf → Vf) : (s.setVf k f).latchHost = s.latchHost := rfl
@[simp] theorem setVf_latchCtl (s : State) (k : Nat) (f : Vf → Vf) : (s.setVf k f).latchCtl = s.latchCtl := rfl
@[simp] theorem setVf_fwqbase (s : State) (k : Nat) (f : Vf → Vf) : (s.setVf k f).fwqbase = s.fwqbase := rfl
@[simp] theorem setVf_fwcbase (s : State) (k : Nat) (f : Vf → Vf) : (s.setVf k f).fwcbase = s.fwcbase := rfl
@[simp] theorem setVf_fwtail (s : State) (k : Nat) (f : Vf → Vf) : (s.setVf k f).fwtail = s.fwtail := rfl
@[simp] theorem setVf_fwhead (s : State) (k : Nat) (f : Vf → Vf) : (s.setVf k f).fwhead = s.fwhead := rfl
@[simp] theorem setVf_fwen (s : State) (k : Nat) (f : Vf → Vf) : (s.setVf k f).fwen = s.fwen := rfl
@[simp] theorem setVf_fwlogn (s : State) (k : Nat) (f : Vf → Vf) : (s.setVf k f).fwlogn = s.fwlogn := rfl
@[simp] theorem setVf_fwdone (s : State) (k : Nat) (f : Vf → Vf) : (s.setVf k f).fwdone = s.fwdone := rfl
@[simp] theorem setVf_fwpend (s : State) (k : Nat) (f : Vf → Vf) : (s.setVf k f).fwpend = s.fwpend := rfl
@[simp] theorem setVf_fwrun (s : State) (k : Nat) (f : Vf → Vf) : (s.setVf k f).fwrun = s.fwrun := rfl
@[simp] theorem setVf_feat (s : State) (k : Nat) (f : Vf → Vf) : (s.setVf k f).feat = s.feat := rfl
@[simp] theorem setVf_negotiated (s : State) (k : Nat) (f : Vf → Vf) : (s.setVf k f).negotiated = s.negotiated := rfl
@[simp] theorem setVf_patch (s : State) (k : Nat) (f : Vf → Vf) : (s.setVf k f).patch = s.patch := rfl
@[simp] theorem setVf_fuseSvn (s : State) (k : Nat) (f : Vf → Vf) : (s.setVf k f).fuseSvn = s.fuseSvn := rfl
@[simp] theorem setVf_errLog (s : State) (k : Nat) (f : Vf → Vf) : (s.setVf k f).errLog = s.errLog := rfl
@[simp] theorem setVf_errCount (s : State) (k : Nat) (f : Vf → Vf) : (s.setVf k f).errCount = s.errCount := rfl
@[simp] theorem setVf_faulted (s : State) (k : Nat) (f : Vf → Vf) : (s.setVf k f).faulted = s.faulted := rfl
@[simp] theorem setVf_ecc (s : State) (k : Nat) (f : Vf → Vf) : (s.setVf k f).ecc = s.ecc := rfl
@[simp] theorem setVf_soft (s : State) (k : Nat) (f : Vf → Vf) : (s.setVf k f).soft = s.soft := rfl
@[simp] theorem setVf_eccCorrected (s : State) (k : Nat) (f : Vf → Vf) : (s.setVf k f).eccCorrected = s.eccCorrected := rfl
@[simp] theorem setVf_modnum (s : State) (k : Nat) (f : Vf → Vf) : (s.setVf k f).modnum = s.modnum := rfl
@[simp] theorem setVf_bindings (s : State) (k : Nat) (f : Vf → Vf) : (s.setVf k f).bindings = s.bindings := rfl
@[simp] theorem setVf_mhz (s : State) (k : Nat) (f : Vf → Vf) : (s.setVf k f).mhz = s.mhz := rfl
@[simp] theorem setVf_cycles (s : State) (k : Nat) (f : Vf → Vf) : (s.setVf k f).cycles = s.cycles := rfl
@[simp] theorem setVf_vgrowQ (s : State) (k : Nat) (f : Vf → Vf) : (s.setVf k f).vgrowQ = s.vgrowQ := rfl
@[simp] theorem setVf_frozen (s : State) (k : Nat) (f : Vf → Vf) : (s.setVf k f).frozen = s.frozen := rfl
@[simp] theorem setVf_frzFuse (s : State) (k : Nat) (f : Vf → Vf) : (s.setVf k f).frzFuse = s.frzFuse := rfl
@[simp] theorem setVf_msix (s : State) (k : Nat) (f : Vf → Vf) : (s.setVf k f).msix = s.msix := rfl
@[simp] theorem setVf_out (s : State) (k : Nat) (f : Vf → Vf) : (s.setVf k f).out = s.out := rfl
@[simp] theorem setVf_evalVf (s : State) (k : Nat) (f : Vf → Vf) : (s.setVf k f).evalVf = s.evalVf := rfl
@[simp] theorem setVf_cur (s : State) (k : Nat) (f : Vf → Vf) : (s.setVf k f).cur = s.cur := rfl
@[simp] theorem setVf_agenda (s : State) (k : Nat) (f : Vf → Vf) : (s.setVf k f).agenda = s.agenda := rfl
@[simp] theorem setVf_free (s : State) (k : Nat) (f : Vf → Vf) : (s.setVf k f).free = s.free := rfl
@[simp] theorem setVf_handle (s : State) (k : Nat) (f : Vf → Vf) : (s.setVf k f).handle = s.handle := rfl
@[simp] theorem setVf_walks (s : State) (k : Nat) (f : Vf → Vf) : (s.setVf k f).walks = s.walks := rfl
@[simp] theorem setVf_misses (s : State) (k : Nat) (f : Vf → Vf) : (s.setVf k f).misses = s.misses := rfl
@[simp] theorem setVf_asks (s : State) (k : Nat) (f : Vf → Vf) : (s.setVf k f).asks = s.asks := rfl
@[simp] theorem setVf_held (s : State) (k : Nat) (f : Vf → Vf) : (s.setVf k f).held = s.held := rfl
@[simp] theorem setVf_inbox (s : State) (k : Nat) (f : Vf → Vf) : (s.setVf k f).inbox = s.inbox := rfl
@[simp] theorem setVf_pend (s : State) (k : Nat) (f : Vf → Vf) : (s.setVf k f).pend = s.pend := rfl
@[simp] theorem setVf_uses (s : State) (k : Nat) (f : Vf → Vf) : (s.setVf k f).uses = s.uses := rfl
@[simp] theorem setVf_l2 (s : State) (k : Nat) (f : Vf → Vf) : (s.setVf k f).l2 = s.l2 := rfl
@[simp] theorem setVf_ptp (s : State) (k : Nat) (f : Vf → Vf) : (s.setVf k f).ptp = s.ptp := rfl
@[simp] theorem setVf_sram (s : State) (k : Nat) (f : Vf → Vf) : (s.setVf k f).sram = s.sram := rfl
@[simp] theorem setVf_frozenAt (s : State) (k : Nat) (f : Vf → Vf) : (s.setVf k f).frozenAt = s.frozenAt := rfl

/-! ### setPad -/

@[simp] theorem setPad_mem (s : State) (k : Nat) (f : Paddock → Paddock) : (s.setPad k f).mem = s.mem := rfl
@[simp] theorem setPad_fold (s : State) (k : Nat) (f : Paddock → Paddock) : (s.setPad k f).fold = s.fold := rfl
@[simp] theorem setPad_groups (s : State) (k : Nat) (f : Paddock → Paddock) : (s.setPad k f).groups = s.groups := rfl
@[simp] theorem setPad_teams (s : State) (k : Nat) (f : Paddock → Paddock) : (s.setPad k f).teams = s.teams := rfl
@[simp] theorem setPad_clusters (s : State) (k : Nat) (f : Paddock → Paddock) : (s.setPad k f).clusters = s.clusters := rfl
@[simp] theorem setPad_grids (s : State) (k : Nat) (f : Paddock → Paddock) : (s.setPad k f).grids = s.grids := rfl
@[simp] theorem setPad_vfs (s : State) (k : Nat) (f : Paddock → Paddock) : (s.setPad k f).vfs = s.vfs := rfl
@[simp] theorem setPad_wqs (s : State) (k : Nat) (f : Paddock → Paddock) : (s.setPad k f).wqs = s.wqs := rfl
@[simp] theorem setPad_queues (s : State) (k : Nat) (f : Paddock → Paddock) : (s.setPad k f).queues = s.queues := rfl
@[simp] theorem setPad_paddocks (s : State) (k : Nat) (f : Paddock → Paddock) : (s.setPad k f).paddocks = s.paddocks.put k (f (s.pad k)) := rfl
@[simp] theorem setPad_ports (s : State) (k : Nat) (f : Paddock → Paddock) : (s.setPad k f).ports = s.ports := rfl
@[simp] theorem setPad_memPorts (s : State) (k : Nat) (f : Paddock → Paddock) : (s.setPad k f).memPorts = s.memPorts := rfl
@[simp] theorem setPad_regions (s : State) (k : Nat) (f : Paddock → Paddock) : (s.setPad k f).regions = s.regions := rfl
@[simp] theorem setPad_sets (s : State) (k : Nat) (f : Paddock → Paddock) : (s.setPad k f).sets = s.sets := rfl
@[simp] theorem setPad_migrations (s : State) (k : Nat) (f : Paddock → Paddock) : (s.setPad k f).migrations = s.migrations := rfl
@[simp] theorem setPad_tlb (s : State) (k : Nat) (f : Paddock → Paddock) : (s.setPad k f).tlb = s.tlb := rfl
@[simp] theorem setPad_unit (s : State) (k : Nat) (f : Paddock → Paddock) : (s.setPad k f).unit = s.unit := rfl
@[simp] theorem setPad_bell (s : State) (k : Nat) (f : Paddock → Paddock) : (s.setPad k f).bell = s.bell := rfl
@[simp] theorem setPad_adj (s : State) (k : Nat) (f : Paddock → Paddock) : (s.setPad k f).adj = s.adj := rfl
@[simp] theorem setPad_stepErr (s : State) (k : Nat) (f : Paddock → Paddock) : (s.setPad k f).stepErr = s.stepErr := rfl
@[simp] theorem setPad_src (s : State) (k : Nat) (f : Paddock → Paddock) : (s.setPad k f).src = s.src := rfl
@[simp] theorem setPad_latchHost (s : State) (k : Nat) (f : Paddock → Paddock) : (s.setPad k f).latchHost = s.latchHost := rfl
@[simp] theorem setPad_latchCtl (s : State) (k : Nat) (f : Paddock → Paddock) : (s.setPad k f).latchCtl = s.latchCtl := rfl
@[simp] theorem setPad_fwqbase (s : State) (k : Nat) (f : Paddock → Paddock) : (s.setPad k f).fwqbase = s.fwqbase := rfl
@[simp] theorem setPad_fwcbase (s : State) (k : Nat) (f : Paddock → Paddock) : (s.setPad k f).fwcbase = s.fwcbase := rfl
@[simp] theorem setPad_fwtail (s : State) (k : Nat) (f : Paddock → Paddock) : (s.setPad k f).fwtail = s.fwtail := rfl
@[simp] theorem setPad_fwhead (s : State) (k : Nat) (f : Paddock → Paddock) : (s.setPad k f).fwhead = s.fwhead := rfl
@[simp] theorem setPad_fwen (s : State) (k : Nat) (f : Paddock → Paddock) : (s.setPad k f).fwen = s.fwen := rfl
@[simp] theorem setPad_fwlogn (s : State) (k : Nat) (f : Paddock → Paddock) : (s.setPad k f).fwlogn = s.fwlogn := rfl
@[simp] theorem setPad_fwdone (s : State) (k : Nat) (f : Paddock → Paddock) : (s.setPad k f).fwdone = s.fwdone := rfl
@[simp] theorem setPad_fwpend (s : State) (k : Nat) (f : Paddock → Paddock) : (s.setPad k f).fwpend = s.fwpend := rfl
@[simp] theorem setPad_fwrun (s : State) (k : Nat) (f : Paddock → Paddock) : (s.setPad k f).fwrun = s.fwrun := rfl
@[simp] theorem setPad_feat (s : State) (k : Nat) (f : Paddock → Paddock) : (s.setPad k f).feat = s.feat := rfl
@[simp] theorem setPad_negotiated (s : State) (k : Nat) (f : Paddock → Paddock) : (s.setPad k f).negotiated = s.negotiated := rfl
@[simp] theorem setPad_patch (s : State) (k : Nat) (f : Paddock → Paddock) : (s.setPad k f).patch = s.patch := rfl
@[simp] theorem setPad_fuseSvn (s : State) (k : Nat) (f : Paddock → Paddock) : (s.setPad k f).fuseSvn = s.fuseSvn := rfl
@[simp] theorem setPad_errLog (s : State) (k : Nat) (f : Paddock → Paddock) : (s.setPad k f).errLog = s.errLog := rfl
@[simp] theorem setPad_errCount (s : State) (k : Nat) (f : Paddock → Paddock) : (s.setPad k f).errCount = s.errCount := rfl
@[simp] theorem setPad_faulted (s : State) (k : Nat) (f : Paddock → Paddock) : (s.setPad k f).faulted = s.faulted := rfl
@[simp] theorem setPad_ecc (s : State) (k : Nat) (f : Paddock → Paddock) : (s.setPad k f).ecc = s.ecc := rfl
@[simp] theorem setPad_soft (s : State) (k : Nat) (f : Paddock → Paddock) : (s.setPad k f).soft = s.soft := rfl
@[simp] theorem setPad_eccCorrected (s : State) (k : Nat) (f : Paddock → Paddock) : (s.setPad k f).eccCorrected = s.eccCorrected := rfl
@[simp] theorem setPad_modnum (s : State) (k : Nat) (f : Paddock → Paddock) : (s.setPad k f).modnum = s.modnum := rfl
@[simp] theorem setPad_bindings (s : State) (k : Nat) (f : Paddock → Paddock) : (s.setPad k f).bindings = s.bindings := rfl
@[simp] theorem setPad_mhz (s : State) (k : Nat) (f : Paddock → Paddock) : (s.setPad k f).mhz = s.mhz := rfl
@[simp] theorem setPad_cycles (s : State) (k : Nat) (f : Paddock → Paddock) : (s.setPad k f).cycles = s.cycles := rfl
@[simp] theorem setPad_vgrowQ (s : State) (k : Nat) (f : Paddock → Paddock) : (s.setPad k f).vgrowQ = s.vgrowQ := rfl
@[simp] theorem setPad_frozen (s : State) (k : Nat) (f : Paddock → Paddock) : (s.setPad k f).frozen = s.frozen := rfl
@[simp] theorem setPad_frzFuse (s : State) (k : Nat) (f : Paddock → Paddock) : (s.setPad k f).frzFuse = s.frzFuse := rfl
@[simp] theorem setPad_msix (s : State) (k : Nat) (f : Paddock → Paddock) : (s.setPad k f).msix = s.msix := rfl
@[simp] theorem setPad_out (s : State) (k : Nat) (f : Paddock → Paddock) : (s.setPad k f).out = s.out := rfl
@[simp] theorem setPad_evalVf (s : State) (k : Nat) (f : Paddock → Paddock) : (s.setPad k f).evalVf = s.evalVf := rfl
@[simp] theorem setPad_cur (s : State) (k : Nat) (f : Paddock → Paddock) : (s.setPad k f).cur = s.cur := rfl
@[simp] theorem setPad_agenda (s : State) (k : Nat) (f : Paddock → Paddock) : (s.setPad k f).agenda = s.agenda := rfl
@[simp] theorem setPad_free (s : State) (k : Nat) (f : Paddock → Paddock) : (s.setPad k f).free = s.free := rfl
@[simp] theorem setPad_handle (s : State) (k : Nat) (f : Paddock → Paddock) : (s.setPad k f).handle = s.handle := rfl
@[simp] theorem setPad_walks (s : State) (k : Nat) (f : Paddock → Paddock) : (s.setPad k f).walks = s.walks := rfl
@[simp] theorem setPad_misses (s : State) (k : Nat) (f : Paddock → Paddock) : (s.setPad k f).misses = s.misses := rfl
@[simp] theorem setPad_asks (s : State) (k : Nat) (f : Paddock → Paddock) : (s.setPad k f).asks = s.asks := rfl
@[simp] theorem setPad_held (s : State) (k : Nat) (f : Paddock → Paddock) : (s.setPad k f).held = s.held := rfl
@[simp] theorem setPad_inbox (s : State) (k : Nat) (f : Paddock → Paddock) : (s.setPad k f).inbox = s.inbox := rfl
@[simp] theorem setPad_pend (s : State) (k : Nat) (f : Paddock → Paddock) : (s.setPad k f).pend = s.pend := rfl
@[simp] theorem setPad_uses (s : State) (k : Nat) (f : Paddock → Paddock) : (s.setPad k f).uses = s.uses := rfl
@[simp] theorem setPad_l2 (s : State) (k : Nat) (f : Paddock → Paddock) : (s.setPad k f).l2 = s.l2 := rfl
@[simp] theorem setPad_ptp (s : State) (k : Nat) (f : Paddock → Paddock) : (s.setPad k f).ptp = s.ptp := rfl
@[simp] theorem setPad_sram (s : State) (k : Nat) (f : Paddock → Paddock) : (s.setPad k f).sram = s.sram := rfl
@[simp] theorem setPad_frozenAt (s : State) (k : Nat) (f : Paddock → Paddock) : (s.setPad k f).frozenAt = s.frozenAt := rfl

/-! ### count -/

@[simp] theorem count_mem (s : State) (vf n k : Nat) : (s.count vf n k).mem = s.mem := rfl
@[simp] theorem count_fold (s : State) (vf n k : Nat) : (s.count vf n k).fold = s.fold := rfl
@[simp] theorem count_groups (s : State) (vf n k : Nat) : (s.count vf n k).groups = s.groups := rfl
@[simp] theorem count_teams (s : State) (vf n k : Nat) : (s.count vf n k).teams = s.teams := rfl
@[simp] theorem count_clusters (s : State) (vf n k : Nat) : (s.count vf n k).clusters = s.clusters := rfl
@[simp] theorem count_grids (s : State) (vf n k : Nat) : (s.count vf n k).grids = s.grids := rfl
@[simp] theorem count_wqs (s : State) (vf n k : Nat) : (s.count vf n k).wqs = s.wqs := rfl
@[simp] theorem count_queues (s : State) (vf n k : Nat) : (s.count vf n k).queues = s.queues := rfl
@[simp] theorem count_paddocks (s : State) (vf n k : Nat) : (s.count vf n k).paddocks = s.paddocks := rfl
@[simp] theorem count_ports (s : State) (vf n k : Nat) : (s.count vf n k).ports = s.ports := rfl
@[simp] theorem count_memPorts (s : State) (vf n k : Nat) : (s.count vf n k).memPorts = s.memPorts := rfl
@[simp] theorem count_regions (s : State) (vf n k : Nat) : (s.count vf n k).regions = s.regions := rfl
@[simp] theorem count_sets (s : State) (vf n k : Nat) : (s.count vf n k).sets = s.sets := rfl
@[simp] theorem count_migrations (s : State) (vf n k : Nat) : (s.count vf n k).migrations = s.migrations := rfl
@[simp] theorem count_tlb (s : State) (vf n k : Nat) : (s.count vf n k).tlb = s.tlb := rfl
@[simp] theorem count_unit (s : State) (vf n k : Nat) : (s.count vf n k).unit = s.unit := rfl
@[simp] theorem count_bell (s : State) (vf n k : Nat) : (s.count vf n k).bell = s.bell := rfl
@[simp] theorem count_adj (s : State) (vf n k : Nat) : (s.count vf n k).adj = s.adj := rfl
@[simp] theorem count_stepErr (s : State) (vf n k : Nat) : (s.count vf n k).stepErr = s.stepErr := rfl
@[simp] theorem count_src (s : State) (vf n k : Nat) : (s.count vf n k).src = s.src := rfl
@[simp] theorem count_latchHost (s : State) (vf n k : Nat) : (s.count vf n k).latchHost = s.latchHost := rfl
@[simp] theorem count_latchCtl (s : State) (vf n k : Nat) : (s.count vf n k).latchCtl = s.latchCtl := rfl
@[simp] theorem count_fwqbase (s : State) (vf n k : Nat) : (s.count vf n k).fwqbase = s.fwqbase := rfl
@[simp] theorem count_fwcbase (s : State) (vf n k : Nat) : (s.count vf n k).fwcbase = s.fwcbase := rfl
@[simp] theorem count_fwtail (s : State) (vf n k : Nat) : (s.count vf n k).fwtail = s.fwtail := rfl
@[simp] theorem count_fwhead (s : State) (vf n k : Nat) : (s.count vf n k).fwhead = s.fwhead := rfl
@[simp] theorem count_fwen (s : State) (vf n k : Nat) : (s.count vf n k).fwen = s.fwen := rfl
@[simp] theorem count_fwlogn (s : State) (vf n k : Nat) : (s.count vf n k).fwlogn = s.fwlogn := rfl
@[simp] theorem count_fwdone (s : State) (vf n k : Nat) : (s.count vf n k).fwdone = s.fwdone := rfl
@[simp] theorem count_fwpend (s : State) (vf n k : Nat) : (s.count vf n k).fwpend = s.fwpend := rfl
@[simp] theorem count_fwrun (s : State) (vf n k : Nat) : (s.count vf n k).fwrun = s.fwrun := rfl
@[simp] theorem count_feat (s : State) (vf n k : Nat) : (s.count vf n k).feat = s.feat := rfl
@[simp] theorem count_negotiated (s : State) (vf n k : Nat) : (s.count vf n k).negotiated = s.negotiated := rfl
@[simp] theorem count_patch (s : State) (vf n k : Nat) : (s.count vf n k).patch = s.patch := rfl
@[simp] theorem count_fuseSvn (s : State) (vf n k : Nat) : (s.count vf n k).fuseSvn = s.fuseSvn := rfl
@[simp] theorem count_errLog (s : State) (vf n k : Nat) : (s.count vf n k).errLog = s.errLog := rfl
@[simp] theorem count_errCount (s : State) (vf n k : Nat) : (s.count vf n k).errCount = s.errCount := rfl
@[simp] theorem count_faulted (s : State) (vf n k : Nat) : (s.count vf n k).faulted = s.faulted := rfl
@[simp] theorem count_ecc (s : State) (vf n k : Nat) : (s.count vf n k).ecc = s.ecc := rfl
@[simp] theorem count_soft (s : State) (vf n k : Nat) : (s.count vf n k).soft = s.soft := rfl
@[simp] theorem count_eccCorrected (s : State) (vf n k : Nat) : (s.count vf n k).eccCorrected = s.eccCorrected := rfl
@[simp] theorem count_modnum (s : State) (vf n k : Nat) : (s.count vf n k).modnum = s.modnum := rfl
@[simp] theorem count_bindings (s : State) (vf n k : Nat) : (s.count vf n k).bindings = s.bindings := rfl
@[simp] theorem count_mhz (s : State) (vf n k : Nat) : (s.count vf n k).mhz = s.mhz := rfl
@[simp] theorem count_cycles (s : State) (vf n k : Nat) : (s.count vf n k).cycles = s.cycles := rfl
@[simp] theorem count_vgrowQ (s : State) (vf n k : Nat) : (s.count vf n k).vgrowQ = s.vgrowQ := rfl
@[simp] theorem count_frozen (s : State) (vf n k : Nat) : (s.count vf n k).frozen = s.frozen := rfl
@[simp] theorem count_frzFuse (s : State) (vf n k : Nat) : (s.count vf n k).frzFuse = s.frzFuse := rfl
@[simp] theorem count_msix (s : State) (vf n k : Nat) : (s.count vf n k).msix = s.msix := rfl
@[simp] theorem count_out (s : State) (vf n k : Nat) : (s.count vf n k).out = s.out := rfl
@[simp] theorem count_evalVf (s : State) (vf n k : Nat) : (s.count vf n k).evalVf = s.evalVf := rfl
@[simp] theorem count_cur (s : State) (vf n k : Nat) : (s.count vf n k).cur = s.cur := rfl
@[simp] theorem count_agenda (s : State) (vf n k : Nat) : (s.count vf n k).agenda = s.agenda := rfl
@[simp] theorem count_free (s : State) (vf n k : Nat) : (s.count vf n k).free = s.free := rfl
@[simp] theorem count_handle (s : State) (vf n k : Nat) : (s.count vf n k).handle = s.handle := rfl
@[simp] theorem count_walks (s : State) (vf n k : Nat) : (s.count vf n k).walks = s.walks := rfl
@[simp] theorem count_misses (s : State) (vf n k : Nat) : (s.count vf n k).misses = s.misses := rfl
@[simp] theorem count_asks (s : State) (vf n k : Nat) : (s.count vf n k).asks = s.asks := rfl
@[simp] theorem count_held (s : State) (vf n k : Nat) : (s.count vf n k).held = s.held := rfl
@[simp] theorem count_inbox (s : State) (vf n k : Nat) : (s.count vf n k).inbox = s.inbox := rfl
@[simp] theorem count_pend (s : State) (vf n k : Nat) : (s.count vf n k).pend = s.pend := rfl
@[simp] theorem count_uses (s : State) (vf n k : Nat) : (s.count vf n k).uses = s.uses := rfl
@[simp] theorem count_l2 (s : State) (vf n k : Nat) : (s.count vf n k).l2 = s.l2 := rfl
@[simp] theorem count_ptp (s : State) (vf n k : Nat) : (s.count vf n k).ptp = s.ptp := rfl
@[simp] theorem count_sram (s : State) (vf n k : Nat) : (s.count vf n k).sram = s.sram := rfl
@[simp] theorem count_frozenAt (s : State) (vf n k : Nat) : (s.count vf n k).frozenAt = s.frozenAt := rfl

/-! ### setWq -/

@[simp] theorem setWq_mem (s : State) (k : Nat) (f : Wq → Wq) : (s.setWq k f).mem = s.mem := rfl
@[simp] theorem setWq_fold (s : State) (k : Nat) (f : Wq → Wq) : (s.setWq k f).fold = s.fold := rfl
@[simp] theorem setWq_groups (s : State) (k : Nat) (f : Wq → Wq) : (s.setWq k f).groups = s.groups := rfl
@[simp] theorem setWq_teams (s : State) (k : Nat) (f : Wq → Wq) : (s.setWq k f).teams = s.teams := rfl
@[simp] theorem setWq_clusters (s : State) (k : Nat) (f : Wq → Wq) : (s.setWq k f).clusters = s.clusters := rfl
@[simp] theorem setWq_grids (s : State) (k : Nat) (f : Wq → Wq) : (s.setWq k f).grids = s.grids := rfl
@[simp] theorem setWq_vfs (s : State) (k : Nat) (f : Wq → Wq) : (s.setWq k f).vfs = s.vfs := rfl
@[simp] theorem setWq_wqs (s : State) (k : Nat) (f : Wq → Wq) : (s.setWq k f).wqs = s.wqs.put k (f (s.wq k)) := rfl
@[simp] theorem setWq_queues (s : State) (k : Nat) (f : Wq → Wq) : (s.setWq k f).queues = s.queues := rfl
@[simp] theorem setWq_paddocks (s : State) (k : Nat) (f : Wq → Wq) : (s.setWq k f).paddocks = s.paddocks := rfl
@[simp] theorem setWq_ports (s : State) (k : Nat) (f : Wq → Wq) : (s.setWq k f).ports = s.ports := rfl
@[simp] theorem setWq_memPorts (s : State) (k : Nat) (f : Wq → Wq) : (s.setWq k f).memPorts = s.memPorts := rfl
@[simp] theorem setWq_regions (s : State) (k : Nat) (f : Wq → Wq) : (s.setWq k f).regions = s.regions := rfl
@[simp] theorem setWq_sets (s : State) (k : Nat) (f : Wq → Wq) : (s.setWq k f).sets = s.sets := rfl
@[simp] theorem setWq_migrations (s : State) (k : Nat) (f : Wq → Wq) : (s.setWq k f).migrations = s.migrations := rfl
@[simp] theorem setWq_tlb (s : State) (k : Nat) (f : Wq → Wq) : (s.setWq k f).tlb = s.tlb := rfl
@[simp] theorem setWq_unit (s : State) (k : Nat) (f : Wq → Wq) : (s.setWq k f).unit = s.unit := rfl
@[simp] theorem setWq_bell (s : State) (k : Nat) (f : Wq → Wq) : (s.setWq k f).bell = s.bell := rfl
@[simp] theorem setWq_adj (s : State) (k : Nat) (f : Wq → Wq) : (s.setWq k f).adj = s.adj := rfl
@[simp] theorem setWq_stepErr (s : State) (k : Nat) (f : Wq → Wq) : (s.setWq k f).stepErr = s.stepErr := rfl
@[simp] theorem setWq_src (s : State) (k : Nat) (f : Wq → Wq) : (s.setWq k f).src = s.src := rfl
@[simp] theorem setWq_latchHost (s : State) (k : Nat) (f : Wq → Wq) : (s.setWq k f).latchHost = s.latchHost := rfl
@[simp] theorem setWq_latchCtl (s : State) (k : Nat) (f : Wq → Wq) : (s.setWq k f).latchCtl = s.latchCtl := rfl
@[simp] theorem setWq_fwqbase (s : State) (k : Nat) (f : Wq → Wq) : (s.setWq k f).fwqbase = s.fwqbase := rfl
@[simp] theorem setWq_fwcbase (s : State) (k : Nat) (f : Wq → Wq) : (s.setWq k f).fwcbase = s.fwcbase := rfl
@[simp] theorem setWq_fwtail (s : State) (k : Nat) (f : Wq → Wq) : (s.setWq k f).fwtail = s.fwtail := rfl
@[simp] theorem setWq_fwhead (s : State) (k : Nat) (f : Wq → Wq) : (s.setWq k f).fwhead = s.fwhead := rfl
@[simp] theorem setWq_fwen (s : State) (k : Nat) (f : Wq → Wq) : (s.setWq k f).fwen = s.fwen := rfl
@[simp] theorem setWq_fwlogn (s : State) (k : Nat) (f : Wq → Wq) : (s.setWq k f).fwlogn = s.fwlogn := rfl
@[simp] theorem setWq_fwdone (s : State) (k : Nat) (f : Wq → Wq) : (s.setWq k f).fwdone = s.fwdone := rfl
@[simp] theorem setWq_fwpend (s : State) (k : Nat) (f : Wq → Wq) : (s.setWq k f).fwpend = s.fwpend := rfl
@[simp] theorem setWq_fwrun (s : State) (k : Nat) (f : Wq → Wq) : (s.setWq k f).fwrun = s.fwrun := rfl
@[simp] theorem setWq_feat (s : State) (k : Nat) (f : Wq → Wq) : (s.setWq k f).feat = s.feat := rfl
@[simp] theorem setWq_negotiated (s : State) (k : Nat) (f : Wq → Wq) : (s.setWq k f).negotiated = s.negotiated := rfl
@[simp] theorem setWq_patch (s : State) (k : Nat) (f : Wq → Wq) : (s.setWq k f).patch = s.patch := rfl
@[simp] theorem setWq_fuseSvn (s : State) (k : Nat) (f : Wq → Wq) : (s.setWq k f).fuseSvn = s.fuseSvn := rfl
@[simp] theorem setWq_errLog (s : State) (k : Nat) (f : Wq → Wq) : (s.setWq k f).errLog = s.errLog := rfl
@[simp] theorem setWq_errCount (s : State) (k : Nat) (f : Wq → Wq) : (s.setWq k f).errCount = s.errCount := rfl
@[simp] theorem setWq_faulted (s : State) (k : Nat) (f : Wq → Wq) : (s.setWq k f).faulted = s.faulted := rfl
@[simp] theorem setWq_ecc (s : State) (k : Nat) (f : Wq → Wq) : (s.setWq k f).ecc = s.ecc := rfl
@[simp] theorem setWq_soft (s : State) (k : Nat) (f : Wq → Wq) : (s.setWq k f).soft = s.soft := rfl
@[simp] theorem setWq_eccCorrected (s : State) (k : Nat) (f : Wq → Wq) : (s.setWq k f).eccCorrected = s.eccCorrected := rfl
@[simp] theorem setWq_modnum (s : State) (k : Nat) (f : Wq → Wq) : (s.setWq k f).modnum = s.modnum := rfl
@[simp] theorem setWq_bindings (s : State) (k : Nat) (f : Wq → Wq) : (s.setWq k f).bindings = s.bindings := rfl
@[simp] theorem setWq_mhz (s : State) (k : Nat) (f : Wq → Wq) : (s.setWq k f).mhz = s.mhz := rfl
@[simp] theorem setWq_cycles (s : State) (k : Nat) (f : Wq → Wq) : (s.setWq k f).cycles = s.cycles := rfl
@[simp] theorem setWq_vgrowQ (s : State) (k : Nat) (f : Wq → Wq) : (s.setWq k f).vgrowQ = s.vgrowQ := rfl
@[simp] theorem setWq_frozen (s : State) (k : Nat) (f : Wq → Wq) : (s.setWq k f).frozen = s.frozen := rfl
@[simp] theorem setWq_frzFuse (s : State) (k : Nat) (f : Wq → Wq) : (s.setWq k f).frzFuse = s.frzFuse := rfl
@[simp] theorem setWq_msix (s : State) (k : Nat) (f : Wq → Wq) : (s.setWq k f).msix = s.msix := rfl
@[simp] theorem setWq_out (s : State) (k : Nat) (f : Wq → Wq) : (s.setWq k f).out = s.out := rfl
@[simp] theorem setWq_evalVf (s : State) (k : Nat) (f : Wq → Wq) : (s.setWq k f).evalVf = s.evalVf := rfl
@[simp] theorem setWq_cur (s : State) (k : Nat) (f : Wq → Wq) : (s.setWq k f).cur = s.cur := rfl
@[simp] theorem setWq_agenda (s : State) (k : Nat) (f : Wq → Wq) : (s.setWq k f).agenda = s.agenda := rfl
@[simp] theorem setWq_free (s : State) (k : Nat) (f : Wq → Wq) : (s.setWq k f).free = s.free := rfl
@[simp] theorem setWq_handle (s : State) (k : Nat) (f : Wq → Wq) : (s.setWq k f).handle = s.handle := rfl
@[simp] theorem setWq_walks (s : State) (k : Nat) (f : Wq → Wq) : (s.setWq k f).walks = s.walks := rfl
@[simp] theorem setWq_misses (s : State) (k : Nat) (f : Wq → Wq) : (s.setWq k f).misses = s.misses := rfl
@[simp] theorem setWq_asks (s : State) (k : Nat) (f : Wq → Wq) : (s.setWq k f).asks = s.asks := rfl
@[simp] theorem setWq_held (s : State) (k : Nat) (f : Wq → Wq) : (s.setWq k f).held = s.held := rfl
@[simp] theorem setWq_inbox (s : State) (k : Nat) (f : Wq → Wq) : (s.setWq k f).inbox = s.inbox := rfl
@[simp] theorem setWq_pend (s : State) (k : Nat) (f : Wq → Wq) : (s.setWq k f).pend = s.pend := rfl
@[simp] theorem setWq_uses (s : State) (k : Nat) (f : Wq → Wq) : (s.setWq k f).uses = s.uses := rfl
@[simp] theorem setWq_l2 (s : State) (k : Nat) (f : Wq → Wq) : (s.setWq k f).l2 = s.l2 := rfl
@[simp] theorem setWq_ptp (s : State) (k : Nat) (f : Wq → Wq) : (s.setWq k f).ptp = s.ptp := rfl
@[simp] theorem setWq_sram (s : State) (k : Nat) (f : Wq → Wq) : (s.setWq k f).sram = s.sram := rfl
@[simp] theorem setWq_frozenAt (s : State) (k : Nat) (f : Wq → Wq) : (s.setWq k f).frozenAt = s.frozenAt := rfl

/-! ### send -/

@[simp] theorem send_mem (s : State) (m : Sent) : (s.send m).mem = s.mem := rfl
@[simp] theorem send_fold (s : State) (m : Sent) : (s.send m).fold = s.fold := rfl
@[simp] theorem send_groups (s : State) (m : Sent) : (s.send m).groups = s.groups := rfl
@[simp] theorem send_teams (s : State) (m : Sent) : (s.send m).teams = s.teams := rfl
@[simp] theorem send_clusters (s : State) (m : Sent) : (s.send m).clusters = s.clusters := rfl
@[simp] theorem send_grids (s : State) (m : Sent) : (s.send m).grids = s.grids := rfl
@[simp] theorem send_vfs (s : State) (m : Sent) : (s.send m).vfs = s.vfs := rfl
@[simp] theorem send_wqs (s : State) (m : Sent) : (s.send m).wqs = s.wqs := rfl
@[simp] theorem send_queues (s : State) (m : Sent) : (s.send m).queues = s.queues := rfl
@[simp] theorem send_paddocks (s : State) (m : Sent) : (s.send m).paddocks = s.paddocks := rfl
@[simp] theorem send_ports (s : State) (m : Sent) : (s.send m).ports = s.ports := rfl
@[simp] theorem send_memPorts (s : State) (m : Sent) : (s.send m).memPorts = s.memPorts := rfl
@[simp] theorem send_regions (s : State) (m : Sent) : (s.send m).regions = s.regions := rfl
@[simp] theorem send_sets (s : State) (m : Sent) : (s.send m).sets = s.sets := rfl
@[simp] theorem send_migrations (s : State) (m : Sent) : (s.send m).migrations = s.migrations := rfl
@[simp] theorem send_tlb (s : State) (m : Sent) : (s.send m).tlb = s.tlb := rfl
@[simp] theorem send_unit (s : State) (m : Sent) : (s.send m).unit = s.unit := rfl
@[simp] theorem send_bell (s : State) (m : Sent) : (s.send m).bell = s.bell := rfl
@[simp] theorem send_adj (s : State) (m : Sent) : (s.send m).adj = s.adj := rfl
@[simp] theorem send_stepErr (s : State) (m : Sent) : (s.send m).stepErr = s.stepErr := rfl
@[simp] theorem send_src (s : State) (m : Sent) : (s.send m).src = s.src := rfl
@[simp] theorem send_latchHost (s : State) (m : Sent) : (s.send m).latchHost = s.latchHost := rfl
@[simp] theorem send_latchCtl (s : State) (m : Sent) : (s.send m).latchCtl = s.latchCtl := rfl
@[simp] theorem send_fwqbase (s : State) (m : Sent) : (s.send m).fwqbase = s.fwqbase := rfl
@[simp] theorem send_fwcbase (s : State) (m : Sent) : (s.send m).fwcbase = s.fwcbase := rfl
@[simp] theorem send_fwtail (s : State) (m : Sent) : (s.send m).fwtail = s.fwtail := rfl
@[simp] theorem send_fwhead (s : State) (m : Sent) : (s.send m).fwhead = s.fwhead := rfl
@[simp] theorem send_fwen (s : State) (m : Sent) : (s.send m).fwen = s.fwen := rfl
@[simp] theorem send_fwlogn (s : State) (m : Sent) : (s.send m).fwlogn = s.fwlogn := rfl
@[simp] theorem send_fwdone (s : State) (m : Sent) : (s.send m).fwdone = s.fwdone := rfl
@[simp] theorem send_fwpend (s : State) (m : Sent) : (s.send m).fwpend = s.fwpend := rfl
@[simp] theorem send_fwrun (s : State) (m : Sent) : (s.send m).fwrun = s.fwrun := rfl
@[simp] theorem send_feat (s : State) (m : Sent) : (s.send m).feat = s.feat := rfl
@[simp] theorem send_negotiated (s : State) (m : Sent) : (s.send m).negotiated = s.negotiated := rfl
@[simp] theorem send_patch (s : State) (m : Sent) : (s.send m).patch = s.patch := rfl
@[simp] theorem send_fuseSvn (s : State) (m : Sent) : (s.send m).fuseSvn = s.fuseSvn := rfl
@[simp] theorem send_errLog (s : State) (m : Sent) : (s.send m).errLog = s.errLog := rfl
@[simp] theorem send_errCount (s : State) (m : Sent) : (s.send m).errCount = s.errCount := rfl
@[simp] theorem send_faulted (s : State) (m : Sent) : (s.send m).faulted = s.faulted := rfl
@[simp] theorem send_ecc (s : State) (m : Sent) : (s.send m).ecc = s.ecc := rfl
@[simp] theorem send_soft (s : State) (m : Sent) : (s.send m).soft = s.soft := rfl
@[simp] theorem send_eccCorrected (s : State) (m : Sent) : (s.send m).eccCorrected = s.eccCorrected := rfl
@[simp] theorem send_modnum (s : State) (m : Sent) : (s.send m).modnum = s.modnum := rfl
@[simp] theorem send_bindings (s : State) (m : Sent) : (s.send m).bindings = s.bindings := rfl
@[simp] theorem send_mhz (s : State) (m : Sent) : (s.send m).mhz = s.mhz := rfl
@[simp] theorem send_cycles (s : State) (m : Sent) : (s.send m).cycles = s.cycles := rfl
@[simp] theorem send_vgrowQ (s : State) (m : Sent) : (s.send m).vgrowQ = s.vgrowQ := rfl
@[simp] theorem send_frozen (s : State) (m : Sent) : (s.send m).frozen = s.frozen := rfl
@[simp] theorem send_frzFuse (s : State) (m : Sent) : (s.send m).frzFuse = s.frzFuse := rfl
@[simp] theorem send_msix (s : State) (m : Sent) : (s.send m).msix = s.msix := rfl
@[simp] theorem send_evalVf (s : State) (m : Sent) : (s.send m).evalVf = s.evalVf := rfl
@[simp] theorem send_cur (s : State) (m : Sent) : (s.send m).cur = s.cur := rfl
@[simp] theorem send_agenda (s : State) (m : Sent) : (s.send m).agenda = s.agenda := rfl
@[simp] theorem send_free (s : State) (m : Sent) : (s.send m).free = s.free := rfl
@[simp] theorem send_handle (s : State) (m : Sent) : (s.send m).handle = s.handle := rfl
@[simp] theorem send_walks (s : State) (m : Sent) : (s.send m).walks = s.walks := rfl
@[simp] theorem send_misses (s : State) (m : Sent) : (s.send m).misses = s.misses := rfl
@[simp] theorem send_asks (s : State) (m : Sent) : (s.send m).asks = s.asks := rfl
@[simp] theorem send_held (s : State) (m : Sent) : (s.send m).held = s.held := rfl
@[simp] theorem send_inbox (s : State) (m : Sent) : (s.send m).inbox = s.inbox := rfl
@[simp] theorem send_pend (s : State) (m : Sent) : (s.send m).pend = s.pend := rfl
@[simp] theorem send_uses (s : State) (m : Sent) : (s.send m).uses = s.uses := rfl
@[simp] theorem send_l2 (s : State) (m : Sent) : (s.send m).l2 = s.l2 := rfl
@[simp] theorem send_ptp (s : State) (m : Sent) : (s.send m).ptp = s.ptp := rfl
@[simp] theorem send_sram (s : State) (m : Sent) : (s.send m).sram = s.sram := rfl
@[simp] theorem send_frozenAt (s : State) (m : Sent) : (s.send m).frozenAt = s.frozenAt := rfl

/-! ### msixFire -/

@[simp] theorem msixFire_mem (s : State) (v : Nat) : (s.msixFire v).mem = s.mem := rfl
@[simp] theorem msixFire_fold (s : State) (v : Nat) : (s.msixFire v).fold = s.fold := rfl
@[simp] theorem msixFire_groups (s : State) (v : Nat) : (s.msixFire v).groups = s.groups := rfl
@[simp] theorem msixFire_teams (s : State) (v : Nat) : (s.msixFire v).teams = s.teams := rfl
@[simp] theorem msixFire_clusters (s : State) (v : Nat) : (s.msixFire v).clusters = s.clusters := rfl
@[simp] theorem msixFire_grids (s : State) (v : Nat) : (s.msixFire v).grids = s.grids := rfl
@[simp] theorem msixFire_vfs (s : State) (v : Nat) : (s.msixFire v).vfs = s.vfs := rfl
@[simp] theorem msixFire_wqs (s : State) (v : Nat) : (s.msixFire v).wqs = s.wqs := rfl
@[simp] theorem msixFire_queues (s : State) (v : Nat) : (s.msixFire v).queues = s.queues := rfl
@[simp] theorem msixFire_paddocks (s : State) (v : Nat) : (s.msixFire v).paddocks = s.paddocks := rfl
@[simp] theorem msixFire_ports (s : State) (v : Nat) : (s.msixFire v).ports = s.ports := rfl
@[simp] theorem msixFire_memPorts (s : State) (v : Nat) : (s.msixFire v).memPorts = s.memPorts := rfl
@[simp] theorem msixFire_regions (s : State) (v : Nat) : (s.msixFire v).regions = s.regions := rfl
@[simp] theorem msixFire_sets (s : State) (v : Nat) : (s.msixFire v).sets = s.sets := rfl
@[simp] theorem msixFire_migrations (s : State) (v : Nat) : (s.msixFire v).migrations = s.migrations := rfl
@[simp] theorem msixFire_tlb (s : State) (v : Nat) : (s.msixFire v).tlb = s.tlb := rfl
@[simp] theorem msixFire_unit (s : State) (v : Nat) : (s.msixFire v).unit = s.unit := rfl
@[simp] theorem msixFire_bell (s : State) (v : Nat) : (s.msixFire v).bell = s.bell := rfl
@[simp] theorem msixFire_adj (s : State) (v : Nat) : (s.msixFire v).adj = s.adj := rfl
@[simp] theorem msixFire_stepErr (s : State) (v : Nat) : (s.msixFire v).stepErr = s.stepErr := rfl
@[simp] theorem msixFire_src (s : State) (v : Nat) : (s.msixFire v).src = s.src := rfl
@[simp] theorem msixFire_latchHost (s : State) (v : Nat) : (s.msixFire v).latchHost = s.latchHost := rfl
@[simp] theorem msixFire_latchCtl (s : State) (v : Nat) : (s.msixFire v).latchCtl = s.latchCtl := rfl
@[simp] theorem msixFire_fwqbase (s : State) (v : Nat) : (s.msixFire v).fwqbase = s.fwqbase := rfl
@[simp] theorem msixFire_fwcbase (s : State) (v : Nat) : (s.msixFire v).fwcbase = s.fwcbase := rfl
@[simp] theorem msixFire_fwtail (s : State) (v : Nat) : (s.msixFire v).fwtail = s.fwtail := rfl
@[simp] theorem msixFire_fwhead (s : State) (v : Nat) : (s.msixFire v).fwhead = s.fwhead := rfl
@[simp] theorem msixFire_fwen (s : State) (v : Nat) : (s.msixFire v).fwen = s.fwen := rfl
@[simp] theorem msixFire_fwlogn (s : State) (v : Nat) : (s.msixFire v).fwlogn = s.fwlogn := rfl
@[simp] theorem msixFire_fwdone (s : State) (v : Nat) : (s.msixFire v).fwdone = s.fwdone := rfl
@[simp] theorem msixFire_fwpend (s : State) (v : Nat) : (s.msixFire v).fwpend = s.fwpend := rfl
@[simp] theorem msixFire_fwrun (s : State) (v : Nat) : (s.msixFire v).fwrun = s.fwrun := rfl
@[simp] theorem msixFire_feat (s : State) (v : Nat) : (s.msixFire v).feat = s.feat := rfl
@[simp] theorem msixFire_negotiated (s : State) (v : Nat) : (s.msixFire v).negotiated = s.negotiated := rfl
@[simp] theorem msixFire_patch (s : State) (v : Nat) : (s.msixFire v).patch = s.patch := rfl
@[simp] theorem msixFire_fuseSvn (s : State) (v : Nat) : (s.msixFire v).fuseSvn = s.fuseSvn := rfl
@[simp] theorem msixFire_errLog (s : State) (v : Nat) : (s.msixFire v).errLog = s.errLog := rfl
@[simp] theorem msixFire_errCount (s : State) (v : Nat) : (s.msixFire v).errCount = s.errCount := rfl
@[simp] theorem msixFire_faulted (s : State) (v : Nat) : (s.msixFire v).faulted = s.faulted := rfl
@[simp] theorem msixFire_ecc (s : State) (v : Nat) : (s.msixFire v).ecc = s.ecc := rfl
@[simp] theorem msixFire_soft (s : State) (v : Nat) : (s.msixFire v).soft = s.soft := rfl
@[simp] theorem msixFire_eccCorrected (s : State) (v : Nat) : (s.msixFire v).eccCorrected = s.eccCorrected := rfl
@[simp] theorem msixFire_modnum (s : State) (v : Nat) : (s.msixFire v).modnum = s.modnum := rfl
@[simp] theorem msixFire_bindings (s : State) (v : Nat) : (s.msixFire v).bindings = s.bindings := rfl
@[simp] theorem msixFire_mhz (s : State) (v : Nat) : (s.msixFire v).mhz = s.mhz := rfl
@[simp] theorem msixFire_cycles (s : State) (v : Nat) : (s.msixFire v).cycles = s.cycles := rfl
@[simp] theorem msixFire_vgrowQ (s : State) (v : Nat) : (s.msixFire v).vgrowQ = s.vgrowQ := rfl
@[simp] theorem msixFire_frozen (s : State) (v : Nat) : (s.msixFire v).frozen = s.frozen := rfl
@[simp] theorem msixFire_frzFuse (s : State) (v : Nat) : (s.msixFire v).frzFuse = s.frzFuse := rfl
@[simp] theorem msixFire_evalVf (s : State) (v : Nat) : (s.msixFire v).evalVf = s.evalVf := rfl
@[simp] theorem msixFire_cur (s : State) (v : Nat) : (s.msixFire v).cur = s.cur := rfl
@[simp] theorem msixFire_agenda (s : State) (v : Nat) : (s.msixFire v).agenda = s.agenda := rfl
@[simp] theorem msixFire_free (s : State) (v : Nat) : (s.msixFire v).free = s.free := rfl
@[simp] theorem msixFire_handle (s : State) (v : Nat) : (s.msixFire v).handle = s.handle := rfl
@[simp] theorem msixFire_walks (s : State) (v : Nat) : (s.msixFire v).walks = s.walks := rfl
@[simp] theorem msixFire_misses (s : State) (v : Nat) : (s.msixFire v).misses = s.misses := rfl
@[simp] theorem msixFire_asks (s : State) (v : Nat) : (s.msixFire v).asks = s.asks := rfl
@[simp] theorem msixFire_held (s : State) (v : Nat) : (s.msixFire v).held = s.held := rfl
@[simp] theorem msixFire_inbox (s : State) (v : Nat) : (s.msixFire v).inbox = s.inbox := rfl
@[simp] theorem msixFire_pend (s : State) (v : Nat) : (s.msixFire v).pend = s.pend := rfl
@[simp] theorem msixFire_uses (s : State) (v : Nat) : (s.msixFire v).uses = s.uses := rfl
@[simp] theorem msixFire_l2 (s : State) (v : Nat) : (s.msixFire v).l2 = s.l2 := rfl
@[simp] theorem msixFire_ptp (s : State) (v : Nat) : (s.msixFire v).ptp = s.ptp := rfl
@[simp] theorem msixFire_sram (s : State) (v : Nat) : (s.msixFire v).sram = s.sram := rfl
@[simp] theorem msixFire_frozenAt (s : State) (v : Nat) : (s.msixFire v).frozenAt = s.frozenAt := rfl

/-! ### Lookups -/

@[simp] theorem group_setGroup (s : State) (k : Nat) (x : Group) : (s.setGroup k x).group k = some x := Laws.kget_put_same ..
@[simp] theorem group_setGroup_other (s : State) {k j : Nat} (x : Group) (h : j ≠ k) : (s.setGroup k x).group j = s.group j :=
  Laws.kget_put_other _ _ h
@[simp] theorem setGroup_setGroup (s : State) (k : Nat) (x y : Group) : (s.setGroup k x).setGroup k y = s.setGroup k y := by
  simp [State.setGroup]
@[simp] theorem group_setVf (s : State) (k j : Nat) (f : Vf → Vf) : (s.setVf k f).group j = s.group j := rfl
@[simp] theorem group_count (s : State) (vf n k j : Nat) : (s.count vf n k).group j = s.group j := rfl
@[simp] theorem team_setGroup (s : State) (k : Nat) (x : Group) (j : Nat) : (s.setGroup k x).team j = s.team j := rfl
@[simp] theorem team_setVf (s : State) (k : Nat) (f : Vf → Vf) (j : Nat) : (s.setVf k f).team j = s.team j := rfl
@[simp] theorem team_count (s : State) (vf n k j : Nat) : (s.count vf n k).team j = s.team j := rfl
@[simp] theorem grid_setGroup (s : State) (k : Nat) (x : Group) (j : Nat) : (s.setGroup k x).grid j = s.grid j := rfl
@[simp] theorem grid_setVf (s : State) (k : Nat) (f : Vf → Vf) (j : Nat) : (s.setVf k f).grid j = s.grid j := rfl
@[simp] theorem grid_count (s : State) (vf n k j : Nat) : (s.count vf n k).grid j = s.grid j := rfl
@[simp] theorem team_setTeam (s : State) (k : Nat) (x : Team) : (s.setTeam k x).team k = some x := Laws.kget_put_same ..
@[simp] theorem grid_setGrid (s : State) (k : Nat) (x : Grid) : (s.setGrid k x).grid k = some x := Laws.kget_put_same ..
@[simp] theorem cluster_setCluster (s : State) (k : Nat) (x : Cluster) : (s.setCluster k x).cluster k = some x := Laws.kget_put_same ..
@[simp] theorem vf_setVf (s : State) (k : Nat) (f : Vf → Vf) : (s.setVf k f).vf k = f (s.vf k) := by
  simp [State.vf, State.setVf]
@[simp] theorem vf_setVf_other (s : State) {k j : Nat} (f : Vf → Vf) (h : j ≠ k) : (s.setVf k f).vf j = s.vf j := by
  simp [State.vf, State.setVf, h]
@[simp] theorem vf_setGroup (s : State) (k : Nat) (x : Group) (j : Nat) : (s.setGroup k x).vf j = s.vf j := rfl
@[simp] theorem pad_setPad (s : State) (k : Nat) (f : Paddock → Paddock) : (s.setPad k f).pad k = f (s.pad k) := by
  simp [State.pad, State.setPad]
@[simp] theorem pad_setPad_other (s : State) {k j : Nat} (f : Paddock → Paddock) (h : j ≠ k) : (s.setPad k f).pad j = s.pad j := by
  simp [State.pad, State.setPad, h]
@[simp] theorem wq_setWq (s : State) (k : Nat) (f : Wq → Wq) : (s.setWq k f).wq k = f (s.wq k) := by
  simp [State.wq, State.setWq]
@[simp] theorem vf_count_other (s : State) {vf j : Nat} (n k : Nat) (h : j ≠ vf) : (s.count vf n k).vf j = s.vf j :=
  vf_setVf_other _ _ h
@[simp] theorem vf_count (s : State) (vf n k : Nat) : (s.count vf n k).vf vf =
    { s.vf vf with ctr := (s.vf vf).ctr.wr (BitVec.ofNat 8 n) ((s.vf vf).ctr.rd (BitVec.ofNat 8 n) + BitVec.ofNat 64 k) } :=
  vf_setVf ..
@[simp] theorem gridOf_setGroup (s : State) (k : Nat) (x g : Group) : (s.setGroup k x).gridOf g = s.gridOf g := rfl
@[simp] theorem gridOf_count (s : State) (vf n k : Nat) (g : Group) : (s.count vf n k).gridOf g = s.gridOf g := rfl
@[simp] theorem gridOf_setPath (s : State) (g : Group) (i : BitVec 3) (p : Path) : s.gridOf (g.setPath i p) = s.gridOf g := rfl
@[simp] theorem vfOf_setPath (s : State) (g : Group) (i : BitVec 3) (p : Path) : s.vfOf (g.setPath i p) = s.vfOf g := rfl

/-! ### Paths -/

theorem path_of_group {s : State} {r : PathRef} {g : Group} (h : s.group r.g = some g) :
    s.path r = (g.paths.rd r.p).map fun p => (g, p) := by
  simp only [State.path, h]
  cases g.paths.rd r.p <;> rfl

theorem group_of_path {s : State} {r : PathRef} {g : Group} {p : Path} (h : s.path r = some (g, p)) :
    s.group r.g = some g ∧ g.paths.rd r.p = some p := by
  simp only [State.path] at h
  split at h
  · rename_i g' hg
    split at h
    · rename_i p' hp
      cases h
      exact ⟨hg, hp⟩
    · cases h
  · cases h

@[simp] theorem paths_setPath (g : Group) (i : BitVec 3) (p : Path) : (g.setPath i p).paths.rd i = some p := Laws.rd_wr_same ..
@[simp] theorem paths_setPath_other (g : Group) {i j : BitVec 3} (p : Path) (h : j ≠ i) : (g.setPath i p).paths.rd j = g.paths.rd j :=
  Laws.rd_wr_other _ _ h
@[simp] theorem setPath_setPath (g : Group) (i : BitVec 3) (p q : Path) : (g.setPath i p).setPath i q = g.setPath i q := by
  simp [Group.setPath]

theorem path_setGroup (s : State) (r : PathRef) (g : Group) (p : Path) (h : g.paths.rd r.p = some p) :
    (s.setGroup r.g g).path r = some (g, p) := by
  rw [path_of_group (group_setGroup ..), h]; rfl

theorem setPath_eq {s : State} {r : PathRef} {g : Group} (p : Path) (h : s.group r.g = some g) :
    s.setPath r p = s.setGroup r.g (g.setPath r.p p) := by
  simp only [State.setPath, h]

end Sys2Proof.Machine
end

