-- ==== Sys2Proof/Laws/Issue.lean ====
section
/-! SUPPORT. What the issue of an instruction does, once for every meaning: an instruction that issues runs its own effect, and one
whose effect stays within its group and path completes. -/

namespace Sys2Proof.Machine

@[simp] theorem setVf_count (s : State) (vf n k : Nat) : s.count vf n k =
    s.setVf vf fun v => { v with ctr := v.ctr.wr (BitVec.ofNat 8 n) (v.ctr.rd (BitVec.ofNat 8 n) + BitVec.ofNat 64 k) } := rfl

theorem issued_kept (p : Path) (g : Group) (h : Hdr) (u : Uses) :
    (p.issued g h u).mask = p.mask ∧ (p.issued g h u).pc = p.pc ∧ (p.issued g h u).s = p.s ∧ (p.issued g h u).sup = p.sup ∧
      (p.issued g h u).hold = p.hold ∧ (p.issued g h u).entry = p.entry ∧ (p.issued g h u).written = p.written :=
  ⟨rfl, rfl, rfl, rfl, rfl, rfl, rfl⟩

/-- Where no word of SRAM holds an error, none is met. -/
theorem sramMeet_none {s : State} (hs : s.sram = []) (vf : Nat) (hit : SramAt → Bool) : sramMeet s vf hit = (none, s) := by
  simp [sramMeet, hs]

theorem renew_none {s : State} (hs : s.sram = []) (r : PathRef) (u : Uses) (em : Mask) : renew s r u em = s := by
  cases s
  simp only at hs
  subst hs
  rfl

/-- Nothing bars an instruction that issues. -/
theorem barred_none {s : State} {r : PathRef} {g : Group} {p : Path} {h : Hdr} {u : Uses} (hi : Issues s r g p h u) :
    barred u g p (p.mask &&& g.pred h) = none := by
  have hl : (u.priv && !p.sup) = false := by
    cases hu : u.priv
    · rfl
    · simp [hi.level hu]
  simp only [barred, hl, hi.inside, hi.windows, Bool.false_eq_true, if_false, ite_self]

/-- An instruction that issues runs its effect on its context. -/
theorem run_issues {s : State} {r : PathRef} {g : Group} {p : Path} {h : Hdr} {u : Uses} (hi : Issues s r g p h u)
    (body : Cx → State → Res) :
    run u h body s = retire s (cxOf s r g p h u) h (body (cxOf s r g p h u) (issuedSt s r g p h u)) := by
  simp only [run, hi.cur, hi.path, barred_none hi, hi.landed, hi.after, Bool.or_self, Bool.false_eq_true, if_false, renew_none hi.sound, sramMeet_none hi.sound]
  rfl

/-- How an instruction ends that has issued from a path that waits for no other module. -/
theorem retire_done {s t : State} {r : PathRef} {g : Group} {p : Path} {h : Hdr} {u : Uses} (hi : Issues s r g p h u) :
    retire s (cxOf s r g p h u) h (.done t) = goOn t (cxOf s r g p h u) h (p.pc + hdrLen h) := by
  have e : (p.issued g h u).st = .ready := hi.ready
  simp [retire, cxOf, e]

theorem retire_jump {s t : State} {r : PathRef} {g : Group} {p : Path} {h : Hdr} {u : Uses} (hi : Issues s r g p h u) (pc : W64) :
    retire s (cxOf s r g p h u) h (.jump t pc) = goOn t (cxOf s r g p h u) h pc := by
  have e : (p.issued g h u).st = .ready := hi.ready
  simp [retire, cxOf, e]

theorem retire_fault {s t : State} {r : PathRef} {g : Group} {p : Path} {h : Hdr} {u : Uses} (hi : Issues s r g p h u) (f : FaultInfo) :
    retire s (cxOf s r g p h u) h (.fault t f) = settleHold (deliver t r f p.pc (p.pc + hdrLen h)) r := by
  have e : (p.issued g h u).st = .ready := hi.ready
  simp [retire, cxOf, e]

/-- What a path that goes on keeps: everything but its pc, its state, and where it stopped. -/
structure GoesOn (q q' : Path) (pc : W64) : Prop where
  pc : q'.pc = pc
  ready : q'.st = .ready
  same : q' = { q with pc := q'.pc, st := q'.st, stopped := q'.stopped }

theorem safePoint_cases (s : State) (r : PathRef) (h : Option W64) {g : Group} {p : Path} (hp : s.path r = some (g, p)) :
    safePoint s r h = s ∨ ∃ w, safePoint s r h = s.setPath r { p with stopped := some w } := by
  cases h with
  | none => exact .inl rfl
  | some w =>
    simp only [safePoint, hp]
    split
    · split
      · split
        · exact .inl rfl
        · exact .inr ⟨w, rfl⟩
      · exact .inl rfl
    · exact .inl rfl

/-- Completion at an address, where no hold waits: only the path entry changes. -/
theorem goOn_path {s : State} {c : Cx} {h : Hdr} {pc : W64} {g : Group} {q : Path} (hp : s.path c.r = some (g, q))
    (hh : q.hold = false) :
    ∃ q', GoesOn q q' pc ∧ goOn s c h pc = s.setGroup c.r.g (g.setPath c.r.p q') ∧
      (goOn s c h pc).path c.r = some (g.setPath c.r.p q', q') := by
  obtain ⟨hg, hq⟩ := group_of_path hp
  let q1 : Path := { q with pc := pc, st := .ready }
  have e1 : s.setPath c.r q1 = s.setGroup c.r.g (g.setPath c.r.p q1) := setPath_eq q1 hg
  have p1 : (s.setGroup c.r.g (g.setPath c.r.p q1)).path c.r = some (g.setPath c.r.p q1, q1) :=
    path_setGroup _ _ _ _ (paths_setPath ..)
  have key : ∀ q' : Path, GoesOn q q' pc → settleHold (s.setGroup c.r.g (g.setPath c.r.p q')) c.r =
      s.setGroup c.r.g (g.setPath c.r.p q') := by
    intro q' hq'
    have pp : (s.setGroup c.r.g (g.setPath c.r.p q')).path c.r = some (g.setPath c.r.p q', q') :=
      path_setGroup _ _ _ _ (paths_setPath ..)
    have : q'.hold = false := by rw [hq'.same]; exact hh
    simp only [settleHold, pp, hq'.ready, this, Bool.false_eq_true, if_false]
  have fin : ∀ q' : Path, (s.setGroup c.r.g (g.setPath c.r.p q')).path c.r = some (g.setPath c.r.p q', q') :=
    fun q' => path_setGroup _ _ _ _ (paths_setPath ..)
  simp only [goOn, hp]
  rw [e1]
  rcases safePoint_cases _ c.r h.live p1 with hs | ⟨w, hs⟩
  · rw [hs, key q1 ⟨rfl, rfl, rfl⟩]
    exact ⟨q1, ⟨rfl, rfl, rfl⟩, rfl, fin q1⟩
  · rw [hs, setPath_eq _ (group_setGroup ..), setGroup_setGroup, setPath_setPath]
    have h2 : GoesOn q { q1 with stopped := some w } pc := ⟨rfl, rfl, rfl⟩
    rw [key _ h2]
    exact ⟨_, h2, rfl, fin _⟩

/-- What an effect on group and path must keep for the path to go on as it was. -/
structure Keeps (r : PathRef) (g G : Group) (p q : Path) : Prop where
  lanes : q.mask = p.mask
  merge : q.rcv = p.rcv ∧ q.depth = p.depth ∧ q.join = p.join
  level : q.sup = p.sup ∧ q.fcause = p.fcause ∧ q.fpc = p.fpc ∧ q.entry = p.entry
  hold : q.hold = p.hold
  others : ∀ i, i ≠ r.p → G.paths.rd i = g.paths.rd i
  slots : G.slotA = g.slotA ∧ G.slotB = g.slotB ∧ G.fifo = g.fifo ∧ G.joins = g.joins ∧ G.ser = g.ser

/-- An instruction whose effect is a change of group and path, at the next address or elsewhere, completes. -/
theorem run_regs {s : State} {r : PathRef} {g : Group} {p : Path} {h : Hdr} {u : Uses} (hi : Issues s r g p h u) (hh : p.hold = false)
    (G : Group) (q : Path) (pc : W64) (body : Cx → State → Res)
    (hb : retire s (cxOf s r g p h u) h (body (cxOf s r g p h u) (issuedSt s r g p h u)) =
      goOn ((issuedSt s r g p h u).setGroup r.g (G.setPath r.p q)) (cxOf s r g p h u) h pc)
    (hk : Keeps r g G p q) :
    ∃ t q', run u h body s = t ∧ Went t r g (G.setPath r.p q') p q' pc ∧ Quiet s t r (s.vfOf g) ∧ GoesOn q q' pc := by
  have pp : ((issuedSt s r g p h u).setGroup r.g (G.setPath r.p q)).path (cxOf s r g p h u).r = some (G.setPath r.p q, q) :=
    path_setGroup _ _ _ _ (paths_setPath ..)
  obtain ⟨q', hq', ht, hp'⟩ := goOn_path (h := h) (pc := pc) pp (hk.hold.trans hh)
  refine ⟨_, q', (run_issues hi body).trans (hb.trans ht), ?_, ?_, hq'⟩
  · have hs := hq'.same
    refine ⟨?_, hq'.pc, hq'.ready, ?_, ?_, ?_, ?_, ?_⟩
    · show State.path (State.setGroup _ r.g ((G.setPath r.p q).setPath r.p q')) r = _
      rw [setPath_setPath]
      exact path_setGroup _ _ _ _ (paths_setPath ..)
    · rw [hs]; exact hk.lanes
    · rw [hs]; exact hk.merge
    · rw [hs]; exact hk.level
    · intro i hi'
      rw [paths_setPath_other _ _ hi']; exact hk.others i hi'
    · exact hk.slots
  · refine ⟨?_, ?_, ?_, ?_, fun _ => rfl⟩
    · simp [issuedSt, State.setGroup, State.setVf]
    · intro k hk'
      simp [issuedSt, cxOf, hk']
    · intro n hn
      simp [issuedSt, hn]
    · simp [issuedSt]

/-! ### Effects on one register -/

theorem getS_setS (p : Path) (d n : SReg) (v : W64) : (p.setS d v).getS n = if n = d ∧ n ≠ 0 then v else p.getS n := by
  by_cases hn : n = 0
  · rw [if_neg (fun h => h.2 hn)]
    simp only [Path.getS, if_pos hn]
  · by_cases h : n = d
    · subst h
      rw [if_pos ⟨rfl, hn⟩]
      simp only [Path.setS, Path.getS, if_neg hn, Laws.rd_wr_same]
    · rw [if_neg (fun x => h x.1)]
      simp only [Path.setS, Path.getS, if_neg hn]
      split
      · rfl
      · exact Laws.rd_wr_other _ _ h

theorem getS_of_same {q q' : Path} {pc : W64} (h : GoesOn q q' pc) (n : SReg) : q'.getS n = q.getS n := by
  rw [h.same]; rfl

theorem getS_issued (p : Path) (g : Group) (h : Hdr) (u : Uses) (n : SReg) : (p.issued g h u).getS n = p.getS n := rfl

theorem getV_setV (g : Group) (d n : VReg) (m : Mask) (x : Lanes W32) (l : Lane) :
    ((g.setV d m x).getV n).rd l = if n = d ∧ m.has l then x.rd l else (g.getV n).rd l := by
  by_cases h : n = d
  · subst h; simp [Group.setV, Group.getV]
  · simp [Group.setV, Group.getV, h]

theorem getK_setK (g : Group) (d n : KReg) (m x : Mask) (l : Lane) :
    ((g.setK d m x).getK n).has l = if n = d ∧ n ≠ 0 ∧ m.has l then x.has l else (g.getK n).has l := by
  by_cases hn : n = 0
  · rw [if_neg (fun h => h.2.1 hn)]
    simp only [Group.getK, if_pos hn]
  · by_cases h : n = d
    · subst h
      by_cases hm : m.has l
      · rw [if_pos ⟨rfl, hn, hm⟩]
        simp only [Group.setK, Group.getK, if_neg hn, Laws.rd_wr_same]
        simp [hm]
      · rw [if_neg fun h => hm h.2.2]
        simp only [Group.setK, Group.getK, if_neg hn, Laws.rd_wr_same]
        simp [hm]
    · rw [if_neg (fun x => h x.1)]
      simp only [Group.setK, Group.getK, if_neg hn]
      split
      · rfl
      · rw [Laws.rd_wr_other _ _ h]

/-- A scalar result. -/
theorem run_scalar (u : Uses) (h : Hdr) (d : SReg) (f : Cx → W64) (P : Group → Path → W64 → Prop) (i : Instr)
    (he : ∀ s, exec i s = .next (run u h (scalar d f) s)) (hf : ∀ s r g p, P g p (f (cxOf s r g p h u))) :
    WritesScalarSuch i h u d P := by
  intro s r g p hi hh
  obtain ⟨t, q', ht, hw, hq, hg⟩ := run_regs hi hh g ((p.issued g h u).setS d (f (cxOf s r g p h u))) (p.pc + hdrLen h)
    (scalar d f) (by
      refine (retire_done hi).trans ?_
      show goOn (State.setGroup _ r.g ((g.setPath r.p (p.issued g h u)).setPath r.p _)) _ _ _ = _
      rw [setPath_setPath]; rfl)
    (by
      by_cases hd : d = 0
      · simp only [Path.setS, hd, if_true]
        exact ⟨rfl, ⟨rfl, rfl, rfl⟩, ⟨rfl, rfl, rfl, rfl⟩, rfl, fun _ _ => rfl, rfl, rfl, rfl, rfl, rfl⟩
      · simp only [Path.setS, hd, if_false]
        exact ⟨rfl, ⟨rfl, rfl, rfl⟩, ⟨rfl, rfl, rfl, rfl⟩, rfl, fun _ _ => rfl, rfl, rfl, rfl, rfl, rfl⟩)
  refine ⟨t, q', _, by rw [he, ht], hw, hq, hf s r g p, fun n => ?_⟩
  rw [getS_of_same hg, getS_setS]; rfl

/-- An effect on the registers of the group. -/
theorem run_group {s : State} {r : PathRef} {g : Group} {p : Path} {h : Hdr} {u : Uses} (hi : Issues s r g p h u) (hh : p.hold = false)
    (f : Cx → Group) (G : Group)
    (hf : (f (cxOf s r g p h u)).setPath r.p (p.issued g h u) = G.setPath r.p (p.issued g h u))
    (hp : ∀ i, i ≠ r.p → G.paths.rd i = g.paths.rd i)
    (hs : G.slotA = g.slotA ∧ G.slotB = g.slotB ∧ G.fifo = g.fifo ∧ G.joins = g.joins ∧ G.ser = g.ser) :
    ∃ t q', run u h (regs fun c => (f c, c.p)) s = t ∧ Went t r g (G.setPath r.p q') p q' (p.pc + hdrLen h) ∧
      Quiet s t r (s.vfOf g) ∧ ∀ n, q'.getS n = p.getS n := by
  obtain ⟨t, q', ht, hw, hq, hg⟩ := run_regs hi hh G (p.issued g h u) (p.pc + hdrLen h) (regs fun c => (f c, c.p))
    (by
      refine (retire_done hi).trans ?_
      show goOn (State.setGroup _ r.g ((f (cxOf s r g p h u)).setPath r.p (p.issued g h u))) _ _ _ = _
      rw [hf])
    ⟨rfl, ⟨rfl, rfl, rfl⟩, ⟨rfl, rfl, rfl, rfl⟩, rfl, hp, hs⟩
  exact ⟨t, q', ht, hw, hq, fun n => by rw [getS_of_same hg]; rfl⟩

/-- A predicate result. -/
theorem run_pred (u : Uses) (h : Hdr) (d : KReg) (f : Cx → Mask) (v : Group → Path → Mask) (i : Instr)
    (he : ∀ s, exec i s = .next (run u h (kTo d f) s)) (hf : ∀ s r g p, f (cxOf s r g p h u) = v g p) : WritesPred i h u d v := by
  intro s r g p hi hh
  obtain ⟨t, q', ht, hw, hq, hg⟩ := run_group hi hh (fun c => c.g.setK d c.em (f c)) (g.setK d (emaskOf g p h) (v g p))
    (by
      rw [hf]
      simp only [Group.setK, cxOf]
      split <;> simp [Group.setPath])
    (by intro i _; simp only [Group.setK]; split <;> rfl)
    (by simp only [Group.setK]; split <;> exact ⟨rfl, rfl, rfl, rfl, rfl⟩)
  refine ⟨t, _, q', by rw [he]; exact congrArg _ ht, hw, hq, ?_, hg, fun n l => ?_⟩
  · simp only [Group.setK]; split <;> rfl
  · exact getK_setK g d n (emaskOf g p h) (v g p) l

/-- Lane results. -/
theorem run_lanes (u : Uses) (h : Hdr) (d : VReg) (f : Cx → Lanes W32) (P : Group → Path → Lane → W32 → Prop) (i : Instr)
    (he : ∀ s, exec i s = .next (run u h (lanesTo d f) s)) (hf : ∀ s r g p l, P g p l ((f (cxOf s r g p h u)).rd l)) :
    WritesLanesSuch i h u [d] fun g p _ l x => P g p l x := by
  intro s r g p hi hh
  obtain ⟨t, q', ht, hw, hq, hg⟩ := run_group hi hh (fun c => c.g.setV d c.em (f c))
    (g.setV d (emaskOf g p h) (f (cxOf s r g p h u))) (by
      generalize f (cxOf s r g p h u) = x
      show ((g.setPath r.p (p.issued g h u)).setV d (emaskOf g p h) x).setPath r.p (p.issued g h u) = _
      simp only [Group.setPath, Group.setV, Laws.wr_wr]) (fun _ _ => rfl) ⟨rfl, rfl, rfl, rfl, rfl⟩
  refine ⟨t, _, q', by rw [he]; exact congrArg _ ht, hw, hq, rfl, fun _ => rfl, hg, fun n l hn hl => ?_, fun n l hn => ?_⟩
  · cases List.mem_singleton.1 hn
    have e := getV_setV g d d (emaskOf g p h) (f (cxOf s r g p h u)) l
    rw [if_pos ⟨rfl, hl⟩] at e
    exact e ▸ hf s r g p l
  · have e := getV_setV g d n (emaskOf g p h) (f (cxOf s r g p h u)) l
    rw [if_neg fun x => hn ⟨List.mem_singleton.2 x.1, x.2⟩] at e
    exact e

/-- A result per lane. -/
theorem run_lane (u : Uses) (h : Hdr) (d : VReg) (f : Cx → Lane → W32) (v : Group → Path → Lane → W32) (i : Instr)
    (he : ∀ s, exec i s = .next (run u h (perLane d f) s)) (hf : ∀ s r g p l, f (cxOf s r g p h u) l = v g p l) :
    WritesLanes i h u d v :=
  run_lanes u h d _ _ i he fun s r g p l => by rw [Laws.rd_gen]; exact hf s r g p l

/-- A result per element. -/
theorem run_elements (u : Uses) (h : Hdr) (d : VReg) (w : Width) (half : Half) (f : Cx → Lane → Nat → BitVec (widthBits w))
    (v : Group → Path → Lane → Nat → BitVec (widthBits w)) (i : Instr) (he : ∀ s, exec i s = .next (run u h (perElt w half d f) s))
    (hf : ∀ s r g p l e, f (cxOf s r g p h u) l e = v g p l e) : WritesElements i h u d w half v :=
  run_lanes u h d _ (fun g p l x => Elementwise w half ((g.getV d).rd l) x (v g p l)) i he fun s r g p l => by
    rw [Laws.rd_gen]
    have e : f (cxOf s r g p h u) l = v g p l := funext (hf s r g p l)
    show Elementwise w half _ (elements _ _ _ (f (cxOf s r g p h u) l)) _
    rw [e]
    exact elt_elements w half _ _

theorem narrow_settled (w : Nat) (sat unsigned : Bool) (x : Int) : narrow w sat unsigned x = settled w sat unsigned x := by
  cases sat <;> cases unsigned <;> simp [narrow, settled, clampInt, intMin, intMax]

/-- A pair written leaves the rest of its group, and holds the value in its lanes. -/
theorem setPair_v (g : Group) (d n : VReg) (m : Mask) (x : Lanes W64) (f : VReg → Bool) (l : Lane) :
    ((g.setPair d m x f).getV n).rd l = if n = d + 1 ∧ m.has l then (x.rd l >>> 32).setWidth 32
      else if n = d ∧ m.has l then (x.rd l).setWidth 32 else (g.getV n).rd l := by
  show (((g.setV d m _).setV (d + 1) m _).getV n).rd l = _
  rw [getV_setV, getV_setV]
  simp only [Laws.rd_gen]

/-- A 64-bit result in a pair. -/
theorem run_pair (u : Uses) (h : Hdr) (d : VReg) (f : Cx → Lane → W64) (P : Group → Path → VReg → Lane → W32 → Prop) (i : Instr)
    (he : ∀ s, exec i s = .next (run u h (pairTo d f) s))
    (hf : ∀ s r g p l, P g p d l ((f (cxOf s r g p h u) l).setWidth 32) ∧
      P g p (d + 1) l (((f (cxOf s r g p h u) l) >>> 32).setWidth 32)) :
    WritesLanesSuch i h u [d, d + 1] P := by
  intro s r g p hi hh
  have hne : d ≠ d + 1 := by bv_omega
  let x : Lanes W64 := Bank.gen (f (cxOf s r g p h u))
  let o : VReg → Bool := fun k =>
    Config.readsOld (match (issuedSt s r g p h u).coreOf (cxOf s r g p h u).g with | some x => (issuedSt s r g p h u).cycle x | none => 0) r.g k.toNat
  obtain ⟨t, q', ht, hw, hq, hg⟩ := run_regs hi hh (g.setPair d (emaskOf g p h) x o) (p.issued g h u) (p.pc + hdrLen h) (pairTo d f)
    (by
      refine (retire_done hi).trans ?_
      show goOn (State.setGroup _ r.g (((g.setPath r.p (p.issued g h u)).setPair d (emaskOf g p h) x o).setPath r.p (p.issued g h u))) _ _ _ = _
      have e : ((g.setPath r.p (p.issued g h u)).setPair d (emaskOf g p h) x o).setPath r.p (p.issued g h u) =
          (g.setPair d (emaskOf g p h) x o).setPath r.p (p.issued g h u) := by
        simp only [Group.setPath, Group.setPair, Group.setV, Laws.wr_wr]
      rw [e])
    ⟨rfl, ⟨rfl, rfl, rfl⟩, ⟨rfl, rfl, rfl, rfl⟩, rfl, fun _ _ => rfl, rfl, rfl, rfl, rfl, rfl⟩
  refine ⟨t, _, q', by rw [he]; exact congrArg _ ht, hw, hq, rfl, fun k => absurd k (by simp), fun n => by rw [getS_of_same hg]; rfl,
    fun n l hn hl => ?_, fun n l hn => ?_⟩
  · show P g p n l (((g.setPair d (emaskOf g p h) x o).getV n).rd l)
    rw [setPair_v]
    rcases List.mem_cons.1 hn with e | e
    · subst e
      rw [if_neg fun x => hne x.1, if_pos ⟨rfl, hl⟩]
      simpa only [x, Laws.rd_gen] using (hf s r g p l).1
    · cases List.mem_singleton.1 e
      rw [if_pos ⟨rfl, hl⟩]
      simpa only [x, Laws.rd_gen] using (hf s r g p l).2
  · show (((g.setPair d (emaskOf g p h) x o).getV n).rd l) = _
    rw [setPair_v, if_neg, if_neg]
    · rintro ⟨e, hl⟩; exact hn ⟨by simp [e], hl⟩
    · rintro ⟨e, hl⟩; exact hn ⟨by simp [e], hl⟩

/-- Lane results that may advance the lanes' generators. -/
theorem run_round (u : Uses) (h : Hdr) (d : VReg) (f : Cx → Lane → W32 → W32 × W32) (v : Group → Path → Lane → W32 × W32) (i : Instr)
    (he : ∀ s, exec i s = .next (run u h (perLaneRng d f) s))
    (hf : ∀ s r g p l, f (cxOf s r g p h u) l (g.rngs.rd l) = v g p l) : RoundsLanes i h u d v := by
  intro s r g p hi hh
  let x : Lanes (W32 × W32) := Bank.gen fun l => f (cxOf s r g p h u) l (g.rngs.rd l)
  let G : Group := { g.setV d (emaskOf g p h) (Bank.gen fun l => (x.rd l).1) with
    rngs := Bank.gen fun l => if (emaskOf g p h).has l then (x.rd l).2 else g.rngs.rd l }
  obtain ⟨t, q', ht, hw, hq, hg⟩ := run_group (h := h) (u := u) hi hh
    (fun c =>
      let r : Lanes (W32 × W32) := Bank.gen fun l => f c l (c.g.rngs.rd l)
      { c.g.setV d c.em (Bank.gen fun l => (r.rd l).1) with
        rngs := Bank.gen fun l => if c.em.has l then (r.rd l).2 else c.g.rngs.rd l }) G (by
      show Group.setPath { (g.setPath r.p (p.issued g h u)).setV d (emaskOf g p h) (Bank.gen fun l => (x.rd l).1) with
        rngs := Bank.gen fun l => if (emaskOf g p h).has l then (x.rd l).2 else g.rngs.rd l } r.p (p.issued g h u) = _
      simp only [G, Group.setPath, Group.setV, Laws.wr_wr]) (fun _ _ => rfl) ⟨rfl, rfl, rfl, rfl, rfl⟩
  refine ⟨t, _, q', by rw [he]; exact congrArg _ ht, hw, hq, rfl, hg, fun n l => ?_, fun l => ?_⟩
  · have e := getV_setV g d n (emaskOf g p h) (Bank.gen fun l => (x.rd l).1) l
    refine Eq.trans e ?_
    simp only [x, Laws.rd_gen, hf]
  · show Bank.rd (Bank.gen fun l => if (emaskOf g p h).has l then (x.rd l).2 else g.rngs.rd l) l = _
    simp only [x, Laws.rd_gen, hf]

/-- A jump. -/
theorem run_jump (u : Uses) (h : Hdr) (body : Cx → State → Res) (C : Group → Path → Prop) (pc : Group → Path → W64) (i : Instr)
    (he : ∀ s, exec i s = .next (run u h body s))
    (hb : ∀ s r g p t, C g p → (body (cxOf s r g p h u) t = .jump t (pc g p) ∨ body (cxOf s r g p h u) t = .done t ∧ pc g p = p.pc + hdrLen h)) :
    GoesTo i h u C pc := by
  intro s r g p hi hh hc
  obtain ⟨t, q', ht, hw, hq, hg⟩ := run_regs hi hh g (p.issued g h u) (pc g p) body
    (by
      rcases hb s r g p (issuedSt s r g p h u) hc with e | ⟨e, e'⟩
      · rw [e, retire_jump hi]
        simp [issuedSt, State.setGroup, State.setVf, State.vf]
      · rw [e, e', retire_done hi]
        simp [issuedSt, State.setGroup, State.setVf, State.vf])
    ⟨rfl, ⟨rfl, rfl, rfl⟩, ⟨rfl, rfl, rfl, rfl⟩, rfl, fun _ _ => rfl, rfl, rfl, rfl, rfl, rfl⟩
  exact ⟨t, q', by rw [he, ht], hw, hq, fun n => by rw [getS_of_same hg]; rfl⟩

/-- An exception. -/
theorem run_fault (u : Uses) (h : Hdr) (body : Cx → State → Res) (C : Group → Path → Prop) (f : Group → Path → FaultInfo) (i : Instr)
    (he : ∀ s, exec i s = .next (run u h body s))
    (hb : ∀ s r g p t, C g p → body (cxOf s r g p h u) t = .fault t (f g p)) : TakesException i h u C f := by
  intro s r g p hi hc
  rw [he, run_issues hi, hb s r g p _ hc, retire_fault hi]

end Sys2Proof.Machine
end

