-- ==== Sys2Proof/Laws/Memory.lean ====
section
/-! SUPPORT. Bytes by address: every operation keeps the canonical form, a byte reads back as written, and canonical memories that
read alike are equal. -/

namespace Sys2Proof.Machine

theorem above_mono {lo lo' : Nat} {m : Memory} (h : m.above lo' = true) (hl : lo ≤ lo') : m.above lo = true := by
  cases m with
  | nil => rfl
  | cons c m => simp only [Memory.above, Bool.and_eq_true, decide_eq_true_eq] at h ⊢; exact ⟨⟨by omega, h.1.2⟩, h.2⟩

theorem above_consByte {lo a : Nat} {b : W8} {m : Memory} (h : m.above (a + 1) = true) (hl : lo ≤ a) :
    (consByte a b m).above lo = true := by
  unfold consByte
  split
  · exact above_mono h (by omega)
  · simp only [Memory.above, Bool.and_eq_true, decide_eq_true_eq]; exact ⟨⟨hl, ‹_›⟩, h⟩

theorem above_set {lo a : Nat} {b : W8} {m : Memory} (h : m.above lo = true) (hl : lo ≤ a) : (m.set a b).above lo = true := by
  induction m generalizing lo with
  | nil => exact above_consByte rfl hl
  | cons c m ih =>
    obtain ⟨k, c⟩ := c
    simp only [Memory.above, Bool.and_eq_true, decide_eq_true_eq] at h
    unfold Memory.set
    split
    · simp only [Memory.above, Bool.and_eq_true, decide_eq_true_eq]; exact ⟨h.1, ih h.2 (by omega)⟩
    · split
      · subst k; exact above_consByte h.2 hl
      · exact above_consByte (by simp only [Memory.above, Bool.and_eq_true, decide_eq_true_eq]; exact ⟨⟨by omega, h.1.2⟩, h.2⟩) hl

theorem above_filter {lo : Nat} {m : Memory} (f : Nat × W8 → Bool) (h : m.above lo = true) : Memory.above lo (m.filter f) = true := by
  induction m generalizing lo with
  | nil => rfl
  | cons c m ih =>
    simp only [Memory.above, Bool.and_eq_true, decide_eq_true_eq] at h
    rw [List.filter_cons]
    split
    · simp only [Memory.above, Bool.and_eq_true, decide_eq_true_eq]; exact ⟨h.1, ih h.2⟩
    · exact above_mono (ih h.2) (by omega)

theorem wf_set {m : Memory} (h : m.wf = true) (a : Nat) (b : W8) : (m.set a b).wf = true := above_set h (by omega)

theorem wf_write {m : Memory} (h : m.wf = true) (a : Nat) (d : List W8) : (m.write a d).wf = true := by
  induction d generalizing m a with
  | nil => exact h
  | cons b d ih => exact ih (wf_set h a b) (a + 1)

theorem wf_filter {m : Memory} (h : m.wf = true) (f : Nat × W8 → Bool) : Memory.wf (m.filter f) = true := above_filter f h

theorem wf_clear {m : Memory} (h : m.wf = true) (a n : Nat) : (m.clear a n).wf = true := wf_filter h _

theorem wf_writePieces {m : Memory} (h : m.wf = true) (ps : List (Nat × Nat)) (d : List W8) : (writePieces m ps d).wf = true := by
  induction ps generalizing m d with
  | nil => exact h
  | cons p ps ih =>
    unfold writePieces
    split
    · exact ih h _
    · exact ih (wf_write h _ _) _

theorem get_below {lo a : Nat} {m : Memory} (h : m.above lo = true) (ha : a < lo) : m.get a = 0 := by
  cases m with
  | nil => rfl
  | cons c m =>
    simp only [Memory.above, Bool.and_eq_true, decide_eq_true_eq] at h
    simp only [Memory.get]
    split
    · omega
    · split <;> first | rfl | omega

theorem get_consByte {a x : Nat} {b : W8} {m : Memory} (h : m.above (a + 1) = true) :
    (consByte a b m).get x = if x = a then b else m.get x := by
  unfold consByte
  split
  · split
    · subst x; rw [get_below h (by omega)]; exact ‹b = 0›.symm
    · rfl
  · simp only [Memory.get]
    split
    · simp [‹a = x›.symm]
    · rw [if_neg (Ne.symm ‹_›)]
      split
      · exact (get_below h (by omega)).symm
      · rfl

theorem get_set_above {lo a x : Nat} {b : W8} {m : Memory} (h : m.above lo = true) :
    (m.set a b).get x = if x = a then b else m.get x := by
  induction m generalizing lo with
  | nil => exact get_consByte rfl
  | cons c m ih =>
    obtain ⟨k, c⟩ := c
    have h' := h
    simp only [Memory.above, Bool.and_eq_true, decide_eq_true_eq] at h
    unfold Memory.set
    split
    · simp only [Memory.get, ih h.2]
      split
      · rw [if_neg (by omega)]
      · split
        · split <;> first | rfl | omega
        · rfl
    · split
      · subst k
        rw [get_consByte h.2]
        split
        · rfl
        · simp only [Memory.get]
          rw [if_neg (Ne.symm ‹_›)]
          split
          · exact get_below h.2 (by omega)
          · rfl
      · rw [get_consByte (by simp only [Memory.above, Bool.and_eq_true, decide_eq_true_eq]; exact ⟨⟨by omega, h.1.2⟩, h.2⟩)]

/-- A byte reads back as written, and no other changes. -/
theorem get_set {m : Memory} (h : m.wf = true) (a x : Nat) (b : W8) : (m.set a b).get x = if x = a then b else m.get x :=
  get_set_above h

/-- Bytes read back as written, and no others change. -/
theorem get_write {m : Memory} (h : m.wf = true) (a x : Nat) (d : List W8) :
    (m.write a d).get x = if a ≤ x ∧ x < a + d.length then d.getD (x - a) 0 else m.get x := by
  induction d generalizing m a with
  | nil => simp [Memory.write]
  | cons b d ih =>
    simp only [Memory.write, ih (wf_set h a b), get_set h, List.length_cons]
    by_cases hx : x = a
    · subst x; simp
    · by_cases h2 : a + 1 ≤ x ∧ x < a + 1 + d.length
      · rw [if_pos h2, if_pos (by omega)]
        obtain ⟨k, rfl⟩ : ∃ k, x = a + 1 + k := ⟨x - (a + 1), by omega⟩
        rw [show a + 1 + k - (a + 1) = k by omega, show a + 1 + k - a = k + 1 by omega]
        rfl
      · rw [if_neg h2, if_neg hx, if_neg (by omega)]

theorem read_length (m : Memory) (a n : Nat) : (m.read a n).length = n := by
  induction n generalizing a with
  | zero => rfl
  | succ n ih => simp [Memory.read, ih]

theorem read_congr {m m' : Memory} {a n : Nat} (h : ∀ x, a ≤ x → x < a + n → m.get x = m'.get x) : m.read a n = m'.read a n := by
  induction n generalizing a with
  | zero => rfl
  | succ n ih =>
    simp only [Memory.read]
    rw [h a (by omega) (by omega), ih fun x h1 h2 => h x (by omega) (by omega)]

/-- What was written at a place is what is read there. -/
theorem read_write_same {m : Memory} (h : m.wf = true) (a : Nat) (d : List W8) : (m.write a d).read a d.length = d := by
  apply List.ext_getElem (by rw [read_length])
  intro i h1 h2
  have : ∀ (m : Memory) (a n i : Nat) (hi : i < (m.read a n).length), (m.read a n)[i] = m.get (a + i) := by
    intro m a n
    induction n generalizing a with
    | zero => intro i hi; simp [Memory.read] at hi
    | succ n ih =>
      intro i hi
      cases i with
      | zero => rfl
      | succ i => simp only [Memory.read, List.getElem_cons_succ]; rw [ih]; congr 1; omega
  rw [this, get_write h, if_pos ⟨by omega, by omega⟩, Nat.add_sub_cancel_left, List.getD_eq_getElem?_getD, List.getElem?_eq_getElem h2]
  rfl

/-- A write leaves what is read elsewhere. -/
theorem read_write_other {m : Memory} (h : m.wf = true) {a b n : Nat} (d : List W8) (hd : b + n ≤ a ∨ a + d.length ≤ b) :
    (m.write a d).read b n = m.read b n :=
  read_congr fun x h1 h2 => by rw [get_write h, if_neg (by omega)]

theorem get_lowest {lo : Nat} {c : Nat × W8} {m : Memory} (h : Memory.above lo (c :: m) = true) : Memory.get (c :: m) c.1 ≠ 0 := by
  simp only [Memory.above, Bool.and_eq_true, decide_eq_true_eq] at h
  simpa [Memory.get] using h.1.2

/-- Canonical memories in which every byte reads alike are equal. -/
theorem memory_ext {lo : Nat} {m m' : Memory} (h : m.above lo = true) (h' : m'.above lo = true) (e : ∀ a, m.get a = m'.get a) : m = m' := by
  induction m generalizing lo m' with
  | nil =>
    cases m' with
    | nil => rfl
    | cons c m' => exact absurd (e c.1).symm (get_lowest h')
  | cons c m ih =>
    cases m' with
    | nil => exact absurd (e c.1) (get_lowest h)
    | cons c' m' =>
      have hk : c.1 = c'.1 := by
        rcases Nat.lt_trichotomy c.1 c'.1 with hl | hl | hl
        · refine absurd ?_ (get_lowest h)
          rw [e]; simp only [Memory.get]; rw [if_neg (by omega), if_pos hl]
        · exact hl
        · refine absurd ?_ (get_lowest h')
          rw [← e]; simp only [Memory.get]; rw [if_neg (by omega), if_pos hl]
      have hv : c.2 = c'.2 := by
        have := e c.1
        simp only [Memory.get] at this
        rwa [if_pos trivial, if_pos hk.symm] at this
      obtain ⟨k, v⟩ := c; obtain ⟨k', v'⟩ := c'
      simp only at hk hv
      subst hk hv
      simp only [Memory.above, Bool.and_eq_true, decide_eq_true_eq] at h h'
      rw [ih h.2 h'.2]
      intro a
      by_cases ha : a ≤ k
      · rw [get_below h.2 (by omega), get_below h'.2 (by omega)]
      · have := e a
        simp only [Memory.get] at this
        rwa [if_neg (by omega), if_neg (by omega), if_neg (by omega), if_neg (by omega)] at this

theorem reset_memories : MemoriesCanonical State.reset := ⟨rfl, rfl, by simp [State.reset], by simp [State.reset]⟩

end Sys2Proof.Machine
end

