-- ==== Sys2Proof/Laws/PerInstr.lean ====
section
/-! SUPPORT. For each instruction: what its encoding lays out is read back as it was, and the short form leaves word 1 empty
(02 R46-R72). -/

namespace Sys2Proof.Laws

theorem info_wf {f : Info} (h : f.wf = true) :
    f.form.admits f.h.long = true ∧ (f.chk.fn && f.chk.fld && f.chk.short) = true := by
  simp only [Info.wf, Bool.and_eq_true] at h ⊢
  obtain ⟨⟨⟨⟨⟨⟨⟨a, b⟩, _⟩, c⟩, _⟩, _⟩, _⟩, d⟩ := h
  exact ⟨a, ⟨b, c⟩, d⟩

/-- A well-formed instruction's fields are read as that instruction, under the header it carries; word 1 of the short form is empty. -/
def RoundTrip.Statement (i : Instr) : Prop :=
  ∀ r, i.wf = true → emit i = some r → parse r = some i ∧ (info i).map (·.h) = some r.h ∧ (r.h.long = false → r.word1 = 0)

theorem parse_sadd (r : Raw) (h : r.op = 0x01) : parse r = some (.sadd r.h (getSSat r)) := by unfold parse; rw [h]; rfl
theorem parse_saddi (r : Raw) (h : r.op = 0x02) : parse r = some (.saddi r.h (getSAddI r)) := by unfold parse; rw [h]; rfl
theorem parse_ssub (r : Raw) (h : r.op = 0x03) : parse r = some (.ssub r.h (getSSat r)) := by unfold parse; rw [h]; rfl
theorem parse_smul (r : Raw) (h : r.op = 0x04) : parse r = some (.smul r.h (getSBin r)) := by unfold parse; rw [h]; rfl
theorem parse_smulh (r : Raw) (h : r.op = 0x05) : parse r = some (.smulh r.h (getSBin r)) := by unfold parse; rw [h]; rfl
theorem parse_sand (r : Raw) (h : r.op = 0x06) : parse r = some (.sand r.h (getSBin r)) := by unfold parse; rw [h]; rfl
theorem parse_sor (r : Raw) (h : r.op = 0x07) : parse r = some (.sor r.h (getSBin r)) := by unfold parse; rw [h]; rfl
theorem parse_sxor (r : Raw) (h : r.op = 0x08) : parse r = some (.sxor r.h (getSBin r)) := by unfold parse; rw [h]; rfl
theorem parse_sshl (r : Raw) (h : r.op = 0x09) : parse r = some (.sshl r.h (getSShift r)) := by unfold parse; rw [h]; rfl
theorem parse_sshr (r : Raw) (h : r.op = 0x0A) : parse r = some (.sshr r.h (getSShift r)) := by unfold parse; rw [h]; rfl
theorem parse_ssra (r : Raw) (h : r.op = 0x0B) : parse r = some (.ssra r.h (getSShift r)) := by unfold parse; rw [h]; rfl
theorem parse_smin (r : Raw) (h : r.op = 0x0C) : parse r = some (.smin r.h (getSBin r)) := by unfold parse; rw [h]; rfl
theorem parse_smax (r : Raw) (h : r.op = 0x0D) : parse r = some (.smax r.h (getSBin r)) := by unfold parse; rw [h]; rfl
theorem parse_sminu (r : Raw) (h : r.op = 0x0E) : parse r = some (.sminu r.h (getSBin r)) := by unfold parse; rw [h]; rfl
theorem parse_smaxu (r : Raw) (h : r.op = 0x0F) : parse r = some (.smaxu r.h (getSBin r)) := by unfold parse; rw [h]; rfl
theorem parse_sclz (r : Raw) (h : r.op = 0x10) : parse r = some (.sclz r.h (getSUn r)) := by unfold parse; rw [h]; rfl
theorem parse_spopc (r : Raw) (h : r.op = 0x11) : parse r = some (.spopc r.h (getSUn r)) := by unfold parse; rw [h]; rfl
theorem parse_sbfx (r : Raw) (h : r.op = 0x12) : parse r = some (.sbfx r.h (getSBits r)) := by unfold parse; rw [h]; rfl
theorem parse_sbfi (r : Raw) (h : r.op = 0x13) : parse r = some (.sbfi r.h (getSBits r)) := by unfold parse; rw [h]; rfl
theorem parse_ssel (r : Raw) (h : r.op = 0x14) : parse r = some (.ssel r.h (getSBin r)) := by unfold parse; rw [h]; rfl
theorem parse_scmp (r : Raw) (h : r.op = 0x15) : parse r = some (.scmp r.h (getSCmp r)) := by unfold parse; rw [h]; rfl
theorem parse_sli (r : Raw) (h : r.op = 0x16) : parse r = some (.sli r.h (getSImm r)) := by unfold parse; rw [h]; rfl
theorem parse_slih (r : Raw) (h : r.op = 0x17) : parse r = some (.slih r.h (getSImm r)) := by unfold parse; rw [h]; rfl
theorem parse_smov (r : Raw) (h : r.op = 0x18) : parse r = some (.smov r.h (getSMov r)) := by unfold parse; rw [h]; rfl
theorem parse_sfadd (r : Raw) (h : r.op = 0x19) : parse r = some (.sfadd r.h (getSFp r)) := by unfold parse; rw [h]; rfl
theorem parse_sfmul (r : Raw) (h : r.op = 0x1A) : parse r = some (.sfmul r.h (getSFp r)) := by unfold parse; rw [h]; rfl
theorem parse_sfma (r : Raw) (h : r.op = 0x1B) : parse r = some (.sfma r.h (getSFma r)) := by unfold parse; rw [h]; rfl
theorem parse_sfcmp (r : Raw) (h : r.op = 0x1C) : parse r = some (.sfcmp r.h (getSFCmp r)) := by unfold parse; rw [h]; rfl
theorem parse_sfcvt (r : Raw) (h : r.op = 0x1D) : parse r = some (.sfcvt r.h (getSFCvt r)) := by unfold parse; rw [h]; rfl
theorem parse_bru (r : Raw) (h : r.op = 0x20) : parse r = some (.bru r.h (getToff r)) := by unfold parse; rw [h]; rfl
theorem parse_br (r : Raw) (h : r.op = 0x21) : parse r = some (.br r.h (getBr r)) := by unfold parse; rw [h]; rfl
theorem parse_brx (r : Raw) (h : r.op = 0x22) : parse r = some (.brx r.h (getBrx r)) := by unfold parse; rw [h]; rfl
theorem parse_jmp (r : Raw) (h : r.op = 0x23) : parse r = some (.jmp r.h (getToff r)) := by unfold parse; rw [h]; rfl
theorem parse_jmpr (r : Raw) (h : r.op = 0x24) : parse r = some (.jmpr r.h (getSA r)) := by unfold parse; rw [h]; rfl
theorem parse_jmpv (r : Raw) (h : r.op = 0x25) : parse r = some (.jmpv r.h (getVA r)) := by unfold parse; rw [h]; rfl
theorem parse_call (r : Raw) (h : r.op = 0x26) : parse r = some (.call r.h (getToff r)) := by unfold parse; rw [h]; rfl
theorem parse_callr (r : Raw) (h : r.op = 0x27) : parse r = some (.callr r.h (getSA r)) := by unfold parse; rw [h]; rfl
theorem parse_sloop (r : Raw) (h : r.op = 0x2A) : parse r = some (.sloop r.h (getSLoop r)) := by unfold parse; rw [h]; rfl
theorem parse_sld (r : Raw) (h : r.op = 0x30) : parse r = some (.sld r.h (getSLd r)) := by unfold parse; rw [h]; rfl
theorem parse_sst (r : Raw) (h : r.op = 0x31) : parse r = some (.sst r.h (getSSt r)) := by unfold parse; rw [h]; rfl
theorem parse_satom (r : Raw) (h : r.op = 0x32) : parse r = some (.satom r.h (getSAtom r)) := by unfold parse; rw [h]; rfl
theorem parse_scas (r : Raw) (h : r.op = 0x33) : parse r = some (.scas r.h (getSCas r)) := by unfold parse; rw [h]; rfl
theorem parse_vadd (r : Raw) (h : r.op = 0x40) : parse r = some (.vadd r.h (getVArith r)) := by unfold parse; rw [h]; rfl
theorem parse_vsub (r : Raw) (h : r.op = 0x41) : parse r = some (.vsub r.h (getVArith r)) := by unfold parse; rw [h]; rfl
theorem parse_vmul (r : Raw) (h : r.op = 0x42) : parse r = some (.vmul r.h (getVArith r)) := by unfold parse; rw [h]; rfl
theorem parse_vmulh (r : Raw) (h : r.op = 0x43) : parse r = some (.vmulh r.h (getVUns r)) := by unfold parse; rw [h]; rfl
theorem parse_vmad (r : Raw) (h : r.op = 0x44) : parse r = some (.vmad r.h (getVMad r)) := by unfold parse; rw [h]; rfl
theorem parse_vaddw (r : Raw) (h : r.op = 0x45) : parse r = some (.vaddw r.h (getVWide r)) := by unfold parse; rw [h]; rfl
theorem parse_vmulw (r : Raw) (h : r.op = 0x46) : parse r = some (.vmulw r.h (getVWide r)) := by unfold parse; rw [h]; rfl
theorem parse_vand (r : Raw) (h : r.op = 0x47) : parse r = some (.vand r.h (getVLogic r)) := by unfold parse; rw [h]; rfl
theorem parse_vor (r : Raw) (h : r.op = 0x48) : parse r = some (.vor r.h (getVLogic r)) := by unfold parse; rw [h]; rfl
theorem parse_vxor (r : Raw) (h : r.op = 0x49) : parse r = some (.vxor r.h (getVLogic r)) := by unfold parse; rw [h]; rfl
theorem parse_vshl (r : Raw) (h : r.op = 0x4A) : parse r = some (.vshl r.h (getVShift r)) := by unfold parse; rw [h]; rfl
theorem parse_vshr (r : Raw) (h : r.op = 0x4B) : parse r = some (.vshr r.h (getVShift r)) := by unfold parse; rw [h]; rfl
theorem parse_vsra (r : Raw) (h : r.op = 0x4C) : parse r = some (.vsra r.h (getVShift r)) := by unfold parse; rw [h]; rfl
theorem parse_vmin (r : Raw) (h : r.op = 0x4D) : parse r = some (.vmin r.h (getVUns r)) := by unfold parse; rw [h]; rfl
theorem parse_vmax (r : Raw) (h : r.op = 0x4E) : parse r = some (.vmax r.h (getVUns r)) := by unfold parse; rw [h]; rfl
theorem parse_vabs (r : Raw) (h : r.op = 0x4F) : parse r = some (.vabs r.h (getVAbs r)) := by unfold parse; rw [h]; rfl
theorem parse_vneg (r : Raw) (h : r.op = 0x50) : parse r = some (.vneg r.h (getVAbs r)) := by unfold parse; rw [h]; rfl
theorem parse_vclz (r : Raw) (h : r.op = 0x51) : parse r = some (.vclz r.h (getVCount r)) := by unfold parse; rw [h]; rfl
theorem parse_vpopc (r : Raw) (h : r.op = 0x52) : parse r = some (.vpopc r.h (getVCount r)) := by unfold parse; rw [h]; rfl
theorem parse_vbrev (r : Raw) (h : r.op = 0x53) : parse r = some (.vbrev r.h (getVCount r)) := by unfold parse; rw [h]; rfl
theorem parse_vbfx (r : Raw) (h : r.op = 0x54) : parse r = some (.vbfx r.h (getVBfx r)) := by unfold parse; rw [h]; rfl
theorem parse_vbfi (r : Raw) (h : r.op = 0x55) : parse r = some (.vbfi r.h (getVBfi r)) := by unfold parse; rw [h]; rfl
theorem parse_vsel (r : Raw) (h : r.op = 0x56) : parse r = some (.vsel r.h (getVElem r)) := by unfold parse; rw [h]; rfl
theorem parse_vcmp (r : Raw) (h : r.op = 0x57) : parse r = some (.vcmp r.h (getVCmp r)) := by unfold parse; rw [h]; rfl
theorem parse_vmov (r : Raw) (h : r.op = 0x58) : parse r = some (.vmov r.h (getVMov r)) := by unfold parse; rw [h]; rfl
theorem parse_vli (r : Raw) (h : r.op = 0x59) : parse r = some (.vli r.h (getVLi r)) := by unfold parse; rw [h]; rfl
theorem parse_vlane (r : Raw) (h : r.op = 0x5A) : parse r = some (.vlane r.h (getVD r)) := by unfold parse; rw [h]; rfl
theorem parse_vbcast (r : Raw) (h : r.op = 0x5B) : parse r = some (.vbcast r.h (getVBcast r)) := by unfold parse; rw [h]; rfl
theorem parse_vtos (r : Raw) (h : r.op = 0x5C) : parse r = some (.vtos r.h (getVToS r)) := by unfold parse; rw [h]; rfl
theorem parse_vperm (r : Raw) (h : r.op = 0x5D) : parse r = some (.vperm r.h (getVPerm r)) := by unfold parse; rw [h]; rfl
theorem parse_vred (r : Raw) (h : r.op = 0x5E) : parse r = some (.vred r.h (getVRed r)) := by unfold parse; rw [h]; rfl
theorem parse_vscan (r : Raw) (h : r.op = 0x5F) : parse r = some (.vscan r.h (getVRed r)) := by unfold parse; rw [h]; rfl
theorem parse_vfadd (r : Raw) (h : r.op = 0x60) : parse r = some (.vfadd r.h (getVFp r)) := by unfold parse; rw [h]; rfl
theorem parse_vfsub (r : Raw) (h : r.op = 0x61) : parse r = some (.vfsub r.h (getVFp r)) := by unfold parse; rw [h]; rfl
theorem parse_vfmul (r : Raw) (h : r.op = 0x62) : parse r = some (.vfmul r.h (getVFp r)) := by unfold parse; rw [h]; rfl
theorem parse_vfma (r : Raw) (h : r.op = 0x63) : parse r = some (.vfma r.h (getVFma r)) := by unfold parse; rw [h]; rfl
theorem parse_vfmin (r : Raw) (h : r.op = 0x64) : parse r = some (.vfmin r.h (getVBin r)) := by unfold parse; rw [h]; rfl
theorem parse_vfmax (r : Raw) (h : r.op = 0x65) : parse r = some (.vfmax r.h (getVBin r)) := by unfold parse; rw [h]; rfl
theorem parse_vfcmp (r : Raw) (h : r.op = 0x66) : parse r = some (.vfcmp r.h (getVFCmp r)) := by unfold parse; rw [h]; rfl
theorem parse_vfrcp (r : Raw) (h : r.op = 0x67) : parse r = some (.vfrcp r.h (getVUn r)) := by unfold parse; rw [h]; rfl
theorem parse_vfrsq (r : Raw) (h : r.op = 0x68) : parse r = some (.vfrsq r.h (getVUn r)) := by unfold parse; rw [h]; rfl
theorem parse_vfsqrt (r : Raw) (h : r.op = 0x69) : parse r = some (.vfsqrt r.h (getVUn r)) := by unfold parse; rw [h]; rfl
theorem parse_vfexp2 (r : Raw) (h : r.op = 0x6A) : parse r = some (.vfexp2 r.h (getVUn r)) := by unfold parse; rw [h]; rfl
theorem parse_vflog2 (r : Raw) (h : r.op = 0x6B) : parse r = some (.vflog2 r.h (getVUn r)) := by unfold parse; rw [h]; rfl
theorem parse_vfsin (r : Raw) (h : r.op = 0x6C) : parse r = some (.vfsin r.h (getVUn r)) := by unfold parse; rw [h]; rfl
theorem parse_vfcos (r : Raw) (h : r.op = 0x6D) : parse r = some (.vfcos r.h (getVUn r)) := by unfold parse; rw [h]; rfl
theorem parse_vfrnd (r : Raw) (h : r.op = 0x6E) : parse r = some (.vfrnd r.h (getVFRnd r)) := by unfold parse; rw [h]; rfl
theorem parse_vfclass (r : Raw) (h : r.op = 0x6F) : parse r = some (.vfclass r.h (getVUn r)) := by unfold parse; rw [h]; rfl
theorem parse_vhadd (r : Raw) (h : r.op = 0x70) : parse r = some (.vhadd r.h (getVHalf r)) := by unfold parse; rw [h]; rfl
theorem parse_vhmul (r : Raw) (h : r.op = 0x71) : parse r = some (.vhmul r.h (getVHalf r)) := by unfold parse; rw [h]; rfl
theorem parse_vhfma (r : Raw) (h : r.op = 0x72) : parse r = some (.vhfma r.h (getVHFma r)) := by unfold parse; rw [h]; rfl
theorem parse_vdot2 (r : Raw) (h : r.op = 0x73) : parse r = some (.vdot2 r.h (getVDot2 r)) := by unfold parse; rw [h]; rfl
theorem parse_vdot4 (r : Raw) (h : r.op = 0x74) : parse r = some (.vdot4 r.h (getVDot4 r)) := by unfold parse; rw [h]; rfl
theorem parse_vcvt (r : Raw) (h : r.op = 0x75) : parse r = some (.vcvt r.h (getVCvt r)) := by unfold parse; rw [h]; rfl
theorem parse_vld (r : Raw) (h : r.op = 0x80) : parse r = some (.vld r.h (getVLd r)) := by unfold parse; rw [h]; rfl
theorem parse_vst (r : Raw) (h : r.op = 0x81) : parse r = some (.vst r.h (getVSt r)) := by unfold parse; rw [h]; rfl
theorem parse_vatom (r : Raw) (h : r.op = 0x82) : parse r = some (.vatom r.h (getVAtom r)) := by unfold parse; rw [h]; rfl
theorem parse_vcas (r : Raw) (h : r.op = 0x83) : parse r = some (.vcas r.h (getVCas r)) := by unfold parse; rw [h]; rfl
theorem parse_vprefetch (r : Raw) (h : r.op = 0x84) : parse r = some (.vprefetch r.h (getVPrefetch r)) := by unfold parse; rw [h]; rfl
theorem parse_fence (r : Raw) (h : r.op = 0x85) : parse r = some (.fence r.h (getFence r)) := by unfold parse; rw [h]; rfl
theorem parse_waita (r : Raw) (h : r.op = 0x86) : parse r = some (.waita r.h (getWaitA r)) := by unfold parse; rw [h]; rfl
theorem parse_vrdx (r : Raw) (h : r.op = 0x87) : parse r = some (.vrdx r.h (getVIdx r)) := by unfold parse; rw [h]; rfl
theorem parse_vwrx (r : Raw) (h : r.op = 0x88) : parse r = some (.vwrx r.h (getVIdx r)) := by unfold parse; rw [h]; rfl
theorem parse_xset (r : Raw) (h : r.op = 0x89) : parse r = some (.xset r.h (getXSet r)) := by unfold parse; rw [h]; rfl
theorem parse_spill (r : Raw) (h : r.op = 0x8A) : parse r = some (.spill r.h (getSpillFill r)) := by unfold parse; rw [h]; rfl
theorem parse_fill (r : Raw) (h : r.op = 0x8B) : parse r = some (.fill r.h (getSpillFill r)) := by unfold parse; rw [h]; rfl
theorem parse_mma (r : Raw) (h : r.op = 0xA0) : parse r = some (.mma r.h (getMma r)) := by unfold parse; rw [h]; rfl
theorem parse_mzero (r : Raw) (h : r.op = 0xA1) : parse r = some (.mzero r.h (getTD r)) := by unfold parse; rw [h]; rfl
theorem parse_mmov (r : Raw) (h : r.op = 0xA2) : parse r = some (.mmov r.h (getMMov r)) := by unfold parse; rw [h]; rfl
theorem parse_mload (r : Raw) (h : r.op = 0xA3) : parse r = some (.mload r.h (getMLoad r)) := by unfold parse; rw [h]; rfl
theorem parse_mst (r : Raw) (h : r.op = 0xA4) : parse r = some (.mst r.h (getMMem r)) := by unfold parse; rw [h]; rfl
theorem parse_mld (r : Raw) (h : r.op = 0xA5) : parse r = some (.mld r.h (getMMem r)) := by unfold parse; rw [h]; rfl
theorem parse_dld (r : Raw) (h : r.op = 0xB0) : parse r = some (.dld r.h (getDMem r)) := by unfold parse; rw [h]; rfl
theorem parse_dst (r : Raw) (h : r.op = 0xB1) : parse r = some (.dst r.h (getDMem r)) := by unfold parse; rw [h]; rfl
theorem parse_dset (r : Raw) (h : r.op = 0xB2) : parse r = some (.dset r.h (getDSet r)) := by unfold parse; rw [h]; rfl
theorem parse_tcopy (r : Raw) (h : r.op = 0xB3) : parse r = some (.tcopy r.h (getTCopy r)) := by unfold parse; rw [h]; rfl
theorem parse_tstat (r : Raw) (h : r.op = 0xB4) : parse r = some (.tstat r.h (getTStat r)) := by unfold parse; rw [h]; rfl
theorem parse_tresume (r : Raw) (h : r.op = 0xB5) : parse r = some (.tresume r.h (getDD r)) := by unfold parse; rw [h]; rfl
theorem parse_binit (r : Raw) (h : r.op = 0xB6) : parse r = some (.binit r.h (getBInit r)) := by unfold parse; rw [h]; rfl
theorem parse_barr (r : Raw) (h : r.op = 0xB7) : parse r = some (.barr r.h (getBArr r)) := by unfold parse; rw [h]; rfl
theorem parse_btry (r : Raw) (h : r.op = 0xB8) : parse r = some (.btry r.h (getBTry r)) := by unfold parse; rw [h]; rfl
theorem parse_binval (r : Raw) (h : r.op = 0xB9) : parse r = some (.binval r.h (getBInval r)) := by unfold parse; rw [h]; rfl
theorem parse_cbarr (r : Raw) (h : r.op = 0xBA) : parse r = some (.cbarr r.h (getCBArr r)) := by unfold parse; rw [h]; rfl
theorem parse_cbtry (r : Raw) (h : r.op = 0xBB) : parse r = some (.cbtry r.h (getCBTry r)) := by unfold parse; rw [h]; rfl
theorem parse_rbox4 (r : Raw) (h : r.op = 0xC0) : parse r = some (.rbox4 r.h (getTrav r)) := by unfold parse; rw [h]; rfl
theorem parse_rtri (r : Raw) (h : r.op = 0xC1) : parse r = some (.rtri r.h (getTrav r)) := by unfold parse; rw [h]; rfl
theorem parse_pairs (r : Raw) (h : r.op = 0xC2) : parse r = some (.pairs r.h (getPairs r)) := by unfold parse; rw [h]; rfl
theorem parse_tex (r : Raw) (h : r.op = 0xC3) : parse r = some (.tex r.h (getTex r)) := by unfold parse; rw [h]; rfl
theorem parse_cover (r : Raw) (h : r.op = 0xC4) : parse r = some (.cover r.h (getTrav r)) := by unfold parse; rw [h]; rfl
theorem parse_scommit (r : Raw) (h : r.op = 0xC5) : parse r = some (.scommit r.h (getSUn r)) := by unfold parse; rw [h]; rfl
theorem parse_qenq (r : Raw) (h : r.op = 0xC8) : parse r = some (.qenq r.h (getQEnq r)) := by unfold parse; rw [h]; rfl
theorem parse_qdeq (r : Raw) (h : r.op = 0xC9) : parse r = some (.qdeq r.h (getQDeq r)) := by unfold parse; rw [h]; rfl
theorem parse_qsteal (r : Raw) (h : r.op = 0xCA) : parse r = some (.qsteal r.h (getQDeq r)) := by unfold parse; rw [h]; rfl
theorem parse_qeos (r : Raw) (h : r.op = 0xCB) : parse r = some (.qeos r.h (getQA r)) := by unfold parse; rw [h]; rfl
theorem parse_rwq (r : Raw) (h : r.op = 0xCC) : parse r = some (.rwq r.h (getRwq r)) := by unfold parse; rw [h]; rfl
theorem parse_launch (r : Raw) (h : r.op = 0xCD) : parse r = some (.launch r.h (getLaunch r)) := by unfold parse; rw [h]; rfl
theorem parse_lwait (r : Raw) (h : r.op = 0xCE) : parse r = some (.lwait r.h (getLWait r)) := by unfold parse; rw [h]; rfl
theorem parse_trap (r : Raw) (h : r.op = 0xD0) : parse r = some (.trap r.h (getTrapN r)) := by unfold parse; rw [h]; rfl
theorem parse_brk (r : Raw) (h : r.op = 0xD1) : parse r = some (.brk r.h (getBrkN r)) := by unfold parse; rw [h]; rfl
theorem parse_fret (r : Raw) (h : r.op = 0xD2) : parse r = some (.fret r.h (getFlag r)) := by unfold parse; rw [h]; rfl
theorem parse_crd (r : Raw) (h : r.op = 0xD4) : parse r = some (.crd r.h (getCrd r)) := by unfold parse; rw [h]; rfl
theorem parse_cwr (r : Raw) (h : r.op = 0xD5) : parse r = some (.cwr r.h (getCwr r)) := by unfold parse; rw [h]; rfl
theorem parse_vgrow (r : Raw) (h : r.op = 0xD6) : parse r = some (.vgrow r.h (getGrowN r)) := by unfold parse; rw [h]; rfl
theorem parse_vshrink (r : Raw) (h : r.op = 0xD7) : parse r = some (.vshrink r.h (getGrowN r)) := by unfold parse; rw [h]; rfl
theorem parse_clock (r : Raw) (h : r.op = 0xD9) : parse r = some (.clock r.h (getClock r)) := by unfold parse; rw [h]; rfl
theorem parse_tstamp (r : Raw) (h : r.op = 0xDA) : parse r = some (.tstamp r.h (getSA r)) := by unfold parse; rw [h]; rfl
theorem parse_pgmap (r : Raw) (h : r.op = 0xDB) : parse r = some (.pgmap r.h (getPgMap r)) := by unfold parse; rw [h]; rfl
theorem parse_tlbinv (r : Raw) (h : r.op = 0xDC) : parse r = some (.tlbinv r.h (getTlbInv r)) := by unfold parse; rw [h]; rfl
theorem parse_shev (r : Raw) (h : r.op = 0xDD) : parse r = some (.shev r.h (getShEv r)) := by unfold parse; rw [h]; rfl
theorem parse_halt (r : Raw) (h : r.op = 0xDE) : parse r = some (.halt r.h (getFlag r)) := by unfold parse; rw [h]; rfl
theorem laid_Nil (h : Hdr) (op : W8) : Laid h op { h := h, op := op } := ⟨rfl, rfl, fun _ => word1_zero _ rfl rfl rfl rfl rfl rfl⟩

namespace RoundTrip

/-- From a layout that reads back to the statement. -/
theorem close {i : Instr} {r : Raw} {h : Hdr} {op : W8} (hl : Laid h op r) (hi : (info i).map (·.h) = some h)
    (hp : r.op = op → r.h = h → parse r = some i) :
    parse r = some i ∧ (info i).map (·.h) = some r.h ∧ (r.h.long = false → r.word1 = 0) :=
  ⟨hp hl.code hl.head, by rw [hl.head]; exact hi, fun h => hl.short (by rw [← hl.head]; exact h)⟩

theorem sadd (h : Hdr) (o : SSat) : Statement (.sadd h o) := by
  intro r hw he
  cases (he : some (putSSat (Raw.mk h 0x01 0 0 0 0 0 0 0 0 0 0 0) o) = some r)
  obtain ⟨hl, hg⟩ := laid_SSat h 0x01 o (info_wf hw).2
  exact close hl rfl fun h1 h2 => by rw [parse_sadd _ h1, h2, hg]

theorem saddi (h : Hdr) (o : SImm) : Statement (.saddi h o) := by
  intro r hw he
  cases (he : some (putSAddI (Raw.mk h 0x02 0 0 0 0 0 0 0 0 0 0 0) o) = some r)
  obtain ⟨hl, hg⟩ := laid_SAddI h 0x02 o (info_wf hw).2
  exact close hl rfl fun h1 h2 => by rw [parse_saddi _ h1, h2, hg]

theorem ssub (h : Hdr) (o : SSat) : Statement (.ssub h o) := by
  intro r hw he
  cases (he : some (putSSat (Raw.mk h 0x03 0 0 0 0 0 0 0 0 0 0 0) o) = some r)
  obtain ⟨hl, hg⟩ := laid_SSat h 0x03 o (info_wf hw).2
  exact close hl rfl fun h1 h2 => by rw [parse_ssub _ h1, h2, hg]

theorem smul (h : Hdr) (o : SBin) : Statement (.smul h o) := by
  intro r hw he
  cases (he : some (putSBin (Raw.mk h 0x04 0 0 0 0 0 0 0 0 0 0 0) o) = some r)
  obtain ⟨hl, hg⟩ := laid_SBin h 0x04 o (info_wf hw).2
  exact close hl rfl fun h1 h2 => by rw [parse_smul _ h1, h2, hg]

theorem smulh (h : Hdr) (o : SBin) : Statement (.smulh h o) := by
  intro r hw he
  cases (he : some (putSBin (Raw.mk h 0x05 0 0 0 0 0 0 0 0 0 0 0) o) = some r)
  obtain ⟨hl, hg⟩ := laid_SBin h 0x05 o (info_wf hw).2
  exact close hl rfl fun h1 h2 => by rw [parse_smulh _ h1, h2, hg]

theorem sand (h : Hdr) (o : SBin) : Statement (.sand h o) := by
  intro r hw he
  cases (he : some (putSBin (Raw.mk h 0x06 0 0 0 0 0 0 0 0 0 0 0) o) = some r)
  obtain ⟨hl, hg⟩ := laid_SBin h 0x06 o (info_wf hw).2
  exact close hl rfl fun h1 h2 => by rw [parse_sand _ h1, h2, hg]

theorem sor (h : Hdr) (o : SBin) : Statement (.sor h o) := by
  intro r hw he
  cases (he : some (putSBin (Raw.mk h 0x07 0 0 0 0 0 0 0 0 0 0 0) o) = some r)
  obtain ⟨hl, hg⟩ := laid_SBin h 0x07 o (info_wf hw).2
  exact close hl rfl fun h1 h2 => by rw [parse_sor _ h1, h2, hg]

theorem sxor (h : Hdr) (o : SBin) : Statement (.sxor h o) := by
  intro r hw he
  cases (he : some (putSBin (Raw.mk h 0x08 0 0 0 0 0 0 0 0 0 0 0) o) = some r)
  obtain ⟨hl, hg⟩ := laid_SBin h 0x08 o (info_wf hw).2
  exact close hl rfl fun h1 h2 => by rw [parse_sxor _ h1, h2, hg]

theorem sshl (h : Hdr) (o : SBin) : Statement (.sshl h o) := by
  intro r hw he
  cases (he : some (putSShift (Raw.mk h 0x09 0 0 0 0 0 0 0 0 0 0 0) o) = some r)
  obtain ⟨hl, hg⟩ := laid_SShift h 0x09 o (info_wf hw).2
  exact close hl rfl fun h1 h2 => by rw [parse_sshl _ h1, h2, hg]

theorem sshr (h : Hdr) (o : SBin) : Statement (.sshr h o) := by
  intro r hw he
  cases (he : some (putSShift (Raw.mk h 0x0A 0 0 0 0 0 0 0 0 0 0 0) o) = some r)
  obtain ⟨hl, hg⟩ := laid_SShift h 0x0A o (info_wf hw).2
  exact close hl rfl fun h1 h2 => by rw [parse_sshr _ h1, h2, hg]

theorem ssra (h : Hdr) (o : SBin) : Statement (.ssra h o) := by
  intro r hw he
  cases (he : some (putSShift (Raw.mk h 0x0B 0 0 0 0 0 0 0 0 0 0 0) o) = some r)
  obtain ⟨hl, hg⟩ := laid_SShift h 0x0B o (info_wf hw).2
  exact close hl rfl fun h1 h2 => by rw [parse_ssra _ h1, h2, hg]

theorem smin (h : Hdr) (o : SBin) : Statement (.smin h o) := by
  intro r hw he
  cases (he : some (putSBin (Raw.mk h 0x0C 0 0 0 0 0 0 0 0 0 0 0) o) = some r)
  obtain ⟨hl, hg⟩ := laid_SBin h 0x0C o (info_wf hw).2
  exact close hl rfl fun h1 h2 => by rw [parse_smin _ h1, h2, hg]

theorem smax (h : Hdr) (o : SBin) : Statement (.smax h o) := by
  intro r hw he
  cases (he : some (putSBin (Raw.mk h 0x0D 0 0 0 0 0 0 0 0 0 0 0) o) = some r)
  obtain ⟨hl, hg⟩ := laid_SBin h 0x0D o (info_wf hw).2
  exact close hl rfl fun h1 h2 => by rw [parse_smax _ h1, h2, hg]

theorem sminu (h : Hdr) (o : SBin) : Statement (.sminu h o) := by
  intro r hw he
  cases (he : some (putSBin (Raw.mk h 0x0E 0 0 0 0 0 0 0 0 0 0 0) o) = some r)
  obtain ⟨hl, hg⟩ := laid_SBin h 0x0E o (info_wf hw).2
  exact close hl rfl fun h1 h2 => by rw [parse_sminu _ h1, h2, hg]

theorem smaxu (h : Hdr) (o : SBin) : Statement (.smaxu h o) := by
  intro r hw he
  cases (he : some (putSBin (Raw.mk h 0x0F 0 0 0 0 0 0 0 0 0 0 0) o) = some r)
  obtain ⟨hl, hg⟩ := laid_SBin h 0x0F o (info_wf hw).2
  exact close hl rfl fun h1 h2 => by rw [parse_smaxu _ h1, h2, hg]

theorem sclz (h : Hdr) (o : SUn) : Statement (.sclz h o) := by
  intro r hw he
  cases (he : some (putSUn (Raw.mk h 0x10 0 0 0 0 0 0 0 0 0 0 0) o) = some r)
  obtain ⟨hl, hg⟩ := laid_SUn h 0x10 o (info_wf hw).2
  exact close hl rfl fun h1 h2 => by rw [parse_sclz _ h1, h2, hg]

theorem spopc (h : Hdr) (o : SUn) : Statement (.spopc h o) := by
  intro r hw he
  cases (he : some (putSUn (Raw.mk h 0x11 0 0 0 0 0 0 0 0 0 0 0) o) = some r)
  obtain ⟨hl, hg⟩ := laid_SUn h 0x11 o (info_wf hw).2
  exact close hl rfl fun h1 h2 => by rw [parse_spopc _ h1, h2, hg]

theorem sbfx (h : Hdr) (o : SBits) : Statement (.sbfx h o) := by
  intro r hw he
  cases (he : some (putSBits (Raw.mk h 0x12 0 0 0 0 0 0 0 0 0 0 0) o) = some r)
  obtain ⟨hl, hg⟩ := laid_SBits h 0x12 o (info_wf hw).2
  exact close hl rfl fun h1 h2 => by rw [parse_sbfx _ h1, h2, hg]

theorem sbfi (h : Hdr) (o : SBits) : Statement (.sbfi h o) := by
  intro r hw he
  cases (he : some (putSBits (Raw.mk h 0x13 0 0 0 0 0 0 0 0 0 0 0) o) = some r)
  obtain ⟨hl, hg⟩ := laid_SBits h 0x13 o (info_wf hw).2
  exact close hl rfl fun h1 h2 => by rw [parse_sbfi _ h1, h2, hg]

theorem ssel (h : Hdr) (o : SBin) : Statement (.ssel h o) := by
  intro r hw he
  cases (he : some (putSBin (Raw.mk h 0x14 0 0 0 0 0 0 0 0 0 0 0) o) = some r)
  obtain ⟨hl, hg⟩ := laid_SBin h 0x14 o (info_wf hw).2
  exact close hl rfl fun h1 h2 => by rw [parse_ssel _ h1, h2, hg]

theorem scmp (h : Hdr) (o : SCmp) : Statement (.scmp h o) := by
  intro r hw he
  cases (he : some (putSCmp (Raw.mk h 0x15 0 0 0 0 0 0 0 0 0 0 0) o) = some r)
  obtain ⟨hl, hg⟩ := laid_SCmp h 0x15 o (info_wf hw).2
  exact close hl rfl fun h1 h2 => by rw [parse_scmp _ h1, h2, hg]

theorem sli (h : Hdr) (o : SImm) : Statement (.sli h o) := by
  intro r hw he
  cases (he : some (putSImm (Raw.mk h 0x16 0 0 0 0 0 0 0 0 0 0 0) o) = some r)
  obtain ⟨hl, hg⟩ := laid_SImm h 0x16 o (by simpa [Form.admits] using (info_wf hw).1)
  exact close hl rfl fun h1 h2 => by rw [parse_sli _ h1, h2, hg]

theorem slih (h : Hdr) (o : SImm) : Statement (.slih h o) := by
  intro r hw he
  cases (he : some (putSImm (Raw.mk h 0x17 0 0 0 0 0 0 0 0 0 0 0) o) = some r)
  obtain ⟨hl, hg⟩ := laid_SImm h 0x17 o (by simpa [Form.admits] using (info_wf hw).1)
  exact close hl rfl fun h1 h2 => by rw [parse_slih _ h1, h2, hg]

theorem smov (h : Hdr) (o : SMov) : Statement (.smov h o) := by
  intro r hw he
  cases (he : some (putSMov (Raw.mk h 0x18 0 0 0 0 0 0 0 0 0 0 0) o) = some r)
  obtain ⟨hl, hg⟩ := laid_SMov h 0x18 o (info_wf hw).2
  exact close hl rfl fun h1 h2 => by rw [parse_smov _ h1, h2, hg]

theorem sfadd (h : Hdr) (o : SFp) : Statement (.sfadd h o) := by
  intro r hw he
  cases (he : some (putSFp (Raw.mk h 0x19 0 0 0 0 0 0 0 0 0 0 0) o) = some r)
  obtain ⟨hl, hg⟩ := laid_SFp h 0x19 o (info_wf hw).2
  exact close hl rfl fun h1 h2 => by rw [parse_sfadd _ h1, h2, hg]

theorem sfmul (h : Hdr) (o : SFp) : Statement (.sfmul h o) := by
  intro r hw he
  cases (he : some (putSFp (Raw.mk h 0x1A 0 0 0 0 0 0 0 0 0 0 0) o) = some r)
  obtain ⟨hl, hg⟩ := laid_SFp h 0x1A o (info_wf hw).2
  exact close hl rfl fun h1 h2 => by rw [parse_sfmul _ h1, h2, hg]

theorem sfma (h : Hdr) (o : SFma) : Statement (.sfma h o) := by
  intro r hw he
  cases (he : some (putSFma (Raw.mk h 0x1B 0 0 0 0 0 0 0 0 0 0 0) o) = some r)
  obtain ⟨hl, hg⟩ := laid_SFma h 0x1B o (by simpa [Form.admits] using (info_wf hw).1)
  exact close hl rfl fun h1 h2 => by rw [parse_sfma _ h1, h2, hg]

theorem sfcmp (h : Hdr) (o : SFCmp) : Statement (.sfcmp h o) := by
  intro r hw he
  cases (he : some (putSFCmp (Raw.mk h 0x1C 0 0 0 0 0 0 0 0 0 0 0) o) = some r)
  obtain ⟨hl, hg⟩ := laid_SFCmp h 0x1C o (info_wf hw).2
  exact close hl rfl fun h1 h2 => by rw [parse_sfcmp _ h1, h2, hg]

theorem sfcvt (h : Hdr) (o : SFCvt) : Statement (.sfcvt h o) := by
  intro r hw he
  cases (he : some (putSFCvt (Raw.mk h 0x1D 0 0 0 0 0 0 0 0 0 0 0) o) = some r)
  obtain ⟨hl, hg⟩ := laid_SFCvt h 0x1D o (info_wf hw).2
  exact close hl rfl fun h1 h2 => by rw [parse_sfcvt _ h1, h2, hg]

theorem bru (h : Hdr) (o : W32) : Statement (.bru h o) := by
  intro r hw he
  cases (he : some (putToff (Raw.mk h 0x20 0 0 0 0 0 0 0 0 0 0 0) o) = some r)
  obtain ⟨hl, hg⟩ := laid_Toff h 0x20 o (by simpa [Form.admits] using (info_wf hw).1)
  exact close hl rfl fun h1 h2 => by rw [parse_bru _ h1, h2, hg]

theorem br (h : Hdr) (o : Br) : Statement (.br h o) := by
  intro r hw he
  cases (he : some (putBr (Raw.mk h 0x21 0 0 0 0 0 0 0 0 0 0 0) o) = some r)
  obtain ⟨hl, hg⟩ := laid_Br h 0x21 o (by simpa [Form.admits] using (info_wf hw).1)
  exact close hl rfl fun h1 h2 => by rw [parse_br _ h1, h2, hg]

theorem brx (h : Hdr) (o : Brx) : Statement (.brx h o) := by
  intro r hw he
  cases (he : some (putBrx (Raw.mk h 0x22 0 0 0 0 0 0 0 0 0 0 0) o) = some r)
  obtain ⟨hl, hg⟩ := laid_Brx h 0x22 o (by simpa [Form.admits] using (info_wf hw).1)
  exact close hl rfl fun h1 h2 => by rw [parse_brx _ h1, h2, hg]

theorem jmp (h : Hdr) (o : W32) : Statement (.jmp h o) := by
  intro r hw he
  cases (he : some (putToff (Raw.mk h 0x23 0 0 0 0 0 0 0 0 0 0 0) o) = some r)
  obtain ⟨hl, hg⟩ := laid_Toff h 0x23 o (by simpa [Form.admits] using (info_wf hw).1)
  exact close hl rfl fun h1 h2 => by rw [parse_jmp _ h1, h2, hg]

theorem jmpr (h : Hdr) (o : SReg) : Statement (.jmpr h o) := by
  intro r hw he
  cases (he : some (putSA (Raw.mk h 0x24 0 0 0 0 0 0 0 0 0 0 0) o) = some r)
  obtain ⟨hl, hg⟩ := laid_SA h 0x24 o (info_wf hw).2
  exact close hl rfl fun h1 h2 => by rw [parse_jmpr _ h1, h2, hg]

theorem jmpv (h : Hdr) (o : VReg) : Statement (.jmpv h o) := by
  intro r hw he
  cases (he : some (putVA (Raw.mk h 0x25 0 0 0 0 0 0 0 0 0 0 0) o) = some r)
  obtain ⟨hl, hg⟩ := laid_VA h 0x25 o (info_wf hw).2
  exact close hl rfl fun h1 h2 => by rw [parse_jmpv _ h1, h2, hg]

theorem call (h : Hdr) (o : W32) : Statement (.call h o) := by
  intro r hw he
  cases (he : some (putToff (Raw.mk h 0x26 0 0 0 0 0 0 0 0 0 0 0) o) = some r)
  obtain ⟨hl, hg⟩ := laid_Toff h 0x26 o (by simpa [Form.admits] using (info_wf hw).1)
  exact close hl rfl fun h1 h2 => by rw [parse_call _ h1, h2, hg]

theorem callr (h : Hdr) (o : SReg) : Statement (.callr h o) := by
  intro r hw he
  cases (he : some (putSA (Raw.mk h 0x27 0 0 0 0 0 0 0 0 0 0 0) o) = some r)
  obtain ⟨hl, hg⟩ := laid_SA h 0x27 o (info_wf hw).2
  exact close hl rfl fun h1 h2 => by rw [parse_callr _ h1, h2, hg]

theorem ret (h : Hdr) : Statement (.ret h) := by
  intro r _ he
  cases (he : some (Raw.mk h 0x28 0 0 0 0 0 0 0 0 0 0 0) = some r)
  exact ⟨rfl, rfl, fun _ => word1_zero _ rfl rfl rfl rfl rfl rfl⟩

theorem rcv (h : Hdr) : Statement (.rcv h) := by
  intro r _ he
  cases (he : some (Raw.mk h 0x29 0 0 0 0 0 0 0 0 0 0 0) = some r)
  exact ⟨rfl, rfl, fun _ => word1_zero _ rfl rfl rfl rfl rfl rfl⟩

theorem sloop (h : Hdr) (o : SLoop) : Statement (.sloop h o) := by
  intro r hw he
  cases (he : some (putSLoop (Raw.mk h 0x2A 0 0 0 0 0 0 0 0 0 0 0) o) = some r)
  obtain ⟨hl, hg⟩ := laid_SLoop h 0x2A o (by simpa [Form.admits] using (info_wf hw).1)
  exact close hl rfl fun h1 h2 => by rw [parse_sloop _ h1, h2, hg]

theorem exit (h : Hdr) : Statement (.exit h) := by
  intro r _ he
  cases (he : some (Raw.mk h 0x2B 0 0 0 0 0 0 0 0 0 0 0) = some r)
  exact ⟨rfl, rfl, fun _ => word1_zero _ rfl rfl rfl rfl rfl rfl⟩

theorem kand (h : Hdr) (o : KBin) : Statement (.kand h o) := by
  intro r hw he
  cases (he : some (putKBin (Raw.mk h 0x2C 0 0 0 0 0 0 0 0 0 0 0) o) = some r)
  obtain ⟨hl, hg⟩ := laid_KBin h 0x2C 0 o (info_wf hw).2
  exact close hl rfl fun _ _ => (show parse (putKBin (Raw.mk h 0x2C 0 0 0 0 0 0 0 0 0 0 0) o) = some (.kand h (getKBin (putKBin (Raw.mk h 0x2C 0 0 0 0 0 0 0 0 0 0 0) o))) from rfl).trans (by rw [hg])

theorem kor (h : Hdr) (o : KBin) : Statement (.kor h o) := by
  intro r hw he
  cases (he : some (putKBin (Raw.mk h 0x2C 0 0 0 1 0 0 0 0 0 0 0) o) = some r)
  obtain ⟨hl, hg⟩ := laid_KBin h 0x2C 1 o (info_wf hw).2
  exact close hl rfl fun _ _ => (show parse (putKBin (Raw.mk h 0x2C 0 0 0 1 0 0 0 0 0 0 0) o) = some (.kor h (getKBin (putKBin (Raw.mk h 0x2C 0 0 0 1 0 0 0 0 0 0 0) o))) from rfl).trans (by rw [hg])

theorem kxor (h : Hdr) (o : KBin) : Statement (.kxor h o) := by
  intro r hw he
  cases (he : some (putKBin (Raw.mk h 0x2C 0 0 0 2 0 0 0 0 0 0 0) o) = some r)
  obtain ⟨hl, hg⟩ := laid_KBin h 0x2C 2 o (info_wf hw).2
  exact close hl rfl fun _ _ => (show parse (putKBin (Raw.mk h 0x2C 0 0 0 2 0 0 0 0 0 0 0) o) = some (.kxor h (getKBin (putKBin (Raw.mk h 0x2C 0 0 0 2 0 0 0 0 0 0 0) o))) from rfl).trans (by rw [hg])

theorem knot (h : Hdr) (o : KUn) : Statement (.knot h o) := by
  intro r hw he
  cases (he : some (putKUn (Raw.mk h 0x2C 0 0 0 3 0 0 0 0 0 0 0) o) = some r)
  obtain ⟨hl, hg⟩ := laid_KUn h 0x2C 3 o (info_wf hw).2
  exact close hl rfl fun _ _ => (show parse (putKUn (Raw.mk h 0x2C 0 0 0 3 0 0 0 0 0 0 0) o) = some (.knot h (getKUn (putKUn (Raw.mk h 0x2C 0 0 0 3 0 0 0 0 0 0 0) o))) from rfl).trans (by rw [hg])

theorem kmov (h : Hdr) (o : KUn) : Statement (.kmov h o) := by
  intro r hw he
  cases (he : some (putKUn (Raw.mk h 0x2C 0 0 0 4 0 0 0 0 0 0 0) o) = some r)
  obtain ⟨hl, hg⟩ := laid_KUn h 0x2C 4 o (info_wf hw).2
  exact close hl rfl fun _ _ => (show parse (putKUn (Raw.mk h 0x2C 0 0 0 4 0 0 0 0 0 0 0) o) = some (.kmov h (getKUn (putKUn (Raw.mk h 0x2C 0 0 0 4 0 0 0 0 0 0 0) o))) from rfl).trans (by rw [hg])

theorem kany (h : Hdr) (o : KRed) : Statement (.kany h o) := by
  intro r hw he
  cases (he : some (putKRed (Raw.mk h 0x2D 0 0 0 0 0 0 0 0 0 0 0) o) = some r)
  obtain ⟨hl, hg⟩ := laid_KRed h 0x2D 0 o (info_wf hw).2
  exact close hl rfl fun _ _ => (show parse (putKRed (Raw.mk h 0x2D 0 0 0 0 0 0 0 0 0 0 0) o) = some (.kany h (getKRed (putKRed (Raw.mk h 0x2D 0 0 0 0 0 0 0 0 0 0 0) o))) from rfl).trans (by rw [hg])

theorem kall (h : Hdr) (o : KRed) : Statement (.kall h o) := by
  intro r hw he
  cases (he : some (putKRed (Raw.mk h 0x2D 0 0 0 1 0 0 0 0 0 0 0) o) = some r)
  obtain ⟨hl, hg⟩ := laid_KRed h 0x2D 1 o (info_wf hw).2
  exact close hl rfl fun _ _ => (show parse (putKRed (Raw.mk h 0x2D 0 0 0 1 0 0 0 0 0 0 0) o) = some (.kall h (getKRed (putKRed (Raw.mk h 0x2D 0 0 0 1 0 0 0 0 0 0 0) o))) from rfl).trans (by rw [hg])

theorem kcount (h : Hdr) (o : KRed) : Statement (.kcount h o) := by
  intro r hw he
  cases (he : some (putKRed (Raw.mk h 0x2D 0 0 0 2 0 0 0 0 0 0 0) o) = some r)
  obtain ⟨hl, hg⟩ := laid_KRed h 0x2D 2 o (info_wf hw).2
  exact close hl rfl fun _ _ => (show parse (putKRed (Raw.mk h 0x2D 0 0 0 2 0 0 0 0 0 0 0) o) = some (.kcount h (getKRed (putKRed (Raw.mk h 0x2D 0 0 0 2 0 0 0 0 0 0 0) o))) from rfl).trans (by rw [hg])

theorem kset (h : Hdr) (o : KSet) : Statement (.kset h o) := by
  intro r hw he
  cases (he : some (putKSet (Raw.mk h 0x2E 0 0 0 0 0 0 0 0 0 0 0) o) = some r)
  obtain ⟨hl, hg⟩ := laid_KSet h 0x2E 0 o (info_wf hw).2
  exact close hl rfl fun _ _ => (show parse (putKSet (Raw.mk h 0x2E 0 0 0 0 0 0 0 0 0 0 0) o) = some (.kset h (getKSet (putKSet (Raw.mk h 0x2E 0 0 0 0 0 0 0 0 0 0 0) o))) from rfl).trans (by rw [hg])

theorem kget (h : Hdr) (o : KRed) : Statement (.kget h o) := by
  intro r hw he
  cases (he : some (putKRed (Raw.mk h 0x2E 0 0 0 1 0 0 0 0 0 0 0) o) = some r)
  obtain ⟨hl, hg⟩ := laid_KRed h 0x2E 1 o (info_wf hw).2
  exact close hl rfl fun _ _ => (show parse (putKRed (Raw.mk h 0x2E 0 0 0 1 0 0 0 0 0 0 0) o) = some (.kget h (getKRed (putKRed (Raw.mk h 0x2E 0 0 0 1 0 0 0 0 0 0 0) o))) from rfl).trans (by rw [hg])

theorem sld (h : Hdr) (o : SLd) : Statement (.sld h o) := by
  intro r hw he
  cases (he : some (putSLd (Raw.mk h 0x30 0 0 0 0 0 0 0 0 0 0 0) o) = some r)
  obtain ⟨hl, hg⟩ := laid_SLd h 0x30 o (info_wf hw).2
  exact close hl rfl fun h1 h2 => by rw [parse_sld _ h1, h2, hg]

theorem sst (h : Hdr) (o : SSt) : Statement (.sst h o) := by
  intro r hw he
  cases (he : some (putSSt (Raw.mk h 0x31 0 0 0 0 0 0 0 0 0 0 0) o) = some r)
  obtain ⟨hl, hg⟩ := laid_SSt h 0x31 o (info_wf hw).2
  exact close hl rfl fun h1 h2 => by rw [parse_sst _ h1, h2, hg]

theorem satom (h : Hdr) (o : SAtom) : Statement (.satom h o) := by
  intro r hw he
  cases (he : some (putSAtom (Raw.mk h 0x32 0 0 0 0 0 0 0 0 0 0 0) o) = some r)
  obtain ⟨hl, hg⟩ := laid_SAtom h 0x32 o (info_wf hw).2
  exact close hl rfl fun h1 h2 => by rw [parse_satom _ h1, h2, hg]

theorem scas (h : Hdr) (o : SCas) : Statement (.scas h o) := by
  intro r hw he
  cases (he : some (putSCas (Raw.mk h 0x33 0 0 0 0 0 0 0 0 0 0 0) o) = some r)
  obtain ⟨hl, hg⟩ := laid_SCas h 0x33 o (by simpa [Form.admits] using (info_wf hw).1)
  exact close hl rfl fun h1 h2 => by rw [parse_scas _ h1, h2, hg]

theorem vadd (h : Hdr) (o : VArith) : Statement (.vadd h o) := by
  intro r hw he
  cases (he : some (putVArith (Raw.mk h 0x40 0 0 0 0 0 0 0 0 0 0 0) o) = some r)
  obtain ⟨hl, hg⟩ := laid_VArith h 0x40 o (info_wf hw).2
  exact close hl rfl fun h1 h2 => by rw [parse_vadd _ h1, h2, hg]

theorem vsub (h : Hdr) (o : VArith) : Statement (.vsub h o) := by
  intro r hw he
  cases (he : some (putVArith (Raw.mk h 0x41 0 0 0 0 0 0 0 0 0 0 0) o) = some r)
  obtain ⟨hl, hg⟩ := laid_VArith h 0x41 o (info_wf hw).2
  exact close hl rfl fun h1 h2 => by rw [parse_vsub _ h1, h2, hg]

theorem vmul (h : Hdr) (o : VArith) : Statement (.vmul h o) := by
  intro r hw he
  cases (he : some (putVArith (Raw.mk h 0x42 0 0 0 0 0 0 0 0 0 0 0) o) = some r)
  obtain ⟨hl, hg⟩ := laid_VArith h 0x42 o (info_wf hw).2
  exact close hl rfl fun h1 h2 => by rw [parse_vmul _ h1, h2, hg]

theorem vmulh (h : Hdr) (o : VUns) : Statement (.vmulh h o) := by
  intro r hw he
  cases (he : some (putVUns (Raw.mk h 0x43 0 0 0 0 0 0 0 0 0 0 0) o) = some r)
  obtain ⟨hl, hg⟩ := laid_VUns h 0x43 o (info_wf hw).2
  exact close hl rfl fun h1 h2 => by rw [parse_vmulh _ h1, h2, hg]

theorem vmad (h : Hdr) (o : VMad) : Statement (.vmad h o) := by
  intro r hw he
  cases (he : some (putVMad (Raw.mk h 0x44 0 0 0 0 0 0 0 0 0 0 0) o) = some r)
  obtain ⟨hl, hg⟩ := laid_VMad h 0x44 o (by simpa [Form.admits] using (info_wf hw).1)
  exact close hl rfl fun h1 h2 => by rw [parse_vmad _ h1, h2, hg]

theorem vaddw (h : Hdr) (o : VWide) : Statement (.vaddw h o) := by
  intro r hw he
  cases (he : some (putVWide (Raw.mk h 0x45 0 0 0 0 0 0 0 0 0 0 0) o) = some r)
  obtain ⟨hl, hg⟩ := laid_VWide h 0x45 o (by have h := (info_wf hw).2; simp only [chkVAddw, Bool.and_eq_true] at h ⊢; simp_all)
  exact close hl rfl fun h1 h2 => by rw [parse_vaddw _ h1, h2, hg]

theorem vmulw (h : Hdr) (o : VWide) : Statement (.vmulw h o) := by
  intro r hw he
  cases (he : some (putVWide (Raw.mk h 0x46 0 0 0 0 0 0 0 0 0 0 0) o) = some r)
  obtain ⟨hl, hg⟩ := laid_VWide h 0x46 o (by have h := (info_wf hw).2; simp only [chkVMulw, Bool.and_eq_true] at h ⊢; simp_all)
  exact close hl rfl fun h1 h2 => by rw [parse_vmulw _ h1, h2, hg]

theorem vand (h : Hdr) (o : VLogic) : Statement (.vand h o) := by
  intro r hw he
  cases (he : some (putVLogic (Raw.mk h 0x47 0 0 0 0 0 0 0 0 0 0 0) o) = some r)
  obtain ⟨hl, hg⟩ := laid_VLogic h 0x47 o (info_wf hw).2
  exact close hl rfl fun h1 h2 => by rw [parse_vand _ h1, h2, hg]

theorem vor (h : Hdr) (o : VLogic) : Statement (.vor h o) := by
  intro r hw he
  cases (he : some (putVLogic (Raw.mk h 0x48 0 0 0 0 0 0 0 0 0 0 0) o) = some r)
  obtain ⟨hl, hg⟩ := laid_VLogic h 0x48 o (info_wf hw).2
  exact close hl rfl fun h1 h2 => by rw [parse_vor _ h1, h2, hg]

theorem vxor (h : Hdr) (o : VLogic) : Statement (.vxor h o) := by
  intro r hw he
  cases (he : some (putVLogic (Raw.mk h 0x49 0 0 0 0 0 0 0 0 0 0 0) o) = some r)
  obtain ⟨hl, hg⟩ := laid_VLogic h 0x49 o (info_wf hw).2
  exact close hl rfl fun h1 h2 => by rw [parse_vxor _ h1, h2, hg]

theorem vshl (h : Hdr) (o : VElem) : Statement (.vshl h o) := by
  intro r hw he
  cases (he : some (putVShift (Raw.mk h 0x4A 0 0 0 0 0 0 0 0 0 0 0) o) = some r)
  obtain ⟨hl, hg⟩ := laid_VShift h 0x4A o (info_wf hw).2
  exact close hl rfl fun h1 h2 => by rw [parse_vshl _ h1, h2, hg]

theorem vshr (h : Hdr) (o : VElem) : Statement (.vshr h o) := by
  intro r hw he
  cases (he : some (putVShift (Raw.mk h 0x4B 0 0 0 0 0 0 0 0 0 0 0) o) = some r)
  obtain ⟨hl, hg⟩ := laid_VShift h 0x4B o (info_wf hw).2
  exact close hl rfl fun h1 h2 => by rw [parse_vshr _ h1, h2, hg]

theorem vsra (h : Hdr) (o : VElem) : Statement (.vsra h o) := by
  intro r hw he
  cases (he : some (putVShift (Raw.mk h 0x4C 0 0 0 0 0 0 0 0 0 0 0) o) = some r)
  obtain ⟨hl, hg⟩ := laid_VShift h 0x4C o (info_wf hw).2
  exact close hl rfl fun h1 h2 => by rw [parse_vsra _ h1, h2, hg]

theorem vmin (h : Hdr) (o : VUns) : Statement (.vmin h o) := by
  intro r hw he
  cases (he : some (putVUns (Raw.mk h 0x4D 0 0 0 0 0 0 0 0 0 0 0) o) = some r)
  obtain ⟨hl, hg⟩ := laid_VUns h 0x4D o (info_wf hw).2
  exact close hl rfl fun h1 h2 => by rw [parse_vmin _ h1, h2, hg]

theorem vmax (h : Hdr) (o : VUns) : Statement (.vmax h o) := by
  intro r hw he
  cases (he : some (putVUns (Raw.mk h 0x4E 0 0 0 0 0 0 0 0 0 0 0) o) = some r)
  obtain ⟨hl, hg⟩ := laid_VUns h 0x4E o (info_wf hw).2
  exact close hl rfl fun h1 h2 => by rw [parse_vmax _ h1, h2, hg]

theorem vabs (h : Hdr) (o : VAbs) : Statement (.vabs h o) := by
  intro r hw he
  cases (he : some (putVAbs (Raw.mk h 0x4F 0 0 0 0 0 0 0 0 0 0 0) o) = some r)
  obtain ⟨hl, hg⟩ := laid_VAbs h 0x4F o (info_wf hw).2
  exact close hl rfl fun h1 h2 => by rw [parse_vabs _ h1, h2, hg]

theorem vneg (h : Hdr) (o : VAbs) : Statement (.vneg h o) := by
  intro r hw he
  cases (he : some (putVAbs (Raw.mk h 0x50 0 0 0 0 0 0 0 0 0 0 0) o) = some r)
  obtain ⟨hl, hg⟩ := laid_VAbs h 0x50 o (info_wf hw).2
  exact close hl rfl fun h1 h2 => by rw [parse_vneg _ h1, h2, hg]

theorem vclz (h : Hdr) (o : VCount) : Statement (.vclz h o) := by
  intro r hw he
  cases (he : some (putVCount (Raw.mk h 0x51 0 0 0 0 0 0 0 0 0 0 0) o) = some r)
  obtain ⟨hl, hg⟩ := laid_VCount h 0x51 o (info_wf hw).2
  exact close hl rfl fun h1 h2 => by rw [parse_vclz _ h1, h2, hg]

theorem vpopc (h : Hdr) (o : VCount) : Statement (.vpopc h o) := by
  intro r hw he
  cases (he : some (putVCount (Raw.mk h 0x52 0 0 0 0 0 0 0 0 0 0 0) o) = some r)
  obtain ⟨hl, hg⟩ := laid_VCount h 0x52 o (info_wf hw).2
  exact close hl rfl fun h1 h2 => by rw [parse_vpopc _ h1, h2, hg]

theorem vbrev (h : Hdr) (o : VCount) : Statement (.vbrev h o) := by
  intro r hw he
  cases (he : some (putVCount (Raw.mk h 0x53 0 0 0 0 0 0 0 0 0 0 0) o) = some r)
  obtain ⟨hl, hg⟩ := laid_VCount h 0x53 o (info_wf hw).2
  exact close hl rfl fun h1 h2 => by rw [parse_vbrev _ h1, h2, hg]

theorem vbfx (h : Hdr) (o : VBfx) : Statement (.vbfx h o) := by
  intro r hw he
  cases (he : some (putVBfx (Raw.mk h 0x54 0 0 0 0 0 0 0 0 0 0 0) o) = some r)
  obtain ⟨hl, hg⟩ := laid_VBfx h 0x54 o (info_wf hw).2
  exact close hl rfl fun h1 h2 => by rw [parse_vbfx _ h1, h2, hg]

theorem vbfi (h : Hdr) (o : VBfi) : Statement (.vbfi h o) := by
  intro r hw he
  cases (he : some (putVBfi (Raw.mk h 0x55 0 0 0 0 0 0 0 0 0 0 0) o) = some r)
  obtain ⟨hl, hg⟩ := laid_VBfi h 0x55 o (info_wf hw).2
  exact close hl rfl fun h1 h2 => by rw [parse_vbfi _ h1, h2, hg]

theorem vsel (h : Hdr) (o : VElem) : Statement (.vsel h o) := by
  intro r hw he
  cases (he : some (putVElem (Raw.mk h 0x56 0 0 0 0 0 0 0 0 0 0 0) o) = some r)
  obtain ⟨hl, hg⟩ := laid_VElem h 0x56 o (info_wf hw).2
  exact close hl rfl fun h1 h2 => by rw [parse_vsel _ h1, h2, hg]

theorem vcmp (h : Hdr) (o : VCmp) : Statement (.vcmp h o) := by
  intro r hw he
  cases (he : some (putVCmp (Raw.mk h 0x57 0 0 0 0 0 0 0 0 0 0 0) o) = some r)
  obtain ⟨hl, hg⟩ := laid_VCmp h 0x57 o (info_wf hw).2
  exact close hl rfl fun h1 h2 => by rw [parse_vcmp _ h1, h2, hg]

theorem vmov (h : Hdr) (o : VMov) : Statement (.vmov h o) := by
  intro r hw he
  cases (he : some (putVMov (Raw.mk h 0x58 0 0 0 0 0 0 0 0 0 0 0) o) = some r)
  obtain ⟨hl, hg⟩ := laid_VMov h 0x58 o (info_wf hw).2
  exact close hl rfl fun h1 h2 => by rw [parse_vmov _ h1, h2, hg]

theorem vli (h : Hdr) (o : VLi) : Statement (.vli h o) := by
  intro r hw he
  cases (he : some (putVLi (Raw.mk h 0x59 0 0 0 0 0 0 0 0 0 0 0) o) = some r)
  obtain ⟨hl, hg⟩ := laid_VLi h 0x59 o (by simpa [Form.admits] using (info_wf hw).1)
  exact close hl rfl fun h1 h2 => by rw [parse_vli _ h1, h2, hg]

theorem vlane (h : Hdr) (o : VReg) : Statement (.vlane h o) := by
  intro r hw he
  cases (he : some (putVD (Raw.mk h 0x5A 0 0 0 0 0 0 0 0 0 0 0) o) = some r)
  obtain ⟨hl, hg⟩ := laid_VD h 0x5A o (info_wf hw).2
  exact close hl rfl fun h1 h2 => by rw [parse_vlane _ h1, h2, hg]

theorem vbcast (h : Hdr) (o : VBcast) : Statement (.vbcast h o) := by
  intro r hw he
  cases (he : some (putVBcast (Raw.mk h 0x5B 0 0 0 0 0 0 0 0 0 0 0) o) = some r)
  obtain ⟨hl, hg⟩ := laid_VBcast h 0x5B o (info_wf hw).2
  exact close hl rfl fun h1 h2 => by rw [parse_vbcast _ h1, h2, hg]

theorem vtos (h : Hdr) (o : VToS) : Statement (.vtos h o) := by
  intro r hw he
  cases (he : some (putVToS (Raw.mk h 0x5C 0 0 0 0 0 0 0 0 0 0 0) o) = some r)
  obtain ⟨hl, hg⟩ := laid_VToS h 0x5C o (info_wf hw).2
  exact close hl rfl fun h1 h2 => by rw [parse_vtos _ h1, h2, hg]

theorem vperm (h : Hdr) (o : VPerm) : Statement (.vperm h o) := by
  intro r hw he
  cases (he : some (putVPerm (Raw.mk h 0x5D 0 0 0 0 0 0 0 0 0 0 0) o) = some r)
  obtain ⟨hl, hg⟩ := laid_VPerm h 0x5D o (info_wf hw).2
  exact close hl rfl fun h1 h2 => by rw [parse_vperm _ h1, h2, hg]

theorem vred (h : Hdr) (o : VRed) : Statement (.vred h o) := by
  intro r hw he
  cases (he : some (putVRed (Raw.mk h 0x5E 0 0 0 0 0 0 0 0 0 0 0) o) = some r)
  obtain ⟨hl, hg⟩ := laid_VRed h 0x5E o (by have h := (info_wf hw).2; simp only [chkVRedOp, Bool.and_eq_true] at h ⊢; simp_all)
  exact close hl rfl fun h1 h2 => by rw [parse_vred _ h1, h2, hg]

theorem vscan (h : Hdr) (o : VRed) : Statement (.vscan h o) := by
  intro r hw he
  cases (he : some (putVRed (Raw.mk h 0x5F 0 0 0 0 0 0 0 0 0 0 0) o) = some r)
  obtain ⟨hl, hg⟩ := laid_VRed h 0x5F o (by have h := (info_wf hw).2; simp only [chkVScanOp, Bool.and_eq_true] at h ⊢; simp_all)
  exact close hl rfl fun h1 h2 => by rw [parse_vscan _ h1, h2, hg]

theorem vfadd (h : Hdr) (o : VFp) : Statement (.vfadd h o) := by
  intro r hw he
  cases (he : some (putVFp (Raw.mk h 0x60 0 0 0 0 0 0 0 0 0 0 0) o) = some r)
  obtain ⟨hl, hg⟩ := laid_VFp h 0x60 o (info_wf hw).2
  exact close hl rfl fun h1 h2 => by rw [parse_vfadd _ h1, h2, hg]

theorem vfsub (h : Hdr) (o : VFp) : Statement (.vfsub h o) := by
  intro r hw he
  cases (he : some (putVFp (Raw.mk h 0x61 0 0 0 0 0 0 0 0 0 0 0) o) = some r)
  obtain ⟨hl, hg⟩ := laid_VFp h 0x61 o (info_wf hw).2
  exact close hl rfl fun h1 h2 => by rw [parse_vfsub _ h1, h2, hg]

theorem vfmul (h : Hdr) (o : VFp) : Statement (.vfmul h o) := by
  intro r hw he
  cases (he : some (putVFp (Raw.mk h 0x62 0 0 0 0 0 0 0 0 0 0 0) o) = some r)
  obtain ⟨hl, hg⟩ := laid_VFp h 0x62 o (info_wf hw).2
  exact close hl rfl fun h1 h2 => by rw [parse_vfmul _ h1, h2, hg]

theorem vfma (h : Hdr) (o : VFma) : Statement (.vfma h o) := by
  intro r hw he
  cases (he : some (putVFma (Raw.mk h 0x63 0 0 0 0 0 0 0 0 0 0 0) o) = some r)
  obtain ⟨hl, hg⟩ := laid_VFma h 0x63 o (by simpa [Form.admits] using (info_wf hw).1)
  exact close hl rfl fun h1 h2 => by rw [parse_vfma _ h1, h2, hg]

theorem vfmin (h : Hdr) (o : VBin) : Statement (.vfmin h o) := by
  intro r hw he
  cases (he : some (putVBin (Raw.mk h 0x64 0 0 0 0 0 0 0 0 0 0 0) o) = some r)
  obtain ⟨hl, hg⟩ := laid_VBin h 0x64 o (info_wf hw).2
  exact close hl rfl fun h1 h2 => by rw [parse_vfmin _ h1, h2, hg]

theorem vfmax (h : Hdr) (o : VBin) : Statement (.vfmax h o) := by
  intro r hw he
  cases (he : some (putVBin (Raw.mk h 0x65 0 0 0 0 0 0 0 0 0 0 0) o) = some r)
  obtain ⟨hl, hg⟩ := laid_VBin h 0x65 o (info_wf hw).2
  exact close hl rfl fun h1 h2 => by rw [parse_vfmax _ h1, h2, hg]

theorem vfcmp (h : Hdr) (o : VFCmp) : Statement (.vfcmp h o) := by
  intro r hw he
  cases (he : some (putVFCmp (Raw.mk h 0x66 0 0 0 0 0 0 0 0 0 0 0) o) = some r)
  obtain ⟨hl, hg⟩ := laid_VFCmp h 0x66 o (info_wf hw).2
  exact close hl rfl fun h1 h2 => by rw [parse_vfcmp _ h1, h2, hg]

theorem vfrcp (h : Hdr) (o : VUn) : Statement (.vfrcp h o) := by
  intro r hw he
  cases (he : some (putVUn (Raw.mk h 0x67 0 0 0 0 0 0 0 0 0 0 0) o) = some r)
  obtain ⟨hl, hg⟩ := laid_VUn h 0x67 o (info_wf hw).2
  exact close hl rfl fun h1 h2 => by rw [parse_vfrcp _ h1, h2, hg]

theorem vfrsq (h : Hdr) (o : VUn) : Statement (.vfrsq h o) := by
  intro r hw he
  cases (he : some (putVUn (Raw.mk h 0x68 0 0 0 0 0 0 0 0 0 0 0) o) = some r)
  obtain ⟨hl, hg⟩ := laid_VUn h 0x68 o (info_wf hw).2
  exact close hl rfl fun h1 h2 => by rw [parse_vfrsq _ h1, h2, hg]

theorem vfsqrt (h : Hdr) (o : VUn) : Statement (.vfsqrt h o) := by
  intro r hw he
  cases (he : some (putVUn (Raw.mk h 0x69 0 0 0 0 0 0 0 0 0 0 0) o) = some r)
  obtain ⟨hl, hg⟩ := laid_VUn h 0x69 o (info_wf hw).2
  exact close hl rfl fun h1 h2 => by rw [parse_vfsqrt _ h1, h2, hg]

theorem vfexp2 (h : Hdr) (o : VUn) : Statement (.vfexp2 h o) := by
  intro r hw he
  cases (he : some (putVUn (Raw.mk h 0x6A 0 0 0 0 0 0 0 0 0 0 0) o) = some r)
  obtain ⟨hl, hg⟩ := laid_VUn h 0x6A o (info_wf hw).2
  exact close hl rfl fun h1 h2 => by rw [parse_vfexp2 _ h1, h2, hg]

theorem vflog2 (h : Hdr) (o : VUn) : Statement (.vflog2 h o) := by
  intro r hw he
  cases (he : some (putVUn (Raw.mk h 0x6B 0 0 0 0 0 0 0 0 0 0 0) o) = some r)
  obtain ⟨hl, hg⟩ := laid_VUn h 0x6B o (info_wf hw).2
  exact close hl rfl fun h1 h2 => by rw [parse_vflog2 _ h1, h2, hg]

theorem vfsin (h : Hdr) (o : VUn) : Statement (.vfsin h o) := by
  intro r hw he
  cases (he : some (putVUn (Raw.mk h 0x6C 0 0 0 0 0 0 0 0 0 0 0) o) = some r)
  obtain ⟨hl, hg⟩ := laid_VUn h 0x6C o (info_wf hw).2
  exact close hl rfl fun h1 h2 => by rw [parse_vfsin _ h1, h2, hg]

theorem vfcos (h : Hdr) (o : VUn) : Statement (.vfcos h o) := by
  intro r hw he
  cases (he : some (putVUn (Raw.mk h 0x6D 0 0 0 0 0 0 0 0 0 0 0) o) = some r)
  obtain ⟨hl, hg⟩ := laid_VUn h 0x6D o (info_wf hw).2
  exact close hl rfl fun h1 h2 => by rw [parse_vfcos _ h1, h2, hg]

theorem vfrnd (h : Hdr) (o : VFRnd) : Statement (.vfrnd h o) := by
  intro r hw he
  cases (he : some (putVFRnd (Raw.mk h 0x6E 0 0 0 0 0 0 0 0 0 0 0) o) = some r)
  obtain ⟨hl, hg⟩ := laid_VFRnd h 0x6E o (info_wf hw).2
  exact close hl rfl fun h1 h2 => by rw [parse_vfrnd _ h1, h2, hg]

theorem vfclass (h : Hdr) (o : VUn) : Statement (.vfclass h o) := by
  intro r hw he
  cases (he : some (putVUn (Raw.mk h 0x6F 0 0 0 0 0 0 0 0 0 0 0) o) = some r)
  obtain ⟨hl, hg⟩ := laid_VUn h 0x6F o (info_wf hw).2
  exact close hl rfl fun h1 h2 => by rw [parse_vfclass _ h1, h2, hg]

theorem vhadd (h : Hdr) (o : VHalf) : Statement (.vhadd h o) := by
  intro r hw he
  cases (he : some (putVHalf (Raw.mk h 0x70 0 0 0 0 0 0 0 0 0 0 0) o) = some r)
  obtain ⟨hl, hg⟩ := laid_VHalf h 0x70 o (info_wf hw).2
  exact close hl rfl fun h1 h2 => by rw [parse_vhadd _ h1, h2, hg]

theorem vhmul (h : Hdr) (o : VHalf) : Statement (.vhmul h o) := by
  intro r hw he
  cases (he : some (putVHalf (Raw.mk h 0x71 0 0 0 0 0 0 0 0 0 0 0) o) = some r)
  obtain ⟨hl, hg⟩ := laid_VHalf h 0x71 o (info_wf hw).2
  exact close hl rfl fun h1 h2 => by rw [parse_vhmul _ h1, h2, hg]

theorem vhfma (h : Hdr) (o : VHFma) : Statement (.vhfma h o) := by
  intro r hw he
  cases (he : some (putVHFma (Raw.mk h 0x72 0 0 0 0 0 0 0 0 0 0 0) o) = some r)
  obtain ⟨hl, hg⟩ := laid_VHFma h 0x72 o (by simpa [Form.admits] using (info_wf hw).1)
  exact close hl rfl fun h1 h2 => by rw [parse_vhfma _ h1, h2, hg]

theorem vdot2 (h : Hdr) (o : VDot2) : Statement (.vdot2 h o) := by
  intro r hw he
  cases (he : some (putVDot2 (Raw.mk h 0x73 0 0 0 0 0 0 0 0 0 0 0) o) = some r)
  obtain ⟨hl, hg⟩ := laid_VDot2 h 0x73 o (info_wf hw).2
  exact close hl rfl fun h1 h2 => by rw [parse_vdot2 _ h1, h2, hg]

theorem vdot4 (h : Hdr) (o : VDot4) : Statement (.vdot4 h o) := by
  intro r hw he
  cases (he : some (putVDot4 (Raw.mk h 0x74 0 0 0 0 0 0 0 0 0 0 0) o) = some r)
  obtain ⟨hl, hg⟩ := laid_VDot4 h 0x74 o (info_wf hw).2
  exact close hl rfl fun h1 h2 => by rw [parse_vdot4 _ h1, h2, hg]

theorem vcvt (h : Hdr) (o : VCvt) : Statement (.vcvt h o) := by
  intro r hw he
  cases (he : some (putVCvt (Raw.mk h 0x75 0 0 0 0 0 0 0 0 0 0 0) o) = some r)
  obtain ⟨hl, hg⟩ := laid_VCvt h 0x75 o (info_wf hw).2
  exact close hl rfl fun h1 h2 => by rw [parse_vcvt _ h1, h2, hg]

theorem vld (h : Hdr) (o : VLd) : Statement (.vld h o) := by
  intro r hw he
  cases (he : some (putVLd (Raw.mk h 0x80 0 0 0 0 0 0 0 0 0 0 0) o) = some r)
  obtain ⟨hl, hg⟩ := laid_VLd h 0x80 o (info_wf hw).2
  exact close hl rfl fun h1 h2 => by rw [parse_vld _ h1, h2, hg]

theorem vst (h : Hdr) (o : VSt) : Statement (.vst h o) := by
  intro r hw he
  cases (he : some (putVSt (Raw.mk h 0x81 0 0 0 0 0 0 0 0 0 0 0) o) = some r)
  obtain ⟨hl, hg⟩ := laid_VSt h 0x81 o (info_wf hw).2
  exact close hl rfl fun h1 h2 => by rw [parse_vst _ h1, h2, hg]

theorem vatom (h : Hdr) (o : VAtom) : Statement (.vatom h o) := by
  intro r hw he
  cases (he : some (putVAtom (Raw.mk h 0x82 0 0 0 0 0 0 0 0 0 0 0) o) = some r)
  obtain ⟨hl, hg⟩ := laid_VAtom h 0x82 o (info_wf hw).2
  exact close hl rfl fun h1 h2 => by rw [parse_vatom _ h1, h2, hg]

theorem vcas (h : Hdr) (o : VCas) : Statement (.vcas h o) := by
  intro r hw he
  cases (he : some (putVCas (Raw.mk h 0x83 0 0 0 0 0 0 0 0 0 0 0) o) = some r)
  obtain ⟨hl, hg⟩ := laid_VCas h 0x83 o (by simpa [Form.admits] using (info_wf hw).1)
  exact close hl rfl fun h1 h2 => by rw [parse_vcas _ h1, h2, hg]

theorem vprefetch (h : Hdr) (o : VPrefetch) : Statement (.vprefetch h o) := by
  intro r hw he
  cases (he : some (putVPrefetch (Raw.mk h 0x84 0 0 0 0 0 0 0 0 0 0 0) o) = some r)
  obtain ⟨hl, hg⟩ := laid_VPrefetch h 0x84 o (info_wf hw).2
  exact close hl rfl fun h1 h2 => by rw [parse_vprefetch _ h1, h2, hg]

theorem fence (h : Hdr) (o : Fence) : Statement (.fence h o) := by
  intro r hw he
  cases (he : some (putFence (Raw.mk h 0x85 0 0 0 0 0 0 0 0 0 0 0) o) = some r)
  obtain ⟨hl, hg⟩ := laid_Fence h 0x85 o (by simpa [Form.admits] using (info_wf hw).1)
  exact close hl rfl fun h1 h2 => by rw [parse_fence _ h1, h2, hg]

theorem waita (h : Hdr) (o : WaitA) : Statement (.waita h o) := by
  intro r hw he
  cases (he : some (putWaitA (Raw.mk h 0x86 0 0 0 0 0 0 0 0 0 0 0) o) = some r)
  obtain ⟨hl, hg⟩ := laid_WaitA h 0x86 o (info_wf hw).2
  exact close hl rfl fun h1 h2 => by rw [parse_waita _ h1, h2, hg]

theorem waitaWake (r : PathRef) : Statement (.waitaWake r) :=
  fun _ _ he => nomatch he

theorem waitaTimeout (r : PathRef) : Statement (.waitaTimeout r) :=
  fun _ _ he => nomatch he

theorem vrdx (h : Hdr) (o : VIdx) : Statement (.vrdx h o) := by
  intro r hw he
  cases (he : some (putVIdx (Raw.mk h 0x87 0 0 0 0 0 0 0 0 0 0 0) o) = some r)
  obtain ⟨hl, hg⟩ := laid_VIdx h 0x87 o (info_wf hw).2
  exact close hl rfl fun h1 h2 => by rw [parse_vrdx _ h1, h2, hg]

theorem vwrx (h : Hdr) (o : VIdx) : Statement (.vwrx h o) := by
  intro r hw he
  cases (he : some (putVIdx (Raw.mk h 0x88 0 0 0 0 0 0 0 0 0 0 0) o) = some r)
  obtain ⟨hl, hg⟩ := laid_VIdx h 0x88 o (info_wf hw).2
  exact close hl rfl fun h1 h2 => by rw [parse_vwrx _ h1, h2, hg]

theorem xset (h : Hdr) (o : XSet) : Statement (.xset h o) := by
  intro r hw he
  cases (he : some (putXSet (Raw.mk h 0x89 0 0 0 0 0 0 0 0 0 0 0) o) = some r)
  obtain ⟨hl, hg⟩ := laid_XSet h 0x89 o (info_wf hw).2
  exact close hl rfl fun h1 h2 => by rw [parse_xset _ h1, h2, hg]

theorem spill (h : Hdr) (o : SpillFill) : Statement (.spill h o) := by
  intro r hw he
  cases (he : some (putSpillFill (Raw.mk h 0x8A 0 0 0 0 0 0 0 0 0 0 0) o) = some r)
  obtain ⟨hl, hg⟩ := laid_SpillFill h 0x8A o (info_wf hw).2
  exact close hl rfl fun h1 h2 => by rw [parse_spill _ h1, h2, hg]

theorem fill (h : Hdr) (o : SpillFill) : Statement (.fill h o) := by
  intro r hw he
  cases (he : some (putSpillFill (Raw.mk h 0x8B 0 0 0 0 0 0 0 0 0 0 0) o) = some r)
  obtain ⟨hl, hg⟩ := laid_SpillFill h 0x8B o (info_wf hw).2
  exact close hl rfl fun h1 h2 => by rw [parse_fill _ h1, h2, hg]

theorem loadLand (g : Nat) (id : Nat) : Statement (.loadLand g id) :=
  fun _ _ he => nomatch he

theorem mma (h : Hdr) (o : Mma) : Statement (.mma h o) := by
  intro r hw he
  cases (he : some (putMma (Raw.mk h 0xA0 0 0 0 0 0 0 0 0 0 0 0) o) = some r)
  obtain ⟨hl, hg⟩ := laid_Mma h 0xA0 o (info_wf hw).2
  exact close hl rfl fun h1 h2 => by rw [parse_mma _ h1, h2, hg]

theorem mmaComplete (g : Nat) (id : Nat) : Statement (.mmaComplete g id) :=
  fun _ _ he => nomatch he

theorem mzero (h : Hdr) (o : TReg) : Statement (.mzero h o) := by
  intro r hw he
  cases (he : some (putTD (Raw.mk h 0xA1 0 0 0 0 0 0 0 0 0 0 0) o) = some r)
  obtain ⟨hl, hg⟩ := laid_TD h 0xA1 o (info_wf hw).2
  exact close hl rfl fun h1 h2 => by rw [parse_mzero _ h1, h2, hg]

theorem mmov (h : Hdr) (o : MMove) : Statement (.mmov h o) := by
  intro r hw he
  cases (he : some (putMMov (Raw.mk h 0xA2 0 0 0 0 0 0 0 0 0 0 0) o) = some r)
  obtain ⟨hl, hg⟩ := laid_MMov h 0xA2 o (info_wf hw).2
  exact close hl rfl fun h1 h2 => by rw [parse_mmov _ h1, h2, hg]

theorem mload (h : Hdr) (o : MMove) : Statement (.mload h o) := by
  intro r hw he
  cases (he : some (putMLoad (Raw.mk h 0xA3 0 0 0 0 0 0 0 0 0 0 0) o) = some r)
  obtain ⟨hl, hg⟩ := laid_MLoad h 0xA3 o (info_wf hw).2
  exact close hl rfl fun h1 h2 => by rw [parse_mload _ h1, h2, hg]

theorem mst (h : Hdr) (o : MMem) : Statement (.mst h o) := by
  intro r hw he
  cases (he : some (putMMem (Raw.mk h 0xA4 0 0 0 0 0 0 0 0 0 0 0) o) = some r)
  obtain ⟨hl, hg⟩ := laid_MMem h 0xA4 o (info_wf hw).2
  exact close hl rfl fun h1 h2 => by rw [parse_mst _ h1, h2, hg]

theorem mld (h : Hdr) (o : MMem) : Statement (.mld h o) := by
  intro r hw he
  cases (he : some (putMMem (Raw.mk h 0xA5 0 0 0 0 0 0 0 0 0 0 0) o) = some r)
  obtain ⟨hl, hg⟩ := laid_MMem h 0xA5 o (info_wf hw).2
  exact close hl rfl fun h1 h2 => by rw [parse_mld _ h1, h2, hg]

theorem mstComplete (g : Nat) (id : Nat) : Statement (.mstComplete g id) :=
  fun _ _ he => nomatch he

theorem mldComplete (g : Nat) (id : Nat) : Statement (.mldComplete g id) :=
  fun _ _ he => nomatch he

theorem dld (h : Hdr) (o : DMem) : Statement (.dld h o) := by
  intro r hw he
  cases (he : some (putDMem (Raw.mk h 0xB0 0 0 0 0 0 0 0 0 0 0 0) o) = some r)
  obtain ⟨hl, hg⟩ := laid_DMem h 0xB0 o (info_wf hw).2
  exact close hl rfl fun h1 h2 => by rw [parse_dld _ h1, h2, hg]

theorem dst (h : Hdr) (o : DMem) : Statement (.dst h o) := by
  intro r hw he
  cases (he : some (putDMem (Raw.mk h 0xB1 0 0 0 0 0 0 0 0 0 0 0) o) = some r)
  obtain ⟨hl, hg⟩ := laid_DMem h 0xB1 o (info_wf hw).2
  exact close hl rfl fun h1 h2 => by rw [parse_dst _ h1, h2, hg]

theorem dset (h : Hdr) (o : DSet) : Statement (.dset h o) := by
  intro r hw he
  cases (he : some (putDSet (Raw.mk h 0xB2 0 0 0 0 0 0 0 0 0 0 0) o) = some r)
  obtain ⟨hl, hg⟩ := laid_DSet h 0xB2 o (info_wf hw).2
  exact close hl rfl fun h1 h2 => by rw [parse_dset _ h1, h2, hg]

theorem tcopy (h : Hdr) (o : TCopy) : Statement (.tcopy h o) := by
  intro r hw he
  cases (he : some (putTCopy (Raw.mk h 0xB3 0 0 0 0 0 0 0 0 0 0 0) o) = some r)
  obtain ⟨hl, hg⟩ := laid_TCopy h 0xB3 o (info_wf hw).2
  exact close hl rfl fun h1 h2 => by rw [parse_tcopy _ h1, h2, hg]

theorem tcopyTile (g : Nat) (d : DReg) : Statement (.tcopyTile g d) :=
  fun _ _ he => nomatch he

theorem tstat (h : Hdr) (o : TStat) : Statement (.tstat h o) := by
  intro r hw he
  cases (he : some (putTStat (Raw.mk h 0xB4 0 0 0 0 0 0 0 0 0 0 0) o) = some r)
  obtain ⟨hl, hg⟩ := laid_TStat h 0xB4 o (info_wf hw).2
  exact close hl rfl fun h1 h2 => by rw [parse_tstat _ h1, h2, hg]

theorem tresume (h : Hdr) (o : DReg) : Statement (.tresume h o) := by
  intro r hw he
  cases (he : some (putDD (Raw.mk h 0xB5 0 0 0 0 0 0 0 0 0 0 0) o) = some r)
  obtain ⟨hl, hg⟩ := laid_DD h 0xB5 o (info_wf hw).2
  exact close hl rfl fun h1 h2 => by rw [parse_tresume _ h1, h2, hg]

theorem binit (h : Hdr) (o : BInit) : Statement (.binit h o) := by
  intro r hw he
  cases (he : some (putBInit (Raw.mk h 0xB6 0 0 0 0 0 0 0 0 0 0 0) o) = some r)
  obtain ⟨hl, hg⟩ := laid_BInit h 0xB6 o (info_wf hw).2
  exact close hl rfl fun h1 h2 => by rw [parse_binit _ h1, h2, hg]

theorem barr (h : Hdr) (o : BArr) : Statement (.barr h o) := by
  intro r hw he
  cases (he : some (putBArr (Raw.mk h 0xB7 0 0 0 0 0 0 0 0 0 0 0) o) = some r)
  obtain ⟨hl, hg⟩ := laid_BArr h 0xB7 o (info_wf hw).2
  exact close hl rfl fun h1 h2 => by rw [parse_barr _ h1, h2, hg]

theorem btry (h : Hdr) (o : BTry) : Statement (.btry h o) := by
  intro r hw he
  cases (he : some (putBTry (Raw.mk h 0xB8 0 0 0 0 0 0 0 0 0 0 0) o) = some r)
  obtain ⟨hl, hg⟩ := laid_BTry h 0xB8 o (info_wf hw).2
  exact close hl rfl fun h1 h2 => by rw [parse_btry _ h1, h2, hg]

theorem btryWake (r : PathRef) : Statement (.btryWake r) :=
  fun _ _ he => nomatch he

theorem btryTimeout (r : PathRef) : Statement (.btryTimeout r) :=
  fun _ _ he => nomatch he

theorem binval (h : Hdr) (o : Bar) : Statement (.binval h o) := by
  intro r hw he
  cases (he : some (putBInval (Raw.mk h 0xB9 0 0 0 0 0 0 0 0 0 0 0) o) = some r)
  obtain ⟨hl, hg⟩ := laid_BInval h 0xB9 o (info_wf hw).2
  exact close hl rfl fun h1 h2 => by rw [parse_binval _ h1, h2, hg]

theorem cbarr (h : Hdr) (o : CBArr) : Statement (.cbarr h o) := by
  intro r hw he
  cases (he : some (putCBArr (Raw.mk h 0xBA 0 0 0 0 0 0 0 0 0 0 0) o) = some r)
  obtain ⟨hl, hg⟩ := laid_CBArr h 0xBA o (info_wf hw).2
  exact close hl rfl fun h1 h2 => by rw [parse_cbarr _ h1, h2, hg]

theorem cbtry (h : Hdr) (o : CBTry) : Statement (.cbtry h o) := by
  intro r hw he
  cases (he : some (putCBTry (Raw.mk h 0xBB 0 0 0 0 0 0 0 0 0 0 0) o) = some r)
  obtain ⟨hl, hg⟩ := laid_CBTry h 0xBB o (info_wf hw).2
  exact close hl rfl fun h1 h2 => by rw [parse_cbtry _ h1, h2, hg]

theorem rbox4 (h : Hdr) (o : Trav) : Statement (.rbox4 h o) := by
  intro r hw he
  cases (he : some (putTrav (Raw.mk h 0xC0 0 0 0 0 0 0 0 0 0 0 0) o) = some r)
  obtain ⟨hl, hg⟩ := laid_Trav h 0xC0 o (info_wf hw).2
  exact close hl rfl fun h1 h2 => by rw [parse_rbox4 _ h1, h2, hg]

theorem rtri (h : Hdr) (o : Trav) : Statement (.rtri h o) := by
  intro r hw he
  cases (he : some (putTrav (Raw.mk h 0xC1 0 0 0 0 0 0 0 0 0 0 0) o) = some r)
  obtain ⟨hl, hg⟩ := laid_Trav h 0xC1 o rfl
  exact close hl rfl fun h1 h2 => by rw [parse_rtri _ h1, h2, hg]

theorem pairs (h : Hdr) (o : Pairs) : Statement (.pairs h o) := by
  intro r hw he
  cases (he : some (putPairs (Raw.mk h 0xC2 0 0 0 0 0 0 0 0 0 0 0) o) = some r)
  obtain ⟨hl, hg⟩ := laid_Pairs h 0xC2 o (info_wf hw).2
  exact close hl rfl fun h1 h2 => by rw [parse_pairs _ h1, h2, hg]

theorem pairsStop (r : PathRef) : Statement (.pairsStop r) :=
  fun _ _ he => nomatch he

theorem tex (h : Hdr) (o : Tex) : Statement (.tex h o) := by
  intro r hw he
  cases (he : some (putTex (Raw.mk h 0xC3 0 0 0 0 0 0 0 0 0 0 0) o) = some r)
  obtain ⟨hl, hg⟩ := laid_Tex h 0xC3 o (info_wf hw).2
  exact close hl rfl fun h1 h2 => by rw [parse_tex _ h1, h2, hg]

theorem cover (h : Hdr) (o : Trav) : Statement (.cover h o) := by
  intro r hw he
  cases (he : some (putTrav (Raw.mk h 0xC4 0 0 0 0 0 0 0 0 0 0 0) o) = some r)
  obtain ⟨hl, hg⟩ := laid_Trav h 0xC4 o rfl
  exact close hl rfl fun h1 h2 => by rw [parse_cover _ h1, h2, hg]

theorem scommit (h : Hdr) (o : SUn) : Statement (.scommit h o) := by
  intro r hw he
  cases (he : some (putSUn (Raw.mk h 0xC5 0 0 0 0 0 0 0 0 0 0 0) o) = some r)
  obtain ⟨hl, hg⟩ := laid_SUn h 0xC5 o rfl
  exact close hl rfl fun h1 h2 => by rw [parse_scommit _ h1, h2, hg]

theorem qenq (h : Hdr) (o : QEnq) : Statement (.qenq h o) := by
  intro r hw he
  cases (he : some (putQEnq (Raw.mk h 0xC8 0 0 0 0 0 0 0 0 0 0 0) o) = some r)
  obtain ⟨hl, hg⟩ := laid_QEnq h 0xC8 o (info_wf hw).2
  exact close hl rfl fun h1 h2 => by rw [parse_qenq _ h1, h2, hg]

theorem qdeq (h : Hdr) (o : QDeq) : Statement (.qdeq h o) := by
  intro r hw he
  cases (he : some (putQDeq (Raw.mk h 0xC9 0 0 0 0 0 0 0 0 0 0 0) o) = some r)
  obtain ⟨hl, hg⟩ := laid_QDeq h 0xC9 o (info_wf hw).2
  exact close hl rfl fun h1 h2 => by rw [parse_qdeq _ h1, h2, hg]

theorem qsteal (h : Hdr) (o : QDeq) : Statement (.qsteal h o) := by
  intro r hw he
  cases (he : some (putQDeq (Raw.mk h 0xCA 0 0 0 0 0 0 0 0 0 0 0) o) = some r)
  obtain ⟨hl, hg⟩ := laid_QDeq h 0xCA o (info_wf hw).2
  exact close hl rfl fun h1 h2 => by rw [parse_qsteal _ h1, h2, hg]

theorem qeos (h : Hdr) (o : QReg) : Statement (.qeos h o) := by
  intro r hw he
  cases (he : some (putQA (Raw.mk h 0xCB 0 0 0 0 0 0 0 0 0 0 0) o) = some r)
  obtain ⟨hl, hg⟩ := laid_QA h 0xCB o (info_wf hw).2
  exact close hl rfl fun h1 h2 => by rw [parse_qeos _ h1, h2, hg]

theorem rwq (h : Hdr) (o : Rwq) : Statement (.rwq h o) := by
  intro r hw he
  cases (he : some (putRwq (Raw.mk h 0xCC 0 0 0 0 0 0 0 0 0 0 0) o) = some r)
  obtain ⟨hl, hg⟩ := laid_Rwq h 0xCC o (info_wf hw).2
  exact close hl rfl fun h1 h2 => by rw [parse_rwq _ h1, h2, hg]

theorem launch (h : Hdr) (o : Launch) : Statement (.launch h o) := by
  intro r hw he
  cases (he : some (putLaunch (Raw.mk h 0xCD 0 0 0 0 0 0 0 0 0 0 0) o) = some r)
  obtain ⟨hl, hg⟩ := laid_Launch h 0xCD o (info_wf hw).2
  exact close hl rfl fun h1 h2 => by rw [parse_launch _ h1, h2, hg]

theorem lwait (h : Hdr) (o : LWait) : Statement (.lwait h o) := by
  intro r hw he
  cases (he : some (putLWait (Raw.mk h 0xCE 0 0 0 0 0 0 0 0 0 0 0) o) = some r)
  obtain ⟨hl, hg⟩ := laid_LWait h 0xCE o (info_wf hw).2
  exact close hl rfl fun h1 h2 => by rw [parse_lwait _ h1, h2, hg]

theorem lwaitWake (r : PathRef) : Statement (.lwaitWake r) :=
  fun _ _ he => nomatch he

theorem trap (h : Hdr) (o : W8) : Statement (.trap h o) := by
  intro r hw he
  cases (he : some (putTrapN (Raw.mk h 0xD0 0 0 0 0 0 0 0 0 0 0 0) o) = some r)
  obtain ⟨hl, hg⟩ := laid_TrapN h 0xD0 o (info_wf hw).2
  exact close hl rfl fun h1 h2 => by rw [parse_trap _ h1, h2, hg]

theorem brk (h : Hdr) (o : BitVec 12) : Statement (.brk h o) := by
  intro r hw he
  cases (he : some (putBrkN (Raw.mk h 0xD1 0 0 0 0 0 0 0 0 0 0 0) o) = some r)
  obtain ⟨hl, hg⟩ := laid_BrkN h 0xD1 o (info_wf hw).2
  exact close hl rfl fun h1 h2 => by rw [parse_brk _ h1, h2, hg]

theorem fret (h : Hdr) (o : Bool) : Statement (.fret h o) := by
  intro r hw he
  cases (he : some (putFlag (Raw.mk h 0xD2 0 0 0 0 0 0 0 0 0 0 0) o) = some r)
  obtain ⟨hl, hg⟩ := laid_Flag h 0xD2 o (info_wf hw).2
  exact close hl rfl fun h1 h2 => by rw [parse_fret _ h1, h2, hg]

theorem sret (h : Hdr) : Statement (.sret h) := by
  intro r _ he
  cases (he : some (Raw.mk h 0xD3 0 0 0 0 0 0 0 0 0 0 0) = some r)
  exact ⟨rfl, rfl, fun _ => word1_zero _ rfl rfl rfl rfl rfl rfl⟩

theorem crd (h : Hdr) (o : Crd) : Statement (.crd h o) := by
  intro r hw he
  cases (he : some (putCrd (Raw.mk h 0xD4 0 0 0 0 0 0 0 0 0 0 0) o) = some r)
  obtain ⟨hl, hg⟩ := laid_Crd h 0xD4 o (info_wf hw).2
  exact close hl rfl fun h1 h2 => by rw [parse_crd _ h1, h2, hg]

theorem cwr (h : Hdr) (o : Cwr) : Statement (.cwr h o) := by
  intro r hw he
  cases (he : some (putCwr (Raw.mk h 0xD5 0 0 0 0 0 0 0 0 0 0 0) o) = some r)
  obtain ⟨hl, hg⟩ := laid_Cwr h 0xD5 o (info_wf hw).2
  exact close hl rfl fun h1 h2 => by rw [parse_cwr _ h1, h2, hg]

theorem vgrow (h : Hdr) (o : BitVec 4) : Statement (.vgrow h o) := by
  intro r hw he
  cases (he : some (putGrowN (Raw.mk h 0xD6 0 0 0 0 0 0 0 0 0 0 0) o) = some r)
  obtain ⟨hl, hg⟩ := laid_GrowN h 0xD6 o (info_wf hw).2
  exact close hl rfl fun h1 h2 => by rw [parse_vgrow _ h1, h2, hg]

theorem vgrowGrant (core : Nat) : Statement (.vgrowGrant core) :=
  fun _ _ he => nomatch he

theorem vshrink (h : Hdr) (o : BitVec 4) : Statement (.vshrink h o) := by
  intro r hw he
  cases (he : some (putGrowN (Raw.mk h 0xD7 0 0 0 0 0 0 0 0 0 0 0) o) = some r)
  obtain ⟨hl, hg⟩ := laid_GrowN h 0xD7 o (info_wf hw).2
  exact close hl rfl fun h1 h2 => by rw [parse_vshrink _ h1, h2, hg]

theorem yield (h : Hdr) : Statement (.yield h) := by
  intro r _ he
  cases (he : some (Raw.mk h 0xD8 0 0 0 0 0 0 0 0 0 0 0) = some r)
  exact ⟨rfl, rfl, fun _ => word1_zero _ rfl rfl rfl rfl rfl rfl⟩

theorem clock (h : Hdr) (o : Clock) : Statement (.clock h o) := by
  intro r hw he
  cases (he : some (putClock (Raw.mk h 0xD9 0 0 0 0 0 0 0 0 0 0 0) o) = some r)
  obtain ⟨hl, hg⟩ := laid_Clock h 0xD9 o (info_wf hw).2
  exact close hl rfl fun h1 h2 => by rw [parse_clock _ h1, h2, hg]

theorem tstamp (h : Hdr) (o : SReg) : Statement (.tstamp h o) := by
  intro r hw he
  cases (he : some (putSA (Raw.mk h 0xDA 0 0 0 0 0 0 0 0 0 0 0) o) = some r)
  obtain ⟨hl, hg⟩ := laid_SA h 0xDA o (info_wf hw).2
  exact close hl rfl fun h1 h2 => by rw [parse_tstamp _ h1, h2, hg]

theorem pgmap (h : Hdr) (o : PgMap) : Statement (.pgmap h o) := by
  intro r hw he
  cases (he : some (putPgMap (Raw.mk h 0xDB 0 0 0 0 0 0 0 0 0 0 0) o) = some r)
  obtain ⟨hl, hg⟩ := laid_PgMap h 0xDB o (info_wf hw).2
  exact close hl rfl fun h1 h2 => by rw [parse_pgmap _ h1, h2, hg]

theorem tlbinv (h : Hdr) (o : Option SReg) : Statement (.tlbinv h o) := by
  intro r hw he
  cases (he : some (putTlbInv (Raw.mk h 0xDC 0 0 0 0 0 0 0 0 0 0 0) o) = some r)
  obtain ⟨hl, hg⟩ := laid_TlbInv h 0xDC o (info_wf hw).2
  exact close hl rfl fun h1 h2 => by rw [parse_tlbinv _ h1, h2, hg]

theorem shev (h : Hdr) (o : ShEv) : Statement (.shev h o) := by
  intro r hw he
  cases (he : some (putShEv (Raw.mk h 0xDD 0 0 0 0 0 0 0 0 0 0 0) o) = some r)
  obtain ⟨hl, hg⟩ := laid_ShEv h 0xDD o (info_wf hw).2
  exact close hl rfl fun h1 h2 => by rw [parse_shev _ h1, h2, hg]

theorem halt (h : Hdr) (o : Bool) : Statement (.halt h o) := by
  intro r hw he
  cases (he : some (putFlag (Raw.mk h 0xDE 0 0 0 0 0 0 0 0 0 0 0) o) = some r)
  obtain ⟨hl, hg⟩ := laid_Flag h 0xDE o (info_wf hw).2
  exact close hl rfl fun h1 h2 => by rw [parse_halt _ h1, h2, hg]

theorem slotFill (g : Nat) : Statement (.slotFill g) :=
  fun _ _ he => nomatch he

theorem deadlockBreak (core : Nat) : Statement (.deadlockBreak core) :=
  fun _ _ he => nomatch he

theorem teamSave (t : Nat) : Statement (.teamSave t) :=
  fun _ _ he => nomatch he

theorem spwinExpiry (t : Nat) : Statement (.spwinExpiry t) :=
  fun _ _ he => nomatch he

theorem clusterDispatch (pd : Nat) : Statement (.clusterDispatch pd) :=
  fun _ _ he => nomatch he

theorem teamExit (t : Nat) : Statement (.teamExit t) :=
  fun _ _ he => nomatch he

theorem walkComplete (r : PathRef) : Statement (.walkComplete r) :=
  fun _ _ he => nomatch he

theorem migrationCommit (id : Nat) : Statement (.migrationCommit id) :=
  fun _ _ he => nomatch he

theorem ageSample (pd : Nat) : Statement (.ageSample pd) :=
  fun _ _ he => nomatch he

theorem remoteRequest (m : Request) : Statement (.remoteRequest m) :=
  fun _ _ he => nomatch he

theorem fabricTimeout (id : Nat) : Statement (.fabricTimeout id) :=
  fun _ _ he => nomatch he

theorem wqRecordTake (q : Nat) : Statement (.wqRecordTake q) :=
  fun _ _ he => nomatch he

theorem startMsg (vf : Nat) (src : Nat) (gen : W32) : Statement (.startMsg vf src gen) :=
  fun _ _ he => nomatch he

theorem abortMsg (vf : Nat) (src : Nat) (gen : W32) : Statement (.abortMsg vf src gen) :=
  fun _ _ he => nomatch he

theorem startTimeout (grid : Nat) : Statement (.startTimeout grid) :=
  fun _ _ he => nomatch he

theorem chainStart (pd : Nat) (st : Nat) : Statement (.chainStart pd st) :=
  fun _ _ he => nomatch he

theorem droverMilestone (pd : Nat) (st : Nat) : Statement (.droverMilestone pd st) :=
  fun _ _ he => nomatch he

theorem chainMiss (pd : Nat) (st : Nat) : Statement (.chainMiss pd st) :=
  fun _ _ he => nomatch he

theorem sliceEnd (pd : Nat) : Statement (.sliceEnd pd) :=
  fun _ _ he => nomatch he

theorem forcedStep (vf : Nat) : Statement (.forcedStep vf) :=
  fun _ _ he => nomatch he

theorem killStep (vf : Nat) : Statement (.killStep vf) :=
  fun _ _ he => nomatch he

theorem headScanout (pd : Nat) (st : Nat) : Statement (.headScanout pd st) :=
  fun _ _ he => nomatch he

theorem encodeStart (pd : Nat) (st : Nat) : Statement (.encodeStart pd st) :=
  fun _ _ he => nomatch he

theorem tileRowPost (pd : Nat) (st : Nat) : Statement (.tileRowPost pd st) :=
  fun _ _ he => nomatch he

theorem eventPost (pd : Nat) : Statement (.eventPost pd) :=
  fun _ _ he => nomatch he

theorem tileClose (g : Nat) (tag : W16) : Statement (.tileClose g tag) :=
  fun _ _ he => nomatch he

theorem pathSample (vf : Nat) (core : Nat) : Statement (.pathSample vf core) :=
  fun _ _ he => nomatch he

theorem traceRecordWrite (vf : Nat) : Statement (.traceRecordWrite vf) :=
  fun _ _ he => nomatch he

theorem traceRecordDrop (vf : Nat) : Statement (.traceRecordDrop vf) :=
  fun _ _ he => nomatch he

theorem shEventOffer (vf : Nat) : Statement (.shEventOffer vf) :=
  fun _ _ he => nomatch he

theorem shEvaluate (vf : Nat) : Statement (.shEvaluate vf) :=
  fun _ _ he => nomatch he

theorem shWindow (vf : Nat) : Statement (.shWindow vf) :=
  fun _ _ he => nomatch he

theorem shLdf (d : BitVec 4) (f : BitVec 4) : Statement (.shLdf d f) :=
  fun _ _ he => nomatch he

theorem shLdi (d : BitVec 4) (k : W16) : Statement (.shLdi d k) :=
  fun _ _ he => nomatch he

theorem shLdih (d : BitVec 4) (k : W16) : Statement (.shLdih d k) :=
  fun _ _ he => nomatch he

theorem shAdd (d : BitVec 4) (a : BitVec 4) (b : BitVec 4) : Statement (.shAdd d a b) :=
  fun _ _ he => nomatch he

theorem shAddi (d : BitVec 4) (a : BitVec 4) (k : W16) : Statement (.shAddi d a k) :=
  fun _ _ he => nomatch he

theorem shSub (d : BitVec 4) (a : BitVec 4) (b : BitVec 4) : Statement (.shSub d a b) :=
  fun _ _ he => nomatch he

theorem shAnd (d : BitVec 4) (a : BitVec 4) (b : BitVec 4) : Statement (.shAnd d a b) :=
  fun _ _ he => nomatch he

theorem shOr (d : BitVec 4) (a : BitVec 4) (b : BitVec 4) : Statement (.shOr d a b) :=
  fun _ _ he => nomatch he

theorem shShl (d : BitVec 4) (a : BitVec 4) (n : BitVec 5) : Statement (.shShl d a n) :=
  fun _ _ he => nomatch he

theorem shShr (d : BitVec 4) (a : BitVec 4) (n : BitVec 5) : Statement (.shShr d a n) :=
  fun _ _ he => nomatch he

theorem shMin (d : BitVec 4) (a : BitVec 4) (b : BitVec 4) : Statement (.shMin d a b) :=
  fun _ _ he => nomatch he

theorem shCeq (d : BitVec 4) (a : BitVec 4) (b : BitVec 4) : Statement (.shCeq d a b) :=
  fun _ _ he => nomatch he

theorem shCltu (d : BitVec 4) (a : BitVec 4) (b : BitVec 4) : Statement (.shCltu d a b) :=
  fun _ _ he => nomatch he

theorem shBz (a : BitVec 4) (o : W8) : Statement (.shBz a o) :=
  fun _ _ he => nomatch he

theorem shBnz (a : BitVec 4) (o : W8) : Statement (.shBnz a o) :=
  fun _ _ he => nomatch he

theorem shHash (d : BitVec 4) (a : BitVec 4) (m : BitVec 2) : Statement (.shHash d a m) :=
  fun _ _ he => nomatch he

theorem shHist (n : BitVec 4) (a : BitVec 4) : Statement (.shHist n a) :=
  fun _ _ he => nomatch he

theorem shCms (a : BitVec 4) (b : BitVec 4) : Statement (.shCms a b) :=
  fun _ _ he => nomatch he

theorem shTrig (a : BitVec 4) (c : W16) : Statement (.shTrig a c) :=
  fun _ _ he => nomatch he

theorem shDrop : Statement .shDrop :=
  fun _ _ he => nomatch he

theorem shEnd : Statement .shEnd :=
  fun _ _ he => nomatch he

theorem shattachWrite (vf : Nat) (v : W64) : Statement (.shattachWrite vf v) :=
  fun _ _ he => nomatch he

theorem shSlotWrite (w : HostWrite) : Statement (.shSlotWrite w) :=
  fun _ _ he => nomatch he

theorem crookHalt (c : CrookTo) : Statement (.crookHalt c) :=
  fun _ _ he => nomatch he

theorem resume (c : CrookTo) (pix : W8) : Statement (.resume c pix) :=
  fun _ _ he => nomatch he

theorem crookStep (c : CrookTo) (arm : W8) : Statement (.crookStep c arm) :=
  fun _ _ he => nomatch he

theorem setbp (c : CrookTo) (i : W8) (addr : W64) : Statement (.setbp c i addr) :=
  fun _ _ he => nomatch he

theorem setwp (c : CrookTo) (i : W8) (sp : W8) (off : W64) (lenKind : W64) : Statement (.setwp c i sp off lenKind) :=
  fun _ _ he => nomatch he

theorem regread (c : CrookTo) (pix : W8) (reg : W64) : Statement (.regread c pix reg) :=
  fun _ _ he => nomatch he

theorem noticePost (vf : Nat) : Statement (.noticePost vf) :=
  fun _ _ he => nomatch he

theorem noticeRingWrite (vf : Nat) (r : NoticeReg) (v : W64) : Statement (.noticeRingWrite vf r v) :=
  fun _ _ he => nomatch he

theorem bwnsRead (by_ : Steer) : Statement (.bwnsRead by_) :=
  fun _ _ he => nomatch he

theorem adj (by_ : Steer) (v : W32) : Statement (.adj by_ v) :=
  fun _ _ he => nomatch he

theorem bwStep (by_ : Steer) (v : W64) : Statement (.bwStep by_ v) :=
  fun _ _ he => nomatch he

theorem ptpMessage (m : List W8) : Statement (.ptpMessage m) :=
  fun _ _ he => nomatch he

theorem ptmRequest : Statement .ptmRequest :=
  fun _ _ he => nomatch he

theorem counterLoRead (vf : Nat) (n : W8) : Statement (.counterLoRead vf n) :=
  fun _ _ he => nomatch he

theorem counterHiRead (vf : Nat) (n : W8) : Statement (.counterHiRead vf n) :=
  fun _ _ he => nomatch he

theorem wqtail (vf : Nat) (w : Nat) (v : W64) : Statement (.wqtail vf w v) :=
  fun _ _ he => nomatch he

theorem wqcfg (vf : Nat) (w : Nat) (v : W64) : Statement (.wqcfg vf w v) :=
  fun _ _ he => nomatch he

theorem hentry (vf : Nat) (v : W64) : Statement (.hentry vf v) :=
  fun _ _ he => nomatch he

theorem s1root (vf : Nat) (v : W64) : Statement (.s1root vf v) :=
  fun _ _ he => nomatch he

theorem evread (pd : Nat) (v : W32) : Statement (.evread pd v) :=
  fun _ _ he => nomatch he

theorem fwtail (v : W16) : Statement (.fwtail v) :=
  fun _ _ he => nomatch he

theorem regWrite (w : HostWrite) : Statement (.regWrite w) :=
  fun _ _ he => nomatch he

theorem identify (c : FwHdr) (buf : W64) : Statement (.identify c buf) :=
  fun _ _ he => nomatch he

theorem negotiate (c : FwHdr) (f0 f1 f2 f3 : W64) : Statement (.negotiate c f0 f1 f2 f3) :=
  fun _ _ he => nomatch he

theorem patchLoad (c : FwHdr) (pa len : W64) : Statement (.patchLoad c pa len) :=
  fun _ _ he => nomatch he

theorem attest (c : FwHdr) (nonce : BitVec 256) (buf : W64) : Statement (.attest c nonce buf) :=
  fun _ _ he => nomatch he

theorem paddockSet (c : FwHdr) (pa : W64) (force : Bool) : Statement (.paddockSet c pa force) :=
  fun _ _ he => nomatch he

theorem paddockRegions (c : FwHdr) (pa : W64) (host : Bool) : Statement (.paddockRegions c pa host) :=
  fun _ _ he => nomatch he

theorem lend (c : FwHdr) (mask : BitVec 192) (dest : W64) : Statement (.lend c mask dest) :=
  fun _ _ he => nomatch he

theorem reclaim (c : FwHdr) (mask : BitVec 192) : Statement (.reclaim c mask) :=
  fun _ _ he => nomatch he

theorem s2root (c : FwHdr) (pa : W64) : Statement (.s2root c pa) :=
  fun _ _ he => nomatch he

theorem s2inv (c : FwHdr) (ipa : W64) (all : Bool) : Statement (.s2inv c ipa all) :=
  fun _ _ he => nomatch he

theorem resumeWalks (c : FwHdr) : Statement (.resumeWalks c) :=
  fun _ _ he => nomatch he

theorem timers (c : FwHdr) (t : Timers) : Statement (.timers c t) :=
  fun _ _ he => nomatch he

theorem vfActivate (c : FwHdr) (pd : W64) (guar burst : W32) : Statement (.vfActivate c pd guar burst) :=
  fun _ _ he => nomatch he

theorem vfDeactivate (c : FwHdr) : Statement (.vfDeactivate c) :=
  fun _ _ he => nomatch he

theorem vfPool (c : FwHdr) (i vbase len ipa : W64) : Statement (.vfPool c i vbase len ipa) :=
  fun _ _ he => nomatch he

theorem vfBacking (c : FwHdr) (pa count : W64) : Statement (.vfBacking c pa count) :=
  fun _ _ he => nomatch he

theorem vfBudget (c : FwHdr) (guar burst : W32) : Statement (.vfBudget c guar burst) :=
  fun _ _ he => nomatch he

theorem vfBoost (c : FwHdr) (mhz : W64) : Statement (.vfBoost c mhz) :=
  fun _ _ he => nomatch he

theorem vfEnd (c : FwHdr) (cause : W64) : Statement (.vfEnd c cause) :=
  fun _ _ he => nomatch he

theorem queueCreate (c : FwHdr) (cap prod : W32) (store : W64) : Statement (.queueCreate c cap prod store) :=
  fun _ _ he => nomatch he

theorem queueDestroy (c : FwHdr) (qnum : W64) : Statement (.queueDestroy c qnum) :=
  fun _ _ he => nomatch he

theorem queueSet (c : FwHdr) (qnum prod : W32) (reset : Bool) : Statement (.queueSet c qnum prod reset) :=
  fun _ _ he => nomatch he

theorem wqBind (c : FwHdr) (q : W64) (unbind : Bool) : Statement (.wqBind c q unbind) :=
  fun _ _ he => nomatch he

theorem migrate (c : FwHdr) (ipa dst : W64) : Statement (.migrate c ipa dst) :=
  fun _ _ he => nomatch he

theorem foldRing (c : FwHdr) (ring : W64) (entry : BitVec 256) : Statement (.foldRing c ring entry) :=
  fun _ _ he => nomatch he

theorem streamAdmit (c : FwHdr) (pa : W64) : Statement (.streamAdmit c pa) :=
  fun _ _ he => nomatch he

theorem streamWithdraw (c : FwHdr) (st : W64) : Statement (.streamWithdraw c st) :=
  fun _ _ he => nomatch he

theorem headTiming (c : FwHdr) (head pa : W64) : Statement (.headTiming c head pa) :=
  fun _ _ he => nomatch he

theorem sharedCreate (c : FwHdr) (pa f : W64) : Statement (.sharedCreate c pa f) :=
  fun _ _ he => nomatch he

theorem sharedMap (c : FwHdr) (set : W64) : Statement (.sharedMap c set) :=
  fun _ _ he => nomatch he

theorem sharedUnmap (c : FwHdr) (set : W64) : Statement (.sharedUnmap c set) :=
  fun _ _ he => nomatch he

theorem sharedSeal (c : FwHdr) (set : W64) : Statement (.sharedSeal c set) :=
  fun _ _ he => nomatch he

theorem domainForm (c : FwHdr) (num pa : W64) : Statement (.domainForm c num pa) :=
  fun _ _ he => nomatch he

theorem hostCxlMemAccess (off : Nat) (n : Nat) (d : Option (List W8)) : Statement (.hostCxlMemAccess off n d) :=
  fun _ _ he => nomatch he

theorem hostSnoop (pa : Nat) (d : List W8) : Statement (.hostSnoop pa d) :=
  fun _ _ he => nomatch he

theorem patrolScrub (pa : Nat) : Statement (.patrolScrub pa) :=
  fun _ _ he => nomatch he

theorem powerOn : Statement .powerOn :=
  fun _ _ he => nomatch he

theorem pfReset : Statement .pfReset :=
  fun _ _ he => nomatch he

theorem vfReset (vf : Nat) : Statement (.vfReset vf) :=
  fun _ _ he => nomatch he

theorem freeze : Statement .freeze :=
  fun _ _ he => nomatch he

theorem scanDump : Statement .scanDump :=
  fun _ _ he => nomatch he

theorem bellwetherTick : Statement .bellwetherTick :=
  fun _ _ he => nomatch he

theorem issueSelection (core : Nat) : Statement (.issueSelection core) :=
  fun _ _ he => nomatch he

theorem remoteResponse (id : Nat) (a : Answer) : Statement (.remoteResponse id a) :=
  fun _ _ he => nomatch he

end RoundTrip
end Sys2Proof.Laws
end

