-- ==== Sys2Proof/Tests/Slice0.lean ====
section
/-! SUPPORT. Tests: ill-formed terms are refused, words written from the encoding tables decode to their instructions, single steps give
what the manual says, and for each statement with hypotheses a concrete state and operands that meet them. -/

namespace Sys2Proof.Tests

open Sys2Proof Sys2Proof.Machine

set_option maxRecDepth 100000
set_option Elab.async false

/-! ### A machine of one group -/

/-- The loaded machine with its group's path about to run an instruction. -/
def base : State := { State.reset.loaded with cur := some ⟨1, 0⟩, agenda := [] }

def path0 : Path := Path.start (BitVec.ofNat 64 loadCode) [] 4096

/-- A header without windows or predicate, and one under k1. -/
def hd : Hdr := { long := false, la := 0, pn := false, pk := 0, live := none }
def hk : Hdr := { hd with pk := 1 }

/-- One group of one team, with no tables and nothing in memory. -/
def small (g : Group) (p : Path) : State :=
  { State.reset with groups := [(1, g.setPath 0 p)], teams := [(2, loadTeam)], clusters := [(3, loadCluster)], grids := [(4, loadGrid)],
                     cur := some ⟨1, 0⟩, handle := 5 }

theorem small_path (g : Group) (p : Path) : (small g p).path ⟨1, 0⟩ = some (g.setPath 0 p, p) := by
  simp [small, State.path, State.group, KMap.get, Group.setPath, Bank.rd, Bank.wr]

/-- With no result outstanding, no window and every register inside, an instruction issues. -/
theorem issues {s : State} {r : PathRef} {g : Group} {p : Path} (h : Hdr) (u : Uses) (hc : s.cur = some r) (hp : s.path r = some (g, p))
    (hr : p.st = .ready) (hu : u.priv = true → p.sup = true) (hv : 256 ≤ g.vwin) (ha : 8 ≤ g.acc) (hw : p.win = []) (hl : g.lands = [])
    (ho : g.ops = []) (hz : s.sram = []) : Issues s r g p h u where
  cur := hc
  path := hp
  ready := hr
  sound := hz
  level := hu
  inside := by rw [List.any_eq_false]; intro x _; cases x <;> simp [outside] <;> omega
  windows := by simp [hw]
  landed := by simp [Group.pendingRegs, hl, ho]
  after := by simp [Group.afar, ho]

/-- Any instruction that user level may run issues in `base`, and any at all at supervisor level. -/
theorem base_issues (h : Hdr) (u : Uses) (hu : u.priv = false) : Issues base ⟨1, 0⟩ loadGroup path0 h u :=
  issues h u rfl rfl rfl (by simp [hu]) (by decide) (by decide) rfl rfl rfl rfl

theorem small_issues (g : Group) (p : Path) (h : Hdr) (u : Uses) (hr : p.st = .ready) (hu : u.priv = true → p.sup = true)
    (hv : 256 ≤ g.vwin) (ha : 8 ≤ g.acc) (hw : p.win = []) (hl : g.lands = []) (ho : g.ops = []) :
    Issues (small g p) ⟨1, 0⟩ (g.setPath 0 p) p h u :=
  issues h u rfl (small_path g p) hr hu hv ha hw hl ho rfl

def sup0 : Path := { path0 with sup := true }

theorem sup_issues (h : Hdr) (u : Uses) : Issues (small loadGroup sup0) ⟨1, 0⟩ (loadGroup.setPath 0 sup0) sup0 h u :=
  small_issues loadGroup sup0 h u rfl (fun _ => rfl) (by decide) (by decide) rfl rfl rfl

/-! ### Statements about single results: the conditions of each hold in `base` -/

/-- ScalarResults, PredicateResults, LaneIntegerResults, LaneMoveResults, LaneFloatResults: nothing is asked but that the instruction
issues on a path that is not asked to hold. -/
theorem witness_results (h : Hdr) (u : Uses) (hu : u.priv = false) : Issues base ⟨1, 0⟩ loadGroup path0 h u ∧ path0.hold = false :=
  ⟨base_issues h u hu, rfl⟩

/-- k1 with lanes 0 to 3. -/
def halfG : Group := { loadGroup with k := loadGroup.k.wr 1 0x0F }

theorem half_issues (u : Uses) (hu : u.priv = false) : Issues (small halfG path0) ⟨1, 0⟩ (halfG.setPath 0 path0) path0 hk u :=
  small_issues halfG path0 hk u rfl (by simp [hu]) (by decide) (by decide) rfl rfl rfl

theorem witness_BranchesGoOn : emaskOf loadGroup path0 hd = path0.mask ∧ emaskOf loadGroup path0 hk = 0 ∧
    emaskOf halfG path0 hk = 0x0F ∧ { halfG with uchk := false }.uchk = false ∧ path0.mask ≠ 0 ∧
    (∀ l, loadGroup.pair 10 l &&& 7 = 0) ∧ (∀ l, brxDest loadGroup path0 hd ⟨10, 0⟩ l = brxDest loadGroup path0 hd ⟨10, 0⟩ path0.mask.low) ∧
    path0.getS 1 &&& 7 = 0 ∧ loadGroup.ser = none ∧ path0.join = none := by decide

/-- s1 holds 4; the pair v10, v11 holds 4 in lane 1. -/
def oddP : Path := { path0 with s := (path0.s.wr 1 4).wr 62 4 }
def oddG : Group := { halfG with v := loadGroup.v.wr 10 ((Bank.fill 0).wr 1 4) }

theorem witness_BranchFaults : emaskOf halfG path0 hk ≠ path0.mask ∧ emaskOf halfG path0 hk ≠ 0 ∧ halfG.uchk = true ∧
    ((emaskOf oddG path0 hk).has 1 = true ∧ oddG.pair 10 1 &&& 7 ≠ 0) ∧ oddP.getS 1 &&& 7 ≠ 0 ∧
    (path0.mask.has 1 = true ∧ oddG.pair 10 1 ≠ oddG.pair 10 path0.mask.low) ∧ oddP.getS 62 &&& 7 ≠ 0 := by decide

theorem witness_BranchSplits : emaskOf (halfG.setPath 0 path0) path0 hk ≠ 0 ∧ emaskOf (halfG.setPath 0 path0) path0 hk ≠ path0.mask ∧
    (halfG.setPath 0 path0).ser = none ∧ path0.sup = false ∧ path0.depth < 16 ∧ (halfG.setPath 0 path0).freeJoin = some 0 ∧
    (halfG.setPath 0 path0).freeEntries = [1, 2, 3, 4, 5, 6, 7] := by decide

/-! ### Paths that split, merge and end -/

/-- A path at its reconvergence address with a record that two lanes, or its own lanes last, are owed. -/
def arrP : Path := { path0 with mask := 0x0F, join := some 0, rcv := some path0.pc }
def arrJ (owed : Mask) : Join :=
  { prcv := none, pjoin := none, pdepth := 0, base := Bank.fill 0, baseW := 0, owed := owed, arrived := 0, arr := [], npc := 0 }
def arrG (owed : Mask) : Group := { loadGroup with joins := loadGroup.joins.wr 0 (some (arrJ owed)) }

theorem witness_ArrivalsMerge (owed : Mask) : Issues (small (arrG owed) arrP) ⟨1, 0⟩ ((arrG owed).setPath 0 arrP) arrP hd uCtl ∧
    (arrG owed).ser = none ∧ arrP.sup = false ∧ arrP.join = some 0 ∧ arrP.rcv = some arrP.pc ∧ (arrG owed).joins.rd 0 = some (arrJ owed) ∧
    (arrJ 0xFF).owed &&& ~~~arrP.mask ≠ 0 ∧ (arrJ 0x0F).owed &&& ~~~arrP.mask = 0 :=
  ⟨small_issues (arrG owed) arrP hd uCtl rfl (by decide) (Nat.le_refl 256) (Nat.le_refl 8) rfl rfl rfl, rfl, rfl, rfl, rfl, rfl, by decide, by decide⟩

theorem witness_ExitEndsLanes : path0.mask &&& ~~~(emaskOf halfG path0 hk) ≠ 0 ∧ emaskOf loadGroup path0 hd = path0.mask ∧
    loadGroup.ser = none ∧ path0.entry = none ∧ ∀ i, loadGroup.joins.rd i = none := by decide

/-! ### Accesses -/

def isHere : Lane × Place → Bool
  | (_, .here _) => true
  | (_, .remote _) => false

def okAnd {ε α : Type} (x : Except ε α) (p : α → Bool) : Bool := match x with | .ok a => p a | .error _ => false

theorem okAnd_iff {ε α : Type} {x : Except ε α} {p : α → Bool} (h : okAnd x p = true) : ∃ a, x = .ok a ∧ p a = true := by
  cases x with
  | ok a => exact ⟨a, rfl, h⟩
  | error e => cases h

theorem allHere {ps : List (Lane × Place)} (h : ps.all isHere = true) : ∀ x ∈ ps, ∃ ls, x.2 = .here ls := by
  intro x hx
  have := List.all_eq_true.mp h x hx
  obtain ⟨l, p | m⟩ := x
  · exact ⟨_, rfl⟩
  · cases this

theorem reaches {c : Cx} {s : State} {whole : Option Mask} {sp : Space} {z : Nat} {k : Acc} {rd wr : Bool} {qs : List (Lane × W64)}
    {q : Landed → Bool} (h : okAnd (check c s whole sp z z k rd wr qs) (fun l => l.at_.all isHere && l.off == 0 && q l) = true) :
    ∃ l, Reaches c s whole sp z k rd wr qs l ∧ q l = true := by
  obtain ⟨l, hl, hp⟩ := okAnd_iff h
  simp only [Bool.and_eq_true, beq_iff_eq] at hp
  exact ⟨l, ⟨hl, allHere hp.1.1, hp.1.2⟩, hp.2⟩

/-- One lane, in this module. -/
def oneHere (l : Landed) : Bool := match l.at_ with | [(x, .here _)] => x == 0 | _ => false

theorem oneHere_iff {l : Landed} (h : oneHere l = true) : ∃ ls, l.at_ = [(0, .here ls)] := by
  unfold oneHere at h
  split at h
  · rename_i x ls he; exact ⟨ls, by rw [he, beq_iff_eq.mp h]⟩
  · cases h

def cx (h : Hdr) (u : Uses) : Cx := cxOf base ⟨1, 0⟩ loadGroup path0 h u
def st (h : Hdr) (u : Uses) : State := issuedSt base ⟨1, 0⟩ loadGroup path0 h u

def ld1 : SLd := ⟨.d, .g, .rlx, .path, false, 3, 1, 0⟩

/-- ScalarAccesses, DescriptorsAndSlots: the last doubleword of the team's shared memory, and a doubleword of memory. -/
theorem witness_ScalarAccesses (h : Hdr) (u : Uses) :
    (∃ l, Reaches (cx h u) (st h u) (some 0xFF) .s 8 .wr true true [(0, 4088)] l ∧ ∃ ls, l.at_ = [(0, .here ls)]) ∧
    ∃ l, Reaches (cx hd (uSLd ld1)) (st hd (uSLd ld1)) (some 0xFF) .g 8 .rd true false [(0, 0x80000)] l ∧ ∃ ls, l.at_ = [(0, .here ls)] := by
  constructor
  · exact ⟨{ s := st h u, at_ := [(0, .here [(.team 2 4088, 8)])], off := 0 }, ⟨rfl, allHere rfl, rfl⟩, _, rfl⟩
  · obtain ⟨l, hr, ho⟩ := reaches (q := oneHere) (c := cx hd (uSLd ld1)) (s := st hd (uSLd ld1)) (whole := some 0xFF) (sp := .g) (z := 8)
      (k := .rd) (rd := true) (wr := false) (qs := [(0, 0x80000)]) (by decide)
    exact ⟨l, hr, oneHere_iff ho⟩

def lanes8 : List (Lane × W64) := [(0, 0), (1, 4088), (2, 0), (3, 0), (4, 0), (5, 0), (6, 0), (7, 0)]

/-- LaneAccesses: eight lanes of the team's shared memory, one at its end; the atomics' outcome is whatever it is. -/
theorem witness_LaneAccesses : (∃ l, Reaches (cx hd (uVLd ⟨.d, .s, .rlx, .path, false, 20, .vec 10, 0⟩)) (st hd (uVLd ⟨.d, .s, .rlx, .path, false, 20, .vec 10, 0⟩))
      none .s 8 .rd true false lanes8 l ∧ (l.at_.length == 8) = true) ∧
    ∀ (s : State) (f : Lane → Nat → Nat) (at_ : List (Lane × Place)), ∃ ms T, atomLanes s [] 8 f 0 at_ = (ms, T) :=
  ⟨reaches (q := fun l => l.at_.length == 8) (whole := none) (sp := .s) (z := 8) (k := .rd) (rd := true) (wr := false) (qs := lanes8) (by decide +kernel), fun _ _ _ => ⟨_, _, rfl⟩⟩

/-- AtomicLanesInOrder, MemoryReadsWhatWasWritten: the loaded memory is canonical. -/
theorem witness_memory : base.mem.wf = true ∧ Memory.wf [] = true := by decide

/-- AccessChecks: a misaligned lane; and lanes inside shared memory, at its end and beyond it, with no watchpoint. -/
theorem witness_AccessChecks : (∃ q ∈ ([(0, 8), (3, 2)] : List (Lane × W64)), q.2.toNat % 8 ≠ 0) ∧
    (∀ q ∈ ([(0, 4088), (1, 4096), (2, 0xFFFFFFFFFFFFFFF8)] : List (Lane × W64)), q.2.toNat % 8 = 0) ∧
    (small loadGroup path0).team 2 = some loadTeam ∧ (∀ i, ((small loadGroup path0).vf 0).crook.wplen.rd i = 0) ∧
    (4088 : W64).toInt + 8 ≤ (loadTeam.size : Int) ∧ ¬ (4096 : W64).toInt + 8 ≤ (loadTeam.size : Int) ∧
    ¬ 0 ≤ (0xFFFFFFFFFFFFFFF8 : W64).toInt :=
  ⟨by decide +kernel, by intro q hq; simp at hq; obtain rfl | rfl | rfl := hq <;> rfl, rfl,
    by intro i; simp [small, State.vf, KMap.get, State.reset, Vf.reset, Crook.reset, Bank.rd, Bank.fill],
    by decide +kernel, by decide +kernel, by decide +kernel⟩

/-- AccessChecksTouchTables: an access to memory that passes its checks. -/
theorem witness_AccessChecksTouchTables : ∃ l, check (cx hd (uSLd ld1)) (st hd (uSLd ld1)) (some 0xFF) .g 8 8 .rd true false [(0, 0x80000)] = .ok l := by
  obtain ⟨l, h, _⟩ := okAnd_iff (p := fun _ => true)
    (x := check (cx hd (uSLd ld1)) (st hd (uSLd ld1)) (some 0xFF) .g 8 8 .rd true false [(0, 0x80000)]) (by decide)
  exact ⟨l, h⟩

/-- A slot with a running copy of the path's lanes, and an `mma` under way. -/
def busyG : Group := { loadGroup with
  copies := loadGroup.copies.wr 2 { Copy.idle with st := .running, own := 0xFF }
  ops := [⟨9, 0xFF, .mma 1 (Bank.fill 0), [], false⟩, ⟨8, 0xFF, .mst [] (Bank.fill 0) none, [], false⟩] }

theorem witness_Fence : (∀ d, (busyG.copies.rd d).st = .running → (busyG.copies.rd d).own &&& path0.mask ≠ 0 →
      (0x03 : BitVec 7).getLsbD 2 = false ∧ (0x03 : BitVec 7).getLsbD 3 = false) ∧
    ∀ e ∈ busyG.ops, e.own &&& path0.mask ≠ 0 → match e.kind with
      | .mma _ _ => True
      | .mld _ _ _ => (0x03 : BitVec 7).getLsbD 4 = false
      | .mst _ _ _ => (0x03 : BitVec 7).getLsbD 5 = false
      | .far _ _ _ _ _ => True :=
  ⟨by decide, by intro e he; simp [busyG] at he; obtain rfl | rfl := he <;> intro _ <;> decide⟩

def wait1 : WaitA := ⟨.w, .s, .rlx, .path, 3, 1, 0, 2⟩
def waitP (n : W64) : Path := { path0 with s := path0.s.wr 2 n }

def waitC (n : W64) : Cx := cxOf (small loadGroup (waitP n)) ⟨1, 0⟩ (loadGroup.setPath 0 (waitP n)) (waitP n) hd (uWaitA wait1)
def waitS (n : W64) : State := issuedSt (small loadGroup (waitP n)) ⟨1, 0⟩ (loadGroup.setPath 0 (waitP n)) (waitP n) hd (uWaitA wait1)

/-- A word of shared memory that reads 0 differs from S[B] = 1 and equals S[B] = 0. -/
theorem witness_Waita : (∃ l, Reaches (waitC 1) (waitS 1) (some 0xFF) .s 4 .rd true false [(0, 0)] l ∧ (oneHere l &&
      leNat (l.s.readLocs [(.team 2 0, 4)]) != ((waitP 1).getS 2).toNat) = true) ∧
    ∃ l, Reaches (waitC 0) (waitS 0) (some 0xFF) .s 4 .rd true false [(0, 0)] l ∧ (oneHere l &&
      leNat (l.s.readLocs [(.team 2 0, 4)]) == ((waitP 0).getS 2).toNat) = true :=
  ⟨reaches (by decide +kernel), reaches (by decide +kernel)⟩

def idleG : Group := { loadGroup with slotA := none }
def suspP : Path := { path0 with st := .susp (.waita wait1 0x10010 0) }
def suspS : State := { small idleG suspP with cycles := [(0, 4096)] }

/-- A `waita` suspended at cycle 0 whose time has come at cycle 4096. -/
theorem witness_WaitaEnds : suspS.path ⟨1, 0⟩ = some (idleG.setPath 0 suspP, suspP) ∧
    suspP.st = .susp (.waita wait1 0x10010 0) ∧ loadGroup.ser = none ∧ 0 + Config.waitCycles ≤ cycleOf suspS loadGroup ∧
    ∃ l, Reaches (wakeCx suspS ⟨1, 0⟩ (idleG.setPath 0 suspP) suspP 0x10010) suspS
      (some 0xFF) .s 4 .rd true false [(0, 0)] l ∧ ∃ ls, l.at_ = [(0, .here ls)] := by
  refine ⟨by simp [suspS, small, State.path, State.group, KMap.get, Group.setPath, Bank.rd, Bank.wr], rfl, rfl, by decide, ?_⟩
  obtain ⟨l, hr, ho⟩ := reaches (q := oneHere) (c := wakeCx suspS ⟨1, 0⟩ (idleG.setPath 0 suspP) suspP 0x10010) (s := suspS)
    (whole := some 0xFF) (sp := .s) (z := 4) (k := .rd) (rd := true) (wr := false) (qs := [(0, 0)]) (by decide +kernel)
  exact ⟨l, hr, oneHere_iff ho⟩

/-- x1 names entry 255 of a block of one register from v1, which `.inc` with offset -255 reaches, and x2 the last entry of 16 from v16. -/
def indexG : Group := { loadGroup with x := (loadGroup.x.wr 1 (Bank.fill 0x0101FF)).wr 2 (Bank.fill 0x10100F) }

theorem witness_IndexedRegisters : IndexNames indexG ⟨.none, 4, 2, 0⟩ 0 31 ∧ IndexNames indexG ⟨.inc, 4, 2, -15⟩ 7 16 ∧
    IndexNames indexG ⟨.dec, 4, 2, 0⟩ 3 30 ∧ ¬ IndexNames indexG ⟨.none, 4, 2, 1⟩ 0 32 := by
  simp only [IndexNames]; decide

def okRes (x : Except Res (State × List (Lane × Place))) : Bool := okAnd x fun p => p.2.all isHere

theorem okRes_iff {x : Except Res (State × List (Lane × Place))} (h : okRes x = true) : ∃ S ps, x = .ok (S, ps) ∧ ∀ y ∈ ps, ∃ ls, y.2 = .here ls := by
  obtain ⟨⟨S, ps⟩, hx, hp⟩ := okAnd_iff h
  exact ⟨S, ps, hx, allHere hp⟩

def spill1 : SpillFill := ⟨false, 4, 0, 0⟩
def spP : Path := { path0 with s := path0.s.wr 61 4092 }

/-- The last slot of the spill area, to be written and read. -/
theorem witness_SpillAndFill : spP.getS 61 &&& 3 = 0 ∧ spillOffset spill1 true spP = 4092 ∧
    spillOffset spill1 true spP + 4 * (spill1.nm1.toNat + 1) ≤ spillSize (cx hd (uSpill spill1)) base ∧
    (∃ S ps, globalPlaces (cx hd (uSpill spill1)) (st hd (uSpill spill1)) none .wr
      (path0.mask.lanes.map (spillReq loadGroup 4092 1)) = .ok (S, ps) ∧ ∀ x ∈ ps, ∃ ls, x.2 = .here ls) ∧
    ∃ S ps, globalPlaces (cx hd (uFill spill1)) (st hd (uFill spill1)) none .rd
      (path0.mask.lanes.map (spillReq loadGroup 4092 1)) = .ok (S, ps) ∧ ∀ x ∈ ps, ∃ ls, x.2 = .here ls :=
  ⟨by decide, by decide, by decide, okRes_iff (by decide +kernel), okRes_iff (by decide +kernel)⟩

def retP : Path := { path0 with s := path0.s.wr 61 4088 }

/-- A call with an empty spill area behind ksp, and a return with one return address in it. -/
theorem witness_CallsAndReturns : brTarget path0.pc (64 : W32) &&& 7 = 0 ∧ path0.getS 61 &&& 3 = 0 ∧ 8 ≤ (path0.getS 61).toNat ∧
    (path0.getS 61).toNat ≤ spillSize (cx hd uCall) base ∧ (retP.getS 61).toNat + 8 ≤ spillSize (cx hd uCall) base ∧ retP.getS 62 &&& 7 = 0 ∧
    (∃ S ps, globalPlaces (cx hd uCall) (st hd uCall) none .wr (path0.mask.lanes.map (spillReq loadGroup 4088 2)) = .ok (S, ps) ∧
      ∀ x ∈ ps, ∃ ls, x.2 = .here ls) ∧
    ∃ S ps, globalPlaces (cx hd uCall) (st hd uCall) (some 0xFF) .rd [spillReq loadGroup 4088 2 0] = .ok (S, ps) ∧ ∀ x ∈ ps, ∃ ls, x.2 = .here ls :=
  ⟨by decide, by decide, by decide, by decide, by decide, by decide, okRes_iff (by decide +kernel), okRes_iff (by decide +kernel)⟩

def landG : Group := { loadGroup with lands := [⟨7, 0x0F, [(4, Bank.fill 1), (5, Bank.fill 2)]⟩] }

theorem witness_ResultsLand : (small landG path0).group 1 = some (landG.setPath 0 path0) ∧
    (landG.lands.find? fun x => x.id == 7) = some ⟨7, 0x0F, [(4, Bank.fill 1), (5, Bank.fill 2)]⟩ ∧ ([4, 5] : List VReg).Nodup :=
  ⟨rfl, by decide, by decide⟩

/-! ### Engines -/

theorem witness_MatrixOperations : path0.mask = 0xFF ∧ emaskOf loadGroup path0 hd ≠ 0 := by decide

def row1 (sp : ESpace) : MMem := ⟨sp, 1, 1, 0, 2, none⟩
def rowP (a stride : W64) : Path := { path0 with s := (path0.s.wr 1 a).wr 2 stride }
def rowC (a stride : W64) : Cx := { cx hd (uMst (row1 .s)) with p := rowP a stride }

/-- Sixteen rows that end where the team's shared memory ends, and sixteen rows of memory. -/
theorem witness_TileTransfersStart : (∃ S ps, rowPlaces (row1 .s) .wr (rowC 3072 64) (st hd (uMst (row1 .s))) = .ok (S, ps)) ∧
    (∃ S ps, rowPlaces (row1 .g) .rd (rowC 0x80000 64) (st hd (uMld (row1 .g))) = .ok (S, ps)) ∧ base.team 2 = some loadTeam ∧
    ∀ i : Nat, i < 16 → ((3072 : W64) + BitVec.ofNat 64 i * 64).toNat % 64 = 0 ∧ 0 ≤ ((3072 : W64) + BitVec.ofNat 64 i * 64).toInt ∧
      ((3072 : W64) + BitVec.ofNat 64 i * 64).toInt + 64 ≤ (loadTeam.size : Int) := by
  refine ⟨?_, ?_, rfl, by decide +kernel⟩
  · obtain ⟨⟨S, ps⟩, h, _⟩ := okAnd_iff (x := rowPlaces (row1 .s) .wr (rowC 3072 64) (st hd (uMst (row1 .s)))) (p := fun _ => true) (by decide +kernel)
    exact ⟨S, ps, h⟩
  · obtain ⟨⟨S, ps⟩, h, _⟩ := okAnd_iff (x := rowPlaces (row1 .g) .rd (rowC 0x80000 64) (st hd (uMld (row1 .g)))) (p := fun _ => true) (by decide +kernel)
    exact ⟨S, ps, h⟩

def opG (k : EngKind) : Group := { loadGroup with ops := [⟨6, 0xFF, k, [], false⟩] }

theorem witness_MatrixCompletions (k : EngKind) : (small (opG k) path0).group 1 = some ((opG k).setPath 0 path0) ∧
    (((opG k).setPath 0 path0).ops.find? fun o => o.id == 6) = some ⟨6, 0xFF, k, [], false⟩ ∧
    asksOf (small (opG k) path0) (.op 1 6) = [] ∧
    rowsOwned (small (opG (.mld ((List.replicate 16 [(Loc.pa 0x80000, 64)]).map .here) 2 none)) path0)
      ((List.replicate 16 [(Loc.pa 0x80000, 64)]).map .here) = false ∧
    (List.replicate 16 [(Loc.pa 0x80000, 64)]).length = 16 := ⟨rfl, rfl, rfl, by decide +kernel, rfl⟩

/-- A descriptor of FP32 elements at 0x80000, four of one row in a box of one tile. -/
def desc1 : BitVec 512 := BitVec.ofNat 512 (leNat (natLe 8 0x80000 ++ natLe 4 4 ++ natLe 4 1 ++ natLe 4 1 ++ natLe 4 1 ++ zeros 24 ++
  [4, 1, 1, 1] ++ zeros 12))

def tc1 (dir : CDir) : TCopy := ⟨dir, 1, 2, 4, none, 7⟩
def tcG (c : CopySt) (d : BitVec 512) : Group := { loadGroup with d := loadGroup.d.wr 1 d, copies := loadGroup.copies.wr 1 { Copy.idle with st := c } }

/-- A well-formed descriptor and an idle slot, with the sixteen local bytes at the end of shared memory; a descriptor whose type is not
listed; and slots in each other state. -/
theorem witness_CopiesStart : dCheck desc1 = none ∧ (4080 : W64).toNat % 16 = 0 ∧ 0 ≤ (4080 : W64).toInt ∧
    (4080 : W64).toInt + dLocal desc1 ≤ (allocSize (small loadGroup path0) loadGroup (localSpace .g2s) : Int) ∧ tensorIsG .g2s = true ∧
    dCheck 0 = some 48 ∧ ∀ c, ((tcG c desc1).copies.rd 1).st = c := by
  refine ⟨by decide +kernel, by decide +kernel, by decide +kernel, by decide +kernel, rfl, by decide +kernel, ?_⟩
  intro c; cases c <;> rfl

def copy1 : Copy := { Copy.idle with st := .running, desc := desc1, dir := .g2s }
def outCopy : Copy := { copy1 with dir := .s2g, laddr := 4080 }
def copyG : Group := { loadGroup with copies := loadGroup.copies.wr 1 copy1 }

/-- The lines of an element of the loaded machine's memory that no other operation owns. -/
theorem witness_LinesFree : LinesFree base 0 outCopy (boxLocs base 0 outCopy) ∧ boxLocs base 0 outCopy ≠ [] := by
  have h : ((boxLocs base 0 outCopy).all fun e => e.2.2.away == none) = true := by decide +kernel
  refine ⟨⟨by decide +kernel, by decide +kernel, ?_⟩, by decide +kernel⟩
  intro e he
  simpa using List.all_eq_true.mp h e he

/-- The loaded machine with a copy in slot 1 of its group. -/
def copyS (c : Copy) : State := { base with groups := [(1, { loadGroup with copies := loadGroup.copies.wr 1 c })] }

/-- A copy whose descriptor's base is no canonical address. -/
def badCopy : Copy := { copy1 with desc := desc1 ||| 0xFFFF000000000000 }

def tileFine (s : State) (c : Copy) : TileX × State → Bool
  | (.ok l, S) => (awayElems l).isEmpty && (arriveAll S 0 .rd none ((tilePhys c l).map (·.1)) ((tilePhys c l).map (·.2))).1.isNone && s.sram.isEmpty
  | (.bad _ _ _, _) => false
def tileBad (a : Nat) (c : W8) : TileX × State → Bool
  | (.bad l b x, _) => (awayElems l).isEmpty && b == a && x == .cause c
  | (.ok _, _) => false

theorem tileFine_iff {s : State} {c : Copy} {x : TileX × State} (h : tileFine s c x = true) : ∃ l S T, x = (.ok l, S) ∧ awayElems l = [] ∧
    arriveAll S 0 .rd none ((tilePhys c l).map (·.1)) ((tilePhys c l).map (·.2)) = (none, T) := by
  obtain ⟨l | _, S⟩ := x
  · simp only [tileFine, Bool.and_eq_true, List.isEmpty_iff, Option.isNone_iff_eq_none] at h
    exact ⟨l, S, (arriveAll S 0 .rd none ((tilePhys c l).map (·.1)) ((tilePhys c l).map (·.2))).2, rfl, h.1.1, by rw [← h.1.2]⟩
  · cases h

theorem tileBad_iff {a : Nat} {c : W8} {x : TileX × State} (h : tileBad a c x = true) : ∃ l S, x = (.bad l a (.cause c), S) ∧ awayElems l = [] := by
  obtain ⟨_ | ⟨l, b, y⟩, S⟩ := x
  · cases h
  · simp only [tileBad, Bool.and_eq_true, List.isEmpty_iff, beq_iff_eq] at h
    exact ⟨l, S, by rw [h.1.2, h.2], h.1.1⟩

/-- The one tile of a copy: translated in the loaded machine, and one whose base is no canonical address. -/
theorem witness_CopyTilesMove (c : Copy) : (copyS c).group 1 = some { loadGroup with copies := loadGroup.copies.wr 1 c } ∧
    (copyS c).team 2 = some loadTeam ∧ loadTeam.core ≠ none ∧ (copyS c).sram = [] ∧ asksOf (copyS c) (.copy 1 1) = [] ∧
    copy1.st = .running ∧ copy1.held = false ∧ copy1.tile = none ∧ badCopy.st = .running ∧ badCopy.held = false ∧ badCopy.tile = none ∧
    tileCount desc1 ≤ copy1.cursor + 1 ∧
    (∃ l S T, tilePlaces (copyS copy1) 0 4 copy1 (tileElems desc1 0) = (.ok l, S) ∧ awayElems l = [] ∧
      arriveAll S 0 .rd none ((tilePhys copy1 l).map (·.1)) ((tilePhys copy1 l).map (·.2)) = (none, T)) ∧
    ∃ l S, tilePlaces (copyS badCopy) 0 4 badCopy (tileElems badCopy.desc 0) = (.bad l 0xFFFF000000080000 (.cause 0x13), S) ∧ awayElems l = [] :=
  ⟨rfl, rfl, by decide, rfl, rfl, rfl, rfl, rfl, rfl, rfl, rfl, by decide +kernel, tileFine_iff (s := base) (by decide +kernel),
    tileBad_iff (by decide +kernel)⟩

def bar1 (v ph : Bool) : Barrier := ⟨v, 4, 3, ph⟩
def barS (v ph : Bool) (p : Path) : State :=
  { small { loadGroup with slotA := none } p with
      teams := [(2, { loadTeam with bars := loadTeam.bars.wr 5 (bar1 v ph) })],
      clusters := [(3, { loadCluster with cbars := loadCluster.cbars.wr 2 (bar1 v ph) })], cycles := [(0, 4096)] }

/-- A barrier one arrival short of its phase, valid or not, of the team and of the cluster. -/
theorem witness_BarrierInstructions (v ph : Bool) : (barS v ph path0).bar loadGroup (.team 5) = some (bar1 v ph) ∧
    (barS v ph path0).bar loadGroup (.cluster 2) = some (bar1 v ph) ∧ (barS v ph path0).barValid loadGroup (.team 5) = v ∧
    faultedOn loadGroup (.team 5) = none ∧ (1 : Nat) ≤ (65535 : W16).toNat ∧ (65535 : W16).toNat ≤ 65535 ∧
    owedArrival (barS v ph path0) loadGroup (.team 5) = false := by
  cases v <;> cases ph <;> decide +kernel

def tryP : Path := { path0 with st := .susp (.btry (.team 5) 3 false 0x10010 0) }

theorem witness_BarrierWaitsEnd (ph : Bool) : (barS true ph tryP).path ⟨1, 0⟩ = some ({ loadGroup with slotA := none }.setPath 0 tryP, tryP) ∧
    tryP.st = .susp (.btry (.team 5) 3 false 0x10010 0) ∧ (barS true ph tryP).bar loadGroup (.team 5) = some (bar1 true ph) ∧
    (bar1 true true).phase ≠ false ∧ 0 + Config.waitCycles ≤ cycleOf (barS true ph tryP) loadGroup := by
  refine ⟨?_, rfl, rfl, by decide, by cases ph <;> decide +kernel⟩
  simp [barS, small, State.path, State.group, KMap.get, Group.setPath, Bank.rd, Bank.wr]

/-! ### Traversal, textures, queues -/

def res (x : Except Res (State × List (Lane × Place))) : Bool := okAnd x fun p => p.2.all isHere

theorem res_iff {x : Except Res (State × List (Lane × Place))} (h : res x = true) : ∃ S ps, x = .ok (S, ps) ∧ ∀ y ∈ ps, ∃ ls, y.2 = .here ls := by
  obtain ⟨⟨S, ps⟩, hx, hp⟩ := okAnd_iff h
  exact ⟨S, ps, hx, allHere hp⟩

/-- A node and a triangle at 0x80000 for two lanes, and a misaligned address. -/
theorem witness_Traversal : emaskOf loadGroup path0 hd ≠ 0 ∧ (0x80000 : W64).toNat % 128 = 0 ∧
    (∃ S ps, globalPlaces (cx hd (uRBox ⟨20, 0, 8⟩)) (st hd (uRBox ⟨20, 0, 8⟩)) none .rd
      ([0, 1].map fun l => ⟨l, 0x80000, lineChunks (0x80000 : W64).toNat 128⟩) = .ok (S, ps) ∧ ∀ x ∈ ps, ∃ ls, x.2 = .here ls) ∧
    ∃ S ps, globalPlaces (cx hd (uRTri ⟨20, 0, 8⟩)) (st hd (uRTri ⟨20, 0, 8⟩)) none .rd
      ([0, 1].map fun l => ⟨l, 0x80060, lineChunks (0x80060 : W64).toNat 48⟩) = .ok (S, ps) ∧ ∀ x ∈ ps, ∃ ls, x.2 = .here ls :=
  ⟨by decide, rfl, res_iff (by decide +kernel), res_iff (by decide +kernel)⟩

/-- A texture of one texel, four FP32 elements at 0x80000, sampled at the nearest texel: a coordinate of 0, and one that is no number. -/
def tex1 : BitVec 512 := BitVec.ofNat 512 (leNat (natLe 8 0x80000 ++ natLe 4 4 ++ natLe 4 1 ++ natLe 4 1 ++ natLe 4 1 ++ natLe 8 16))

theorem witness_TextureSamples : texCheck tex1 = none ∧ dDim tex1 0 ≠ 0 ∧ dDim tex1 1 ≠ 0 ∧ texCheck (2#512 <<< 416) = some 52 ∧
    texels ⟨false, false, 20, 10, 1⟩ tex1 0 0 = some [((0, 0), 65536)] ∧ texels ⟨false, false, 20, 10, 1⟩ tex1 0x7FC00000 0 = none ∧
    texReads tex1 [((0, 0), 65536)] = [0x80000, 0x80004, 0x80008, 0x8000C] ∧
    ∃ S ps, globalPlaces (cx hd (uTex ⟨false, false, 20, 10, 1⟩)) (st hd (uTex ⟨false, false, 20, 10, 1⟩)) none .rd
      ((texReads tex1 [((0, 0), 65536)]).map fun a => ⟨0, a, lineChunks a.toNat 4⟩) = .ok (S, ps) ∧ ∀ x ∈ ps, ∃ ls, x.2 = .here ls :=
  ⟨by decide +kernel, by decide +kernel, by decide +kernel, by decide +kernel, by decide +kernel, by decide +kernel, by decide +kernel,
    res_iff (by decide +kernel)⟩

def queue1 (count kept : Nat) : HwQueue := ⟨true, 0x1234, 4, 0, 1, 65535, 3, count, 0x90000, kept⟩

/-- Queue 16383 of VF 0, and a handle of it with the rights given. -/
def queueS (count kept : Nat) : State := { small loadGroup path0 with queues := [(16383, queue1 count kept)] }
def handle1 (rights : W64) : W64 := 0x1234_00003FFF ||| rights <<< 26

theorem witness_Queues : handleAt (queueS 3 0) 0 (handle1 1) = .here 16383 ∧ (handle1 1).getLsbD 26 = true ∧ (handle1 2).getLsbD 27 = true ∧
    (handle1 4).getLsbD 28 = true ∧ (handle1 7).getLsbD 24 = false ∧ (queueS 3 0).queues.get 16383 = some (queue1 3 0) ∧
    (queue1 3 0).count + (queue1 3 0).kept < (queue1 3 0).cap ∧ (queue1 3 1).cap ≤ (queue1 3 1).count + (queue1 3 1).kept ∧
    0 < (queue1 3 0).count ∧ (queue1 0 0).count = 0 ∧ emaskOf loadGroup path0 hd ≠ 0 := by decide +kernel

theorem ok1 {ε α σ : Type} {x : Except ε α × σ} (h : okAnd x.1 (fun _ => true) = true) : ∃ a S, x = (.ok a, S) := by
  obtain ⟨x, S⟩ := x
  obtain ⟨a, h, _⟩ := okAnd_iff h
  exact ⟨a, S, by rw [← h]⟩

/-- A payload of 8 bytes from 0x80000 to 0x80100. -/
def rwqD : List W8 := natLe 8 0x80100 ++ natLe 4 8 ++ zeros 20

theorem witness_PayloadsDeliver : field rwqD 0 8 = 0x80100 ∧ field rwqD 8 4 = 8 ∧ 4 ≤ 8 ∧ 8 ≤ 4096 ∧ 8 % 4 = 0 ∧ (0x80000 : W64) &&& 3 = 0 ∧
    isDomain 0x80100 = false ∧ handleAt (queueS 3 0) 0 (handle1 1) = .here 16383 ∧
    (∃ S ps, globalPlaces (cx hd (uRwq ⟨1, 0, 8, 2⟩)) (st hd (uRwq ⟨1, 0, 8, 2⟩)) (some 0xFF) .rd
      [⟨0, 0x80000, pagesOf (0x80000 : W64).toNat 8⟩] = .ok (S, ps) ∧ ∀ y ∈ ps, ∃ ls, y.2 = .here ls) ∧
    ∃ x S', base.devAt (.path ⟨1, 0⟩) 0 .wr (pagesOf 0x80100 8)
      (fun i a => .write a (payloadPart 0x80100 (zeros 8) ((pagesOf 0x80100 8).getD i (0, 0)))) = (.ok x, S') := by
  refine ⟨by decide +kernel, by decide +kernel, by decide, by decide, by decide, by decide, by decide +kernel, by decide +kernel,
    res_iff (by decide +kernel), ?_⟩
  exact ok1 (by decide +kernel)

/-- Two tree descriptors that pass their checks, and the three states of a record. -/
def tree1 : List W8 := natLe 8 0x80000 ++ natLe 8 0x80010 ++ natLe 4 1 ++ natLe 4 1 ++ [1] ++ zeros 39

theorem witness_PairsTraversal : treeCheck tree1 = none ∧
    readHeader (zeros 64) 0x80000 0x80040 0 0 = .go [(0, 0xFFFFFFFF, 0, 0xFFFFFFFF)] 0 false ∧
    readHeader (natLe 4 2 ++ zeros 4 ++ natLe 8 0x80000 ++ natLe 8 0x80040 ++ zeros 40) 0x80000 0x80040 0 0 = .complete ∧
    readHeader (natLe 4 1 ++ zeros 4 ++ natLe 8 0x80000 ++ natLe 8 0x80040 ++ zeros 40) 0x80000 0x80040 0 0 = .go [] 0 true ∧
    handleAt (queueS 3 0) 0 (handle1 1) = .here 16383 ∧ (handle1 1).getLsbD 24 = false ∧ (0x80040 : W64) &&& 63 = 0 := by
  refine ⟨by decide +kernel, ?_, ?_, ?_, by decide +kernel, by decide, by decide⟩ <;> decide +kernel

def pairsP : Path := { path0 with st := .susp (.pairs 0x10010) }
def pairs1 (stack : List (W32 × W32 × W32 × W32)) : PairsRun :=
  { o := ⟨1, 2, 4, 6, 0⟩, a := 0x80000, b := 0x80040, recAddr := 0x81000, rec_ := .here [], recAsk := [], recKey := 0, since := 0, ta := tree1, tb := tree1,
    stack := stack, seq := 3, resumed := false, emitted := false, held := false, words := [], stop := none }
def pairsG (stack : List (W32 × W32 × W32 × W32)) : Group :=
  { loadGroup with slotA := none, pairs := loadGroup.pairs.wr 0 (some (pairs1 stack)) }
def pairsS (stack : List (W32 × W32 × W32 × W32)) : State := { base with groups := [(1, (pairsG stack).setPath 0 pairsP)] }

/-- Whether the record's bytes can be written where they lie, here in another part of the page. -/
def recordArrives (s : State) (x : PairsRun) (st : Nat) : Option Xlat :=
  (arriveAll { s with unit := unitOf s (.pass ⟨1, 0⟩) } 0 .wr (some x.since) []
    ((recordHere { x with rec_ := .here [(.pa 0x81000, 4096)] } (recordBytes x st x.stack)).map fun y => (y.1, y.2.length)) false true).1

/-- What a pass over tree 0 at 0x80000, whose bytes are zero, comes to. -/
def pass1 (s : State) (a b : W32) (self : Bool) (t : Tree) : Pass :=
  (passOf s { vf := 0, since := 0, words := [] } t t self (a, noSource, b, noSource)).1

/-- Two leaves of equal boxes give a pair, or none in a tree against itself; a node gives its children; a third leaf lies out of range; a tree at no
canonical address fails. -/
theorem witness_PairsLoop :
    (match pass1 (pairsS []) 0x80000000 0x80000000 false (parseTree tree1) with | .emit a b => a == 0 && b == 0 | _ => false) = true ∧
    (match pass1 (pairsS []) 0x80000000 0x80000000 true (parseTree tree1) with | .nothing => true | _ => false) = true ∧
    (match pass1 (pairsS []) 0 0x80000000 false (parseTree tree1) with | .push es => es.length == 4 | _ => false) = true ∧
    (match pass1 (pairsS []) 0x80000001 0x80000000 false (parseTree tree1) with | .range r => r == 0x80000001 | _ => false) = true ∧
    (match pass1 (pairsS []) 0 0 false { parseTree tree1 with node := 0xFFFF000000080000 } with
      | .fail _ (.cause c) => c == 0x13 | _ => false) = true := by
  refine ⟨?_, ?_, ?_, ?_, ?_⟩ <;> decide +kernel

/-- A traversal with nothing left, and one with a pair on its stack, whose record's page is there; and the pages of a new `pairs`. -/
theorem witness_PairsEnd (stack : List (W32 × W32 × W32 × W32)) : (pairsS stack).path ⟨1, 0⟩ = some ((pairsG stack).setPath 0 pairsP, pairsP) ∧
    ((pairsG stack).setPath 0 pairsP).pairs.rd 0 = some (pairs1 stack) ∧ pairsP.st = .susp (.pairs 0x10010) ∧ (pairs1 stack).stop = none ∧
    (pairs1 stack).recAsk = [] ∧ asksOf (pairsS stack) (.pairs ⟨1, 0⟩) = [] ∧ (pairs1 []).stack = [] ∧ (pairsG stack).ser = none ∧
    pairsP.hold = false ∧ (recordArrives (pairsS []) (pairs1 []) 2).isNone = true ∧
    (recordArrives (pairsS [(1, 2, 3, 4)]) (pairs1 [(1, 2, 3, 4)]) 1).isNone = true ∧
    ∃ S ps, pairsPlaces (cx hd (uPairs ⟨1, 2, 4, 6, 0⟩)) (st hd (uPairs ⟨1, 2, 4, 6, 0⟩))
      [⟨0, 0x80000, pagesOf 0x80000 64⟩, ⟨0, 0x80040, pagesOf 0x80040 64⟩, ⟨0, 0x81000, pagesOf 0x81000 4096⟩] = .ok (S, ps) ∧
      ps.length = 3 ∧ ∀ y ∈ ps, ∃ ls, y.2 = .here ls := by
  refine ⟨by simp [pairsS, State.path, State.group, KMap.get, Group.setPath, Bank.rd, Bank.wr], rfl, rfl, rfl, rfl, rfl, rfl, rfl, rfl, ?_, ?_, ?_⟩
  · decide +kernel
  · decide +kernel
  · obtain ⟨⟨S, ps⟩, h, hp⟩ := okAnd_iff (p := fun x : State × List (Lane × Place) => decide (x.2.length = 3) && x.2.all isHere)
      (x := pairsPlaces (cx hd (uPairs ⟨1, 2, 4, 6, 0⟩)) (st hd (uPairs ⟨1, 2, 4, 6, 0⟩))
        [⟨0, 0x80000, pagesOf 0x80000 64⟩, ⟨0, 0x80040, pagesOf 0x80040 64⟩, ⟨0, 0x81000, pagesOf 0x81000 4096⟩]) (by decide +kernel)
    simp only [Bool.and_eq_true, decide_eq_true_eq] at hp
    exact ⟨S, ps, h, hp.1, allHere hp.2⟩

/-- A launch record at 0x80000 for two lanes, and waits for a grid that runs and for one that has ended. -/
def kidS : State := { small loadGroup path0 with
  grids := [(4, loadGrid), (9, { loadGrid with gridid := 7, origin := .child 0 })] }

theorem witness_LaunchesAndWaits : (∃ S ps, globalPlaces (cx hd (uLaunch ⟨1, 20, 8⟩)) (st hd (uLaunch ⟨1, 20, 8⟩)) none .rd
      ([0, 1].map fun l => ⟨l, 0x80000, lineChunks (0x80000 : W64).toNat 256⟩) = .ok (S, ps) ∧ ∀ x ∈ ps, ∃ ls, x.2 = .here ls) ∧
    (0x80000 : W64).toNat % 64 = 0 ∧ childEnd kidS 0 7 = none ∧ childEnd kidS 0 8 = some 0x22 ∧ kidS.gridOf loadGroup = some loadGrid :=
  ⟨res_iff (by decide +kernel), rfl, by decide +kernel, by decide +kernel, rfl⟩

def admitted (x : Dev Kernel × State) : Bool := match x.1 with | .ok _ => true | _ => false
def refused (x : Dev Kernel × State) : Bool := match x.1 with | .fail => true | _ => false

theorem admitted_iff {x : Dev Kernel × State} (h : admitted x = true) : ∃ k S, x = (.ok k, S) := by
  obtain ⟨k | _ | _ | _, S⟩ := x <;> first | exact ⟨_, S, rfl⟩ | cases h

theorem refused_iff {x : Dev Kernel × State} (h : refused x = true) : ∃ S, x = (.fail, S) := by
  obtain ⟨k | _ | _ | _, S⟩ := x <;> first | exact ⟨S, rfl⟩ | cases h

/-- A kernel record at 0x80000 of one team of one group in 16 registers. -/
def kernelS : State := base.poke 0x80000 (natLe 4 1 ++ natLe 4 0 ++ natLe 4 0 ++ natLe 2 16 ++ [0, 1, 1, 1] ++ zeros 46)

def launch1 : Launched := { loadLaunch with krec := 0x80000 }

theorem witness_admitLaunch : (∃ k S, admitLaunch kernelS 0 0 launch1 true = (.ok k, S)) ∧
    (∃ S, admitLaunch kernelS 0 0 { launch1 with gx := 0 } true = (.fail, S)) ∧ ∃ U, recordsReady (cx hd (uLaunch ⟨1, 20, 8⟩)) [zeros 256] base = (.ok (), U) :=
  ⟨admitted_iff (by decide +kernel), refused_iff (by decide +kernel), _, rfl⟩

/-! ### Exceptions and the system instructions -/

def xlatOk (x : Xlat × State) : Bool := match x.1 with | .ok pa => paClass pa != 1 | _ => false

theorem xlat_iff {x : Xlat × State} (h : xlatOk x = true) : ∃ pa S, x = (.ok pa, S) ∧ paClass pa ≠ 1 := by
  obtain ⟨x, S⟩ := x
  cases x <;> first | exact ⟨_, _, rfl, by simpa [xlatOk] using h⟩ | cases h

/-- A path at user level under a handler; one at supervisor level; and a VF without a handler. -/
theorem witness_ExceptionsEnter : base.path ⟨1, 0⟩ = some (loadGroup, path0) ∧ path0.sup = false ∧ (base.vf 0).hentry ≠ 0 ∧ sup0.sup = true ∧
    ((small loadGroup path0).vf 0).hentry = 0 ∧
    ∃ pa S, translate base 0 (loadGroup.frameb + 1024 * (0 : BitVec 3).setWidth 64).toNat 640 .wr = (.ok pa, S) ∧ paClass pa ≠ 1 :=
  ⟨rfl, rfl, by decide +kernel, rfl, rfl, xlat_iff (by decide +kernel)⟩

def narrowG : Group := { loadGroup with vwin := 16, acc := 1 }

/-- A path that may take an exception; and groups whose window and tiles an instruction leaves. -/
theorem witness_TrapsAndChecks : base.cur = some ⟨1, 0⟩ ∧ base.path ⟨1, 0⟩ = some (loadGroup, path0) ∧ path0.sup = false ∧ path0.hold = false ∧
    Issues base ⟨1, 0⟩ loadGroup path0 hd Uses.none ∧ (base.vf (base.vfOf loadGroup)).hentry ≠ 0 ∧
    (∃ pa S, translate (issuedSt base ⟨1, 0⟩ loadGroup path0 hd Uses.none) 0 (loadGroup.frameb + 1024 * (0 : BitVec 3).setWidth 64).toNat 640 .wr =
      (.ok pa, S) ∧ paClass pa ≠ 1) ∧
    usesOf (.mzero hd 1) = some (hd, uMZero 1) ∧ usesOf (.vld hd ⟨.w, .s, .rlx, .path, false, 16, .vec 10, 0⟩) =
      some (hd, uVLd ⟨.w, .s, .rlx, .path, false, 16, .vec 10, 0⟩) ∧
    (small narrowG path0).path ⟨1, 0⟩ = some (narrowG.setPath 0 path0, path0) ∧
    Reg.v 16 ∈ (uVLd ⟨.w, .s, .rlx, .path, false, 16, .vec 10, 0⟩).rd ++ (uVLd ⟨.w, .s, .rlx, .path, false, 16, .vec 10, 0⟩).wr ∧
    narrowG.vwin ≤ (16 : VReg).toNat ∧ Reg.t 1 ∈ (uMZero 1).rd ++ (uMZero 1).wr ∧ narrowG.acc ≤ (1 : TReg).toNat :=
  ⟨rfl, rfl, rfl, rfl, base_issues hd Uses.none rfl, by decide +kernel, xlat_iff (by decide +kernel), rfl, rfl, small_path _ _, by decide, by decide,
    by decide, by decide⟩

/-- A window on v20 that a load to v20 would breach; a breakpoint at the path's PC; a path that has stepped; a watchpoint on the first four bytes
of shared memory. -/
def winP : Path := { path0 with win := [⟨2, [.v 20]⟩] }
def ld20 : VLd := ⟨.w, .s, .rlx, .path, false, 20, .vec 10, 0⟩
def bpS (skip : Bool) : State :=
  (base.setVf 0 fun v => { v with crook := { v.crook with bp := v.crook.bp.wr 3 (path0.pc ||| 1) } }).setPath ⟨1, 0⟩ { path0 with skipBp := skip }
def stepG : Group := { loadGroup with stepArm := true }
def stepP : Path := { path0 with stepN := 1 }
def wpS : State := (small loadGroup path0).setVf 0 fun v =>
  { v with crook := { v.crook with wp := v.crook.wp.wr 2 0x3100000000, wplen := v.crook.wplen.wr 2 4 } }

def wordIs (f : W64 → State → Bool) : Fetched → Bool
  | .word w S => f w S
  | .out _ => false

theorem wordIs_iff {f : W64 → State → Bool} {x : Fetched} (h : wordIs f x = true) : ∃ w S, x = .word w S ∧ f w S = true := by
  cases x with
  | word w S => exact ⟨w, S, rfl, h⟩
  | out S => cases h

theorem witness_LookaheadAndDebugPoints : usesOf (.vld hd ld20) = some (hd, uVLd ld20) ∧ (uVLd ld20).priv = false ∧
    (small loadGroup winP).path ⟨1, 0⟩ = some (loadGroup.setPath 0 winP, winP) ∧ ((uVLd ld20).rd ++ (uVLd ld20).wr).any (outside loadGroup) = false ∧
    (⟨2, [.v 20]⟩ : Win) ∈ winP.win ∧ Reg.v 20 ∈ (uVLd ld20).rd ++ (uVLd ld20).wr ∧
    (∀ skip, ∃ w S, fetchAt (bpS skip) ⟨1, 0⟩ path0.pc (Config.value64 (bpS skip).free) = .word w S ∧
      (lengthOk w && (S.vf 0).crook.bp.rd 3 == path0.pc ||| 1) = true) ∧
    stepG.stepArm = true ∧ 1 ≤ stepP.stepN ∧ stepP.skipBp = false ∧ stepP.sup = false ∧
    (∃ w S, fetchAt base ⟨1, 0⟩ stepP.pc (Config.value64 base.free) = .word w S ∧ (lengthOk w && (S.vf 0).crook.bp.rd 3 != stepP.pc ||| 1) = true) ∧
    (cx hd (uVLd ld20)).skip = false ∧ wpS.team 2 = some loadTeam ∧
    ([(0, 0), (3, 4)] : List (Lane × W64)).filter (fun q => decide (0 ≤ q.2.toInt ∧ q.2.toInt + (4 : Nat) ≤ (loadTeam.size : Int)) &&
      watched wpS 0 (.team 2 q.2.toNat) 4 false true) = [(0, 0)] := by
  refine ⟨rfl, rfl, small_path _ _, by decide, by decide, by decide, fun skip => wordIs_iff (by cases skip <;> decide +kernel), rfl, by decide, rfl, rfl,
    wordIs_iff (by decide +kernel), rfl, rfl, by decide +kernel⟩

/-- A path in its handler, and the frame it returns by. -/
def handP : Path := { sup0 with entry := some ⟨0x0F, Bank.fill 0, 0⟩ }

theorem witness_HandlersReturn : Issues (small loadGroup handP) ⟨1, 0⟩ (loadGroup.setPath 0 handP) handP hd { uPriv with closes := true } ∧
    handP.hold = false ∧ loadGroup.ser = none ∧ handP.entry = some ⟨0x0F, Bank.fill 0, 0⟩ ∧ (0x0F : Mask) ≠ 0 ∧
    ∃ pa S, translate base 0 (loadGroup.frameb + 1024 * (0 : BitVec 3).setWidth 64).toNat 640 .rd = (.ok pa, S) ∧ paClass pa ≠ 1 :=
  ⟨small_issues loadGroup handP hd _ rfl (fun _ => rfl) (by decide) (by decide) rfl rfl rfl, rfl, rfl, rfl, by decide, xlat_iff (by decide +kernel)⟩

/-- A group whose grid is a chain of strip 5; every name's conditions hold of it or of `small`. -/
def chain1 : Chain :=
  { strip := 5, srlStart := 1, srl := 1, grids := [4], milestone := 0, raised := 0, doneTiles := 0, firstPlace := 0, missed := false, finished := false }
def stream1 : Stream :=
  { kind := 1, unit := 0, nkern := 1, srl0 := 1, spf := 2, vf := 0, t0 := 1000 * 2 ^ 32, fper := 100 * 2 ^ 32, sper := 50 * 2 ^ 32, lead := 40, win := 30, guard := 2,
    qidx := 0, wc := 1, enct := 0, cores := 1, kerns := [0x80000], tiles := [1], rings := [3, 0xFFFF, 0xFFFF, 0xFFFF], crec := 0, bsr := 0, clog := 4,
    blog := 4, copies := [], srl := 1, next := 6, commits := [5], chains := [chain1], cons := ⟨5, none, none, none⟩, written := 0, withdrawn := false }
def ring1 (x : SlotSt) : Ring :=
  { base := 0, slotsz := 64, pitch := 64, lines := 1, lastl := 1, tail := 1, h := 2, cons := 1, unit := 0, fmt := 0, width := 4, stream := 0, slots := [.free, x] }
def padS (t : Stream) (x : SlotSt) (bell : Nat) : State :=
  { small loadGroup path0 with
      grids := [(4, { loadGrid with origin := .chain 0 7 5 })], bell := BitVec.ofNat 96 bell,
      paddocks := [(0, { Paddock.reset with live := true, streams := Paddock.reset.streams.wr 7 (some t), rings := Paddock.reset.rings.wr 3 (some (ring1 x)) })] }

theorem witness_ControlRegisters : (small loadGroup path0).team 2 = some loadTeam ∧ (small loadGroup path0).gridOf loadGroup = some loadGrid ∧
    (small loadGroup path0).coreOf loadGroup = some 0 ∧ chainOf (small loadGroup path0) loadGroup = none ∧
    chainOf (padS stream1 .open_ 0) loadGroup = some (stream1, chain1) ∧ 33 ≤ (33 : W8).toNat ∧
    (∃ pa S, translate base 0 (loadGroup.frameb + 1024 * (0 : BitVec 3).setWidth 64 + 8).toNat 8 .wr = (.ok pa, S) ∧ paClass pa ≠ 1) :=
  ⟨rfl, rfl, rfl, rfl, by decide +kernel, by decide, xlat_iff (by decide +kernel)⟩

/-- A window at its largest, and one of 240 registers asked to grow by 16: the request at the head of its core's queue. -/
def growP : Path := { path0 with st := .susp (.vgrow 1 0x10010) }
def growG : Group := { loadGroup with vwin := 240, slotA := none }
def growS : State := { small growG growP with vgrowQ := [(0, ⟨1, 0⟩)] }

/-- A core on which 2,040 other groups need a granule each. -/
def crowdS : State := { growS with groups := (1, growG) :: (List.range 2040).map fun i => (7 + i, growG.setPath 0 path0) }

theorem witness_WindowsGrowAndShrink : (small loadGroup path0).coreOf loadGroup = some 0 ∧ 256 < loadGroup.vwin + 16 * (1 : BitVec 4).toNat ∧
    growG.vwin + 16 * (1 : BitVec 4).toNat ≤ 256 ∧ (growG.vwin + 16 * (1 : BitVec 4).toNat) / 16 ≤ mostGranules growS 0 1 ∧
    (growS.vgrowQ.find? fun e => e.1 == 0) = some (0, ⟨1, 0⟩) ∧ growP.st = .susp (.vgrow 1 0x10010) ∧ growG.ser = none ∧
    (coreUsed growS 0).gran + (1 : BitVec 4).toNat ≤ Config.granules ∧ growG.vwin < 16 * (15 : BitVec 4).toNat + 16 ∧
    16 * (14 : BitVec 4).toNat + 16 ≤ growG.vwin ∧ mostGranules crowdS 0 1 < (growG.vwin + 16 * (1 : BitVec 4).toNat) / 16 :=
  ⟨rfl, by decide, by decide, by decide +kernel, rfl, rfl, rfl, by decide +kernel, by decide, by decide, by decide +kernel⟩

theorem witness_SystemInstructions : (small loadGroup sup0).gridOf loadGroup = some loadGrid ∧ sup0.sup = true ∧
    enginePending (cx hd (uTlbInv none)) 0x7F = false ∧ holding (st hd (uTlbInv none)) (· == 0) Loc.isPhys = false ∧
    tagBusy loadGroup 7 = false ∧ tagBusy { loadGroup with copies := loadGroup.copies.wr 2 { Copy.idle with st := .running, tag := 7 } } 7 = true ∧
    (∀ i, loadGroup.pairs.rd i = none) ∧ (∀ i q, loadGroup.paths.rd i = some q → ∀ w, q.st ≠ .remote w) := by
  refine ⟨rfl, rfl, by decide +kernel, by decide +kernel, by decide +kernel, by decide +kernel, by decide, ?_⟩
  intro i q h w hw
  have hq : q = path0 := by
    by_cases hi : i = 0
    · subst hi; exact (Option.some.inj h).symm
    · have : loadGroup.paths.rd i = none := by
        have : ∀ i : BitVec 3, i ≠ 0 → loadGroup.paths.rd i = none := by decide +kernel
        exact this i hi
      rw [this] at h; cases h
  subst hq; cases hw

/-- A pool of 2 MiB in the second GiB of stage 1, which maps nothing else, over IPAs from `ipa`, with the tables of its first page in place; the
second GiB of stage 2 has tables too, and maps nothing; one frame is free. -/
def pgS (ipa : W64) : State :=
  let s := base.setVf 0 fun v => { v with pools := v.pools.wr 0 (some ⟨0x40000000, 0x200000, ipa.toNat⟩), guar := 4, burst := 4 }
  let s := s.setPad 0 fun p => { p with store := [0x100000] }
  (((((s.poke 0x6000 (natLe 8 0)).poke 0x6008 (natLe 8 0x7003)).poke 0x7000 (natLe 8 0x8003)).poke 0x3008 (natLe 8 0x9003)).poke 0x9000
    (natLe 8 0xA003))

def pgStatus : PgOut → Option Nat
  | .status n => some n
  | _ => none
def pgMapped : PgOut → Bool
  | .mapped _ => true
  | _ => false
def pgEmpty : PgOut → Bool
  | .empty _ => true
  | _ => false

/-- Each row of the status, an occupied entry, a page over a frame that stage 2 names, and one that waits for frames. -/
theorem witness_PagesMap : noncanonical (pgS 0x200000) 0 0x40000000 = false ∧ poolOf ((pgS 0x200000).vf 0) 0x3FFFFFFF = none ∧
    poolOf ((pgS 0x200000).vf 0) 0x40000000 = some ⟨0x40000000, 0x200000, 0x200000⟩ ∧ 0x40000001 % pageBytes .p4k ≠ 0 ∧ isDomain 0x40000000 = false ∧
    pgStatus (pgmapTry (pgS 0x200000) 0 .p4k 0x40000000 4) = some 3 ∧
    (match occupied ((pgS 0x200000).poke 0x8000 (natLe 8 1)) 0 (pageLevel .p4k) 0x40000000 false 5 0x4000 with | .ok true => true | _ => false) = true ∧
    pgMapped (pgmapTry (pgS 0x200000) 0 .p4k 0x40000000 1) = true ∧
    pgEmpty (pgmapTry ((pgS 0x200000).setVf 0 fun v => { v with starved := some 3 }) 0 .p4k 0x40000000 1) = true :=
  ⟨by decide +kernel, by decide +kernel, by decide +kernel, by decide, by decide +kernel, by decide +kernel, by decide +kernel, by decide +kernel,
    by decide +kernel⟩

/-- A page with a new frame, whose leaves go into tables that are there. -/
theorem witness_PagesMap_frame : pgMapped (pgmapTry (pgS 0x40000000) 0 .p4k 0x40000000 1) = true ∧ (pgS 0x40000000).mem.wf = true ∧
    poolOf ((pgS 0x40000000).vf 0) 0x40000000 = some ⟨0x40000000, 0x200000, 0x40000000⟩ ∧
    (match stage2 (pgS 0x40000000) 0 0x40000000 with | .error (.bad c) => c == 0x10 | _ => false) = true ∧
    tableAt (pgS 0x40000000) 0 0x40000000 5 ((pgS 0x40000000).pad 0).s2root.toNat = false ∧
    Alloc.take { store := ((pgS 0x40000000).pad 0).store, taken := 0, short := false } (pgS 0x40000000).free 1 = (0x100000, ⟨[], 1, false⟩) ∧
    paClass 0x100000 ≠ 1 ∧ routeS2 (zeroFrame (pgS 0x40000000) 0x100000 4096) 0 0x40000000 5 0x1000 = some 0xA000 ∧
    routeS1 (writeLeaf (zeroFrame (pgS 0x40000000) 0x100000 4096) 0xA000 0x10000D false) 0 0 0x40000000 5 0x4000 = some 0x8000 ∧
    (∀ i, i < 128 → paClass (0x8000 + i) ≠ 1 ∧ paClass (0xA000 + i) ≠ 1) ∧ 0x8000 + 128 ≤ 0xA000 ∧ 0xA000 + 128 ≤ 0x100000 :=
  ⟨by decide +kernel, by decide +kernel, by decide +kernel, by decide +kernel, by decide +kernel, by decide +kernel, by decide, by decide +kernel,
    by decide +kernel, by decide +kernel, by decide, by decide⟩

/-! ### Strips, the dispatcher, pre-emption -/

/-- Chain 5 of stream 7 before and at its deadline, with its slot open and not; a word that names the slot and one with high bits. -/
theorem witness_StripCommits : (small loadGroup path0).gridOf loadGroup = some loadGrid ∧ (∀ pd st n, loadGrid.origin ≠ .chain pd st n) ∧
    ((padS stream1 .open_ 0).pad 0).stream 7 = some stream1 ∧ ((padS stream1 .open_ 0).pad 0).ring 3 = some (ring1 .open_) ∧
    stream1.chainOf 5 = some chain1 ∧ (0x00010003 : W64).toNat % 2 ^ 16 = 3 ∧ (0x00010003 : W64).toNat / 2 ^ 16 % 2 ^ 16 = 1 ∧
    3 ∈ stream1.ringList ∧ 1 < (ring1 .open_).slots.length ∧ 5 % 2 ^ 32 % (ring1 .open_).slots.length = 1 ∧ (ring1 .open_).slot 1 = .open_ ∧
    (ring1 .free).slot 1 ≠ .open_ ∧ chain1.finished = false ∧ chain1.missed = false ∧ (0x100000000 : W64).toNat / 2 ^ 32 ≠ 0 ∧
    (padS stream1 .open_ 0).bell.toNat < stream1.deadline 5 ∧
    stream1.deadline 5 ≤ (padS stream1 .open_ (stream1.deadline 5)).bell.toNat ∧
    (chain1.grids.length = stream1.nkern ∧ chain1.grids.getLast? = some 4 ∧ stream1.lastRing = some 3) := by
  refine ⟨rfl, ?_, ?_, ?_, ?_⟩
  · intro _ _ _ h; cases h
  · decide +kernel
  · decide +kernel
  · decide +kernel

def next1 : Stream := { stream1 with chains := [], next := 6 }

/-- Strip 6, whose slot 0 is free or still committed, at its start; the first milestone and the deadline of strip 5. -/
theorem witness_ChainsStartAndMiss :
    ((padS next1 .open_ (next1.start 6)).pad 0).stream 7 = some next1 ∧ next1.withdrawn = false ∧
    next1.start next1.next ≤ (padS next1 .open_ (next1.start 6)).bell.toNat ∧ next1.current = none ∧
    (ring1 .open_).slot ((ring1 .open_).slotOf 6) = .free ∧ (ring1 .committed).slot ((ring1 .committed).slotOf 7) ≠ .free ∧
    stream1.current = some chain1 ∧ 1 * stream1.win * 2 ^ 32 ≤ 4 * (stream1.deadline 5 - stream1.start 5) ∧
    (padS stream1 .open_ 0).bell.toNat < stream1.deadline chain1.strip := by decide +kernel

def wq1 : Wq := { Wq.reset with bind := some (0, 3), en := true, wqtail := 1, wqbase := 0x80000 }
def wqS : State := { base with wqs := [(9, wq1)] }

/-- The second GiB of stage 1 lies where stage 2 maps nothing. -/
def hostS : State := base.poke 0x6008 (natLe 8 0x4000000D)

def devKind {α : Type} : Dev α → Nat
  | .ok _ => 0
  | .fail => 1
  | .wait => 2
  | .dead _ => 3

theorem devOk_iff {α : Type} {x : Dev α × State} (h : devKind x.1 = 0) : ∃ d S, x = (.ok d, S) := by
  obtain ⟨d | _ | _ | _, S⟩ := x <;> first | exact ⟨_, S, rfl⟩ | cases h

theorem devFail_iff {α : Type} {x : Dev α × State} (h : devKind x.1 = 1) : ∃ S, x = (.fail, S) := by
  obtain ⟨d | _ | _ | _, S⟩ := x <;> first | exact ⟨S, rfl⟩ | cases h

theorem devWait_iff {α : Type} {x : Dev α × State} (h : devKind x.1 = 2) : ∃ S, x = (.wait, S) := by
  obtain ⟨d | _ | _ | _, S⟩ := x <;> first | exact ⟨S, rfl⟩ | cases h

/-- A queue whose turn it is, and whose record can be read; a record that nothing maps; one whose page waits for the host. -/
theorem witness_WorkQueues : (wqS.wq 9).bind = some (0, 3) ∧ isTurn wqS 9 = true ∧ isTurn { wqS with wqs := [(9, { wq1 with err := true })] } 9 = false ∧
    (∃ d S, wqS.devRead 0 0x80000 256 = (.ok d, S)) ∧ (∃ S, wqS.devRead 0 0xFFFF000000000000 256 = (.fail, S)) ∧
    ∃ S, hostS.devRead 0 0x40000000 256 = (.wait, S) :=
  ⟨rfl, by decide +kernel, by decide +kernel, devOk_iff (by decide +kernel), devFail_iff (by decide +kernel), devWait_iff (by decide +kernel)⟩

/-- A grid with a cluster to start, and nothing saved. -/
def newS : State :=
  { small loadGroup path0 with
      groups := [], teams := [], clusters := [], ports := [(0, { Port.none with owner := 0 })], grids := [(4, { loadGrid with nextCluster := 0 })],
      vfs := [(0, { Vf.reset with active := true, paddock := 0 })], paddocks := [(0, { Paddock.reset with live := true })] }

theorem witness_ClustersPlaced : runningChains (fixSlice newS 0) 0 = [] ∧ (∀ x ∈ gridOrder (fixSlice newS 0) 0, hasSaved (fixSlice newS 0) x.1 = false) ∧
    ((gridOrder (fixSlice newS 0) 0).find? fun x => hasNew x.2 && !heldBack (fixSlice newS 0) x.2 && (placeGrid (fixSlice newS 0) x.1).isSome) =
      some (4, { loadGrid with nextCluster := 0 }) ∧
    (placeGrid (fixSlice newS 0) 4).isSome = true ∧ newS.grid 4 = some { loadGrid with nextCluster := 0 } ∧ loadGrid.launch.coop = false ∧
    loadGrid.launch.isDomain = false ∧ 0 < clustersOf loadGrid.launch ∧
    findRect 1 1 (fun _ c => coreTakes newS 4 { loadGrid with nextCluster := 0 } false c loadKernel.need) = some [0] := by
  refine ⟨by decide +kernel, ?_, by decide +kernel, by decide +kernel, rfl, rfl, rfl, by decide, by decide +kernel⟩
  have h : ((gridOrder (fixSlice newS 0) 0).all fun x => !hasSaved (fixSlice newS 0) x.1) = true := by decide +kernel
  intro x hx
  simpa using List.all_eq_true.mp h x hx

/-- A team whose group has ended, and one that still runs. -/
def endG : Group := { loadGroup with paths := Bank.fill none, slotA := none }
def endS : State := { small loadGroup path0 with groups := [(1, endG)] }

theorem witness_TeamsExit : endS.team 2 = some loadTeam ∧ teamEnded endS 2 = true ∧ teamEnded (small loadGroup path0) 2 = false ∧
    endS.grid 4 = some loadGrid ∧ ({ loadGrid with launch := { loadLaunch with gx := 2 } }.ends.length + 1 < { loadGrid with launch := { loadLaunch with gx := 2 } }.teamCount) :=
  ⟨rfl, by decide +kernel, by decide +kernel, rfl, by decide +kernel⟩

theorem devOk_iff' {x : Dev Unit × State} (h : devKind x.1 = 0) : ∃ S, x = (.ok (), S) := by
  obtain ⟨_, S, h⟩ := devOk_iff h
  exact ⟨S, h⟩

/-- Two VFs that contend, the slice of the first over, its ladder at GRACE and at KILLT. -/
def sliceS (ladders : List Ladder) : State :=
  { small loadGroup path0 with
      vfs := [(0, { Vf.reset with active := true, paddock := 0 }), (1, { Vf.reset with active := true, paddock := 0 })],
      grids := [(4, loadGrid), (6, { loadGrid with vf := 1, nextCluster := 0 })], bell := BitVec.ofNat 96 (10000000 * 2 ^ 32), handle := 9,
      paddocks := [(0, { Paddock.reset with live := true, slice := some (0, 0), ladders := ladders })] }
def stopS (forced : Bool) : State :=
  { base with
      teams := [(2, { loadTeam with stop := some ⟨100, forced, none⟩ })], cycles := [(0, 100)] }

/-- A stopped team without groups or shared memory. -/
def emptyS : State := { stopS true with groups := [], teams := [(2, { loadTeam with stop := some ⟨100, true, none⟩, gcount := 0, size := 0 })] }

theorem witness_TeamsLeaveCores : ((sliceS []).pad 0).slice = some (0, 0) ∧ sliceOver (sliceS []) 0 = true ∧
    dueLadder (sliceS []) 0 false = none ∧ dueLadder (sliceS [⟨0, 0, 9, false⟩]) 0 false = some ⟨0, 0, 9, false⟩ ∧
    dueLadder (sliceS [⟨0, 0, 9, true⟩]) 0 true = some ⟨0, 0, 9, true⟩ ∧ ((ladderTeams (sliceS []) ⟨0, 0, 9, false⟩).map (·.1)) = [2] ∧
    (stopS false).team 2 = some { loadTeam with stop := some ⟨100, false, none⟩ } ∧ 100 ≤ (stopS false).cycle 0 ∧ readyToSave (stopS true) 2 = true ∧
    readyToSave emptyS 2 = true ∧
    (∃ S, writeContexts (saveSet emptyS 2) ((saveSet emptyS 2).foldl settleTeam emptyS) = (.ok (), S)) ∧
    deadlocked (small loadGroup path0) 0 = false := by
  refine ⟨rfl, by decide +kernel, by decide +kernel, by decide +kernel, by decide +kernel, by decide +kernel, rfl, by decide +kernel, by decide +kernel,
    by decide +kernel, devOk_iff' (by decide +kernel), by decide +kernel⟩

/-- A core whose one team waits for registers that the core does not have, and the team that could leave. -/
def lockG : Group := { loadGroup with slotA := none, vwin := 16 }
def lockP : Path := { path0 with st := .susp (.vgrow 15 0x10010) }
def lockS (flags : W16) : State :=
  { small lockG lockP with
      vgrowQ := [(0, ⟨1, 0⟩)], groups := [(1, lockG.setPath 0 lockP), (7, { lockG.setPath 0 lockP with team := 8, vwin := 256 * 127 + 16 })],
      teams := [(2, loadTeam), (8, { loadTeam with placed := 5 })], grids := [(4, { loadGrid with launch := { loadLaunch with flags := flags } })] }

theorem witness_DeadlockBreak : deadlocked (lockS 0) 0 = true ∧ (breakCandidates (lockS 0) 0).map (·.1) = [8] ∧
    deadlocked (lockS 1) 0 = true ∧ (breakCandidates (lockS 1) 0).map (·.1) = [] ∧ headRequest (lockS 1) 0 = some (⟨1, 0⟩, 15, 0x10010) ∧
    (lockS 1).path ⟨1, 0⟩ = some (lockG.setPath 0 lockP, lockP) :=
  ⟨by decide +kernel, by decide +kernel, by decide +kernel, by decide +kernel, by decide +kernel, by simp [lockS, State.path, State.group, KMap.get, Group.setPath, Bank.rd, Bank.wr]⟩

/-! ### Issue, pages, the fabric, units -/

def fifoG (a b : Option (BitVec 3)) : Group := { loadGroup with slotA := a, slotB := b, fifo := [2] }

theorem witness_CoresIssue (a b : Option (BitVec 3)) : (small (fifoG a b) path0).group 1 = some ((fifoG a b).setPath 0 path0) ∧
    (small (fifoG a b) path0).team 2 = some loadTeam ∧ loadTeam.core ≠ none ∧ loadTeam.stop = none ∧ (fifoG a b).ser = none ∧
    (fifoG a b).fifo = [2] ∧ ((candidates base 0).map (·.r)) = [⟨1, 0⟩] := ⟨rfl, rfl, by decide, rfl, rfl, rfl, by decide +kernel⟩

def walkP (hold : Bool) : Path := { path0 with st := .walkGo, hold := hold }
def mig1 (p : MigPhase) : Migration :=
  { vf := 0, paddock := 0, ipa := 0, size := 4096, leaf := 0x3000, src := 0x100000, dst := 0x101000, copied := 32, marked := [], phase := p,
    driver := none }
def migS (p : MigPhase) : State := { base with migrations := [(6, mig1 p)] }

/-- A path that the host has let go on; a migration that copies and one that is committing; and the one leaf of the loaded tables. -/
theorem witness_PagesMoveAndAge (p : MigPhase) : (small loadGroup (walkP false)).path ⟨1, 0⟩ = some (loadGroup.setPath 0 (walkP false), walkP false) ∧
    path0.st ≠ .walkGo ∧ (migS p).migrations.get 6 = some (mig1 p) ∧ (mig1 p).phase = p ∧ (mig1 p).away = false ∧ (mig1 p).driver = none ∧
    (migS p).mem.wf = true ∧ paClass (mig1 p).leaf = 0 ∧ paClass ((mig1 p).leaf + 1) = 0 ∧ (mig1 p).dst % 4096 = 0 ∧ (mig1 p).dst < 2 ^ 52 ∧
    (localLeaves base 0).map (fun l : Nat × PLeaf => (l.2.entry, l.2.base)) = [(0x3000, 0)] :=
  ⟨small_path _ _, by decide, rfl, rfl, by cases p <;> rfl, rfl, by cases p <;> decide +kernel, by cases p <;> decide, by cases p <;> decide, by cases p <;> decide, by cases p <;> decide, by decide +kernel⟩

/-- A memory operation of module 1, and a request that it sends in a phase. -/
def rd1 : RemoteOp := .read 0x0100000000080000 8
def req1 (mode : ReqMode) (ops : List (Nat × RemoteOp)) : Request := { src := 1, id := 9, vf := 0, g := 5, mode := mode, ops := ops }

/-- The tables of a state, with the domain addresses of module 0 mapped as its local ones. -/
def domT (s : State) : State := s.poke 0x4800 (natLe 8 0x5003)

/-- What pages of another module's request came to, by kind. -/
def pagesKind (x : Except Xlat (List (Loc × Nat)) × State) : Nat :=
  match x.1 with
  | .ok _ => 0
  | .error (.cause _) => 1
  | .error (.wait _ _) => 2
  | .error _ => 3

theorem pages_iff {x : Except Xlat (List (Loc × Nat)) × State} :
    (pagesKind x = 0 → ∃ ps S, x = (.ok ps, S)) ∧ (pagesKind x = 1 → ∃ c S, x = (.error (.cause c), S)) ∧
      (pagesKind x = 2 → ∃ i c S, x = (.error (.wait i c), S)) := by
  obtain ⟨e | ps, S⟩ := x
  · cases e <;> simp [pagesKind]
  · simp [pagesKind]

/-- The loaded machine in which a copy that is under way owns eight bytes at 0x80000. -/
def ownS : State := { base with groups := [(1, { loadGroup with copies := loadGroup.copies.wr 1 { outCopy with lines := [(0, 0x80000, 8)] } })] }

/-- The operation of `rd1`, held here since it passed. -/
def held1 : Held := { src := 1, id := 9, vf := 0, own := none, past := [], ops := [(0, rd1, [(.pa 0x80000, 8)])], freed := [] }
def heldS : State := { base with held := [held1] }

/-- A request of VF 0 to module 1 that nothing has answered, before its time and at it. -/
def ask1 : Ask := { who := .path ⟨1, 0⟩, vf := 0, dest := 1, since := 0, holds := false, of := 7, ans := none }
def askS (bell : Nat) : State := { base with asks := [(7, ask1)], bell := BitVec.ofNat 96 bell }
def remP : Path := { path0 with st := .remote (RemoteWait.first []) }
def remS : State := base.setPath ⟨1, 0⟩ remP

/-- A read of a mapped page, of one at no canonical address, and of one that waits for the host; the pages free, and owned by an engine; an
operation held; a queue that has room and one that is full; an answer that is awaited, in time and late; and a path whose modules have answered. -/
theorem witness_RemoteMessages :
    opRange rd1 = some (0x0100000000080000, 8, .rd) ∧ rd1.isLine = false ∧ (∃ ps S, reqPages (domT base) 0 .rd (pagesOf 0x0100000000080000 8) = (.ok ps, S)) ∧
    (∃ c S, reqPages (domT base) 0 .rd (pagesOf 0x0100800000000000 8) = (.error (.cause c), S)) ∧
    (∃ i c S, reqPages (domT hostS) 0 .rd (pagesOf 0x0100000040000000 8) = (.error (.wait i c), S)) ∧
    (∃ T, opsArrive base 0 none false [(0, rd1, [(.pa 0x80000, 8)])] = (none, T)) ∧
    (∃ x T, opsArrive ownS 0 none false [(0, rd1, [(.pa 0x80000, 8)])] = (some x, T) ∧ ∀ c, x ≠ .dead c) ∧
    heldS.heldOf 1 9 = some held1 ∧ held1.lostQueue heldS = false ∧ (∀ x ∈ held1.ops, ∀ y ∈ x.2.2, y.1.away = none) ∧ base.heldOf 1 9 = none ∧ (∀ x ∈ held1.ops, ∀ b j, x.2.1 ≠ .line b j ∧ x.2.1 ≠ .claim b j) ∧
    (∃ T, opsArrive (behind heldS held1) 0 none false held1.ops = (none, T)) := by
  refine ⟨rfl, rfl, pages_iff.1 (by decide +kernel), pages_iff.2.1 (by decide +kernel), pages_iff.2.2 (by decide +kernel), ?_, ?_, rfl, rfl, by decide +kernel, rfl, ?_, ?_⟩
  · have h : (opsArrive base 0 none false [(0, rd1, [(.pa 0x80000, 8)])]).1 = none := by decide +kernel
    exact ⟨_, by rw [← h]⟩
  · have h : (opsArrive ownS 0 none false [(0, rd1, [(.pa 0x80000, 8)])]).1 = some .busy := by decide +kernel
    exact ⟨.busy, (opsArrive ownS 0 none false [(0, rd1, [(.pa 0x80000, 8)])]).2, by rw [← h], by intro c h; cases h⟩
  · intro x hx b j
    simp only [held1, List.mem_singleton] at hx
    subst hx
    simp [rd1]
  · have h : (opsArrive (behind heldS held1) 0 none false held1.ops).1 = none := by decide +kernel
    exact ⟨_, by rw [← h]⟩

/-- A page of the second GiB that is module 3's. -/
def farS : State := (domT hostS).poke 0x3008 (natLe 8 (2 ^ 50 + 3 * 2 ^ 42 + 0xD))

/-- An atomic of module 1 to it, which is asked for there; and a page whose table entry an engine owns. -/
theorem witness_RemoteMessages_far :
    (match (reqPages farS 0 .rmw (pagesOf 0x0100000040000000 8)).1 with | .ok [(.far 3 l, 8)] => l == 2 ^ 50 + 3 * 2 ^ 42 | _ => false) = true ∧
    asksOf farS (.fwd 1 9) = [] ∧ opRange (.atom 0x0100000040000000 .add .d 1) = some (0x0100000040000000, 8, .rmw) := by
  refine ⟨by decide +kernel, rfl, rfl⟩

theorem witness_RemoteQueues : localQueue (queueS 3 0) 0 (handle1 1) = .here 16383 ∧ (∀ n, localQueue base 0 5 ≠ .here n) ∧
    (queueS 3 0).queues.get 16383 = some (queue1 3 0) ∧ (enqueue (queueS 3 0) 16383 0).isSome = true ∧
    (enqueue (queueS 3 1) 16383 0).isNone = true ∧ (askS 0).asks.get 7 = some ask1 ∧ base.asks.get 7 = none ∧ ask1.ans = none ∧
    fatalCause (.pieces [(0, .data [])]) = none ∧ fatalCause (.pieces [(0, .cause 0x40)]) = some 0x40 ∧ fabricLate (askS 0) 7 = false ∧
    fabricLate (askS (2 ^ 64)) 7 = true ∧ (∀ x, ask1.who ≠ .migr x) ∧ mayIssue remS ⟨1, 0⟩ (loadGroup.setPath 0 remP) remP = true := by
  refine ⟨by decide +kernel, ?_, rfl, by decide +kernel, by decide +kernel, rfl, rfl, rfl, rfl, by decide +kernel, by decide +kernel, by decide +kernel, ?_,
    by decide +kernel⟩
  · intro n h; cases h
  · intro x h; cases h

/-- A copy of a domain launch that waits for one more module, before and at its timeout. -/
def domG : Grid :=
  { loadGrid with launch := { loadLaunch with flags := 2, gen := 1, modmask := 3 }, domain := some ⟨3, 1, 0⟩, started := false, nextCluster := 1 }
def domS (bell : Nat) : State :=
  { small loadGroup path0 with grids := [(4, domG)], vfs := [(0, { Vf.reset with active := true, paddock := 0, dgen := 1 })], bell := BitVec.ofNat 96 bell }

theorem witness_DomainLaunches : waitingCopy (domS 0) 0 1 = some (4, domG) ∧ ((domS 0).vf 0).dgen = 1 ∧ waitingCopy (domS 0) 0 2 = none ∧
    (2 : W32) = ((domS 0).vf 0).dgen + 1 ∧ (domS 0).grid 4 = some domG ∧ startLate (domS 0) domG = false ∧
    startLate (domS (10000000 * 2 ^ 32)) domG = true ∧ { domG with started := true }.started = true := by decide +kernel

/-- A head at the moment of strip 5 with its slot committed and not; an encoder with a ready row, idle and busy. -/
def encT (busy : Option Bool) : Stream := { next1 with kind := 2, bsr := 0x80000, blog := 16, cons := ⟨5, busy, none, none⟩ }
def encS : State := base.setPad 0 fun p =>
  { p with streams := p.streams.wr 7 (some (encT (some false))), rings := p.rings.wr 3 (some (ring1 .committed)) }

theorem witness_HeadsAndEncoders : ((padS stream1 .committed 0).pad 0).stream 7 = some stream1 ∧ stream1.lastRing = some 3 ∧
    ((padS stream1 .committed 0).pad 0).ring 3 = some (ring1 .committed) ∧ stream1.kind = 1 ∧
    (padS stream1 .committed 0).bell.toNat < stream1.q stream1.cons.strip ∧
    stream1.q stream1.cons.strip ≤ (padS stream1 .committed (stream1.q 5)).bell.toNat ∧
    stream1.committed (ring1 .committed) 5 = true ∧ stream1.committed (ring1 .open_) 5 = false ∧ stream1.cons.strip = 5 ∧ rowReady (padS (encT none) .committed 0) 0 (encT none) = some false ∧
    encoderFree (padS (encT none) .committed 0) 0 (encT none) = true ∧ encoderFree (padS (encT (some true)) .committed 0) 0 (encT none) = false ∧
    (encT (some true)).cons.busy = some true := by decide +kernel

/-- A row of an encoder that is busy, whose READ word can be read; what place its record takes, if any, turns on the coded bytes. -/
theorem witness_TileRowPost : (encS.pad 0).stream 7 = some (encT (some false)) ∧ (encT (some false)).cons.busy = some false ∧
    ∃ d S, encS.devRead 0 0x80008 8 = (.ok d, S) ∧
      (rowPlace (encT (some false)) false S.ns (obuBytes S 0 (encT (some false)) false) (max 64 (leNat d)) = none ∨
        ∃ at_ l, rowPlace (encT (some false)) false S.ns (obuBytes S 0 (encT (some false)) false) (max 64 (leNat d)) = some (at_, l)) := by
  obtain ⟨d, S, h⟩ := devOk_iff (x := encS.devRead 0 0x80008 8) (by decide +kernel)
  refine ⟨by decide +kernel, rfl, d, S, h, ?_⟩
  rcases rowPlace (encT (some false)) false S.ns (obuBytes S 0 (encT (some false)) false) (max 64 (leNat d)) with _ | ⟨a, l⟩
  · exact .inl rfl
  · exact .inr ⟨a, l, rfl⟩

/-- An event ring of 16 entries with room and without; a trace buffer likewise, and a record that has waited too long; a tag whose copies are
done and one whose copy runs; a path to sample. -/
def evS (write : W32) : State :=
  { base with paddocks := [(0, { Paddock.reset with live := true, events := [5], evlog := 4, evwrite := write, evbase := 0x1000 })] }
def trS (write : W32) (bell : Nat) : State :=
  { base with vfs := [(0, { Vf.reset with active := true, tren := true, trlog := 7, trwrite := write, trace := [⟨9, 0, none⟩] })], bell := BitVec.ofNat 96 bell }
def tagG : Group := { loadGroup with closing := [7], copies := loadGroup.copies.wr 2 { Copy.idle with st := .running, tag := 8 } }

theorem witness_RecordsAndEvents : ((evS 0).pad 0).events = [5] ∧ 4 ≤ ((evS 0).pad 0).evlog.toNat ∧ ((evS 0).pad 0).evlog.toNat ≤ 16 ∧
    2 ^ ((evS 16).pad 0).evlog.toNat ≤ (((evS 16).pad 0).evwrite - ((evS 16).pad 0).evread).toNat ∧
    (((evS 15).pad 0).evwrite - ((evS 15).pad 0).evread).toNat < 2 ^ ((evS 15).pad 0).evlog.toNat ∧
    hostPa (((evS 15).pad 0).evbase.toNat + 32 * (((evS 15).pad 0).evwrite.toNat % 16)) 32 = some (2 ^ 51 + 0x11E0) ∧
    ((trS 0 0).vf 0).trace = [⟨9, 0, none⟩] ∧ (((trS 128 0).vf 0).trwrite - ((trS 128 0).vf 0).trread).toNat = 2 ^ 7 ∧
    (((trS 127 0).vf 0).trwrite - ((trS 127 0).vf 0).trread).toNat ≠ 2 ^ 7 ∧ (0 : W64).toNat + 10000 < (trS 0 (10001 * 2 ^ 32)).ns.toNat ∧
    (trS 0 (10000 * 2 ^ 32)).ns.toNat ≤ (0 : W64).toNat + 10000 ∧ tagG.closing.contains 7 = true ∧
    (allD.any fun d => (tagG.copies.rd d).tag == 7 && ((tagG.copies.rd d).st == .running || (tagG.copies.rd d).st == .faulted)) = false ∧
    (allD.any fun d => (tagG.copies.rd d).tag == 8 && ((tagG.copies.rd d).st == .running || (tagG.copies.rd d).st == .faulted)) = true ∧
    firstIssue { base with agenda := [.issue ⟨1, 0⟩] } 0 0 = some (⟨1, 0⟩, loadGroup, path0) ∧ firstIssue base 0 0 = none := by
  refine ⟨rfl, ?_, ?_, ?_, ?_, ?_, ?_, ?_, ?_, ?_, ?_, ?_, ?_, ?_, ?_, ?_⟩ <;> first | rfl | decide +kernel

/-- A record that a VF's tables let the trace buffer take. -/
theorem witness_TraceWrite : ∃ S, base.devWrite 0 0x80000 (natLe 32 9) = (.ok (), S) := devOk_iff' (by decide +kernel)

/-! ### The Shepherd, the Crook, the host -/

def eval1 : Eval :=
  { ev := { cls := 0, e := Bank.fill 0, ns := 0 }, slot := 0, ix := 0, h := Bank.fill 0, hist := [], cms := [], trig := [] }
def evalS : State := { State.reset with evalVf := some 0, vfs := [(0, { Vf.reset with sh := { Shepherd.reset with eval := some eval1 } })] }

theorem witness_FilterEvaluations : evalS.eval = some (0, eval1) := rfl

def offer1 : ShEvent := { cls := 2, e := Bank.fill 0, ns := 5000 }
def shS (path : Nat) : State :=
  { State.reset with vfs := [(0, { Vf.reset with active := true, sh := { Shepherd.reset with
      offers := [offer1], accepted := [offer1], maxpath := Bank.fill path, credit := 3, window := 5 } })] }

/-- An offer in the window under way that fits its credit to the last, and one that does not; an accepted event with none under evaluation; a
window that has passed. -/
theorem witness_EventsAccepted : ((shS 3).vf 0).sh.offers = [offer1] ∧
    ((shS 3).vf 0).sh.maxpath.rd (((shS 3).vf 0).sh.slotOf offer1.cls.toNat) ≤ 3 ∧ ((shS 3).vf 0).sh.accepted.length < 64 ∧
    ¬ ((shS 4).vf 0).sh.maxpath.rd (((shS 4).vf 0).sh.slotOf offer1.cls.toNat) ≤ 3 ∧ ((shS 3).vf 0).sh.accepted = [offer1] ∧
    ((shS 3).vf 0).sh.eval = none ∧ (State.reset.vf 0).sh.offers = [] ∧
    (State.reset.vf 0).sh.window ≠ { State.reset with bell := BitVec.ofNat 96 (1000 * 2 ^ 32) }.ns.toNat / 1000 ∧ (shS 3).frozen = false ∧
    ((shS 3).vfs.get 0).isSome = true := by
  refine ⟨rfl, ?_, ?_, ?_, rfl, rfl, rfl, ?_, rfl, rfl⟩ <;> decide +kernel

def shOn : State := { State.reset with negotiated := true, feat := (Bank.fill 0).wr 0 0xFFF }

/-- What SHATTACH would attach to a slot whose one word is `end`, and to one of length 0; the slot named, and another. -/
def attS (v : W64) : Shepherd :=
  { Shepherd.reset with att := v.setWidth 48 &&& 0x878787878787, len := (Bank.fill 0).wr 2 1, slots := Shepherd.reset.slots.wr 2 ((Bank.fill 0).wr 0 0x3F000000) }

theorem witness_FiltersAttach : shepherdOn State.reset = false ∧ shepherdOn shOn = true ∧
    ((List.range 6).all fun c => !(attS 0x82).attached c || slotOk (attS 0x82) ((attS 0x82).slotOf c)) = true ∧
    ((List.range 6).all fun c => !(attS 0x83).attached c || slotOk (attS 0x83) ((attS 0x83).slotOf c)) = false ∧
    (attS 0x82).names 2 = true ∧ (attS 0x82).names 3 = false ∧ (∀ i : BitVec 3, Shepherd.reset.names i = false) ∧
    2 ∈ lenSlots { win := .vf 0, off := 0x3018, wide := false, v := 1 } := by
  refine ⟨?_, ?_, ?_, ?_, ?_, ?_, ?_, ?_⟩ <;> decide +kernel

def crookTo : CrookTo := ⟨0, 5, 1, 0⟩
def heldP : Path := { path0 with st := .held }

theorem witness_CrookDebug : (∃ h g, namedGroup base crookTo = .group h g) ∧ namedGroup base { crookTo with grid := 9 } = .none ∧
    (∃ h d, namedGroup { base with groups := [], teams := [] } crookTo = .grid h d) ∧ heldP.st = .held ∧ path0.st ≠ .held ∧
    (∀ n ∈ ((small loadGroup heldP).vf 0).crook.notices, n.ref ≠ ⟨1, 0⟩) ∧ (7 : W8).toNat < 8 ∧ ¬ (8 : W8).toNat < 8 ∧
    (0x10008 : W64).toNat % 8 = 0 ∧ (0x3_00010000 : W64) &&& 0xFFFFFFFCFFFE0000 = 0 ∧ (0x3_00010000 : W64).toNat % 2 ^ 17 = 65536 ∧
    (0x3_00010000 : W64).toNat / 2 ^ 32 % 4 = 3 ∧ (0xFFFFFFFC : W64).toNat % 4 = 0 ∧ (0xFFFFFFFC : W64).toNat < 2 ^ 32 := by
  refine ⟨⟨1, loadGroup, rfl⟩, rfl, ⟨4, loadGrid, rfl⟩, rfl, ?_, ?_, ?_, ?_, ?_, ?_, ?_, ?_, ?_, ?_⟩
  · decide
  · intro n h; simp [small, State.vf, KMap.get, State.reset, Vf.reset, Crook.reset] at h
  all_goals decide +kernel

/-- Notices of a `halt` and of an earlier command, in a ring with room or without. -/
def note1 : Notice := ⟨9, ⟨1, 0⟩, false, none⟩
def noteS (write : W32) : State :=
  base.setVf 0 fun v => { v with crook := { v.crook with notices := [note1], nlog := 4, nwrite := write, nbase := 0x80000 } }

theorem witness_Notices : (postable (noteS 15) [note1])[Config.pick (noteS 15).free % (postable (noteS 15) [note1]).length]? = some note1 ∧
    ((noteS 15).vf 0).crook.notices = [note1] ∧ ((noteS 15).vf 0).crook.nlog ≠ 0 ∧
    (((noteS 15).vf 0).crook.nwrite - ((noteS 15).vf 0).crook.nread).toNat < 2 ^ 4 ∧
    2 ^ 4 ≤ (((noteS 16).vf 0).crook.nwrite - ((noteS 16).vf 0).crook.nread).toNat ∧ performedAll (noteS 15) ⟨1, 0⟩ = true ∧
    ({ note1 with order := some 3 } : Notice).before { note1 with order := some 4 } = true ∧ postable base [] = [] ∧
    (∃ S, (noteS 15).devWrite 0 (0x80000 + 32 * 15) (natLe 32 (9 + 15)) = (.ok (), S)) ∧
    (∃ S, (noteS 15).devWrite 0 0xFFFF000000000000 (natLe 32 9) = (.fail, S)) := by
  have h : postable (noteS 15) [note1] = [note1] := by decide +kernel
  refine ⟨by rw [h]; simp [Nat.mod_one], rfl, ?_, ?_, ?_, ?_, ?_, rfl, devOk_iff' ?_, devFail_iff ?_⟩ <;> decide +kernel

/-- Either source may steer, with a stream admitted and without. -/
theorem witness_Bellwether : (State.reset.src = true ↔ Steer.controller ≠ .controller) ∧ (State.reset.src = true ↔ Steer.host = .controller) ∧
    anyStream (padS stream1 .open_ 0) = true ∧ anyStream State.reset = false ∧ { State.reset with src := true }.src = true ∧
    parsePtp [] = none := by
  refine ⟨by decide, by decide, by decide +kernel, by decide +kernel, rfl, by decide +kernel⟩

theorem witness_HostRegisters : wqAt wqS 0 3 = some 9 ∧ (wqS.wq 9).en = true ∧ (wqS.wq 9).waiting = [] ∧ hasGrids base 0 = true ∧
    hasGrids State.reset 0 = false ∧ ((padS stream1 .open_ 0).pad 0).events = [] ∧ State.reset.fwen = false ∧
    { State.reset with fwen := true }.fwen = true ∧ (State.reset.vf 0).clatchValid = false := by decide +kernel

/-! ### Firmware commands -/

def tm0 : Timers := ⟨0, 0, 0, 0, 0, 0, 0, 0⟩

def fwS (k : FwCmd) : State :=
  { base with negotiated := true, feat := (Bank.fill 0).wr 0 0xFFF, fwpend := [k], fwlogn := 4, fwen := true }

def starts (i : Instr) : Bool := match fwOf i with | some k => startable (fwS k) k && (gate (fwS k) k).isNone | none => false

/-- Every command starts where the Paddock and the VF it names are there, the features are on and nothing is ahead of it. -/
theorem witness_Starts : (([.identify ⟨7, 0, true⟩ 0x1000, .negotiate ⟨7, 0, true⟩ 0 1 0 0, .patchLoad ⟨7, 0, true⟩ 0x1000 64, .attest ⟨7, 0, true⟩ 5 0x1000, .paddockSet ⟨7, 0, true⟩ 0x1000 false, .paddockRegions ⟨7, 0, true⟩ 0x1000 false,
      .lend ⟨7, 0, true⟩ 2 1, .reclaim ⟨7, 0, true⟩ 2, .s2root ⟨7, 0, true⟩ 0x1000, .s2inv ⟨7, 0, true⟩ 0 true, .resumeWalks ⟨7, 0, true⟩, .timers ⟨7, 0, true⟩ tm0, .vfActivate ⟨7, 0, true⟩ 0 1 2, .vfDeactivate ⟨7, 0, true⟩,
      .vfPool ⟨7, 0, true⟩ 7 0x200000 0x200000 0, .vfBacking ⟨7, 0, true⟩ 0x1000 1, .vfBudget ⟨7, 0, true⟩ 1 2, .vfBoost ⟨7, 0, true⟩ 2600, .vfEnd ⟨7, 0, true⟩ 0x40, .queueCreate ⟨7, 0, true⟩ 4 1 0x1000,
      .queueDestroy ⟨7, 0, true⟩ 5, .queueSet ⟨7, 0, true⟩ 5 1 true, .wqBind ⟨7, 0, true⟩ 4095 false, .migrate ⟨7, 0, true⟩ 0 0x1000, .foldRing ⟨7, 0, true⟩ 63 0, .streamAdmit ⟨7, 0, true⟩ 0x1000,
      .streamWithdraw ⟨7, 0, true⟩ 7, .headTiming ⟨7, 0, true⟩ 3 0x1000, .sharedCreate ⟨7, 0, true⟩ 0x1000 0, .sharedMap ⟨7, 0, true⟩ 0, .sharedUnmap ⟨7, 0, true⟩ 0, .sharedSeal ⟨7, 0, true⟩ 0, .domainForm ⟨7, 0, true⟩ 1 0x1000] : List Instr).all starts) = true ∧
    ∀ i, starts i = true → ∃ k, fwOf i = some k ∧ Starts i (fwS k) { fwS k with fwpend := (fwS k).fwpend.erase k } := by
  refine ⟨by decide +kernel, ?_⟩
  intro i h
  unfold starts at h
  split at h
  · rename_i k hk
    simp only [Bool.and_eq_true, Option.isNone_iff_eq_none] at h
    exact ⟨k, hk, ⟨k, hk, by simp [fwS], h.1, h.2, rfl⟩⟩
  · cases h

/-- The gates: a module that is faulted, that has not negotiated, a feature that is off, a target out of range and one that is absent. -/
theorem witness_Gates : { State.reset with faulted := true }.faulted = true ∧ State.reset.negotiated = false ∧ (4 : Nat) < (0x10 : W16).toNat ∧
    fwInfo 0x12 = some (.pad, some 8) ∧ fwInfo 0x10 = some (.pad, none) ∧ fwInfo 0x22 = some (.vf, none) ∧
    ((fwS ⟨0x22, ⟨7, 1, true⟩, []⟩).vf 1).active = false ∧ physOk 0x1000 4096 = true ∧ physOk (2 ^ 40) 1 = false ∧
    hostPa ((fwS ⟨0x22, ⟨7, 1, true⟩, []⟩).fwcbase.toNat + 16 * ((fwS ⟨0x22, ⟨7, 1, true⟩, []⟩).fwdone % 2 ^ 4)) 16 = some (2 ^ 51) := by
  refine ⟨rfl, rfl, by decide, rfl, rfl, rfl, rfl, ?_, ?_, ?_⟩ <;> decide +kernel

/-- Rings, port lists and streams that keep the manual's limits, at them. -/
def ringB : List W8 := natLe 4 1024 ++ natLe 4 (16 * 64) ++ natLe 2 64 ++ [16, 8, 2, 0, 1, 3, 0, 0] ++ natLe 2 16 ++ natLe 2 7 ++ zeros 10

theorem witness_FirmwareOnPaddocks : (parsePorts (zeros 96)).isSome = true ∧ (parsePorts (zeros 73 ++ [1] ++ zeros 22)).isSome = false ∧
    (parseRing ringB).isSome = true ∧ parseRing (natLe 32 (leNat ringB)) = parseRing ringB ∧
    portsLacking base 0 ⟨1, 0, 0, 0, 0, 0⟩ = false ∧ removalRefused base 0 ⟨1, 0, 0, 0, 0, 1⟩ = false ∧
    (base.pad 0).pend = false ∧ timersOk (Timers.after timersReset tm0) = true ∧ (streamOwns base 0 stream1 = false) := by
  refine ⟨?_, ?_, ?_, ?_, ?_, ?_, ?_, ?_, ?_⟩ <;> decide +kernel

/-! ### The host's memory, and the machine as a whole -/

theorem witness_HostMemory : hdmPieces { base with feat := (Bank.fill 0).wr 0 2, regions := [(3, { Region.none with owner := 63, host := true })] } 0 2 =
      some [(3 * 2 ^ 30, 1), (3 * 2 ^ 30 + 1, 1)] ∧ hdmPieces base 0 2 = none ∧ 2 ^ 50 < 2 ^ 50 - 1 + 2 ∧ (2 ^ 50 - 2) + 2 ≤ 2 ^ 50 ∧
    { State.reset with ecc := [5] }.eccAt 640 = true ∧ { State.reset with ecc := [2 ^ 45] }.eccAt (2 ^ 52) = true ∧
    { State.reset with soft := [5] }.soft.contains (640 / 128) = true := by
  refine ⟨?_, ?_, ?_, ?_, ?_, ?_, ?_⟩ <;> decide +kernel

/-- The loaded path may issue, and its words are fetched. -/
theorem witness_StepRunsWhatIsNext : State.reset.frozen = false ∧ evalS.eval = some (0, eval1) ∧
    mayGoOn base ⟨1, 0⟩ loadGroup path0 = true ∧ (loadGroup.live 0 || loadGroup.fifo.contains 0) = true ∧ path0.again = none ∧ path0.code = [] ∧
    leavesFetch base ⟨1, 0⟩ loadGroup path0 = false ∧ (∃ pa S, translate base 0 loadCode 8 .ex = (.ok pa, S) ∧ paClass pa ≠ 1) ∧
    earlyFault base loadGroup path0 4208265789448 = none ∧ isLong 4208265789448 = false ∧ hasLive 4208265789448 = false := by
  refine ⟨rfl, rfl, ?_, ?_, rfl, rfl, ?_, xlat_iff (by decide +kernel), ?_, ?_, ?_⟩ <;> decide +kernel

theorem witness_FrozenStaysFrozen : { State.reset with frozen := true }.frozen = true ∧
    ∃ t, step { State.reset with frozen := true } = .next t := ⟨rfl, _, rfl⟩

/-! ### Serial mode, lanes out of range, and faults of indexed accesses -/

/-- A path at the depth of its limit, which a `br` under k1 cannot split. -/
def deepP : Path := { path0 with depth := 16 }

/-- Serial mode at RS 0x10000, with the lanes of a set to come, on a lane run there and on one 16 bytes on. -/
def ser1 (todo : Mask) : Serial :=
  { p := 0, rs := 0x10000, lanes := 0xFF, next := Bank.fill 0x10008, todo := todo, rcv := none, join := none, depth := 16, base := Bank.fill 0,
    baseW := 0, sup := false, fcause := 0, fpc := 0, arr := [], npc := 0, steps := 0 }
def serG (todo : Mask) : Group := { loadGroup with ser := some (ser1 todo) }
def runP (pc : W64) : Path := { path0 with mask := 0x01, pc := pc }

/-- BranchSerializes; LaneRunsMerge: a run that goes on, one with lanes to come behind it, and the last. -/
theorem witness_SerialMode (todo : Mask) (pc : W64) : Issues (small halfG deepP) ⟨1, 0⟩ (halfG.setPath 0 deepP) deepP hk uCtl ∧
    emaskOf (halfG.setPath 0 deepP) deepP hk ≠ 0 ∧ emaskOf (halfG.setPath 0 deepP) deepP hk ≠ deepP.mask ∧
    (halfG.setPath 0 deepP).ser = none ∧ 16 ≤ deepP.depth ∧
    Issues (small (serG todo) (runP pc)) ⟨1, 0⟩ ((serG todo).setPath 0 (runP pc)) (runP pc) hd uCtl ∧
    ((serG todo).setPath 0 (runP pc)).ser = some (ser1 todo) ∧ (ser1 todo).p = 0 ∧ (ser1 todo).sup = (runP pc).sup ∧ (runP pc).hold = false ∧
    (ser1 todo).rs ≠ (runP 0x10010).pc ∧ (ser1 todo).rs = (runP 0x10000).pc ∧ (ser1 0xFE).todo ≠ 0 ∧ (ser1 0).todo = 0 :=
  ⟨small_issues halfG deepP hk uCtl rfl (by decide) (by decide) (by decide) rfl rfl rfl, by decide, by decide, rfl, by decide,
    small_issues (serG todo) (runP pc) hd uCtl rfl (by intro h; cases h) (Nat.le_refl 256) (Nat.le_refl 8) rfl rfl rfl, rfl, rfl, rfl, rfl, by show (0x10000 : W64) ≠ 0x10010; decide, rfl,
    by decide, rfl⟩

/-- The eight lanes at 4092 and on, of which lane 0 alone is inside the team's shared memory; and a scalar at its end. -/
def edgeG : Group := { loadGroup with v := loadGroup.v.wr 10 (Bank.gen fun l => BitVec.ofNat 32 (4092 + 4 * l.toNat)) }
def edgeP : Path := { path0 with s := path0.s.wr 1 4096 }
def edgeS : State := small edgeG edgeP
def edgeC (u : Uses) : Cx := cxOf edgeS ⟨1, 0⟩ (edgeG.setPath 0 edgeP) edgeP hd u
def edgeI (u : Uses) : State := issuedSt edgeS ⟨1, 0⟩ (edgeG.setPath 0 edgeP) edgeP hd u
def vmem1 : VLd := ⟨.w, .s, .rlx, .path, false, 20, .vec 10, 0⟩
def smem1 : SLd := ⟨.w, .s, .rlx, .path, false, 3, 1, 0⟩

theorem checked {c : Cx} {s : State} {whole : Option Mask} {sp : Space} {z : Nat} {k : Acc} {rd wr : Bool} {qs : List (Lane × W64)} {off : Mask}
    (h : okAnd (check c s whole sp z z k rd wr qs) (fun l => l.at_.all isHere && l.off == off) = true) :
    ∃ l, check c s whole sp z z k rd wr qs = .ok l ∧ (∀ x ∈ l.at_, ∃ ls, x.2 = .here ls) ∧ l.off = off := by
  obtain ⟨l, hl, hp⟩ := okAnd_iff h
  simp only [Bool.and_eq_true, beq_iff_eq] at hp
  exact ⟨l, hl, allHere hp.1, hp.2⟩

theorem witness_LanesOutOfRange (u : Uses) (hu : u.priv = false) : Issues edgeS ⟨1, 0⟩ (edgeG.setPath 0 edgeP) edgeP hd u ∧ edgeP.hold = false ∧
    edgeG.ser = none ∧ edgeP.entry = none ∧ (∀ j, edgeG.joins.rd j = none) ∧ edgeP.mask &&& ~~~(0xFE : Mask) ≠ 0 ∧
    (∃ l, check (edgeC (uVLd vmem1)) (edgeI (uVLd vmem1)) none .s 4 4 .rd true false
        (addrs (edgeC (uVLd vmem1)) .s 4 (.vec 10) 0) = .ok l ∧ (∀ x ∈ l.at_, ∃ ls, x.2 = .here ls) ∧ l.off = 0xFE) ∧
    ∃ l, check (edgeC (uSLd smem1)) (edgeI (uSLd smem1)) (some 0xFF) .s 4 4 .rd true false
        [(0, edgeP.getS 1 + (0 : BitVec 32).signExtend 64)] = .ok l ∧ (∀ x ∈ l.at_, ∃ ls, x.2 = .here ls) ∧ l.off = 0x01 :=
  ⟨small_issues edgeG edgeP hd u rfl (by simp [hu]) (by decide) (by decide) rfl rfl rfl, rfl, rfl, rfl, by decide, by decide,
    checked (by decide +kernel), checked (by decide +kernel)⟩

def kspP (n : W64) : Path := { path0 with s := path0.s.wr 61 n }

/-- An index beyond its block in every lane; a ksp that is no multiple of 4; and one behind which no register fits. -/
theorem witness_IndexAndSpillFaults : (∀ l n, ¬ IndexNames indexG ⟨.none, 4, 2, 1⟩ l n) ∧ (emaskOf indexG path0 hd) ≠ 0 ∧
    (kspP 2).getS 61 &&& 3 ≠ 0 ∧ (kspP 4096).getS 61 &&& 3 = 0 ∧
    (spillSize (cx hd (uSpill spill1)) base : Int) < spillOffset spill1 true (kspP 4096) + 4 * (spill1.nm1.toNat + 1) := by
  refine ⟨?_, by decide, by decide, by decide, by decide⟩
  rintro l n ⟨-, h, -⟩
  have hx : (indexG.x.rd 2).rd l = 0x10100F := by simp [indexG, Bank.rd, Bank.wr, Bank.fill]
  rw [hx] at h
  exact absurd h (by decide)

/-- MatrixOperations: a path that lacks a lane. -/
theorem witness_PartialMatrix : ({ path0 with mask := 0x7F } : Path).mask ≠ 0xFF := by decide

/-- A Sync of two steps of the port that the module follows, over Ethernet, and its follow-up (BellwetherCounts). -/
def frame1 (kind : W8) : List W8 := zeros 12 ++ [0x88, 0xF7, kind, 2] ++ zeros 4 ++ [2] ++ zeros 37
def ptpS : State := { State.reset with src := true, ptp := { Ptp.reset with parent := zeros 10, sync := some (0, 5) } }

theorem witness_PortMessages : ptpS.src = true ∧ (∃ m, parsePtp (frame1 0) = some m ∧ m.kind = 0 ∧ ptpS.ptp.parent = m.src ∧ m.twoStep = true) ∧
    ∃ m, parsePtp (frame1 8) = some m ∧ m.kind = 8 ∧ ptpS.ptp.parent = m.src ∧ ptpS.ptp.sync = some (m.seq, 5) := by
  refine ⟨rfl, ?_, ?_⟩
  · have h : ((parsePtp (frame1 0)).any fun m => m.kind == 0 && m.src == zeros 10 && m.twoStep) = true := by decide +kernel
    obtain ⟨m, hm, h⟩ := Option.any_eq_true _ _ |>.mp h
    simp only [Bool.and_eq_true, beq_iff_eq] at h
    exact ⟨m, hm, h.1.1, h.1.2.symm, h.2⟩
  · have h : ((parsePtp (frame1 8)).any fun m => m.kind == 8 && m.src == zeros 10 && m.seq == 0) = true := by decide +kernel
    obtain ⟨m, hm, h⟩ := Option.any_eq_true _ _ |>.mp h
    simp only [Bool.and_eq_true, beq_iff_eq] at h
    exact ⟨m, hm, h.1.1, h.1.2.symm, by rw [h.2]; rfl⟩

/-- FirmwareOnModule, FirmwareOnPaddocks: memory that no operation owns and memory that one does; accesses under way and none. -/
theorem witness_CommandsWait : owned base none [(0x80000, 96)] = false ∧ owned ownS none [(0x80000, 96)] = true ∧
    holding base (fun _ => true) Loc.isPhys = false ∧ holding heldS (fun _ => true) Loc.isPhys = true := by
  refine ⟨?_, ?_, ?_, ?_⟩ <;> decide +kernel

/-! ### Special results, indirect splits, handles, waits and orders -/

/-- ApproximationCases: an encoding of each kind and value that a clause names. -/
theorem witness_ApproximationCases : unpack .f32 0x7FC00000 = .nan ∧ unpack .f32 0xFF800000 = .inf true ∧ unpack .f32 0x80000000 = .fin true 0 (-149) ∧
    unpack .f32 0xBF800001 = .fin true (2 ^ 23 + 1) (-23) ∧ unpack .f32 0x40800000 = .fin false (2 ^ 23) (-21) ∧
    unpack .f32 1 = .fin false (2 ^ 0) (-149) ∧ 127 < -(0 + -149 : Int) ∧ (23 + -21 : Int) = 2 * 1 ∧
    (⟨128, 0⟩ : Dy).le (unpack .f32 0x43000000).dy = true ∧ (unpack .f32 0xC3160000).dy.le ⟨-150, 0⟩ = true ∧
    (unpack .f32 0xC3150000).dy.eq (.ofInt (-149)) = true ∧ (unpack .f32 0x40200000).dy.eq ⟨2 * 2 + 1, -1⟩ = true ∧
    unpack .f32 0x3FA00000 = .fin false 0xA00000 (-23) ∧ 0xA00000 ≠ 2 ^ (0xA00000 : Nat).log2 ∧
    (unpack .f32 0x3FA00000).dy.eq (.ofInt 1) = false ∧ (unpack .f32 0x3FA00000).dy.eq ⟨2 * 1 + 1, -1⟩ = false := by
  refine ⟨?_, ?_, ?_, ?_, ?_, ?_, ?_, ?_, ?_, ?_, ?_, ?_, ?_, ?_, ?_, ?_⟩ <;> decide +kernel

/-- A `brx` whose lane 1 goes to 8 and whose others go to 0, on a path that may split and on one at the depth of its limit. -/
def brxG : Group := { loadGroup with v := loadGroup.v.wr 10 ((Bank.fill 0).wr 1 8) }

theorem witness_IndirectSplits (p : Path) (h : p = path0 ∨ p = deepP) :
    Issues (small brxG p) ⟨1, 0⟩ (brxG.setPath 0 p) p hd (uBrx ⟨10, 0⟩) ∧ (∀ l, (brxG.setPath 0 p).pair 10 l &&& 7 = 0) ∧
    (brxG.setPath 0 p).ser = none ∧ brxDest (brxG.setPath 0 p) p hd ⟨10, 0⟩ 0 = 0 ∧ brxDest (brxG.setPath 0 p) p hd ⟨10, 0⟩ 1 = 8 ∧
    (brxG.setPath 0 p).freeJoin = some 0 ∧ (brxG.setPath 0 p).freeEntries.length = 7 ∧ path0.depth < 16 ∧ 16 ≤ deepP.depth := by
  rcases h with rfl | rfl
  · exact ⟨small_issues brxG path0 hd _ rfl (by intro h; cases h) (by decide) (by decide) rfl rfl rfl, by decide +kernel, rfl, by decide +kernel,
      by decide +kernel, by decide +kernel, by decide +kernel, by decide, by decide⟩
  · exact ⟨small_issues brxG deepP hd _ rfl (by intro h; cases h) (by decide) (by decide) rfl rfl rfl, by decide +kernel, rfl, by decide +kernel,
      by decide +kernel, by decide +kernel, by decide +kernel, by decide, by decide⟩

/-- HandleChecks: no handle at all, a handle without rights, and one of the domain that names this module's queue. -/
theorem witness_HandleChecks : handleAt (queueS 3 0) 0 0 = .bad ∧ handleAt (queueS 3 0) 0 (handle1 0) = .here 16383 ∧
    (∀ i ∈ [26, 27, 28], (handle1 0).getLsbD i = false) ∧
    handleAt { queueS 3 0 with modnum := some 2, bindings := [(0, 2, 0)] } 0 (handle1 7 ||| 0x1020000) = .here 16383 ∧
    (handle1 7 ||| 0x1020000).getLsbD 24 = true := by
  refine ⟨?_, ?_, ?_, ?_, ?_⟩ <;> decide +kernel

/-- A word of the Fold, and one of shared memory, with an error that its code corrects or not. -/
def sramS (l : Loc) (hard : Bool) : State := { padS stream1 .committed 0 with sram := [⟨.word l, hard⟩] }

/-- MatrixCompletions, HeadsAndEncoders: a word that is read with no error, with one that is corrected, and with one that is not. -/
theorem witness_SramMeets : (sramLocs base 0 [(.team 2 0, 8)]).1 = none ∧ (sramLocs (sramS (.team 2 0) false) 0 [(.team 2 4, 4)]).1 = none ∧
    (sramLocs (sramS (.team 2 0) true) 0 [(.team 2 4, 4)]).1 = some 0x40 ∧
    (slotMeets (padS stream1 .committed 0) 0 0 (ring1 .committed) 1 1).1 = none := by
  refine ⟨?_, ?_, ?_, ?_⟩ <;> decide +kernel

/-- TeamsExit, TeamsLeaveCores: a page that waits for the host. -/
theorem witness_RecordsWait : ∃ S, hostS.devWrite 0 0x40000000 (natLe 32 9) = (.wait, S) := devWait_iff (by decide +kernel)

/-- PagesMoveAndAge: the leaf of the loaded tables, owned by an engine operation. -/
def leafS : State := { base with groups := [(1, { loadGroup with copies := loadGroup.copies.wr 1 { outCopy with lines := [(0, 0x3000, 8)] } })] }

theorem witness_LeafOwned : owned leafS none [(0x3000, 8)] = true ∧ owned base none [(0x3000, 8)] = false ∧
    owned leafS none ((localLeaves leafS 0).map fun l : Nat × PLeaf => (l.2.entry, 8)) = true ∧
    owned base none ((localLeaves base 0).map fun l : Nat × PLeaf => (l.2.entry, 8)) = false := by
  refine ⟨?_, ?_, ?_, ?_⟩ <;> decide +kernel

/-- CrookDebug: a group that is armed and one that is not; a watchpoint's offset that is no multiple of 4. -/
theorem witness_CrookSteps : { loadGroup with stepArm := true }.stepArm = true ∧ loadGroup.stepArm = false ∧ (6 : W64).toNat % 4 ≠ 0 := by decide

/-- FirmwareRing: a completion whose place an engine operation owns; one command behind itself. -/
def cplS : State :=
  { fwS ⟨0x22, ⟨7, 1, true⟩, []⟩ with groups := [(1, { loadGroup with copies := loadGroup.copies.wr 1 { outCopy with lines := [(0, 2 ^ 51, 16)] } })] }

theorem witness_FirmwareRing : hostOwned cplS (cplS.fwcbase.toNat + 16 * (cplS.fwdone % 2 ^ cplS.fwlogn.toNat)) 16 = true ∧
    hostOwned (fwS ⟨0x22, ⟨7, 1, true⟩, []⟩) 0 16 = false ∧ startable (fwS ⟨0x22, ⟨7, 1, true⟩, []⟩) ⟨0x22, ⟨7, 1, true⟩, []⟩ = true ∧
    startable base ⟨0x22, ⟨7, 1, true⟩, []⟩ = false := by
  refine ⟨?_, ?_, ?_, ?_⟩ <;> decide +kernel

/-- FirmwareOnPaddocks: cores that may be lent, and one with a team; records of kernels that wait for the host. -/
theorem witness_Lends : bitsOf (2 : BitVec 192) = [1] ∧ coreTeams base 0 ≠ [] ∧ coreTeams base 1 = [] ∧ streamNames base 0 1 = false ∧
    streamNames (padS stream1 .open_ 0) 0 0 = true ∧ (∃ S, readAllKernels hostS 0 0 [0x40000000] = (.wait, S)) ∧
    ∃ S, readAllKernels base 0 0 [0xFFFF000000000000] = (.fail, S) :=
  ⟨by decide +kernel, by decide +kernel, by decide +kernel, by decide +kernel, by decide +kernel, devWait_iff (by decide +kernel),
    devFail_iff (by decide +kernel)⟩

/-- HostMemory: no access of the host waits, and one does. -/
theorem witness_HostWaits : base.inbox.any Action.isHost = false ∧ { base with inbox := [.host [(2 ^ 51, 8)] none] }.inbox.any Action.isHost = true :=
  ⟨rfl, rfl⟩

/-- StepRunsWhatIsNext: a path that waits for its words is held; one has its handler's frame to write; one has issued. -/
def fetchP : Path := { path0 with st := .remote (RemoteWait.first []), hold := true }

theorem witness_PathsGoOn : leavesFetch base ⟨1, 0⟩ loadGroup fetchP = true ∧
    leavesFetch base ⟨1, 0⟩ loadGroup { path0 with atFrame := some (.back true false none) } = false ∧
    leavesFetch base ⟨1, 0⟩ loadGroup { path0 with again := some (.exit hd, false) } = false ∧ { path0 with mask := 0 }.mask = 0 := by
  refine ⟨?_, ?_, ?_, rfl⟩ <;> decide +kernel

/-! ### Words of the manual: each word and its instruction stand in the manual's own examples (the tables of words of chapters 02 to 08 and of
the programs of 09 to 21) -/

theorem test_decodeControl :
    decodeTableWord 64 0x158 = some (.exit hd) ∧
    decodeTableWord 128 0x6000080000000000000008109 = some (.br { hd with long := true, pk := 1 } { toff := 6, roff := 8 }) ∧
    decodeTableWord 128 0xffffffff000000000000000000098101 = some (.bru { hd with long := true, pk := 3, pn := true } 0xffffffff) ∧
    decodeTableWord 128 0x4000000000000000000000119 = some (.jmp { hd with long := true } 4) ∧
    decodeTableWord 64 0x148 = some (.rcv hd) ∧
    decodeTableWord 64 0x1e0000111 = some (.brx { hd with long := true } { a := 30, roff := 0 }) := by
  decide +kernel

theorem test_decodeScalar :
    decodeTableWord 64 0x8 = some (.sadd hd { sat := false, d := 0, a := 0, b := .reg 0 }) ∧
    decodeTableWord 64 0x18000030300008 = some (.sadd hd { sat := false, d := 3, a := 3, b := .imm 1 }) ∧
    decodeTableWord 64 0xf80000004000c0 = some (.smov hd { d := 4, a := .imm 15 }) := by
  decide +kernel

theorem test_decodePredicate :
    decodeTableWord 64 0x40100170 = some (.kset hd { d := 1, a := 4 }) ∧
    decodeTableWord 64 0x200010800168 = some (.kcount hd { d := 8, a := 1 }) ∧
    decodeTableWord 64 0x41000301002b8 = some (.vcmp hd { cc := .ne, d := 1, a := { r := 3, p := .id }, b := .imm 0 }) ∧
    decodeTableWord 64 0xfff40000d01002b8 = some (.vcmp hd { cc := .eq, d := 1, a := { r := 13, p := .id }, b := .imm 0xffffffff }) := by
  decide +kernel

theorem test_decodeLane :
    decodeTableWord 128 0x6400000004030510201 = some (.vadd { hd with long := true, pk := 2 } { w := .w32, u := false, sat := false, half := .whole, d := 5, a := { r := 3, p := .id }, b := .reg { r := 4, p := .bf 1 } }) ∧
    decodeTableWord 128 0x100000000009001000200201 = some (.vadd { hd with long := true } { w := .h2, u := true, sat := true, half := .whole, d := 2, a := { r := 0, p := .id }, b := .reg { r := 1, p := .id } }) ∧
    decodeTableWord 64 0x1002010300200 = some (.vadd hd { w := .h2, u := false, sat := false, half := .whole, d := 3, a := { r := 1, p := .id }, b := .reg { r := 2, p := .id } }) ∧
    decodeTableWord 64 0x801b200e00228 = some (.vaddw hd { u := true, d := 14, a := { r := 32, p := .id }, b := .reg { r := 27, p := .id } }) ∧
    decodeTableWord 64 0x230000306003a8 = some (.vcvt hd { dst := .e4m3, src := .f32, rnd := .mode (.rne), sat := false, d := 6, a := { r := 3, p := .id }, ds := 2, ss := 0 }) ∧
    decodeTableWord 64 0x110001114003a8 = some (.vcvt hd { dst := .f16, src := .f32, rnd := .mode (.rne), sat := false, d := 20, a := { r := 17, p := .id }, ds := 1, ss := 0 }) ∧
    decodeTableWord 64 0x9000102092f8 = some (.vscan { hd with la := 2, pk := 1 } { op := .xadd, u := false, d := 2, a := { r := 1, p := .id } }) ∧
    decodeTableWord 64 0x151616002e8 = some (.vperm hd { d := 22, a := .lane 22, b := { r := 21, p := .id } }) := by
  decide +kernel

theorem test_decodeMemory :
    decodeTableWord 64 0x100200020400400 = some (.vld hd { z := .w, sp := .g, ord := .rlx, scope := .path, sx := false, d := 4, addr := .vec 2, off := 16 }) ∧
    decodeTableWord 128 0x400000000000201020200401 = some (.vld { hd with long := true } { z := .w, sp := .g, ord := .rlx, scope := .path, sx := false, d := 2, addr := .scaled 2 1, off := 0 }) ∧
    decodeTableWord 64 0xa00010700408 = some (.vst hd { z := .w, sp := .s, ord := .rlx, scope := .path, d := 7, addr := .vec 1, off := 0 }) ∧
    decodeTableWord 64 0xa80300010300180 = some (.sld hd { z := .d, sp := .g, ord := .rlx, scope := .path, sx := false, d := 3, a := 1, off := 168 }) ∧
    decodeTableWord 64 0xa80300010300188 = some (.sst hd { z := .d, sp := .g, ord := .rlx, scope := .path, d := 3, a := 1, off := 168 }) ∧
    decodeTableWord 128 0x1c4080000000009a00001700189 = some (.sst { hd with long := true } { z := .w, sp := .p, ord := .rel, scope := .team, d := 23, a := 0, off := 452 }) ∧
    decodeTableWord 128 0x810000000000c206020500411 = some (.vatom { hd with long := true } { op := .add, z := .w, sp := .g, ord := .ar, scope := .module, d := 5, a := 2, off := 8, b := 6 }) ∧
    decodeTableWord 64 0xa02010301410 = some (.vatom { hd with la := 2 } { op := .add, z := .w, sp := .s, ord := .rlx, scope := .path, d := 3, a := 1, off := 0, b := 2 }) ∧
    decodeTableWord 64 0x1a11101208410 = some (.vatom { hd with pk := 1 } { op := .add, z := .w, sp := .p, ord := .rlx, scope := .path, d := 18, a := 16, off := 0, b := 17 }) ∧
    decodeTableWord 128 0x202180000000000000000000429 = some (.fence { hd with long := true } { scope := .system, pred := 2, succ := 2 }) ∧
    decodeTableWord 128 0x120040000000000000000000429 = some (.fence { hd with long := true } { scope := .group, pred := 32, succ := 1 }) ∧
    decodeTableWord 128 0x41000000000000000100000000449 = some (.xset { hd with long := true } (.imm 0 266240)) ∧
    decodeTableWord 64 0x100000008440 = some (.vwrx { hd with pk := 1 } { step := .inc, d := 0, x := 0, off := 0 }) ∧
    decodeTableWord 64 0x200000d00438 = some (.vrdx hd { step := .dec, d := 13, x := 0, off := 0 }) := by
  decide +kernel

theorem test_decodeEngines :
    decodeTableWord 64 0x210000100500 = some (.mma hd { t := .bf16, d := 1, a := 0, b := 16 }) ∧
    decodeTableWord 128 0x2002000000000530200200501 = some (.mma { hd with long := true } { t := .fp4 8 true, d := 2, a := 32, b := 48 }) ∧
    decodeTableWord 64 0x140200000500 = some (.mma hd { t := .f16, d := 0, a := 32, b := 64 }) ∧
    decodeTableWord 128 0x80000000000100e0f0000521 = some (.mst { hd with long := true } { sp := .s, t := 0, a := 15, off := 0, b := 14, bar := some (.team 0) }) ∧
    decodeTableWord 128 0x1800400000000010060000599 = some (.tcopy { hd with long := true } { dir := .g2s, d := 0, a := 6, b := 16, bar := some (.team 1), tag := 1 }) ∧
    decodeTableWord 64 0x5a8 = some (.tresume hd 0) ∧
    decodeTableWord 64 0x15005b8 = some (.barr hd { d := 21, bar := 0, n := 0 }) ∧
    decodeTableWord 64 0x150003005c0 = some (.btry hd { d := 3, bar := 0, b := 21 }) ∧
    decodeTableWord 64 0xe000800600 = some (.rbox4 hd { d := 8, a := 0, b := 14 }) ∧
    decodeTableWord 64 0xe001000608 = some (.rtri hd { d := 16, a := 0, b := 14 }) ∧
    decodeTableWord 64 0xd05040600610 = some (.pairs hd { kp := 3, a := 4, b := 5, d := 6, q := 1 }) ∧
    decodeTableWord 64 0x2100000300648 = some (.qdeq hd { kp := 1, ke := 2, d := 3, q := 0 }) ∧
    decodeTableWord 64 0x658 = some (.qeos hd 0) ∧
    decodeTableWord 64 0x181900628 = some (.scommit hd { d := 25, a := 24 }) := by
  decide +kernel

theorem test_decodeSystem :
    decodeTableWord 64 0x850000000000680 = some (.trap hd 133) ∧
    decodeTableWord 64 0x698 = some (.sret hd) ∧
    decodeTableWord 64 0x690 = some (.fret hd false) ∧
    decodeTableWord 64 0x40305006d8 = some (.pgmap hd { z := .p4k, d := 5, a := 3, b := 4 }) ∧
    decodeTableWord 64 0xf0000000b006a0 = some (.crd hd (.scalar (.srate) 11)) ∧
    decodeTableWord 64 0x1700006d0 = some (.tstamp hd 23) := by
  decide +kernel

theorem test_decodeIllegal :
    decodeTableWord 64 0xffffffffffffffff = none ∧
    decodeTableWord 64 0x0 = none ∧
    decodeTableWord 64 0x3020100b00 = none ∧
    decodeTableWord 64 0x3020108008 = none ∧
    decodeTableWord 128 0x8c00000004030510201 = none := by
  decide +kernel

/-- The eight words of the filter at the end of chapter 22. -/
theorem test_decodeFilter :
    decodeTableWord 32 0x01100004 = some (.shLdf 1 4) ∧
    decodeTableWord 32 0x0E210008 = some (.shShr 2 1 8) ∧
    decodeTableWord 32 0x28020000 = some (.shHist 0 2) ∧
    decodeTableWord 32 0x02300BB8 = some (.shLdi 3 3000) ∧
    decodeTableWord 32 0x11430001 = some (.shCltu 4 3 1) ∧
    decodeTableWord 32 0x18040200 = some (.shBz 4 2) ∧
    decodeTableWord 32 0x30010007 = some (.shTrig 1 7) ∧
    decodeTableWord 32 0x3F000000 = some .shEnd := by
  decide +kernel

/-! ### Ill-formed terms -/

def hl : Hdr := { hd with long := true }
def r1 : VSrc := ⟨1, .id⟩
def rp : VSrc := ⟨1, .rot 1⟩

/-- Every instruction of a list is refused by the check. -/
def refuses (l : List Instr) : Bool := l.all fun i => !i.wf

/-- Check 3 (the form an opcode admits), 5 (LA), 7 (PK and PN), 8 (bits of the live word), whatever the operands. -/
theorem test_wfHeader : refuses [.exit hl, .jmp hd 0, .sli hd ⟨1, 0⟩, .vmad hd ⟨.w32, false, false, .whole, 1, r1, r1, r1⟩, .fence hd ⟨.team, 1, 1⟩,
    .vfma hd ⟨.mode .rne, 1, r1, r1, r1⟩, .sadd { hd with la := 1 } ⟨false, 0, 0, .reg 0⟩, .vadd { hd with la := 3 } ⟨.w32, false, false, .whole, 1, r1, .reg r1⟩,
    .sadd { hd with pk := 1 } ⟨false, 0, 0, .reg 0⟩, .sadd { hd with pn := true } ⟨false, 0, 0, .reg 0⟩, .vtos { hd with pk := 2 } ⟨false, 0, r1, 0⟩,
    .crd { hd with pk := 1 } (.scalar .gid 0), .cwr { hd with pk := 1 } (.scalar .smask 0), .exit { hd with live := some 0x8000000000000000 }] = true := by
  decide +kernel

/-- The short form holds neither the modifiers nor the immediates of the long one (02 R52). -/
theorem test_wfShort : refuses [.sadd hd ⟨true, 0, 0, .reg 0⟩, .ssub hd ⟨false, 0, 0, .imm 3000⟩, .smul hd ⟨0, 0, .imm 0x1000⟩, .saddi hd ⟨0, 5000⟩,
    .scmp hd ⟨.eq, 0, 0, .imm 4096⟩, .smov hd ⟨0, .imm 4096⟩, .sfadd hd ⟨.f32, .rtz, 0, 0, 0⟩, .sfcvt hd ⟨.int32, .f32, .rtz, false, 0, 0⟩,
    .vadd hd ⟨.h2, false, false, .lo, 1, r1, .reg r1⟩, .vmulh hd ⟨.w32, false, .whole, 1, rp, .reg r1⟩, .vand hd ⟨1, r1, .reg rp⟩,
    .vshl hd ⟨.h2, .hi, 1, r1, .reg r1⟩, .vsel hd ⟨.w32, .whole, 1, rp, .reg r1⟩, .vabs hd ⟨.w32, true, .whole, 1, r1⟩,
    .vclz hd ⟨.w32, .whole, 1, rp⟩, .vbfx hd ⟨false, 1, rp, 0, 0⟩, .vbfi hd ⟨1, rp, 0, 0⟩, .vcmp hd ⟨.eq, 1, rp, .reg r1⟩,
    .vaddw hd ⟨false, 2, ⟨4, .rot 1⟩, .reg r1⟩, .vmulw hd ⟨false, 2, rp, .reg r1⟩, .vmov hd ⟨1, .reg rp⟩] = true := by
  decide +kernel

theorem test_wfShortMore : refuses [.vtos hd ⟨false, 0, rp, 0⟩, .vperm hd ⟨1, .lane 1, rp⟩, .vred hd ⟨.iadd, false, 1, rp⟩, .vscan hd ⟨.iadd, false, 1, rp⟩,
    .vfadd hd ⟨.sr, 1, r1, r1⟩, .vfmin hd ⟨1, rp, r1⟩, .vfcmp hd ⟨.eq, 1, rp, r1⟩, .vfrcp hd ⟨1, rp⟩, .vfrnd hd ⟨.rtz, 1, r1⟩,
    .vhadd hd ⟨.f16, .sr, .whole, 1, r1, r1⟩, .vdot2 hd ⟨.f16, .sr, 1, r1, r1⟩, .vdot4 hd ⟨false, true, 1, r1, r1⟩, .vcvt hd ⟨.f32, .f16, .mode .rne, true, 1, r1, 0, 0⟩,
    .vld hd ⟨.w, .s, .rlx, .team, false, 1, .vec 1, 0⟩, .vst hd ⟨.w, .s, .rlx, .team, 1, .vec 1, 0⟩, .sld hd ⟨.w, .s, .rlx, .path, false, 1, 1, 4096⟩,
    .sst hd ⟨.w, .s, .rlx, .module, 1, 1, 0⟩, .vatom hd ⟨.xor, .w, .s, .rlx, .path, 1, 1, 0, 1⟩, .satom hd ⟨.add, .w, .s, .rlx, .path, 1, 1, 4096, 1⟩,
    .vprefetch hd ⟨true, .w, .vec 2, 0⟩, .waita hd ⟨.w, .s, .rlx, .team, 1, 1, 0, 1⟩, .xset hd (.imm 0 4096), .spill hd ⟨false, 1, 0, 4096⟩] = true := by
  decide +kernel

theorem test_wfShortEngines : refuses [.mst hd ⟨.s, 0, 1, 0, 1, some (.team 0)⟩, .dld hd ⟨.s, 0, 1, 4096⟩, .dset hd ⟨.base, 0, .imm 4096⟩,
    .tcopy hd ⟨.g2s, 0, 1, 2, none, 4096⟩, .binit hd ⟨.team 0, .imm 4096⟩, .barr hd ⟨1, 0, 4096⟩, .cbarr hd ⟨1, 0, 4096⟩] = true := by
  decide +kernel

/-- Check 4: values of FN that are reserved. -/
theorem test_wfFn : refuses [.sfcvt hd ⟨.f32, .f32, .rne, false, 0, 0⟩, .vadd hl ⟨.w32, true, false, .whole, 1, r1, .reg r1⟩,
    .vmad hl ⟨.w32, true, false, .whole, 1, r1, r1, r1⟩, .vred hd ⟨.xadd, false, 1, r1⟩, .vred hd ⟨.iadd, true, 1, r1⟩, .vscan hd ⟨.fadd, true, 1, r1⟩,
    .vcvt hd ⟨.f32, .f32, .mode .rne, false, 1, r1, 0, 0⟩, .vcvt hd ⟨.e2m1, .int8, .mode .rne, false, 1, r1, 0, 0⟩,
    .vld hl ⟨.w, .s, .rel, .team, false, 1, .vec 1, 0⟩, .vld hl ⟨.w, .k, .acq, .path, false, 1, .vec 1, 0⟩, .vst hl ⟨.w, .s, .acq, .team, 1, .vec 1, 0⟩,
    .sld hd ⟨.q, .s, .rlx, .path, false, 1, 1, 0⟩, .sld hd ⟨.w, .k, .rlx, .path, false, 1, 1, 0⟩, .sst hd ⟨.q, .s, .rlx, .path, 1, 1, 0⟩,
    .vatom hd ⟨.add, .b, .s, .rlx, .path, 1, 1, 0, 1⟩, .satom hd ⟨.add, .w, .f, .rlx, .path, 1, 1, 0, 1⟩, .vcas hl ⟨.h, .s, .rlx, .path, 1, 1, 0, 1, 1⟩,
    .scas hl ⟨.w, .k, .rlx, .path, 1, 1, 0, 1, 1⟩, .waita hd ⟨.w, .s, .rel, .path, 1, 1, 0, 1⟩, .mma hd ⟨.fp4 8 true, 1, 0, 16⟩] = true := by
  decide +kernel

/-- Check 6: fields out of range. -/
theorem test_wfFields : refuses [.sshl hd ⟨0, 0, .imm 64⟩, .sfcvt hl ⟨.int32, .f32, .rne, true, 0, 0⟩, .vadd hl ⟨.w32, false, false, .lo, 1, r1, .reg r1⟩,
    .vmulh hl ⟨.w32, false, .hi, 1, r1, .reg r1⟩, .vmad hl ⟨.w32, false, false, .hi, 1, r1, r1, r1⟩, .vsel hl ⟨.w32, .lo, 1, r1, .reg r1⟩,
    .vshl hd ⟨.h2, .whole, 1, r1, .imm 16⟩, .vabs hl ⟨.w32, false, .lo, 1, r1⟩, .vclz hl ⟨.w32, .lo, 1, r1⟩, .vli hl ⟨.lo, 1, 65536⟩,
    .vcvt hd ⟨.f16, .f32, .mode .rne, false, 1, r1, 2, 0⟩, .vcvt hd ⟨.f32, .f16, .mode .rne, false, 1, r1, 0, 2⟩,
    .vcvt hl ⟨.int8, .f32, .sr, false, 1, r1, 0, 0⟩, .vcvt hl ⟨.int8, .int32, .mode .rtz, false, 1, r1, 0, 0⟩, .vcvt hl ⟨.int8, .f32, .mode .rne, true, 1, r1, 0, 0⟩,
    .vld hl ⟨.w, .k, .rlx, .team, false, 1, .vec 1, 0⟩, .vld hl ⟨.w, .s, .rlx, .path, true, 1, .vec 1, 0⟩, .vst hl ⟨.w, .k, .rlx, .team, 1, .vec 1, 0⟩,
    .sld hl ⟨.d, .s, .rlx, .path, true, 1, 1, 0⟩, .vatom hl ⟨.fadd, .d, .s, .rlx, .path, 2, 2, 0, 2⟩, .satom hl ⟨.fmin, .d, .s, .rlx, .path, 2, 2, 0, 2⟩,
    .spill hd ⟨false, 1, 0, 2⟩, .vgrow hd 0, .vshrink hd 0] = true := by
  decide +kernel

/-- Check 9: pairs, blocks and the two predicates of a dequeue. -/
theorem test_wfShapes : refuses [.brx hl ⟨1, 0⟩, .jmpv hd 3, .vaddw hd ⟨false, 3, ⟨4, .id⟩, .reg r1⟩, .vaddw hd ⟨false, 2, r1, .reg r1⟩, .vmulw hd ⟨false, 3, r1, .reg r1⟩,
    .vld hd ⟨.d, .s, .rlx, .path, false, 1, .vec 1, 0⟩, .vld hd ⟨.q, .s, .rlx, .path, false, 2, .vec 1, 0⟩, .vld hd ⟨.w, .g, .rlx, .path, false, 2, .vec 1, 0⟩,
    .vst hd ⟨.d, .s, .rlx, .path, 1, .vec 1, 0⟩, .vatom hd ⟨.add, .d, .s, .rlx, .path, 1, 1, 0, 2⟩, .vcas hl ⟨.d, .s, .rlx, .path, 2, 1, 0, 2, 3⟩,
    .vprefetch hd ⟨false, .w, .vec 1, 0⟩, .fill hd ⟨false, 255, 1, 0⟩, .mma hd ⟨.f16, 0, 8, 16⟩, .mma hl ⟨.fp4 2 true, 0, 0, 16⟩, .mmov hd ⟨.all, 225, 0⟩,
    .mload hd ⟨.top, 241, 0⟩, .tcopy hd ⟨.g2s, 0, 1, 3, none, 0⟩, .rbox4 hd ⟨252, 0, 2⟩, .rtri hd ⟨0, 249, 2⟩, .cover hd ⟨0, 0, 1⟩, .tex hd ⟨false, false, 0, 1, 0⟩,
    .qdeq hd ⟨1, 1, 0, 0⟩, .qsteal hd ⟨2, 2, 0, 0⟩, .launch hd ⟨1, 0, 1⟩, .crd hd (.faddr 1), .cwr hd (.faddr 1)] = true := by
  decide +kernel

/-- A filter's branch skips 1 to 31 words and its histogram is one of four (22 R436). -/
theorem test_wfFilter : refuses [.shBz 0 0, .shBnz 0 32, .shHist 4 0] = true := by decide +kernel

/-- A term that meets every check. -/
theorem test_wfGood : ([.exit hd, .sadd hd ⟨false, 0, 0, .imm 2047⟩, .vld hd ⟨.d, .g, .rlx, .path, false, 2, .vec 4, 0⟩, .shBz 0 31] : List Instr).all Instr.wf = true := by
  decide +kernel

/-! ### Single steps: the expected values stand in the manual's worked examples and tables of borderline uses -/

def setVs (g : Group) : List (VReg × W32) → Group
  | [] => g
  | (n, x) :: r => setVs (g.setV n 0xFF (Bank.fill x)) r

def setSs (p : Path) : List (SReg × W64) → Path
  | [] => p
  | (n, x) :: r => setSs (p.setS n x) r

/-- The path after an instruction, in a group of one path. -/
def ran (i : Instr) (g : Group) (p : Path) : Option (Group × Path) :=
  match exec i (small g p) with
  | .next t => t.path ⟨1, 0⟩
  | _ => none

def scal (i : Instr) (xs : List (SReg × W64)) (d : SReg) : Option W64 := (ran i loadGroup (setSs path0 xs)).map fun x => x.2.getS d
def lane (i : Instr) (xs : List (VReg × W32)) (d : VReg) (l : Lane) : Option W32 := (ran i (setVs loadGroup xs) path0).map fun x => (x.1.getV d).rd l
def pred (i : Instr) (g : Group) (d : KReg) : Option Mask := (ran i g path0).map fun x => x.1.getK d
/-- Cause, PC, level and the FADDR of lane 0 after an instruction on the loaded machine, whose path has the registers `xs`. -/
def entered (i : Instr) (xs : List (SReg × W64)) : Option (W8 × W64 × Bool × W64) :=
  match exec i { base.setPath ⟨1, 0⟩ (setSs path0 xs) with cur := some ⟨1, 0⟩ } with
  | .next t => (t.path ⟨1, 0⟩).map fun x => (x.2.fcause, x.2.pc, x.2.sup, x.1.faddr.rd 0)
  | _ => none

/-- `sadd.sat` of 0x7FFF_FFFF_FFFF_FFFF and 1 (04, borderline uses); without saturation it wraps (R105). -/
theorem test_sadd : scal (.sadd hl ⟨true, 3, 1, .imm 1⟩) [(1, 0x7FFFFFFFFFFFFFFF)] 3 = some 0x7FFFFFFFFFFFFFFF ∧
    scal (.sadd hd ⟨false, 3, 1, .imm 1⟩) [(1, 0x7FFFFFFFFFFFFFFF)] 3 = some 0x8000000000000000 := by decide +kernel

/-- s0 reads zero and discards writes (01 R8). -/
theorem test_zeroRegister : scal (.smov hd ⟨0, .imm 7⟩) [] 0 = some 0 := by decide +kernel

/-- `kcount` under `!k0:` writes 0; under k0 it counts k1 = 0x0F (04, a split and a merge). -/
theorem test_kcount : (ran (.kcount { hd with pn := true } ⟨8, 1⟩) halfG (setSs path0 [(8, 5)])).map (fun x => x.2.getS 8) = some 0 ∧
    (ran (.kcount hd ⟨8, 1⟩) halfG path0).map (fun x => x.2.getS 8) = some 4 := by decide +kernel

theorem test_kset : (ran (.kset hd ⟨1, 4⟩) loadGroup (setSs path0 [(4, 0x0F)])).map (fun x => x.1.getK 1) = some 0x0F := by decide +kernel

/-- The split of chapter 04: the child that takes the branch has MASK 0x0F, the other 0xF0 and the next PC, at depth 1. -/
theorem test_brSplits : (ran (.br { hl with pk := 1 } ⟨6, 8⟩) halfG path0).map (fun x => (x.2.mask, x.2.depth, x.2.rcv)) =
      some (0x0F, 1, some (path0.pc + 64)) ∧
    (ran (.br { hl with pk := 1 } ⟨6, 8⟩) halfG path0).bind (fun x => (x.1.paths.rd 1).map fun q => (q.mask, q.depth, q.pc)) =
      some (0xF0, 1, path0.pc + 16) := by decide +kernel

/-- `jmpr` to 0x4004 is MISALIGNED (cause 0x08) with FADDR 0x4004 (04, borderline uses); the handler runs at HENTRY, 0x40000 here. -/
theorem test_jmprMisaligned : entered (.jmpr hd 9) [(9, 0x4004)] = some (0x08, 0x40000, true, 0x4004) := by decide +kernel

/-- `vadd.sat.u.h2`: each half becomes min(x + y, 0xFFFF) (05, encodings worked out). -/
theorem test_vaddHalves : lane (.vadd hl ⟨.h2, true, true, .whole, 2, ⟨0, .id⟩, .reg r1⟩) [(0, 0xFFFF0001), (1, 0x00020003)] 2 5 = some 0xFFFF0004 := by
  decide +kernel

/-- The low byte of an immediate is the operand of every byte element (05 R123). -/
theorem test_vmaxImmediate : lane (.vmax hd ⟨.b4, true, .whole, 1, ⟨2, .id⟩, .imm 0x3E4⟩) [(2, 0x01F0E500)] 1 0 = some 0xE4F0E5E4 := by
  decide +kernel

/-- A count of 33 in a lane shifts by 1; `vabs` of the smallest number gives it, and under `.sat` the largest (05, borderline uses). -/
theorem test_vshl : lane (.vshl hd ⟨.w32, .whole, 1, ⟨2, .id⟩, .reg ⟨3, .id⟩⟩) [(2, 5), (3, 33)] 1 0 = some 10 := by decide +kernel
theorem test_vabs : lane (.vabs hd ⟨.w32, false, .whole, 1, ⟨2, .id⟩⟩) [(2, 0x80000000)] 1 7 = some 0x80000000 ∧
    lane (.vabs hl ⟨.w32, true, .whole, 1, ⟨2, .id⟩⟩) [(2, 0x80000000)] 1 7 = some 0x7FFFFFFF := by decide +kernel

/-- 13.5 at element 2: RNE gives 0x56 and the other bytes stay (05, encodings worked out). -/
theorem test_vcvtE4m3 : lane (.vcvt hd ⟨.e4m3, .f32, .mode .rne, false, 6, ⟨3, .id⟩, 2, 0⟩) [(3, 0x41580000), (6, 0x11111111)] 6 3 = some 0x11561111 := by
  decide +kernel

/-- 500.0 converts to E4M3 as 0x7F under RNE and as 0x7E under RTZ (03 R86). -/
theorem test_vcvtOverflow : lane (.vcvt hd ⟨.e4m3, .f32, .mode .rne, false, 6, ⟨3, .id⟩, 0, 0⟩) [(3, 0x43FA0000)] 6 0 = some 0x7F ∧
    lane (.vcvt hl ⟨.e4m3, .f32, .mode .rtz, false, 6, ⟨3, .id⟩, 0, 0⟩) [(3, 0x43FA0000)] 6 0 = some 0x7E := by decide +kernel

/-- The scan and the count of chapter 05 over k1 = 0xFA; lanes 0 and 2 keep their value. -/
theorem test_vscan : (let g := setVs { loadGroup with k := loadGroup.k.wr 1 0xFA } [(1, 1)]
    (ran (.vscan { hd with pk := 1 } ⟨.xadd, false, 2, r1⟩) g path0).map fun x => (List.range 8).map fun n => (x.1.getV 2).rd (BitVec.ofNat 3 n)) =
    some [0, 0, 0, 1, 2, 3, 4, 5] := by decide +kernel
theorem test_vred : (let g := setVs { loadGroup with k := loadGroup.k.wr 1 0xFA } [(1, 1)]
    (ran (.vred { hd with pk := 1 } ⟨.iadd, false, 4, r1⟩) g path0).map fun x => (List.range 8).map fun n => (x.1.getV 4).rd (BitVec.ofNat 3 n)) =
    some [0, 6, 0, 6, 6, 6, 6, 6] := by decide +kernel

theorem test_vcmp : (let g := { loadGroup with v := loadGroup.v.wr 3 (Bank.gen fun l => if l.toNat % 3 = 0 then 0 else 1) }
    pred (.vcmp hd ⟨.ne, 1, ⟨3, .id⟩, .imm 0⟩) g 1) = some 0xB6 := by decide +kernel

/-- `vflog2` of −0 is −∞ and `vfsin` of −3.0 is −0 (05, borderline uses); 1.5 + 2.25 = 3.75. -/
theorem test_vfsin : lane (.vfsin hd ⟨1, ⟨2, .id⟩⟩) [(2, 0xC0400000)] 1 0 = some 0x80000000 := by decide +kernel
theorem test_vflog2 : lane (.vflog2 hd ⟨1, ⟨2, .id⟩⟩) [(2, 0x80000000)] 1 0 = some 0xFF800000 := by decide +kernel
theorem test_vfadd : lane (.vfadd hd ⟨.mode .rne, 1, ⟨2, .id⟩, ⟨3, .id⟩⟩) [(2, 0x3FC00000), (3, 0x40100000)] 1 4 = some 0x40700000 := by decide +kernel

/-- `trap 0x85` enters the handler with cause 0x85 at supervisor level (08 R218, a trap and its return); FADDR of a cause without an address is 0. -/
theorem test_trap : entered (.trap hd 0x85) [] = some (0x85, 0x40000, true, 0) := by decide +kernel

/-- The first step after the loaded state runs the word that stands there: `sadd s3, s0, 1` (its word by 02 R46 and R105). -/
theorem test_stepRuns : (match step (State.reset.withFetchWord 64 0x0018000000300008) with
    | .next t => (t.path ⟨1, 0⟩).map fun x => (x.2.getS 3, x.2.pc)
    | _ => none) = some (1, 0x10008) := by decide +kernel

end Sys2Proof.Tests
end

section
/-! SUPPORT and PROOFS. Predicate registers and the random words RNGS (01 R12, R19). -/

namespace Sys2Proof.Machine

/-! ### Predicate registers (01 R12) -/

@[simp] theorem getK_zero (g : Group) : g.getK 0 = 0xFF := if_pos rfl

@[simp] theorem setK_zero (g : Group) (m x : Mask) : g.setK 0 m x = g := if_pos rfl

theorem has_eq_getLsbD (m : Mask) (l : Lane) : m.has l = m.getLsbD l.toNat := rfl

/-- Settles O29, from what a read and a write of k0 give and what `has` reads. -/
theorem firstPredicate : Obligations.FirstPredicate :=
  ⟨getK_zero, setK_zero, has_eq_getLsbD⟩

/-! ### RNGS at group start (01 R19) -/

/-- The lane's word in the numbers of the rule: the model adds in 32 bits, the rule adds and takes the sum mod 2^32. -/
theorem rngStart_eq (seed : W32) (lin : Nat) (l : Lane) :
    rngStart seed lin l = if (seed.toNat + 8 * lin + l.toNat) % 2 ^ 32 = 0 then 1 else BitVec.ofNat 32 (seed.toNat + 8 * lin + l.toNat) := by
  have hsum : seed + BitVec.ofNat 32 (8 * lin + l.toNat) = BitVec.ofNat 32 (seed.toNat + 8 * lin + l.toNat) := by
    rw [Nat.add_assoc, BitVec.ofNat_add _ (8 * lin + _), BitVec.ofNat_toNat, BitVec.setWidth_eq]
  have hzero (n : Nat) : BitVec.ofNat 32 n = 0 ↔ n % 2 ^ 32 = 0 := by
    rw [← BitVec.toNat_inj, BitVec.toNat_ofNat]; rfl
  simp only [rngStart, hsum, hzero]

theorem startGroup_rngs (s : State) (d : Grid) (t lin slot gid : Nat) (l : Lane) :
    (startGroup s d t lin slot gid).rngs.rd l = rngStart d.launch.seed (lin * d.kernel.groups + gid) l :=
  Laws.rd_gen _ l

/-! ### `cwr RNGS` (01 R19) -/

/-- RNGS after a write from lane register `a` in the lanes of `em`: an xorshift32 state is never 0. -/
def rngsFrom (g : Group) (em : Mask) (a : VReg) : Lanes W32 :=
  Bank.gen fun l => if em.has l then (if (g.seen a).rd l = 0 then 1 else (g.seen a).rd l) else g.rngs.rd l

theorem rngsFrom_rd (g : Group) (em : Mask) (a : VReg) (l : Lane) :
    (rngsFrom g em a).rd l = if em.has l then (if (g.seen a).rd l = 0 then 1 else (g.seen a).rd l) else g.rngs.rd l :=
  Laws.rd_gen _ l

theorem rngsFrom_setPath (g : Group) (i : BitVec 3) (p : Path) (em : Mask) (a : VReg) : rngsFrom (g.setPath i p) em a = rngsFrom g em a := rfl

theorem exec_cwr_rngs (h : Hdr) (a : VReg) (s : State) :
    exec (.cwr h (.rngs a)) s = .next (run (uCwr (.rngs a)) h (regs fun c => ({ c.g with rngs := rngsFrom c.g c.em a }, c.p)) s) := rfl

/-- `cwr RNGS` completes: of the group it changes RNGS only. -/
theorem cwr_rngs_completes {h : Hdr} {a : VReg} {s : State} {r : PathRef} {g : Group} {p : Path}
    (hi : Issues s r g p h (uCwr (.rngs a))) (hh : p.hold = false) :
    ∃ t q, exec (.cwr h (.rngs a)) s = .next t ∧
      Went t r g ({ g with rngs := rngsFrom g (emaskOf g p h) a }.setPath r.p q) p q (p.pc + hdrLen h) ∧
      Quiet s t r (s.vfOf g) ∧ ∀ n, q.getS n = p.getS n := by
  obtain ⟨t, q, ht, hwent, hquiet, hscalars⟩ := run_group hi hh (fun c => { c.g with rngs := rngsFrom c.g c.em a })
    { g with rngs := rngsFrom g (emaskOf g p h) a } (by
      simp only [cxOf, rngsFrom_setPath]
      simp only [Group.setPath, Laws.wr_wr])
    (fun _ _ => rfl) ⟨rfl, rfl, rfl, rfl, rfl⟩
  exact ⟨t, q, (exec_cwr_rngs h a s).trans (congrArg _ ht), hwent, hquiet, hscalars⟩

/-- Settles O30: the group's start by the lane's word in the rule's numbers, `cwr RNGS` by its completion. -/
theorem randomWords : Obligations.RandomWords := by
  refine ⟨fun s d t lin slot gid l => ?_, fun h a s r g p hi hh => ?_⟩
  · rw [startGroup_rngs, rngStart_eq]
  · obtain ⟨t, q, ht, hwent, -, -⟩ := cwr_rngs_completes hi hh
    refine ⟨t, _, q, ht, hwent.path, fun l hl => ?_⟩
    exact (rngsFrom_rd g (emaskOf g p h) a l).trans (if_pos hl)

end Sys2Proof.Machine
end

section
/-! SUPPORT. What translating an access leaves alone (14 R301-R312): the groups, and, unless a translation waits, the number of the next
request to another module, since none has been sent. -/

namespace Sys2Proof.Machine

/-- The groups are as they were, and no request or operation has taken a number. -/
structure SameOps (s t : State) : Prop where
  groups : t.groups = s.groups
  handle : t.handle = s.handle

namespace SameOps

theorem refl (s : State) : SameOps s s := ⟨rfl, rfl⟩

theorem trans {s t u : State} (h : SameOps s t) (k : SameOps t u) : SameOps s u :=
  ⟨k.groups.trans h.groups, k.handle.trans h.handle⟩

/-- What differs before is neither the groups nor the number of the next request. -/
theorem since {s t u : State} (k : SameOps t u) (hg : t.groups = s.groups) (hh : t.handle = s.handle) : SameOps s u :=
  trans ⟨hg, hh⟩ k

theorem foldl {α : Type} {f : State → α → State} (h : ∀ s a, SameOps s (f s a)) (l : List α) (s : State) : SameOps s (l.foldl f s) :=
  List.foldlRecOn (motive := SameOps s) l f (refl s) fun _ hs a _ => hs.trans (h _ a)

end SameOps

/-- An operation with a result that keeps the groups and, unless the result waits, sends no request. -/
def SendsOnlyIf {α : Type} (waits : α → Bool) (s : State) (r : α × State) : Prop := waits r.1 = false → SameOps s r.2

theorem SendsOnlyIf.after {α : Type} {waits : α → Bool} {s t : State} {r : α × State} (h : SameOps s t) (k : SendsOnlyIf waits t r) :
    SendsOnlyIf waits s r :=
  fun hr => h.trans (k hr)

theorem logError_sameOps (s : State) (pa : Nat) (kind : W8) (vf : W16) : SameOps s (logError s pa kind vf) := ⟨rfl, rfl⟩

theorem correct_sameOps (s : State) (vf : Nat) (lines : List Nat) : SameOps s (correct s vf lines) := by
  refine SameOps.foldl (fun s l => ?_) lines s
  split
  · exact ⟨rfl, rfl⟩
  · exact .refl s

theorem loadCached_sameOps (c : Cached) (s : State) (u : TlbAt) : SameOps s (loadCached c s u) := by
  unfold loadCached
  split
  · exact .refl s
  · exact ⟨rfl, rfl⟩

theorem addMiss_sameOps (s : State) (vf page : Nat) : SameOps s (addMiss s vf page) := by
  unfold addMiss
  split <;> exact ⟨rfl, rfl⟩

theorem through_sameOps (s : State) (vf va : Nat) (k : Acc) (c : Cached) : SameOps s (through s vf va k c).2 := by
  unfold through
  extract_lets pa
  split
  · exact .refl s
  · split
    · exact logError_sameOps ..
    · exact .refl s

theorem orEntries_sameOps (l : List Nat) (s : State) (bit : Nat) : SameOps s (l.foldl (fun s e => orEntry s e bit) s) :=
  SameOps.foldl (f := fun s e => orEntry s e bit) (fun _ _ => ⟨rfl, rfl⟩) l s

/-- The answers of other modules are at hand only where none had to be asked. -/
theorem farDo_got {s t : State} {who : Asker} {vf : Nat} {ops : List (Nat × Nat × RemoteOp)} {l : List (Nat × PieceAnswer)}
    (h : farDo s who vf ops = .got l t) : t = s := by
  unfold farDo at h
  split at h
  · cases h
  · split at h
    · cases h; rfl
    · cases h

theorem setBits_sendsOnlyIf (s : State) (vf : Nat) (es : List Nat) (bit : Nat) : SendsOnlyIf not s (setBits s vf es bit) := by
  unfold setBits
  extract_lets far near
  have hnear (s : State) : SameOps s (near s) := orEntries_sameOps _ s bit
  split
  · exact fun _ => hnear s
  · split
    · exact nofun
    · rename_i hgot
      cases farDo_got hgot
      exact fun _ => (hnear (dropAsks s _)).since rfl rfl

/-! ### One address -/

/-- A translation that waits: for the host, or for a walker, another module or an engine. -/
def Xlat.pends : Xlat → Bool
  | .wait _ _ | .busy => true
  | _ => false

theorem endWalk_sameOps (s : State) (vf va : Nat) : SameOps s (endWalk s vf va) := ⟨rfl, rfl⟩

theorem walked_sameOps (s : State) (vf va n : Nat) (us : List Use) (lines : List Nat) :
    SameOps s (endWalk (correct { s.count vf 18 n with uses := us } vf lines) vf va) :=
  ((correct_sameOps _ vf lines).trans (endWalk_sameOps ..)).since rfl rfl

theorem startWalk_sendsOnlyIf (s : State) (vf va : Nat) (k : Acc) (again : Bool) : SendsOnlyIf Xlat.pends s (startWalk s vf va k again) := by
  unfold startWalk
  extract_lets lines units walked
  have hwalked (s : State) : SameOps s (walked s) := walked_sameOps ..
  clear_value walked
  split
  · rename_i c _
    have hset := setBits_sendsOnlyIf s vf [c.leaf1, c.leaf2] 5
    split
    · rename_i t hbits
      rw [hbits] at hset
      exact fun _ => (((hset rfl).trans (hwalked t)).trans (SameOps.foldl (loadCached_sameOps c) units _)).trans (through_sameOps ..)
    · exact nofun
  · exact fun _ => hwalked s
  · exact nofun
  · exact nofun
  · exact fun _ => (hwalked s).trans (logError_sameOps ..)
  · exact nofun

theorem miss_sendsOnlyIf (s : State) (vf va : Nat) (k : Acc) : SendsOnlyIf Xlat.pends s (miss s vf va k) := by
  unfold miss
  extract_lets pd t mine turn
  split
  · exact nofun
  · split
    · exact .after (t := t) (addMiss_sameOps ..) (startWalk_sendsOnlyIf t vf va k false)
    · exact nofun

theorem look_sendsOnlyIf (s : State) (vf va : Nat) (k : Acc) : SendsOnlyIf Xlat.pends s (look s vf va k) := by
  unfold look
  extract_lets old now i t
  have ht : SameOps s t := ⟨rfl, rfl⟩
  clear_value old
  cases old with
  | nil =>
    dsimp only
    split
    · exact fun _ => (through_sameOps _ vf va k _).since rfl rfl
    · exact miss_sendsOnlyIf s vf va k
  | cons c old =>
    dsimp only
    split
    · exact fun _ => through_sameOps ..
    · split
      · exact .after ht fun _ => through_sameOps ..
      · exact .after ht (miss_sendsOnlyIf t vf va k)

theorem seek_sendsOnlyIf (s : State) (vf va : Nat) (k : Acc) : SendsOnlyIf Xlat.pends s (seek s vf va k) := by
  unfold seek
  split
  · exact fun _ => .refl s
  · have hlook := look_sendsOnlyIf s vf va k
    split
    · exact hlook
    · split
      · split
        · rename_i hcause
          rw [hcause] at hlook
          exact fun _ => hlook rfl
        · exact hlook
      · exact fun _ => .refl s

/-! ### The lanes of an access -/

/-- A lane whose translation waits. -/
def LaneX.pends : LaneX → Bool
  | .bad x => x.pends
  | .at _ => false

theorem translateChunks_sendsOnlyIf (vf : Nat) (k : Acc) (l : List (Nat × Nat)) (s : State) (seen : Option (Nat × Nat)) :
    SendsOnlyIf LaneX.pends s (translateChunks s vf k seen l) := by
  induction l generalizing s seen with
  | nil => exact fun _ => .refl s
  | cons q l ih =>
    obtain ⟨a, n⟩ := q
    unfold translateChunks
    extract_lets next
    have hnext (seen : Option (Nat × Nat)) (l : Loc) (s : State) : SendsOnlyIf LaneX.pends s (next seen l s) := by
      have ih := ih s seen
      unfold next
      split
      · rename_i hrest
        rw [hrest] at ih
        exact fun _ => ih rfl
      · exact ih
    split
    · exact hnext _ _ s
    · have hseek := seek_sendsOnlyIf s vf a k
      split
      · rename_i h
        rw [h] at hseek
        exact .after (hseek rfl) (hnext _ _ _)
      · rename_i h
        rw [h] at hseek
        exact .after (hseek rfl) (hnext _ _ _)
      · rename_i h
        rw [h] at hseek
        exact hseek

theorem translateReqs_sendsOnlyIf (vf : Nat) (k : Acc) (qs : List LaneReq) (s : State) :
    SendsOnlyIf (fun xs => xs.any fun x => x.2.pends) s (translateReqs s vf k qs) := by
  induction qs generalizing s with
  | nil => exact fun _ => .refl s
  | cons q qs ih =>
    intro h
    simp only [translateReqs, List.any_cons, Bool.or_eq_false_iff] at h ⊢
    exact (translateChunks_sendsOnlyIf vf k q.chunks s none h.1).trans (ih _ h.2)

/-- Where no lane shows a cause, none waits. -/
theorem firstCause_none {s : State} {whole : Option Mask} {xs : List (LaneReq × LaneX)} (h : firstCause s whole xs = none) :
    (xs.any fun x => x.2.pends) = false := by
  unfold firstCause at h
  extract_lets sel find at h
  split at h
  · cases h
  · split at h
    · cases h
    · rename_i hwait
      split at h
      · cases h
      · rename_i hbusy
        simp only [find, List.findSome?_eq_none_iff, Option.not_isSome_iff_eq_none] at hwait hbusy
        rw [List.any_eq_false]
        intro x hx hpends
        obtain ⟨q, _ | y⟩ := x
        · cases hpends
        · cases y with
          | wait => exact nomatch hwait _ hx
          | busy => exact nomatch hbusy _ hx
          | _ => cases hpends

theorem meet_sameOps (vf : Nat) (k : Acc) (l1 : Bool) (l : List (Nat × Nat)) (s : State) : SameOps s (meet s vf k l1 l).2 := by
  induction l generalizing s with
  | nil => exact .refl s
  | cons q l ih =>
    obtain ⟨pa, n⟩ := q
    unfold meet
    split
    · exact logError_sameOps ..
    · extract_lets t
      exact (correct_sameOps s vf _).trans ((ih _).since rfl rfl)

theorem arriveAll_sendsOnlyIf (s : State) (vf : Nat) (k : Acc) (order : Option Nat) (vas : List Nat) (ps : List (Nat × Nat)) (l1 walks : Bool) :
    SendsOnlyIf Option.isSome s (arriveAll s vf k order vas ps l1 walks) := by
  unfold arriveAll
  extract_lets mine shut l es
  split
  · exact nofun
  · split
    · exact nofun
    · have hset := setBits_sendsOnlyIf s vf es 6
      split
      · exact nofun
      · rename_i t hbits
        rw [hbits] at hset
        have hmet := (hset rfl).trans (meet_sameOps vf k l1 mine t)
        split
        · exact nofun
        · rename_i hmeet
          rw [hmeet] at hmet
          refine fun _ => hmet.trans ?_
          dsimp only
          split
          · exact ⟨rfl, rfl⟩
          · exact .refl _

theorem settleLanes_sameOps {c : Cx} {s t : State} {k : Acc} {qs : List LaneReq} {ps : List (Lane × Place)} {walks : Bool}
    (h : settleLanes c s k qs ps walks = .ok t) : SameOps s t := by
  unfold settleLanes at h
  extract_lets xs at h
  have harrive := arriveAll_sendsOnlyIf s c.vf k none (xs.map (·.1)) (xs.map (·.2)) (k != .rmw) walks
  split at h
  · cases h
  · cases h
  · rename_i hok
    rw [hok] at harrive
    cases h
    exact harrive rfl

theorem waited_none {c : Cx} (h : c.p.st = .ready) (s : State) : c.waited s = none := by
  simp only [Cx.waited, h]

/-- What is translated at issue, with every lane at hand, has sent no request. -/
theorem globalPlaces_sameOps {c : Cx} {s t : State} {whole : Option Mask} {k : Acc} {qs : List LaneReq} {ps : List (Lane × Place)}
    (hc : c.p.st = .ready) (h : globalPlaces c s whole k qs = .ok (t, ps)) : SameOps s t := by
  unfold globalPlaces at h
  simp only [waited_none hc] at h
  split at h
  · cases h
  · split at h
    · cases h
    · rename_i hcause
      have htr := translateReqs_sendsOnlyIf c.vf k qs s (firstCause_none hcause)
      split at h
      · cases h; exact htr
      · split at h
        · cases h
        · rename_i hsettle
          cases h
          exact htr.trans (settleLanes_sameOps hsettle)

theorem globalRows_sameOps {o : MMem} {k : Acc} {c : Cx} {s t : State} {ps : List Place} (hc : c.p.st = .ready)
    (h : globalRows o k c s = .ok (t, ps)) : SameOps s t := by
  unfold globalRows at h
  simp only [waited_none hc] at h
  split at h
  · cases h
  · rename_i hplaces
    split at h
    · cases h; exact globalPlaces_sameOps hc hplaces
    · cases h

theorem rowPlaces_sameOps {o : MMem} {k : Acc} {c : Cx} {s t : State} {ps : List Place} (hc : c.p.st = .ready)
    (h : rowPlaces o k c s = .ok (t, ps)) : SameOps s t := by
  unfold rowPlaces at h
  extract_lets as barBad at h
  split at h
  · cases h
  · split at h
    · split at h
      · cases h
      · rename_i hrows
        split at h
        · cases h
        · cases h; exact globalRows_sameOps hc hrows
    · split at h
      · cases h
      · split at h
        · cases h
        · cases h; exact .refl s

end Sys2Proof.Machine
end

section
/-! SUPPORT. The bytes of places that lie in this module, and the elements of a tile by row and column (07 R174, R179). -/

namespace Sys2Proof.Machine

/-! ### Reading places (16 R347) -/

/-- Numbering the pieces of one place: the next piece, its key and its offset. -/
def addPiece (ix : Nat) (x : List Piece × Nat × Nat) (e : Loc × Nat) : List Piece × Nat × Nat :=
  (x.1 ++ [{ key := x.2.1, ix := ix, off := x.2.2, loc := e.1, len := e.2 }], x.2.1 + 1, x.2.2 + e.2)

theorem foldl_addPiece (ix : Nat) (l : List (Loc × Nat)) (x : List Piece × Nat × Nat) :
    ∃ L : List Piece, (l.foldl (addPiece ix) x).1 = x.1 ++ L ∧ (∀ y ∈ L, y.ix = ix) ∧ L.map (fun y => (y.loc, y.len)) = l := by
  induction l generalizing x with
  | nil => exact ⟨[], by simp⟩
  | cons e l ih =>
    obtain ⟨L, hfold, hix, hmap⟩ := ih (addPiece ix x e)
    refine ⟨{ key := x.2.1, ix := ix, off := x.2.2, loc := e.1, len := e.2 } :: L, ?_, ?_, ?_⟩
    · rw [List.foldl_cons, hfold]; simp [addPiece]
    · simpa using hix
    · simp [hmap]

/-- The pieces of place `n`, where places are numbered from `ix`. -/
theorem filter_go (ps : List Place) (key ix n : Nat) :
    ((numbered.go key ix ps).filter fun x => x.ix == n).map (fun y => (y.loc, y.len)) =
      if ix ≤ n then (ps.getD (n - ix) (.here [])).all else [] := by
  induction ps generalizing key ix with
  | nil => simp [numbered.go, Place.all]
  | cons p ps ih =>
    obtain ⟨L, hfold, hix, hmap⟩ := foldl_addPiece ix p.all ([], key, 0)
    have hgo : numbered.go key ix (p :: ps) = L ++ numbered.go (key + p.all.length) (ix + 1) ps :=
      congrArg (· ++ _) (hfold.trans (List.nil_append L))
    rw [hgo, List.filter_append, List.map_append, ih]
    by_cases hn : n = ix
    · subst hn
      rw [List.filter_eq_self.2 (by simpa using hix), hmap, if_neg (by omega), if_pos le_rfl]
      simp
    · rw [List.filter_eq_nil_iff.2 (by simpa using fun y hy => (hix y hy).trans_ne (Ne.symm hn))]
      by_cases hlt : ix ≤ n
      · rw [if_pos (by omega), if_pos hlt, show n - ix = n - (ix + 1) + 1 by omega]
        simp
      · rw [if_neg (by omega), if_neg hlt]
        simp

theorem readLocs_eq (s : State) (l : List (Loc × Nat)) : s.readLocs l = l.flatMap fun x => s.readLoc x.1 x.2 := by
  induction l with
  | nil => rfl
  | cons x l ih => simp [State.readLocs, ih]

theorem readPlaces_eq (s : State) (ps : List Place) : readPlaces s ps [] = ps.map fun p => s.readLocs p.all := by
  apply List.ext_getElem (by simp [readPlaces])
  intro n h1 h2
  have hn : n < ps.length := by simpa using h2
  have hpieces := congrArg (List.flatMap fun x => s.readLoc x.1 x.2) (filter_go ps 0 0 n)
  rw [List.flatMap_map, if_pos (Nat.zero_le n), Nat.sub_zero, List.getD_eq_getElem _ _ hn, ← readLocs_eq] at hpieces
  simp only [readPlaces, List.getElem_map, List.getElem_range]
  refine Eq.trans (List.flatMap_congr fun y _ => ?_) hpieces
  -- a piece elsewhere of which no answer came reads zero, here as there
  cases y.loc <;> rfl

/-! ### Elements of tiles -/

theorem tileIx_toNat {i j : Nat} (hi : i < 16) (hj : j < 16) : (tileIx i j).toNat = 16 * i + j :=
  Nat.mod_eq_of_lt (by omega)

theorem rd_gen_tileIx {α : Type} (f : Nat → Nat → α) {i j : Nat} (hi : i < 16) (hj : j < 16) :
    Bank.rd (Bank.gen fun n : BitVec 8 => f (n.toNat / 16) (n.toNat % 16)) (tileIx i j) = f i j := by
  rw [Laws.rd_gen, tileIx_toNat hi hj, show (16 * i + j) / 16 = i by omega, show (16 * i + j) % 16 = j by omega]

theorem tileOf_rd (ds : List (List W8)) {i j : Nat} (hi : i < 16) (hj : j < 16) :
    (tileOf ds).rd (tileIx i j) = BitVec.ofNat 32 (field (ds.getD i []) (4 * j) 4) :=
  rd_gen_tileIx (fun i j => BitVec.ofNat 32 (field (ds.getD i []) (4 * j) 4)) hi hj

end Sys2Proof.Machine
end

section
/-! SUPPORT and PROOFS. The matrix unit, tile transfers and the completions of their operations (07 R174-R179, 03 R91-R95). -/

namespace Sys2Proof.Machine

/-! ### Instructions that complete -/

/-- An instruction completes whose effect leaves `X`: of its group `G` with the path as it issued, every other group as it was. -/
theorem run_completes {s S T X : State} {r : PathRef} {g G : Group} {p : Path} {h : Hdr} {u : Uses} {i : Instr} {body : Cx → State → Res}
    {R : Group → Path → Prop} (hi : Issues s r g p h u) (hh : p.hold = false) (he : exec i s = .next (run u h body s))
    (hb : body (cxOf s r g p h u) (issuedSt s r g p h u) = .done X) (hT : X = { T with groups := X.groups }) (hmem : X.mem = S.mem)
    (hX : X.groups = s.groups.put r.g (G.setPath r.p (p.issued g h u))) (hpaths : G.paths = g.paths)
    (hslots : G.slotA = g.slotA ∧ G.slotB = g.slotB ∧ G.fifo = g.fifo ∧ G.joins = g.joins ∧ G.ser = g.ser)
    (hR : ∀ q, (∀ n, q.getS n = p.getS n) → R (G.setPath r.p q) q) : CompletesIn i h s r g p S T noByte R := by
  have hgroup (k : Nat) : X.group k = (s.setGroup r.g (G.setPath r.p (p.issued g h u))).group k := congrArg (KMap.get · k) hX
  have hpath : X.path r = some (G.setPath r.p (p.issued g h u), p.issued g h u) := by
    rw [path_of_group ((hgroup r.g).trans (group_setGroup ..)), paths_setPath]; rfl
  obtain ⟨q, hq, ht, hp⟩ := goOn_path (c := cxOf s r g p h u) (h := h) (pc := p.pc + hdrLen h) hpath hh
  have hrun : run u h body s = X.setGroup r.g ((G.setPath r.p (p.issued g h u)).setPath r.p q) :=
    (run_issues hi body).trans ((congrArg (retire s _ h) hb).trans ((retire_done hi).trans ht))
  rw [setPath_setPath] at hrun
  have hsame := hq.same
  refine ⟨_, G.setPath r.p q, q, he.trans (congrArg _ hrun), ?_, ?_, ?_, ?_, hR q fun n => ?_⟩
  · exact
    { path := path_setGroup _ _ _ _ (paths_setPath ..)
      pc := hq.pc
      ready := hq.ready
      lanes := by rw [hsame]; rfl
      merge := by rw [hsame]; exact ⟨rfl, rfl, rfl⟩
      level := by rw [hsame]; exact ⟨rfl, rfl, rfl, rfl⟩
      others := fun j hj => (paths_setPath_other _ _ hj).trans (by rw [hpaths])
      slots := hslots }
  · exact congrArg (fun Y : State => { Y with groups := X.groups.put r.g (G.setPath r.p q) }) hT
  · exact fun k hk => (group_setGroup_other X _ hk).trans ((hgroup k).trans (group_setGroup_other s _ hk))
  · exact fun _ a _ => congrArg (fun m => Memory.get m a) hmem
  · rw [getS_of_same hq]; rfl

@[simp] theorem group_issuedSt (s : State) (r : PathRef) (g : Group) (p : Path) (h : Hdr) (u : Uses) :
    (issuedSt s r g p h u).group r.g = some (g.setPath r.p (p.issued g h u)) := group_setGroup ..

/-- A group with another tile in a tile register. -/
def Group.setTile (g : Group) (d : TReg) (tile : Bank 8 W32) : Group := { g with t := g.t.wr d tile }

theorem setTile_rd (g : Group) (d : TReg) (tile : Bank 8 W32) : (g.setTile d tile).t.rd d = tile := Laws.rd_wr_same ..

theorem setTile_rd_other (g : Group) {d k : TReg} (tile : Bank 8 W32) (hk : k ≠ d) : (g.setTile d tile).t.rd k = g.t.rd k :=
  Laws.rd_wr_other _ _ hk

/-- An instruction that writes a tile register. -/
theorem setTile_completes {s : State} {r : PathRef} {g : Group} {p : Path} {h : Hdr} {u : Uses} {i : Instr} {d : TReg}
    {f : Group → Bank 8 W32} {R : Group → Path → Prop} (hi : Issues s r g p h u) (hh : p.hold = false)
    (he : exec i s = .next (run u h (regs fun c => (c.g.setTile d (f c.g), c.p)) s))
    (hf : f (g.setPath r.p (p.issued g h u)) = f g)
    (hR : ∀ q, (∀ n, q.getS n = p.getS n) → R ((g.setTile d (f g)).setPath r.p q) q) :
    CompletesIn i h s r g p s (issuedSt s r g p h u) noByte R := by
  have hG : ((g.setPath r.p (p.issued g h u)).setTile d (f (g.setPath r.p (p.issued g h u)))).setPath r.p (p.issued g h u) =
      (g.setTile d (f g)).setPath r.p (p.issued g h u) := by
    rw [hf]
    simp only [Group.setPath, Group.setTile, Laws.wr_wr]
  exact run_completes (G := g.setTile d (f g))
    (X := (issuedSt s r g p h u).setGroup r.g ((g.setTile d (f g)).setPath r.p (p.issued g h u))) hi hh he
    (congrArg (fun x => Res.done (State.setGroup (issuedSt s r g p h u) r.g x)) hG) rfl rfl (Laws.kput_put ..) rfl
    ⟨rfl, rfl, rfl, rfl, rfl⟩ hR

/-! ### Operations at issue -/

/-- What a state becomes, beside its groups, when an operation starts. -/
def opStarts (c : Cx) (s : State) : State := { handAsks s (.path c.r) (.op c.r.g s.handle) with handle := s.handle + 1 }

/-- A group whose path starts an operation. -/
def Group.withOp (g : Group) (id : Nat) (own : Mask) (k : EngKind) : Group :=
  { g with ops := g.ops ++ [{ id := id, own := own, kind := k, landed := [], go := false }] }

theorem startOp_eq {c : Cx} {s : State} {g : Group} (k : EngKind) (hg : s.group c.r.g = some g) :
    startOp c s k = (opStarts c s).setGroup c.r.g (g.withOp s.handle c.p.mask k) := by
  simp only [startOp, hg]
  rfl

/-- A group whose log gains an event. -/
def Group.logged (g : Group) (e : StampEv) (ns : Nat) : Group := { g with log := g.log ++ [(e, ns)] }

theorem addLog_eq {s : State} {k : Nat} {g : Group} (e : StampEv) (hg : s.group k = some g) :
    addLog s k e = s.setGroup k (g.logged e s.bell.toNat) := by
  simp only [addLog, hg]
  rfl

/-- A group with one more result on its way. -/
def Group.withLand (g : Group) (l : Land) : Group := { g with lands := g.lands ++ [l] }

theorem land_eq {c : Cx} {s : State} {m : Mask} {g : Group} (rs : List (VReg × Lanes W32)) (hm : m ≠ 0) (hg : s.group c.r.g = some g) :
    land c s m rs = ({ s with handle := s.handle + 1 } : State).setGroup c.r.g
      (g.withLand { id := s.handle, mask := m, regs := rs.filter fun x => c.p.keeps x.1 }) := by
  simp only [land, if_neg hm, hg]
  rfl

/-! ### `mma` (07 R177, 03 R91-R93) -/

/-- The tile that an `mma` writes. -/
def mmaTile (g : Group) (o : Mma) : Bank 8 W32 := Bank.gen fun n => mmaElt g o (n.toNat / 16) (n.toNat % 16)

theorem mmaTile_rd (g : Group) (o : Mma) {i j : Nat} (hi : i < 16) (hj : j < 16) : (mmaTile g o).rd (tileIx i j) = mmaElt g o i j :=
  rd_gen_tileIx (mmaElt g o) hi hj

theorem intVal_byte (x : Nat) : intVal 8 true x = (BitVec.ofNat 8 x).toInt := by
  simp only [intVal, BitVec.toInt_eq_toNat_cond, BitVec.toNat_ofNat, Bool.true_and, decide_eq_true_eq]
  split <;> split <;> omega

theorem foldl_add_sum (f : Nat → Int) (l : List Nat) (a : Int) : l.foldl (fun s k => s + f k) a = a + (l.map f).sum := by
  rw [List.sum_eq_foldl, ← List.foldl_assoc (op := (· + · : Int → Int → Int)), add_zero, List.foldl_map]

/-- INT8 products are summed exactly, and the sum wraps once. -/
theorem mmaElt_int8 (g : Group) (o : Mma) (i j : Nat) (ht : o.t = .int8) : mmaElt g o i j =
    BitVec.ofInt 32 (((g.t.rd o.d).rd (tileIx i j)).toInt +
      ((List.range 32).map fun k => (BitVec.ofNat 8 (rowElt g (o.a + BitVec.ofNat 8 i) 8 k)).toInt *
        (BitVec.ofNat 8 (rowElt g (o.b + BitVec.ofNat 8 j) 8 k)).toInt).sum) := by
  simp only [mmaElt, ht, intVal_byte]
  rw [foldl_add_sum]

/-- FP16 products are summed exactly with the element, and rounded once. -/
theorem mmaElt_f16 (g : Group) (o : Mma) (i j : Nat) (ht : o.t = .f16) : mmaElt g o i j =
    BitVec.ofNat 32 (sumRound .f32 (.mode .rne)
      (unpack .f32 ((g.t.rd o.d).rd (tileIx i j)).toNat :: (List.range 16).map fun k =>
        (unpack .f16 (rowElt g (o.a + BitVec.ofNat 8 i) 16 k)).mul (unpack .f16 (rowElt g (o.b + BitVec.ofNat 8 j) 16 k)))) := by
  simp only [mmaElt, ht, products, Nat.zero_add]
  rfl

section Issued
variable {s : State} {r : PathRef} {g : Group} {p : Path} {h : Hdr}

/-- A group when an `mma` issues at a moment: its operation stands with the sum of the operands as they are. -/
def Group.withMma (g : Group) (id ns : Nat) (o : Mma) : Group :=
  (g.logged (.mma id) ns).withOp id 0xFF (.mma o.d (mmaTile g o))

theorem mmaBody_eq {o : Mma} (hm : p.mask = 0xFF) : mmaBody o (cxOf s r g p h (uMma o)) (issuedSt s r g p h (uMma o)) =
    .done (State.count ((opStarts (cxOf s r g p h (uMma o)) (issuedSt s r g p h (uMma o))).setGroup r.g
      ((g.withMma s.handle s.bell.toNat o).setPath r.p (p.issued g h (uMma o)))) (s.vfOf g) 2 1) := by
  have hmask : (cxOf s r g p h (uMma o)).p.mask = 0xFF := hm
  unfold mmaBody
  rw [if_neg (not_not.2 hmask)]
  extract_lets tile t
  have ht : t = (issuedSt s r g p h (uMma o)).setGroup r.g _ := addLog_eq _ (group_issuedSt ..)
  have hg : t.group r.g = _ := (congrArg (fun t => State.group t r.g) ht).trans (group_setGroup ..)
  rw [startOp_eq (c := cxOf s r g p h (uMma o)) _ hg, hmask, ht]
  show Res.done (State.count (State.setGroup (State.setGroup (opStarts _ (issuedSt s r g p h (uMma o))) r.g _) r.g _) _ 2 1) = _
  rw [setGroup_setGroup]
  rfl

theorem mma_completes {o : Mma} (hi : Issues s r g p h (uMma o)) (hh : p.hold = false) (hm : p.mask = 0xFF) {R : Group → Path → Prop}
    (hR : ∀ q, (∀ n, q.getS n = p.getS n) → R ((g.withMma s.handle s.bell.toNat o).setPath r.p q) q) :
    CompletesIn (.mma h o) h s r g p s ((opStarts (cxOf s r g p h (uMma o)) (issuedSt s r g p h (uMma o))).count (s.vfOf g) 2 1) noByte R :=
  run_completes hi hh rfl (mmaBody_eq hm) rfl rfl (Laws.kput_put ..) rfl ⟨rfl, rfl, rfl, rfl, rfl⟩ hR

theorem mma_partial {o : Mma} (hi : Issues s r g p h (uMma o)) (hm : p.mask ≠ 0xFF) :
    exec (.mma h o) s = .next (settleHold
      (deliver (issuedSt s r g p h (uMma o)) r (FaultInfo.of cMmaPartial p.mask) p.pc (p.pc + hdrLen h)) r) :=
  run_fault (uMma o) h (mmaBody o) (fun _ p => p.mask ≠ 0xFF) (fun _ p => FaultInfo.of cMmaPartial p.mask) (.mma h o)
    (fun _ => rfl) (fun _ _ _ _ _ hm => if_pos hm) s r g p hi hm

/-! ### `mzero`, `mmov` and `mload` (07 R178) -/

theorem mzero_completes {d : TReg} (hi : Issues s r g p h (uMZero d)) (hh : p.hold = false) {R : Group → Path → Prop}
    (hR : ∀ q, (∀ n, q.getS n = p.getS n) → R ((g.setTile d (Bank.fill 0)).setPath r.p q) q) :
    CompletesIn (.mzero h d) h s r g p s (issuedSt s r g p h (uMZero d)) noByte R :=
  setTile_completes (f := fun _ => Bank.fill 0) hi hh rfl rfl hR

/-- The registers that `mmov` writes, with the rows of the tile as they are. -/
def movedRows (g : Group) (o : MMove) : List (VReg × Lanes W32) :=
  (List.range (rowRegs o.rows)).map fun i =>
    (o.v + BitVec.ofNat 8 i, Bank.gen fun l => (g.t.rd o.t).rd (tileIx (firstRow o.rows + i / 2) (8 * (i % 2) + l.toNat)))

theorem firstRow_eq (x : Rows) : firstRow x = if x = .bot then 8 else 0 := by
  cases x <;> rfl

theorem movedRows_get (g : Group) (o : MMove) {i : Nat} (hi : i < rowRegs o.rows) :
    ∃ x, (movedRows g o)[i]? = some (o.v + BitVec.ofNat 8 i, x) ∧
      ∀ l : Lane, x.rd l = (g.t.rd o.t).rd (tileIx ((if o.rows = .bot then 8 else 0) + i / 2) (8 * (i % 2) + l.toNat)) := by
  refine ⟨_, by rw [movedRows, List.getElem?_map, List.getElem?_range hi]; rfl, fun l => ?_⟩
  rw [Laws.rd_gen, firstRow_eq]

/-- The group of an `mmov`: what it reads is on its way. -/
def Group.withMoved (g : Group) (id : Nat) (m : Mask) (q : Path) (o : MMove) : Group :=
  g.withLand { id := id, mask := m, regs := (movedRows g o).filter fun x => q.keeps x.1 }

theorem mmov_completes {o : MMove} (hi : Issues s r g p h (uMMov o)) (hh : p.hold = false) (hm : emaskOf g p h ≠ 0)
    {R : Group → Path → Prop}
    (hR : ∀ q, (∀ n, q.getS n = p.getS n) → R ((g.withMoved s.handle (emaskOf g p h) (p.issued g h (uMMov o)) o).setPath r.p q) q) :
    CompletesIn (.mmov h o) h s r g p s { issuedSt s r g p h (uMMov o) with handle := s.handle + 1 } noByte R :=
  run_completes (G := g.withMoved s.handle (emaskOf g p h) (p.issued g h (uMMov o)) o) hi hh rfl
    (congrArg Res.done (land_eq (c := cxOf s r g p h (uMMov o)) (movedRows g o) hm (group_issuedSt ..))) rfl rfl
    (Laws.kput_put ..) rfl ⟨rfl, rfl, rfl, rfl, rfl⟩ hR

/-- The tile after `mload`: the rows it names from the registers, the others as they were. -/
def loadedTile (g : Group) (o : MMove) : Bank 8 W32 :=
  Bank.gen fun n =>
    let i := n.toNat / 16
    let j := n.toNat % 16
    if firstRow o.rows ≤ i ∧ i < firstRow o.rows + rowRegs o.rows / 2 then
      (g.seen (o.v + BitVec.ofNat 8 (2 * (i - firstRow o.rows) + j / 8))).rd (BitVec.ofNat 3 (j % 8))
    else (g.t.rd o.t).rd n

theorem rows_iff (x : Rows) {i : Nat} (hi : i < 16) :
    (firstRow x ≤ i ∧ i < firstRow x + rowRegs x / 2) ↔ (x = .top → i < 8) ∧ (x = .bot → 8 ≤ i) := by
  cases x <;> simp [firstRow, rowRegs] <;> omega

theorem loadedTile_rd (g : Group) (o : MMove) {i j : Nat} (hi : i < 16) (hj : j < 16) :
    (loadedTile g o).rd (tileIx i j) =
      if (o.rows = .top → i < 8) ∧ (o.rows = .bot → 8 ≤ i) then
        (g.seen (o.v + BitVec.ofNat 8 (2 * (i - (if o.rows = .bot then 8 else 0)) + j / 8))).rd (BitVec.ofNat 3 (j % 8))
      else (g.t.rd o.t).rd (tileIx i j) := by
  have hrow : (16 * i + j) / 16 = i := by omega
  have hcol : (16 * i + j) % 16 = j := by omega
  simp only [loadedTile, Laws.rd_gen, tileIx_toNat hi hj, hrow, hcol, rows_iff o.rows hi]
  rw [firstRow_eq]

theorem mload_completes {o : MMove} (hi : Issues s r g p h (uMLoad o)) (hh : p.hold = false) {R : Group → Path → Prop}
    (hR : ∀ q, (∀ n, q.getS n = p.getS n) → R ((g.setTile o.t (loadedTile g o)).setPath r.p q) q) :
    CompletesIn (.mload h o) h s r g p s (issuedSt s r g p h (uMLoad o)) noByte R :=
  setTile_completes (f := fun g => loadedTile g o) hi hh rfl rfl hR

end Issued

theorem matrixOperations : Claim.MatrixOperations := by
  intro h s r g p hh
  refine ⟨fun o hi hm => ?_, fun o hi hm => mma_partial hi hm, fun d hi => ?_, fun o hi hm => ?_, fun o hi => ?_⟩
  · refine mma_completes hi hh hm fun q hq => ⟨hq, mmaTile g o, rfl, fun i j hri hcj => ?_⟩
    rw [mmaTile_rd g o hri hcj]
    exact ⟨rfl, mmaElt_int8 g o i j, mmaElt_f16 g o i j⟩
  · refine mzero_completes hi hh fun q hq => ⟨hq, rfl, fun i => ?_, fun k hk => setTile_rd_other g _ hk⟩
    exact (congrArg (fun tile => Bank.rd tile i) (setTile_rd g d _)).trans (Laws.rd_fill 0 i)
  · exact mmov_completes hi hh hm fun q hq => ⟨hq, movedRows g o, rfl, fun _ => movedRows_get g o⟩
  · refine mload_completes hi hh fun q hq => ⟨hq, rfl, fun k hk => setTile_rd_other g _ hk, fun i j hri hcj => ?_⟩
    rw [← loadedTile_rd g o hri hcj]
    exact congrArg (fun tile => Bank.rd tile (tileIx i j)) (setTile_rd g o.t (loadedTile g o))

/-! ### `mst` and `mld` (07 R179) -/

theorem opStarts_eq {c : Cx} {s t : State} (h : t.handle = s.handle) :
    opStarts c t = { handAsks t (.path c.r) (.op c.r.g s.handle) with handle := s.handle + 1 } := by
  rw [opStarts, h]

/-- A transfer whose checks have passed starts its operation. -/
theorem transfer_completes {s S : State} {r : PathRef} {g : Group} {p : Path} {h : Hdr} {u : Uses} {i : Instr} {body : Cx → State → Res}
    {k : EngKind} {R : Group → Path → Prop} (hi : Issues s r g p h u) (hh : p.hold = false) (he : exec i s = .next (run u h body s))
    (hb : body (cxOf s r g p h u) (issuedSt s r g p h u) = .done (startOp (cxOf s r g p h u) S k))
    (hS : SameOps (issuedSt s r g p h u) S)
    (hR : ∀ q, (∀ n, q.getS n = p.getS n) → R ((g.withOp s.handle p.mask k).setPath r.p q) q) :
    CompletesIn i h s r g p S { handAsks S (.path r) (.op r.g s.handle) with handle := s.handle + 1 } noByte R := by
  have hg : S.group r.g = _ := (congrArg (KMap.get · r.g) hS.groups).trans (group_issuedSt ..)
  have hhandle : S.handle = s.handle := hS.handle
  have hstart := startOp_eq (c := cxOf s r g p h u) k hg
  rw [opStarts_eq hhandle, hhandle] at hstart
  exact run_completes (G := g.withOp s.handle p.mask k) hi hh he (hb.trans (congrArg Res.done hstart)) rfl rfl
    ((congrArg (KMap.put · r.g _) hS.groups).trans (Laws.kput_put ..)) rfl ⟨rfl, rfl, rfl, rfl, rfl⟩ hR

theorem mst_completes {s S : State} {r : PathRef} {g : Group} {p : Path} {h : Hdr} {o : MMem} {ps : List Place} {R : Group → Path → Prop}
    (hi : Issues s r g p h (uMst o)) (hh : p.hold = false)
    (hrows : rowPlaces o .wr (cxOf s r g p h (uMst o)) (issuedSt s r g p h (uMst o)) = .ok (S, ps))
    (hR : ∀ q, (∀ n, q.getS n = p.getS n) → R ((g.withOp s.handle p.mask (.mst ps (g.t.rd o.t) o.bar)).setPath r.p q) q) :
    CompletesIn (.mst h o) h s r g p S { handAsks S (.path r) (.op r.g s.handle) with handle := s.handle + 1 } noByte R :=
  transfer_completes hi hh rfl (by rw [hrows]; rfl) (rowPlaces_sameOps hi.ready hrows) hR

theorem mld_completes {s S : State} {r : PathRef} {g : Group} {p : Path} {h : Hdr} {o : MMem} {ps : List Place} {R : Group → Path → Prop}
    (hi : Issues s r g p h (uMld o)) (hh : p.hold = false)
    (hrows : rowPlaces o .rd (cxOf s r g p h (uMld o)) (issuedSt s r g p h (uMld o)) = .ok (S, ps))
    (hR : ∀ q, (∀ n, q.getS n = p.getS n) → R ((g.withOp s.handle p.mask (.mld ps o.t o.bar)).setPath r.p q) q) :
    CompletesIn (.mld h o) h s r g p S { handAsks S (.path r) (.op r.g s.handle) with handle := s.handle + 1 } noByte R :=
  transfer_completes hi hh rfl (by rw [hrows]) (rowPlaces_sameOps hi.ready hrows) hR

theorem localLoc_team {s : State} {g : Group} {t : Team} {a : W64} {z : Nat} {write : Bool} (ht : s.team g.team = some t)
    (h0 : 0 ≤ a.toInt) (hz : a.toInt + z ≤ (t.size : Int)) : localLoc s g .s a z write = some (.team g.team a.toNat) := by
  simp only [localLoc, ht]
  exact if_pos ⟨h0, hz⟩

/-- Rows in the team's shared memory lie at their offsets. -/
theorem rowPlaces_team {s : State} {c : Cx} {o : MMem} {k : Acc} {t : Team} {a : Nat → W64}
    (ha : ∀ i, a i = c.p.getS o.a + o.off.signExtend 64 + BitVec.ofNat 64 i * c.p.getS o.b) (hsp : o.sp = .s) (hbar : o.bar = none)
    (ht : s.team c.g.team = some t)
    (hrow : ∀ i, i < 16 → (a i).toNat % 64 = 0 ∧ 0 ≤ (a i).toInt ∧ (a i).toInt + 64 ≤ (t.size : Int)) :
    rowPlaces o k c s = .ok (s, (List.range 16).map fun i => .here [(.team c.g.team (a i).toNat, 64)]) := by
  have haddrs : rowAddrs o c = (List.range 16).map a := List.map_congr_left fun i _ => (ha i).symm
  have haligned : ((List.range 16).map a).find? (fun x => x.toNat % 64 != 0) = none := by
    simp only [List.find?_eq_none, List.forall_mem_map, List.mem_range]
    exact fun i hi => by simp [(hrow i hi).1]
  have hlocs : ((List.range 16).map a).map (fun x => localLoc s c.g .s x 64 (k == .wr)) =
      (List.range 16).map fun i => some (.team c.g.team (a i).toNat) := by
    rw [List.map_map]
    refine List.map_congr_left fun i hi => ?_
    obtain ⟨-, hlow, hhigh⟩ := hrow i (List.mem_range.1 hi)
    exact localLoc_team (write := k == .wr) ht hlow hhigh
  simp only [rowPlaces, haddrs, haligned, hsp, hbar, eSpace, hlocs]
  simp [List.filterMap_map, Function.comp_def]

theorem tileTransfersStart : Claim.TileTransfersStart := by
  intro h s r g p o S ps hh
  refine ⟨fun hi hrows => ?_, fun hi hrows => ?_, fun c k t a ha hsp hbar ht hrow => rowPlaces_team ha hsp hbar ht hrow⟩
  · exact mst_completes hi hh hrows fun q hq => ⟨hq, rfl⟩
  · exact mld_completes hi hh hrows fun q hq => ⟨hq, rfl⟩

/-! ### Completions (07 R177, R179) -/

/-- A group without an operation. -/
def Group.withoutOp (g : Group) (id : Nat) : Group := { g with ops := g.ops.filter fun o => o.id != id }

theorem opOf_eq {s : State} {k id : Nat} {g : Group} {e : EngOp} (hg : s.group k = some g) (he : (g.ops.find? fun o => o.id == id) = some e) :
    opOf s k id = some (g, e) := by
  simp only [opOf, hg, Option.bind_some, he, Option.map_some]

theorem dropOp_eq {s : State} {k : Nat} {g : Group} (id : Nat) (hg : s.group k = some g) :
    dropOp s k id = (dropAsks s (.op k id)).setGroup k (g.withoutOp id) := by
  simp only [dropOp, hg]
  rfl

/-- An operation that waits for no other module goes on at once. -/
theorem afterGo_here {s : State} {k : Nat} {g : Group} {e : EngOp} (f : State → State) (ha : asksOf s (.op k e.id) = []) :
    afterGo s k g e f = f s := by
  simp only [afterGo, ha, List.isEmpty_nil, if_true]

theorem mma_ends {s : State} {k id : Nat} {g : Group} {e : EngOp} {t : TReg} {tile : Bank 8 W32} (hg : s.group k = some g)
    (he : (g.ops.find? fun o => o.id == id) = some e) (hk : e.kind = .mma t tile) :
    exec (.mmaComplete k id) s = .next (s.setGroup k { g with
      ops := g.ops.filter fun o => o.id != id, t := g.t.wr t tile, log := g.log ++ [(.mmaDone id, s.bell.toNat)] }) := by
  obtain ⟨_, _, _, _, _⟩ := e
  cases hk
  show execMmaComplete k id s = _
  simp only [execMmaComplete, opOf_eq hg he]
  rw [addLog_eq _ (group_setGroup ..), setGroup_setGroup]
  rfl

/-! What an arrival changes (07 R192) -/

theorem bar_setBar {s : State} {g : Group} {b : Bar} {x : Barrier} (y : Barrier) (hx : s.bar g b = some x) :
    (s.setBar g b y).bar g b = some y := by
  cases ht : s.team g.team with
  | none => simp [State.bar, ht] at hx
  | some t =>
    cases b with
    | team n => simp [State.bar, State.setBar, ht]
    | cluster n =>
      cases hc : s.cluster t.cluster with
      | none => simp [State.bar, ht, hc] at hx
      | some c =>
        have hteam : (s.setCluster t.cluster { c with cbars := c.cbars.wr n y }).team g.team = some t := ht
        simp [State.bar, State.setBar, ht, hc, hteam]

theorem setBar_rest (s : State) (g : Group) (b : Bar) (x : Barrier) : (s.setBar g b x).groups = s.groups ∧ (s.setBar g b x).mem = s.mem := by
  unfold State.setBar
  split
  · exact ⟨rfl, rfl⟩
  · split
    · exact ⟨rfl, rfl⟩
    · split <;> exact ⟨rfl, rfl⟩

theorem engineArrive_rest (s : State) (g : Group) (b : Option Bar) :
    (engineArrive s g b).groups = s.groups ∧ (engineArrive s g b).mem = s.mem := by
  unfold engineArrive
  split
  · exact ⟨rfl, rfl⟩
  · split
    · exact setBar_rest ..
    · exact ⟨rfl, rfl⟩

/-- An engine operation arrives at the barrier that it names. -/
theorem engineArrive_arrives {s t : State} (ht : t.teams = s.teams) (hc : t.clusters = s.clusters) (g : Group) (b : Option Bar) :
    Arrives s (engineArrive t g b) g b := by
  cases b with
  | none => exact ⟨ht, hc⟩
  | some b =>
    intro x hx
    have hbar : t.bar g b = some x := by
      rw [← hx]
      simp only [State.bar, State.team, State.cluster, ht, hc]
    simp only [engineArrive, hbar]
    exact bar_setBar _ hbar

/-- An operation ends with its group as `G` and its arrival. -/
theorem arrives_ends {s t : State} {k : Nat} {G : Group} (hgroups : ∀ j, j ≠ k → t.group j = s.group j) (g : Group) (bar : Option Bar)
    (hteams : t.teams = s.teams) (hclusters : t.clusters = s.clusters) :
    let u := engineArrive (t.setGroup k G) g bar
    u.group k = some G ∧ (∀ j, j ≠ k → u.group j = s.group j) ∧ u.mem = t.mem ∧ Arrives s u g bar := by
  obtain ⟨hgr, hmem⟩ := engineArrive_rest (t.setGroup k G) g bar
  have hget (j : Nat) : (engineArrive (t.setGroup k G) g bar).group j = (t.setGroup k G).group j := congrArg (KMap.get · j) hgr
  exact ⟨(hget k).trans (group_setGroup ..), fun j hj => ((hget j).trans (group_setGroup_other _ _ hj)).trans (hgroups j hj), hmem,
    engineArrive_arrives (t := t.setGroup k G) hteams hclusters g bar⟩

/-! `mst` writes its rows (07 R179) -/

theorem sendPieces_sameOps (ps : List (Nat × Nat)) (s : State) (d : List W8) : SameOps s (sendPieces s ps d) := by
  induction ps generalizing s d with
  | nil => exact .refl s
  | cons x ps ih =>
    obtain ⟨pa, n⟩ := x
    unfold sendPieces
    extract_lets t
    refine SameOps.trans (t := t) ?_ (ih t _)
    unfold t
    split
    · exact ⟨rfl, rfl⟩
    · exact .refl s

theorem writeLoc_sameOps (s : State) (l : Loc) (d : List W8) : SameOps s (s.writeLoc l d) := by
  unfold State.writeLoc
  extract_lets t
  have ht : SameOps s t := ⟨rfl, rfl⟩
  split
  · exact ht.trans ((sendPieces_sameOps _ _ _).since rfl rfl)
  · split <;> exact ⟨rfl, rfl⟩
  · split <;> exact ⟨rfl, rfl⟩
  all_goals exact ⟨rfl, rfl⟩

theorem landElem_sameOps (rows : List Place) (tile : Bank 8 W32) (s : State) (n : Nat) : SameOps s (landElem rows tile s n) := by
  unfold landElem
  split
  · exact writeLoc_sameOps ..
  · exact .refl s

theorem landElem_here {rows : List Place} (tile : Bank 8 W32) (s : State) {i j : Nat} {l : Loc} {m : Nat} (hj : j < 16)
    (hrow : rows[i]? = some (.here [(l, m)])) :
    landElem rows tile s (16 * i + j) = s.writeLoc (l.plus (4 * j)) (natLe 4 (tile.rd (tileIx i j)).toNat) := by
  simp only [landElem, show (16 * i + j) / 16 = i by omega, show (16 * i + j) % 16 = j by omega, hrow]

theorem mst_ends {s : State} {k id : Nat} {g : Group} {e : EngOp} {rows : List Place} {tile : Bank 8 W32} {bar : Option Bar}
    (hg : s.group k = some g) (he : (g.ops.find? fun o => o.id == id) = some e) (hk : e.kind = .mst rows tile bar)
    (ha : asksOf s (.op k id) = []) :
    ∃ t, exec (.mstComplete k id) s = .next t ∧ t.group k = some (g.withoutOp id) ∧ (∀ j, j ≠ k → t.group j = s.group j) ∧
      t.mem = (e.toLand.foldl (landElem rows tile) s).mem ∧ Arrives (e.toLand.foldl (landElem rows tile) s) t g bar := by
  have hid : e.id = id := by simpa using List.find?_some he
  have hM := SameOps.foldl (landElem_sameOps rows tile) e.toLand s
  have hgroup (j : Nat) : (e.toLand.foldl (landElem rows tile) s).group j = s.group j := congrArg (KMap.get · j) hM.groups
  have hexec : exec (.mstComplete k id) s = .next (engineArrive (dropOp (e.toLand.foldl (landElem rows tile) s) k id) g bar) := by
    show execMstComplete k id s = _
    simp only [execMstComplete, opOf_eq hg he, hk, afterGo_here _ (hid ▸ ha)]
  rw [dropOp_eq id ((hgroup k).trans hg)] at hexec
  obtain ⟨hG, hothers, hmem, harr⟩ :=
    arrives_ends (s := e.toLand.foldl (landElem rows tile) s) (t := dropAsks (e.toLand.foldl (landElem rows tile) s) (.op k id))
      (G := g.withoutOp id) (k := k) (fun _ _ => rfl) g bar rfl rfl
  exact ⟨_, hexec, hG, fun j hj => (hothers j hj).trans (hgroup j), hmem, harr⟩

/-! `mld` reads its rows (07 R179, 20 R412) -/

/-- Nothing changes of the groups, the teams and the grids, nor of what other modules have been asked. -/
structure SameJobs (s t : State) : Prop where
  groups : t.groups = s.groups
  teams : t.teams = s.teams
  grids : t.grids = s.grids
  asks : t.asks = s.asks

theorem sramMeet_sameJobs (s : State) (vf : Nat) (hit : SramAt → Bool) : SameJobs s (sramMeet s vf hit).2 := by
  unfold sramMeet
  extract_lets es log
  split
  · exact ⟨rfl, rfl, rfl, rfl⟩
  · exact List.foldlRecOn (motive := SameJobs s) es _ ⟨rfl, rfl, rfl, rfl⟩ fun _ ht _ _ => ⟨ht.groups, ht.teams, ht.grids, ht.asks⟩

theorem sramLocs_sameJobs (s : State) (vf : Nat) (l : List (Loc × Nat)) : SameJobs s (sramLocs s vf l).2 := sramMeet_sameJobs ..

theorem SameJobs.vfOf {s t : State} (h : SameJobs s t) (g : Group) : t.vfOf g = s.vfOf g := by
  simp only [State.vfOf, State.gridOf, State.team, State.grid, h.teams, h.grids]

theorem answersOf_nil {s t : State} {who : Asker} (h : asksOf s who = []) (ht : t.asks = s.asks) : answersOf t who = [] := by
  have hasks : asksOf t who = [] := (congrArg (List.filter _) ht).trans h
  rw [answersOf, hasks]
  rfl

section Mld
variable {s S : State} {k id : Nat} {g : Group} {e : EngOp} {rows : List (List (Loc × Nat))} {tr : TReg} {bar : Option Bar} {x : Option W8}

/-- An `mld` whose rows no other operation owns ends as its read of them does. -/
theorem exec_mldComplete (hg : s.group k = some g) (he : (g.ops.find? fun o => o.id == id) = some e)
    (hk : e.kind = .mld (rows.map .here) tr bar) (ha : asksOf s (.op k id) = []) (hfree : rowsOwned s (rows.map .here) = false)
    (hread : sramLocs s (s.vfOf g) ((rows.map Place.here).flatMap Place.all) = (x, S)) :
    exec (.mldComplete k id) s = .next (match x with
      | some c => endContext S (s.vfOf g) c 0
      | none => engineArrive ((dropAsks S (.op k id)).setGroup k ((g.withoutOp id).setTile tr (tileOf (rows.map S.readLocs)))) g bar) := by
  have hid : e.id = id := by simpa using List.find?_some he
  have hS : SameJobs s S := by
    simpa only [hread] using sramLocs_sameJobs s (s.vfOf g) ((rows.map Place.here).flatMap Place.all)
  have hgS : S.group k = some g := (congrArg (KMap.get · k) hS.groups).trans hg
  have htile : readPlaces S (rows.map .here) [] = rows.map S.readLocs := by
    rw [readPlaces_eq, List.map_map]; rfl
  show execMldComplete k id s = _
  simp only [execMldComplete, opOf_eq hg he, hk, afterGo_here _ (hid ▸ ha), hfree, hread, Bool.false_eq_true, if_false]
  cases x with
  | some c => exact congrArg (fun vf => (.next (endContext S vf c 0) : Out)) (hS.vfOf g)
  | none =>
    simp only [answersOf_nil ha hS.asks, dropOp_eq id hgS, group_setGroup]
    rw [setGroup_setGroup, ← htile]
    rfl

theorem mld_ends (hg : s.group k = some g) (he : (g.ops.find? fun o => o.id == id) = some e)
    (hk : e.kind = .mld (rows.map .here) tr bar) (ha : asksOf s (.op k id) = []) (hfree : rowsOwned s (rows.map .here) = false)
    (hread : sramLocs s (s.vfOf g) ((rows.map Place.here).flatMap Place.all) = (none, S)) :
    ∃ t, exec (.mldComplete k id) s = .next t ∧ t.group k = some ((g.withoutOp id).setTile tr (tileOf (rows.map S.readLocs))) ∧
      (∀ j, j ≠ k → t.group j = S.group j) ∧ t.mem = S.mem ∧ Arrives S t g bar :=
  ⟨_, exec_mldComplete hg he hk ha hfree hread, arrives_ends (fun _ _ => rfl) g bar rfl rfl⟩

theorem loadedRows_rd (S : State) (rows : List (List (Loc × Nat))) {i j : Nat} (hi : i < 16) (hj : j < 16) :
    (tileOf (rows.map S.readLocs)).rd (tileIx i j) = BitVec.ofNat 32 (field (S.readLocs (rows.getD i [])) (4 * j) 4) := by
  have hrow : (rows.map S.readLocs).getD i [] = S.readLocs (rows.getD i []) := List.getD_map rows [] S.readLocs
  rw [tileOf_rd _ hi hj, hrow]

end Mld

theorem matrixCompletions : Claim.MatrixCompletions := by
  refine ⟨fun s k id g e hg he => ⟨fun t tile hk => mma_ends hg he hk, fun rows tile bar hk ha => mst_ends hg he hk ha, ?_⟩, ?_⟩
  · refine fun rows tr bar hk _ ha hfree x S hread => ⟨fun c hx => ?_, fun hx => ?_⟩
    · subst hx
      exact exec_mldComplete hg he hk ha hfree hread
    · subst hx
      obtain ⟨t, hexec, hG, hothers, hmem, harr⟩ := mld_ends hg he hk ha hfree hread
      refine ⟨t, _, hexec, hG, hmem, hothers, rfl, fun n hn => setTile_rd_other _ _ hn, harr, fun i j hi hj => ?_⟩
      rw [setTile_rd, loadedRows_rd S rows hi hj]
  · exact fun rows tile s i j l m _ hj hrow => landElem_here tile s hj hrow

/-- Settles O43: each instruction by what its effect leaves at issue, the transfers by what their checks leave alone, each completion by what
it writes and its arrival. -/
theorem matrixEngine : Obligations.MatrixEngine :=
  ⟨matrixOperations, tileTransfersStart, matrixCompletions⟩

end Sys2Proof.Machine
end

section
/-! SUPPORT and PROOFS. The scalar instructions (04 R105-R108): the arithmetic of each result, and the instruction that writes it. -/

namespace Sys2Proof.Machine

/-! ### Sums, differences and products (04 R105, 03 R76) -/

/-- Under `.sat` a result is clamped to INT64; without it the exact result wraps. -/
theorem narrow_int64 (sat : Bool) (x : Int) :
    narrow 64 sat false x = if sat then BitVec.ofInt 64 (max (-2 ^ 63) (min (2 ^ 63 - 1) x)) else BitVec.ofInt 64 x := by
  rw [narrow_settled]
  cases sat <;> rfl

theorem ofInt_toInt_add {w : Nat} (a b : BitVec w) : BitVec.ofInt w (a.toInt + b.toInt) = a + b := by
  rw [BitVec.ofInt_add, BitVec.ofInt_toInt, BitVec.ofInt_toInt]

theorem ofInt_toInt_sub {w : Nat} (a b : BitVec w) : BitVec.ofInt w (a.toInt - b.toInt) = a - b := by
  rw [Int.sub_eq_add_neg, BitVec.ofInt_add, BitVec.ofInt_neg, BitVec.ofInt_toInt, BitVec.ofInt_toInt, BitVec.sub_eq_add_neg]

theorem ofInt_toInt_mul {w : Nat} (a b : BitVec w) : BitVec.ofInt w (a.toInt * b.toInt) = a * b := by
  rw [BitVec.ofInt_mul, BitVec.ofInt_toInt, BitVec.ofInt_toInt]

theorem upperWord_ofInt (z : Int) : (BitVec.ofInt 128 z >>> 64).setWidth 64 = BitVec.ofInt 64 (z / 2 ^ 64) := by
  apply BitVec.eq_of_toNat_eq
  simp only [BitVec.toNat_setWidth, BitVec.toNat_ushiftRight, BitVec.toNat_ofInt, Nat.shiftRight_eq_div_pow]
  omega

/-- No product of two signed words overflows 128 bits. -/
theorem upperProduct_eq (a b : W64) :
    ((a.signExtend 128 * b.signExtend 128) >>> 64).setWidth 64 = BitVec.ofInt 64 (a.toInt * b.toInt / 2 ^ 64) := by
  rw [← ofInt_toInt_mul, BitVec.toInt_signExtend_of_le (by omega), BitVec.toInt_signExtend_of_le (by omega), upperWord_ofInt]

/-! ### Minima and maxima (04 R105) -/

theorem signedMin_eq {w : Nat} (a b : BitVec w) : (if b.slt a then b else a) = BitVec.ofInt w (min a.toInt b.toInt) := by
  simp only [BitVec.slt_eq_decide, decide_eq_true_eq]
  split
  · rw [Int.min_eq_right (by omega), BitVec.ofInt_toInt]
  · rw [Int.min_eq_left (by omega), BitVec.ofInt_toInt]

theorem signedMax_eq {w : Nat} (a b : BitVec w) : (if a.slt b then b else a) = BitVec.ofInt w (max a.toInt b.toInt) := by
  simp only [BitVec.slt_eq_decide, decide_eq_true_eq]
  split
  · rw [Int.max_eq_right (by omega), BitVec.ofInt_toInt]
  · rw [Int.max_eq_left (by omega), BitVec.ofInt_toInt]

theorem unsignedMin_eq {w : Nat} (a b : BitVec w) : (if b.ult a then b else a) = BitVec.ofNat w (min a.toNat b.toNat) := by
  simp only [BitVec.ult_eq_decide, decide_eq_true_eq]
  split
  · rw [Nat.min_eq_right (by omega), BitVec.ofNat_toNat, BitVec.setWidth_eq]
  · rw [Nat.min_eq_left (by omega), BitVec.ofNat_toNat, BitVec.setWidth_eq]

theorem unsignedMax_eq {w : Nat} (a b : BitVec w) : (if a.ult b then b else a) = BitVec.ofNat w (max a.toNat b.toNat) := by
  simp only [BitVec.ult_eq_decide, decide_eq_true_eq]
  split
  · rw [Nat.max_eq_right (by omega), BitVec.ofNat_toNat, BitVec.setWidth_eq]
  · rw [Nat.max_eq_left (by omega), BitVec.ofNat_toNat, BitVec.setWidth_eq]

/-! ### Shifts (04 R105) -/

theorem shiftLeft_eq_ofNat {w : Nat} (a : BitVec w) (n : Nat) : a <<< n = BitVec.ofNat w (a.toNat * 2 ^ n) := by
  apply BitVec.eq_of_toNat_eq
  rw [BitVec.toNat_shiftLeft, BitVec.toNat_ofNat, Nat.shiftLeft_eq]

theorem ushiftRight_eq_ofNat {w : Nat} (a : BitVec w) (n : Nat) : a >>> n = BitVec.ofNat w (a.toNat / 2 ^ n) := by
  rw [← Nat.shiftRight_eq_div_pow, ← BitVec.toNat_ushiftRight, BitVec.ofNat_toNat, BitVec.setWidth_eq]

theorem sshiftRight_eq_ofInt {w : Nat} (a : BitVec w) (n : Nat) : a.sshiftRight n = BitVec.ofInt w (a.toInt / 2 ^ n) := by
  rw [BitVec.sshiftRight, Int.shiftRight_eq_div_pow]
  rfl

/-! ### Bit fields (04 R106) -/

theorem getLsbD_ones64 (w : Nat) {i : Nat} (hi : i < 64) : (ones64 w).getLsbD i = decide (i < w) := by
  simp only [ones64, BitVec.getLsbD_not, BitVec.getLsbD_shiftLeft, BitVec.not_zero, BitVec.getLsbD_allOnes]
  by_cases h : i < w
  · simp [hi, h]
  · simp [hi, h]; omega

/-- The field of `w` bits from `pos`, zero-extended; bits past 63 read zero. -/
theorem getLsbD_extracted (a : W64) (pos w : Nat) {i : Nat} (hi : i < 64) :
    ((a >>> pos) &&& ones64 w).getLsbD i = (decide (i < w ∧ pos + i ≤ 63) && a.getLsbD (pos + i)) := by
  rw [BitVec.getLsbD_and, BitVec.getLsbD_ushiftRight, getLsbD_ones64 w hi]
  by_cases h : pos + i ≤ 63
  · simp [h, Bool.and_comm]
  · simp [h, BitVec.getLsbD_of_ge a (pos + i) (by omega)]

/-- The field of `w` bits from `pos` replaced by the low bits of `a`. -/
theorem getLsbD_inserted (d a : W64) (pos w : Nat) {i : Nat} (hi : i < 64) :
    ((d &&& ~~~(ones64 w <<< pos)) ||| ((a <<< pos) &&& (ones64 w <<< pos))).getLsbD i =
      if pos ≤ i ∧ i < pos + w then a.getLsbD (i - pos) else d.getLsbD i := by
  have hmask : (ones64 w <<< pos).getLsbD i = decide (pos ≤ i ∧ i < pos + w) := by
    rw [BitVec.getLsbD_shiftLeft, getLsbD_ones64 w (by omega)]
    by_cases h : i < pos
    · simp [h]
    · simp [hi, show pos ≤ i by omega, Nat.sub_lt_iff_lt_add (Nat.le_of_not_lt h), Nat.add_comm]
  simp only [BitVec.getLsbD_or, BitVec.getLsbD_and, BitVec.getLsbD_not, BitVec.getLsbD_shiftLeft, hmask, hi]
  by_cases h : pos ≤ i ∧ i < pos + w
  · simp [h, show ¬ i < pos by omega]
  · simp [h]

/-! ### Counts (04 R105) -/

/-- Leading zeros: `x` is less than the power of two that they leave, and where it is not zero at least half of it. -/
theorem zclz_bounds {w : Nat} (x : BitVec w) :
    zclz x ≤ w ∧ x.toNat < 2 ^ (w - zclz x) ∧ (zclz x < w → 2 ^ (w - 1 - zclz x) ≤ x.toNat) := by
  unfold zclz
  split
  · next hx => simp [hx]
  · next hx =>
    have hne : x.toNat ≠ 0 := fun h => hx (BitVec.eq_of_toNat_eq h)
    have hlog : x.toNat.log2 < w := (Nat.log2_lt hne).2 x.isLt
    rw [show w - (w - 1 - x.toNat.log2) = x.toNat.log2 + 1 by omega, show w - 1 - (w - 1 - x.toNat.log2) = x.toNat.log2 by omega]
    exact ⟨by omega, Nat.lt_log2_self, fun _ => Nat.log2_self_le hne⟩

theorem clz64_bounds (a : W64) : (BitVec.ofNat 64 (zclz a)).toNat ≤ 64 ∧ a.toNat < 2 ^ (64 - (BitVec.ofNat 64 (zclz a)).toNat) ∧
    ((BitVec.ofNat 64 (zclz a)).toNat < 64 → 2 ^ (63 - (BitVec.ofNat 64 (zclz a)).toNat) ≤ a.toNat) := by
  have hbounds := zclz_bounds a
  rwa [BitVec.toNat_ofNat, Nat.mod_eq_of_lt (by omega)]

theorem popc_eq_countP {w : Nat} (x : BitVec w) : popc x = (List.range w).countP fun i => x.getLsbD i := by
  rw [popc, ← List.foldl_filter (p := fun i => x.getLsbD i) (f := fun n _ => n + 1), List.foldl_add_const, List.countP_eq_length_filter]
  omega

/-! ### The instructions -/

section Writes
variable {i : Instr} {h : Hdr}

theorem sSum_writes {o : SSat} {v : Path → W64} (f : Int → Int → Int) (he : ∀ s, exec i s = sSum h o f s)
    (hv : ∀ p, narrow 64 o.sat false (f (p.getS o.a).toInt (p.opB o.b).toInt) = v p) :
    WritesScalar i h (uSSat o) o.d fun _ p => v p :=
  run_scalar _ h o.d _ _ i he fun _ _ _ p => hv p

theorem sBin_writes {o : SBin} {v : Path → W64} (f : W64 → W64 → W64) (he : ∀ s, exec i s = sBin h o f s)
    (hv : ∀ p, f (p.getS o.a) (p.opB o.b) = v p) : WritesScalar i h (uSBin o) o.d fun _ p => v p :=
  run_scalar _ h o.d _ _ i he fun _ _ _ p => hv p

theorem sShift_writes {o : SBin} {v : Path → W64} (f : W64 → Nat → W64) (he : ∀ s, exec i s = sShift h o f s)
    (hv : ∀ p, f (p.getS o.a) ((p.opU o.b).toNat % 64) = v p) : WritesScalar i h (uSBin o) o.d fun _ p => v p :=
  run_scalar _ h o.d _ _ i he fun _ _ _ p => hv p

theorem scalar_writes {u : Uses} {d : SReg} {v : Group → Path → W64} (f : Cx → W64)
    (he : ∀ s, exec i s = .next (run u h (scalar d f) s)) (hv : ∀ s r g p, f (cxOf s r g p h u) = v g p) : WritesScalar i h u d v :=
  run_scalar u h d f _ i he hv

end Writes

theorem scalarArithmeticResults : Claim.ScalarArithmeticResults := by
  refine fun h => ⟨fun o => ?sadd, fun o => ?ssub, fun o => ?saddi, fun o => ?smul, fun o => ?smulh, fun o => ?sand, fun o => ?sor,
    fun o => ?sxor, fun o => ?smin, fun o => ?smax, fun o => ?sminu, fun o => ?smaxu, fun o => ?scmp⟩
  case sadd => exact sSum_writes (· + ·) (fun _ => rfl) fun _ => by rw [narrow_int64, ofInt_toInt_add]
  case ssub => exact sSum_writes (· - ·) (fun _ => rfl) fun _ => by rw [narrow_int64, ofInt_toInt_sub]
  case smul => exact sBin_writes (· * ·) (fun _ => rfl) fun _ => (ofInt_toInt_mul ..).symm
  case smulh =>
    exact sBin_writes (fun a b => ((a.signExtend 128 * b.signExtend 128) >>> 64).setWidth 64) (fun _ => rfl) fun _ => upperProduct_eq ..
  case sand => exact sBin_writes (· &&& ·) (fun _ => rfl) fun _ => rfl
  case sor => exact sBin_writes (· ||| ·) (fun _ => rfl) fun _ => rfl
  case sxor => exact sBin_writes (· ^^^ ·) (fun _ => rfl) fun _ => rfl
  case smin => exact sBin_writes (fun a b => if b.slt a then b else a) (fun _ => rfl) fun _ => signedMin_eq ..
  case smax => exact sBin_writes (fun a b => if a.slt b then b else a) (fun _ => rfl) fun _ => signedMax_eq ..
  case sminu => exact sBin_writes (fun a b => if b.ult a then b else a) (fun _ => rfl) fun _ => unsignedMin_eq ..
  case smaxu => exact sBin_writes (fun a b => if a.ult b then b else a) (fun _ => rfl) fun _ => unsignedMax_eq ..
  case saddi | scmp => exact scalar_writes _ (fun _ => rfl) fun _ _ _ _ => rfl

/-- Settles O31: the condition and both sources are read from the path as it issues, whose scalars are those that it had, and the result is
written after. -/
theorem selectReadsItsDestination : Obligations.SelectReadsItsDestination :=
  fun _ _ => scalar_writes _ (fun _ => rfl) fun _ _ _ _ => rfl

theorem scalarBitResults : Claim.ScalarBitResults := by
  refine fun h => ⟨fun o => ?sshl, fun o => ?sshr, fun o => ?ssra, fun o => ?sbfx, fun o => ?sbfi, fun o => ?sclz, fun o => ?spopc,
    selectReadsItsDestination h, fun o => ?sli, fun o => ?slih, fun o => ?smov⟩
  case sshl => exact sShift_writes (· <<< ·) (fun _ => rfl) fun _ => shiftLeft_eq_ofNat ..
  case sshr => exact sShift_writes (· >>> ·) (fun _ => rfl) fun _ => ushiftRight_eq_ofNat ..
  case ssra => exact sShift_writes BitVec.sshiftRight (fun _ => rfl) fun _ => sshiftRight_eq_ofInt ..
  case sbfx => exact run_scalar _ h _ _ _ _ (fun _ => rfl) fun _ _ _ _ _ hi => getLsbD_extracted _ _ _ hi
  case sbfi => exact run_scalar _ h _ _ _ _ (fun _ => rfl) fun _ _ _ _ _ hi => getLsbD_inserted _ _ _ _ hi
  case sclz => exact run_scalar _ h _ _ _ _ (fun _ => rfl) fun _ _ _ _ => clz64_bounds _
  case spopc => exact scalar_writes _ (fun _ => rfl) fun _ _ _ _ => congrArg (BitVec.ofNat 64) (popc_eq_countP _)
  case sli | slih | smov => exact scalar_writes _ (fun _ => rfl) fun _ _ _ _ => rfl

/-- The rounding is the model's own (03 R90); that it is of the operands' low bits is what each effect says. -/
theorem scalarFloatResults : Claim.ScalarFloatResults := by
  refine fun h => ⟨fun o => ?sfadd, fun o => ?sfmul, fun o => ?sfma, fun o => ?sfcmp, fun o => ?sfcvt⟩
  case sfadd | sfmul | sfma | sfcmp | sfcvt => exact scalar_writes _ (fun _ => rfl) fun _ _ _ _ => rfl

/-- Settles O33: each instruction writes what its effect computes, which the lemmas above turn into the rule's words. -/
theorem scalarResults : Obligations.ScalarResults :=
  ⟨scalarArithmeticResults, scalarBitResults, scalarFloatResults⟩

end Sys2Proof.Machine
end

section
/-! SUPPORT and PROOFS. Branches, jumps, loops and merge points where nothing merges (04 R110-R119). -/

namespace Sys2Proof.Machine

/-! ### Lanes of a mask -/

theorem mem_lanes {m : Mask} {l : Lane} : l ∈ m.lanes ↔ m.has l = true := by
  have hall : l ∈ allLanes := by revert l; decide
  rw [Mask.lanes, List.mem_filter, and_iff_right hall]

theorem of_ne_zero {f : Lane → Bool} {l : Lane} (hl : f l = true) : Mask.of f ≠ 0 := by
  intro h0
  have hhas := Laws.has_of f l
  rw [h0, hl] at hhas
  simp [Mask.has] at hhas

theorem of_eq_zero {f : Lane → Bool} (hf : ∀ l, f l = false) : Mask.of f = 0 := by
  rw [show f = fun _ => false from funext hf]
  rfl

/-! ### Targets in registers (04 R110) -/

theorem misaligned8_eq_true {a : W64} : misaligned8 a = true ↔ a &&& 7 ≠ 0 := bne_iff_ne

theorem misaligned8_eq_false {a : W64} : misaligned8 a = false ↔ a &&& 7 = 0 := bne_eq_false_iff_eq

theorem jumpTo_aligned {a : W64} (c : Cx) (s : State) (ha : a &&& 7 = 0) : jumpTo c s a = .jump s a := by
  rw [jumpTo, misaligned8_eq_false.2 ha]; rfl

theorem jumpTo_misaligned {a : W64} (c : Cx) (s : State) (ha : a &&& 7 ≠ 0) :
    jumpTo c s a = .fault s (FaultInfo.at cMisaligned c.p.mask a) :=
  if_pos (misaligned8_eq_true.2 ha)

theorem callBody_misaligned {target : Cx → W64} {c : Cx} (s : State) (ha : target c &&& 7 ≠ 0) :
    callBody target c s = .fault s (FaultInfo.at cMisaligned c.p.mask (target c)) :=
  if_pos (misaligned8_eq_true.2 ha)

theorem retBody_misaligned {c : Cx} (s : State) (ha : c.p.getS 62 &&& 7 ≠ 0) :
    retBody c s = .fault s (FaultInfo.at cMisaligned c.p.mask (c.p.getS 62)) :=
  if_pos (misaligned8_eq_true.2 ha)

section Bodies
variable {s t : State} {r : PathRef} {g : Group} {p : Path} {h : Hdr} {u : Uses}

/-- The lanes that take a branch are those of EMASK (04 R111). -/
theorem taken_cxOf : taken h (cxOf s r g p h u) = emaskOf g p h := rfl

theorem pairs64_rd (g : Group) (a : VReg) (l : Lane) : (g.pairs64 a).rd l = g.pair a l := Laws.rd_gen ..

/-! ### `bru` and `br` (04 R112, R113) -/

/-- Where `bru` goes: to its target where every lane takes it, or, of lanes that disagree, the lowest (04 R112). -/
def bruDest (g : Group) (p : Path) (h : Hdr) (toff : W32) : W64 :=
  if emaskOf g p h = p.mask ∨ (emaskOf g p h ≠ 0 ∧ (emaskOf g p h).has p.mask.low) then brTarget p.pc toff else p.pc + hdrLen h

theorem bruBody_goes (toff : W32) (hc : emaskOf g p h = p.mask ∨ emaskOf g p h = 0 ∨ g.uchk = false) :
    bruBody h toff (cxOf s r g p h u) t = .jump t (bruDest g p h toff) ∨
      bruBody h toff (cxOf s r g p h u) t = .done t ∧ bruDest g p h toff = p.pc + hdrLen h := by
  by_cases hall : emaskOf g p h = p.mask
  · rw [bruDest, if_pos (.inl hall)]
    exact .inl (if_pos hall)
  by_cases hnone : emaskOf g p h = 0
  · rw [bruDest, if_neg fun hgo => hgo.elim hall fun hgo => hgo.1 hnone]
    exact .inr ⟨(if_neg hall).trans (if_pos hnone), rfl⟩
  have hoff : ¬ g.uchk = true := by simp [(hc.resolve_left hall).resolve_left hnone]
  have hbody : bruBody h toff (cxOf s r g p h u) t =
      if (emaskOf g p h).has p.mask.low then .jump t (brTarget p.pc toff) else .done t :=
    (if_neg hall).trans ((if_neg hnone).trans (if_neg hoff))
  have hdest : bruDest g p h toff = if (emaskOf g p h).has p.mask.low then brTarget p.pc toff else p.pc + hdrLen h := by
    simp only [bruDest, hall, hnone, false_or, ne_eq, not_false_eq_true, true_and]
  rw [hbody, hdest]
  split
  · exact .inl rfl
  · exact .inr ⟨rfl, rfl⟩

theorem bruBody_disagrees (toff : W32) (hall : emaskOf g p h ≠ p.mask) (hnone : emaskOf g p h ≠ 0) (huchk : g.uchk = true) :
    bruBody h toff (cxOf s r g p h u) t = .fault t (FaultInfo.of cUniform p.mask) :=
  (if_neg hall).trans ((if_neg hnone).trans (if_pos huchk))

theorem brBody_all (o : Br) (hall : emaskOf g p h = p.mask) : brBody h o (cxOf s r g p h u) t = .jump t (brTarget p.pc o.toff) := by
  have hrest : p.mask &&& ~~~(emaskOf g p h) = 0 := by simp [hall]
  exact if_pos hrest

theorem brBody_none (o : Br) (hmask : p.mask ≠ 0) (hnone : emaskOf g p h = 0) : brBody h o (cxOf s r g p h u) t = .done t := by
  have hrest : p.mask &&& ~~~(emaskOf g p h) ≠ 0 := by
    rwa [hnone, show ~~~(0 : Mask) = BitVec.allOnes 8 from rfl, BitVec.and_allOnes]
  exact (if_neg hrest).trans (if_pos hnone)

/-! ### `brx` (04 R114) -/

theorem brxBody_misaligned (o : Brx) {l : Lane} (hl : (emaskOf g p h).has l = true) (hpair : g.pair o.a l &&& 7 ≠ 0) :
    brxBody o (cxOf s r g p h u) t = .fault t (FaultInfo.lanes cMisaligned
      (Mask.of fun l => (emaskOf g p h).has l && g.pair o.a l &&& 7 != 0) (g.pairs64 o.a)) := by
  have hbad : (Mask.of fun l => (emaskOf g p h).has l && misaligned8 (g.pair o.a l)) ≠ 0 :=
    of_ne_zero (l := l) (by rw [hl, misaligned8_eq_true.2 hpair]; rfl)
  have hcx : (cxOf s r g p h u).g.pairs64 o.a = g.pairs64 o.a := rfl
  have hem : (cxOf s r g p h u).em = emaskOf g p h := rfl
  simp only [brxBody, hcx, hem, pairs64_rd]
  exact if_pos hbad

theorem brxBody_goes (o : Brx) (haligned : ∀ l, (emaskOf g p h).has l → g.pair o.a l &&& 7 = 0)
    (hsame : ∀ l, p.mask.has l → brxDest g p h o l = brxDest g p h o p.mask.low) :
    brxBody o (cxOf s r g p h u) t = .jump t (brxDest g p h o p.mask.low) := by
  have hbad : (Mask.of fun l => (emaskOf g p h).has l && misaligned8 (g.pair o.a l)) = 0 := of_eq_zero fun l => by
    by_cases hl : (emaskOf g p h).has l = true
    · rw [misaligned8_eq_false.2 (haligned l hl), Bool.and_false]
    · rw [Bool.eq_false_of_not_eq_true hl, Bool.false_and]
  have hlanes : (p.mask.lanes.all fun l => brxDest g p h o l == brxDest g p h o p.mask.low) = true :=
    List.all_eq_true.2 fun l hl => beq_iff_eq.2 (hsame l (mem_lanes.1 hl))
  have hcx : (cxOf s r g p h u).g.pairs64 o.a = g.pairs64 o.a := rfl
  have hem : (cxOf s r g p h u).em = emaskOf g p h := rfl
  simp only [brxBody, hcx, hem, pairs64_rd, Laws.rd_gen]
  exact (if_neg (not_not.2 hbad)).trans (if_pos hlanes)

/-! ### `jmpv` (04 R115) -/

theorem jmpvBody_eq (a : VReg) : jmpvBody a (cxOf s r g p h u) t =
    if (p.mask.lanes.any fun l => g.pair a l != g.pair a p.mask.low) && g.uchk then .fault t (FaultInfo.of cUniform p.mask)
    else jumpTo (cxOf s r g p h u) t (g.pair a p.mask.low) := by
  have hcx : (cxOf s r g p h u).g.pairs64 a = g.pairs64 a := rfl
  simp only [jmpvBody, hcx, pairs64_rd]
  rfl

theorem jmpvBody_goes (a : VReg) (haligned : g.pair a p.mask.low &&& 7 = 0)
    (hsame : g.uchk = false ∨ ∀ l, p.mask.has l → g.pair a l = g.pair a p.mask.low) :
    jmpvBody a (cxOf s r g p h u) t = .jump t (g.pair a p.mask.low) := by
  have hpass : ((p.mask.lanes.any fun l => g.pair a l != g.pair a p.mask.low) && g.uchk) = false := by
    rcases hsame with huchk | hsame
    · rw [huchk, Bool.and_false]
    · rw [List.any_eq_false.2 fun l hl => by simp [hsame l (mem_lanes.1 hl)], Bool.false_and]
  rw [jmpvBody_eq, hpass]
  exact jumpTo_aligned _ _ haligned

theorem jmpvBody_disagrees (a : VReg) (huchk : g.uchk = true) {l : Lane} (hl : p.mask.has l = true)
    (hdiff : g.pair a l ≠ g.pair a p.mask.low) : jmpvBody a (cxOf s r g p h u) t = .fault t (FaultInfo.of cUniform p.mask) := by
  have hany : (p.mask.lanes.any fun l => g.pair a l != g.pair a p.mask.low) = true :=
    List.any_eq_true.2 ⟨l, mem_lanes.2 hl, bne_iff_ne.2 hdiff⟩
  rw [jmpvBody_eq, hany, huchk]
  rfl

/-! ### `rcv` (04 R117) -/

/-- A path does not arrive that runs at supervisor level, is owed to no record, or stands elsewhere. -/
theorem arriveAt_elsewhere (c : Cx) (t : State) (hc : c.p.sup = true ∨ c.p.join = none ∨ c.p.rcv ≠ some c.pc) : arriveAt c t = .done t := by
  unfold arriveAt
  split
  · rfl
  · next hsup =>
    split
    · next hjoin => exact if_neg ((hc.resolve_left hsup).resolve_left (by simp [hjoin]))
    · rfl

theorem rcvBody_elsewhere (hser : g.ser = none) (hc : p.sup = true ∨ p.join = none ∨ p.rcv ≠ some p.pc) :
    rcvBody (cxOf s r g p h u) t = .done t := by
  have hcx : (cxOf s r g p h u).g.ser = none := hser
  rw [rcvBody, hcx]
  exact arriveAt_elsewhere _ _ hc

/-! ### `sloop` (04 R118) -/

theorem keeps_setS (g : Group) (p : Path) (d : SReg) (v : W64) : Keeps r g g p ((p.issued g h u).setS d v) := by
  unfold Path.setS
  split <;> exact ⟨rfl, ⟨rfl, rfl, rfl⟩, ⟨rfl, rfl, rfl, rfl⟩, rfl, fun _ _ => rfl, rfl, rfl, rfl, rfl, rfl⟩

/-- Where `sloop` goes: back while the counter is not used up (04 R118). -/
def sloopDest (p : Path) (h : Hdr) (o : SLoop) : W64 := if p.getS o.d - 1 ≠ 0 then brTarget p.pc o.toff else p.pc + hdrLen h

theorem retire_sloopBody {o : SLoop} (hi : Issues s r g p h (uSLoop o)) :
    retire s (cxOf s r g p h (uSLoop o)) h (sloopBody o (cxOf s r g p h (uSLoop o)) (issuedSt s r g p h (uSLoop o))) =
      goOn ((issuedSt s r g p h (uSLoop o)).setGroup r.g (g.setPath r.p ((p.issued g h (uSLoop o)).setS o.d (p.getS o.d - 1))))
        (cxOf s r g p h (uSLoop o)) h (sloopDest p h o) := by
  have hset : (issuedSt s r g p h (uSLoop o)).setPath r ((p.issued g h (uSLoop o)).setS o.d (p.getS o.d - 1)) =
      (issuedSt s r g p h (uSLoop o)).setGroup r.g (g.setPath r.p ((p.issued g h (uSLoop o)).setS o.d (p.getS o.d - 1))) := by
    rw [setPath_eq _ (group_issuedSt ..), setPath_setPath]
  rw [← hset, sloopDest]
  by_cases hv : p.getS o.d - 1 ≠ 0
  · rw [if_pos hv, ← retire_jump hi]
    exact congrArg (retire s _ h) (if_pos hv)
  · rw [if_neg hv, ← retire_done hi]
    exact congrArg (retire s _ h) (if_neg hv)

end Bodies

theorem branchesGoOn : Claim.BranchesGoOn := by
  refine fun h => ⟨fun o => ?bru, fun o => ?br, fun o => ?brx, fun o => ?jmp, fun a => ?jmpr, fun a => ?jmpv, ?rcv, ?exit⟩
  case bru => exact run_jump _ h _ _ _ _ (fun _ => rfl) fun _ _ _ _ _ hc => bruBody_goes o hc
  case br =>
    refine run_jump _ h _ _ _ _ (fun _ => rfl) fun _ _ g p _ ⟨hmask, hc⟩ => ?_
    by_cases hall : emaskOf g p h = p.mask
    · rw [if_pos hall]
      exact .inl (brBody_all o hall)
    · rw [if_neg hall]
      exact .inr ⟨brBody_none o hmask (hc.resolve_left hall), rfl⟩
  case brx => exact run_jump _ h _ _ _ _ (fun _ => rfl) fun _ _ _ _ _ ⟨haligned, hsame⟩ => .inl (brxBody_goes o haligned hsame)
  case jmp => exact run_jump _ h _ _ _ _ (fun _ => rfl) fun _ _ _ _ _ _ => .inl rfl
  case jmpr => exact run_jump _ h _ _ _ _ (fun _ => rfl) fun _ _ _ _ _ haligned => .inl (jumpTo_aligned _ _ haligned)
  case jmpv => exact run_jump _ h _ _ _ _ (fun _ => rfl) fun _ _ _ _ _ ⟨haligned, hsame⟩ => .inl (jmpvBody_goes a haligned hsame)
  case rcv => exact run_jump _ h _ _ _ _ (fun _ => rfl) fun _ _ _ _ _ ⟨hser, hc⟩ => .inr ⟨rcvBody_elsewhere hser hc, rfl⟩
  case exit => exact run_jump _ h _ _ _ _ (fun _ => rfl) fun _ _ _ _ _ hnone => .inr ⟨if_pos hnone, rfl⟩

theorem loopCounts : Claim.LoopCounts := by
  intro h o s r g p hi hh
  obtain ⟨t, q, ht, hwent, hquiet, hgoes⟩ :=
    run_regs hi hh g ((p.issued g h (uSLoop o)).setS o.d (p.getS o.d - 1)) (sloopDest p h o) (sloopBody o) (retire_sloopBody hi)
      (keeps_setS g p o.d _)
  refine ⟨t, q, congrArg Host.Outcome.next ht, hwent, hquiet, fun n => ?_⟩
  rw [getS_of_same hgoes, getS_setS, getS_issued]

theorem branchFaults : Claim.BranchFaults := by
  refine fun h => ⟨fun o => ?bru, fun o => ?brx, fun a => ?jmpr, fun a => ?jmpv, fun a => ?callr, ?ret⟩
  case bru => exact run_fault _ h _ _ _ _ (fun _ => rfl) fun _ _ _ _ _ ⟨hall, hnone, huchk⟩ => bruBody_disagrees o hall hnone huchk
  case brx => exact run_fault _ h _ _ _ _ (fun _ => rfl) fun _ _ _ _ _ ⟨_, hl, hpair⟩ => brxBody_misaligned o hl hpair
  case jmpr => exact run_fault _ h _ _ _ _ (fun _ => rfl) fun _ _ _ _ _ hmis => jumpTo_misaligned _ _ hmis
  case jmpv => exact run_fault _ h _ _ _ _ (fun _ => rfl) fun _ _ _ _ _ ⟨huchk, _, hl, hdiff⟩ => jmpvBody_disagrees a huchk hl hdiff
  case callr => exact run_fault _ h _ _ _ _ (fun _ => rfl) fun _ _ _ _ _ hmis => callBody_misaligned _ hmis
  case ret => exact run_fault _ h _ _ _ _ (fun _ => rfl) fun _ _ _ _ _ hmis => retBody_misaligned _ hmis

/-- Settles O35: each instruction by where its effect sends the path, or by the fault that it raises first. -/
theorem branchesJumpsAndLoops : Obligations.BranchesJumpsAndLoops :=
  ⟨branchesGoOn, loopCounts, branchFaults⟩

end Sys2Proof.Machine
end

section
/-! SUPPORT. What translating and meeting an access leave alone, whatever they come to (14 R301-R313): the groups, the queues, and what a handle of a
queue is looked up with (16 R333, R346). -/

namespace Sys2Proof.Machine

/-- The groups are as they were, and every handle names what it named. -/
structure SameQueues (s t : State) : Prop where
  groups : t.groups = s.groups
  queues : t.queues = s.queues
  modnum : t.modnum = s.modnum
  bindings : t.bindings = s.bindings

namespace SameQueues
variable {s t u : State}

theorem refl (s : State) : SameQueues s s := ⟨rfl, rfl, rfl, rfl⟩

theorem trans (h : SameQueues s t) (k : SameQueues t u) : SameQueues s u :=
  ⟨k.groups.trans h.groups, k.queues.trans h.queues, k.modnum.trans h.modnum, k.bindings.trans h.bindings⟩

/-- What differs before is none of these. -/
theorem since (k : SameQueues t u) (h : SameQueues s t := by exact ⟨rfl, rfl, rfl, rfl⟩) : SameQueues s u := h.trans k

theorem foldl {α : Type} {f : State → α → State} (h : ∀ s a, SameQueues s (f s a)) (l : List α) (s : State) : SameQueues s (l.foldl f s) :=
  List.foldlRecOn (motive := SameQueues s) l f (refl s) fun _ hs a _ => hs.trans (h _ a)

/-- A handle is looked up in the queues, the module's number and the bindings (16 R333). -/
theorem handleAt (h : SameQueues s t) (vf : Nat) (x : W64) : handleAt t vf x = handleAt s vf x := by
  simp only [Machine.handleAt, localQueue, State.bound, h.queues, h.modnum, h.bindings]

end SameQueues

/-! ### Writing physical memory -/

theorem sendPieces_sameQueues (ps : List (Nat × Nat)) (s : State) (d : List W8) : SameQueues s (sendPieces s ps d) := by
  induction ps generalizing s d with
  | nil => exact .refl s
  | cons x ps ih =>
    obtain ⟨pa, n⟩ := x
    unfold sendPieces
    extract_lets t
    refine .trans (t := t) ?_ (ih t _)
    unfold t
    split
    · exact ⟨rfl, rfl, rfl, rfl⟩
    · exact .refl s

theorem writePa_sameQueues (s : State) (ps : List (Nat × Nat)) (d : List W8) : SameQueues s (s.writePa ps d) :=
  (sendPieces_sameQueues ps _ d).since

theorem writeAllAt_sameQueues (ps : List (Loc × Nat)) (s : State) (d : List W8) : SameQueues s (writeAllAt s ps d) := by
  induction ps generalizing s d with
  | nil => exact .refl s
  | cons x ps ih =>
    obtain ⟨l, n⟩ := x
    cases l with
    | pa a => exact (writePa_sameQueues s [(a, n)] (d.take n)).trans (ih _ _)
    | _ => exact ih s (d.drop n)

/-! ### The error log and the events of a Paddock -/

theorem logError_sameQueues (s : State) (pa : Nat) (kind : W8) (vf : W16) : SameQueues s (logError s pa kind vf) := ⟨rfl, rfl, rfl, rfl⟩

theorem correct_sameQueues (s : State) (vf : Nat) (lines : List Nat) : SameQueues s (correct s vf lines) := by
  refine .foldl (fun s l => ?_) lines s
  split
  · exact ⟨rfl, rfl, rfl, rfl⟩
  · exact .refl s

theorem hostWrite_sameQueues (s : State) (a : Nat) (d : List W8) : SameQueues s (s.hostWrite a d) := by
  unfold State.hostWrite
  split
  · exact writePa_sameQueues ..
  · exact .refl s

theorem writeEvents_sameQueues (pd n : Nat) (s : State) : SameQueues s (writeEvents s pd n) := by
  induction n generalizing s with
  | zero => exact .refl s
  | succ n ih =>
    unfold writeEvents
    extract_lets p
    split
    · exact .refl s
    · extract_lets t u
      have ht : SameQueues s t := hostWrite_sameQueues ..
      clear_value t
      split
      · exact .refl s
      · exact ht.trans (.since (t := u.msixFire (2 + pd)) (ih _))

theorem postEvent_sameQueues (s : State) (pd kind cause vf reason a : Nat) : SameQueues s (postEvent s pd kind cause vf reason a) := by
  unfold postEvent
  extract_lets d t
  split
  · exact ⟨rfl, rfl, rfl, rfl⟩
  · exact (writeEvents_sameQueues pd 257 t).since

/-! ### Walks and misses -/

theorem hostWait_sameQueues (s : State) (units : List TlbAt) (vf va ipa : Nat) (c : W8) : SameQueues s (hostWait s units vf va ipa c) := by
  unfold hostWait
  split
  · exact .refl s
  · extract_lets pd w
    exact (postEvent_sameQueues ..).since

theorem joinWalk_sameQueues (s : State) (w : Walk) : SameQueues s (joinWalk s w) := by
  unfold joinWalk
  split
  · exact .refl s
  · exact ⟨rfl, rfl, rfl, rfl⟩

theorem addMiss_sameQueues (s : State) (vf page : Nat) : SameQueues s (addMiss s vf page) := by
  unfold addMiss
  split <;> exact ⟨rfl, rfl, rfl, rfl⟩

theorem loadCached_sameQueues (c : Cached) (s : State) (u : TlbAt) : SameQueues s (loadCached c s u) := by
  unfold loadCached
  split
  · exact .refl s
  · exact ⟨rfl, rfl, rfl, rfl⟩

theorem ask_sameQueues (s : State) (who : Asker) (vf g dest : Nat) (mode : ReqMode) (ops : List (Nat × RemoteOp)) (keep : Bool) :
    SameQueues s (ask s who vf g dest mode ops keep) := ⟨rfl, rfl, rfl, rfl⟩

/-- The state in which other modules have answered, or have yet to. -/
def Far.state : Far → State
  | .wait s | .got _ s => s

theorem farDo_sameQueues (s : State) (who : Asker) (vf : Nat) (ops : List (Nat × Nat × RemoteOp)) : SameQueues s (farDo s who vf ops).state := by
  unfold farDo
  split
  · exact .foldl (fun s m => ask_sameQueues s who vf 0 m .once _ false) _ s
  · split <;> exact .refl s

theorem orEntries_sameQueues (l : List Nat) (s : State) (bit : Nat) : SameQueues s (l.foldl (fun s e => orEntry s e bit) s) :=
  .foldl (f := fun s e => orEntry s e bit) (fun _ _ => ⟨rfl, rfl, rfl, rfl⟩) l s

theorem setBits_sameQueues (s : State) (vf : Nat) (es : List Nat) (bit : Nat) : SameQueues s (setBits s vf es bit).2 := by
  unfold setBits
  extract_lets far near
  have hnear (s : State) : SameQueues s (near s) := orEntries_sameQueues _ s bit
  split
  · exact hnear s
  · have hfar := farDo_sameQueues s (.mark vf far bit) vf (far.map fun e => (0, nbits e 49 42, .atom (BitVec.ofNat 64 e) .or .d (1 <<< bit)))
    split
    · rename_i hwait
      rwa [hwait] at hfar
    · rename_i t hgot
      rw [hgot] at hfar
      exact hfar.trans (hnear (dropAsks t _)).since

theorem through_sameQueues (s : State) (vf va : Nat) (k : Acc) (c : Cached) : SameQueues s (through s vf va k c).2 := by
  unfold through
  extract_lets pa
  split
  · exact .refl s
  · split
    · exact logError_sameQueues ..
    · exact .refl s

theorem walked_sameQueues (s : State) (vf va n : Nat) (us : List Use) (lines : List Nat) :
    SameQueues s (endWalk (correct { s.count vf 18 n with uses := us } vf lines) vf va) :=
  (correct_sameQueues _ vf lines).since.trans ⟨rfl, rfl, rfl, rfl⟩

theorem startWalk_sameQueues (s : State) (vf va : Nat) (k : Acc) (again : Bool) : SameQueues s (startWalk s vf va k again).2 := by
  unfold startWalk
  extract_lets lines units walked
  have hwalked (s : State) : SameQueues s (walked s) := walked_sameQueues ..
  clear_value walked
  split
  · rename_i c _
    have hset := setBits_sameQueues s vf [c.leaf1, c.leaf2] 5
    split
    · rename_i t hbits
      rw [hbits] at hset
      exact ((hset.trans (hwalked t)).trans (.foldl (loadCached_sameQueues c) units _)).trans (through_sameQueues ..)
    · rename_i hbits
      rwa [hbits] at hset
  · exact hwalked s
  · exact .refl s
  · exact ⟨rfl, rfl, rfl, rfl⟩
  · exact (hwalked s).trans (logError_sameQueues ..)
  · exact (hwalked s).trans (hostWait_sameQueues ..)

theorem miss_sameQueues (s : State) (vf va : Nat) (k : Acc) : SameQueues s (miss s vf va k).2 := by
  unfold miss
  extract_lets pd t mine turn
  have ht : SameQueues s t := addMiss_sameQueues ..
  split
  · exact joinWalk_sameQueues ..
  · split
    · exact ht.trans (startWalk_sameQueues t vf va k false)
    · exact ht

theorem look_sameQueues (s : State) (vf va : Nat) (k : Acc) : SameQueues s (look s vf va k).2 := by
  unfold look
  extract_lets old now i t
  clear_value old
  cases old with
  | nil =>
    dsimp only
    split
    · exact (through_sameQueues _ vf va k _).since
    · exact miss_sameQueues s vf va k
  | cons c old =>
    dsimp only
    split
    · exact through_sameQueues ..
    · split
      · exact (through_sameQueues t vf va k _).since
      · exact (miss_sameQueues t vf va k).since

theorem seek_sameQueues (s : State) (vf va : Nat) (k : Acc) : SameQueues s (seek s vf va k).2 := by
  unfold seek
  have hlook := look_sameQueues s vf va k
  split
  · exact .refl s
  · split
    · exact hlook
    · split
      · split
        · rename_i hcause
          rwa [hcause] at hlook
        · exact hlook
      · exact .refl s

/-! ### Accesses -/

theorem seekAll_sameQueues (vf : Nat) (k : Acc) (l : List (Nat × Nat)) (s : State) : SameQueues s (seekAll s vf k l).2 := by
  induction l generalizing s with
  | nil => exact .refl s
  | cons q l ih =>
    obtain ⟨a, n⟩ := q
    unfold seekAll
    extract_lets next
    have hnext (l : Loc) (s : State) : SameQueues s (next l s).2 := by
      have ih := ih s
      unfold next
      split
      · rename_i hrest
        rwa [hrest] at ih
      · exact ih
    have hseek := seek_sameQueues s vf a k
    split
    · rename_i h
      rw [h] at hseek
      exact hseek.trans (hnext _ _)
    · rename_i h
      rw [h] at hseek
      exact hseek.trans (hnext _ _)
    · rename_i h
      rwa [h] at hseek

theorem translateChunks_sameQueues (vf : Nat) (k : Acc) (l : List (Nat × Nat)) (s : State) (seen : Option (Nat × Nat)) :
    SameQueues s (translateChunks s vf k seen l).2 := by
  induction l generalizing s seen with
  | nil => exact .refl s
  | cons q l ih =>
    obtain ⟨a, n⟩ := q
    unfold translateChunks
    extract_lets next
    have hnext (seen : Option (Nat × Nat)) (l : Loc) (s : State) : SameQueues s (next seen l s).2 := by
      have ih := ih s seen
      unfold next
      split
      · rename_i hrest
        rwa [hrest] at ih
      · exact ih
    have hseek := seek_sameQueues s vf a k
    split
    · exact hnext _ _ s
    · split
      · rename_i h
        rw [h] at hseek
        exact hseek.trans (hnext _ _ _)
      · rename_i h
        rw [h] at hseek
        exact hseek.trans (hnext _ _ _)
      · rename_i h
        rwa [h] at hseek

theorem translateReqs_sameQueues (vf : Nat) (k : Acc) (qs : List LaneReq) (s : State) : SameQueues s (translateReqs s vf k qs).2 := by
  induction qs generalizing s with
  | nil => exact .refl s
  | cons q qs ih => exact (translateChunks_sameQueues vf k q.chunks s none).trans (ih _)

theorem meet_sameQueues (vf : Nat) (k : Acc) (l1 : Bool) (l : List (Nat × Nat)) (s : State) : SameQueues s (meet s vf k l1 l).2 := by
  induction l generalizing s with
  | nil => exact .refl s
  | cons q l ih =>
    obtain ⟨pa, n⟩ := q
    unfold meet
    split
    · exact logError_sameQueues ..
    · extract_lets t
      exact (correct_sameQueues s vf _).trans (ih _).since

theorem arriveAll_sameQueues (s : State) (vf : Nat) (k : Acc) (order : Option Nat) (vas : List Nat) (ps : List (Nat × Nat)) (l1 walks : Bool) :
    SameQueues s (arriveAll s vf k order vas ps l1 walks).2 := by
  unfold arriveAll
  extract_lets mine shut l es
  split
  · exact logError_sameQueues ..
  · split
    · exact .refl s
    · have hset := setBits_sameQueues s vf es 6
      split
      · rename_i hbits
        rwa [hbits] at hset
      · rename_i t hbits
        rw [hbits] at hset
        have hmet := hset.trans (meet_sameQueues vf k l1 mine t)
        split
        · rename_i hmeet
          rwa [hmeet] at hmet
        · rename_i hmeet
          rw [hmeet] at hmet
          refine hmet.trans ?_
          dsimp only
          split
          · exact ⟨rfl, rfl, rfl, rfl⟩
          · exact .refl _

theorem settleLanes_sameQueues {c : Cx} {s t : State} {k : Acc} {qs : List LaneReq} {ps : List (Lane × Place)} {walks : Bool}
    (h : settleLanes c s k qs ps walks = .ok t) : SameQueues s t := by
  unfold settleLanes at h
  extract_lets xs at h
  have harrive := arriveAll_sameQueues s c.vf k none (xs.map (·.1)) (xs.map (·.2)) (k != .rmw) walks
  split at h
  · cases h
  · cases h
  · rename_i hok
    rw [hok] at harrive
    cases h
    exact harrive

/-- What is translated at issue leaves the queues alone. -/
theorem globalPlaces_sameQueues {c : Cx} {s t : State} {whole : Option Mask} {k : Acc} {qs : List LaneReq} {ps : List (Lane × Place)}
    (hc : c.p.st = .ready) (h : globalPlaces c s whole k qs = .ok (t, ps)) : SameQueues s t := by
  have htr := translateReqs_sameQueues c.vf k qs s
  unfold globalPlaces at h
  simp only [waited_none hc] at h
  split at h
  · cases h
  · split at h
    · cases h
    · split at h
      · cases h; exact htr
      · split at h
        · cases h
        · rename_i hsettle
          cases h
          exact htr.trans (settleLanes_sameQueues hsettle)

theorem devAt_sameQueues (s : State) (who : Asker) (vf : Nat) (k : Acc) (l : List (Nat × Nat)) (op : Nat → W64 → RemoteOp) (order : Option Nat)
    (walks : Bool) : SameQueues s (s.devAt who vf k l op order walks).2 := by
  unfold State.devAt
  have hseek := seekAll_sameQueues vf k l s
  split
  · rename_i hall
    rw [hall] at hseek
    dsimp only
    split
    · exact hseek
    · exact hseek
    · exact hseek.trans ⟨rfl, rfl, rfl, rfl⟩
  · rename_i ps t hall
    rw [hall] at hseek
    extract_lets at_ here far
    have hhere (t : State) (ans : List (Nat × PieceAnswer)) : SameQueues t (here t ans).2 := by
      have harrive := arriveAll_sameQueues t vf k order (at_.map (·.1)) (at_.map (·.2)) false walks
      unfold here
      split
      · rename_i hx
        rwa [hx] at harrive
      · rename_i hx
        rw [hx] at harrive
        exact harrive.trans ⟨rfl, rfl, rfl, rfl⟩
    clear_value here far
    split
    · exact hseek.trans (hhere t [])
    · have hfar := hseek.trans (farDo_sameQueues t who vf far)
      split
      · rename_i hwait
        rwa [hwait] at hfar
      · rename_i hgot
        rw [hgot] at hfar
        split
        · exact hfar.trans ⟨rfl, rfl, rfl, rfl⟩
        · exact hfar.trans (hhere _ _)

theorem devAt_leaves {s t : State} {who : Asker} {vf : Nat} {k : Acc} {l : List (Nat × Nat)} {op : Nat → W64 → RemoteOp}
    {x : Except (Nat × Xlat) (List (Loc × Nat) × List (Nat × PieceAnswer))} (h : s.devAt who vf k l op = (x, t)) : SameQueues s t := by
  have hkept := devAt_sameQueues s who vf k l op none false
  rwa [h] at hkept

end Sys2Proof.Machine
end

section
/-! SUPPORT. Bytes: what a write of physical memory reaches, the record in a lane register (07 R211), and the words of one that is read. -/

namespace Sys2Proof.Machine

/-! ### Little-endian bytes -/

theorem natLe_leNat (d : List W8) : natLe d.length (leNat d) = d := by
  induction d with
  | nil => rfl
  | cons b d ih =>
    have hb : (b.toNat + 256 * leNat d) / 256 = leNat d := by omega
    have hlow : BitVec.ofNat 8 (b.toNat + 256 * leNat d) = b := by
      apply BitVec.eq_of_toNat_eq
      rw [BitVec.toNat_ofNat]
      omega
    simp only [List.length_cons, leNat, natLe, hb, hlow, ih]

theorem leNat_lt (d : List W8) : leNat d < 256 ^ d.length := by
  induction d with
  | nil => exact Nat.one_pos
  | cons b d ih =>
    rw [leNat, List.length_cons, Nat.pow_succ]
    omega

/-- A record of 32 bytes is packed and unpacked. -/
theorem natLe_rec32 {d : List W8} (h : d.length = 32) : natLe 32 (rec32 d).toNat = d := by
  have hlt : leNat d < 2 ^ 256 := (leNat_lt d).trans_eq (by rw [h]; norm_num)
  rw [rec32, BitVec.toNat_ofNat, Nat.mod_eq_of_lt hlt]
  exact (congrArg (natLe · (leNat d)) h.symm).trans (natLe_leNat d)

theorem field_lt (d : List W8) (off n : Nat) : field d off n < 256 ^ n :=
  (leNat_lt _).trans_le (Nat.pow_le_pow_right (by omega) (List.length_take_le ..))

theorem read_drop (m : Memory) (a n k : Nat) : (m.read a n).drop k = m.read (a + k) (n - k) := by
  induction k generalizing a n with
  | zero => rfl
  | succ k ih =>
    cases n with
    | zero => simp [Memory.read]
    | succ n => rw [Memory.read, List.drop_succ_cons, ih, Nat.add_sub_add_right, Nat.add_assoc, Nat.add_comm 1]

theorem read_take (m : Memory) (a : Nat) {n k : Nat} (h : k ≤ n) : (m.read a n).take k = m.read a k := by
  induction k generalizing a n with
  | zero => rfl
  | succ k ih =>
    obtain ⟨n, rfl⟩ := Nat.exists_eq_succ_of_ne_zero (by omega : n ≠ 0)
    rw [Memory.read, List.take_succ_cons, ih (a + 1) (by omega), Memory.read]

/-- A field of what is read is read where it lies. -/
theorem field_read (m : Memory) (a : Nat) {n off k : Nat} (h : off + k ≤ n) : field (m.read a n) off k = m.le (a + off) k := by
  rw [field, read_drop, read_take _ _ (by omega), Memory.le]

/-! ### The record in a lane register (07 R211) -/

/-- The bytes of the words of a lane register, lane 0 first. -/
def recordData (g : Group) (n : VReg) : List W8 := allLanes.flatMap fun l => natLe 4 ((g.seen n).rd l).toNat

theorem natLe_recordOf (g : Group) (n : VReg) : natLe 32 (recordOf g n).toNat = recordData g n := natLe_rec32 rfl

/-! ### What a write reaches -/

theorem sendPieces_mem (ps : List (Nat × Nat)) (s : State) (d : List W8) : (sendPieces s ps d).mem = s.mem := by
  induction ps generalizing s d with
  | nil => rfl
  | cons x ps ih =>
    obtain ⟨pa, n⟩ := x
    unfold sendPieces
    extract_lets t
    refine (ih t _).trans ?_
    unfold t
    split <;> rfl

theorem writePa_mem (s : State) (ps : List (Nat × Nat)) (d : List W8) : (s.writePa ps d).mem = writePieces s.mem ps d :=
  sendPieces_mem ..

theorem wf_writePa {s : State} (h : s.mem.wf = true) (ps : List (Nat × Nat)) (d : List W8) : (s.writePa ps d).mem.wf = true := by
  rw [writePa_mem]
  exact wf_writePieces h ps d

/-- A byte that a piece does not hold is not written. -/
theorem get_writePa_outside {s : State} (h : s.mem.wf = true) {b n a : Nat} (d : List W8) (ha : ¬ (b ≤ a ∧ a < b + n)) :
    (s.writePa [(b, n)] d).mem.get a = s.mem.get a := by
  rw [writePa_mem, writePieces, writePieces]
  split
  · rfl
  · rw [get_write h, if_neg]
    rintro ⟨hlow, hhigh⟩
    exact ha ⟨hlow, hhigh.trans_le (Nat.add_le_add_left (List.length_take_le ..) b)⟩

theorem wf_writeAllAt {s : State} (h : s.mem.wf = true) (ps : List (Loc × Nat)) (d : List W8) : (writeAllAt s ps d).mem.wf = true := by
  induction ps generalizing s d with
  | nil => exact h
  | cons x ps ih =>
    obtain ⟨l, n⟩ := x
    cases l with
    | pa b => exact ih (wf_writePa h ..) _
    | _ => exact ih h _

/-- The bytes of some places in physical memory. -/
def inLocs (ps : List (Loc × Nat)) (a : Nat) : Prop := ∃ b k, (Loc.pa b, k) ∈ ps ∧ b ≤ a ∧ a < b + k

theorem get_writeAllAt_outside {ps : List (Loc × Nat)} {a : Nat} (ha : ¬ inLocs ps a) {s : State} (h : s.mem.wf = true) (d : List W8) :
    (writeAllAt s ps d).mem.get a = s.mem.get a := by
  induction ps generalizing s d with
  | nil => rfl
  | cons x ps ih =>
    obtain ⟨l, n⟩ := x
    have hrest : ¬ inLocs ps a := fun ⟨b, k, hmem, hin⟩ => ha ⟨b, k, .tail _ hmem, hin⟩
    cases l with
    | pa b => exact (ih hrest (wf_writePa h ..) _).trans (get_writePa_outside h _ fun hin => ha ⟨b, n, .head _, hin⟩)
    | _ => exact ih hrest h _

end Sys2Proof.Machine
end

section
/-! SUPPORT and PROOFS. The queue instructions on queues of this module (07 R210-R213, 16 R332-R334). -/

namespace Sys2Proof.Machine

/-! ### Predicate results -/

/-- A predicate in every lane of a mask. -/
def Group.putsK (g : Group) (d : KReg) (m : Mask) (b : Bool) : Group := g.setK d m (if b then 0xFF else 0)

theorem putsK_eq (g : Group) (d : KReg) (m : Mask) (b : Bool) : ∃ k, g.putsK d m b = { g with k := k } := by
  unfold Group.putsK Group.setK
  split <;> exact ⟨_, rfl⟩

theorem setPath_putsK (g : Group) (d : KReg) (m : Mask) (b : Bool) (i : BitVec 3) (p : Path) :
    (g.setPath i p).putsK d m b = (g.putsK d m b).setPath i p := by
  unfold Group.putsK Group.setK
  split <;> rfl

theorem putsK_paths (g : Group) (d : KReg) (m : Mask) (b : Bool) : (g.putsK d m b).paths = g.paths := by
  obtain ⟨k, hk⟩ := putsK_eq g d m b
  rw [hk]

theorem putsK_slots (g : Group) (d : KReg) (m : Mask) (b : Bool) : (g.putsK d m b).slotA = g.slotA ∧ (g.putsK d m b).slotB = g.slotB ∧
    (g.putsK d m b).fifo = g.fifo ∧ (g.putsK d m b).joins = g.joins ∧ (g.putsK d m b).ser = g.ser := by
  obtain ⟨k, hk⟩ := putsK_eq g d m b
  rw [hk]
  exact ⟨rfl, rfl, rfl, rfl, rfl⟩

theorem putsK_has (g : Group) (d k : KReg) (m : Mask) (b : Bool) (l : Lane) :
    ((g.putsK d m b).getK k).has l = if k = d ∧ k ≠ 0 ∧ m.has l then b else (g.getK k).has l := by
  have hall : Mask.has (if b then 0xFF else 0) l = b := by
    revert l
    cases b <;> decide
  rw [Group.putsK, getK_setK, hall]

theorem putKm_eq {c : Cx} {t : State} {G : Group} {q : Path} (d : KReg) (m : Mask) (b : Bool) (hg : t.group c.r.g = some (G.setPath c.r.p q)) :
    putKm c d m b t = t.setGroup c.r.g ((G.putsK d m b).setPath c.r.p q) := by
  rw [← setPath_putsK]
  simp only [putKm, hg]
  rfl

/-- What an instruction leaves that answers in one predicate. -/
def AnswersIn (g : Group) (p : Path) (d : KReg) (m : Mask) (b : Bool) (G : Group) (Q : Path) : Prop :=
  (∀ k, Q.getS k = p.getS k) ∧ G = { g with paths := G.paths, k := G.k } ∧
    ∀ k l, (G.getK k).has l = if k = d ∧ k ≠ 0 ∧ m.has l then b else (g.getK k).has l

theorem putsK_answers {g : Group} {p q : Path} {i : BitVec 3} (d : KReg) (m : Mask) (b : Bool) (hq : ∀ k, q.getS k = p.getS k) :
    AnswersIn g p d m b ((g.putsK d m b).setPath i q) q := by
  obtain ⟨k, hk⟩ := putsK_eq g d m b
  refine ⟨hq, ?_, fun n l => putsK_has g d n m b l⟩
  rw [hk]
  rfl

/-! ### Instructions that complete -/

/-- The memory that an instruction leaves is that of `T`, whichever memory it is compared with. -/
theorem CompletesIn.memory {i : Instr} {h : Hdr} {s S S' T : State} {r : PathRef} {g : Group} {p : Path} {W W' : Nat → Prop}
    {R : Group → Path → Prop} (hc : CompletesIn i h s r g p S T W R)
    (hmem : S'.mem.wf = true → ∀ a, ¬ W' a → T.mem.get a = S'.mem.get a) : CompletesIn i h s r g p S' T W' R := by
  obtain ⟨t, G, q, ht, hwent, hT, hgroups, -, hR⟩ := hc
  refine ⟨t, G, q, ht, hwent, hT, hgroups, fun hwf a ha => ?_, hR⟩
  rw [hT]
  exact hmem hwf a ha

section Completes
variable {s : State} {r : PathRef} {g : Group} {p : Path} {h : Hdr} {u : Uses} {i : Instr} {body : Cx → State → Res}

/-- An instruction completes whose last effect is a predicate in some lanes, the group having been `G` and the state `Y`. -/
theorem putKm_completes {Y T : State} {G : Group} {d : KReg} {m : Mask} {b : Bool} {R : Group → Path → Prop} (hi : Issues s r g p h u)
    (hh : p.hold = false) (he : exec i s = .next (run u h body s))
    (hb : body (cxOf s r g p h u) (issuedSt s r g p h u) = .done (putKm (cxOf s r g p h u) d m b Y)) (hT : Y = { T with groups := Y.groups })
    (hY : Y.groups = s.groups.put r.g (G.setPath r.p (p.issued g h u))) (hpaths : G.paths = g.paths)
    (hslots : G.slotA = g.slotA ∧ G.slotB = g.slotB ∧ G.fifo = g.fifo ∧ G.joins = g.joins ∧ G.ser = g.ser)
    (hR : ∀ q, (∀ n, q.getS n = p.getS n) → R ((G.putsK d m b).setPath r.p q) q) : CompletesIn i h s r g p T T noByte R := by
  have hg : Y.group r.g = some (G.setPath r.p (p.issued g h u)) := (congrArg (KMap.get · r.g) hY).trans (Laws.kget_put_same ..)
  have hput := putKm_eq (c := cxOf s r g p h u) d m b hg
  have hkeeps := putsK_slots G d m b
  obtain ⟨hslotA, hslotB, hfifo, hjoins, hser⟩ := hslots
  rw [hslotA, hslotB, hfifo, hjoins, hser] at hkeeps
  refine run_completes (G := G.putsK d m b) hi hh he (hb.trans (congrArg Res.done hput)) ?_ ?_ ?_ ((putsK_paths ..).trans hpaths) hkeeps hR
  · exact congrArg (fun Z : State => { Z with groups := Y.groups.put r.g ((G.putsK d m b).setPath r.p (p.issued g h u)) }) hT
  · show Y.mem = T.mem
    rw [hT]
  · exact (congrArg (KMap.put · r.g _) hY).trans (Laws.kput_put ..)

/-- An instruction completes that answers in one predicate and changes nothing else of its group. -/
theorem answers_complete {T : State} {d : KReg} {m : Mask} {b : Bool} (hi : Issues s r g p h u) (hh : p.hold = false)
    (he : exec i s = .next (run u h body s))
    (hb : body (cxOf s r g p h u) (issuedSt s r g p h u) = .done (putKm (cxOf s r g p h u) d m b T))
    (hT : T.groups = (issuedSt s r g p h u).groups) : CompletesIn i h s r g p T T noByte (AnswersIn g p d m b) :=
  putKm_completes (G := g) hi hh he hb rfl hT rfl ⟨rfl, rfl, rfl, rfl, rfl⟩ fun _ => putsK_answers d m b

/-- An instruction completes that leaves the registers of its group alone. -/
theorem silent_completes {T : State} (hi : Issues s r g p h u) (hh : p.hold = false) (he : exec i s = .next (run u h body s))
    (hb : body (cxOf s r g p h u) (issuedSt s r g p h u) = .done T) (hT : T.groups = (issuedSt s r g p h u).groups) :
    CompletesIn i h s r g p T T noByte fun G Q => G = g.setPath r.p Q ∧ ∀ k, Q.getS k = p.getS k :=
  run_completes (G := g) hi hh he hb rfl rfl hT rfl ⟨rfl, rfl, rfl, rfl, rfl⟩ fun _ hq => ⟨rfl, hq⟩

end Completes

/-! ### Handles (07 R210, 16 R333) -/

/-- What the checks of a handle that come first raise. -/
def ChecksHandle (c : Cx) (s : State) (x : W64) (right : Nat) (far : Bool) (res : Res) : Prop :=
  (handleAt s c.vf x = .bad → res = badHandle c s) ∧
    ∀ n, handleAt s c.vf x = .here n → x.getLsbD right = false ∨ far = false ∧ x.getLsbD 24 = true → res = badRights c s

theorem withQueue_checks (c : Cx) (s : State) (x : W64) (right : Nat) (far : Bool) (k : HandleAt → Res) :
    ChecksHandle c s x right far (withQueue c s x (x.getLsbD right) far k) := by
  refine ⟨fun hbad => by simp only [withQueue, hbad], fun n hhere hrefused => ?_⟩
  have hr : (!x.getLsbD right || (handleDom x && !far)) = true := by
    rcases hrefused with hright | ⟨hfar, hdom⟩
    · simp [hright]
    · simp [handleDom, hfar, hdom]
  simp only [withQueue, hhere, hr, if_true]

/-- A handle with the right, of a queue here, passes. -/
theorem withQueue_here {c : Cx} {s : State} {x : W64} {right far : Bool} {n : Nat} (k : HandleAt → Res) (hhere : handleAt s c.vf x = .here n)
    (hright : right = true) (hfar : far = true ∨ x.getLsbD 24 = false) : withQueue c s x right far k = k (.here n) := by
  have hr : (!right || (handleDom x && !far)) = false := by
    rcases hfar with hfar | hdom
    · simp [hright, hfar]
    · simp only [hright, handleDom, hdom, Bool.not_true, Bool.false_and, Bool.or_self]
  simp only [withQueue, hhere, hr, Bool.false_eq_true, if_false]

/-- A result of `rwq` at its issue: where it waits, it holds its record. -/
def Res.holding (rec_ : BitVec 256) : Res → Res
  | .remote s w => .remote s { w with record := rec_ }
  | x => x

theorem rwqBody_issued (o : Rwq) {c : Cx} (s : State) (hc : c.p.st = .ready) : ∃ k : HandleAt → Res,
    rwqBody o c s = (withQueue c s (c.g.q.rd o.q) (rightE (c.g.q.rd o.q)) true k).holding (recordOf c.g o.d) ∧
      ∀ n, k (.here n) = rwqPayload o (c.g.q.rd o.q) c s (recordOf c.g o.d) := by
  unfold rwqBody
  simp only [waited_none hc]
  exact ⟨_, rfl, fun _ => rfl⟩

theorem rwqBody_checks (o : Rwq) {c : Cx} (s : State) (hc : c.p.st = .ready) :
    ChecksHandle c s (c.g.q.rd o.q) 26 true (rwqBody o c s) := by
  obtain ⟨k, hbody, -⟩ := rwqBody_issued o s hc
  obtain ⟨hbad, hrights⟩ := withQueue_checks c s (c.g.q.rd o.q) 26 true k
  rw [hbody]
  exact ⟨fun hat => congrArg (Res.holding _) (hbad hat), fun n hat hr => congrArg (Res.holding _) (hrights n hat hr)⟩

theorem handle_faults {s : State} {r : PathRef} {g : Group} {p : Path} {h : Hdr} {u : Uses} {i : Instr} {body : Cx → State → Res} {x : W64}
    {right : Nat} {far : Bool} (hi : Issues s r g p h u) (he : exec i s = .next (run u h body s))
    (hc : ChecksHandle (cxOf s r g p h u) (issuedSt s r g p h u) x right far (body (cxOf s r g p h u) (issuedSt s r g p h u))) :
    (handleAt s (s.vfOf g) x = .bad → exec i s =
      .next (settleHold (deliver (issuedSt s r g p h u) r (FaultInfo.of 0x21 p.mask) p.pc (p.pc + hdrLen h)) r)) ∧
    ∀ n, handleAt s (s.vfOf g) x = .here n → x.getLsbD right = false ∨ far = false ∧ x.getLsbD 24 = true →
      exec i s = .next (settleHold (deliver (issuedSt s r g p h u) r (FaultInfo.of 0x20 p.mask) p.pc (p.pc + hdrLen h)) r) := by
  obtain ⟨hbad, hrights⟩ := hc
  refine ⟨fun hat => ?_, fun n hat hr => ?_⟩
  · rw [he, run_issues hi, hbad hat]
    exact congrArg _ (retire_fault hi _)
  · rw [he, run_issues hi, hrights n hat hr]
    exact congrArg _ (retire_fault hi _)

theorem handleChecks : Claim.HandleChecks := by
  rintro h i u q right far (⟨o, rfl, rfl, rfl, rfl, rfl⟩ | ⟨o, rfl, rfl, rfl, rfl, rfl⟩ | ⟨o, rfl, rfl, rfl, rfl, rfl⟩ |
    ⟨d, rfl, rfl, rfl, rfl, rfl⟩ | ⟨o, rfl, rfl, rfl, rfl, rfl⟩ | ⟨o, rfl, rfl, rfl, rfl, rfl⟩) s r g p hi
  · exact handle_faults hi rfl (by unfold qenqBody; exact withQueue_checks ..)
  · exact handle_faults hi rfl (by unfold removeBody; exact withQueue_checks ..)
  · exact handle_faults hi rfl (by unfold removeBody; exact withQueue_checks ..)
  · exact handle_faults hi rfl (by unfold qeosBody; exact withQueue_checks ..)
  · exact handle_faults hi rfl (rwqBody_checks o _ hi.ready)
  · exact handle_faults hi rfl (by unfold pairsBody; exact withQueue_checks ..)

/-! ### `qenq` and `qeos` (07 R210-R212, 16 R332, R334) -/

theorem queueEvent_sameQueues (s : State) (n kind k : Nat) : SameQueues s (queueEvent s n kind k) := by
  unfold queueEvent offer
  split
  · extract_lets sh
    split
    · exact ⟨rfl, rfl, rfl, rfl⟩
    · exact .refl s
  · exact .refl s

theorem queueEvent_mem (s : State) (n kind k : Nat) : (queueEvent s n kind k).mem = s.mem := by
  unfold queueEvent offer
  split
  · extract_lets sh
    split <;> rfl
  · rfl

theorem HwQueue.full_eq_true {q : HwQueue} (h : q.cap ≤ q.count + q.kept) : q.full = true := decide_eq_true h

theorem HwQueue.full_eq_false {q : HwQueue} (h : q.count + q.kept < q.cap) : q.full = false := decide_eq_false (Nat.not_le.2 h)

/-- The bytes of a record stand at the tail. -/
theorem pushQueue_eq {rec_ : BitVec 256} {d : List W8} (hd : natLe 32 rec_.toNat = d) (s : State) (n : Nat) (q : HwQueue) :
    pushQueue s n q rec_ =
      (s.writePa [(q.store + 32 * ((q.head + q.count) % q.cap), 32)] d).setQueue n { q with count := q.count + 1 } := by
  subst hd
  rfl

theorem qenqBody_here {o : QEnq} {c : Cx} {s : State} {n : Nat} {q : HwQueue} (hat : handleAt s c.vf (c.g.q.rd o.q) = .here n)
    (hright : (c.g.q.rd o.q).getLsbD 26 = true) (hq : s.queues.get n = some q) :
    qenqBody o c s = .done (if q.full then putKm c o.kp c.p.mask true (queueEvent s n 1 c.g.lin)
      else putKm c o.kp c.p.mask false (pushQueue s n q (recordOf c.g o.d))) := by
  unfold qenqBody
  refine (withQueue_here _ hat hright (.inl rfl)).trans ?_
  simp only [enqueue, hq]
  cases q.full <;> rfl

theorem qeosBody_here {d : QReg} {c : Cx} {s : State} {n : Nat} {q : HwQueue} (hat : handleAt s c.vf (c.g.q.rd d) = .here n)
    (hright : (c.g.q.rd d).getLsbD 26 = true) (hq : s.queues.get n = some q) : qeosBody d c s = .done (s.setQueue n q.post) := by
  unfold qeosBody
  refine (withQueue_here _ hat hright (.inl rfl)).trans ?_
  simp only [hq]

theorem queuesTakeRecords : Claim.QueuesTakeRecords := by
  refine fun h s r g p n q hh hq => ⟨fun o hi hat hright => ⟨fun hroom => ?_, fun hfull => ?_⟩, fun d hi hat hright => ?_⟩
  · have hbody := qenqBody_here (c := cxOf s r g p h (uQEnq o)) (s := issuedSt s r g p h (uQEnq o)) hat hright hq
    rw [HwQueue.full_eq_false hroom, pushQueue_eq (natLe_recordOf ..)] at hbody
    refine (answers_complete hi hh rfl hbody (writePa_sameQueues ..).groups).memory fun hwf a ha => ?_
    exact get_writePa_outside (s := issuedSt s r g p h (uQEnq o)) hwf _ ha
  · have hbody := qenqBody_here (c := cxOf s r g p h (uQEnq o)) (s := issuedSt s r g p h (uQEnq o)) hat hright hq
    rw [HwQueue.full_eq_true hfull] at hbody
    refine (answers_complete hi hh rfl hbody (queueEvent_sameQueues ..).groups).memory fun _ a _ => ?_
    exact congrArg (Memory.get · a) (queueEvent_mem ..)
  · have hbody := qeosBody_here (c := cxOf s r g p h (uQEos d)) (s := issuedSt s r g p h (uQEos d)) hat hright hq
    exact (silent_completes hi hh rfl hbody rfl).memory fun _ _ _ => rfl

/-! ### `qdeq` and `qsteal` (07 R210, R211) -/

/-- The words of a record, word l in lane l (07 R211). -/
def recordWords (d : List W8) : Lanes W32 := Bank.gen fun l => BitVec.ofNat 32 (field d (4 * l.toNat) 4)

theorem recordWords_read (m : Memory) (a : Nat) (l : Lane) : (recordWords (m.read a 32)).rd l = BitVec.ofNat 32 (m.le (a + 4 * l.toNat) 4) := by
  rw [recordWords, Laws.rd_gen, field_read m a (by omega)]

theorem removeBody_here {o : QDeq} {tail : Bool} {c : Cx} {s : State} {n : Nat} {q : HwQueue}
    (hat : handleAt s c.vf (c.g.q.rd o.q) = .here n) (hdom : (c.g.q.rd o.q).getLsbD 24 = false)
    (hright : (if tail then rightS (c.g.q.rd o.q) else rightD (c.g.q.rd o.q)) = true) (hq : s.queues.get n = some q) :
    removeBody o tail c s = .done (
      if c.em = 0 then s
      else if q.count = 0 then putKm c o.ke c.em q.eos (putKm c o.kp c.em true (queueEvent s n (if q.eos then 3 else 2) c.g.lin))
      else putKm c o.kp c.em false (land c (removeRec s n q tail).2 c.em [(o.d, recordWords (removeRec s n q tail).1)])) := by
  unfold removeBody
  refine (withQueue_here _ hat hright (.inr hdom)).trans ?_
  simp only [hq]
  split
  · rfl
  · split <;> rfl

/-- The group of a path that takes a record: its words are on their way. -/
def Group.withRecord (g : Group) (id : Nat) (m : Mask) (q : Path) (d : VReg) (x : Lanes W32) : Group :=
  g.withLand { id := id, mask := m, regs := [(d, x)].filter fun y => q.keeps y.1 }

theorem land_record {c : Cx} {s : State} {m : Mask} {G : Group} {q : Path} (d : VReg) (x : Lanes W32) (hm : m ≠ 0)
    (hg : s.group c.r.g = some (G.setPath c.r.p q)) :
    land c s m [(d, x)] =
      ({ s with handle := s.handle + 1 } : State).setGroup c.r.g ((G.withRecord s.handle m c.p d x).setPath c.r.p q) :=
  land_eq [(d, x)] hm hg

section Removes
variable {s : State} {r : PathRef} {g : Group} {p : Path} {h : Hdr} {i : Instr} {o : QDeq} {tail : Bool} {n : Nat} {q : HwQueue}

/-- A record is taken from a queue that has one. -/
theorem remove_takes (hi : Issues s r g p h (uQDeq o)) (hh : p.hold = false) (he : exec i s = .next (run (uQDeq o) h (removeBody o tail) s))
    (hbody : removeBody o tail (cxOf s r g p h (uQDeq o)) (issuedSt s r g p h (uQDeq o)) =
      .done (putKm (cxOf s r g p h (uQDeq o)) o.kp (emaskOf g p h) false
        (land (cxOf s r g p h (uQDeq o)) (removeRec (issuedSt s r g p h (uQDeq o)) n q tail).2 (emaskOf g p h)
          [(o.d, recordWords (removeRec (issuedSt s r g p h (uQDeq o)) n q tail).1)])))
    (hm : emaskOf g p h ≠ 0) {R : Group → Path → Prop}
    (hR : ∀ Q, (∀ k, Q.getS k = p.getS k) → R (((g.withRecord s.handle (emaskOf g p h) (p.issued g h (uQDeq o)) o.d
      (recordWords (s.mem.read (q.at (if tail then q.count - 1 else 0)) 32))).putsK o.kp (emaskOf g p h) false).setPath r.p Q) Q) :
    CompletesIn i h s r g p s { (issuedSt s r g p h (uQDeq o)).setQueue n
      { q with count := q.count - 1, head := if tail then q.head else (q.head + 1) % q.cap } with handle := s.handle + 1 } noByte R := by
  have hg : (removeRec (issuedSt s r g p h (uQDeq o)) n q tail).2.group r.g = some (g.setPath r.p (p.issued g h (uQDeq o))) := group_issuedSt ..
  rw [land_record (c := cxOf s r g p h (uQDeq o)) _ _ hm hg] at hbody
  exact (putKm_completes (G := g.withRecord s.handle (emaskOf g p h) (p.issued g h (uQDeq o)) o.d _) hi hh he hbody rfl (Laws.kput_put ..) rfl
    ⟨rfl, rfl, rfl, rfl, rfl⟩ hR).memory fun _ _ _ => rfl

/-- An empty queue answers so, and whether its stream has ended. -/
theorem remove_empty {T : State} {eos : Bool} {m : Mask} (hi : Issues s r g p h (uQDeq o)) (hh : p.hold = false)
    (he : exec i s = .next (run (uQDeq o) h (removeBody o tail) s))
    (hbody : removeBody o tail (cxOf s r g p h (uQDeq o)) (issuedSt s r g p h (uQDeq o)) =
      .done (putKm (cxOf s r g p h (uQDeq o)) o.ke m eos (putKm (cxOf s r g p h (uQDeq o)) o.kp m true T)))
    (hT : T.groups = (issuedSt s r g p h (uQDeq o)).groups) {R : Group → Path → Prop}
    (hR : ∀ Q, (∀ k, Q.getS k = p.getS k) → R (((g.putsK o.kp m true).putsK o.ke m eos).setPath r.p Q) Q) :
    CompletesIn i h s r g p T T noByte R := by
  have hg : T.group r.g = some (g.setPath r.p (p.issued g h (uQDeq o))) := (congrArg (KMap.get · r.g) hT).trans (group_issuedSt ..)
  rw [putKm_eq (c := cxOf s r g p h (uQDeq o)) o.kp m true hg] at hbody
  refine putKm_completes hi hh he hbody rfl ?_ (putsK_paths ..) (putsK_slots ..) hR
  exact (congrArg (KMap.put · r.g _) hT).trans (Laws.kput_put ..)

end Removes

theorem queuesGiveRecords : Claim.QueuesGiveRecords := by
  intro h s r g p n q o i tail hh hq hi hat hdom hwhich
  have he : exec i s = .next (run (uQDeq o) h (removeBody o tail) s) := by
    rcases hwhich with ⟨rfl, rfl, -⟩ | ⟨rfl, rfl, -⟩ <;> rfl
  have hright : (if tail then rightS (g.q.rd o.q) else rightD (g.q.rd o.q)) = true := by
    rcases hwhich with ⟨-, rfl, hright⟩ | ⟨-, rfl, hright⟩ <;> exact hright
  have hbody := removeBody_here (c := cxOf s r g p h (uQDeq o)) (s := issuedSt s r g p h (uQDeq o)) hat hdom hright hq
  have hem : (cxOf s r g p h (uQDeq o)).em = emaskOf g p h := rfl
  rw [hem] at hbody
  refine ⟨fun hm => ?_, fun hm hcount => ?_, fun hm hcount => ?_⟩
  · rw [if_pos hm] at hbody
    exact (silent_completes hi hh he hbody rfl).memory fun _ _ _ => rfl
  · rw [if_neg hm, if_neg hcount.ne'] at hbody
    refine remove_takes hi hh he hbody hm fun Q hQ => ⟨hQ, ⟨_, ?_, fun l => recordWords_read ..⟩, fun k l => putsK_has _ o.kp k _ false l⟩
    obtain ⟨k, hk⟩ := putsK_eq (g.withRecord s.handle (emaskOf g p h) (p.issued g h (uQDeq o)) o.d
      (recordWords (s.mem.read (q.at (if tail then q.count - 1 else 0)) 32))) o.kp (emaskOf g p h) false
    rw [hk]
    rfl
  · rw [if_neg hm, if_pos hcount] at hbody
    have hkind : (if q.prod ≤ q.posts then 3 else 2) = if q.eos then 3 else 2 := by simp only [HwQueue.eos, decide_eq_true_eq]
    rw [hkind]
    refine (remove_empty hi hh he hbody (queueEvent_sameQueues ..).groups fun Q hQ => ⟨hQ, ?_, fun k l => ?_⟩).memory fun _ a _ => ?_
    · exact congrArg (Memory.get · a) (queueEvent_mem ..)
    · obtain ⟨k, hk⟩ := putsK_eq (g.putsK o.kp (emaskOf g p h) true) o.ke (emaskOf g p h) q.eos
      obtain ⟨j, hj⟩ := putsK_eq g o.kp (emaskOf g p h) true
      rw [hk, hj]
      rfl
    · refine (putsK_has _ o.ke k _ _ l).trans ?_
      rw [putsK_has g o.kp k]
      rfl

/-! ### `rwq` (07 R213, R322) -/

theorem and_three_eq_zero {x : Nat} (h : x % 4 = 0) : BitVec.ofNat 64 x &&& 3 = 0 := by
  apply BitVec.eq_of_toNat_eq
  have hmod : (x % 2 ^ 64) % 2 ^ 2 = 0 := by omega
  rw [BitVec.toNat_and, BitVec.toNat_ofNat]
  exact (Nat.and_two_pow_sub_one_eq_mod _ 2).trans hmod

/-- A handle names a queue by its key and its VF, whatever the queue holds (16 R333). -/
theorem handleAt_setQueue {s : State} {n : Nat} {q q' : HwQueue} (hq : s.queues.get n = some q)
    (hsame : q'.live = q.live ∧ q'.key = q.key ∧ q'.vf = q.vf) (vf : Nat) (x : W64) : handleAt (s.setQueue n q') vf x = handleAt s vf x := by
  have hlocal : localQueue (s.setQueue n q') vf x = localQueue s vf x := by
    obtain ⟨hlive, hkey, hvf⟩ := hsame
    by_cases hn : handleQ x = n
    · simp only [localQueue, State.setQueue, hn, Laws.kget_put_same, hq, hlive, hkey, hvf]
    · simp only [localQueue, State.setQueue, Laws.kget_put_other _ _ hn]
  simp only [handleAt, hlocal]
  rfl

section Rwq
variable {o : Rwq} {x : W64} {c : Cx} {s S : State} {rec_ : BitVec 256} {n : Nat} {q : HwQueue}

/-- A record whose layout is good, and whose payload lies here, asks for a slot. -/
theorem rwqPayload_reserves {d : List W8} {ls : List (Loc × Nat)} (hd : natLe 32 rec_.toNat = d) (hlow : 4 ≤ field d 8 4)
    (hhigh : field d 8 4 ≤ 4096) (hwords : field d 8 4 % 4 = 0) (hsrc : c.p.getS o.b &&& 3 = 0) (hdst : field d 0 8 % 4 = 0)
    (hplaces : globalPlaces c s (some c.p.mask) .rd [⟨0, c.p.getS o.b, pagesOf (c.p.getS o.b).toNat (field d 8 4)⟩] =
      .ok (S, [(0, .here ls)])) :
    rwqPayload o x c s rec_ = rwqReserve o x c S (BitVec.ofNat 64 (field d 0 8)) (S.readLocs ls) rec_ := by
  have hsize : ¬ (field d 8 4 < 4 ∨ 4096 < field d 8 4 ∨ field d 8 4 % 4 ≠ 0) := by omega
  simp only [rwqPayload, hd, if_neg hsize, hsrc, and_three_eq_zero hdst, ne_eq, not_true_eq_false, if_false, hplaces]
  simp [performAt, Place.isRemote, readPlaces_eq, Place.all]

theorem rwqReserve_full {dst : W64} {d : List W8} (hat : handleAt S c.vf x = .here n) (hq : S.queues.get n = some q) (hfull : q.full = true) :
    rwqReserve o x c S dst d rec_ = .done (putKm c o.kp c.p.mask true (queueEvent (dropAsks S (.path c.r)) n 1 c.g.lin)) := by
  have hat' : handleAt (dropAsks S (.path c.r)) c.vf x = .here n := hat
  have hq' : (dropAsks S (.path c.r)).queues.get n = some q := hq
  simp only [rwqReserve, hat', hq', hfull, if_true]
  rfl

theorem rwqReserve_room {dst : W64} {d : List W8} (hat : handleAt S c.vf x = .here n) (hq : S.queues.get n = some q) (hroom : q.full = false) :
    rwqReserve o x c S dst d rec_ = rwqSend o x c ((dropAsks S (.path c.r)).setQueue n q.keep) dst d rec_ := by
  have hat' : handleAt (dropAsks S (.path c.r)) c.vf x = .here n := hat
  have hq' : (dropAsks S (.path c.r)).queues.get n = some q := hq
  simp only [rwqReserve, hat', hq', hroom, Bool.false_eq_true, if_false]

theorem payloadModule_here {vf : Nat} {dst : W64} (h : isDomain dst.toNat = false) : payloadModule s vf dst = none := by
  simp only [payloadModule, h, Bool.false_and, Bool.false_eq_true, if_false]

/-- A payload whose pages all translate is written, and its record takes the slot. -/
theorem rwqSend_delivers {dst : W64} {d : List W8} {ps : List (Loc × Nat)} {as : List (Nat × PieceAnswer)}
    (hat : handleAt s c.vf x = .here n) (hq : s.queues.get n = some q) (hdst : isDomain dst.toNat = false)
    (hdev : s.devAt (.path c.r) c.vf .wr (pagesOf dst.toNat d.length)
      (fun i a => .write a (payloadPart dst d ((pagesOf dst.toNat d.length).getD i (0, 0)))) = (.ok (ps, as), S)) :
    rwqSend o x c s dst d rec_ = .done (putKm c o.kp c.p.mask false (pushQueue (writeAllAt S ps d) n q.unkeep rec_)) := by
  have hwritten := (devAt_leaves hdev).trans (writeAllAt_sameQueues ps S d)
  have hat' := (hwritten.handleAt c.vf x).trans hat
  have hq' : (writeAllAt S ps d).queues.get n = some q := (congrArg (KMap.get · n) hwritten.queues).trans hq
  simp only [rwqSend, payloadModule_here hdst, payloadPieces, hdev, rwqRecord, hat', hq']
  rfl

/-- A queue with room keeps a slot while the payload is written, and its record takes the slot. -/
theorem rwqReserve_delivers {a : Nat} {d : List W8} {ps : List (Loc × Nat)} {as : List (Nat × PieceAnswer)} {S' : State}
    (hat : handleAt S c.vf x = .here n) (hq : S.queues.get n = some q) (hroom : q.full = false) (ha : a < 2 ^ 64) (hdst : isDomain a = false)
    (hdev : ((dropAsks S (.path c.r)).setQueue n q.keep).devAt (.path c.r) c.vf .wr (pagesOf a d.length)
      (fun i y => .write y (payloadPart (BitVec.ofNat 64 a) d ((pagesOf a d.length).getD i (0, 0)))) = (.ok (ps, as), S')) :
    rwqReserve o x c S (BitVec.ofNat 64 a) d rec_ =
      .done (putKm c o.kp c.p.mask false (pushQueue (writeAllAt S' ps d) n q rec_)) := by
  have hnat : (BitVec.ofNat 64 a).toNat = a := Nat.mod_eq_of_lt ha
  have hkeep : handleAt ((dropAsks S (.path c.r)).setQueue n q.keep) c.vf x = .here n :=
    (handleAt_setQueue (s := dropAsks S (.path c.r)) (q' := q.keep) hq ⟨rfl, rfl, rfl⟩ ..).trans hat
  rw [rwqReserve_room hat hq hroom]
  exact rwqSend_delivers (q := q.keep) hkeep (Laws.kget_put_same ..) (by rwa [hnat]) (by rwa [hnat])

/-- An `rwq` whose handle passes does as its record says. -/
theorem rwqBody_here {T : State} {r : PathRef} {g : Group} {p : Path} {h : Hdr} (hi : Issues s r g p h (uRwq o))
    (hat : handleAt s (s.vfOf g) (g.q.rd o.q) = .here n) (hright : (g.q.rd o.q).getLsbD 26 = true)
    (hpayload : rwqPayload o (g.q.rd o.q) (cxOf s r g p h (uRwq o)) (issuedSt s r g p h (uRwq o)) (recordOf g o.d) = .done T) :
    rwqBody o (cxOf s r g p h (uRwq o)) (issuedSt s r g p h (uRwq o)) = .done T := by
  obtain ⟨k, hbody, hk⟩ := rwqBody_issued (c := cxOf s r g p h (uRwq o)) o (issuedSt s r g p h (uRwq o)) hi.ready
  have hpass := withQueue_here (c := cxOf s r g p h (uRwq o)) (s := issuedSt s r g p h (uRwq o)) k hat hright (.inl (rfl : true = true))
  exact hbody.trans (congrArg (Res.holding _) (hpass.trans ((hk n).trans hpayload)))

end Rwq

theorem payloadsDeliver : Claim.PayloadsDeliver := by
  intro h s r g p n q o S S1 ls dst size d hh hq hi hat hright hd hdstOf hsizeOf hlow hhigh hwords hsrc hdst hdom hplaces hS1
  subst hdstOf hsizeOf hS1
  have hS := globalPlaces_sameQueues (c := cxOf s r g p h (uRwq o)) hi.ready hplaces
  have hatS : handleAt S (s.vfOf g) (g.q.rd o.q) = .here n := (hS.handleAt _ _).trans hat
  have hqS : S.queues.get n = some q := (congrArg (KMap.get · n) hS.queues).trans hq
  have hrecord : natLe 32 (recordOf g o.d).toNat = d := (natLe_recordOf g o.d).trans hd.symm
  have hreads := rwqPayload_reserves (o := o) (x := g.q.rd o.q) (c := cxOf s r g p h (uRwq o)) hrecord hlow hhigh hwords hsrc hdst hplaces
  refine ⟨fun hfull => ?_, fun ps as S' hroom hlen hdev => ?_⟩
  · have hbody := rwqBody_here hi hat hright (hreads.trans (rwqReserve_full hatS hqS (HwQueue.full_eq_true hfull)))
    refine (answers_complete hi hh rfl hbody ((queueEvent_sameQueues ..).groups.trans hS.groups)).memory fun _ a _ => ?_
    exact congrArg (Memory.get · a) (queueEvent_mem ..)
  · have hdst64 : field d 0 8 < 2 ^ 64 := (field_lt d 0 8).trans_eq (by norm_num)
    have hbody := rwqBody_here hi hat hright
      (hreads.trans (rwqReserve_delivers hatS hqS (HwQueue.full_eq_false hroom) hdst64 hdom (hlen.symm ▸ hdev)))
    rw [pushQueue_eq hrecord] at hbody
    have hpayload := (devAt_leaves hdev).trans (writeAllAt_sameQueues ps S' (S.readLocs ls))
    have hgroups := hpayload.groups.trans hS.groups
    refine (answers_complete hi hh rfl hbody ((writePa_sameQueues ..).groups.trans hgroups)).memory fun hwf a ha => ?_
    obtain ⟨houtPayload, houtRecord⟩ := not_or.1 ha
    exact (get_writePa_outside (wf_writeAllAt hwf ..) d houtRecord).trans (get_writeAllAt_outside houtPayload hwf _)

/-- Settles O46: each instruction by what its effect leaves once its handle has passed, and each refused handle by the fault that it raises, in
every lane of MASK (log entry 41); that `pairs` admits no handle with DOM = 1 is log entry 26. -/
theorem queueRecords : Obligations.QueueRecords :=
  ⟨queuesTakeRecords, queuesGiveRecords, handleChecks, payloadsDeliver⟩

end Sys2Proof.Machine
end
